-- ==== Sys2Proof/Word.lean ====
section
/-!
DEFINITION. Word and byte types, the index types of the module's repeated parts, and the operand types of its commands.
-/

namespace Sys2Proof

abbrev Byte := BitVec 8
/-- Every register is 32 bits wide (R2). -/
abbrev Word := BitVec 32

/-- Script cores 0 to 11. -/
abbrev CoreId := Fin 12
/-- Scalar registers s0 to s31. -/
abbrev Sreg := Fin 32
/-- Vector registers v0 to v7. -/
abbrev Vreg := Fin 8
/-- Predicate registers p0 to p7. -/
abbrev Preg := Fin 8
/-- Take handles 0 to 7 (R127). -/
abbrev HandleId := Fin 8
/-- EMIT destinations: rings A, B, C and the local bridge. -/
abbrev DestId := Fin 4
/-- Rings A, B, C. -/
abbrev RingId := Fin 3
/-- A cell of a ring by position minus one: value 0 is position 01, value 39 is position 40 (R19). -/
abbrev CellId := Fin 40
/-- Optical ports P0 to P7 (R195). -/
abbrev LaneId := Fin 8
/-- Power domains in the order of FLT sources 0 to 11: AON, SAFA, SAFB, MTR, CORE, PLAN, RING, STRM, HOST, DRAM, ANLG, GATE. -/
abbrev DomainId := Fin 12
/-- Inverter legs U, V, W, N. -/
abbrev LegId := Fin 4
/-- Trip inputs TRIP0 to TRIP3. -/
abbrev TripId := Fin 4
/-- Units counted 0 to 7: compare units, sampling groups, converters. -/
abbrev UnitId := Fin 8
/-- Capture units 0 to 3. -/
abbrev CaptId := Fin 4
/-- Energy registers 0 to 18: IMP, EXP, RES, DEL1 to DEL8, RET1 to RET8. -/
abbrev EnergyId := Fin 19
/-- Safety inputs SI0 to SI15. -/
abbrev SafetyInputId := Fin 16
/-- Safety functions F0 to F7. -/
abbrev FuncId := Fin 8
/-- Fault sources 0 to 383 (R425). -/
abbrev SourceId := Fin 384
/-- History queues of the 16 privileged sources (R434). -/
abbrev HistId := Fin 16
/-- Junction temperature sensors 0 to 8. -/
abbrev SensorId := Fin 9
/-- Host ports: 0 Ethernet A, 1 Ethernet B, 2 service port. -/
abbrev HostPort := Fin 3
/-- The two PTP ports: 0 Ethernet A, 1 Ethernet B. -/
abbrev EthId := Fin 2

/-- Who makes a register access or a request, coded as SUP.REFUSE.REQUESTER. -/
inductive Requester where
  | host (h : HostPort)
  | core (n : CoreId)
  /-- An applied take or the start-up firmware writing on behalf of the module. -/
  | unit
  deriving DecidableEq, Repr

/-- The two directions of a ring (R19). -/
inductive Dir where
  | cw
  | ccw
  deriving DecidableEq, Repr

/-- The data lanes of a port (R195): L0 and L1, and L3 of P6. -/
inductive DataLane where
  | l0
  | l1
  | l3
  deriving DecidableEq, Repr

/-- A block as it stands on a data lane (R199): its position in the epoch, its sync header, and its payload scrambled, bit 0
first on the lane. -/
structure LineBlock where
  pos  : Nat
  head : BitVec 2
  body : BitVec 64
  deriving DecidableEq, Repr

/-- A block without its line coding: its position, whether it is a control block, and its payload. -/
structure LaneBlock where
  pos  : Nat
  ctl  : Bool
  bits : BitVec 64
  deriving DecidableEq, Repr

/-- Why a trained port fails (R224). -/
inductive PortFault where
  | moduleLost
  | clockLost
  | blockLockLost
  deriving DecidableEq, Repr

/-- The two channels of the safe-disconnect function. -/
inductive Channel where
  | a
  | b
  deriving DecidableEq, Repr

/-- The references a converter may use besides the internal one (R351). -/
inductive RefSource where
  | external
  | supply
  deriving DecidableEq, Repr

/-- The three memories with scrubbing; MEM.UESRC.MEM codes 0, 1, 2. -/
inductive MemKind where
  | sram
  | mram
  | dram
  deriving DecidableEq, Repr

/-- What a live stream packet carries (R501). -/
inductive StreamSrc where
  | ring (x : RingId)
  | group (g : UnitId)
  deriving DecidableEq, Repr

/-- Header of an accepted host request: its port, its sender and its counter (R464). -/
structure Dgram where
  port : HostPort
  ip   : Word
  udp  : BitVec 16
  ctr  : BitVec 64
  deriving DecidableEq, Repr

/-- A record on its way to the general log (R450): the time of its first occurrence in LTIME, its type and priority,
the number of occurrences, and words 2 to 6. -/
structure LogEntry where
  ltime : Nat
  kind  : BitVec 8
  high  : Bool
  count : Nat
  w2    : BitVec 64
  w3    : BitVec 64
  w4    : BitVec 64
  w5    : BitVec 64
  w6    : BitVec 64
  deriving DecidableEq, Repr

end Sys2Proof
end

