-- ==== Sys2Proof/Syntax.lean ====
section
/-!
DEFINITION. The commands and events of the ZN-8640, one constructor for each row of spec/opcode_table.json.
The table gives its rows no bits and no operand fields; the operands are those the row's rule speaks of.
-/

namespace Sys2Proof

/-- One command or event. A command of a core names the core `n` that executes it; a cell event names ring `x` and cell `k`. -/
inductive Instr where
  /-- REGISTER_WRITE (R8): A write to a register that has no row of its own is accepted, held pending or rejected according to the access codes of its fields. -/
  | registerWrite (req : Requester) (addr : Nat) (value : Word)
  /-- RC_READ (R13): A read of an RC register returns its value and returns the cleared fields to their reset values. -/
  | rcRead (req : Requester) (addr : Nat)
  /-- POWER_ON (R513): The rectified voltage at X1 first exceeds 110 V and the input stage starts the start-up sequence. -/
  | powerOn
  /-- DOMAIN_POWER_UP (R513): SUP powers the next domain or group of domains in the start-up order once the steps it depends on are complete. -/
  | domainPowerUp
  /-- RING_READY (R514): Every enabled ring is trained, enumerated and admitted, and SUP writes SUP.START. -/
  | ringReady (ms : Nat)
  /-- AUX_SUPPLY_LOSS (R509): X1 has stayed below 75 V for 12 ms, so SUP declares the loss, switches in the hold-up store and starts the controlled stop and log close. -/
  | auxSupplyLoss
  /-- HOLDUP_END (R28): The hold-up store is exhausted and the SAFA and SAFB domains lose power. -/
  | holdupEnd
  /-- AUX_SUPPLY_RETURN (R512): X1 returns after a loss; SUP switches every domain off at the later instant, holds them off for 200 ms and restarts from power-on. -/
  | auxSupplyReturn
  /-- BROWN_OUT (R511): The rectified voltage lies from 75 V to 110 V and SUP.STAT.BROWN is set. -/
  | brownOut (volts : Nat)
  /-- STORE_MEASURE (R510): SUP measures the hold-up store at start and every 10 s, and sets STORELOW when it holds below 2.2 J. -/
  | storeMeasure (milliJoule : Nat)
  /-- DOMAIN_LOSS (R32): A power domain is lost or faulted, its FLT source is set, and the consequence that the single-failure table gives follows. -/
  | domainLoss (d : DomainId)
  /-- RTIME_ISLAND_STOP (R33): I_RTIME stops or leaves its frequency band and the stop sequencer begins a controlled stop. -/
  | rtimeIslandStop
  /-- STOP_INSTANT (R259): The named epoch start of a commanded or controlled stop is reached; the cells block and the local bridge turns every leg off. -/
  | stopInstant
  /-- POWER_STATE_UPDATE (R531): At the first I_AON edge at or after the stop instant SUP.MODE.PWR takes STOPPED or SAFE_STOP. -/
  | powerStateUpdate
  /-- REQ_PRECHARGE (R42): A write of code 0x1 to SUP.MODE_REQ requests the move from STOPPED to PRECHARGE. -/
  | reqPrecharge (req : Requester)
  /-- REQ_RUN (R42): A write of code 0x2 to SUP.MODE_REQ requests the move from PRECHARGE to RUN. -/
  | reqRun (req : Requester)
  /-- REQ_STOP (R42): A write of code 0x3 to SUP.MODE_REQ requests a commanded stop that ends in STOPPED. -/
  | reqStop (req : Requester)
  /-- REQ_SAFE_STOP (R42): A write of code 0x4 to SUP.MODE_REQ requests a stop that ends in SAFE_STOP. -/
  | reqSafeStop (req : Requester)
  /-- REQ_CLEAR (R42): A write of code 0x5 to SUP.MODE_REQ requests the move from SAFE_STOP to STOPPED. -/
  | reqClear (req : Requester)
  /-- REQ_RIDE (R42): A write of code 0x6 to SUP.MODE_REQ requests the move from RUN to RIDE_THROUGH. -/
  | reqRide (req : Requester)
  /-- REQ_RESUME (R42): A write of code 0x7 to SUP.MODE_REQ requests the move from RIDE_THROUGH to RUN. -/
  | reqResume (req : Requester)
  /-- REQ_UNDEFINED (R48): A write of a code from 0x8 to 0xF to SUP.MODE_REQ is refused with ORDER. -/
  | reqUndefined (req : Requester) (low : BitVec 3)
  /-- ARBITER_DECISION (R49): At an I_AON edge the SUP mode arbiter decides one pending request against the current state, and either moves the axis or refuses the request. -/
  | arbiterDecision
  /-- PERIOD_TICK (R68): The period timer reaches the next tick and paces the cores, PLAN, the ADC grid and the telemetry instants. -/
  | periodTick
  /-- CORE_ENABLE_WRITE (R74): A write to CORE.ENABLE places newly enabled cores in WAIT and halts cleared cores at once. -/
  | coreEnableWrite (req : Requester) (value : Word)
  /-- CORE_PERIOD_WRITE (R69): A write to CORE.PERIOD is range-checked and takes effect at the first tick at or after its application. -/
  | corePeriodWrite (req : Requester) (value : Word)
  /-- LOAD_WINDOW_READ (R95): A read of CORE.LDATAn returns the IMEM or DMEM word at LADDR and advances LADDR.WORD. -/
  | loadWindowRead (req : Requester) (n : CoreId)
  /-- LOAD_WINDOW_WRITE (R96): A write to CORE.LDATAn replaces the word at LADDR with its check bits and advances LADDR.WORD. -/
  | loadWindowWrite (req : Requester) (n : CoreId) (value : Word)
  /-- DATA_ACCESS_COMPLETE (R52): A core's stalled load or store to SRAM, MRAM, DRAM, a register block or the mailbox completes and the core continues. -/
  | dataAccessComplete (n : CoreId) (cycles : Nat)
  /-- LD_IN_RESUME (R108): A waiting LD.IN finds the slot's real data present or reaches its timeout and writes the register and pv. -/
  | ldInResume (n : CoreId)
  /-- EMIT_FIFO_ROOM (R121): A core stalled on a full EMIT FIFO finds room and its EMIT enters the FIFO. -/
  | emitFifoRoom (n : CoreId)
  /-- COMPARE_POINT (R81): A speculative run reaches its compare point and is committed or squashed by comparing real inputs with predictions. -/
  | comparePoint (n : CoreId)
  /-- STORE_DRAIN_END (R85): The buffered stores of a committed run finish draining and a held core may start its next speculative run. -/
  | storeDrainEnd (n : CoreId)
  /-- DRAIN_TRAP (R532): A buffered store ends with a bus error as it drains, is not performed, and the core traps with cause DRAIN. -/
  | drainTrap (n : CoreId)
  /-- ILLEGAL_INSTRUCTION (R97): An undefined instruction word raises trap ILLEGAL with no other effect. -/
  | illegalInstruction (n : CoreId) (word : Word)
  /-- ADD (R101): Adds two scalar registers with a 32-bit wrap. -/
  | add (n : CoreId) (rd ra rb : Sreg)
  /-- SUB (R101): Subtracts two scalar registers with a 32-bit wrap. -/
  | sub (n : CoreId) (rd ra rb : Sreg)
  /-- AND (R101): Writes the bitwise AND of two scalar registers. -/
  | and (n : CoreId) (rd ra rb : Sreg)
  /-- OR (R101): Writes the bitwise OR of two scalar registers. -/
  | or (n : CoreId) (rd ra rb : Sreg)
  /-- XOR (R101): Writes the bitwise exclusive OR of two scalar registers. -/
  | xor (n : CoreId) (rd ra rb : Sreg)
  /-- SLL (R101): Shifts a register left by rb[4:0]. -/
  | sll (n : CoreId) (rd ra rb : Sreg)
  /-- SRL (R101): Shifts a register logically right by rb[4:0]. -/
  | srl (n : CoreId) (rd ra rb : Sreg)
  /-- SRA (R101): Shifts a register arithmetically right by rb[4:0]. -/
  | sra (n : CoreId) (rd ra rb : Sreg)
  /-- SLT (R101): Writes 1 when ra is less than rb, both signed, and 0 otherwise. -/
  | slt (n : CoreId) (rd ra rb : Sreg)
  /-- SLTU (R101): Writes 1 when ra is less than rb, both unsigned, and 0 otherwise. -/
  | sltu (n : CoreId) (rd ra rb : Sreg)
  /-- MUL (R101): Writes the low 32 bits of the product. -/
  | mul (n : CoreId) (rd ra rb : Sreg)
  /-- MULH (R101): Writes the high 32 bits of the signed 64-bit product. -/
  | mulh (n : CoreId) (rd ra rb : Sreg)
  /-- DIV (R102): Writes the signed quotient truncated toward zero, trapping DIVZERO on a zero divisor. -/
  | div (n : CoreId) (rd ra rb : Sreg)
  /-- DIVU (R102): Writes the unsigned quotient, trapping DIVZERO on a zero divisor. -/
  | divu (n : CoreId) (rd ra rb : Sreg)
  /-- REM (R102): Writes the signed remainder with the sign of ra, trapping DIVZERO on a zero divisor. -/
  | rem (n : CoreId) (rd ra rb : Sreg)
  /-- ADDS (R101): Adds two registers and saturates the result to the 32-bit signed range. -/
  | adds (n : CoreId) (rd ra rb : Sreg)
  /-- SUBS (R101): Subtracts two registers and saturates the result to the 32-bit signed range. -/
  | subs (n : CoreId) (rd ra rb : Sreg)
  /-- ADDI (R101): Adds a sign-extended immediate to a register. -/
  | addi (n : CoreId) (rd ra : Sreg) (imm : BitVec 16)
  /-- ANDI (R101): ANDs a register with a zero-extended immediate. -/
  | andi (n : CoreId) (rd ra : Sreg) (imm : BitVec 16)
  /-- ORI (R101): ORs a register with a zero-extended immediate. -/
  | ori (n : CoreId) (rd ra : Sreg) (imm : BitVec 16)
  /-- SLTI (R101): Writes 1 when ra is less than the sign-extended immediate. -/
  | slti (n : CoreId) (rd ra : Sreg) (imm : BitVec 16)
  /-- SLLI (R97): Shifts a register left by an immediate amount. -/
  | slli (n : CoreId) (rd ra : Sreg) (imm : BitVec 16)
  /-- SRLI (R97): Shifts a register logically right by an immediate amount. -/
  | srli (n : CoreId) (rd ra : Sreg) (imm : BitVec 16)
  /-- SRAI (R97): Shifts a register arithmetically right by an immediate amount. -/
  | srai (n : CoreId) (rd ra : Sreg) (imm : BitVec 16)
  /-- LUI (R101): Writes the immediate shifted left by 16 bits. -/
  | lui (n : CoreId) (rd : Sreg) (imm : BitVec 16)
  /-- LI (R98): Writes the extension word that follows the instruction to a register. -/
  | li (n : CoreId) (rd : Sreg)
  /-- BEQ (R103): Branches when two registers are equal. -/
  | beq (n : CoreId) (ra rd : Sreg) (imm : BitVec 16)
  /-- BNE (R103): Branches when two registers differ. -/
  | bne (n : CoreId) (ra rd : Sreg) (imm : BitVec 16)
  /-- BLT (R103): Branches on a signed less-than comparison. -/
  | blt (n : CoreId) (ra rd : Sreg) (imm : BitVec 16)
  /-- BGE (R103): Branches on a signed greater-or-equal comparison. -/
  | bge (n : CoreId) (ra rd : Sreg) (imm : BitVec 16)
  /-- BLTU (R103): Branches on an unsigned less-than comparison. -/
  | bltu (n : CoreId) (ra rd : Sreg) (imm : BitVec 16)
  /-- BGEU (R103): Branches on an unsigned greater-or-equal comparison. -/
  | bgeu (n : CoreId) (ra rd : Sreg) (imm : BitVec 16)
  /-- J (R103): Jumps to a relative target, trapping ALIGN when the target is outside IMEM. -/
  | j (n : CoreId) (imm : BitVec 16)
  /-- CALL (R56): Writes the return address to s31 and jumps to a relative target. -/
  | call (n : CoreId) (imm : BitVec 16)
  /-- JR (R51): Jumps to the address in a register, trapping ALIGN when the target is invalid. -/
  | jr (n : CoreId) (ra : Sreg)
  /-- LW (R104): Loads 32 bits from an aligned address. -/
  | lw (n : CoreId) (rt ra : Sreg) (off : BitVec 16)
  /-- LH (R104): Loads 16 bits and sign-extends them. -/
  | lh (n : CoreId) (rt ra : Sreg) (off : BitVec 16)
  /-- LHU (R104): Loads 16 bits and zero-extends them. -/
  | lhu (n : CoreId) (rt ra : Sreg) (off : BitVec 16)
  /-- LB (R104): Loads 8 bits and sign-extends them. -/
  | lb (n : CoreId) (rt ra : Sreg) (off : BitVec 16)
  /-- LBU (R104): Loads 8 bits and zero-extends them. -/
  | lbu (n : CoreId) (rt ra : Sreg) (off : BitVec 16)
  /-- SW (R104): Stores 32 bits, or buffers the store in a speculative run. -/
  | sw (n : CoreId) (rt ra : Sreg) (off : BitVec 16)
  /-- SH (R441): Stores 16 bits, merging into the check word in WORD mode. -/
  | sh (n : CoreId) (rt ra : Sreg) (off : BitVec 16)
  /-- SB (R441): Stores 8 bits, merging into the check word in WORD mode. -/
  | sb (n : CoreId) (rt ra : Sreg) (off : BitVec 16)
  /-- LD_SMP (R106): Loads an ADC sample word, checks its tag and writes the sign-extended value, trapping TAG on a failed check. -/
  | ldSmp (n : CoreId) (rt ra : Sreg) (off : BitVec 16)
  /-- VLD (R105): Loads a 49-word vector image without renormalising it. -/
  | vld (n : CoreId) (vd : Vreg) (ra : Sreg) (off : BitVec 16)
  /-- VST (R105): Stores a vector register as a 49-word image. -/
  | vst (n : CoreId) (vd : Vreg) (ra : Sreg) (off : BitVec 16)
  /-- LD_IN (R108): Reads an input slot: a prediction in a speculative run, or real data after waiting outside one. -/
  | ldIn (n : CoreId) (reg : Sreg) (pv : Preg) (slot : BitVec 8)
  /-- PRED_SET (R110): Sets a slot's SCRIPT prediction from a register, rounding and saturating it to input codes. -/
  | predSet (n : CoreId) (slot : BitVec 8) (reg : Sreg)
  /-- SF_ADD (R111): Adds two SF scalars as one stage. -/
  | sfAdd (n : CoreId) (rd ra rb : Sreg)
  /-- SF_SUB (R111): Subtracts two SF scalars as one stage. -/
  | sfSub (n : CoreId) (rd ra rb : Sreg)
  /-- SF_MUL (R111): Multiplies two SF scalars as one stage. -/
  | sfMul (n : CoreId) (rd ra rb : Sreg)
  /-- SF_ABS (R111): Writes the absolute value of an SF scalar. -/
  | sfAbs (n : CoreId) (rd ra : Sreg)
  /-- SF_SLT (R111): Writes integer 1 when one SF value is less than another. -/
  | sfSlt (n : CoreId) (rd ra rb : Sreg)
  /-- SF_SLE (R111): Writes integer 1 when one SF value is at most another. -/
  | sfSle (n : CoreId) (rd ra rb : Sreg)
  /-- SF_FROMI (R111): Converts a signed integer to an SF word. -/
  | sfFromi (n : CoreId) (rd ra : Sreg)
  /-- SF_TOI (R111): Converts an SF word to the nearest integer, saturating and setting SAT. -/
  | sfToi (n : CoreId) (rd ra : Sreg)
  /-- SF_SCALE (R111): Multiplies an SF scalar by a power of two given as a signed integer. -/
  | sfScale (n : CoreId) (rd ra rb : Sreg)
  /-- VADD (R59): Adds two vectors on the predicated lanes as one stage. -/
  | vadd (n : CoreId) (vd va vb : Vreg) (pg : Preg)
  /-- VSUB (R59): Subtracts two vectors on the predicated lanes as one stage. -/
  | vsub (n : CoreId) (vd va vb : Vreg) (pg : Preg)
  /-- VMUL (R59): Multiplies two vectors exactly, then renormalises as one stage. -/
  | vmul (n : CoreId) (vd va vb : Vreg) (pg : Preg)
  /-- VMAC (R59): Adds the product of two vectors to the destination with one rounding. -/
  | vmac (n : CoreId) (vd va vb : Vreg) (pg : Preg)
  /-- VNEG (R59): Negates a vector on the predicated lanes. -/
  | vneg (n : CoreId) (vd va : Vreg) (pg : Preg)
  /-- VABS (R59): Writes the absolute value of a vector on the predicated lanes. -/
  | vabs (n : CoreId) (vd va : Vreg) (pg : Preg)
  /-- VMIN (R59): Writes the lane-wise minimum of two vectors. -/
  | vmin (n : CoreId) (vd va vb : Vreg) (pg : Preg)
  /-- VMAX (R59): Writes the lane-wise maximum of two vectors. -/
  | vmax (n : CoreId) (vd va vb : Vreg) (pg : Preg)
  /-- VCLAMP (R59): Clamps each lane of a vector between two bound vectors. -/
  | vclamp (n : CoreId) (vd va vb vc : Vreg) (pg : Preg)
  /-- VSCALE (R59): Scales a vector by a power of two given in a scalar. -/
  | vscale (n : CoreId) (vd va : Vreg) (rs : Sreg) (pg : Preg)
  /-- VMOV (R59): Copies a vector on the predicated lanes and renormalises it. -/
  | vmov (n : CoreId) (vd va : Vreg) (pg : Preg)
  /-- VBCAST (R59): Broadcasts an SF scalar to the predicated lanes. -/
  | vbcast (n : CoreId) (vd : Vreg) (rs : Sreg) (pg : Preg)
  /-- VSEL (R59): Selects each lane from one of two vectors by the predicate. -/
  | vsel (n : CoreId) (vd va vb : Vreg) (pg : Preg)
  /-- VGET (R62): Writes one lane of a vector to a scalar as an SF word. -/
  | vget (n : CoreId) (rs : Sreg) (va : Vreg) (idx : BitVec 6)
  /-- VSET (R59): Writes an SF scalar into one lane of a vector as one stage. -/
  | vset (n : CoreId) (vd : Vreg) (rs : Sreg) (idx : BitVec 6)
  /-- VSUM (R113): Sums the predicated lanes of a vector into an SF scalar with one rounding. -/
  | vsum (n : CoreId) (rs : Sreg) (va : Vreg) (pg : Preg)
  /-- VDOT (R113): Writes the dot product of two vectors over the predicated lanes. -/
  | vdot (n : CoreId) (rs : Sreg) (va vb : Vreg) (pg : Preg)
  /-- VMAXR (R113): Writes the index of the largest predicated lane. -/
  | vmaxr (n : CoreId) (rs : Sreg) (va : Vreg) (pg : Preg)
  /-- VMINR (R113): Writes the index of the smallest predicated lane. -/
  | vminr (n : CoreId) (rs : Sreg) (va : Vreg) (pg : Preg)
  /-- VCMPLT (R100): Sets predicate bits where one vector lane is less than another. -/
  | vcmplt (n : CoreId) (pd : Preg) (va vb : Vreg) (pg : Preg)
  /-- VCMPLE (R100): Sets predicate bits where one vector lane is at most another. -/
  | vcmple (n : CoreId) (pd : Preg) (va vb : Vreg) (pg : Preg)
  /-- PAND (R58): Writes the AND of two predicate registers. -/
  | pand (n : CoreId) (pd pa pb : Preg)
  /-- POR (R58): Writes the OR of two predicate registers. -/
  | por (n : CoreId) (pd pa pb : Preg)
  /-- PNOT (R58): Writes the complement of a predicate register. -/
  | pnot (n : CoreId) (pd pa : Preg)
  /-- PSETL (R58): Sets the low 32 bits of a predicate register from a scalar. -/
  | psetl (n : CoreId) (pd : Preg) (rs : Sreg)
  /-- PSETH (R58): Sets the high 16 bits of a predicate register from a scalar. -/
  | pseth (n : CoreId) (pd : Preg) (rs : Sreg)
  /-- PGET (R100): Copies one half of a predicate register to a scalar. -/
  | pget (n : CoreId) (rs : Sreg) (pa : Preg) (h : BitVec 3)
  /-- PCNT (R100): Counts the bits set in the AND of two predicates. -/
  | pcnt (n : CoreId) (rs : Sreg) (pa pg : Preg)
  /-- PI_STEP (R115): Advances a clamped PI integrator and writes the clamped output in two stages. -/
  | piStep (n : CoreId) (vd va vb : Vreg) (pg : Preg) (rp : Sreg)
  /-- HYST (R118): Sets or clears predicate bits where lanes leave a hysteresis band. -/
  | hyst (n : CoreId) (pd : Preg) (va : Vreg) (pg : Preg) (rp : Sreg)
  /-- MINSEL (R119): Selects the smallest of up to three candidate vectors per lane and records the winner in a predicate pair. -/
  | minsel (n : CoreId) (vd va : Vreg) (cnt : BitVec 2) (pg : Preg) (pw : Preg)
  /-- SETP (R117): Clamps a vector to a set-point range as one stage. -/
  | setp (n : CoreId) (vd va : Vreg) (pg : Preg) (rp : Sreg)
  /-- EMIT (R120): Sends a reference vector with its residues, destination, quantity and period to PLAN. -/
  | emit (n : CoreId) (va : Vreg) (pg : Preg) (dest qty : BitVec 4)
  /-- NOP (R99): Does nothing for one cycle. -/
  | nop (n : CoreId)
  /-- WAITP (R71): Ends the periodic run and waits for the next tick, or starts the latest pending or speculative period. -/
  | waitp (n : CoreId)
  /-- RETT (R125): Leaves state TRAP and continues after the trapping instruction, or traps NOTRAP outside TRAP. -/
  | rett (n : CoreId)
  /-- BREAK (R90): Raises trap BREAK. -/
  | brk (n : CoreId)
  /-- RDSYS (R100): Writes a system value chosen by sel to a register. -/
  | rdsys (n : CoreId) (rd : Sreg) (sel : BitVec 5)
  /-- TK_OPEN (R128): Opens a take with the lowest free handle and returns it, or returns -1 when eight are open. -/
  | tkOpen (n : CoreId) (rd : Sreg)
  /-- TK_WR (R132): Adds a register or SRAM write to an open take, cutting it on a refused write or a full buffer. -/
  | tkWr (n : CoreId) (rd ra rb : Sreg)
  /-- TK_PRINT (R138): Prints an open take at a chosen boundary and moves it to PENDING. -/
  | tkPrint (n : CoreId) (ra rb : Sreg) (bnd : BitVec 5)
  /-- TK_CUT (R131): Cuts an open or pending take of this core with reason ABANDONED. -/
  | tkCut (n : CoreId) (ra : Sreg)
  /-- TK_STAT (R123): Returns the state and cut reason of a take. -/
  | tkStat (n : CoreId) (rd ra : Sreg)
  /-- TAKE_APPLY (R143): At its boundary instant a pending take is checked and either applied in full to every target or cut. -/
  | takeApply (h : HandleId)
  /-- TAKE_OPEN_TIMEOUT (R146): A take stays OPEN longer than TAKE.CTRL.TMO and is cut with TIMEOUT. -/
  | takeOpenTimeout (h : HandleId)
  /-- TAKE_WAIT_TIMEOUT (R146): A pending take finds no boundary within its wait limit and is cut with TIMEOUT. -/
  | takeWaitTimeout (h : HandleId)
  /-- EMIT_RECEIVED (R153): PLAN takes in an EMIT, checks its quantity, residues and lateness, and rebuilds the real draft of its period. -/
  | emitReceived (n : CoreId)
  /-- BUILD_CUT (R160): The build cut of a schedule is reached and the field values and FAIL bits in force then govern it. -/
  | buildCut (d : DestId)
  /-- COMMIT (R163): At the commit instant PLAN fixes the real draft or the extension draft, numbers the records and starts dispatch. -/
  | commit (d : DestId)
  /-- DISPATCH (R181): PLAN sends the committed records to the cells and the local-bridge entries to BRG, checking each CRC as it leaves. -/
  | dispatch (d : DestId)
  /-- PLAN_BYP_WRITE (R182): A write to PLAN.BYPx sets the cell's FAIL bit and sends or withholds AMEND records for its committed records. -/
  | planBypWrite (req : Requester) (x : RingId) (value : Word)
  /-- FAIL_CLEAR (R187): A 1 written to a PLAN FAIL bit clears it only while no standing condition holds. -/
  | failClear (req : Requester) (x : RingId) (high : Bool) (value : Word)
  /-- TRAINING_ATTEMPT (R222): A ring port with EN set starts a training attempt through module check, DLL lock, clock wait, eye scan and block lock. -/
  | trainingAttempt (p : LaneId)
  /-- MODULE_READY (R197): The optical module clears Data_Not_Ready and the port reads its items and writes its control bytes. -/
  | moduleReady (p : LaneId) (identifier powerClass : BitVec 8) (cdrControl : Bool)
  /-- TRAINING_TIMEOUT (R222): An attempt that does not reach TRAINED within 1.0 s enters FAILED with the code of the step that did not complete. -/
  | trainingTimeout (p : LaneId) (present : Bool := true) (eyes : List Nat := [0, 0, 0])
  /-- TRAINING_RETRY (R222): A port 1.0 s in FAILED with EN set starts its next attempt. -/
  | trainingRetry (p : LaneId)
  /-- RETRAIN (R223): A 1 written to RING.LCTRLp.RETRAIN restarts training unless that would cut a running ring at both ends. -/
  | retrain (req : Requester) (p : LaneId)
  /-- PORT_TRAINED (R222): A port completes block lock and deskew and enters TRAINED. -/
  | portTrained (p : LaneId) (skew : Nat)
  /-- RX_CLOCK_PRESENT (R219): The neighbour's forwarded clock appears on the receive L2 and training continues. -/
  | rxClockPresent (p : LaneId) (ppb : Int := 0)
  /-- RXCLK_LOST (R219): The received L2 clock is absent or off frequency and block lock on both data lanes is treated as lost. -/
  | rxclkLost (p : LaneId)
  /-- BLOCK_LOCK_GAINED (R200): A receiver sees 64 consecutive valid sync headers and gains block lock. -/
  | blockLockGained (p : LaneId) (lane : DataLane) (phase eye : Nat)
  /-- BLKLOCK_LOST (R201): 16 of 64 headers are invalid; the lane loses block lock and recovers by eye scan. -/
  | blklockLost (p : LaneId) (lane : DataLane)
  /-- PORT_FAILED (R224): A trained port loses its module, its clock for 1 ms or its block lock for 300 µs and enters FAILED. -/
  | portFailed (p : LaneId) (cause : PortFault)
  /-- DLL_LOCK (R208): A DLL gates its output and searches band and fine step over successive epochs. -/
  | dllLock (p : LaneId) (delayPs : Nat)
  /-- DLL_GATE_OPEN (R208): The DLL's phase error holds at two epochs and the gate opens on a full cycle. -/
  | dllGateOpen (p : LaneId) (errorPs : Int)
  /-- DLL_LOSS_OF_LOCK (R210): The phase error exceeds 100 ps at two epochs; LOL and CLK_DLL are set and the DLL relocks. -/
  | dllLossOfLock (p : LaneId) (errorPs : Int)
  /-- DLL_RELOCK (R211): A 1 written to a bit of CLK.DLLCMD relocks that port's DLL. -/
  | dllRelock (req : Requester) (value : Word)
  /-- REFSEL_WRITE (R215): A write that changes CLK.CTRL.REFSEL switches the active oscillator and relocks every DLL. -/
  | refselWrite (req : Requester) (value : Word)
  /-- MAIN_OSCILLATOR_FAIL (R213): The main oscillator stops or drifts beyond 50 ppm and CLK changes over to the spare. -/
  | mainOscillatorFail (lasts : Nat := 0)
  /-- SPARE_OSCILLATOR_FAIL (R216): The spare loses its lock to the main and SPAREFAIL is set. -/
  | spareOscillatorFail (lasts : Nat := 0)
  /-- EXT_REFERENCE_LOST (R218): The 10 MHz input is lost or off frequency and the steering value is held. -/
  | extReferenceLost
  /-- EXT_REFERENCE_RETURN (R218): The 10 MHz input returns and steering resumes under the slew limit. -/
  | extReferenceReturn (ppb : Int := 0)
  /-- TRK_FREEZE (R220): A tracker counts below 32 transitions for 101 windows and freezes. -/
  | trkFreeze (p : LaneId) (lane : DataLane) (windows : Option Nat := none)
  /-- TRACKER_RESUME (R221): A frozen tracker sees a window of at least 32 transitions and resumes. -/
  | trackerResume (p : LaneId) (lane : DataLane) (centre : BitVec 6 := 0)
  /-- MGMT_TRANSFER (R198): A GO written to RING.MGMTp starts one SFF-8636 management transfer, refusing protected bytes. -/
  | mgmtTransfer (req : Requester) (p : LaneId) (value : Word)
  /-- MGMT_TRANSFER_DONE (R230): A management transfer completes and BUSY clears. -/
  | mgmtTransferDone (p : LaneId) (data : BitVec 8)
  /-- TAPS_WRITE (R204): A write to RING.TAPSp is range-checked and takes effect at the next epoch start. -/
  | tapsWrite (req : Requester) (p : LaneId) (value : Word)
  /-- SUMMARY_RETURN (R242): A SUMM frame returns to the module and RING combines both copies of each slot and reacts. -/
  | summaryReturn (x : RingId) (cw ccw : List (BitVec 8)) (lines : List LineBlock × List LineBlock := ([], []))
  /-- SUMMARY_SLOT_TIMEOUT (R242): A cell's slot is invalid in both copies for 4 consecutive ring cycles and its admission is withdrawn. -/
  | summarySlotTimeout (x : RingId) (k : CellId)
  /-- CLAPPER_LAUNCH (R237): At the clapper interval both ports of a ring launch CLAP at position 5 of one epoch. -/
  | clapperLaunch (x : RingId)
  /-- CLAPR_RECEIVED (R246): RING receives a cell's CLAPR report and computes its distance, offset and correction. -/
  | claprHeard (p : LaneId) (blocks : List LineBlock) (loopCw loopCcw : Nat)
  /-- ENUM_START (R251): Both ports reach TRAINED, or RING.RCMDx.ENUM is written, and RING sends ENUM from each port. -/
  | enumStart (x : RingId)
  /-- ENUM_RETURN (R252): The ENUM copies return and the enumeration succeeds or fails. -/
  | enumReturn (x : RingId) (countCw countCcw : BitVec 8) (lines : List LineBlock × List LineBlock := ([], []))
  /-- ADMISSION (R253): RING admits an enumerated cell through descriptor check, configuration writes, three clappers and ADMIT. -/
  | admission (x : RingId) (k : CellId)
  /-- ADMISSION_CLAPR_TIMEOUT (R253): A cell's CLAPR does not return within 128 epochs and its admission fails. -/
  | admissionClaprTimeout (x : RingId) (k : CellId)
  /-- EVT_RECEIVED (R266): RING receives an EVT frame and queues it when its sequence number is new and its class meets the threshold. -/
  | evtHeard (p : LaneId) (blocks : List LineBlock) (full : Bool)
  /-- EVTQ_READ (R13): A read of RING.EVTQ3 returns the event data and removes the head record. -/
  | evtqRead (req : Requester)
  /-- TLM_RECEIVED (R274): RING writes a cell's telemetry into its bank, and writes the period stamp once every admitted cell has reported. -/
  | tlmHeard (p : LaneId) (blocks : List LineBlock) (full : Bool)
  /-- TLM_WAIT_EXPIRY (R274): The telemetry wait after a tick expires and RING writes the period stamp. -/
  | tlmWaitExpiry (x : RingId)
  /-- CELL_ACCESS_GO (R269): A 1 written to RING.CACMD.GO sends a REGRQ in both directions. -/
  | cellAccessGo (req : Requester) (value : Word)
  /-- REGRSP_RECEIVED (R269): The first valid REGRSP ends a cell register access. -/
  | regrspHeard (p : LaneId) (blocks : List LineBlock)
  /-- CAPD_RECEIVED (R367): A cell-capture unit records one copy of each CAPD frame and fills gaps with 0x8000. -/
  | capdHeard (p : LaneId) (blocks : List LineBlock) (full : Bool := false)
  /-- CELL_ACCESS_TIMEOUT (R269): A cell register access receives no REGRSP within 60 µs and ends with TIMEOUT. -/
  | cellAccessTimeout
  /-- CELL_FIRST_CLOCK (R535): A cell takes its first forwarded clock and forwards it in both directions. -/
  | cellFirstClock (x : RingId) (k : CellId) (dir : Dir) (desc : List Word := [])
  /-- CELL_EPOCH (R535): A cell decodes an EPOCH block and, on the first, sets its count. -/
  | cellEpoch (x : RingId) (k : CellId) (dir : Dir) (epoch : BitVec 35) (heard : List LaneBlock := [])
  /-- CELL_CLOCK_CHANGEOVER (R243): A cell loses its clockwise clock and changes over to the counter-clockwise one. -/
  | cellClockChangeover (x : RingId) (k : CellId) (otherPresent : Bool := true)
  /-- CLK_JUMP (R244): A lost clock returns to a cell; the cell returns to it, or blocks and enters NOTADM. -/
  | clkJump (x : RingId) (k : CellId) (diffPs : Nat) (dir : Dir := .cw)
  /-- CELL_CLAP (R245): A cell stamps a CLAP copy, suspends any slew and reports CLAPR. -/
  | cellClap (x : RingId) (k : CellId) (dir : Dir) (num : BitVec 8) (heard : List LaneBlock := [])
  /-- CELL_TSET (R247): A cell steps or slews its count by a TSET correction. -/
  | cellTset (x : RingId) (k : CellId) (step : Bool) (corr : BitVec 40) (dir : Dir := .cw) (heard : List LaneBlock := [])
  /-- CELL_ENUM (R251): A cell takes its position from an ENUM and forwards it with COUNT advanced. -/
  | cellEnum (x : RingId) (k : CellId) (dir : Dir) (count : BitVec 8) (heard : List LaneBlock := [])
  /-- CELL_ADMIT (R253): A cell receives ADMIT and becomes admitted. -/
  | cellAdmit (x : RingId) (k : CellId) (dir : Dir := .cw) (heard : List LaneBlock := [])
  /-- CELL_UNADMIT (R256): A cell receives UNADMIT and blocks in NOTADM. -/
  | cellUnadmit (x : RingId) (k : CellId) (dir : Dir := .cw) (heard : List LaneBlock := [])
  /-- CELL_ARM (R258): An admitted cell accepts ARM, logs ARMED and discards records timed before it. -/
  | cellArm (x : RingId) (k : CellId) (epoch : Word) (dir : Dir := .cw) (heard : List LaneBlock := []) (pos : Nat := 0)
  /-- CELL_STOP (R256): A cell receives STOP, discards held records and blocks at the stop instant. -/
  | cellStop (x : RingId) (k : CellId) (reason : BitVec 8) (epoch : BitVec 35) (dir : Dir := .cw) (heard : List LaneBlock := [])
  /-- HB_LOST (R256): A cell decodes no heartbeat word on either L3 input for 16 µs and blocks. -/
  | hbLost (x : RingId) (k : CellId)
  /-- FRAMING_LOST (R256): A cell finds no valid EPOCH on either L0 input for 3 epochs and blocks. -/
  | framingLost (x : RingId) (k : CellId)
  /-- NO_PSTART (R256): A running cell holds no PSTART record when one is due and blocks. -/
  | noPstart (x : RingId) (k : CellId)
  /-- CELL_INTERNAL_FAULT (R256): A cell detects an internal fault and enters FAULT. -/
  | cellInternalFault (x : RingId) (k : CellId) (low : BitVec 6)
  /-- CELL_RECORD_ACCEPT (R261): A cell checks a received record and holds, amends or discards it. -/
  | cellRecordAccept (x : RingId) (k : CellId) (record : BitVec 128) (dir : Dir := .cw) (heard : List LaneBlock := [])
  /-- CELL_RECORD_EXECUTE (R262): A cell's count reaches a record's TIME and it applies the record's gate state. -/
  | cellRecordExecute (x : RingId) (k : CellId)
  /-- CELL_REGRQ (R267): A cell executes a register request at most once per TAG and answers REGRSP. -/
  | cellRegrqHeard (x : RingId) (k : CellId) (dir : Dir) (ctl data : BitVec 64)
  /-- LINK_LOST (R270): A cell whose L0 input loses framing loops its other direction back and keeps running. -/
  | linkLost (x : RingId) (k : CellId) (dir : Dir) (l3 : Option Bool := none)
  /-- CELL_LOOP_REMOVE (R271): A cell's lost input shows valid framing for 1,024 epochs and the cell removes its loop. -/
  | cellLoopRemove (x : RingId) (k : CellId) (dir : Dir)
  /-- CELL_TELEMETRY_SEND (R274): A cell samples its telemetry at a tick and sends a TLM frame within 1 µs. -/
  | cellTelemetrySend (x : RingId) (k : CellId) (quant : List (BitVec 16) := [])
  /-- CELL_CAPTURE_SAMPLE (R365): A cell with capture enabled samples its quantities at the selected epoch starts and sends CAPD frames. -/
  | cellCaptureSample (x : RingId) (k : CellId) (quant : List (BitVec 16) := [])
  /-- RTIMEL_READ (R277): A read of TIME.RTIMEL latches the high RTIME bits into TIME.RTIMEH. -/
  | rtimelRead (req : Requester)
  /-- LTIMEL_READ (R277): A read of TIME.LTIMEL latches the high LTIME bits into TIME.LTIMEH. -/
  | ltimelRead (req : Requester)
  /-- GTIME_REANCHOR (R280): At every whole GTIME second TIME re-anchors the mapping and applies any pending rate update. -/
  | gtimeReanchor
  /-- PTP_EVENT_MESSAGE (R290): A PTP event message passes the medium boundary of X6 or X7 and is stamped in RTIME. -/
  | ptpEventMessage (port : EthId) (transmit : Bool) (messageType : BitVec 4) (sequenceId : BitVec 16)
  /-- SYNC_MEASUREMENT (R295): The servo measures the offset per Sync and slews it or schedules a step. -/
  | syncMeasurement (theta : Int) (kFreq : Int) (utcOffset : Int)
  /-- GTIME_STEP (R296): At the chosen whole second GTIME steps by the pending offset, which is logged and reported to MTR. -/
  | gtimeStep
  /-- HOLDOVER (R297): The parent's Announce or Sync times out, or links or HOST are lost, and the time source goes to HOLDOVER. -/
  | holdover
  /-- HOLDMAX_EXPIRY (R297): HOLDOVER has lasted HOLDMAX and the time source goes to FREE. -/
  | holdmaxExpiry
  /-- TIME_PAIR_SEND (R283): Every 60 s while locked TIME sends MTR a GTIME and MTIME-target pair. -/
  | timePairSend
  /-- COMPARE_FIRE (R284): RTIME reaches an armed compare instant; the unit fires, delivers its event and re-arms or disarms. -/
  | compareFire (u : UnitId)
  /-- CMP_DISARM (R286): A 1 written to TIME.CMPCTLn.DISARM disarms the compare unit. -/
  | cmpDisarm (req : Requester) (u : UnitId)
  /-- PEER_CLAPPER_LAUNCH (R301): The leader launches a peer clapper every 1,024 epochs and measures the loop time. -/
  | peerClapperLaunch (loopTime fwdSum followers : Nat)
  /-- PCLAP (R504): A follower stamps a PCLAP, adds its forwarding latency and position, and forwards it. -/
  | pclapHeard (blocks : List LineBlock) (fwd : Nat)
  /-- PTIME (R303): A follower receives PTIME, computes its offset and steps, slews or flags misalignment. -/
  | ptimeHeard (blocks : List LineBlock)
  /-- PEER_LOST (R304): The peer link fails and each module that loses its input keeps its RTIME and flags the loss. -/
  | peerLost
  /-- PEER_RETURN (R304): The peer link returns and the follower measures its offset again. -/
  | peerReturn
  /-- PWM_PERIOD_START (R309): A local-bridge PWM period starts; each leg takes its state and its period, duty and dead time and places its edges. -/
  | pwmPeriodStart
  /-- BRG_ENTRY_RECEIVED (R312): BRG receives a PLAN local-bridge entry and checks its CRC. -/
  | brgEntryReceived (entry : BitVec 128)
  /-- TRIP (R317): A filtered trip input becomes active and turns off every leg it acts on to the end of the period. -/
  | trip (t : TripId) (input : Option (Bool × Nat) := none)
  /-- LATCHED_CLEAR (R321): A 1 written to a LATCHED bit clears it unless a LATCH trip on that leg is still active. -/
  | latchedClear (req : Requester) (legs : BitVec 4)
  /-- GATE_SUPPLY_LOCKOUT (R326): A gate supply falls below its lock-out and the leg goes to FAULT, or withholds a turn-on while OFF or in CHARGE. -/
  | gateSupplyLockout (x : LegId) (high negative : Bool) (seen : Option (Nat × Nat) := none)
  /-- DESATURATION_FAULT (R329): A switch's desaturation sense exceeds DSTH after blanking and its leg starts soft turn-off. -/
  | desaturationFault (x : LegId) (high : Bool) (mv : Option Nat := none)
  /-- OVERCURRENT_FAULT (R330): A leg's over-current sense stays above OCTH for 150 ns and the leg starts soft turn-off. -/
  | overcurrentFault (x : LegId) (seen : Option (Nat × Nat) := none)
  /-- SOFT_TURNOFF_START (R332): A waiting leg begins soft turn-off once 200 ns have passed since another leg's start. -/
  | softTurnoffStart (x : LegId)
  /-- SOFT_TURNOFF_END (R331): After 2 µs of soft turn-off the gates are held at V minus with the programmed sink. -/
  | softTurnoffEnd (x : LegId)
  /-- GATE_FAULT_CLEAR (R334): A 1 written to GATE.STATx.FAULT clears the leg fault when its supplies and over-current input allow it. -/
  | gateFaultClear (req : Requester) (x : LegId)
  /-- GATE_COMMAND_LOSS (R335): A gate channel's command is absent for 200 ns and it holds its gate off. -/
  | gateCommandLoss (x : LegId) (high : Bool) (primary : Option Bool := none)
  /-- PSTARTL_READ (R312): A read of BRG.PSTARTL latches the high bits of the last period start. -/
  | pstartlRead (req : Requester)
  /-- CONVERSION_SLOT (R338): At a conversion slot all 32 channels are sampled, tagged and passed to the groups, the capture units and the detector. -/
  | conversionSlot (codes : List Int) (full : Word := 0) (nv : List Int := []) (bad : Word := 0) (strmFull : Word := 0)
  /-- GROUP_STAMP_WRITE (R346): The DMA writes a group frame's period stamp after its last sample word. -/
  | groupStampWrite (g : UnitId)
  /-- GBUF_WRITE (R349): A write to ADC.GBUFg sets the buffer and resumes a halted group at the next period. -/
  | gbufWrite (req : Requester) (g : UnitId) (value : Word)
  /-- REFERENCE_SETTLED (R352): A converter's reference settling time ends and SETTLED is set. -/
  | referenceSettled (k : UnitId)
  /-- REFERENCE_LOST (R353): An external reference or sensor supply leaves its range and SETTLED clears. -/
  | referenceLost (ref : RefSource)
  /-- REFERENCE_RETURN (R353): A lost reference returns and its settling time starts. -/
  | referenceReturn (ref : RefSource) (nv : Nat := 5000000000)
  /-- CALIBRATE (R354): A 1 written to ADC.CALCMD.GO starts an 18 ms calibration, or is refused. -/
  | calibrate (req : Requester) (converters : BitVec 8)
  /-- CALIBRATION_DONE (R355): A calibration completes and writes GAIN and OFFS to CALk as an applied write. -/
  | calibrationDone (k : UnitId) (gain offs : BitVec 16)
  /-- ZXTL_READ (R357): A read of ADC.ZXTL latches the high bits of the detection instant. -/
  | zxtlRead (req : Requester)
  /-- ARM (R362): A capture ARM command starts recording from IDLE, DONE, ABORTED or LOST, or is refused. -/
  | arm (req : Requester) (u : CaptId)
  /-- FORCE (R362): A capture FORCE command makes the next record the trigger record. -/
  | force (req : Requester) (u : CaptId)
  /-- ABORT (R362): A capture ABORT command ends an armed or triggered unit in ABORTED. -/
  | abort (req : Requester) (u : CaptId)
  /-- MTR_SAMPLE (R371): The island samples all 16 metrology channels and accumulates power. -/
  | mtrSample (codes : List Int)
  /-- ENERGY_SECOND (R372): At each MTIME second the island integrates energy into its registers. -/
  | energySecond
  /-- INTERVAL_SNAPSHOT (R380): At each interval the island snapshots all registers and writes nine INTERVAL records. -/
  | intervalSnapshot (bad : Bool := false)
  /-- TIME_PAIR_RECEIVED (R376): The island computes its offset from a TIME pair and slews MTIME within its daily budget. -/
  | timePairReceived (gtimeNs : Nat) (target : Int)
  /-- STEP_SEEN (R377): The island logs a step report from TIME without moving MTIME. -/
  | stepSeen (theta : Int) (gtimeSec : Nat)
  /-- MTIME_DAY_END (R377): At the end of an MTIME day with adjustment the island logs TIME_ADJ and restarts its budget. -/
  | mtimeDayEnd
  /-- UNSYNC_TIMEOUT (R378): No pair has been accepted for 24 h and records carry TUNSYNC. -/
  | unsyncTimeout
  /-- SESS_START (R381): Opens a dispenser session and logs SESSION_START. -/
  | sessStart (req : Requester) (arg : BitVec 8)
  /-- SESS_END (R381): Closes a dispenser session and logs SESSION_END. -/
  | sessEnd (req : Requester) (arg : BitVec 8)
  /-- MTR_READOUT (R384): Makes a signed READOUT record of a channel into MTR.LRECw. -/
  | mtrReadout (req : Requester) (arg : BitVec 8)
  /-- PARAM_ENTER (R391): Enters the PARAM state from the service port while the cover is open. -/
  | paramEnter (req : Requester)
  /-- PARAM_EXIT (R392): Ends PARAM and, on any change, advances PSET and logs PARAM_CHANGE. -/
  | paramExit (req : Requester)
  /-- TIME_SET (R379): Takes MTIME to the target of the last pair in PARAM and logs a seal event. -/
  | timeSet (req : Requester)
  /-- MTR_CMD_UNDEFINED (R398): An undefined mailbox command code is refused with ORDER. -/
  | mtrCmdUndefined (req : Requester) (code : BitVec 8)
  /-- MTR_COMMAND_EXECUTE (R383): The island takes the next queued command, signs its record and writes it to the legal log. -/
  | mtrCommandExecute (bad : Bool := false)
  /-- PDATA_WRITE (R398): A write to MTR.PDATA sets a pending parameter in PARAM from the service port, or is refused. -/
  | pdataWrite (req : Requester) (value : Word)
  /-- LSEL_WRITE (R388): A write to MTR.LSEL loads a logged record into MTR.LRECw. -/
  | lselWrite (req : Requester) (value : Word)
  /-- MTR_EL_READ (R372): A read of MTR.ELj latches the high word of the energy register into MTR.EHj. -/
  | mtrElRead (req : Requester) (j : EnergyId)
  /-- COVER_OPEN (R391): The X5 cover opens and SEAL_OPEN is logged. -/
  | coverOpen
  /-- COVER_CLOSE (R392): The X5 cover closes, SEAL_CLOSE is logged and PARAM ends. -/
  | coverClose
  /-- MTR_SELF_TEST (R393): The once-per-second converter self-test sets or ends FMEAS and logs FAULT or FAULT_END. -/
  | mtrSelfTest (failing : BitVec 16)
  /-- CRYSTAL_CHECK (R393): A 10 s window compares the legal and AON crystals and sets or ends FTIME. -/
  | crystalCheck (ppm : Nat)
  /-- MTR_SUPPLY_LOSS (R28): The island receives the supply-loss level, stores its state and commits POWER_DOWN. -/
  | mtrSupplyLoss
  /-- MTR_POWER_UP (R394): At power-up the island logs POWER_UP, closes open sessions with GAP and writes late intervals. -/
  | mtrPowerUp
  /-- BACKUP_EXHAUSTED (R379): The legal clock's backup store runs out and MTIME resumes with TINVALID. -/
  | backupExhausted
  /-- STATUS (R395): Billing-port function that returns the meter identity, last RSEQ, MTIME and status. -/
  | status (frame : Option (List Byte) := none)
  /-- READ_REC (R395): Billing-port function that returns a logged record. -/
  | readRec (rseq : Word) (frame : Option (List Byte) := none)
  /-- BILLING_READOUT (R395): Billing-port function that returns a fresh READOUT record. -/
  | billingReadout (arg : BitVec 8) (frame : Option (List Byte) := none)
  /-- READ_CERT (R395): Billing-port function that returns a chunk of the island's certificate. -/
  | readCert (arg : BitVec 8) (frame : Option (List Byte) := none)
  /-- BILLING_UNKNOWN_FN (R395): A billing frame with an unknown FN or a wrong LEN is answered with error 0x01. -/
  | billingUnknownFn (fn : BitVec 8) (frame : Option (List Byte) := none)
  /-- SAFETY_INPUT_CHANGE (R402): A safety input level lasts 20 µs and each channel evaluates its function's pattern. -/
  | safetyInputChange (si : SafetyInputId) (level : Bool)
  /-- DISCREPANCY_TIMEOUT (R403): A function's discrepancy lasts longer than DISCf and becomes a DISC fault. -/
  | discrepancyTimeout (f : FuncId)
  /-- CHANNEL_A_CYCLE (R400): Every 2 ms channel A samples inputs and the power-stage state and commands its high-side switches. -/
  | channelACycle
  /-- CHANNEL_EXCHANGE (R406): Every 1 ms the two channels exchange live counts and states and compare them. -/
  | channelExchange (liveA liveB : Bool)
  /-- CHANNEL_FAULT (R406): A missing live count, a lasting disagreement or a lost domain is a CHAN fault that drives the safe state. -/
  | channelFault (survivor : Channel)
  /-- SAFE_RESET_EDGE (R409): A falling edge at SAFE_RESET after a valid hold clears the lockout when both channels accept it. -/
  | safeResetEdge (heldUsA heldUsB : Nat) (gapUs : Nat := 0)
  /-- OUTPUT_TEST_SLOT (R412): Every 1 s a channel opens one switch for 300 µs, or checks it open, in turn. -/
  | outputTestSlot
  /-- OUTPUT_TEST_CHECK (R412): The readback of a tested switch is checked and a failure becomes a TEST fault. -/
  | outputTestCheck (nodeOpen : Bool)
  /-- RETURNED_HB_LOST (R415): A port receives no returned heartbeat word for 16 µs and RETLOST is set. -/
  | returnedHbLost (p : LaneId)
  /-- LANE_LIVE (R415): A heartbeat word is received while the drivers are held low and a LANE_LIVE fault follows. -/
  | laneLive (p : LaneId)
  /-- PEER_HEARTBEAT_LOST (R416): The P7 peer heartbeat is lost for 16 µs and is a demand or a status, as PEERHB selects. -/
  | peerHeartbeatLost
  /-- SAFE_STARTUP_DONE (R417): A channel completes its start-up checks and sets the lockout cause POWERUP, PSET or SELFTEST. -/
  | safeStartupDone (c : Channel) (selfTestPassed : Bool)
  /-- FAULT_EVENT (R426): An event reaches FLT, sets its source's sticky bit and acts the selected reactions. -/
  | faultEvent (src : SourceId)
  /-- PIN_PULSE_END (R432): The 5 µs FAULT_N pulse ends and the pin follows HOLD. -/
  | pinPulseEnd
  /-- PIN_HOLD_WRITE (R433): A write to FLT.PIN.HOLD drives FAULT_N low or lets it go high after any pulse. -/
  | pinHoldWrite (req : Requester) (value : Word)
  /-- HISTL_READ (R437): A read of FLT.HISTLk returns and removes the oldest entry and latches the rest into HISTHk. -/
  | histlRead (req : Requester) (k : HistId)
  /-- SWSET (R425): A write to FLT.SWSET sets software sources SW0 to SW7. -/
  | swset (req : Requester) (value : Word)
  /-- COLLECTOR_SELF_FAULT (R439): A copy mismatch in FLT drives a stop and FAULT_N, rewrites the word and logs source 127. -/
  | collectorSelfFault (item : BitVec 8) (bits : Word := 1) (lasts : Bool := false)
  /-- SELF_FAULT_CLEAR (R440): A 1 written to FLT.SELF.FAULT clears it only in STOPPED or SAFE_STOP with no mismatch. -/
  | selfFaultClear (req : Requester)
  /-- CE_WRITEBACK (R443): A corrected word is written back in the next free cycle of its bank unless overwritten meanwhile. -/
  | ceWriteback (addr : Nat)
  /-- SCRUB_READ (R446): The scrubber reads a check word in a free bank cycle and corrects or records it. -/
  | scrubRead (mem : MemKind) (addr : Nat)
  /-- SCRUB_SLOW (R447): A scrub pass has not finished 10 % after its interval and SLOW is set. -/
  | scrubSlow (mem : MemKind)
  /-- MEM_MODE_WRITE (R448): A write of a new MEM.CTRL.MODE in STOPPED starts the initialisation of all SRAM, or is refused. -/
  | memModeWrite (req : Requester) (value : Word)
  /-- MEM_INIT_DONE (R448): SRAM initialisation ends and SUP.MODE.MEM takes the new mode. -/
  | memInitDone
  /-- LOG_ENQUEUE (R452): A record enters the log buffer, or is coalesced or dropped when the buffer is full. -/
  | logEnqueue (entry : LogEntry)
  /-- LOG_RECORD_WRITE (R451): The log writer writes the next buffered record word by word, the commit word last. -/
  | logRecordWrite
  /-- LOG_SCAN (R453): At start-up the writer scans the log for the last valid record and any torn record after it. -/
  | logScan
  /-- THERMAL_SAMPLE (R456): The supervisor samples a sensor and updates the thermal axis. -/
  | thermalSample (sensor : SensorId) (reading : Option Int)
  /-- SHUTDOWN_POWER_OFF (R459): Two ms after a shutdown SUP switches off every domain except AON and every cage. -/
  | shutdownPowerOff
  /-- SHUTDOWN_RELEASE (R460): AON loses power, or X1 stays lost for 1 s, and the latched shutdown ends in a restart. -/
  | shutdownRelease (aonLost : Bool)
  /-- THERM_LIMIT_WRITE (R457): A write to THERM.LIMIT may only lower the limits and keep them rising. -/
  | thermLimitWrite (req : Requester) (value : Word)
  /-- AUTH_FAILURE (R466): A datagram with a wrong MAC is discarded and counted. -/
  | authFailure (h : HostPort)
  /-- REPLAY_REJECT (R467): A datagram with a stale counter is discarded, or answered with the earlier reply when it repeats the last one. -/
  | replayReject (q : Dgram) (sameMac : Bool)
  /-- MALFORMED_DATAGRAM (R465): A datagram with a wrong length or version is discarded silently. -/
  | malformedDatagram (h : HostPort)
  /-- HELLO (R474): Opens or renews a session on the port and returns the module identity. -/
  | hello (q : Dgram)
  /-- BYE (R474): Ends the port's session. -/
  | bye (q : Dgram)
  /-- REG_READ (R480): Reads consecutive registers and returns them. -/
  | regRead (q : Dgram) (addr count : Nat)
  /-- REG_WRITE (R479): Performs address-value pairs as direct writes in order and stops at the first failure. -/
  | regWrite (q : Dgram) (pairs : List (Nat × Word))
  /-- MEM_READ (R478): Reads a block of memory and returns it. -/
  | memRead (q : Dgram) (addr nbytes : Nat)
  /-- MEM_WRITE (R484): Writes a block of memory, refusing the image region and the script store outside STOPPED. -/
  | memWrite (q : Dgram) (addr : Nat) (data : List Byte)
  /-- CORE_LOAD (R481): Writes words into a halted core's IMEM or DMEM through the load window. -/
  | coreLoad (q : Dgram) (core : BitVec 8) (sel : BitVec 8) (word : Nat) (words : List Word)
  /-- TK_OPEN_COMMAND (R482): Host command that opens a take owned by the port. -/
  | tkOpenCommand (q : Dgram)
  /-- TK_WR_COMMAND (R482): Host command that adds writes to a take. -/
  | tkWrCommand (q : Dgram) (handle : BitVec 8) (pairs : List (Nat × Word))
  /-- TK_PRINT_COMMAND (R482): Host command that prints a take with a 48-bit instant for boundary 3. -/
  | tkPrintCommand (q : Dgram) (handle bnd : BitVec 8) (instant : BitVec 48)
  /-- TK_CUT_COMMAND (R482): Host command that cuts a take. -/
  | tkCutCommand (q : Dgram) (handle : BitVec 8)
  /-- TK_STAT_COMMAND (R482): Host command that returns a take's TAKE.STATh. -/
  | tkStatCommand (q : Dgram) (handle : BitVec 8)
  /-- UPD_OPEN (R488): Checks the slate and its signature and grants the update lock in STOPPED. -/
  | updOpen (q : Dgram) (slate : List Byte)
  /-- UPD_BLOCK (R491): Writes an image block, marking the state word IN_PROGRESS on the first. -/
  | updBlock (q : Dgram) (offset : Nat) (data : List Byte)
  /-- UPD_VERIFY (R492): Computes the body digest and compares it with the slate. -/
  | updVerify (q : Dgram)
  /-- UPD_ACTIVATE (R493): Writes the state word VALID and restarts the non-safety domains. -/
  | updActivate (q : Dgram)
  /-- ACTIVATION_RESTART (R493): Within 10 ms of the reply every domain except AON, SAFA, SAFB and MTR restarts. -/
  | activationRestart
  /-- UPD_CONFIRM (R495): Writes the state word CONFIRMED for an image started in VALID. -/
  | updConfirm (q : Dgram)
  /-- UPD_CLOSE (R489): Ends the update lock and returns the update axis to NONE. -/
  | updClose (q : Dgram)
  /-- UPD_LAPSE (R489): The update lock lapses after 60 s without a block and is logged. -/
  | updLapse
  /-- UPD_UNCONF (R495): An image started in VALID is not confirmed within 120 s and the module restarts. -/
  | updUnconf
  /-- LOADER_START (R494): At every start the loader reads the state word and starts, counts or rejects the image. -/
  | loaderStart
  /-- SAFE_LOAD (R421): Service command that loads a safety parameter set, which becomes UNCONFIRMED and locks out. -/
  | safeLoad (q : Dgram) (set : List Byte)
  /-- SAFE_CONFIRM (R422): Service command that seals the set when its check value matches both channels' CRCs. -/
  | safeConfirm (q : Dgram) (check : Word)
  /-- KEY_INIT (R472): Service command that replaces the service key and erases the Ethernet keys after a 6 s SAFE_RESET hold. -/
  | keyInit (q : Dgram) (key : List Byte)
  /-- KEY_SET (R473): Service command that replaces an Ethernet port's key in STOPPED. -/
  | keySet (q : Dgram) (target : BitVec 8) (key : List Byte)
  /-- UNKNOWN_COMMAND (R477): A command code that is not listed, or not available in the loader, is answered BADCMD. -/
  | unknownCommand (q : Dgram) (cmd : BitVec 8)
  /-- SESSION_TIMEOUT (R474): SESSTMO passes without a request from the session's address and the session ends. -/
  | sessionTimeout (h : HostPort)
  /-- HOST_LINK_DOWN (R474): An Ethernet or service link goes down, ending its session and cutting its takes. -/
  | hostLinkDown (h : HostPort)
  /-- RESIDENT_CONFIG_APPLY (R485): At start-up the firmware applies the script-store entries in order and logs STORE_APPLIED. -/
  | residentConfigApply
  /-- STREAM_LIVE_PACKET (R501): At a selected period stamp the module copies a bank or frame into the streaming buffer. -/
  | streamLivePacket (src : StreamSrc)
  /-- STREAM_PACKET_SEND (R500): A buffered packet is sent on P6 when the credits allow it. -/
  | streamPacketSend
  /-- CREDIT (R500): A CREDIT block from the partner updates the credits available. -/
  | credit (blocks : List LineBlock) (others : List LineBlock × List LineBlock := ([], []))
  /-- RUSHES_READOUT_GO (R502): A 1 written to HOST.SRD.GO starts the read-out of a DONE unit's rushes. -/
  | rushesReadoutGo (req : Requester) (unit : CaptId)
  /-- RUSHES_READOUT_ABORT (R503): A 1 written to HOST.SRD.ABORT halts a read-out. -/
  | rushesReadoutAbort (req : Requester)
  /-- READOUT_DONE (R503): The last packet of a read-out is sent and RDSTATE reads DONE. -/
  | readoutDone
  /-- TRIP_INACTIVE (R319): A filtered trip input returns to its inactive level and BRG.TSTAT.ACTIVE clears for it. -/
  | tripInactive (t : TripId) (input : Option Bool := none)
  /-- GATE_SUPPLY_RELEASE (R325): A locked-out gate supply rises to its release value and the channel's turn-on is no longer withheld. -/
  | gateSupplyRelease (x : LegId) (high negative : Bool) (seen : Option (Nat × Nat) := none)
  /-- OVERCURRENT_END (R334): A leg's over-current sense input falls back below OCTH and GATE.MON.OCACT clears. -/
  | overcurrentEnd (x : LegId) (mv : Option Nat := none)
  /-- SAFE24_CHANGE (R524): 24V_SAFE crosses 19.2 V, updating SUP.STAT.SAFE24 and setting SAFE24LOW on a fall, with no output current below 16.8 V. -/
  | safe24Change (milliVolt : Nat)
  /-- HOST_LINK_UP (R505): An Ethernet or service link comes up, HOST.STAT.LINK sets and the level source HOST_LINK ends. -/
  | hostLinkUp (h : HostPort)
  /-- CELL_SUMM_SLOT (R241): As the SUMM frame passes, a cell writes its status byte with odd parity into its slot in each direction. -/
  | cellSummSlot (x : RingId) (k : CellId) (dir : Dir) (slots : List (BitVec 8) := List.replicate 40 0xFF) (heard : List LaneBlock := [])
  /-- CELL_EVENT_SEND (R265): A cell sends one pending event record as an EVT frame in each direction, at most one per direction per ring cycle, in place of an IDLE block. -/
  | cellEventSend (x : RingId) (k : CellId)
  /-- RETURNED_HEARTBEAT (R414): Channel B decodes a returned 0xB2 word on a port while its drivers send, and the port's RETOK bit sets. -/
  | returnedHeartbeat (p : LaneId)
  deriving DecidableEq, Repr

end Sys2Proof
end

