-- ==== Sys2Proof/Decode.lean ====
section
/-!
DEFINITION. The block decodes no command words: the opcode table of the manual gives its commands no bits (log entry 17). The
script cores do decode: which 32-bit words are instructions, and of which operands, stands here (chapter 4, R97).
-/

namespace Sys2Proof

/-- The command that a word spells by the table's bits. No row gives bits, so no word spells a command. -/
def decodeTableWord (_nbits _w : Nat) : Option Instr := none

/-- Are the bits hi to lo of an instruction word all 0? -/
def zeroBits (w : Word) (hi lo : Nat) : Bool := w.toNat / 2 ^ lo % 2 ^ (hi + 1 - lo) == 0

/-- Scalar register fields of an instruction word. -/
def fieldS (w : Word) (lo : Nat) : Sreg := ⟨w.toNat / 2 ^ lo % 32, Nat.mod_lt _ (by decide)⟩

/-- Vector or predicate register fields. -/
def fieldV (w : Word) (lo : Nat) : Vreg := ⟨w.toNat / 2 ^ lo % 8, Nat.mod_lt _ (by decide)⟩

/-- An instruction where the fields that its entry marks as 0 are 0 and the others lie in their range (R97). -/
def instrIf (ok : Bool) (i : Instr) : Option Instr := if ok then some i else none

/-- OP 0x01: integer register operations, aux = 0. -/
def decodeInteger (n : CoreId) (w : Word) : Option Instr :=
  let rd := fieldS w 21
  let ra := fieldS w 16
  let rb := fieldS w 11
  if zeroBits w 10 6 then
    match w.toNat % 64 with
    | 0x00 => some (.add n rd ra rb)
    | 0x01 => some (.sub n rd ra rb)
    | 0x02 => some (.and n rd ra rb)
    | 0x03 => some (.or n rd ra rb)
    | 0x04 => some (.xor n rd ra rb)
    | 0x05 => some (.sll n rd ra rb)
    | 0x06 => some (.srl n rd ra rb)
    | 0x07 => some (.sra n rd ra rb)
    | 0x08 => some (.slt n rd ra rb)
    | 0x09 => some (.sltu n rd ra rb)
    | 0x0A => some (.mul n rd ra rb)
    | 0x0B => some (.mulh n rd ra rb)
    | 0x0C => some (.div n rd ra rb)
    | 0x0D => some (.divu n rd ra rb)
    | 0x0E => some (.rem n rd ra rb)
    | 0x0F => some (.adds n rd ra rb)
    | 0x10 => some (.subs n rd ra rb)
    | _ => none
  else none

/-- OP 0x02: SF scalar operations, aux = 0, and rb = 0 where it is not named. -/
def decodeSf (n : CoreId) (w : Word) : Option Instr :=
  let rd := fieldS w 21
  let ra := fieldS w 16
  let rb := fieldS w 11
  if zeroBits w 10 6 then
    match w.toNat % 64 with
    | 0x00 => some (.sfAdd n rd ra rb)
    | 0x01 => some (.sfSub n rd ra rb)
    | 0x02 => some (.sfMul n rd ra rb)
    | 0x03 => instrIf (rb == 0) (.sfAbs n rd ra)
    | 0x04 => some (.sfSlt n rd ra rb)
    | 0x05 => some (.sfSle n rd ra rb)
    | 0x06 => instrIf (rb == 0) (.sfFromi n rd ra)
    | 0x07 => instrIf (rb == 0) (.sfToi n rd ra)
    | 0x08 => some (.sfScale n rd ra rb)
    | _ => none
  else none

/-- OP 0x28: vector arithmetic; fields that the operation does not name are 0. -/
def decodeVector (n : CoreId) (w : Word) : Option Instr :=
  let vd := fieldV w 23
  let va := fieldV w 20
  let vb := fieldV w 17
  let pg := fieldV w 14
  let rs := fieldS w 9
  let vc := fieldV w 6
  let two := rs == 0 && vc == 0
  let one := two && vb == 0
  match w.toNat % 64 with
  | 0x00 => instrIf two (.vadd n vd va vb pg)
  | 0x01 => instrIf two (.vsub n vd va vb pg)
  | 0x02 => instrIf two (.vmul n vd va vb pg)
  | 0x03 => instrIf two (.vmac n vd va vb pg)
  | 0x04 => instrIf one (.vneg n vd va pg)
  | 0x05 => instrIf one (.vabs n vd va pg)
  | 0x06 => instrIf two (.vmin n vd va vb pg)
  | 0x07 => instrIf two (.vmax n vd va vb pg)
  | 0x08 => instrIf (rs == 0) (.vclamp n vd va vb vc pg)
  | 0x09 => instrIf (vb == 0 && vc == 0) (.vscale n vd va rs pg)
  | 0x0A => instrIf one (.vmov n vd va pg)
  | 0x0B => instrIf (va == 0 && vb == 0 && vc == 0) (.vbcast n vd rs pg)
  | 0x0C => instrIf two (.vsel n vd va vb pg)
  | _ => none

/-- OP 0x29: lane access and reductions; a lane index is 0 to 47. -/
def decodeLane (n : CoreId) (w : Word) : Option Instr :=
  let vd := fieldV w 23
  let va := fieldV w 20
  let vb := fieldV w 17
  let pg := fieldV w 14
  let rs := fieldS w 9
  let vc := fieldV w 6
  let idx := w.extractLsb' 14 6
  let one := vd == 0 && vb == 0 && vc == 0
  match w.toNat % 64 with
  | 0x00 => instrIf (vd == 0 && vc == 0 && decide (idx.toNat ≤ 47)) (.vget n rs va idx)
  | 0x01 => instrIf (va == 0 && vc == 0 && decide (idx.toNat ≤ 47)) (.vset n vd rs idx)
  | 0x02 => instrIf one (.vsum n rs va pg)
  | 0x03 => instrIf (vd == 0 && vc == 0) (.vdot n rs va vb pg)
  | 0x04 => instrIf one (.vmaxr n rs va pg)
  | 0x05 => instrIf one (.vminr n rs va pg)
  | _ => none

/-- OP 0x2A: compares and predicate operations. -/
def decodePredicate (n : CoreId) (w : Word) : Option Instr :=
  let pd := fieldV w 23
  let pa := fieldV w 20
  let pb := fieldV w 17
  let pg := fieldV w 14
  let rs := fieldS w 9
  let vc := fieldV w 6
  let two := rs == 0 && vc == 0
  match w.toNat % 64 with
  | 0x00 => instrIf two (.vcmplt n pd pa pb pg)
  | 0x01 => instrIf two (.vcmple n pd pa pb pg)
  | 0x02 => instrIf (two && pg == 0) (.pand n pd pa pb)
  | 0x03 => instrIf (two && pg == 0) (.por n pd pa pb)
  | 0x04 => instrIf (two && pg == 0 && pb == 0) (.pnot n pd pa)
  | 0x05 => instrIf (pa == 0 && pb == 0 && pg == 0 && vc == 0) (.psetl n pd rs)
  | 0x06 => instrIf (pa == 0 && pb == 0 && pg == 0 && vc == 0) (.pseth n pd rs)
  | 0x07 => instrIf (pd == 0 && pb == 0 && pg == 0 && decide (vc.val ≤ 1)) (.pget n rs pa (w.extractLsb' 6 3))
  | 0x08 => instrIf (pd == 0 && pb == 0 && vc == 0) (.pcnt n rs pa pg)
  | _ => none

/-- OP 0x2C: control laws (R114 to R119). -/
def decodeControl (n : CoreId) (w : Word) : Option Instr :=
  let vd := fieldV w 23
  let va := fieldV w 20
  let vb := fieldV w 17
  let pg := fieldV w 14
  let rp := fieldS w 9
  let pw := fieldV w 11
  let cnt := w.extractLsb' 7 2
  match w.toNat % 64 with
  | 0x00 => instrIf (zeroBits w 8 6 && vd != vb) (.piStep n vd va vb pg rp)
  | 0x01 => instrIf (zeroBits w 8 6 && vb == 0) (.hyst n vd va pg rp)
  | 0x02 =>
    instrIf (vb == 0 && zeroBits w 10 9 && zeroBits w 6 6 && cnt != 3 && (pw == 2 || pw == 4 || pw == 6) &&
      decide (va.val + cnt.toNat ≤ 7)) (.minsel n vd va cnt pg pw)
  | 0x03 => instrIf (zeroBits w 8 6 && vb == 0) (.setp n vd va pg rp)
  | _ => none

/-- OP 0x30: system and take operations. -/
def decodeSystem (n : CoreId) (w : Word) : Option Instr :=
  let rd := fieldS w 21
  let ra := fieldS w 16
  let rb := fieldS w 11
  let aux := w.extractLsb' 6 5
  let bare := zeroBits w 25 6
  match w.toNat % 64 with
  | 0x00 => instrIf bare (.nop n)
  | 0x01 => instrIf bare (.waitp n)
  | 0x02 => instrIf bare (.rett n)
  | 0x03 => instrIf bare (.brk n)
  | 0x04 => instrIf (ra == 0 && rb == 0 && decide (aux.toNat ≤ 4)) (.rdsys n rd aux)
  | 0x08 => instrIf (ra == 0 && rb == 0 && aux == 0) (.tkOpen n rd)
  | 0x09 => instrIf (aux == 0) (.tkWr n rd ra rb)
  | 0x0A => instrIf (rd == 0 && decide (aux.toNat ≤ 4)) (.tkPrint n ra rb aux)
  | 0x0B => instrIf (rd == 0 && rb == 0 && aux == 0) (.tkCut n ra)
  | 0x0C => instrIf (rb == 0 && aux == 0) (.tkStat n rd ra)
  | _ => none

/-- The script instruction that a word of IMEM spells, for core n; none where the word is undefined (R97). Whether the low bits
of a register field of LD.IN and PRED.SET must be 0 depends on the slot's VEC bit, which their meanings check. -/
def decodeScript (n : CoreId) (w : Word) : Option Instr :=
  let a := fieldS w 21
  let b := fieldS w 16
  let imm := w.extractLsb' 0 16
  let slot := w.extractLsb' 0 8
  let shift := decide (imm.toNat < 32)
  match w.toNat / 2 ^ 26 with
  | 0x01 => decodeInteger n w
  | 0x02 => decodeSf n w
  | 0x04 => some (.addi n a b imm)
  | 0x05 => some (.andi n a b imm)
  | 0x06 => some (.ori n a b imm)
  | 0x07 => some (.slti n a b imm)
  | 0x08 => instrIf shift (.slli n a b imm)
  | 0x09 => instrIf shift (.srli n a b imm)
  | 0x0A => instrIf shift (.srai n a b imm)
  | 0x0B => instrIf (b == 0) (.lui n a imm)
  | 0x0C => instrIf (b == 0 && imm == 0) (.li n a)
  | 0x10 => some (.beq n b a imm)
  | 0x11 => some (.bne n b a imm)
  | 0x12 => some (.blt n b a imm)
  | 0x13 => some (.bge n b a imm)
  | 0x14 => some (.bltu n b a imm)
  | 0x15 => some (.bgeu n b a imm)
  | 0x16 => instrIf (a == 0 && b == 0) (.j n imm)
  | 0x17 => instrIf (a == 0 && b == 0) (.call n imm)
  | 0x18 => instrIf (a == 0 && imm == 0) (.jr n b)
  | 0x19 => some (.lw n a b imm)
  | 0x1A => some (.lh n a b imm)
  | 0x1B => some (.lhu n a b imm)
  | 0x1C => some (.lb n a b imm)
  | 0x1D => some (.lbu n a b imm)
  | 0x1E => some (.sw n a b imm)
  | 0x1F => some (.sh n a b imm)
  | 0x20 => some (.sb n a b imm)
  | 0x21 => some (.ldSmp n a b imm)
  | 0x22 => instrIf (zeroBits w 22 21) (.vld n (fieldV w 23) b imm)
  | 0x23 => instrIf (zeroBits w 22 21) (.vst n (fieldV w 23) b imm)
  | 0x24 => instrIf (zeroBits w 20 16 && zeroBits w 12 8) (.ldIn n a (fieldV w 13) slot)
  | 0x25 => instrIf (zeroBits w 20 8) (.predSet n slot a)
  | 0x28 => decodeVector n w
  | 0x29 => decodeLane n w
  | 0x2A => decodePredicate n w
  | 0x2C => decodeControl n w
  | 0x30 => decodeSystem n w
  | 0x31 => instrIf (zeroBits w 11 0) (.emit n (fieldV w 23) (fieldV w 20) (w.extractLsb' 16 4) (w.extractLsb' 12 4))
  | _ => none

end Sys2Proof
end

