-- ==== Sys2Proof/Machine/Bits.lean ====
section
/-!
DEFINITION. Bit and byte helpers and the three cyclic checks: CRC-8 (R232), CRC-16 (R180) and CRC-32 (R419).
-/

namespace Sys2Proof.Machine

/-- Byte n of a number, counted from the least significant. -/
def byteAt (w : Nat) (n : Nat) : Byte := BitVec.ofNat 8 (w / 256 ^ n)

/-- The n low bytes of a number, least significant first. -/
def bytesLE (n w : Nat) : List Byte := (List.range n).map (byteAt w)

/-- The n low bytes of a number, most significant first. -/
def bytesBE (n w : Nat) : List Byte := (bytesLE n w).reverse

/-- The number that bytes spell, least significant first. -/
def ofBytesLE : List Byte → Nat
  | [] => 0
  | b :: t => b.toNat + 256 * ofBytesLE t

/-- A number read as a signed value of w bits (R6). -/
def signedOf (w n : Nat) : Int := if 2 ^ (w - 1) ≤ n % 2 ^ w then (n % 2 ^ w : Nat) - (2 ^ w : Nat) else (n % 2 ^ w : Nat)

/-- The low w bits of a signed value. -/
def unsignedOf (w : Nat) (v : Int) : Nat := (v % (2 ^ w : Nat)).toNat

/-- Bits set in a number below 2^32. -/
def popcount (n : Nat) : Nat := ((List.range 32).filter (fun i => n.testBit i)).length

/-- A value held to a range. -/
def clampInt (lo hi v : Int) : Int := if v < lo then lo else if hi < v then hi else v

/-- Truncation toward zero. -/
def truncDiv (a b : Int) : Int := a.tdiv b

/-- Division rounded to the nearest integer with ties to the later one (R246). -/
def roundUpTies (a b : Int) : Int := (2 * a + b).fdiv (2 * b)

/-- Smallest multiple of m at or above n. -/
def alignUp (m n : Nat) : Nat := (n + m - 1) / m * m

def crc8Bit (c : BitVec 8) : BitVec 8 := if c.msb then (c <<< 1) ^^^ 0x07 else c <<< 1

/-- CRC-8 of R232: polynomial 0x07, initial value 0, most significant bit first. -/
def crc8 (bytes : List Byte) : BitVec 8 :=
  bytes.foldl (fun c b => Nat.repeat crc8Bit 8 (c ^^^ b)) 0

def tagBit (c : BitVec 8) : BitVec 8 := if c.msb then (c <<< 1) ^^^ 0x2F else c <<< 1

/-- CRC-8 of a sample word's bits 31 to 8 (R344). -/
def sampleTag (w : Nat) : BitVec 8 :=
  ([byteAt w 3, byteAt w 2, byteAt w 1].foldl (fun c b => Nat.repeat tagBit 8 (c ^^^ b)) (0xFF : BitVec 8)) ^^^ 0xFF

/-- A sample word from its code, channel and sequence number (R343). -/
def sampleWord (code : BitVec 16) (ch seq : Nat) : Nat :=
  let w := code.toNat * 65536 + ch % 32 * 2048 + seq % 8 * 256
  w + (sampleTag w).toNat

def crc16Bit (c : BitVec 16) : BitVec 16 := if c.msb then (c <<< 1) ^^^ 0x1021 else c <<< 1

/-- CRC-16 of R180: polynomial 0x1021, initial value 0xFFFF, no reflection, no final XOR. -/
def crc16 (bytes : List Byte) : BitVec 16 :=
  bytes.foldl (fun c b => Nat.repeat crc16Bit 8 (c ^^^ BitVec.shiftLeft (b.setWidth 16) 8)) 0xFFFF

def crc32Bit (c : BitVec 32) : BitVec 32 := if c.getLsbD 0 then (c >>> 1) ^^^ 0xEDB88320 else c >>> 1

/-- CRC-32 of R419: polynomial 0x04C1_1DB7 reflected, initial value and final XOR 0xFFFF_FFFF. -/
def crc32 (bytes : List Byte) : BitVec 32 :=
  (bytes.foldl (fun c b => Nat.repeat crc32Bit 8 (c ^^^ b.setWidth 32)) 0xFFFFFFFF) ^^^ 0xFFFFFFFF

end Sys2Proof.Machine
end

