-- ==== Sys2Proof/Config.lean ====
section
/-!
DEFINITION. What an implementation fixes and the manual leaves open: constants without a body, so no proof can lean on
a value, and the cryptographic functions that the manual names by their own standards.
-/

namespace Sys2Proof

/-- Media access address of each host port; the manual gives no value (log entry 2). -/
opaque Config.macAddress : Nat → BitVec 48

/-- A value the manual leaves undefined, fresh for each use (log entry 3). -/
opaque Config.freeValue : Nat → BitVec 64

/-- SHA-256 of a byte string (log entry 4). -/
opaque Config.sha256 : List Byte → List Byte

/-- HMAC-SHA-256 under a key, truncated to the 16 bytes a datagram carries (log entry 4). -/
opaque Config.hmac : List Byte → List Byte → List Byte

/-- Does a signature verify over a message under the update public key (log entry 4)? -/
opaque Config.slateSignatureValid : List Byte → Bool

/-- Signature of a meter record by the island's key, the 64 bytes of r and s, from the record's bytes 0 to 63 (log entry 4). -/
opaque Config.meterSignature : List Byte → BitVec 512

/-- Where the record of an RSEQ lies in the island's partition of MRAM: the manual gives no layout (log entry 3). -/
opaque Config.recordPlace : Nat → Nat

/-- The certificate that the metrology island holds (log entry 4). -/
opaque Config.certificate : List Byte

/-- Phase of the I_AON edges against the oscillator's ticks, which the manual leaves undefined (R49; log entry 46). -/
opaque Config.aonPhase : Nat

/-- Meter identity of the metrology island, set in manufacture (log entry 2). -/
opaque Config.meterId : Word

/-- Firmware version of the metrology island; the manual gives no value (log entry 2). -/
opaque Config.meterFirmware : BitVec 16

/-- Input of a metrology channel at code 2^23, in nV or nA; the manual gives no scale (log entry 2). -/
opaque Config.meterFullScale : Nat → Nat

end Sys2Proof
end

