-- ==== Sys2Proof/Machine/RegMap.lean ====
section
/-!
DEFINITION. The register map: one row per register of the manual's tables, with the bits, access code, reset value
and permitted range of each field, and a name for every register and field.
-/

namespace Sys2Proof.Machine

/-- A named field of a register. -/
structure Fld where
  addr : Nat
  hi   : Nat
  lo   : Nat
  deriving DecidableEq, Repr

/-- The access codes of R8. -/
inductive Acc where
  | rw
  | ro
  | wo
  | w1c
  | rc
  | rt
  | rl
  deriving DecidableEq, Repr

/-- A field of a register row: its reset value is `reset + step * i` in register i of an array; `range` is what its
description permits, as signed values where the lower end is negative. -/
structure RField where
  hi    : Nat
  lo    : Nat
  acc   : Acc
  reset : Nat
  step  : Nat
  range : Option (Int × Int)
  deriving DecidableEq, Repr

/-- A register, or an array of `count` registers `stride` bytes apart. -/
structure RegRow where
  name   : String
  off    : Nat
  stride : Nat
  count  : Nat
  fields : List RField
  deriving DecidableEq, Repr

/-- Lane registers: ports 0 to 5 in RING, 6 and 7 in HOST, 0x40 apart from offset 0x800. -/
def laneAddr (off p : Nat) : Nat :=
  if p < 6 then 0x40060800 + 0x40 * p + off else 0x400D0800 + 0x40 * (p - 6) + off

/-- The registers of the SUP block (offset from its base, stride, count, fields with bits, access code, reset value, reset step, range). -/
def rowsSup : List RegRow :=
 [
  ⟨"SUP.ID", 0x0, 0x0, 1, [⟨31, 16, .ro, 0x8640, 0, none⟩, ⟨15, 8, .ro, 0x1, 0, none⟩]⟩,
  ⟨"SUP.STAT", 0x4, 0x0, 1, [⟨15, 12, .ro, 0x0, 0, none⟩, ⟨4, 4, .w1c, 0x0, 0, none⟩, ⟨3, 3, .w1c, 0x0, 0, none⟩, ⟨2, 2, .ro, 0x0, 0, none⟩, ⟨1, 1, .w1c, 0x0, 0, none⟩, ⟨0, 0, .ro, 0x0, 0, none⟩]⟩,
  ⟨"SUP.VIN", 0x8, 0x0, 1, [⟨31, 16, .ro, 0x0, 0, none⟩, ⟨9, 0, .ro, 0x0, 0, none⟩]⟩,
  ⟨"SUP.DOM", 0xc, 0x0, 1, [⟨27, 16, .ro, 0x1, 0, none⟩, ⟨11, 0, .w1c, 0x0, 0, none⟩]⟩,
  ⟨"SUP.MODE", 0x10, 0x0, 1, [⟨14, 14, .ro, 0x1, 0, none⟩, ⟨13, 13, .ro, 0x1, 0, none⟩, ⟨12, 11, .ro, 0x0, 0, none⟩, ⟨10, 9, .ro, 0x0, 0, none⟩, ⟨8, 8, .ro, 0x0, 0, none⟩, ⟨7, 6, .ro, 0x2, 0, none⟩, ⟨2, 0, .ro, 0x0, 0, none⟩]⟩,
  ⟨"SUP.MODE_REQ", 0x14, 0x0, 1, [⟨3, 0, .wo, 0x0, 0, none⟩]⟩,
  ⟨"SUP.REFUSE", 0x18, 0x0, 1, [⟨31, 24, .rc, 0x0, 0, none⟩, ⟨23, 16, .rc, 0x0, 0, none⟩, ⟨15, 12, .rc, 0x0, 0, none⟩, ⟨11, 8, .rc, 0x0, 0, none⟩, ⟨7, 0, .rc, 0x0, 0, none⟩]⟩,
  ⟨"SUP.CAGE", 0x1c, 0x0, 1, [⟨15, 8, .ro, 0x0, 0, none⟩, ⟨7, 0, .ro, 0x0, 0, none⟩]⟩,
  ⟨"SUP.START", 0x20, 0x0, 1, [⟨15, 0, .ro, 0xffff, 0, none⟩]⟩]

/-- The registers of the CLK block (offset from its base, stride, count, fields with bits, access code, reset value, reset step, range). -/
def rowsClk : List RegRow :=
 [
  ⟨"CLK.CTRL", 0x0, 0x0, 1, [⟨8, 8, .rl, 0x0, 0, none⟩, ⟨4, 4, .rl, 0x1, 0, none⟩, ⟨0, 0, .rl, 0x0, 0, none⟩]⟩,
  ⟨"CLK.STAT", 0x4, 0x0, 1, [⟨15, 15, .w1c, 0x0, 0, none⟩, ⟨14, 14, .w1c, 0x0, 0, none⟩, ⟨13, 13, .w1c, 0x0, 0, none⟩, ⟨12, 12, .w1c, 0x0, 0, none⟩, ⟨4, 4, .ro, 0x0, 0, none⟩, ⟨3, 3, .ro, 0x0, 0, none⟩, ⟨2, 2, .ro, 0x0, 0, none⟩, ⟨0, 0, .ro, 0x0, 0, none⟩]⟩,
  ⟨"CLK.STEER", 0x8, 0x0, 1, [⟨14, 0, .ro, 0x0, 0, none⟩]⟩,
  ⟨"CLK.DLLSTAT", 0xc, 0x0, 1, [⟨15, 8, .ro, 0x0, 0, none⟩, ⟨7, 0, .w1c, 0x0, 0, none⟩]⟩,
  ⟨"CLK.DLLCMD", 0x10, 0x0, 1, [⟨7, 0, .wo, 0x0, 0, none⟩]⟩,
  ⟨"CLK.DLLPOS", 0x20, 0x4, 8, [⟨31, 16, .ro, 0x0, 0, none⟩, ⟨10, 8, .ro, 0x0, 0, none⟩, ⟨6, 0, .ro, 0x0, 0, none⟩]⟩]

/-- The registers of the TIME block (offset from its base, stride, count, fields with bits, access code, reset value, reset step, range). -/
def rowsTime : List RegRow :=
 [
  ⟨"TIME.STAT", 0x0, 0x0, 1, [⟨25, 25, .w1c, 0x0, 0, none⟩, ⟨24, 24, .w1c, 0x0, 0, none⟩, ⟨23, 16, .w1c, 0x0, 0, none⟩, ⟨15, 8, .w1c, 0x0, 0, none⟩, ⟨1, 0, .w1c, 0x0, 0, none⟩]⟩,
  ⟨"TIME.RTIMEL", 0x4, 0x0, 1, [⟨31, 0, .ro, 0x0, 0, none⟩]⟩,
  ⟨"TIME.RTIMEH", 0x8, 0x0, 1, [⟨15, 0, .ro, 0x0, 0, none⟩]⟩,
  ⟨"TIME.LTIMEL", 0xc, 0x0, 1, [⟨31, 0, .ro, 0x0, 0, none⟩]⟩,
  ⟨"TIME.LTIMEH", 0x10, 0x0, 1, [⟨31, 0, .ro, 0x0, 0, none⟩]⟩,
  ⟨"TIME.GCFG", 0x14, 0x0, 1, [⟨24, 24, .rl, 0x0, 0, none⟩, ⟨23, 16, .rl, 0x3c, 0, some (1, 255)⟩, ⟨8, 8, .rw, 0x0, 0, none⟩, ⟨5, 0, .rw, 0x32, 0, some (1, 50)⟩]⟩,
  ⟨"TIME.PTPCFG", 0x18, 0x0, 1, [⟨31, 24, .rl, 0x0, 0, some (0, 127)⟩, ⟨23, 16, .rl, 0x80, 0, none⟩, ⟨15, 8, .rl, 0x80, 0, none⟩, ⟨5, 5, .rl, 0x1, 0, none⟩, ⟨4, 4, .rl, 0x0, 0, none⟩, ⟨3, 2, .rl, 0x0, 0, some (0, 1)⟩, ⟨1, 0, .rl, 0x0, 0, none⟩]⟩,
  ⟨"TIME.ASYM", 0x1c, 0x0, 1, [⟨31, 16, .rl, 0x0, 0, some ((-10000), 10000)⟩, ⟨15, 0, .rl, 0x0, 0, some ((-10000), 10000)⟩]⟩,
  ⟨"TIME.MAPRL", 0x20, 0x0, 1, [⟨31, 0, .ro, 0x0, 0, none⟩]⟩,
  ⟨"TIME.MAPRH", 0x24, 0x0, 1, [⟨15, 0, .ro, 0x0, 0, none⟩]⟩,
  ⟨"TIME.MAPGSL", 0x28, 0x0, 1, [⟨31, 0, .ro, 0x0, 0, none⟩]⟩,
  ⟨"TIME.MAPGSH", 0x2c, 0x0, 1, [⟨15, 0, .ro, 0x0, 0, none⟩]⟩,
  ⟨"TIME.MAPGNS", 0x30, 0x0, 1, [⟨31, 0, .ro, 0x0, 0, none⟩]⟩,
  ⟨"TIME.MAPK", 0x34, 0x0, 1, [⟨31, 0, .ro, 0x0, 0, none⟩]⟩] ++
 [
  ⟨"TIME.OFFSET", 0x38, 0x0, 1, [⟨31, 0, .ro, 0x0, 0, none⟩]⟩,
  ⟨"TIME.STEPCNT", 0x3c, 0x0, 1, [⟨15, 0, .rc, 0x0, 0, none⟩]⟩,
  ⟨"TIME.TXTS", 0x40, 0x0, 1, [⟨31, 24, .rc, 0x0, 0, none⟩, ⟨23, 16, .rc, 0x0, 0, none⟩, ⟨12, 8, .ro, 0x0, 0, none⟩, ⟨4, 0, .ro, 0x0, 0, none⟩]⟩,
  ⟨"TIME.PEER", 0x44, 0x0, 1, [⟨9, 8, .ro, 0x0, 0, none⟩, ⟨5, 4, .ro, 0x0, 0, none⟩, ⟨1, 0, .rl, 0x0, 0, some (0, 2)⟩]⟩,
  ⟨"TIME.PEEROFF", 0x48, 0x0, 1, [⟨31, 16, .ro, 0x0, 0, none⟩, ⟨15, 0, .ro, 0x0, 0, none⟩]⟩,
  ⟨"TIME.CMPL", 0x80, 0x10, 8, [⟨31, 0, .rt, 0x0, 0, none⟩]⟩,
  ⟨"TIME.CMPH", 0x84, 0x10, 8, [⟨15, 0, .rt, 0x0, 0, none⟩]⟩,
  ⟨"TIME.CMPCTL", 0x88, 0x10, 8, [⟨31, 31, .wo, 0x0, 0, none⟩, ⟨30, 30, .ro, 0x0, 0, none⟩, ⟨25, 24, .rl, 0x0, 0, some (0, 1)⟩, ⟨23, 0, .rl, 0x0, 0, none⟩]⟩]

/-- The registers of the TAKE block (offset from its base, stride, count, fields with bits, access code, reset value, reset step, range). -/
def rowsTake : List RegRow :=
 [
  ⟨"TAKE.CTRL", 0x0, 0x0, 1, [⟨25, 16, .rw, 0x28, 0, some (1, 1000)⟩, ⟨15, 0, .rw, 0x3e8, 0, some (1, 60000)⟩]⟩,
  ⟨"TAKE.WSEQL", 0x4, 0x0, 1, [⟨31, 0, .ro, 0x0, 0, none⟩]⟩,
  ⟨"TAKE.WSEQH", 0x8, 0x0, 1, [⟨15, 0, .ro, 0x0, 0, none⟩]⟩,
  ⟨"TAKE.VADDR", 0xc, 0x0, 1, [⟨31, 2, .rw, 0x0, 0, none⟩]⟩,
  ⟨"TAKE.VERL", 0x10, 0x0, 1, [⟨31, 0, .ro, 0x0, 0, none⟩]⟩,
  ⟨"TAKE.VERH", 0x14, 0x0, 1, [⟨31, 31, .ro, 0x1, 0, none⟩, ⟨15, 0, .ro, 0x0, 0, none⟩]⟩,
  ⟨"TAKE.USE", 0x18, 0x0, 1, [⟨27, 16, .ro, 0x0, 0, none⟩, ⟨3, 0, .ro, 0x0, 0, none⟩]⟩,
  ⟨"TAKE.CUTCNT", 0x1c, 0x0, 1, [⟨29, 24, .rc, 0x0, 0, none⟩, ⟨23, 18, .rc, 0x0, 0, none⟩, ⟨17, 12, .rc, 0x0, 0, none⟩, ⟨11, 6, .rc, 0x0, 0, none⟩, ⟨5, 0, .rc, 0x0, 0, none⟩]⟩,
  ⟨"TAKE.STAT", 0x40, 0x10, 8, [⟨31, 24, .ro, 0x0, 0, none⟩, ⟨23, 14, .ro, 0x0, 0, none⟩, ⟨13, 11, .ro, 0x0, 0, none⟩, ⟨6, 4, .ro, 0x0, 0, none⟩, ⟨3, 3, .ro, 0x0, 0, none⟩, ⟨2, 0, .ro, 0x0, 0, none⟩]⟩,
  ⟨"TAKE.BNDL", 0x44, 0x10, 8, [⟨31, 0, .ro, 0x0, 0, none⟩]⟩,
  ⟨"TAKE.BNDH", 0x48, 0x10, 8, [⟨15, 0, .ro, 0x0, 0, none⟩]⟩]

/-- The registers of the CORE block (offset from its base, stride, count, fields with bits, access code, reset value, reset step, range). -/
def rowsCore : List RegRow :=
 [
  ⟨"CORE.ENABLE", 0x0, 0x0, 1, [⟨11, 0, .rl, 0x0, 0, none⟩]⟩,
  ⟨"CORE.PERIOD", 0x4, 0x0, 1, [⟨14, 0, .rl, 0xc35, 0, some (625, 25000)⟩]⟩,
  ⟨"CORE.TICK", 0x8, 0x0, 1, [⟨31, 0, .ro, 0x0, 0, none⟩]⟩,
  ⟨"CORE.CTRL", 0x100, 0x40, 12, [⟨1, 1, .rl, 0x0, 0, none⟩, ⟨0, 0, .rl, 0x0, 0, none⟩]⟩,
  ⟨"CORE.STAT", 0x104, 0x40, 12, [⟨15, 15, .w1c, 0x0, 0, none⟩, ⟨14, 14, .w1c, 0x0, 0, none⟩, ⟨13, 13, .w1c, 0x0, 0, none⟩, ⟨12, 12, .w1c, 0x0, 0, none⟩, ⟨2, 0, .ro, 0x0, 0, none⟩]⟩,
  ⟨"CORE.PHV", 0x108, 0x40, 12, [⟨15, 2, .rl, 0x0, 0, none⟩]⟩,
  ⟨"CORE.TVEC", 0x10c, 0x40, 12, [⟨15, 2, .rl, 0x40, 0, none⟩]⟩,
  ⟨"CORE.TPC", 0x110, 0x40, 12, [⟨15, 2, .ro, 0x0, 0, none⟩]⟩,
  ⟨"CORE.TCAUSE", 0x114, 0x40, 12, [⟨31, 31, .ro, 0x0, 0, none⟩, ⟨7, 0, .ro, 0x0, 0, none⟩]⟩,
  ⟨"CORE.TADDR", 0x118, 0x40, 12, [⟨31, 0, .ro, 0x0, 0, none⟩]⟩,
  ⟨"CORE.SPECCNT", 0x11c, 0x40, 12, [⟨31, 16, .rc, 0x0, 0, none⟩, ⟨15, 0, .rc, 0x0, 0, none⟩]⟩,
  ⟨"CORE.MARGIN", 0x120, 0x40, 12, [⟨31, 16, .rc, 0x7fff, 0, none⟩, ⟨15, 0, .ro, 0x7fff, 0, none⟩]⟩,
  ⟨"CORE.LADDR", 0x124, 0x40, 12, [⟨31, 31, .rw, 0x0, 0, none⟩, ⟨16, 2, .rw, 0x0, 0, none⟩]⟩,
  ⟨"CORE.LDATA", 0x128, 0x40, 12, [⟨31, 0, .rw, 0x0, 0, none⟩]⟩] ++
 [
  ⟨"CORE.MEMERR", 0x12c, 0x40, 12, [⟨31, 16, .rc, 0x0, 0, none⟩, ⟨1, 1, .w1c, 0x0, 0, none⟩, ⟨0, 0, .w1c, 0x0, 0, none⟩]⟩]

/-- The registers of the PLAN block (offset from its base, stride, count, fields with bits, access code, reset value, reset step, range). -/
def rowsPlan : List RegRow :=
 [
  ⟨"PLAN.CTRL", 0x0, 0x0, 1, [⟨17, 16, .rl, 0x0, 0, none⟩, ⟨11, 8, .rl, 0x4, 0, some (1, 15)⟩, ⟨1, 1, .rl, 0x1, 0, none⟩, ⟨0, 0, .rl, 0x1, 0, none⟩]⟩,
  ⟨"PLAN.HORIZON", 0x4, 0x0, 1, [⟨12, 0, .rl, 0x3e8, 0, some (500, 6250)⟩]⟩,
  ⟨"PLAN.HZEFF", 0x8, 0x0, 1, [⟨29, 16, .ro, 0x0, 0, none⟩, ⟨13, 0, .ro, 0x3e8, 0, none⟩]⟩,
  ⟨"PLAN.CASC", 0xc, 0x0, 1, [⟨31, 16, .rl, 0xf333, 0, some (32768, 65535)⟩, ⟨3, 0, .rl, 0x0, 0, none⟩]⟩,
  ⟨"PLAN.DAB", 0x10, 0x0, 1, [⟨20, 16, .rl, 0x0, 0, none⟩, ⟨13, 0, .rl, 0xc35, 0, some (1924, 12500)⟩]⟩,
  ⟨"PLAN.PAR", 0x14, 0x0, 1, [⟨3, 2, .rl, 0x0, 0, none⟩, ⟨1, 0, .rl, 0x0, 0, none⟩]⟩,
  ⟨"PLAN.QSEL", 0x18, 0x0, 1, [⟨5, 5, .rl, 0x0, 0, none⟩, ⟨4, 4, .rl, 0x0, 0, none⟩, ⟨3, 3, .rl, 0x0, 0, none⟩, ⟨2, 2, .rl, 0x0, 0, none⟩, ⟨1, 1, .rl, 0x0, 0, none⟩, ⟨0, 0, .rl, 0x0, 0, none⟩]⟩,
  ⟨"PLAN.VBSCALE", 0x1c, 0x0, 1, [⟨31, 0, .rl, 0x80, 0, none⟩]⟩,
  ⟨"PLAN.SCALE", 0x20, 0x4, 5, [⟨31, 0, .rw, 0x40000001, 0, none⟩]⟩,
  ⟨"PLAN.ACTL", 0x40, 0x20, 3, [⟨31, 0, .rt, 0x0, 0, none⟩]⟩,
  ⟨"PLAN.ACTH", 0x44, 0x20, 3, [⟨7, 0, .rt, 0x0, 0, none⟩]⟩,
  ⟨"PLAN.EFFL", 0x48, 0x20, 3, [⟨31, 0, .ro, 0x0, 0, none⟩]⟩,
  ⟨"PLAN.EFFH", 0x4c, 0x20, 3, [⟨7, 0, .ro, 0x0, 0, none⟩]⟩,
  ⟨"PLAN.FAILL", 0x50, 0x20, 3, [⟨31, 0, .w1c, 0x0, 0, none⟩]⟩] ++
 [
  ⟨"PLAN.FAILH", 0x54, 0x20, 3, [⟨7, 0, .w1c, 0x0, 0, none⟩]⟩,
  ⟨"PLAN.BYP", 0x58, 0x20, 3, [⟨5, 0, .wo, 0x0, 0, some (1, 40)⟩]⟩,
  ⟨"PLAN.WLAT", 0x5c, 0x20, 3, [⟨13, 0, .ro, 0x0, 0, none⟩]⟩,
  ⟨"PLAN.STAT", 0xa0, 0x0, 1, [⟨9, 9, .w1c, 0x0, 0, none⟩, ⟨8, 8, .w1c, 0x0, 0, none⟩, ⟨7, 7, .w1c, 0x0, 0, none⟩, ⟨6, 6, .w1c, 0x0, 0, none⟩, ⟨5, 5, .w1c, 0x0, 0, none⟩, ⟨4, 4, .w1c, 0x0, 0, none⟩, ⟨3, 3, .w1c, 0x0, 0, none⟩, ⟨2, 2, .w1c, 0x0, 0, none⟩, ⟨1, 1, .w1c, 0x0, 0, none⟩, ⟨0, 0, .w1c, 0x0, 0, none⟩]⟩,
  ⟨"PLAN.MISSCNT", 0xa4, 0x0, 1, [⟨31, 24, .rc, 0x0, 0, none⟩, ⟨23, 16, .rc, 0x0, 0, none⟩, ⟨15, 8, .rc, 0x0, 0, none⟩, ⟨7, 0, .rc, 0x0, 0, none⟩]⟩,
  ⟨"PLAN.EMITCNT", 0xa8, 0x0, 1, [⟨31, 16, .rc, 0x0, 0, none⟩, ⟨15, 0, .rc, 0x0, 0, none⟩]⟩,
  ⟨"PLAN.AMDCNT", 0xac, 0x0, 1, [⟨31, 16, .rc, 0x0, 0, none⟩, ⟨15, 0, .rc, 0x0, 0, none⟩]⟩]

/-- The registers of the RING block (offset from its base, stride, count, fields with bits, access code, reset value, reset step, range). -/
def rowsRing : List RegRow :=
 [
  ⟨"RING.STAT", 0x0, 0x0, 1, [⟨23, 18, .w1c, 0x0, 0, none⟩, ⟨17, 12, .w1c, 0x0, 0, none⟩, ⟨11, 6, .w1c, 0x0, 0, none⟩, ⟨5, 0, .w1c, 0x0, 0, none⟩]⟩,
  ⟨"RING.CFG", 0x4, 0x0, 1, [⟨31, 16, .rl, 0x400, 0, some (64, 65535)⟩, ⟨12, 0, .rl, 0x2ee, 0, some (125, 6250)⟩]⟩,
  ⟨"RING.TLMBASE", 0x8, 0x0, 1, [⟨31, 13, .rl, 0x1ff, 0, none⟩]⟩,
  ⟨"RING.EVTCFG", 0xc, 0x0, 1, [⟨5, 4, .rw, 0x1, 0, none⟩, ⟨3, 2, .rw, 0x1, 0, none⟩, ⟨1, 0, .rw, 0x1, 0, none⟩]⟩,
  ⟨"RING.EVTQ0", 0x10, 0x0, 1, [⟨31, 30, .ro, 0x0, 0, none⟩, ⟨29, 24, .ro, 0x0, 0, none⟩, ⟨23, 16, .ro, 0x0, 0, none⟩, ⟨15, 0, .ro, 0x0, 0, none⟩]⟩,
  ⟨"RING.EVTQ1", 0x14, 0x0, 1, [⟨31, 0, .ro, 0x0, 0, none⟩]⟩,
  ⟨"RING.EVTQ2", 0x18, 0x0, 1, [⟨15, 0, .ro, 0x0, 0, none⟩]⟩,
  ⟨"RING.EVTQ3", 0x1c, 0x0, 1, [⟨31, 0, .rc, 0x0, 0, none⟩]⟩,
  ⟨"RING.EVTLVL", 0x20, 0x0, 1, [⟨10, 0, .ro, 0x0, 0, none⟩]⟩,
  ⟨"RING.EVTDROP", 0x24, 0x0, 1, [⟨29, 20, .rc, 0x0, 0, none⟩, ⟨19, 10, .rc, 0x0, 0, none⟩, ⟨9, 0, .rc, 0x0, 0, none⟩]⟩,
  ⟨"RING.CACMD", 0x30, 0x0, 1, [⟨31, 31, .wo, 0x0, 0, none⟩, ⟨30, 30, .rw, 0x0, 0, none⟩, ⟨29, 28, .rw, 0x0, 0, some (0, 2)⟩, ⟨21, 16, .rw, 0x0, 0, some (1, 40)⟩, ⟨15, 0, .rw, 0x0, 0, none⟩]⟩,
  ⟨"RING.CADATA", 0x34, 0x0, 1, [⟨31, 0, .rw, 0x0, 0, none⟩]⟩,
  ⟨"RING.CASTAT", 0x38, 0x0, 1, [⟨31, 31, .ro, 0x0, 0, none⟩, ⟨30, 30, .w1c, 0x0, 0, none⟩, ⟨1, 0, .ro, 0x0, 0, none⟩]⟩,
  ⟨"RING.CSEL", 0x40, 0x0, 1, [⟨7, 6, .rw, 0x0, 0, some (0, 2)⟩, ⟨5, 0, .rw, 0x1, 0, some (1, 40)⟩]⟩] ++
 [
  ⟨"RING.CTIME", 0x44, 0x0, 1, [⟨31, 0, .ro, 0x0, 0, none⟩]⟩,
  ⟨"RING.CDIST", 0x48, 0x0, 1, [⟨18, 0, .ro, 0x0, 0, none⟩]⟩,
  ⟨"RING.RSTAT", 0x100, 0x40, 3, [⟨31, 31, .ro, 0x0, 0, none⟩, ⟨30, 30, .w1c, 0x0, 0, none⟩, ⟨21, 16, .ro, 0x0, 0, none⟩, ⟨13, 8, .ro, 0x0, 0, none⟩, ⟨7, 0, .ro, 0x0, 0, none⟩]⟩,
  ⟨"RING.LTOT", 0x104, 0x40, 3, [⟨18, 0, .ro, 0x0, 0, none⟩]⟩,
  ⟨"RING.LASYM", 0x108, 0x40, 3, [⟨15, 0, .ro, 0x0, 0, none⟩]⟩,
  ⟨"RING.ADML", 0x10c, 0x40, 3, [⟨31, 0, .ro, 0x0, 0, none⟩]⟩,
  ⟨"RING.ADMH", 0x110, 0x40, 3, [⟨7, 0, .ro, 0x0, 0, none⟩]⟩,
  ⟨"RING.RCMD", 0x114, 0x40, 3, [⟨0, 0, .rl, 0x0, 0, none⟩]⟩,
  ⟨"RING.SUM0", 0x118, 0x40, 3, [⟨31, 24, .ro, 0x0, 0, none⟩, ⟨23, 16, .ro, 0x0, 0, none⟩, ⟨15, 8, .ro, 0x0, 0, none⟩, ⟨7, 0, .ro, 0x0, 0, none⟩]⟩,
  ⟨"RING.SUM1", 0x11c, 0x40, 3, [⟨31, 24, .ro, 0x0, 0, none⟩, ⟨23, 16, .ro, 0x0, 0, none⟩, ⟨15, 8, .ro, 0x0, 0, none⟩, ⟨7, 0, .ro, 0x0, 0, none⟩]⟩,
  ⟨"RING.SUM2", 0x120, 0x40, 3, [⟨31, 24, .ro, 0x0, 0, none⟩, ⟨23, 16, .ro, 0x0, 0, none⟩, ⟨15, 8, .ro, 0x0, 0, none⟩, ⟨7, 0, .ro, 0x0, 0, none⟩]⟩,
  ⟨"RING.SUM3", 0x124, 0x40, 3, [⟨31, 24, .ro, 0x0, 0, none⟩, ⟨23, 16, .ro, 0x0, 0, none⟩, ⟨15, 8, .ro, 0x0, 0, none⟩, ⟨7, 0, .ro, 0x0, 0, none⟩]⟩,
  ⟨"RING.SUM4", 0x128, 0x40, 3, [⟨31, 24, .ro, 0x0, 0, none⟩, ⟨23, 16, .ro, 0x0, 0, none⟩, ⟨15, 8, .ro, 0x0, 0, none⟩, ⟨7, 0, .ro, 0x0, 0, none⟩]⟩,
  ⟨"RING.SUM5", 0x12c, 0x40, 3, [⟨31, 24, .ro, 0x0, 0, none⟩, ⟨23, 16, .ro, 0x0, 0, none⟩, ⟨15, 8, .ro, 0x0, 0, none⟩, ⟨7, 0, .ro, 0x0, 0, none⟩]⟩] ++
 [
  ⟨"RING.SUM6", 0x130, 0x40, 3, [⟨31, 24, .ro, 0x0, 0, none⟩, ⟨23, 16, .ro, 0x0, 0, none⟩, ⟨15, 8, .ro, 0x0, 0, none⟩, ⟨7, 0, .ro, 0x0, 0, none⟩]⟩,
  ⟨"RING.SUM7", 0x134, 0x40, 3, [⟨31, 24, .ro, 0x0, 0, none⟩, ⟨23, 16, .ro, 0x0, 0, none⟩, ⟨15, 8, .ro, 0x0, 0, none⟩, ⟨7, 0, .ro, 0x0, 0, none⟩]⟩,
  ⟨"RING.SUM8", 0x138, 0x40, 3, [⟨31, 24, .ro, 0x0, 0, none⟩, ⟨23, 16, .ro, 0x0, 0, none⟩, ⟨15, 8, .ro, 0x0, 0, none⟩, ⟨7, 0, .ro, 0x0, 0, none⟩]⟩,
  ⟨"RING.SUM9", 0x13c, 0x40, 3, [⟨31, 24, .ro, 0x0, 0, none⟩, ⟨23, 16, .ro, 0x0, 0, none⟩, ⟨15, 8, .ro, 0x0, 0, none⟩, ⟨7, 0, .ro, 0x0, 0, none⟩]⟩,
  ⟨"RING.LCTRL", 0x800, 0x40, 6, [⟨8, 8, .wo, 0x0, 0, none⟩, ⟨0, 0, .rl, 0x0, 0, none⟩]⟩,
  ⟨"RING.TAPS", 0x804, 0x40, 6, [⟨18, 16, .rl, 0x4, 0, none⟩, ⟨10, 8, .rl, 0x1, 0, some (0, 4)⟩, ⟨3, 0, .rl, 0x4, 0, some (0, 10)⟩]⟩,
  ⟨"RING.PSTAT", 0x808, 0x40, 6, [⟨31, 24, .ro, 0x0, 0, none⟩, ⟨23, 16, .ro, 0x0, 0, none⟩, ⟨11, 8, .ro, 0x0, 0, none⟩, ⟨2, 0, .ro, 0x0, 0, none⟩]⟩,
  ⟨"RING.TRK", 0x80c, 0x40, 6, [⟨23, 23, .ro, 0x0, 0, none⟩, ⟨21, 16, .ro, 0x0, 0, none⟩, ⟨7, 7, .ro, 0x0, 0, none⟩, ⟨5, 0, .ro, 0x0, 0, none⟩]⟩,
  ⟨"RING.ERRCNT", 0x810, 0x40, 6, [⟨31, 16, .rc, 0x0, 0, none⟩, ⟨15, 0, .rc, 0x0, 0, none⟩]⟩,
  ⟨"RING.MODINFO", 0x814, 0x40, 6, [⟨15, 8, .ro, 0x0, 0, none⟩, ⟨3, 3, .ro, 0x0, 0, none⟩, ⟨2, 0, .ro, 0x0, 0, none⟩]⟩,
  ⟨"RING.MGMT", 0x818, 0x40, 6, [⟨31, 31, .wo, 0x0, 0, none⟩, ⟨30, 30, .rw, 0x0, 0, none⟩, ⟨29, 29, .ro, 0x0, 0, none⟩, ⟨28, 28, .w1c, 0x0, 0, none⟩, ⟨23, 16, .rw, 0x0, 0, none⟩, ⟨15, 8, .rw, 0x0, 0, some (0, 3)⟩, ⟨7, 0, .rw, 0x0, 0, none⟩]⟩]

/-- The registers of the BRG block (offset from its base, stride, count, fields with bits, access code, reset value, reset step, range). -/
def rowsBrg : List RegRow :=
 [
  ⟨"BRG.CTRL", 0x0, 0x0, 1, [⟨11, 8, .rl, 0x0, 0, none⟩, ⟨0, 0, .rl, 0x0, 0, none⟩]⟩,
  ⟨"BRG.PER", 0x4, 0x0, 1, [⟨21, 0, .rt, 0x30d4, 0, some (1250, 2500000)⟩]⟩,
  ⟨"BRG.DUTY", 0x8, 0x4, 4, [⟨26, 0, .rt, 0x0, 0, some (0, 80000000)⟩]⟩,
  ⟨"BRG.DEAD", 0x18, 0x4, 4, [⟨9, 0, .rt, 0x7d, 0, some (0, 1000)⟩]⟩,
  ⟨"BRG.MINP", 0x28, 0x0, 1, [⟨8, 0, .rl, 0x7d, 0, some (0, 500)⟩]⟩,
  ⟨"BRG.REFCTL", 0x2c, 0x0, 1, [⟨31, 31, .rl, 0x1, 0, none⟩, ⟨23, 16, .rl, 0x10, 0, some (2, 255)⟩, ⟨15, 12, .rl, 0x4, 0, none⟩, ⟨9, 0, .rl, 0xfa, 0, some (125, 1000)⟩]⟩,
  ⟨"BRG.TRIPCFG", 0x30, 0x0, 1, [⟨7, 7, .rl, 0x0, 0, none⟩, ⟨15, 15, .rl, 0x0, 0, none⟩, ⟨23, 23, .rl, 0x0, 0, none⟩, ⟨31, 31, .rl, 0x0, 0, none⟩, ⟨6, 6, .rl, 0x0, 0, none⟩, ⟨14, 14, .rl, 0x0, 0, none⟩, ⟨22, 22, .rl, 0x0, 0, none⟩, ⟨30, 30, .rl, 0x0, 0, none⟩, ⟨5, 0, .rl, 0x2, 0, none⟩, ⟨13, 8, .rl, 0x2, 0, none⟩, ⟨21, 16, .rl, 0x2, 0, none⟩, ⟨29, 24, .rl, 0x2, 0, none⟩]⟩,
  ⟨"BRG.TRIPMASK", 0x34, 0x0, 1, [⟨15, 0, .rw, 0x0, 0, none⟩]⟩,
  ⟨"BRG.FORCE", 0x38, 0x0, 1, [⟨7, 6, .rw, 0x0, 0, none⟩, ⟨5, 4, .rw, 0x0, 0, none⟩, ⟨3, 2, .rw, 0x0, 0, none⟩, ⟨1, 0, .rw, 0x0, 0, none⟩]⟩,
  ⟨"BRG.STAT", 0x3c, 0x0, 1, [⟨17, 17, .w1c, 0x0, 0, none⟩, ⟨16, 16, .w1c, 0x0, 0, none⟩, ⟨15, 12, .w1c, 0x0, 0, none⟩, ⟨11, 8, .w1c, 0x0, 0, none⟩, ⟨3, 0, .w1c, 0x0, 0, none⟩]⟩,
  ⟨"BRG.TSTAT", 0x40, 0x0, 1, [⟨15, 12, .ro, 0x0, 0, none⟩, ⟨11, 8, .ro, 0x0, 0, none⟩, ⟨7, 4, .w1c, 0x0, 0, none⟩, ⟨3, 0, .w1c, 0x0, 0, none⟩]⟩,
  ⟨"BRG.LEGSTAT", 0x44, 0x0, 1, [⟨14, 12, .ro, 0x0, 0, none⟩, ⟨10, 8, .ro, 0x0, 0, none⟩, ⟨6, 4, .ro, 0x0, 0, none⟩, ⟨2, 0, .ro, 0x0, 0, none⟩]⟩,
  ⟨"BRG.CNT", 0x48, 0x0, 1, [⟨31, 16, .rc, 0x0, 0, none⟩, ⟨15, 0, .rc, 0x0, 0, none⟩]⟩,
  ⟨"BRG.PSTARTL", 0x4c, 0x0, 1, [⟨31, 0, .ro, 0x0, 0, none⟩]⟩] ++
 [
  ⟨"BRG.PSTARTH", 0x50, 0x0, 1, [⟨15, 0, .ro, 0x0, 0, none⟩]⟩]

/-- The registers of the GATE block (offset from its base, stride, count, fields with bits, access code, reset value, reset step, range). -/
def rowsGate : List RegRow :=
 [
  ⟨"GATE.SUP", 0x0, 0x4, 4, [⟨12, 8, .rl, 0x6, 0, some (0, 10)⟩, ⟨4, 0, .rl, 0x6, 0, some (0, 12)⟩]⟩,
  ⟨"GATE.DRV", 0x10, 0x4, 4, [⟨15, 12, .rl, 0x7, 0, none⟩, ⟨11, 8, .rl, 0x7, 0, none⟩, ⟨7, 4, .rl, 0x7, 0, none⟩, ⟨3, 0, .rl, 0x7, 0, none⟩]⟩,
  ⟨"GATE.PROT", 0x20, 0x4, 4, [⟨29, 24, .rl, 0xa, 0, some (3, 50)⟩, ⟨19, 16, .rl, 0x8, 0, none⟩, ⟨8, 0, .rl, 0xfa, 0, some (10, 500)⟩]⟩,
  ⟨"GATE.STAT", 0x30, 0x4, 4, [⟨7, 7, .w1c, 0x0, 0, none⟩, ⟨6, 6, .w1c, 0x0, 0, none⟩, ⟨5, 5, .w1c, 0x0, 0, none⟩, ⟨4, 4, .w1c, 0x0, 0, none⟩, ⟨3, 3, .w1c, 0x0, 0, none⟩, ⟨2, 2, .w1c, 0x0, 0, none⟩, ⟨1, 1, .w1c, 0x0, 0, none⟩, ⟨0, 0, .w1c, 0x0, 0, none⟩]⟩,
  ⟨"GATE.MON", 0x40, 0x0, 1, [⟨27, 24, .ro, 0x0, 0, none⟩, ⟨23, 16, .ro, 0x0, 0, none⟩, ⟨15, 8, .ro, 0x0, 0, none⟩]⟩,
  ⟨"GATE.TEMP", 0x50, 0x4, 4, [⟨15, 0, .ro, 0x8000, 0, none⟩]⟩,
  ⟨"GATE.FLTCNT", 0x60, 0x0, 1, [⟨31, 24, .rc, 0x0, 0, none⟩, ⟨23, 16, .rc, 0x0, 0, none⟩, ⟨15, 8, .rc, 0x0, 0, none⟩]⟩]

/-- The registers of the ADC block (offset from its base, stride, count, fields with bits, access code, reset value, reset step, range). -/
def rowsAdc : List RegRow :=
 [
  ⟨"ADC.REF", 0x0, 0x0, 1, [⟨31, 24, .ro, 0x0, 0, none⟩, ⟨23, 16, .ro, 0x0, 0, none⟩, ⟨15, 0, .rt, 0x0, 0, none⟩]⟩,
  ⟨"ADC.STAT", 0x4, 0x0, 1, [⟨31, 24, .w1c, 0x0, 0, none⟩, ⟨19, 19, .w1c, 0x0, 0, none⟩, ⟨18, 18, .w1c, 0x0, 0, none⟩, ⟨17, 17, .w1c, 0x0, 0, none⟩, ⟨16, 16, .w1c, 0x0, 0, none⟩, ⟨15, 8, .w1c, 0x0, 0, none⟩, ⟨7, 0, .w1c, 0x0, 0, none⟩]⟩,
  ⟨"ADC.CALCMD", 0x8, 0x0, 1, [⟨7, 0, .rl, 0x0, 0, none⟩]⟩,
  ⟨"ADC.ZXCFG", 0xc, 0x0, 1, [⟨31, 31, .rl, 0x0, 0, none⟩, ⟨20, 16, .rl, 0x0, 0, none⟩, ⟨15, 0, .rl, 0x140, 0, some (1, 32767)⟩]⟩,
  ⟨"ADC.ZXTL", 0x10, 0x0, 1, [⟨31, 0, .ro, 0x0, 0, none⟩]⟩,
  ⟨"ADC.ZXTH", 0x14, 0x0, 1, [⟨15, 0, .ro, 0x0, 0, none⟩]⟩,
  ⟨"ADC.CAL", 0x20, 0x4, 8, [⟨31, 16, .rt, 0x8000, 0, some (24576, 40960)⟩, ⟨15, 0, .rt, 0x0, 0, some ((-2048), 2047)⟩]⟩,
  ⟨"ADC.GMASK", 0x40, 0x10, 8, [⟨31, 0, .rw, 0x0, 0, none⟩]⟩,
  ⟨"ADC.GTIME", 0x44, 0x10, 8, [⟨29, 24, .rl, 0x1, 0, some (1, 63)⟩, ⟨19, 16, .rl, 0x0, 0, none⟩, ⟨9, 0, .rl, 0x0, 0, some (0, 799)⟩]⟩,
  ⟨"ADC.GBUF", 0x48, 0x10, 8, [⟨31, 10, .rl, 0xfe0, 2, some (0, 8191)⟩, ⟨2, 0, .rl, 0x1, 0, some (1, 6)⟩]⟩]

/-- The registers of the CAPT block (offset from its base, stride, count, fields with bits, access code, reset value, reset step, range). -/
def rowsCapt : List RegRow :=
 [
  ⟨"CAPT.CTRL", 0x0, 0x40, 4, [⟨31, 31, .rl, 0x0, 0, none⟩, ⟨29, 28, .rl, 0x0, 0, some (0, 2)⟩, ⟨27, 22, .rl, 0x1, 0, some (1, 40)⟩, ⟨19, 16, .rl, 0x0, 0, none⟩, ⟨9, 8, .rl, 0x0, 0, none⟩, ⟨4, 0, .rl, 0x0, 0, none⟩]⟩,
  ⟨"CAPT.MASK", 0x4, 0x40, 4, [⟨31, 0, .rl, 0x0, 0, none⟩]⟩,
  ⟨"CAPT.WIN", 0x8, 0x40, 4, [⟨31, 20, .rl, 0x800, 224, none⟩, ⟨7, 0, .rl, 0xe0, 0, some (1, 224)⟩]⟩,
  ⟨"CAPT.POST", 0xc, 0x40, 4, [⟨31, 0, .rl, 0x100000, 0, some (1, 234881024)⟩]⟩,
  ⟨"CAPT.TLVL", 0x10, 0x40, 4, [⟨15, 0, .rt, 0x0, 0, some ((-32767), 32767)⟩]⟩,
  ⟨"CAPT.THYS", 0x14, 0x40, 4, [⟨15, 0, .rt, 0x0, 0, some (0, 32767)⟩]⟩,
  ⟨"CAPT.CMD", 0x18, 0x40, 4, [⟨1, 0, .wo, 0x0, 0, none⟩]⟩,
  ⟨"CAPT.STAT", 0x1c, 0x40, 4, [⟨9, 9, .w1c, 0x0, 0, none⟩, ⟨8, 8, .w1c, 0x0, 0, none⟩, ⟨2, 0, .ro, 0x0, 0, none⟩]⟩,
  ⟨"CAPT.TTIMEL", 0x20, 0x40, 4, [⟨31, 0, .ro, 0x0, 0, none⟩]⟩,
  ⟨"CAPT.TTIMEH", 0x24, 0x40, 4, [⟨15, 0, .ro, 0x0, 0, none⟩]⟩,
  ⟨"CAPT.FIRST", 0x28, 0x40, 4, [⟨31, 0, .ro, 0x0, 0, none⟩]⟩,
  ⟨"CAPT.TREC", 0x2c, 0x40, 4, [⟨31, 0, .ro, 0x0, 0, none⟩]⟩,
  ⟨"CAPT.NPRE", 0x30, 0x40, 4, [⟨31, 0, .ro, 0x0, 0, none⟩]⟩]

/-- The registers of the FLT block (offset from its base, stride, count, fields with bits, access code, reset value, reset step, range). -/
def rowsFlt : List RegRow :=
 [
  ⟨"FLT.STICKY", 0x0, 0x4, 12, [⟨31, 0, .w1c, 0x0, 0, none⟩]⟩,
  ⟨"FLT.REACT", 0x40, 0x4, 48, [⟨3, 0, .rw, 0x9, 0, none⟩, ⟨7, 4, .rw, 0x9, 0, none⟩, ⟨11, 8, .rw, 0x9, 0, none⟩, ⟨15, 12, .rw, 0x9, 0, none⟩, ⟨19, 16, .rw, 0x9, 0, none⟩, ⟨23, 20, .rw, 0x9, 0, none⟩, ⟨27, 24, .rw, 0x9, 0, none⟩, ⟨31, 28, .rw, 0x9, 0, none⟩]⟩,
  ⟨"FLT.PIN", 0x100, 0x0, 1, [⟨2, 2, .ro, 0x0, 0, none⟩, ⟨1, 1, .ro, 0x0, 0, none⟩, ⟨0, 0, .rw, 0x1, 0, none⟩]⟩,
  ⟨"FLT.FIRST", 0x104, 0x0, 1, [⟨31, 31, .rc, 0x0, 0, none⟩, ⟨8, 0, .rc, 0x0, 0, none⟩]⟩,
  ⟨"FLT.SELF", 0x108, 0x0, 1, [⟨31, 31, .w1c, 0x0, 0, none⟩, ⟨7, 0, .ro, 0x0, 0, none⟩]⟩,
  ⟨"FLT.SWSET", 0x10c, 0x0, 1, [⟨7, 0, .wo, 0x0, 0, none⟩]⟩,
  ⟨"FLT.PSEL", 0x140, 0x4, 16, [⟨8, 0, .rl, 0x0, 0, none⟩]⟩,
  ⟨"FLT.HISTL", 0x180, 0x8, 16, [⟨31, 0, .rc, 0x0, 0, none⟩]⟩,
  ⟨"FLT.HISTH", 0x184, 0x8, 16, [⟨31, 31, .ro, 0x0, 0, none⟩, ⟨30, 30, .ro, 0x0, 0, none⟩, ⟨27, 24, .ro, 0x0, 0, none⟩, ⟨23, 20, .ro, 0x0, 0, none⟩, ⟨15, 0, .ro, 0x0, 0, none⟩]⟩]

/-- The registers of the MEM block (offset from its base, stride, count, fields with bits, access code, reset value, reset step, range). -/
def rowsMem : List RegRow :=
 [
  ⟨"MEM.CTRL", 0x0, 0x0, 1, [⟨0, 0, .rl, 0x1, 0, none⟩]⟩,
  ⟨"MEM.SCRUB", 0x4, 0x0, 1, [⟨31, 24, .rw, 0x18, 0, some (1, 168)⟩, ⟨23, 8, .rw, 0x3c, 0, some (10, 3600)⟩, ⟨7, 0, .rw, 0x2, 0, some (1, 60)⟩]⟩,
  ⟨"MEM.STAT", 0x8, 0x0, 1, [⟨8, 8, .ro, 0x0, 0, none⟩, ⟨6, 4, .w1c, 0x0, 0, none⟩, ⟨2, 0, .w1c, 0x0, 0, none⟩]⟩,
  ⟨"MEM.CECNT0", 0xc, 0x0, 1, [⟨31, 16, .rc, 0x0, 0, none⟩, ⟨15, 0, .rc, 0x0, 0, none⟩]⟩,
  ⟨"MEM.CECNT1", 0x10, 0x0, 1, [⟨15, 0, .rc, 0x0, 0, none⟩]⟩,
  ⟨"MEM.UECNT", 0x14, 0x0, 1, [⟨23, 16, .rc, 0x0, 0, none⟩, ⟨15, 8, .rc, 0x0, 0, none⟩, ⟨7, 0, .rc, 0x0, 0, none⟩]⟩,
  ⟨"MEM.UEADDR", 0x18, 0x0, 1, [⟨31, 0, .ro, 0x0, 0, none⟩]⟩,
  ⟨"MEM.UESRC", 0x1c, 0x0, 1, [⟨31, 24, .ro, 0x0, 0, none⟩, ⟨1, 0, .ro, 0x0, 0, none⟩]⟩,
  ⟨"MEM.LOG", 0x20, 0x0, 1, [⟨10, 0, .ro, 0x0, 0, none⟩]⟩,
  ⟨"MEM.LOGCNT", 0x24, 0x0, 1, [⟨31, 16, .rc, 0x0, 0, none⟩, ⟨15, 8, .rc, 0x0, 0, none⟩, ⟨7, 0, .rc, 0x0, 0, none⟩]⟩,
  ⟨"MEM.LSEQ", 0x28, 0x0, 1, [⟨31, 0, .ro, 0x0, 0, none⟩]⟩]

/-- The registers of the HOST block (offset from its base, stride, count, fields with bits, access code, reset value, reset step, range). -/
def rowsHost : List RegRow :=
 [
  ⟨"HOST.STAT", 0x0, 0x0, 1, [⟨18, 16, .ro, 0x0, 0, none⟩, ⟨10, 8, .ro, 0x0, 0, none⟩, ⟨4, 4, .ro, 0x0, 0, none⟩, ⟨3, 3, .w1c, 0x0, 0, none⟩, ⟨2, 0, .w1c, 0x0, 0, none⟩]⟩,
  ⟨"HOST.CTRL", 0x4, 0x0, 1, [⟨7, 0, .rw, 0xa, 0, some (1, 60)⟩]⟩,
  ⟨"HOST.IP", 0x10, 0x10, 3, [⟨31, 0, .rl, 0x0, 0, none⟩]⟩,
  ⟨"HOST.MASK", 0x14, 0x10, 3, [⟨31, 0, .rl, 0xffffff00, 0, none⟩]⟩,
  ⟨"HOST.GW", 0x18, 0x10, 3, [⟨31, 0, .rl, 0x0, 0, none⟩]⟩,
  ⟨"HOST.MACL", 0x40, 0x8, 3, [⟨31, 0, .ro, 0x0, 0, none⟩]⟩,
  ⟨"HOST.MACH", 0x44, 0x8, 3, [⟨15, 0, .ro, 0x0, 0, none⟩]⟩,
  ⟨"HOST.PCNT", 0x60, 0x4, 3, [⟨31, 16, .rc, 0x0, 0, none⟩, ⟨15, 8, .rc, 0x0, 0, none⟩, ⟨7, 0, .rc, 0x0, 0, none⟩]⟩,
  ⟨"HOST.SESSIP", 0x70, 0x8, 3, [⟨31, 0, .ro, 0x0, 0, none⟩]⟩,
  ⟨"HOST.SESSP", 0x74, 0x8, 3, [⟨15, 0, .ro, 0x0, 0, none⟩]⟩,
  ⟨"HOST.SCTRL", 0x100, 0x0, 1, [⟨31, 31, .rl, 0x0, 0, none⟩, ⟨18, 16, .rw, 0x0, 0, none⟩, ⟨15, 8, .rw, 0x0, 0, none⟩]⟩,
  ⟨"HOST.SSTAT", 0x104, 0x0, 1, [⟨11, 11, .w1c, 0x0, 0, none⟩, ⟨10, 10, .w1c, 0x0, 0, none⟩, ⟨9, 9, .w1c, 0x0, 0, none⟩, ⟨1, 0, .ro, 0x0, 0, none⟩]⟩,
  ⟨"HOST.SCRED", 0x108, 0x0, 1, [⟨31, 0, .ro, 0x0, 0, none⟩]⟩,
  ⟨"HOST.SRD", 0x10c, 0x0, 1, [⟨31, 31, .wo, 0x0, 0, none⟩, ⟨30, 30, .wo, 0x0, 0, none⟩, ⟨1, 0, .rw, 0x0, 0, none⟩]⟩] ++
 [
  ⟨"HOST.SCNT", 0x110, 0x0, 1, [⟨31, 16, .rc, 0x0, 0, none⟩]⟩,
  ⟨"HOST.LCTRL", 0x800, 0x40, 2, [⟨8, 8, .wo, 0x0, 0, none⟩, ⟨0, 0, .rl, 0x0, 0, none⟩]⟩,
  ⟨"HOST.TAPS", 0x804, 0x40, 2, [⟨18, 16, .rl, 0x4, 0, none⟩, ⟨10, 8, .rl, 0x1, 0, some (0, 4)⟩, ⟨3, 0, .rl, 0x4, 0, some (0, 10)⟩]⟩,
  ⟨"HOST.PSTAT", 0x808, 0x40, 2, [⟨31, 24, .ro, 0x0, 0, none⟩, ⟨23, 16, .ro, 0x0, 0, none⟩, ⟨11, 8, .ro, 0x0, 0, none⟩, ⟨2, 0, .ro, 0x0, 0, none⟩]⟩,
  ⟨"HOST.TRK", 0x80c, 0x40, 2, [⟨23, 23, .ro, 0x0, 0, none⟩, ⟨21, 16, .ro, 0x0, 0, none⟩, ⟨7, 7, .ro, 0x0, 0, none⟩, ⟨5, 0, .ro, 0x0, 0, none⟩]⟩,
  ⟨"HOST.ERRCNT", 0x810, 0x40, 2, [⟨31, 16, .rc, 0x0, 0, none⟩, ⟨15, 0, .rc, 0x0, 0, none⟩]⟩,
  ⟨"HOST.MODINFO", 0x814, 0x40, 2, [⟨15, 8, .ro, 0x0, 0, none⟩, ⟨3, 3, .ro, 0x0, 0, none⟩, ⟨2, 0, .ro, 0x0, 0, none⟩]⟩,
  ⟨"HOST.MGMT", 0x818, 0x40, 2, [⟨31, 31, .wo, 0x0, 0, none⟩, ⟨30, 30, .rw, 0x0, 0, none⟩, ⟨29, 29, .ro, 0x0, 0, none⟩, ⟨28, 28, .w1c, 0x0, 0, none⟩, ⟨23, 16, .rw, 0x0, 0, none⟩, ⟨15, 8, .rw, 0x0, 0, some (0, 3)⟩, ⟨7, 0, .rw, 0x0, 0, none⟩]⟩,
  ⟨"HOST.P6L3", 0x81c, 0x0, 1, [⟨31, 16, .rc, 0x0, 0, none⟩, ⟨15, 8, .ro, 0x0, 0, none⟩, ⟨7, 7, .ro, 0x0, 0, none⟩, ⟨5, 0, .ro, 0x0, 0, none⟩]⟩]

/-- The registers of the UPD block (offset from its base, stride, count, fields with bits, access code, reset value, reset step, range). -/
def rowsUpd : List RegRow :=
 [
  ⟨"UPD.STAT", 0x0, 0x0, 1, [⟨31, 24, .ro, 0x0, 0, none⟩, ⟨23, 16, .ro, 0x0, 0, none⟩, ⟨9, 9, .ro, 0x0, 0, none⟩, ⟨8, 8, .ro, 0x0, 0, none⟩, ⟨7, 2, .ro, 0x0, 0, none⟩, ⟨1, 0, .ro, 0x0, 0, none⟩]⟩,
  ⟨"UPD.RUNVER", 0x4, 0x0, 1, [⟨31, 0, .ro, 0x0, 0, none⟩]⟩,
  ⟨"UPD.SLATEVER", 0x8, 0x0, 1, [⟨31, 0, .ro, 0x0, 0, none⟩]⟩]

/-- The registers of the SAFE block (offset from its base, stride, count, fields with bits, access code, reset value, reset step, range). -/
def rowsSafe : List RegRow :=
 [
  ⟨"SAFE.STAT", 0x0, 0x0, 1, [⟨31, 31, .ro, 0x1, 0, none⟩, ⟨23, 16, .ro, 0x0, 0, none⟩, ⟨12, 12, .ro, 0x0, 0, none⟩, ⟨11, 11, .ro, 0x0, 0, none⟩, ⟨8, 0, .ro, 0x0, 0, none⟩]⟩,
  ⟨"SAFE.FUNC", 0x4, 0x0, 1, [⟨3, 2, .ro, 0x0, 0, none⟩, ⟨7, 6, .ro, 0x0, 0, none⟩, ⟨11, 10, .ro, 0x0, 0, none⟩, ⟨15, 14, .ro, 0x0, 0, none⟩, ⟨19, 18, .ro, 0x0, 0, none⟩, ⟨23, 22, .ro, 0x0, 0, none⟩, ⟨27, 26, .ro, 0x0, 0, none⟩, ⟨31, 30, .ro, 0x0, 0, none⟩, ⟨1, 0, .ro, 0x0, 0, none⟩, ⟨5, 4, .ro, 0x0, 0, none⟩, ⟨9, 8, .ro, 0x0, 0, none⟩, ⟨13, 12, .ro, 0x0, 0, none⟩, ⟨17, 16, .ro, 0x0, 0, none⟩, ⟨21, 20, .ro, 0x0, 0, none⟩, ⟨25, 24, .ro, 0x0, 0, none⟩, ⟨29, 28, .ro, 0x0, 0, none⟩]⟩,
  ⟨"SAFE.OUT", 0x8, 0x0, 1, [⟨4, 4, .ro, 0x0, 0, none⟩, ⟨12, 12, .ro, 0x0, 0, none⟩, ⟨20, 20, .ro, 0x0, 0, none⟩, ⟨28, 28, .ro, 0x0, 0, none⟩, ⟨3, 3, .ro, 0x0, 0, none⟩, ⟨11, 11, .ro, 0x0, 0, none⟩, ⟨19, 19, .ro, 0x0, 0, none⟩, ⟨27, 27, .ro, 0x0, 0, none⟩, ⟨2, 2, .ro, 0x0, 0, none⟩, ⟨10, 10, .ro, 0x0, 0, none⟩, ⟨18, 18, .ro, 0x0, 0, none⟩, ⟨26, 26, .ro, 0x0, 0, none⟩, ⟨1, 1, .ro, 0x0, 0, none⟩, ⟨9, 9, .ro, 0x0, 0, none⟩, ⟨17, 17, .ro, 0x0, 0, none⟩, ⟨25, 25, .ro, 0x0, 0, none⟩, ⟨0, 0, .ro, 0x0, 0, none⟩, ⟨8, 8, .ro, 0x0, 0, none⟩, ⟨16, 16, .ro, 0x0, 0, none⟩, ⟨24, 24, .ro, 0x0, 0, none⟩]⟩,
  ⟨"SAFE.LANE", 0xc, 0x0, 1, [⟨23, 16, .ro, 0x0, 0, none⟩, ⟨7, 0, .ro, 0x0, 0, none⟩]⟩,
  ⟨"SAFE.TEST", 0x10, 0x0, 1, [⟨31, 16, .ro, 0x0, 0, none⟩, ⟨4, 4, .ro, 0x0, 0, none⟩, ⟨3, 0, .ro, 0x0, 0, none⟩]⟩,
  ⟨"SAFE.CRCA", 0x14, 0x0, 1, [⟨31, 0, .ro, 0x0, 0, none⟩]⟩,
  ⟨"SAFE.CRCB", 0x18, 0x0, 1, [⟨31, 0, .ro, 0x0, 0, none⟩]⟩,
  ⟨"SAFE.PSET", 0x1c, 0x0, 1, [⟨31, 16, .ro, 0x0, 0, none⟩, ⟨1, 0, .ro, 0x0, 0, none⟩]⟩,
  ⟨"SAFE.CNT", 0x20, 0x0, 1, [⟨31, 16, .ro, 0x0, 0, none⟩, ⟨15, 0, .ro, 0x0, 0, none⟩]⟩]

/-- The registers of the MTR block (offset from its base, stride, count, fields with bits, access code, reset value, reset step, range). -/
def rowsMtr : List RegRow :=
 [
  ⟨"MTR.STAT", 0x0, 0x0, 1, [⟨19, 19, .ro, 0x0, 0, none⟩, ⟨18, 18, .ro, 0x0, 0, none⟩, ⟨17, 17, .ro, 0x0, 0, none⟩, ⟨16, 16, .ro, 0x0, 0, none⟩, ⟨12, 12, .ro, 0x0, 0, none⟩, ⟨11, 11, .ro, 0x0, 0, none⟩, ⟨10, 10, .ro, 0x0, 0, none⟩, ⟨9, 9, .ro, 0x0, 0, none⟩, ⟨8, 8, .ro, 0x0, 0, none⟩, ⟨2, 0, .ro, 0x0, 0, none⟩]⟩,
  ⟨"MTR.CMD", 0x4, 0x0, 1, [⟨31, 24, .wo, 0x0, 0, none⟩, ⟨7, 0, .wo, 0x0, 0, none⟩]⟩,
  ⟨"MTR.CMDRES", 0x8, 0x0, 1, [⟨31, 31, .ro, 0x0, 0, none⟩, ⟨23, 16, .ro, 0x0, 0, none⟩, ⟨15, 8, .ro, 0x0, 0, none⟩, ⟨7, 0, .ro, 0x0, 0, none⟩]⟩,
  ⟨"MTR.RSEQ", 0xc, 0x0, 1, [⟨31, 0, .ro, 0x0, 0, none⟩]⟩,
  ⟨"MTR.MTIME", 0x10, 0x0, 1, [⟨31, 0, .ro, 0x0, 0, none⟩]⟩,
  ⟨"MTR.TADJ", 0x14, 0x0, 1, [⟨31, 16, .ro, 0x0, 0, none⟩, ⟨15, 0, .ro, 0x0, 0, none⟩]⟩,
  ⟨"MTR.PSET", 0x18, 0x0, 1, [⟨31, 16, .ro, 0x0, 0, none⟩, ⟨15, 0, .ro, 0x0, 0, none⟩]⟩,
  ⟨"MTR.ID", 0x1c, 0x0, 1, [⟨31, 0, .ro, 0x0, 0, none⟩]⟩,
  ⟨"MTR.PADDR", 0x20, 0x0, 1, [⟨7, 0, .rw, 0x0, 0, some (0, 15)⟩]⟩,
  ⟨"MTR.PDATA", 0x24, 0x0, 1, [⟨31, 0, .rw, 0x0, 0, none⟩]⟩,
  ⟨"MTR.LSEL", 0x28, 0x0, 1, [⟨31, 0, .rw, 0x0, 0, none⟩]⟩,
  ⟨"MTR.LSTAT", 0x2c, 0x0, 1, [⟨31, 31, .ro, 0x0, 0, none⟩, ⟨30, 30, .ro, 0x0, 0, none⟩]⟩,
  ⟨"MTR.FCHAN", 0x30, 0x0, 1, [⟨15, 0, .ro, 0x0, 0, none⟩]⟩,
  ⟨"MTR.EL", 0x40, 0x8, 19, [⟨31, 0, .ro, 0x0, 0, none⟩]⟩] ++
 [
  ⟨"MTR.EH", 0x44, 0x8, 19, [⟨31, 0, .ro, 0x0, 0, none⟩]⟩,
  ⟨"MTR.P", 0x100, 0x4, 9, [⟨31, 0, .ro, 0x0, 0, none⟩]⟩,
  ⟨"MTR.SESS", 0x140, 0x4, 8, [⟨31, 31, .ro, 0x0, 0, none⟩, ⟨15, 0, .ro, 0x0, 0, none⟩]⟩,
  ⟨"MTR.LREC", 0x200, 0x4, 32, [⟨31, 0, .ro, 0x0, 0, none⟩]⟩]

/-- The registers of the THERM block (offset from its base, stride, count, fields with bits, access code, reset value, reset step, range). -/
def rowsTherm : List RegRow :=
 [
  ⟨"THERM.STAT", 0x0, 0x0, 1, [⟨24, 24, .w1c, 0x0, 0, none⟩, ⟨16, 8, .ro, 0x0, 0, none⟩, ⟨5, 2, .ro, 0x0, 0, none⟩, ⟨1, 0, .ro, 0x0, 0, none⟩]⟩,
  ⟨"THERM.LIMIT", 0x4, 0x0, 1, [⟨23, 16, .rw, 0x7d, 0, none⟩, ⟨15, 8, .rw, 0x6e, 0, none⟩, ⟨7, 0, .rw, 0x64, 0, none⟩]⟩,
  ⟨"THERM.TCFG", 0x8, 0x0, 1, [⟨13, 12, .rw, 0x1, 0, some (0, 2)⟩, ⟨9, 8, .rw, 0x1, 0, some (0, 2)⟩, ⟨5, 4, .rw, 0x1, 0, some (0, 2)⟩, ⟨2, 2, .rw, 0x0, 0, none⟩, ⟨1, 0, .rw, 0x1, 0, some (0, 2)⟩]⟩,
  ⟨"THERM.BGCORE", 0xc, 0x0, 1, [⟨11, 0, .rw, 0x0, 0, none⟩]⟩,
  ⟨"THERM.SDINFO", 0x10, 0x0, 1, [⟨31, 16, .ro, 0x0, 0, none⟩, ⟨15, 5, .ro, 0x0, 0, none⟩, ⟨3, 0, .ro, 0x0, 0, none⟩]⟩,
  ⟨"THERM.T", 0x20, 0x4, 9, [⟨31, 16, .rc, 0x8000, 0, none⟩, ⟨15, 0, .ro, 0x8000, 0, none⟩]⟩]

/-- The rows of register block n (R41). -/
def blockRows (n : Nat) : List RegRow :=
  match n with
  | 0 => rowsSup
  | 1 => rowsClk
  | 2 => rowsTime
  | 3 => rowsTake
  | 4 => rowsCore
  | 5 => rowsPlan
  | 6 => rowsRing
  | 7 => rowsBrg
  | 8 => rowsGate
  | 9 => rowsAdc
  | 10 => rowsCapt
  | 11 => rowsFlt
  | 12 => rowsMem
  | 13 => rowsHost
  | 14 => rowsUpd
  | 15 => rowsSafe
  | 16 => rowsMtr
  | 17 => rowsTherm
  | _ => []

/-- The element of a row's array at an offset of its block. -/
def RegRow.index (r : RegRow) (off : Nat) : Option Nat :=
  if off < r.off then none
  else if r.count = 1 then (if off = r.off then some 0 else none)
  else if (off - r.off) % r.stride = 0 ∧ (off - r.off) / r.stride < r.count then some ((off - r.off) / r.stride)
  else none

/-- The row and element at an offset. -/
def rowAt : List RegRow → Nat → Option (RegRow × Nat)
  | [], _ => none
  | r :: t, off =>
    match r.index off with
    | some i => some (r, i)
    | none => rowAt t off

/-- The block of an address in the register space (R41). -/
def blockOf (a : Nat) : Nat := a / 0x10000 % 0x4000

/-- An address of the register space (R39). -/
def isRegSpace (a : Nat) : Bool := decide (0x40000000 ≤ a ∧ a < 0x40120000)

/-- The register at an address, or none where no register lies (R3). -/
def findReg (a : Nat) : Option (RegRow × Nat) :=
  if isRegSpace a then rowAt (blockRows (blockOf a)) (a % 0x10000) else none

/-- The reset value that the fields of a row give. -/
def RegRow.resetWord (r : RegRow) (i : Nat) : Nat :=
  r.fields.foldl (fun w f => w + ((f.reset + f.step * i) % 2 ^ (f.hi - f.lo + 1)) * 2 ^ f.lo) 0

/-- The privileged sources after reset (FLT.PSELk). -/
def pselReset : List Nat := [4, 5, 6, 10, 11, 12, 13, 32, 35, 50, 51, 97, 83, 84, 124, 113]

/-- The value a register holds after reset. -/
def resetValue (a : Nat) : Word :=
  if a = 0x400D0030 then 0xC0A85628
  else if 0x400B0140 ≤ a ∧ a < 0x400B0180 then BitVec.ofNat 32 (pselReset.getD (a % 0x10000 / 4 - 0x50) 0)
  else if 0x400D0040 ≤ a ∧ a < 0x400D0058 then
    (if a % 8 = 0 then (Config.macAddress (a % 0x10000 / 8 - 8)).setWidth 32
     else ((Config.macAddress (a % 0x10000 / 8 - 8)) >>> 32).setWidth 32)
  else match findReg a with
    | some (r, i) => BitVec.ofNat 32 (r.resetWord i)
    | none => 0

/-- The bits of a register whose fields carry an access code. -/
def RegRow.mask (r : RegRow) (p : Acc → Bool) : Word :=
  r.fields.foldl (fun w f => if p f.acc then w ||| BitVec.ofNat 32 ((2 ^ (f.hi - f.lo + 1) - 1) * 2 ^ f.lo) else w) 0

/-- The field bits of a word, unsigned. -/
def Fld.get (f : Fld) (w : Word) : Nat := (w.extractLsb' f.lo (f.hi - f.lo + 1)).toNat

/-- A word with one field replaced by the low bits of a value. -/
def Fld.put (f : Fld) (w : Word) (v : Nat) : Word :=
  (w &&& ~~~((BitVec.allOnes (f.hi - f.lo + 1)).setWidth 32 <<< f.lo)) |||
    ((BitVec.ofNat (f.hi - f.lo + 1) v).setWidth 32 <<< f.lo)

/-- Width of a field. -/
def Fld.width (f : Fld) : Nat := f.hi - f.lo + 1

namespace A

def SUP_MODE : Nat := 0x40000010
def SUP_MODE_REQ : Nat := 0x40000014
def SUP_REFUSE : Nat := 0x40000018
def CORE_ENABLE : Nat := 0x40040000
def CORE_PERIOD : Nat := 0x40040004
def CORE_TICK : Nat := 0x40040008
def CORE_CTRL (i : Nat) : Nat := 0x40040100 + 0x40 * i
def CORE_STAT (i : Nat) : Nat := 0x40040104 + 0x40 * i
def CORE_PHV (i : Nat) : Nat := 0x40040108 + 0x40 * i
def CORE_TVEC (i : Nat) : Nat := 0x4004010c + 0x40 * i
def CORE_TPC (i : Nat) : Nat := 0x40040110 + 0x40 * i
def CORE_TCAUSE (i : Nat) : Nat := 0x40040114 + 0x40 * i
def CORE_TADDR (i : Nat) : Nat := 0x40040118 + 0x40 * i
def CORE_SPECCNT (i : Nat) : Nat := 0x4004011c + 0x40 * i
def CORE_MARGIN (i : Nat) : Nat := 0x40040120 + 0x40 * i
def CORE_LADDR (i : Nat) : Nat := 0x40040124 + 0x40 * i
def CORE_LDATA (i : Nat) : Nat := 0x40040128 + 0x40 * i
def CORE_MEMERR (i : Nat) : Nat := 0x4004012c + 0x40 * i
def TAKE_CTRL : Nat := 0x40030000
def TAKE_WSEQL : Nat := 0x40030004
def TAKE_WSEQH : Nat := 0x40030008
def TAKE_VADDR : Nat := 0x4003000c
def TAKE_VERL : Nat := 0x40030010
def TAKE_VERH : Nat := 0x40030014
def TAKE_USE : Nat := 0x40030018
def TAKE_CUTCNT : Nat := 0x4003001c
def TAKE_STAT (i : Nat) : Nat := 0x40030040 + 0x10 * i
def TAKE_BNDL (i : Nat) : Nat := 0x40030044 + 0x10 * i
def TAKE_BNDH (i : Nat) : Nat := 0x40030048 + 0x10 * i
def PLAN_CTRL : Nat := 0x40050000
def PLAN_HORIZON : Nat := 0x40050004
def PLAN_HZEFF : Nat := 0x40050008
def PLAN_CASC : Nat := 0x4005000c
def PLAN_DAB : Nat := 0x40050010
def PLAN_PAR : Nat := 0x40050014
def PLAN_QSEL : Nat := 0x40050018
def PLAN_VBSCALE : Nat := 0x4005001c
def PLAN_SCALE (i : Nat) : Nat := 0x40050020 + 0x4 * i
def PLAN_ACTL (i : Nat) : Nat := 0x40050040 + 0x20 * i
def PLAN_ACTH (i : Nat) : Nat := 0x40050044 + 0x20 * i
def PLAN_EFFL (i : Nat) : Nat := 0x40050048 + 0x20 * i
def PLAN_EFFH (i : Nat) : Nat := 0x4005004c + 0x20 * i
def PLAN_FAILL (i : Nat) : Nat := 0x40050050 + 0x20 * i
def PLAN_FAILH (i : Nat) : Nat := 0x40050054 + 0x20 * i
def PLAN_BYP (i : Nat) : Nat := 0x40050058 + 0x20 * i
def PLAN_WLAT (i : Nat) : Nat := 0x4005005c + 0x20 * i
def PLAN_STAT : Nat := 0x400500a0
def PLAN_MISSCNT : Nat := 0x400500a4
def PLAN_EMITCNT : Nat := 0x400500a8
def PLAN_AMDCNT : Nat := 0x400500ac
def CLK_CTRL : Nat := 0x40010000
def CLK_STAT : Nat := 0x40010004
def CLK_STEER : Nat := 0x40010008
def CLK_DLLSTAT : Nat := 0x4001000c
def CLK_DLLCMD : Nat := 0x40010010
def CLK_DLLPOS (i : Nat) : Nat := 0x40010020 + 0x4 * i
def RING_STAT : Nat := 0x40060000
def RING_LCTRL (p : Nat) : Nat := laneAddr 0x0 p
def RING_TAPS (p : Nat) : Nat := laneAddr 0x4 p
def RING_PSTAT (p : Nat) : Nat := laneAddr 0x8 p
def RING_TRK (p : Nat) : Nat := laneAddr 0xc p
def RING_ERRCNT (p : Nat) : Nat := laneAddr 0x10 p
def RING_MODINFO (p : Nat) : Nat := laneAddr 0x14 p
def RING_MGMT (p : Nat) : Nat := laneAddr 0x18 p
def RING_CFG : Nat := 0x40060004
def RING_TLMBASE : Nat := 0x40060008
def RING_EVTCFG : Nat := 0x4006000c
def RING_EVTQ0 : Nat := 0x40060010
def RING_EVTQ1 : Nat := 0x40060014
def RING_EVTQ2 : Nat := 0x40060018
def RING_EVTQ3 : Nat := 0x4006001c
def RING_EVTLVL : Nat := 0x40060020
def RING_EVTDROP : Nat := 0x40060024
def RING_CACMD : Nat := 0x40060030
def RING_CADATA : Nat := 0x40060034
def RING_CASTAT : Nat := 0x40060038
def RING_CSEL : Nat := 0x40060040
def RING_CTIME : Nat := 0x40060044
def RING_CDIST : Nat := 0x40060048
def RING_RSTAT (i : Nat) : Nat := 0x40060100 + 0x40 * i
def RING_LTOT (i : Nat) : Nat := 0x40060104 + 0x40 * i
def RING_LASYM (i : Nat) : Nat := 0x40060108 + 0x40 * i
def RING_ADML (i : Nat) : Nat := 0x4006010c + 0x40 * i
def RING_ADMH (i : Nat) : Nat := 0x40060110 + 0x40 * i
def RING_RCMD (i : Nat) : Nat := 0x40060114 + 0x40 * i
def RING_SUM0 (i : Nat) : Nat := 0x40060118 + 0x40 * i
def RING_SUM1 (i : Nat) : Nat := 0x4006011c + 0x40 * i
def RING_SUM2 (i : Nat) : Nat := 0x40060120 + 0x40 * i
def RING_SUM3 (i : Nat) : Nat := 0x40060124 + 0x40 * i
def RING_SUM4 (i : Nat) : Nat := 0x40060128 + 0x40 * i
def RING_SUM5 (i : Nat) : Nat := 0x4006012c + 0x40 * i
def RING_SUM6 (i : Nat) : Nat := 0x40060130 + 0x40 * i
def RING_SUM7 (i : Nat) : Nat := 0x40060134 + 0x40 * i
def RING_SUM8 (i : Nat) : Nat := 0x40060138 + 0x40 * i
def RING_SUM9 (i : Nat) : Nat := 0x4006013c + 0x40 * i
def TIME_STAT : Nat := 0x40020000
def TIME_RTIMEL : Nat := 0x40020004
def TIME_RTIMEH : Nat := 0x40020008
def TIME_LTIMEL : Nat := 0x4002000c
def TIME_LTIMEH : Nat := 0x40020010
def TIME_GCFG : Nat := 0x40020014
def TIME_PTPCFG : Nat := 0x40020018
def TIME_ASYM : Nat := 0x4002001c
def TIME_MAPRL : Nat := 0x40020020
def TIME_MAPRH : Nat := 0x40020024
def TIME_MAPGSL : Nat := 0x40020028
def TIME_MAPGSH : Nat := 0x4002002c
def TIME_MAPGNS : Nat := 0x40020030
def TIME_MAPK : Nat := 0x40020034
def TIME_OFFSET : Nat := 0x40020038
def TIME_STEPCNT : Nat := 0x4002003c
def TIME_TXTS : Nat := 0x40020040
def TIME_PEER : Nat := 0x40020044
def TIME_PEEROFF : Nat := 0x40020048
def TIME_CMPL (i : Nat) : Nat := 0x40020080 + 0x10 * i
def TIME_CMPH (i : Nat) : Nat := 0x40020084 + 0x10 * i
def TIME_CMPCTL (i : Nat) : Nat := 0x40020088 + 0x10 * i
def BRG_CTRL : Nat := 0x40070000
def BRG_PER : Nat := 0x40070004
def BRG_DUTY (i : Nat) : Nat := 0x40070008 + 0x4 * i
def BRG_DEAD (i : Nat) : Nat := 0x40070018 + 0x4 * i
def BRG_MINP : Nat := 0x40070028
def BRG_REFCTL : Nat := 0x4007002c
def BRG_TRIPCFG : Nat := 0x40070030
def BRG_TRIPMASK : Nat := 0x40070034
def BRG_FORCE : Nat := 0x40070038
def BRG_STAT : Nat := 0x4007003c
def BRG_TSTAT : Nat := 0x40070040
def BRG_LEGSTAT : Nat := 0x40070044
def BRG_CNT : Nat := 0x40070048
def BRG_PSTARTL : Nat := 0x4007004c
def BRG_PSTARTH : Nat := 0x40070050
def GATE_SUP (i : Nat) : Nat := 0x40080000 + 0x4 * i
def GATE_DRV (i : Nat) : Nat := 0x40080010 + 0x4 * i
def GATE_PROT (i : Nat) : Nat := 0x40080020 + 0x4 * i
def GATE_STAT (i : Nat) : Nat := 0x40080030 + 0x4 * i
def GATE_MON : Nat := 0x40080040
def GATE_TEMP (i : Nat) : Nat := 0x40080050 + 0x4 * i
def GATE_FLTCNT : Nat := 0x40080060
def ADC_REF : Nat := 0x40090000
def ADC_STAT : Nat := 0x40090004
def ADC_CALCMD : Nat := 0x40090008
def ADC_ZXCFG : Nat := 0x4009000c
def ADC_ZXTL : Nat := 0x40090010
def ADC_ZXTH : Nat := 0x40090014
def ADC_CAL (i : Nat) : Nat := 0x40090020 + 0x4 * i
def ADC_GMASK (i : Nat) : Nat := 0x40090040 + 0x10 * i
def ADC_GTIME (i : Nat) : Nat := 0x40090044 + 0x10 * i
def ADC_GBUF (i : Nat) : Nat := 0x40090048 + 0x10 * i
def CAPT_CTRL (i : Nat) : Nat := 0x400a0000 + 0x40 * i
def CAPT_MASK (i : Nat) : Nat := 0x400a0004 + 0x40 * i
def CAPT_WIN (i : Nat) : Nat := 0x400a0008 + 0x40 * i
def CAPT_POST (i : Nat) : Nat := 0x400a000c + 0x40 * i
def CAPT_TLVL (i : Nat) : Nat := 0x400a0010 + 0x40 * i
def CAPT_THYS (i : Nat) : Nat := 0x400a0014 + 0x40 * i
def CAPT_CMD (i : Nat) : Nat := 0x400a0018 + 0x40 * i
def CAPT_STAT (i : Nat) : Nat := 0x400a001c + 0x40 * i
def CAPT_TTIMEL (i : Nat) : Nat := 0x400a0020 + 0x40 * i
def CAPT_TTIMEH (i : Nat) : Nat := 0x400a0024 + 0x40 * i
def CAPT_FIRST (i : Nat) : Nat := 0x400a0028 + 0x40 * i
def CAPT_TREC (i : Nat) : Nat := 0x400a002c + 0x40 * i
def CAPT_NPRE (i : Nat) : Nat := 0x400a0030 + 0x40 * i
def MTR_STAT : Nat := 0x40100000
def MTR_CMD : Nat := 0x40100004
def MTR_CMDRES : Nat := 0x40100008
def MTR_RSEQ : Nat := 0x4010000c
def MTR_MTIME : Nat := 0x40100010
def MTR_ID : Nat := 0x4010001c
def MTR_TADJ : Nat := 0x40100014
def MTR_PSET : Nat := 0x40100018
def MTR_PADDR : Nat := 0x40100020
def MTR_PDATA : Nat := 0x40100024
def MTR_LSEL : Nat := 0x40100028
def MTR_LSTAT : Nat := 0x4010002c
def MTR_FCHAN : Nat := 0x40100030
def MTR_EL (i : Nat) : Nat := 0x40100040 + 0x8 * i
def MTR_EH (i : Nat) : Nat := 0x40100044 + 0x8 * i
def MTR_P (i : Nat) : Nat := 0x40100100 + 0x4 * i
def MTR_SESS (i : Nat) : Nat := 0x40100140 + 0x4 * i
def MTR_LREC (i : Nat) : Nat := 0x40100200 + 0x4 * i
def SAFE_STAT : Nat := 0x400f0000
def SAFE_FUNC : Nat := 0x400f0004
def SAFE_OUT : Nat := 0x400f0008
def SAFE_LANE : Nat := 0x400f000c
def SAFE_TEST : Nat := 0x400f0010
def SAFE_CRCA : Nat := 0x400f0014
def SAFE_CRCB : Nat := 0x400f0018
def SAFE_PSET : Nat := 0x400f001c
def SAFE_CNT : Nat := 0x400f0020
def FLT_STICKY (i : Nat) : Nat := 0x400b0000 + 0x4 * i
def FLT_REACT (i : Nat) : Nat := 0x400b0040 + 0x4 * i
def FLT_PIN : Nat := 0x400b0100
def FLT_FIRST : Nat := 0x400b0104
def FLT_SELF : Nat := 0x400b0108
def FLT_SWSET : Nat := 0x400b010c
def FLT_PSEL (i : Nat) : Nat := 0x400b0140 + 0x4 * i
def FLT_HISTL (i : Nat) : Nat := 0x400b0180 + 0x8 * i
def FLT_HISTH (i : Nat) : Nat := 0x400b0184 + 0x8 * i
def MEM_CTRL : Nat := 0x400c0000
def MEM_SCRUB : Nat := 0x400c0004
def MEM_STAT : Nat := 0x400c0008
def MEM_CECNT0 : Nat := 0x400c000c
def MEM_CECNT1 : Nat := 0x400c0010
def MEM_UECNT : Nat := 0x400c0014
def MEM_UEADDR : Nat := 0x400c0018
def MEM_UESRC : Nat := 0x400c001c
def MEM_LOG : Nat := 0x400c0020
def MEM_LOGCNT : Nat := 0x400c0024
def MEM_LSEQ : Nat := 0x400c0028
def THERM_STAT : Nat := 0x40110000
def THERM_LIMIT : Nat := 0x40110004
def THERM_TCFG : Nat := 0x40110008
def THERM_BGCORE : Nat := 0x4011000c
def THERM_SDINFO : Nat := 0x40110010
def THERM_T (i : Nat) : Nat := 0x40110020 + 0x4 * i
def HOST_STAT : Nat := 0x400d0000
def HOST_CTRL : Nat := 0x400d0004
def HOST_IP (i : Nat) : Nat := 0x400d0010 + 0x10 * i
def HOST_MASK (i : Nat) : Nat := 0x400d0014 + 0x10 * i
def HOST_GW (i : Nat) : Nat := 0x400d0018 + 0x10 * i
def HOST_MACL (i : Nat) : Nat := 0x400d0040 + 0x8 * i
def HOST_MACH (i : Nat) : Nat := 0x400d0044 + 0x8 * i
def HOST_PCNT (i : Nat) : Nat := 0x400d0060 + 0x4 * i
def HOST_SESSIP (i : Nat) : Nat := 0x400d0070 + 0x8 * i
def HOST_SESSP (i : Nat) : Nat := 0x400d0074 + 0x8 * i
def HOST_SCTRL : Nat := 0x400d0100
def HOST_SSTAT : Nat := 0x400d0104
def HOST_SCRED : Nat := 0x400d0108
def HOST_SRD : Nat := 0x400d010c
def HOST_SCNT : Nat := 0x400d0110
def HOST_P6L3 : Nat := 0x400d081c
def UPD_STAT : Nat := 0x400e0000
def UPD_RUNVER : Nat := 0x400e0004
def UPD_SLATEVER : Nat := 0x400e0008
def SUP_ID : Nat := 0x40000000
def SUP_STAT : Nat := 0x40000004
def SUP_VIN : Nat := 0x40000008
def SUP_DOM : Nat := 0x4000000c
def SUP_CAGE : Nat := 0x4000001c
def SUP_START : Nat := 0x40000020

end A

namespace F

def SUP_MODE_LOCKOUT : Fld := ⟨0x40000010, 14, 14⟩
def SUP_MODE_MEM : Fld := ⟨0x40000010, 13, 13⟩
def SUP_MODE_THERM : Fld := ⟨0x40000010, 12, 11⟩
def SUP_MODE_CAPT : Fld := ⟨0x40000010, 10, 9⟩
def SUP_MODE_UPD : Fld := ⟨0x40000010, 8, 8⟩
def SUP_MODE_TSRC : Fld := ⟨0x40000010, 7, 6⟩
def SUP_MODE_PWR : Fld := ⟨0x40000010, 2, 0⟩
def SUP_MODE_REQ_REQ : Fld := ⟨0x40000014, 3, 0⟩
def SUP_REFUSE_COUNT : Fld := ⟨0x40000018, 31, 24⟩
def SUP_REFUSE_REQUESTER : Fld := ⟨0x40000018, 23, 16⟩
def SUP_REFUSE_AXIS : Fld := ⟨0x40000018, 15, 12⟩
def SUP_REFUSE_REQ : Fld := ⟨0x40000018, 11, 8⟩
def SUP_REFUSE_CODE : Fld := ⟨0x40000018, 7, 0⟩
def CORE_ENABLE_EN : Fld := ⟨0x40040000, 11, 0⟩
def CORE_PERIOD_PERIOD : Fld := ⟨0x40040004, 14, 0⟩
def CORE_TICK_COUNT : Fld := ⟨0x40040008, 31, 0⟩
def CORE_CTRL_TRAPHALT (i : Nat) : Fld := ⟨0x40040100 + 0x40 * i, 1, 1⟩
def CORE_CTRL_SPEC (i : Nat) : Fld := ⟨0x40040100 + 0x40 * i, 0, 0⟩
def CORE_STAT_LATE (i : Nat) : Fld := ⟨0x40040104 + 0x40 * i, 15, 15⟩
def CORE_STAT_OVR (i : Nat) : Fld := ⟨0x40040104 + 0x40 * i, 14, 14⟩
def CORE_STAT_SAT (i : Nat) : Fld := ⟨0x40040104 + 0x40 * i, 13, 13⟩
def CORE_STAT_RESERR (i : Nat) : Fld := ⟨0x40040104 + 0x40 * i, 12, 12⟩
def CORE_STAT_STATE (i : Nat) : Fld := ⟨0x40040104 + 0x40 * i, 2, 0⟩
def CORE_PHV_ADDR (i : Nat) : Fld := ⟨0x40040108 + 0x40 * i, 15, 2⟩
def CORE_TVEC_ADDR (i : Nat) : Fld := ⟨0x4004010c + 0x40 * i, 15, 2⟩
def CORE_TPC_ADDR (i : Nat) : Fld := ⟨0x40040110 + 0x40 * i, 15, 2⟩
def CORE_TCAUSE_DOUBLE (i : Nat) : Fld := ⟨0x40040114 + 0x40 * i, 31, 31⟩
def CORE_TCAUSE_CAUSE (i : Nat) : Fld := ⟨0x40040114 + 0x40 * i, 7, 0⟩
def CORE_TADDR_ADDR (i : Nat) : Fld := ⟨0x40040118 + 0x40 * i, 31, 0⟩
def CORE_SPECCNT_COMMITS (i : Nat) : Fld := ⟨0x4004011c + 0x40 * i, 31, 16⟩
def CORE_SPECCNT_SQUASHES (i : Nat) : Fld := ⟨0x4004011c + 0x40 * i, 15, 0⟩
def CORE_MARGIN_MIN (i : Nat) : Fld := ⟨0x40040120 + 0x40 * i, 31, 16⟩
def CORE_MARGIN_LAST (i : Nat) : Fld := ⟨0x40040120 + 0x40 * i, 15, 0⟩
def CORE_LADDR_SEL (i : Nat) : Fld := ⟨0x40040124 + 0x40 * i, 31, 31⟩
def CORE_LADDR_WORD (i : Nat) : Fld := ⟨0x40040124 + 0x40 * i, 16, 2⟩
def CORE_LDATA_DATA (i : Nat) : Fld := ⟨0x40040128 + 0x40 * i, 31, 0⟩
def CORE_MEMERR_CE (i : Nat) : Fld := ⟨0x4004012c + 0x40 * i, 31, 16⟩
def CORE_MEMERR_IUE (i : Nat) : Fld := ⟨0x4004012c + 0x40 * i, 1, 1⟩
def CORE_MEMERR_DUE (i : Nat) : Fld := ⟨0x4004012c + 0x40 * i, 0, 0⟩
def TAKE_CTRL_WAITMAX : Fld := ⟨0x40030000, 25, 16⟩
def TAKE_CTRL_TMO : Fld := ⟨0x40030000, 15, 0⟩
def TAKE_WSEQL_SEQ : Fld := ⟨0x40030004, 31, 0⟩
def TAKE_WSEQH_SEQ : Fld := ⟨0x40030008, 15, 0⟩
def TAKE_VADDR_ADDR : Fld := ⟨0x4003000c, 31, 2⟩
def TAKE_VERL_VER : Fld := ⟨0x40030010, 31, 0⟩
def TAKE_VERH_NOTV : Fld := ⟨0x40030014, 31, 31⟩
def TAKE_VERH_VER : Fld := ⟨0x40030014, 15, 0⟩
def TAKE_USE_BUFFERED : Fld := ⟨0x40030018, 27, 16⟩
def TAKE_USE_OPEN : Fld := ⟨0x40030018, 3, 0⟩
def TAKE_CUTCNT_CONFLICT : Fld := ⟨0x4003001c, 29, 24⟩
def TAKE_CUTCNT_FULL : Fld := ⟨0x4003001c, 23, 18⟩
def TAKE_CUTCNT_TIMEOUT : Fld := ⟨0x4003001c, 17, 12⟩
def TAKE_CUTCNT_ABANDONED : Fld := ⟨0x4003001c, 11, 6⟩
def TAKE_CUTCNT_REFUSED : Fld := ⟨0x4003001c, 5, 0⟩
def TAKE_STAT_OWNER (i : Nat) : Fld := ⟨0x40030040 + 0x10 * i, 31, 24⟩
def TAKE_STAT_WRITES (i : Nat) : Fld := ⟨0x40030040 + 0x10 * i, 23, 14⟩
def TAKE_STAT_BND (i : Nat) : Fld := ⟨0x40030040 + 0x10 * i, 13, 11⟩
def TAKE_STAT_REASON (i : Nat) : Fld := ⟨0x40030040 + 0x10 * i, 6, 4⟩
def TAKE_STAT_WFAIL (i : Nat) : Fld := ⟨0x40030040 + 0x10 * i, 3, 3⟩
def TAKE_STAT_STATE (i : Nat) : Fld := ⟨0x40030040 + 0x10 * i, 2, 0⟩
def TAKE_BNDL_TIME (i : Nat) : Fld := ⟨0x40030044 + 0x10 * i, 31, 0⟩
def TAKE_BNDH_TIME (i : Nat) : Fld := ⟨0x40030048 + 0x10 * i, 15, 0⟩
def PLAN_CTRL_DELAY : Fld := ⟨0x40050000, 17, 16⟩
def PLAN_CTRL_HOLDN : Fld := ⟨0x40050000, 11, 8⟩
def PLAN_CTRL_AUTOSUB : Fld := ⟨0x40050000, 1, 1⟩
def PLAN_CTRL_DABSTAG : Fld := ⟨0x40050000, 0, 0⟩
def PLAN_HORIZON_HZ : Fld := ⟨0x40050004, 12, 0⟩
def PLAN_HZEFF_W : Fld := ⟨0x40050008, 29, 16⟩
def PLAN_HZEFF_HZ : Fld := ⟨0x40050008, 13, 0⟩
def PLAN_CASC_MMAX : Fld := ⟨0x4005000c, 31, 16⟩
def PLAN_CASC_DIV : Fld := ⟨0x4005000c, 3, 0⟩
def PLAN_DAB_VBUS : Fld := ⟨0x40050010, 20, 16⟩
def PLAN_DAB_HPER : Fld := ⟨0x40050010, 13, 0⟩
def PLAN_PAR_IDX : Fld := ⟨0x40050014, 3, 2⟩
def PLAN_PAR_CNT : Fld := ⟨0x40050014, 1, 0⟩
def PLAN_QSEL_CDAB : Fld := ⟨0x40050018, 5, 5⟩
def PLAN_QSEL_CCASC : Fld := ⟨0x40050018, 4, 4⟩
def PLAN_QSEL_BDAB : Fld := ⟨0x40050018, 3, 3⟩
def PLAN_QSEL_BCASC : Fld := ⟨0x40050018, 2, 2⟩
def PLAN_QSEL_ADAB : Fld := ⟨0x40050018, 1, 1⟩
def PLAN_QSEL_ACASC : Fld := ⟨0x40050018, 0, 0⟩
def PLAN_VBSCALE_SCALE : Fld := ⟨0x4005001c, 31, 0⟩
def PLAN_SCALE_SCALE (i : Nat) : Fld := ⟨0x40050020 + 0x4 * i, 31, 0⟩
def PLAN_ACTL_MASK (i : Nat) : Fld := ⟨0x40050040 + 0x20 * i, 31, 0⟩
def PLAN_ACTH_MASK (i : Nat) : Fld := ⟨0x40050044 + 0x20 * i, 7, 0⟩
def PLAN_EFFL_MASK (i : Nat) : Fld := ⟨0x40050048 + 0x20 * i, 31, 0⟩
def PLAN_EFFH_MASK (i : Nat) : Fld := ⟨0x4005004c + 0x20 * i, 7, 0⟩
def PLAN_FAILL_MASK (i : Nat) : Fld := ⟨0x40050050 + 0x20 * i, 31, 0⟩
def PLAN_FAILH_MASK (i : Nat) : Fld := ⟨0x40050054 + 0x20 * i, 7, 0⟩
def PLAN_BYP_POS (i : Nat) : Fld := ⟨0x40050058 + 0x20 * i, 5, 0⟩
def PLAN_WLAT_LAT (i : Nat) : Fld := ⟨0x4005005c + 0x20 * i, 13, 0⟩
def PLAN_STAT_HZSHORT : Fld := ⟨0x400500a0, 9, 9⟩
def PLAN_STAT_BADQTY : Fld := ⟨0x400500a0, 8, 8⟩
def PLAN_STAT_AMLATE : Fld := ⟨0x400500a0, 7, 7⟩
def PLAN_STAT_SUBST : Fld := ⟨0x400500a0, 6, 6⟩
def PLAN_STAT_DCLAMP : Fld := ⟨0x400500a0, 5, 5⟩
def PLAN_STAT_MCLAMP : Fld := ⟨0x400500a0, 4, 4⟩
def PLAN_STAT_RUNT : Fld := ⟨0x400500a0, 3, 3⟩
def PLAN_STAT_STALE : Fld := ⟨0x400500a0, 2, 2⟩
def PLAN_STAT_CRC : Fld := ⟨0x400500a0, 1, 1⟩
def PLAN_STAT_MISS : Fld := ⟨0x400500a0, 0, 0⟩
def PLAN_MISSCNT_BRG : Fld := ⟨0x400500a4, 31, 24⟩
def PLAN_MISSCNT_C : Fld := ⟨0x400500a4, 23, 16⟩
def PLAN_MISSCNT_B : Fld := ⟨0x400500a4, 15, 8⟩
def PLAN_MISSCNT_A : Fld := ⟨0x400500a4, 7, 0⟩
def PLAN_EMITCNT_LATE : Fld := ⟨0x400500a8, 31, 16⟩
def PLAN_EMITCNT_UNUSED : Fld := ⟨0x400500a8, 15, 0⟩
def PLAN_AMDCNT_SENT : Fld := ⟨0x400500ac, 31, 16⟩
def PLAN_AMDCNT_WITHHELD : Fld := ⟨0x400500ac, 15, 0⟩
def CLK_CTRL_EXTEN : Fld := ⟨0x40010000, 8, 8⟩
def CLK_CTRL_AUTOSW : Fld := ⟨0x40010000, 4, 4⟩
def CLK_CTRL_REFSEL : Fld := ⟨0x40010000, 0, 0⟩
def CLK_STAT_EXTLOST : Fld := ⟨0x40010004, 15, 15⟩
def CLK_STAT_SWITCHED : Fld := ⟨0x40010004, 14, 14⟩
def CLK_STAT_SPAREFAIL : Fld := ⟨0x40010004, 13, 13⟩
def CLK_STAT_MAINFAIL : Fld := ⟨0x40010004, 12, 12⟩
def CLK_STAT_EXTLOCK : Fld := ⟨0x40010004, 4, 4⟩
def CLK_STAT_EXTPRES : Fld := ⟨0x40010004, 3, 3⟩
def CLK_STAT_SPARELOCK : Fld := ⟨0x40010004, 2, 2⟩
def CLK_STAT_ACTIVE : Fld := ⟨0x40010004, 0, 0⟩
def CLK_STEER_PPB : Fld := ⟨0x40010008, 14, 0⟩
def CLK_DLLSTAT_LOCK : Fld := ⟨0x4001000c, 15, 8⟩
def CLK_DLLSTAT_LOL : Fld := ⟨0x4001000c, 7, 0⟩
def CLK_DLLCMD_RELOCK : Fld := ⟨0x40010010, 7, 0⟩
def CLK_DLLPOS_ERR (i : Nat) : Fld := ⟨0x40010020 + 0x4 * i, 31, 16⟩
def CLK_DLLPOS_BAND (i : Nat) : Fld := ⟨0x40010020 + 0x4 * i, 10, 8⟩
def CLK_DLLPOS_FINE (i : Nat) : Fld := ⟨0x40010020 + 0x4 * i, 6, 0⟩
def RING_STAT_TRAINFAIL : Fld := ⟨0x40060000, 23, 18⟩
def RING_STAT_RXCLK_LOST : Fld := ⟨0x40060000, 17, 12⟩
def RING_STAT_BLKLOCK_LOST : Fld := ⟨0x40060000, 11, 6⟩
def RING_STAT_TRK_FREEZE : Fld := ⟨0x40060000, 5, 0⟩
def RING_LCTRL_RETRAIN (p : Nat) : Fld := ⟨laneAddr 0x0 p, 8, 8⟩
def RING_LCTRL_EN (p : Nat) : Fld := ⟨laneAddr 0x0 p, 0, 0⟩
def RING_TAPS_AMP (p : Nat) : Fld := ⟨laneAddr 0x4 p, 18, 16⟩
def RING_TAPS_PRE (p : Nat) : Fld := ⟨laneAddr 0x4 p, 10, 8⟩
def RING_TAPS_POST (p : Nat) : Fld := ⟨laneAddr 0x4 p, 3, 0⟩
def RING_PSTAT_EYE1 (p : Nat) : Fld := ⟨laneAddr 0x8 p, 31, 24⟩
def RING_PSTAT_EYE0 (p : Nat) : Fld := ⟨laneAddr 0x8 p, 23, 16⟩
def RING_PSTAT_FAIL (p : Nat) : Fld := ⟨laneAddr 0x8 p, 11, 8⟩
def RING_PSTAT_STATE (p : Nat) : Fld := ⟨laneAddr 0x8 p, 2, 0⟩
def RING_TRK_FRZ1 (p : Nat) : Fld := ⟨laneAddr 0xc p, 23, 23⟩
def RING_TRK_POS1 (p : Nat) : Fld := ⟨laneAddr 0xc p, 21, 16⟩
def RING_TRK_FRZ0 (p : Nat) : Fld := ⟨laneAddr 0xc p, 7, 7⟩
def RING_TRK_POS0 (p : Nat) : Fld := ⟨laneAddr 0xc p, 5, 0⟩
def RING_ERRCNT_HDR1 (p : Nat) : Fld := ⟨laneAddr 0x10 p, 31, 16⟩
def RING_ERRCNT_HDR0 (p : Nat) : Fld := ⟨laneAddr 0x10 p, 15, 0⟩
def RING_MODINFO_ID (p : Nat) : Fld := ⟨laneAddr 0x14 p, 15, 8⟩
def RING_MODINFO_CDRCTL (p : Nat) : Fld := ⟨laneAddr 0x14 p, 3, 3⟩
def RING_MODINFO_PCLASS (p : Nat) : Fld := ⟨laneAddr 0x14 p, 2, 0⟩
def RING_MGMT_GO (p : Nat) : Fld := ⟨laneAddr 0x18 p, 31, 31⟩
def RING_MGMT_WRITE (p : Nat) : Fld := ⟨laneAddr 0x18 p, 30, 30⟩
def RING_MGMT_BUSY (p : Nat) : Fld := ⟨laneAddr 0x18 p, 29, 29⟩
def RING_MGMT_REFUSED (p : Nat) : Fld := ⟨laneAddr 0x18 p, 28, 28⟩
def RING_MGMT_DATA (p : Nat) : Fld := ⟨laneAddr 0x18 p, 23, 16⟩
def RING_MGMT_PAGE (p : Nat) : Fld := ⟨laneAddr 0x18 p, 15, 8⟩
def RING_MGMT_BYTE (p : Nat) : Fld := ⟨laneAddr 0x18 p, 7, 0⟩
def RING_CFG_CLAPINT : Fld := ⟨0x40060004, 31, 16⟩
def RING_CFG_TLMWAIT : Fld := ⟨0x40060004, 12, 0⟩
def RING_TLMBASE_ADDR : Fld := ⟨0x40060008, 31, 13⟩
def RING_EVTCFG_MINC : Fld := ⟨0x4006000c, 5, 4⟩
def RING_EVTCFG_MINB : Fld := ⟨0x4006000c, 3, 2⟩
def RING_EVTCFG_MINA : Fld := ⟨0x4006000c, 1, 0⟩
def RING_EVTQ0_RING : Fld := ⟨0x40060010, 31, 30⟩
def RING_EVTQ0_POS : Fld := ⟨0x40060010, 29, 24⟩
def RING_EVTQ0_CODE : Fld := ⟨0x40060010, 23, 16⟩
def RING_EVTQ0_SEQ : Fld := ⟨0x40060010, 15, 0⟩
def RING_EVTQ1_TIME : Fld := ⟨0x40060014, 31, 0⟩
def RING_EVTQ2_TIME : Fld := ⟨0x40060018, 15, 0⟩
def RING_EVTQ3_DATA : Fld := ⟨0x4006001c, 31, 0⟩
def RING_EVTLVL_LEVEL : Fld := ⟨0x40060020, 10, 0⟩
def RING_EVTDROP_C : Fld := ⟨0x40060024, 29, 20⟩
def RING_EVTDROP_B : Fld := ⟨0x40060024, 19, 10⟩
def RING_EVTDROP_A : Fld := ⟨0x40060024, 9, 0⟩
def RING_CACMD_GO : Fld := ⟨0x40060030, 31, 31⟩
def RING_CACMD_WRITE : Fld := ⟨0x40060030, 30, 30⟩
def RING_CACMD_RING : Fld := ⟨0x40060030, 29, 28⟩
def RING_CACMD_POS : Fld := ⟨0x40060030, 21, 16⟩
def RING_CACMD_ADDR : Fld := ⟨0x40060030, 15, 0⟩
def RING_CADATA_DATA : Fld := ⟨0x40060034, 31, 0⟩
def RING_CASTAT_BUSY : Fld := ⟨0x40060038, 31, 31⟩
def RING_CASTAT_TIMEOUT : Fld := ⟨0x40060038, 30, 30⟩
def RING_CASTAT_STATUS : Fld := ⟨0x40060038, 1, 0⟩
def RING_CSEL_RING : Fld := ⟨0x40060040, 7, 6⟩
def RING_CSEL_POS : Fld := ⟨0x40060040, 5, 0⟩
def RING_CTIME_CORR : Fld := ⟨0x40060044, 31, 0⟩
def RING_CDIST_DIST : Fld := ⟨0x40060048, 18, 0⟩
def RING_RSTAT_BREAK (i : Nat) : Fld := ⟨0x40060100 + 0x40 * i, 31, 31⟩
def RING_RSTAT_ENUMERR (i : Nat) : Fld := ⟨0x40060100 + 0x40 * i, 30, 30⟩
def RING_RSTAT_N (i : Nat) : Fld := ⟨0x40060100 + 0x40 * i, 21, 16⟩
def RING_RSTAT_NADM (i : Nat) : Fld := ⟨0x40060100 + 0x40 * i, 13, 8⟩
def RING_RSTAT_CLAPNUM (i : Nat) : Fld := ⟨0x40060100 + 0x40 * i, 7, 0⟩
def RING_LTOT_L (i : Nat) : Fld := ⟨0x40060104 + 0x40 * i, 18, 0⟩
def RING_LASYM_DIFF (i : Nat) : Fld := ⟨0x40060108 + 0x40 * i, 15, 0⟩
def RING_ADML_MASK (i : Nat) : Fld := ⟨0x4006010c + 0x40 * i, 31, 0⟩
def RING_ADMH_MASK (i : Nat) : Fld := ⟨0x40060110 + 0x40 * i, 7, 0⟩
def RING_RCMD_ENUM (i : Nat) : Fld := ⟨0x40060114 + 0x40 * i, 0, 0⟩
def RING_SUM0_S3 (i : Nat) : Fld := ⟨0x40060118 + 0x40 * i, 31, 24⟩
def RING_SUM0_S2 (i : Nat) : Fld := ⟨0x40060118 + 0x40 * i, 23, 16⟩
def RING_SUM0_S1 (i : Nat) : Fld := ⟨0x40060118 + 0x40 * i, 15, 8⟩
def RING_SUM0_S0 (i : Nat) : Fld := ⟨0x40060118 + 0x40 * i, 7, 0⟩
def RING_SUM1_S3 (i : Nat) : Fld := ⟨0x4006011c + 0x40 * i, 31, 24⟩
def RING_SUM1_S2 (i : Nat) : Fld := ⟨0x4006011c + 0x40 * i, 23, 16⟩
def RING_SUM1_S1 (i : Nat) : Fld := ⟨0x4006011c + 0x40 * i, 15, 8⟩
def RING_SUM1_S0 (i : Nat) : Fld := ⟨0x4006011c + 0x40 * i, 7, 0⟩
def RING_SUM2_S3 (i : Nat) : Fld := ⟨0x40060120 + 0x40 * i, 31, 24⟩
def RING_SUM2_S2 (i : Nat) : Fld := ⟨0x40060120 + 0x40 * i, 23, 16⟩
def RING_SUM2_S1 (i : Nat) : Fld := ⟨0x40060120 + 0x40 * i, 15, 8⟩
def RING_SUM2_S0 (i : Nat) : Fld := ⟨0x40060120 + 0x40 * i, 7, 0⟩
def RING_SUM3_S3 (i : Nat) : Fld := ⟨0x40060124 + 0x40 * i, 31, 24⟩
def RING_SUM3_S2 (i : Nat) : Fld := ⟨0x40060124 + 0x40 * i, 23, 16⟩
def RING_SUM3_S1 (i : Nat) : Fld := ⟨0x40060124 + 0x40 * i, 15, 8⟩
def RING_SUM3_S0 (i : Nat) : Fld := ⟨0x40060124 + 0x40 * i, 7, 0⟩
def RING_SUM4_S3 (i : Nat) : Fld := ⟨0x40060128 + 0x40 * i, 31, 24⟩
def RING_SUM4_S2 (i : Nat) : Fld := ⟨0x40060128 + 0x40 * i, 23, 16⟩
def RING_SUM4_S1 (i : Nat) : Fld := ⟨0x40060128 + 0x40 * i, 15, 8⟩
def RING_SUM4_S0 (i : Nat) : Fld := ⟨0x40060128 + 0x40 * i, 7, 0⟩
def RING_SUM5_S3 (i : Nat) : Fld := ⟨0x4006012c + 0x40 * i, 31, 24⟩
def RING_SUM5_S2 (i : Nat) : Fld := ⟨0x4006012c + 0x40 * i, 23, 16⟩
def RING_SUM5_S1 (i : Nat) : Fld := ⟨0x4006012c + 0x40 * i, 15, 8⟩
def RING_SUM5_S0 (i : Nat) : Fld := ⟨0x4006012c + 0x40 * i, 7, 0⟩
def RING_SUM6_S3 (i : Nat) : Fld := ⟨0x40060130 + 0x40 * i, 31, 24⟩
def RING_SUM6_S2 (i : Nat) : Fld := ⟨0x40060130 + 0x40 * i, 23, 16⟩
def RING_SUM6_S1 (i : Nat) : Fld := ⟨0x40060130 + 0x40 * i, 15, 8⟩
def RING_SUM6_S0 (i : Nat) : Fld := ⟨0x40060130 + 0x40 * i, 7, 0⟩
def RING_SUM7_S3 (i : Nat) : Fld := ⟨0x40060134 + 0x40 * i, 31, 24⟩
def RING_SUM7_S2 (i : Nat) : Fld := ⟨0x40060134 + 0x40 * i, 23, 16⟩
def RING_SUM7_S1 (i : Nat) : Fld := ⟨0x40060134 + 0x40 * i, 15, 8⟩
def RING_SUM7_S0 (i : Nat) : Fld := ⟨0x40060134 + 0x40 * i, 7, 0⟩
def RING_SUM8_S3 (i : Nat) : Fld := ⟨0x40060138 + 0x40 * i, 31, 24⟩
def RING_SUM8_S2 (i : Nat) : Fld := ⟨0x40060138 + 0x40 * i, 23, 16⟩
def RING_SUM8_S1 (i : Nat) : Fld := ⟨0x40060138 + 0x40 * i, 15, 8⟩
def RING_SUM8_S0 (i : Nat) : Fld := ⟨0x40060138 + 0x40 * i, 7, 0⟩
def RING_SUM9_S3 (i : Nat) : Fld := ⟨0x4006013c + 0x40 * i, 31, 24⟩
def RING_SUM9_S2 (i : Nat) : Fld := ⟨0x4006013c + 0x40 * i, 23, 16⟩
def RING_SUM9_S1 (i : Nat) : Fld := ⟨0x4006013c + 0x40 * i, 15, 8⟩
def RING_SUM9_S0 (i : Nat) : Fld := ⟨0x4006013c + 0x40 * i, 7, 0⟩
def TIME_STAT_PEER_LOST : Fld := ⟨0x40020000, 25, 25⟩
def TIME_STAT_STEPPED : Fld := ⟨0x40020000, 24, 24⟩
def TIME_STAT_CMPLATE : Fld := ⟨0x40020000, 23, 16⟩
def TIME_STAT_CMPHIT : Fld := ⟨0x40020000, 15, 8⟩
def TIME_STAT_TXTS_OVF : Fld := ⟨0x40020000, 1, 0⟩
def TIME_RTIMEL_TIME : Fld := ⟨0x40020004, 31, 0⟩
def TIME_RTIMEH_TIME : Fld := ⟨0x40020008, 15, 0⟩
def TIME_LTIMEL_TIME : Fld := ⟨0x4002000c, 31, 0⟩
def TIME_LTIMEH_TIME : Fld := ⟨0x40020010, 31, 0⟩
def TIME_GCFG_STEPMODE : Fld := ⟨0x40020014, 24, 24⟩
def TIME_GCFG_HOLDMAX : Fld := ⟨0x40020014, 23, 16⟩
def TIME_GCFG_STEPINH : Fld := ⟨0x40020014, 8, 8⟩
def TIME_GCFG_SLEW : Fld := ⟨0x40020014, 5, 0⟩
def TIME_PTPCFG_DOMAIN : Fld := ⟨0x40020018, 31, 24⟩
def TIME_PTPCFG_PRIO1 : Fld := ⟨0x40020018, 23, 16⟩
def TIME_PTPCFG_PRIO2 : Fld := ⟨0x40020018, 15, 8⟩
def TIME_PTPCFG_TWOSTEP : Fld := ⟨0x40020018, 5, 5⟩
def TIME_PTPCFG_UDP : Fld := ⟨0x40020018, 4, 4⟩
def TIME_PTPCFG_PROFILE : Fld := ⟨0x40020018, 3, 2⟩
def TIME_PTPCFG_ROLE : Fld := ⟨0x40020018, 1, 0⟩
def TIME_ASYM_B : Fld := ⟨0x4002001c, 31, 16⟩
def TIME_ASYM_A : Fld := ⟨0x4002001c, 15, 0⟩
def TIME_MAPRL_RA : Fld := ⟨0x40020020, 31, 0⟩
def TIME_MAPRH_RA : Fld := ⟨0x40020024, 15, 0⟩
def TIME_MAPGSL_SEC : Fld := ⟨0x40020028, 31, 0⟩
def TIME_MAPGSH_SEC : Fld := ⟨0x4002002c, 15, 0⟩
def TIME_MAPGNS_NS : Fld := ⟨0x40020030, 31, 0⟩
def TIME_MAPK_K : Fld := ⟨0x40020034, 31, 0⟩
def TIME_OFFSET_THETA : Fld := ⟨0x40020038, 31, 0⟩
def TIME_STEPCNT_COUNT : Fld := ⟨0x4002003c, 15, 0⟩
def TIME_TXTS_OVFB : Fld := ⟨0x40020040, 31, 24⟩
def TIME_TXTS_OVFA : Fld := ⟨0x40020040, 23, 16⟩
def TIME_TXTS_LVLB : Fld := ⟨0x40020040, 12, 8⟩
def TIME_TXTS_LVLA : Fld := ⟨0x40020040, 4, 0⟩
def TIME_PEER_STATE : Fld := ⟨0x40020044, 9, 8⟩
def TIME_PEER_POS : Fld := ⟨0x40020044, 5, 4⟩
def TIME_PEER_ROLE : Fld := ⟨0x40020044, 1, 0⟩
def TIME_PEEROFF_LOOP : Fld := ⟨0x40020048, 31, 16⟩
def TIME_PEEROFF_OFF : Fld := ⟨0x40020048, 15, 0⟩
def TIME_CMPL_TIME (i : Nat) : Fld := ⟨0x40020080 + 0x10 * i, 31, 0⟩
def TIME_CMPH_TIME (i : Nat) : Fld := ⟨0x40020084 + 0x10 * i, 15, 0⟩
def TIME_CMPCTL_DISARM (i : Nat) : Fld := ⟨0x40020088 + 0x10 * i, 31, 31⟩
def TIME_CMPCTL_ARMED (i : Nat) : Fld := ⟨0x40020088 + 0x10 * i, 30, 30⟩
def TIME_CMPCTL_TGT (i : Nat) : Fld := ⟨0x40020088 + 0x10 * i, 25, 24⟩
def TIME_CMPCTL_PER (i : Nat) : Fld := ⟨0x40020088 + 0x10 * i, 23, 0⟩
def BRG_CTRL_LEGEN : Fld := ⟨0x40070000, 11, 8⟩
def BRG_CTRL_SRC : Fld := ⟨0x40070000, 0, 0⟩
def BRG_PER_PER : Fld := ⟨0x40070004, 21, 0⟩
def BRG_DUTY_DUTY (i : Nat) : Fld := ⟨0x40070008 + 0x4 * i, 26, 0⟩
def BRG_DEAD_DEAD (i : Nat) : Fld := ⟨0x40070018 + 0x4 * i, 9, 0⟩
def BRG_MINP_MINP : Fld := ⟨0x40070028, 8, 0⟩
def BRG_REFCTL_REFEN : Fld := ⟨0x4007002c, 31, 31⟩
def BRG_REFCTL_REFN : Fld := ⟨0x4007002c, 23, 16⟩
def BRG_REFCTL_NCHG : Fld := ⟨0x4007002c, 15, 12⟩
def BRG_REFCTL_REFW : Fld := ⟨0x4007002c, 9, 0⟩
def BRG_TRIPCFG_POL0 : Fld := ⟨0x40070030, 7, 7⟩
def BRG_TRIPCFG_POL1 : Fld := ⟨0x40070030, 15, 15⟩
def BRG_TRIPCFG_POL2 : Fld := ⟨0x40070030, 23, 23⟩
def BRG_TRIPCFG_POL3 : Fld := ⟨0x40070030, 31, 31⟩
def BRG_TRIPCFG_MODE0 : Fld := ⟨0x40070030, 6, 6⟩
def BRG_TRIPCFG_MODE1 : Fld := ⟨0x40070030, 14, 14⟩
def BRG_TRIPCFG_MODE2 : Fld := ⟨0x40070030, 22, 22⟩
def BRG_TRIPCFG_MODE3 : Fld := ⟨0x40070030, 30, 30⟩
def BRG_TRIPCFG_FILT0 : Fld := ⟨0x40070030, 5, 0⟩
def BRG_TRIPCFG_FILT1 : Fld := ⟨0x40070030, 13, 8⟩
def BRG_TRIPCFG_FILT2 : Fld := ⟨0x40070030, 21, 16⟩
def BRG_TRIPCFG_FILT3 : Fld := ⟨0x40070030, 29, 24⟩
def BRG_TRIPMASK_MASK : Fld := ⟨0x40070034, 15, 0⟩
def BRG_FORCE_MODEN : Fld := ⟨0x40070038, 7, 6⟩
def BRG_FORCE_MODEW : Fld := ⟨0x40070038, 5, 4⟩
def BRG_FORCE_MODEV : Fld := ⟨0x40070038, 3, 2⟩
def BRG_FORCE_MODEU : Fld := ⟨0x40070038, 1, 0⟩
def BRG_STAT_CLRREF : Fld := ⟨0x4007003c, 17, 17⟩
def BRG_STAT_NOENT : Fld := ⟨0x4007003c, 16, 16⟩
def BRG_STAT_REFRESH : Fld := ⟨0x4007003c, 15, 12⟩
def BRG_STAT_RUNT : Fld := ⟨0x4007003c, 11, 8⟩
def BRG_STAT_CLAMP : Fld := ⟨0x4007003c, 3, 0⟩
def BRG_TSTAT_CUT : Fld := ⟨0x40070040, 15, 12⟩
def BRG_TSTAT_ACTIVE : Fld := ⟨0x40070040, 11, 8⟩
def BRG_TSTAT_LATCHED : Fld := ⟨0x40070040, 7, 4⟩
def BRG_TSTAT_HIT : Fld := ⟨0x40070040, 3, 0⟩
def BRG_LEGSTAT_STATEN : Fld := ⟨0x40070044, 14, 12⟩
def BRG_LEGSTAT_STATEW : Fld := ⟨0x40070044, 10, 8⟩
def BRG_LEGSTAT_STATEV : Fld := ⟨0x40070044, 6, 4⟩
def BRG_LEGSTAT_STATEU : Fld := ⟨0x40070044, 2, 0⟩
def BRG_CNT_NOENT : Fld := ⟨0x40070048, 31, 16⟩
def BRG_CNT_TRIPCUT : Fld := ⟨0x40070048, 15, 0⟩
def BRG_PSTARTL_TIME : Fld := ⟨0x4007004c, 31, 0⟩
def BRG_PSTARTH_TIME : Fld := ⟨0x40070050, 15, 0⟩
def GATE_SUP_VPOS (i : Nat) : Fld := ⟨0x40080000 + 0x4 * i, 12, 8⟩
def GATE_SUP_VNEG (i : Nat) : Fld := ⟨0x40080000 + 0x4 * i, 4, 0⟩
def GATE_DRV_SRCH (i : Nat) : Fld := ⟨0x40080010 + 0x4 * i, 15, 12⟩
def GATE_DRV_SNKH (i : Nat) : Fld := ⟨0x40080010 + 0x4 * i, 11, 8⟩
def GATE_DRV_SRCL (i : Nat) : Fld := ⟨0x40080010 + 0x4 * i, 7, 4⟩
def GATE_DRV_SNKL (i : Nat) : Fld := ⟨0x40080010 + 0x4 * i, 3, 0⟩
def GATE_PROT_BLANK (i : Nat) : Fld := ⟨0x40080020 + 0x4 * i, 29, 24⟩
def GATE_PROT_DSTH (i : Nat) : Fld := ⟨0x40080020 + 0x4 * i, 19, 16⟩
def GATE_PROT_OCTH (i : Nat) : Fld := ⟨0x40080020 + 0x4 * i, 8, 0⟩
def GATE_STAT_FAULT (i : Nat) : Fld := ⟨0x40080030 + 0x4 * i, 7, 7⟩
def GATE_STAT_DESAT_H (i : Nat) : Fld := ⟨0x40080030 + 0x4 * i, 6, 6⟩
def GATE_STAT_DESAT_L (i : Nat) : Fld := ⟨0x40080030 + 0x4 * i, 5, 5⟩
def GATE_STAT_OC (i : Nat) : Fld := ⟨0x40080030 + 0x4 * i, 4, 4⟩
def GATE_STAT_UVLO_HS (i : Nat) : Fld := ⟨0x40080030 + 0x4 * i, 3, 3⟩
def GATE_STAT_UVLO_LS (i : Nat) : Fld := ⟨0x40080030 + 0x4 * i, 2, 2⟩
def GATE_STAT_UVLO_NEG (i : Nat) : Fld := ⟨0x40080030 + 0x4 * i, 1, 1⟩
def GATE_STAT_CLRREF (i : Nat) : Fld := ⟨0x40080030 + 0x4 * i, 0, 0⟩
def GATE_MON_OCACT : Fld := ⟨0x40080040, 27, 24⟩
def GATE_MON_NEGOK : Fld := ⟨0x40080040, 23, 16⟩
def GATE_MON_POSOK : Fld := ⟨0x40080040, 15, 8⟩
def GATE_TEMP_TEMP (i : Nat) : Fld := ⟨0x40080050 + 0x4 * i, 15, 0⟩
def GATE_FLTCNT_DESAT : Fld := ⟨0x40080060, 31, 24⟩
def GATE_FLTCNT_OC : Fld := ⟨0x40080060, 23, 16⟩
def GATE_FLTCNT_UVLO : Fld := ⟨0x40080060, 15, 8⟩
def ADC_REF_CALBUSY : Fld := ⟨0x40090000, 31, 24⟩
def ADC_REF_SETTLED : Fld := ⟨0x40090000, 23, 16⟩
def ADC_REF_SEL : Fld := ⟨0x40090000, 15, 0⟩
def ADC_STAT_OVR : Fld := ⟨0x40090004, 31, 24⟩
def ADC_STAT_REFLOST : Fld := ⟨0x40090004, 19, 19⟩
def ADC_STAT_CALABT : Fld := ⟨0x40090004, 18, 18⟩
def ADC_STAT_CALREF : Fld := ⟨0x40090004, 17, 17⟩
def ADC_STAT_NOGRP : Fld := ⟨0x40090004, 16, 16⟩
def ADC_STAT_DMAHALT : Fld := ⟨0x40090004, 15, 8⟩
def ADC_STAT_GCLIP : Fld := ⟨0x40090004, 7, 0⟩
def ADC_CALCMD_GO : Fld := ⟨0x40090008, 7, 0⟩
def ADC_ZXCFG_EN : Fld := ⟨0x4009000c, 31, 31⟩
def ADC_ZXCFG_CH : Fld := ⟨0x4009000c, 20, 16⟩
def ADC_ZXCFG_HYS : Fld := ⟨0x4009000c, 15, 0⟩
def ADC_ZXTL_TIME : Fld := ⟨0x40090010, 31, 0⟩
def ADC_ZXTH_TIME : Fld := ⟨0x40090014, 15, 0⟩
def ADC_CAL_GAIN (i : Nat) : Fld := ⟨0x40090020 + 0x4 * i, 31, 16⟩
def ADC_CAL_OFFS (i : Nat) : Fld := ⟨0x40090020 + 0x4 * i, 15, 0⟩
def ADC_GMASK_MASK (i : Nat) : Fld := ⟨0x40090040 + 0x10 * i, 31, 0⟩
def ADC_GTIME_SPACE (i : Nat) : Fld := ⟨0x40090044 + 0x10 * i, 29, 24⟩
def ADC_GTIME_NSMP (i : Nat) : Fld := ⟨0x40090044 + 0x10 * i, 19, 16⟩
def ADC_GTIME_OFFS (i : Nat) : Fld := ⟨0x40090044 + 0x10 * i, 9, 0⟩
def ADC_GBUF_BASE (i : Nat) : Fld := ⟨0x40090048 + 0x10 * i, 31, 10⟩
def ADC_GBUF_KLOG (i : Nat) : Fld := ⟨0x40090048 + 0x10 * i, 2, 0⟩
def CAPT_CTRL_KIND (i : Nat) : Fld := ⟨0x400a0000 + 0x40 * i, 31, 31⟩
def CAPT_CTRL_RING (i : Nat) : Fld := ⟨0x400a0000 + 0x40 * i, 29, 28⟩
def CAPT_CTRL_POS (i : Nat) : Fld := ⟨0x400a0000 + 0x40 * i, 27, 22⟩
def CAPT_CTRL_DEC (i : Nat) : Fld := ⟨0x400a0000 + 0x40 * i, 19, 16⟩
def CAPT_CTRL_EDGE (i : Nat) : Fld := ⟨0x400a0000 + 0x40 * i, 9, 8⟩
def CAPT_CTRL_TCH (i : Nat) : Fld := ⟨0x400a0000 + 0x40 * i, 4, 0⟩
def CAPT_MASK_MASK (i : Nat) : Fld := ⟨0x400a0004 + 0x40 * i, 31, 0⟩
def CAPT_WIN_BASE (i : Nat) : Fld := ⟨0x400a0008 + 0x40 * i, 31, 20⟩
def CAPT_WIN_SIZE (i : Nat) : Fld := ⟨0x400a0008 + 0x40 * i, 7, 0⟩
def CAPT_POST_COUNT (i : Nat) : Fld := ⟨0x400a000c + 0x40 * i, 31, 0⟩
def CAPT_TLVL_LEVEL (i : Nat) : Fld := ⟨0x400a0010 + 0x40 * i, 15, 0⟩
def CAPT_THYS_HYS (i : Nat) : Fld := ⟨0x400a0014 + 0x40 * i, 15, 0⟩
def CAPT_CMD_CMD (i : Nat) : Fld := ⟨0x400a0018 + 0x40 * i, 1, 0⟩
def CAPT_STAT_CFGERR (i : Nat) : Fld := ⟨0x400a001c + 0x40 * i, 9, 9⟩
def CAPT_STAT_DROP (i : Nat) : Fld := ⟨0x400a001c + 0x40 * i, 8, 8⟩
def CAPT_STAT_STATE (i : Nat) : Fld := ⟨0x400a001c + 0x40 * i, 2, 0⟩
def CAPT_TTIMEL_TIME (i : Nat) : Fld := ⟨0x400a0020 + 0x40 * i, 31, 0⟩
def CAPT_TTIMEH_TIME (i : Nat) : Fld := ⟨0x400a0024 + 0x40 * i, 15, 0⟩
def CAPT_FIRST_OFFS (i : Nat) : Fld := ⟨0x400a0028 + 0x40 * i, 31, 0⟩
def CAPT_TREC_OFFS (i : Nat) : Fld := ⟨0x400a002c + 0x40 * i, 31, 0⟩
def CAPT_NPRE_COUNT (i : Nat) : Fld := ⟨0x400a0030 + 0x40 * i, 31, 0⟩
def MTR_STAT_FKEY : Fld := ⟨0x40100000, 19, 19⟩
def MTR_STAT_FLOG : Fld := ⟨0x40100000, 18, 18⟩
def MTR_STAT_FTIME : Fld := ⟨0x40100000, 17, 17⟩
def MTR_STAT_FMEAS : Fld := ⟨0x40100000, 16, 16⟩
def MTR_STAT_RANGE : Fld := ⟨0x40100000, 12, 12⟩
def MTR_STAT_VDISC : Fld := ⟨0x40100000, 11, 11⟩
def MTR_STAT_TINVALID : Fld := ⟨0x40100000, 10, 10⟩
def MTR_STAT_TUNSYNC : Fld := ⟨0x40100000, 9, 9⟩
def MTR_STAT_COVER : Fld := ⟨0x40100000, 8, 8⟩
def MTR_STAT_STATE : Fld := ⟨0x40100000, 2, 0⟩
def MTR_CMD_CODE : Fld := ⟨0x40100004, 31, 24⟩
def MTR_CMD_ARG : Fld := ⟨0x40100004, 7, 0⟩
def MTR_CMDRES_BUSY : Fld := ⟨0x40100008, 31, 31⟩
def MTR_CMDRES_CODE : Fld := ⟨0x40100008, 23, 16⟩
def MTR_CMDRES_REQ : Fld := ⟨0x40100008, 15, 8⟩
def MTR_CMDRES_RESULT : Fld := ⟨0x40100008, 7, 0⟩
def MTR_RSEQ_SEQ : Fld := ⟨0x4010000c, 31, 0⟩
def MTR_MTIME_SEC : Fld := ⟨0x40100010, 31, 0⟩
def MTR_ID_METER : Fld := ⟨0x4010001c, 31, 0⟩
def MTR_TADJ_USED : Fld := ⟨0x40100014, 31, 16⟩
def MTR_TADJ_D : Fld := ⟨0x40100014, 15, 0⟩
def MTR_PSET_NUM : Fld := ⟨0x40100018, 31, 16⟩
def MTR_PSET_SEALS : Fld := ⟨0x40100018, 15, 0⟩
def MTR_PADDR_ADDR : Fld := ⟨0x40100020, 7, 0⟩
def MTR_PDATA_VALUE : Fld := ⟨0x40100024, 31, 0⟩
def MTR_LSEL_SEQ : Fld := ⟨0x40100028, 31, 0⟩
def MTR_LSTAT_READY : Fld := ⟨0x4010002c, 31, 31⟩
def MTR_LSTAT_ABSENT : Fld := ⟨0x4010002c, 30, 30⟩
def MTR_FCHAN_FAIL : Fld := ⟨0x40100030, 15, 0⟩
def MTR_EL_E (i : Nat) : Fld := ⟨0x40100040 + 0x8 * i, 31, 0⟩
def MTR_EH_E (i : Nat) : Fld := ⟨0x40100044 + 0x8 * i, 31, 0⟩
def MTR_P_POWER (i : Nat) : Fld := ⟨0x40100100 + 0x4 * i, 31, 0⟩
def MTR_SESS_OPEN (i : Nat) : Fld := ⟨0x40100140 + 0x4 * i, 31, 31⟩
def MTR_SESS_NUM (i : Nat) : Fld := ⟨0x40100140 + 0x4 * i, 15, 0⟩
def MTR_LREC_BYTES (i : Nat) : Fld := ⟨0x40100200 + 0x4 * i, 31, 0⟩
def SAFE_STAT_LOCKOUT : Fld := ⟨0x400f0000, 31, 31⟩
def SAFE_STAT_CAUSE : Fld := ⟨0x400f0000, 23, 16⟩
def SAFE_STAT_RSTDISC : Fld := ⟨0x400f0000, 12, 12⟩
def SAFE_STAT_VOID : Fld := ⟨0x400f0000, 11, 11⟩
def SAFE_STAT_DEMAND : Fld := ⟨0x400f0000, 8, 0⟩
def SAFE_FUNC_INB0 : Fld := ⟨0x400f0004, 3, 2⟩
def SAFE_FUNC_INB1 : Fld := ⟨0x400f0004, 7, 6⟩
def SAFE_FUNC_INB2 : Fld := ⟨0x400f0004, 11, 10⟩
def SAFE_FUNC_INB3 : Fld := ⟨0x400f0004, 15, 14⟩
def SAFE_FUNC_INB4 : Fld := ⟨0x400f0004, 19, 18⟩
def SAFE_FUNC_INB5 : Fld := ⟨0x400f0004, 23, 22⟩
def SAFE_FUNC_INB6 : Fld := ⟨0x400f0004, 27, 26⟩
def SAFE_FUNC_INB7 : Fld := ⟨0x400f0004, 31, 30⟩
def SAFE_FUNC_INA0 : Fld := ⟨0x400f0004, 1, 0⟩
def SAFE_FUNC_INA1 : Fld := ⟨0x400f0004, 5, 4⟩
def SAFE_FUNC_INA2 : Fld := ⟨0x400f0004, 9, 8⟩
def SAFE_FUNC_INA3 : Fld := ⟨0x400f0004, 13, 12⟩
def SAFE_FUNC_INA4 : Fld := ⟨0x400f0004, 17, 16⟩
def SAFE_FUNC_INA5 : Fld := ⟨0x400f0004, 21, 20⟩
def SAFE_FUNC_INA6 : Fld := ⟨0x400f0004, 25, 24⟩
def SAFE_FUNC_INA7 : Fld := ⟨0x400f0004, 29, 28⟩
def SAFE_OUT_REQ0 : Fld := ⟨0x400f0008, 4, 4⟩
def SAFE_OUT_REQ1 : Fld := ⟨0x400f0008, 12, 12⟩
def SAFE_OUT_REQ2 : Fld := ⟨0x400f0008, 20, 20⟩
def SAFE_OUT_REQ3 : Fld := ⟨0x400f0008, 28, 28⟩
def SAFE_OUT_HSCMD0 : Fld := ⟨0x400f0008, 3, 3⟩
def SAFE_OUT_HSCMD1 : Fld := ⟨0x400f0008, 11, 11⟩
def SAFE_OUT_HSCMD2 : Fld := ⟨0x400f0008, 19, 19⟩
def SAFE_OUT_HSCMD3 : Fld := ⟨0x400f0008, 27, 27⟩
def SAFE_OUT_LSCMD0 : Fld := ⟨0x400f0008, 2, 2⟩
def SAFE_OUT_LSCMD1 : Fld := ⟨0x400f0008, 10, 10⟩
def SAFE_OUT_LSCMD2 : Fld := ⟨0x400f0008, 18, 18⟩
def SAFE_OUT_LSCMD3 : Fld := ⟨0x400f0008, 26, 26⟩
def SAFE_OUT_HSRB0 : Fld := ⟨0x400f0008, 1, 1⟩
def SAFE_OUT_HSRB1 : Fld := ⟨0x400f0008, 9, 9⟩
def SAFE_OUT_HSRB2 : Fld := ⟨0x400f0008, 17, 17⟩
def SAFE_OUT_HSRB3 : Fld := ⟨0x400f0008, 25, 25⟩
def SAFE_OUT_LSRB0 : Fld := ⟨0x400f0008, 0, 0⟩
def SAFE_OUT_LSRB1 : Fld := ⟨0x400f0008, 8, 8⟩
def SAFE_OUT_LSRB2 : Fld := ⟨0x400f0008, 16, 16⟩
def SAFE_OUT_LSRB3 : Fld := ⟨0x400f0008, 24, 24⟩
def SAFE_LANE_RETLOST : Fld := ⟨0x400f000c, 23, 16⟩
def SAFE_LANE_RETOK : Fld := ⟨0x400f000c, 7, 0⟩
def SAFE_TEST_VOIDCNT : Fld := ⟨0x400f0010, 31, 16⟩
def SAFE_TEST_LASTPASS : Fld := ⟨0x400f0010, 4, 4⟩
def SAFE_TEST_NEXT : Fld := ⟨0x400f0010, 3, 0⟩
def SAFE_CRCA_CRC : Fld := ⟨0x400f0014, 31, 0⟩
def SAFE_CRCB_CRC : Fld := ⟨0x400f0018, 31, 0⟩
def SAFE_PSET_SETNUM : Fld := ⟨0x400f001c, 31, 16⟩
def SAFE_PSET_STATE : Fld := ⟨0x400f001c, 1, 0⟩
def SAFE_CNT_DEMANDS : Fld := ⟨0x400f0020, 31, 16⟩
def SAFE_CNT_RESETS : Fld := ⟨0x400f0020, 15, 0⟩
def FLT_STICKY_SET (i : Nat) : Fld := ⟨0x400b0000 + 0x4 * i, 31, 0⟩
def FLT_REACT_REACT0 (i : Nat) : Fld := ⟨0x400b0040 + 0x4 * i, 3, 0⟩
def FLT_REACT_REACT1 (i : Nat) : Fld := ⟨0x400b0040 + 0x4 * i, 7, 4⟩
def FLT_REACT_REACT2 (i : Nat) : Fld := ⟨0x400b0040 + 0x4 * i, 11, 8⟩
def FLT_REACT_REACT3 (i : Nat) : Fld := ⟨0x400b0040 + 0x4 * i, 15, 12⟩
def FLT_REACT_REACT4 (i : Nat) : Fld := ⟨0x400b0040 + 0x4 * i, 19, 16⟩
def FLT_REACT_REACT5 (i : Nat) : Fld := ⟨0x400b0040 + 0x4 * i, 23, 20⟩
def FLT_REACT_REACT6 (i : Nat) : Fld := ⟨0x400b0040 + 0x4 * i, 27, 24⟩
def FLT_REACT_REACT7 (i : Nat) : Fld := ⟨0x400b0040 + 0x4 * i, 31, 28⟩
def FLT_PIN_LEVEL : Fld := ⟨0x400b0100, 2, 2⟩
def FLT_PIN_PULSE : Fld := ⟨0x400b0100, 1, 1⟩
def FLT_PIN_HOLD : Fld := ⟨0x400b0100, 0, 0⟩
def FLT_FIRST_VALID : Fld := ⟨0x400b0104, 31, 31⟩
def FLT_FIRST_SRC : Fld := ⟨0x400b0104, 8, 0⟩
def FLT_SELF_FAULT : Fld := ⟨0x400b0108, 31, 31⟩
def FLT_SELF_WORD : Fld := ⟨0x400b0108, 7, 0⟩
def FLT_SWSET_SET : Fld := ⟨0x400b010c, 7, 0⟩
def FLT_PSEL_SRC (i : Nat) : Fld := ⟨0x400b0140 + 0x4 * i, 8, 0⟩
def FLT_HISTL_TIME (i : Nat) : Fld := ⟨0x400b0180 + 0x8 * i, 31, 0⟩
def FLT_HISTH_VALID (i : Nat) : Fld := ⟨0x400b0184 + 0x8 * i, 31, 31⟩
def FLT_HISTH_EXTRAP (i : Nat) : Fld := ⟨0x400b0184 + 0x8 * i, 30, 30⟩
def FLT_HISTH_LEVEL (i : Nat) : Fld := ⟨0x400b0184 + 0x8 * i, 27, 24⟩
def FLT_HISTH_LOST (i : Nat) : Fld := ⟨0x400b0184 + 0x8 * i, 23, 20⟩
def FLT_HISTH_TIME (i : Nat) : Fld := ⟨0x400b0184 + 0x8 * i, 15, 0⟩
def MEM_CTRL_MODE : Fld := ⟨0x400c0000, 0, 0⟩
def MEM_SCRUB_MRAM : Fld := ⟨0x400c0004, 31, 24⟩
def MEM_SCRUB_DRAM : Fld := ⟨0x400c0004, 23, 8⟩
def MEM_SCRUB_SRAM : Fld := ⟨0x400c0004, 7, 0⟩
def MEM_STAT_INIT : Fld := ⟨0x400c0008, 8, 8⟩
def MEM_STAT_SLOW : Fld := ⟨0x400c0008, 6, 4⟩
def MEM_STAT_UE : Fld := ⟨0x400c0008, 2, 0⟩
def MEM_CECNT0_SRAM : Fld := ⟨0x400c000c, 31, 16⟩
def MEM_CECNT0_DRAM : Fld := ⟨0x400c000c, 15, 0⟩
def MEM_CECNT1_MRAM : Fld := ⟨0x400c0010, 15, 0⟩
def MEM_UECNT_SRAM : Fld := ⟨0x400c0014, 23, 16⟩
def MEM_UECNT_MRAM : Fld := ⟨0x400c0014, 15, 8⟩
def MEM_UECNT_DRAM : Fld := ⟨0x400c0014, 7, 0⟩
def MEM_UEADDR_ADDR : Fld := ⟨0x400c0018, 31, 0⟩
def MEM_UESRC_REQ : Fld := ⟨0x400c001c, 31, 24⟩
def MEM_UESRC_MEM : Fld := ⟨0x400c001c, 1, 0⟩
def MEM_LOG_LEVEL : Fld := ⟨0x400c0020, 10, 0⟩
def MEM_LOGCNT_COAL : Fld := ⟨0x400c0024, 31, 16⟩
def MEM_LOGCNT_DROP : Fld := ⟨0x400c0024, 15, 8⟩
def MEM_LOGCNT_TORN : Fld := ⟨0x400c0024, 7, 0⟩
def MEM_LSEQ_SEQ : Fld := ⟨0x400c0028, 31, 0⟩
def THERM_STAT_LASTSD : Fld := ⟨0x40110000, 24, 24⟩
def THERM_STAT_FAILED : Fld := ⟨0x40110000, 16, 8⟩
def THERM_STAT_HOTTEST : Fld := ⟨0x40110000, 5, 2⟩
def THERM_STAT_STATE : Fld := ⟨0x40110000, 1, 0⟩
def THERM_LIMIT_SHUT : Fld := ⟨0x40110004, 23, 16⟩
def THERM_LIMIT_THR : Fld := ⟨0x40110004, 15, 8⟩
def THERM_LIMIT_WARN : Fld := ⟨0x40110004, 7, 0⟩
def THERM_TCFG_CORELVL : Fld := ⟨0x40110008, 13, 12⟩
def THERM_TCFG_RDLVL : Fld := ⟨0x40110008, 9, 8⟩
def THERM_TCFG_STRMLVL : Fld := ⟨0x40110008, 5, 4⟩
def THERM_TCFG_HOSTMETH : Fld := ⟨0x40110008, 2, 2⟩
def THERM_TCFG_HOSTLVL : Fld := ⟨0x40110008, 1, 0⟩
def THERM_BGCORE_MASK : Fld := ⟨0x4011000c, 11, 0⟩
def THERM_SDINFO_TEMP : Fld := ⟨0x40110010, 31, 16⟩
def THERM_SDINFO_LOST : Fld := ⟨0x40110010, 15, 5⟩
def THERM_SDINFO_SENSOR : Fld := ⟨0x40110010, 3, 0⟩
def THERM_T_PEAK (i : Nat) : Fld := ⟨0x40110020 + 0x4 * i, 31, 16⟩
def THERM_T_TEMP (i : Nat) : Fld := ⟨0x40110020 + 0x4 * i, 15, 0⟩
def HOST_STAT_SESS : Fld := ⟨0x400d0000, 18, 16⟩
def HOST_STAT_LINK : Fld := ⟨0x400d0000, 10, 8⟩
def HOST_STAT_LOADER : Fld := ⟨0x400d0000, 4, 4⟩
def HOST_STAT_EVTOVF : Fld := ⟨0x400d0000, 3, 3⟩
def HOST_STAT_AUTHF : Fld := ⟨0x400d0000, 2, 0⟩
def HOST_CTRL_SESSTMO : Fld := ⟨0x400d0004, 7, 0⟩
def HOST_IP_ADDR (i : Nat) : Fld := ⟨0x400d0010 + 0x10 * i, 31, 0⟩
def HOST_MASK_MASK (i : Nat) : Fld := ⟨0x400d0014 + 0x10 * i, 31, 0⟩
def HOST_GW_ADDR (i : Nat) : Fld := ⟨0x400d0018 + 0x10 * i, 31, 0⟩
def HOST_MACL_ADDR (i : Nat) : Fld := ⟨0x400d0040 + 0x8 * i, 31, 0⟩
def HOST_MACH_ADDR (i : Nat) : Fld := ⟨0x400d0044 + 0x8 * i, 15, 0⟩
def HOST_PCNT_ACCEPT (i : Nat) : Fld := ⟨0x400d0060 + 0x4 * i, 31, 16⟩
def HOST_PCNT_AUTH (i : Nat) : Fld := ⟨0x400d0060 + 0x4 * i, 15, 8⟩
def HOST_PCNT_REPLAY (i : Nat) : Fld := ⟨0x400d0060 + 0x4 * i, 7, 0⟩
def HOST_SESSIP_ADDR (i : Nat) : Fld := ⟨0x400d0070 + 0x8 * i, 31, 0⟩
def HOST_SESSP_UDP (i : Nat) : Fld := ⟨0x400d0074 + 0x8 * i, 15, 0⟩
def HOST_SCTRL_EN : Fld := ⟨0x400d0100, 31, 31⟩
def HOST_SCTRL_RINGS : Fld := ⟨0x400d0100, 18, 16⟩
def HOST_SCTRL_GROUPS : Fld := ⟨0x400d0100, 15, 8⟩
def HOST_SSTAT_CFGERR : Fld := ⟨0x400d0104, 11, 11⟩
def HOST_SSTAT_CREDERR : Fld := ⟨0x400d0104, 10, 10⟩
def HOST_SSTAT_OVF : Fld := ⟨0x400d0104, 9, 9⟩
def HOST_SSTAT_RDSTATE : Fld := ⟨0x400d0104, 1, 0⟩
def HOST_SCRED_AVAIL : Fld := ⟨0x400d0108, 31, 0⟩
def HOST_SRD_GO : Fld := ⟨0x400d010c, 31, 31⟩
def HOST_SRD_ABORT : Fld := ⟨0x400d010c, 30, 30⟩
def HOST_SRD_UNIT : Fld := ⟨0x400d010c, 1, 0⟩
def HOST_SCNT_DROP : Fld := ⟨0x400d0110, 31, 16⟩
def HOST_P6L3_HDR3 : Fld := ⟨0x400d081c, 31, 16⟩
def HOST_P6L3_EYE3 : Fld := ⟨0x400d081c, 15, 8⟩
def HOST_P6L3_FRZ3 : Fld := ⟨0x400d081c, 7, 7⟩
def HOST_P6L3_POS3 : Fld := ⟨0x400d081c, 5, 0⟩
def UPD_STAT_STATE : Fld := ⟨0x400e0000, 31, 24⟩
def UPD_STAT_BOOTS : Fld := ⟨0x400e0000, 23, 16⟩
def UPD_STAT_VERIFIED : Fld := ⟨0x400e0000, 9, 9⟩
def UPD_STAT_LOCK : Fld := ⟨0x400e0000, 8, 8⟩
def UPD_STAT_IDLE : Fld := ⟨0x400e0000, 7, 2⟩
def UPD_STAT_OWNER : Fld := ⟨0x400e0000, 1, 0⟩
def UPD_RUNVER_VERSION : Fld := ⟨0x400e0004, 31, 0⟩
def UPD_SLATEVER_VERSION : Fld := ⟨0x400e0008, 31, 0⟩
def SUP_ID_PART : Fld := ⟨0x40000000, 31, 16⟩
def SUP_ID_ISSUE : Fld := ⟨0x40000000, 15, 8⟩
def SUP_STAT_LASTRST : Fld := ⟨0x40000004, 15, 12⟩
def SUP_STAT_STORELOW : Fld := ⟨0x40000004, 4, 4⟩
def SUP_STAT_SAFE24LOW : Fld := ⟨0x40000004, 3, 3⟩
def SUP_STAT_SAFE24 : Fld := ⟨0x40000004, 2, 2⟩
def SUP_STAT_BROWN : Fld := ⟨0x40000004, 1, 1⟩
def SUP_STAT_INOK : Fld := ⟨0x40000004, 0, 0⟩
def SUP_VIN_STORE : Fld := ⟨0x40000008, 31, 16⟩
def SUP_VIN_VPK : Fld := ⟨0x40000008, 9, 0⟩
def SUP_DOM_PWR : Fld := ⟨0x4000000c, 27, 16⟩
def SUP_DOM_LOST : Fld := ⟨0x4000000c, 11, 0⟩
def SUP_CAGE_ON : Fld := ⟨0x4000001c, 15, 8⟩
def SUP_CAGE_PRES : Fld := ⟨0x4000001c, 7, 0⟩
def SUP_START_RDYMS : Fld := ⟨0x40000020, 15, 0⟩

end F

end Sys2Proof.Machine
end

