-- ==== Sys2Proof/Machine/Sparse.lean ====
section
/-!
DEFINITION. Sparse maps from addresses to values: a list of (address, value) pairs in one canonical form. Addresses
rise strictly, and no entry equals the default that an unlisted address reads as.
-/

namespace Sys2Proof.Machine

variable {α : Type} [DecidableEq α]

/-- The value at an address, the default `d` where it is not listed. -/
def sparseGet (d : α) : List (Nat × α) → Nat → α
  | [], _ => d
  | (k, v) :: t, a => if k = a then v else if k < a then sparseGet d t a else d

/-- The map with the value at one address replaced; storing the default removes the entry. -/
def sparseSet (d : α) : List (Nat × α) → Nat → α → List (Nat × α)
  | [], a, v => if v = d then [] else [(a, v)]
  | (k, w) :: t, a, v =>
    if k < a then (k, w) :: sparseSet d t a v
    else if k = a then (if v = d then t.filter (fun e => decide (a < e.1)) else (k, v) :: t)
    else if v = d then (k, w) :: t else (a, v) :: (k, w) :: t

/-- Addresses rise strictly. -/
def sparseSorted : List (Nat × α) → Bool
  | [] => true
  | (k, _) :: t => t.all (fun e => decide (k < e.1)) && sparseSorted t

/-- The canonical form over a default that may depend on the address. -/
def sparseWf (d : Nat → α) (l : List (Nat × α)) : Bool :=
  sparseSorted l && l.all (fun e => decide (e.2 ≠ d e.1))

/-- The map without the entries of an address range. -/
def sparseDrop (l : List (Nat × α)) (lo hi : Nat) : List (Nat × α) :=
  l.filter (fun e => decide (e.1 < lo ∨ hi ≤ e.1))

end Sys2Proof.Machine
end

