-- ==== Sys2Proof/Machine/State.lean ====
section
/-!
DEFINITION. The state of the module and of its cells: plain data. Registers the manual gives a register map live in
`regs`; what the manual describes without a register stands in the sub-states below. Instants are absolute counts of
125 ps ticks since the reset of the PLAN domain; RTIME is their value modulo 2^48 (R276, R277).
-/

namespace Sys2Proof.Machine

/-- State of a check word with an error: correctable or uncorrectable (R443, R444). -/
inductive Ecc where
  | ce
  | ue
  deriving DecidableEq, Repr

/-- One vector register (R57) with the residue of each lane (R63). -/
structure VReg where
  exp  : BitVec 8
  mant : Vector (BitVec 24) 48
  res  : Vector (BitVec 3) 48
  deriving DecidableEq, Repr

/-- An EMIT on its way to PLAN (R120). -/
structure EmitMsg where
  core   : CoreId
  period : Nat
  dest   : DestId
  qty    : BitVec 4
  exp    : BitVec 8
  mant   : Vector (BitVec 24) 48
  res    : Vector (BitVec 3) 48
  mask   : BitVec 48
  deriving DecidableEq, Repr

/-- A store held in the speculation buffer (R79), or a buffered PRED.SET (R110). -/
inductive BufStore where
  | store (addr : Nat) (size : Nat) (value : Word)
  | predSet (slot : Nat) (codes : List (Nat × BitVec 16))
  deriving DecidableEq, Repr

/-- The registers a speculative run's checkpoint keeps (R78). -/
structure Regs where
  s    : Vector Word 32
  sres : Vector (BitVec 3) 32
  v    : Vector VReg 8
  p    : Vector (BitVec 48) 8
  ppar : Vector (BitVec 3) 8
  deriving DecidableEq, Repr

/-- The loads of one word or less. -/
inductive LoadKind where
  | word
  | half
  | halfU
  | byte
  | byteU
  | sample
  deriving DecidableEq, Repr

/-- A core stalled in the middle of an instruction (R52, R99, R108, R121). -/
inductive Stall where
  /-- An access to memory outside DMEM, not yet complete: what is to happen when it completes. -/
  | load (kind : LoadKind) (rt : Sreg) (addr : Nat)
  | loadVec (vd : Vreg) (addr : Nat)
  | store (size : Nat) (addr : Nat) (value : Word)
  | storeVec (words : List Word) (addr : Nat)
  /-- LD.IN waiting for the slot's real data or its timeout. -/
  | input (reg : Sreg) (pv : Preg) (slot : BitVec 8)
  /-- EMIT waiting for room in the FIFO. -/
  | emit (m : EmitMsg)
  deriving DecidableEq, Repr

/-- Predictor store of one slot and lane: the last two real values and the script-set one (R75). -/
structure PredCell where
  last   : Option (BitVec 16)
  before : Option (BitVec 16)
  script : Option (BitVec 16)
  deriving DecidableEq, Repr

/-- A hardware upset that the checks of a core will meet at its next checked result (R64 to R66). -/
inductive Upset where
  | residue
  | exponent
  deriving DecidableEq, Repr

/-- One script core beside its registers in the CORE block. -/
structure Core where
  r        : Regs
  pc       : BitVec 16
  /-- Period the run computes, the instant of that period's tick, and s3 bit 0. -/
  period   : Nat
  tick     : Nat
  replay   : Bool
  cycles   : Nat
  /-- Ticks that have arrived and not been started (R71 to R73). -/
  pendTicks : Nat
  /-- Power-stage code sampled at the latest tick (R70, R82). -/
  tickPwr  : Nat
  /-- Instant at which the core last stalled or parked. -/
  stallAt  : Nat
  imem     : List (Nat × Word)
  imemErr  : List (Nat × Ecc)
  dmem     : List Host.Cell
  dmemErr  : List (Nat × Ecc)
  pred     : List (Nat × PredCell)
  predSnap : List (Nat × PredCell)
  stall    : Option Stall
  /-- Checkpoint of the speculative run in progress. -/
  ckpt     : Option Regs
  stores   : List BufStore
  emits    : List EmitMsg
  used     : List (BitVec 8)
  /-- The power-stage code the speculative run received in s3. -/
  specPwr  : Nat
  /-- The one sampled at the tick of its period, which the compare point meets (R82). -/
  cmpPwr   : Nat
  /-- Parked under the last two items of R80. -/
  specBad  : Bool
  /-- The run has executed WAITP and the core is held under R85 or parked at it. -/
  atWaitp  : Bool
  /-- Stores of a committed run still draining (R85). -/
  drain    : List BufStore
  fifo     : List EmitMsg
  /-- How far RETT goes past TPC: 4, 8 after LI, 0 after DRAIN (R125). -/
  rettStep : Nat
  upset    : Option Upset
  deriving DecidableEq, Repr

/-- One take handle beside TAKE.STATh and its boundary registers (R127). -/
structure Take where
  writes    : List (Nat × Word)
  stamp     : Nat
  openedAt  : Nat
  tmo       : Nat
  waitMax   : Nat
  printedAt : Nat
  printNo   : Nat
  staging   : Nat
  instant   : Option Nat
  deriving DecidableEq, Repr

/-- An exact fraction n / d, d at least 1. -/
structure Frac where
  n : Int
  d : Nat
  deriving DecidableEq, Repr

/-- References of one destination, quantity and period: per lane the exact carried value, or none (R122, R157). -/
structure RefSet where
  qty    : BitVec 4
  period : Nat
  lanes  : List (Option Frac)
  deriving DecidableEq, Repr

/-- What PLAN keeps for one lane between periods: the reference in use and for how many periods the lane went uncarried. -/
structure LaneHold where
  value : Option Frac
  miss  : Nat
  deriving DecidableEq, Repr

/-- A committed schedule (R163, R181): its tick, whether it was held, its records with their cell, and what is left to send. -/
structure Schedule where
  tick    : Nat
  held    : Bool
  records : List (BitVec 128)
  spare   : List (BitVec 128)
  /-- Last edges that the spare records leave, for a switch to them at dispatch (R185). -/
  spareEdges : List (Nat × List (Option (Nat × BitVec 2)))
  /-- Last edges before the schedule, from which those after a switch are counted. -/
  before   : List (Nat × List (Option (Nat × BitVec 2)))
  /-- MCLAMP, DCLAMP and RUNT of the spare records. -/
  spareBits : Bool × Bool × Bool
  sent    : Nat
  deriving DecidableEq, Repr

/-- Values in force at the build cut of a destination's next schedule (R160, R163). -/
structure CutView where
  tick   : Nat
  period : Nat
  eff    : List CellId
  slots  : List CellId
  seam   : Bool
  /-- PLAN.SCALEq in force at the cut, as words (R156, R163). -/
  scales : List Word
  /-- The registers of PLAN and the local bridge's period that the schedule is built from, as they stood (R163, R191). -/
  cfg    : List (Nat × Word)
  subs   : List (CellId × CellId)
  /-- The next PWM period start after the period in force then, while the chain runs (R191). -/
  chain  : Option Nat
  deriving DecidableEq, Repr

/-- State of one PLAN destination. -/
structure Dest where
  refs     : List RefSet
  hold     : List (List LaneHold)
  cut      : Option CutView
  lastEff  : List CellId
  slots    : List CellId
  sched    : Option Schedule
  /-- Committed records not yet executed, for AMEND (R182). -/
  live     : List (BitVec 128)
  /-- Consecutive misses, and their count before the last commit (R185, R186). -/
  missRun  : Nat
  missPrev : Nat
  /-- DC-link voltages in 1/16 V and the V2 code in force, for a period whose own are missing (R173). -/
  v1       : List Int
  v2       : Int
  seqs     : Vector (BitVec 16) 40
  /-- Last committed edge of each leg of each cell, and the leg's gate code after it (R169, R177). -/
  edges    : List (Nat × List (Option (Nat × BitVec 2)))
  /-- The values of the last committed schedule, from which the extension draft is built. -/
  extRefs  : List (List Frac)
  /-- Cells without a record since RTIME wrapped: their next PSTART carries SEAM (R171). -/
  seamDue  : BitVec 40
  /-- Tick of the last period built, and its RTIME, by which a wrap since then shows (R171). -/
  builtAt  : Option (Nat × BitVec 48)
  /-- The substitutions in force: a failed active cell and the cell that holds its slot (R188, R189). -/
  subs     : List (CellId × CellId)
  /-- V1 and V2 of the period whose references `extRefs` are (R173). -/
  extV1    : List Int
  extV2    : Int
  deriving DecidableEq, Repr

/-- Ring-side state of one cell (R242, R246, R253, R266, R274). -/
structure CellView where
  desc    : List Word
  stage   : Nat
  lastSeq : Option (BitVec 16)
  misses  : Nat
  corr    : Int
  dist    : Nat
  combined : BitVec 8
  /-- NUM of the last clapper whose report of this cell has been taken (R240). -/
  lastNum : Option (BitVec 8)
  deriving DecidableEq, Repr

/-- Telemetry of one period that has no stamp yet (R274): its number and tick, which cells have reported, and whether a
write met an uncorrectable error, so that the stamp is not written (R444). -/
structure Tlm where
  period : Nat
  tick   : Nat
  mask   : BitVec 40
  bad    : Bool
  deriving DecidableEq, Repr

/-- One ring as RING keeps it beside its registers. -/
structure Ring where
  view      : Vector CellView 40
  found     : Nat
  enumerating : Bool
  /-- RTIME of the last clapper launch. -/
  tL        : BitVec 48
  nextClap  : Nat
  link      : Bool
  tlm       : List Tlm
  /-- DC-link codes received lately: period, index of the cell, q0 (R166, R173). -/
  q0        : List (Nat × Nat × BitVec 16)
  armEpoch  : Option Nat
  /-- Instant of the last clapper launch, and the cells whose reports of it are outstanding (R253). -/
  launchAt  : Nat
  awaited   : BitVec 40
  deriving DecidableEq, Repr

/-- One record of RING's event intake queue (R266). -/
structure EvtRec where
  ring : RingId
  cell : CellId
  code : BitVec 8
  seq  : BitVec 16
  time : BitVec 48
  data : Word
  deriving DecidableEq, Repr

/-- A cell register access in progress, with the instant of its GO (R269). -/
structure CellAccess where
  goAt  : Nat
  ring  : RingId
  cell  : Nat
  tag   : BitVec 8
  write : Bool
  deriving DecidableEq, Repr

/-- Blocks that wait to leave on L0 of a port (R199, R237): those for the positions of frames, each with whether it is a control
block; CLAP; and on P7 a leader's EPOCH, which a follower passes on (R299). -/
structure TxQueue where
  frames : List (Bool × BitVec 64)
  clap   : Option (BitVec 64)
  epoch  : Option (BitVec 64)
  deriving DecidableEq, Repr

/-- One optical port beside its lane registers (R222). -/
structure Port where
  resetReleased : Bool
  moduleOk   : Bool
  moduleBad  : Nat
  attemptAt  : Nat
  failedAt   : Nat
  rxClock    : Bool
  lock0      : Bool
  lock1      : Bool
  lock3      : Bool
  /-- Since when a TRAINED port has been without its received clock, and, with the clock present, without block lock on some
  data lane (R224). -/
  clkLostAt  : Option Nat
  lockLostAt : Vector (Option Nat) 3
  dllGated   : Bool
  dllWait    : Nat
  /-- Twice the delay in ps that the DLL needs, as its last phase measurement gave it (R208, R209). -/
  dllWant    : Int
  txDisable  : Bool
  /-- Centres of the eyes of L0, L1 and L3 (R220). -/
  centre     : Vector (BitVec 6) 3
  /-- Descramblers and scramblers of L0, L1 and L3 (R199). -/
  rxScr      : Vector (BitVec 58) 3
  txScr      : Vector (BitVec 58) 3
  /-- When SUP switched the cage supply on (R222 step 1). -/
  supplyAt   : Nat
  /-- Consecutive windows of each data lane with fewer than 32 transitions (R220). -/
  lowRun     : Vector Nat 3
  /-- RING.TAPSp in force (R204). -/
  taps       : Word
  /-- Words dropped at the crossing from this port's island (R37). -/
  drops      : Nat
  deriving DecidableEq, Repr

/-- A record a cell holds (R262); `orphan` marks an AMEND whose ENTRY has not arrived (R264). -/
structure HeldRec where
  time   : BitVec 48
  gates  : BitVec 12
  flags  : BitVec 8
  seq    : BitVec 16
  orphan : Bool
  deriving DecidableEq, Repr

/-- A cell's own state of R241: its code in the summary slot. -/
inductive CellMode where
  | notAdm
  | blocked
  | run
  | fault
  deriving DecidableEq, Repr

/-- One cell node as the cell contract describes it. -/
structure Cell where
  clock    : Option Dir
  counting : Bool
  /-- The cell's count minus the module's ticks. -/
  offset   : Int
  slew     : Int
  /-- Epochs for which a slew stays suspended (R537). -/
  slewHeld : Nat
  tset     : Option Int
  /-- The cell's own epoch up to which it has slewed, and whether a TSET has followed the last clapper (R240). -/
  epochIx  : Int
  tsetSeen : Bool
  mode     : CellMode
  admitted : Bool
  pos      : Nat
  /-- Position that the enumeration in progress gives (R251), taken where it succeeds (R252). -/
  posNew   : Nat
  held     : List HeldRec
  /-- Latest ENTRY accepted since the last ARM (R264). -/
  lastEntry : Option (BitVec 16)
  /-- Records accepted lately, for the discarding of second copies (R240): true for an AMEND. -/
  recent   : List (Bool × BitVec 16)
  lastExec : Option (BitVec 16)
  arm      : Option (BitVec 48)
  /-- Instants of the last ARM and of the last STOP accepted, in force or not (R240, R260). -/
  lastArm  : Option (BitVec 48)
  lastStop : Option (BitVec 48)
  gates    : BitVec 12
  /-- The gate state before the last change, and the count at that change (R262). -/
  before   : BitVec 12
  gatesAt  : BitVec 48
  bypass   : Bool
  lastPstart : Option (BitVec 48)
  stopAt   : Option (BitVec 48)
  regs     : List (Nat × Word)
  evSeq    : BitVec 16
  evUnsent : List (BitVec 16)
  hbSilent : Bool
  linkCw   : Bool
  linkCcw  : Bool
  /-- Its L3 inputs that a broken fibre has cut (R257, R270). -/
  l3Cw     : Bool
  l3Ccw    : Bool
  /-- Consecutive epochs of valid framing on a lost input (R271). -/
  goodCw   : Nat
  goodCcw  : Nat
  framingLost : Bool
  /-- A record was lost, late or failed its CRC since the slot of that direction was last written (R241). -/
  schedCw  : Bool
  schedCcw : Bool
  clapCw   : Option (BitVec 8 × BitVec 48)
  clapCcw  : Option (BitVec 8 × BitVec 48)
  tags     : List (BitVec 8 × BitVec 2 × Word × BitVec 16)
  capSeq   : BitVec 16
  capEpoch : BitVec 35
  capBuf   : List (BitVec 16)
  /-- Epoch after the one sampled last (R365). -/
  capNext  : Nat
  /-- The quantities q0 to q7 as the cell measures them now (outside the module). -/
  quant    : List (BitVec 16)
  deriving DecidableEq, Repr

/-- One inverter leg (R306 to R334). -/
structure Leg where
  charge    : Nat
  tripCut   : Bool
  restart   : Bool
  noLow     : Nat
  /-- The low-side pulse of the current period is planned and not cut (R327). -/
  lowPlanned : Bool
  /-- DUTYx of the last PLAN entry (R312). -/
  duty      : Nat
  /-- Edges of the current period, and the last ones before it: instant, true for the high side, true for on. -/
  edges     : List (Nat × Bool × Bool)
  softWait  : Bool
  softOff   : Bool
  softAt    : Nat
  deriving DecidableEq, Repr

/-- The local bridge beside its registers. -/
structure Brg where
  running : Bool
  start   : Nat
  length  : Nat
  /-- RTIME of the last period start (BRG.PSTARTL). -/
  lastStart : BitVec 48
  entries : List (BitVec 128)
  legs    : Vector Leg 4
  lastSoft : Option Nat
  /-- Gate channels whose command is absent: bit 2x + 1 high side, bit 2x low side (R335). -/
  noCmd   : BitVec 8
  /-- Gate channels whose primary-side supply is lost, numbered alike (R335). -/
  primLost : BitVec 8
  deriving DecidableEq, Repr

/-- The control measurement beside its registers. -/
structure Adc where
  slot     : Nat
  slotAt   : Nat
  period   : Nat
  zxReady  : Bool
  zxAt     : Option Nat
  masks    : Vector Word 8
  /-- The masks of the latest periods, newest first, by which their frames are read (R345, R350). -/
  past     : List (Nat × Vector Word 8)
  halted   : BitVec 8
  vbus     : List (Nat × BitVec 16)
  extOk    : Bool
  supOk    : Bool
  /-- Voltage of the sensor supply in nV, to which a converter that uses it is ratiometric (R340, R351). -/
  vSup     : Nat
  /-- End of a calibration in progress, and of a settling time in progress, of each converter. -/
  calAt    : Vector Nat 8
  settle   : Vector (Option Nat) 8
  /-- Group frames whose last sample is written and whose stamp is not: group, period, instant of the last sample. -/
  due      : List (UnitId × Nat × Nat)
  /-- Words dropped at the crossing from I_MOD (R37). -/
  drops    : Nat
  deriving DecidableEq, Repr

/-- One capture unit beside its registers (R359 to R367). -/
structure Capt where
  slots   : Nat
  recNo   : Nat
  ready   : Bool
  force   : Bool
  trig    : Option Nat
  trigAt  : Nat
  cmpAt   : Option Nat
  fseq    : Option (BitVec 16)
  deriving DecidableEq, Repr

/-- One logged or read-out meter record (R384) before its signature; the signature is a function of its bytes 0 to 63. -/
structure MtrRec where
  kind    : BitVec 8
  flags   : BitVec 16
  rseq    : Nat
  mtime   : Nat
  ch      : BitVec 8
  session : BitVec 16
  e1      : Int
  e2      : Int
  e3      : Int
  e4      : Int
  prev    : BitVec 64
  pset    : BitVec 16
  corrupt : Bool
  /-- Its commit word is written (R388). -/
  commit  : Bool
  deriving DecidableEq, Repr

/-- A mailbox command accepted into the island's queue, with the record it will write, its register values those of the
instant of acceptance (R382, R383). -/
structure MtrCmd where
  req   : Requester
  code  : BitVec 8
  recd  : Option MtrRec
  deriving DecidableEq, Repr

/-- The metrology island (chapter 12). Energies are in 2^-20 Wh; the clock counts seconds and, below them, 6.25 ns. -/
structure Mtr where
  measuring : Bool
  mtime    : Nat
  sub      : Nat
  /-- Sums of the products of R372 over the current second, MV and D1 to D8, and of the DC-bus codes. -/
  sums     : List Int
  usums    : Int × Int
  /-- The same products of the last 160 samples. -/
  recent   : List (List Int)
  energy   : Vector Int 19
  lastIntv : List Int
  lastSnap : Option Nat
  sessOpen : BitVec 8
  sessNum  : Vector (BitVec 16) 8
  sessE    : List (Int × Int)
  params   : Vector Nat 16
  pendingP : Vector Nat 16
  /-- The set that governs from the next whole second (R392). -/
  nextP    : Option (Vector Nat 16)
  /-- A write of MTR.PDATA that the island has not served, with its requester, and the last millisecond it served (R8, R398). -/
  pdata    : Option (Requester × Nat)
  served   : Nat
  psetNum  : Nat
  rseq     : Nat
  log      : List MtrRec
  queue    : List MtrCmd
  /-- The records of a snapshot that are not yet written (R380, R394). -/
  snap     : List MtrRec
  /-- The next signature fails its own verification (R387, R393). -/
  signBad  : Bool
  /-- The legal crystal's own count, which nothing sets back, in 6.25 ns. -/
  count    : Nat
  /-- MTIME target and nanoseconds of the last pair, the count at which it was accepted, and its d. -/
  lastPair : Option (Int × Nat)
  pairAt   : Nat
  lastD    : Int
  slewLeft : Int
  dayTotal : Int
  dayUsed  : Nat
  /-- The MTIME day that these belong to. -/
  dayNo    : Nat
  rangeCh  : BitVec 16
  /-- Flags met since the last record of CH 0 to 8, and since the last one of no channel (R385). -/
  acc      : Vector (BitVec 16) 10
  gapCh    : BitVec 9
  passes   : Vector Nat 16
  crystalOk : Nat
  /-- MTIME of the last POWER_DOWN, and that at which measurement last ended. -/
  downMtime : Nat
  lossMtime : Nat
  backupOut : Bool
  tinvalid : Bool
  tunsync  : Bool
  /-- INVALID has been entered, which nothing in the field ends (R389, R393), and whether by a signature. -/
  invalid  : Bool
  fkey     : Bool
  /-- MTR.FCHAN and FTIME as they stood when the domain was lost, for a fault outlives it. -/
  fail     : BitVec 16
  ftime    : Bool
  coverOpen : Bool
  deriving DecidableEq, Repr

/-- One channel of SAFE: whether its start-up checks are complete, its lockout, the outputs (bits 0 to 3) and heartbeats
(bit 4) that it holds off, the demands that it sees, and its copy of the safety parameter set. -/
structure SafeCh where
  started : Bool
  lockout : Bool
  hold    : BitVec 5
  demand  : BitVec 9
  set     : Option (List Byte)
  deriving DecidableEq, Repr

/-- The safe-disconnect function (chapter 13). -/
structure Safe where
  a        : SafeCh
  b        : SafeCh
  sealed   : Bool
  /-- Channel A's commands and requests of its last cycle. -/
  hsCmd    : BitVec 4
  req      : BitVec 4
  /-- Cause of the lockout in force, and the fault causes not yet cleared (R407). -/
  cause    : BitVec 8
  held     : List (BitVec 8)
  /-- Filtered input levels, and channel A's last sample of them. -/
  si       : BitVec 16
  aSeen    : BitVec 16
  aNext    : Nat
  /-- When a function's discrepancy began, or its monitored output opened. -/
  discAt   : Vector (Option Nat) 8
  testing  : Option (Fin 8)
  testVoid : Bool
  testFail : BitVec 8
  testAt   : Nat
  /-- Exchanges in a row without the live count of A and of B, and with a disagreement (R406). -/
  missA    : Nat
  missB    : Nat
  disagree : Nat
  /-- Outputs of which one switch stays open after a demand met its test (R413). -/
  testHeld : BitVec 4
  liveAt   : Option Nat
  /-- Voltage of the 24 V safety supply, in mV. -/
  safe24   : Nat
  /-- Instant since which SAFE_RESET has been active without a break (R472). -/
  resetSince : Option Nat
  /-- Level at which the heartbeat drivers stand (R227). -/
  hbHigh   : Bool
  deriving DecidableEq, Repr

/-- One history entry of a privileged source (R435, R436). -/
structure HistEntry where
  time   : BitVec 48
  extrap : Bool
  deriving DecidableEq, Repr

/-- The fault collector beside its registers. -/
structure Flt where
  hist     : Vector (List HistEntry) 16
  lost     : Vector Nat 16
  /-- Level conditions of sources of kind L that hold now. -/
  cond     : BitVec 384
  pulseEnd : Nat
  /-- The bits in which the second, inverted copy of a word (by its code in FLT.SELF.WORD) is not the first one's complement, and
  under 0xFF those in which the two copies of the reaction logic differ (R438). -/
  wrong    : List (Nat × Word)
  deriving DecidableEq, Repr

/-- A pending request at the SUP mode arbiter (R49). -/
structure ArbReq where
  req  : Requester
  code : BitVec 4
  deriving DecidableEq, Repr

/-- A stop in progress: the instant named in the STOP blocks, and whether it ends in SAFE_STOP (R259, R530). -/
structure StopSeq where
  instant : Option Nat
  safe    : Bool
  reached : Bool
  deriving DecidableEq, Repr

/-- The supervisor beside its registers. -/
structure Sup where
  inputOn  : Bool
  auxLost  : Bool
  lostAt   : Nat
  /-- The group being decided, and the requests that joined after it, each with the instant at which it arrived (R49). -/
  arb      : List ArbReq
  arbNext  : List (Nat × ArbReq)
  stop     : Option StopSeq
  /-- I_RTIME has stopped, since which instant. -/
  islandStop : Bool
  islandAt : Nat
  /-- A thermal shutdown is latched, since which instant (R459). -/
  shutdown : Bool
  shutAt   : Nat
  /-- Since the last start of HOST: the loader has decided to stay, the resident configuration has been applied. -/
  loaderHold : Bool
  configDone : Bool
  deriving DecidableEq, Repr

/-- Clocking beside its registers: from when the main oscillator meets R213 again and the spare is locked again, the 10 MHz
input, how far, in ppb, that input and the clock received on P7 stand from the free-running oscillator, and by how much the
oscillator is steered (R217, R300). -/
structure Clk where
  mainBack  : Nat
  spareBack : Nat
  extOk     : Bool
  extPpb    : Int
  peerPpb   : Int
  steer     : Int
  deriving DecidableEq, Repr

/-- A transmit time stamp in a PTP queue (R292). -/
structure TxStamp where
  kind : BitVec 4
  seq  : BitVec 16
  time : BitVec 48
  /-- GTIME of the stamp in ns, by the mapping in force then (R282). -/
  gtime : Int
  deriving DecidableEq, Repr

/-- A received event message's stamp, which the engine keeps until its next message of that type (R290). -/
structure RxStamp where
  port : EthId
  kind : BitVec 4
  seq  : BitVec 16
  time : BitVec 48
  deriving DecidableEq, Repr

/-- Time bases beside their registers. -/
structure Tim where
  kFreq    : Int
  kSlew    : Int
  /-- Rate estimate and offset to slew, in force from the next re-anchor (R280, R295). -/
  newK     : Option (Int × Int)
  /-- What the slew in progress has still to remove, and the part of the anchor's GTIME below 1 ns, in 2^-43 ns. -/
  slewLeft : Nat
  gFrac    : Nat
  /-- Measurements in a row that count toward lock (R294). -/
  count    : Nat
  /-- A pending step: the offset, and the whole second of GTIME at which it is made (R295). -/
  stepDue  : Option (Int × Nat)
  everLocked : Bool
  holdAt   : Nat
  utc      : Int
  txq      : Vector (List TxStamp) 2
  rxq      : List RxStamp
  /-- The last peer clapper received: NUM, arrival in RTIME, ACC (R301). -/
  peerAt   : Option (BitVec 8 × BitVec 48)
  peerAcc  : Nat
  peerNum  : BitVec 8
  /-- First epoch in which the leader may launch its next clapper (R301). -/
  peerEpoch : Nat
  /-- What a follower has still to slew RTIME by, and the epoch up to which it has (R303). -/
  rtSlew   : Int
  rtEpoch  : Nat
  pairAt   : Nat
  deriving DecidableEq, Repr

/-- The period timer (R68, R533): in the PLAN domain, with its latest and next tick, the period in force, its own copy of the
last accepted CORE.PERIOD, in force from the next tick (R69), and its count of ticks, which CORE.TICK shows. -/
structure Timer where
  last : Nat
  next : Nat
  copy : Nat
  accepted : Nat
  count : Nat
  deriving DecidableEq, Repr

/-- SRAM initialisation, write-backs and the log writer. -/
structure Mem where
  initTo  : Option Bool
  wb      : List Nat
  buf     : List LogEntry
  pos     : Nat
  deriving DecidableEq, Repr

/-- An answer to a host port (R464, R469): command, LOADER flag, status, counter, payload words. -/
structure Reply where
  cmd     : BitVec 8
  loader  : Bool
  status  : BitVec 8
  ctr     : BitVec 64
  payload : List Word
  deriving DecidableEq, Repr

/-- One host port (R464 to R483). -/
structure HPort where
  key      : Option (List Byte)
  ctr      : BitVec 64
  session  : Option (Word × BitVec 16)
  lastReq  : Nat
  evCount  : Nat
  evQueue  : List (Nat × BitVec 48)
  reply    : Option Reply
  deriving DecidableEq, Repr

/-- Field update (R486 to R497) beside UPD.STAT. -/
structure Upd where
  lock     : Option HostPort
  since    : Nat
  wrote    : Bool
  bytes    : Nat
  slate    : List Byte
  validAt  : Option Nat
  restart  : Bool
  deriving DecidableEq, Repr

/-- A packet in the streaming buffer: source code, length in credits. -/
structure Packet where
  src  : BitVec 8
  lenc : Nat
  pseq : Nat
  deriving DecidableEq, Repr

/-- Streaming on P6 (R498 to R503) beside its registers. -/
structure Strm where
  buf    : List Packet
  sent   : Nat
  cum    : Nat
  pseq   : List (Nat × Nat)
  unit   : CaptId
  left   : Nat
  next   : Nat
  deriving DecidableEq, Repr

/-- A block or frame that the module sends on L0 of a ring (R236); `instant` of a STOP is the stop instant, whose epoch number
the block carries. -/
inductive L0Msg where
  | epoch (number : BitVec 35)
  | summ (slots : List (BitVec 8))
  | clap (num : BitVec 8)
  | tset (pos : Nat) (step : Bool) (corr : Int)
  | cellCmd (pos : Nat) (cmd : BitVec 8) (arg : Nat)
  | enum (count : BitVec 8)
  | stop (reason : BitVec 8) (number : BitVec 35)
  | sched (record : BitVec 128)
  | regrq (pos : Nat) (tag : BitVec 8) (write : Bool) (addr : BitVec 16) (data : Word)
  deriving DecidableEq, Repr

/-- A frame or slot a cell sends. -/
inductive CellMsg where
  | slot (dir : Dir) (b : BitVec 8)
  | tlm (tick : Nat) (q : List (BitVec 16)) (status : Word)
  | evt (code : BitVec 8) (seq : BitVec 16) (time : BitVec 48) (data : Word)
  | clapr (num : BitVec 8) (a b : BitVec 48)
  | enum (dir : Dir) (count : BitVec 8)
  | regrsp (tag : BitVec 8) (status : BitVec 2) (data : Word) (addr : BitVec 16 := 0)
  | capd (qmask : BitVec 8) (epoch : BitVec 35) (fseq : BitVec 16) (codes : List (BitVec 16))
  | clockOut
  deriving DecidableEq, Repr

/-- What leaves an agent during one command. -/
inductive Out where
  /-- Answer to a register or memory read by a requester; none is a bus error. -/
  | value (req : Requester) (v : Option Word)
  | busError (req : Requester) (addr : Nat)
  | refusal (req : Requester) (code : BitVec 8)
  | accepted (req : Requester)
  /-- A reply datagram: its port, where it goes (R469), its fields, and its bytes with the authentication code. -/
  | reply (h : HostPort) (ip : Word) (udp : BitVec 16) (r : Reply) (bytes : List Byte)
  | event (h : HostPort) (count : Nat) (src : Nat) (time : BitVec 48)
  /-- RING hands a message to both ports of a ring. -/
  | l0 (x : RingId) (m : L0Msg)
  /-- A block as it stands on a data lane of a port (R199). -/
  | line (p : LaneId) (lane : DataLane) (b : LineBlock)
  /-- A cell passes a message on at its output of a direction (R239, R270). -/
  | fwd (x : RingId) (k : CellId) (dir : Dir) (m : L0Msg)
  /-- It passes on L0 blocks unchanged of which it could read none as the message of the command (R232, R239). -/
  | fwdBlocks (x : RingId) (k : CellId) (dir : Dir) (blocks : List (BitVec 64))
  | cell (x : RingId) (k : CellId) (m : CellMsg)
  /-- A frame of a cell comes out of L1 at a port (R239, R270). -/
  | l1 (p : LaneId) (x : RingId) (k : CellId) (blocks : List (BitVec 64))
  /-- The level of the heartbeat drivers of P0 to P5 and P7 changes (R227, R229). -/
  | heartbeat (high : Bool)
  | brgEntry (e : BitVec 128)
  | gate (x : LegId) (high : Bool) (on : Bool) (at_ : Nat)
  /-- A reply of the billing port: its function, its payload and the whole frame (R395). -/
  | billing (fn : BitVec 8) (payload : List Byte) (frame : List Byte)
  | packet (p : Packet)
  /-- A message on L0 of P7: its blocks (R504). -/
  | peer (blocks : List (BitVec 64))
  /-- A PTP message that the engine or the port's time-stamp unit completes (R291, R293): port, messageType, sequenceId, and
  its originTimestamp or correction in ns, GTIME or elapsed, and whether its UDP checksum is corrected for it. -/
  | ptp (port : EthId) (kind : BitVec 4) (seq : BitVec 16) (ns : Int) (udp : Bool)
  /-- A delay measurement that the engine may use: the transmit stamp of a Delay_Req or Pdelay_Req (R293). -/
  | ptpDelay (port : EthId) (kind : BitVec 4) (seq : BitVec 16) (time : BitVec 48)
  | toMtr (gtimeNs : Nat) (target : Int)
  | stepReport (theta : Int) (gtimeSec : Nat)
  | mgmt (p : LaneId) (write : Bool) (byte : BitVec 8) (data : BitVec 8)
  deriving DecidableEq, Repr

/-- The whole machine. `pending` is the queue of waiting commands, oldest first. -/
structure State where
  pending : List Instr
  /-- The model's own counter of free values taken; it is no state of the module. -/
  free    : Nat
  ticks   : Nat
  /-- What RTIME is ahead of `ticks` (R276): a follower's alignment, and the restart from 0 with the PLAN domain. -/
  rtAdj   : Nat
  /-- Epoch of the last ring cycle, at which RING's LIVE values took effect (R8). -/
  ringAt  : Nat
  /-- Position of the ring cycle whose blocks left last, counted from RTIME 0 (R237). -/
  lineAt  : Nat
  /-- What waits to leave on L0 of each port. -/
  tx      : Vector TxQueue 8
  /-- Instant of the last power-on reset of the PLAN domain, from which LTIME counts (R278). -/
  ltBase  : Nat
  regs    : List (Nat × Word)
  live    : List (Nat × Word)
  vers    : List (Nat × Nat)
  mem     : List Host.Cell
  ecc     : List (Nat × Ecc)
  timer   : Timer
  sup     : Sup
  clk     : Clk
  tim     : Tim
  cores   : Vector Core 12
  takes   : Vector Take 8
  plan    : Vector Dest 4
  rings   : Vector Ring 3
  ports   : Vector Port 8
  evq     : List EvtRec
  access  : Option CellAccess
  caTag   : BitVec 8
  cells   : Vector (Vector Cell 40) 3
  brg     : Brg
  adc     : Adc
  capt    : Vector Capt 4
  mtr     : Mtr
  safe    : Safe
  flt     : Flt
  memory  : Mem
  host    : Vector HPort 3
  upd     : Upd
  strm    : Strm
  out     : List Out
  deriving DecidableEq, Repr

/-- Why the machine would stop. -/
inductive Fault where
  /-- Raised by no meaning: the manual gives every command and event an effect or says that it has none (safe). -/
  | none
  deriving DecidableEq, Repr

/-- Why a command has no meaning in the model. -/
inductive Refusal where
  /-- Raised by an arm of `exec` whose command is not modelled (safe); no arm of this model raises it. -/
  | notModelled (mnemonic : String)
  deriving DecidableEq, Repr

/-- Vector register after reset: no value is given by the manual; zero with exponent 0 (log entry 1). -/
def VReg.reset : VReg := ⟨0, Vector.replicate 48 0, Vector.replicate 48 0⟩

/-- p0 reads as all ones (R58); the other predicates are 0 (log entry 1). One parity bit per 16 lanes. -/
def Regs.reset : Regs :=
  ⟨Vector.replicate 32 0, Vector.replicate 32 0, Vector.replicate 8 VReg.reset, Vector.replicate 8 0, Vector.replicate 8 0⟩

def Core.reset : Core where
  r := Regs.reset
  pc := 0
  period := 0
  tick := 0
  replay := false
  cycles := 0
  pendTicks := 0
  tickPwr := 0
  stallAt := 0
  imem := []
  imemErr := []
  dmem := []
  dmemErr := []
  pred := []
  predSnap := []
  stall := none
  ckpt := none
  stores := []
  emits := []
  used := []
  specPwr := 0
  cmpPwr := 0
  specBad := false
  atWaitp := false
  drain := []
  fifo := []
  rettStep := 4
  upset := none

def Take.reset : Take := ⟨[], 0, 0, 0, 0, 0, 0, 0, none⟩

def Dest.reset : Dest where
  refs := []
  hold := []
  cut := none
  lastEff := []
  slots := []
  sched := none
  live := []
  missRun := 0
  missPrev := 0
  v1 := List.replicate 40 0
  v2 := 0
  seqs := Vector.replicate 40 0
  edges := []
  extRefs := []
  seamDue := 0
  builtAt := none
  subs := []
  extV1 := List.replicate 40 0
  extV2 := 0

def CellView.reset : CellView := ⟨[], 0, none, 0, 0, 0, 0, none⟩

def Ring.reset : Ring where
  view := Vector.replicate 40 CellView.reset
  found := 0
  enumerating := false
  tL := 0
  nextClap := 0
  link := false
  tlm := []
  q0 := []
  armEpoch := none
  launchAt := 0
  awaited := 0

/-- RING.TAPSp resets to AMP 4, PRE 1 and POST 4 (chapter 7). -/
def tapsReset : Word := 0x40104

def Port.reset : Port where
  resetReleased := false
  moduleOk := false
  moduleBad := 0
  attemptAt := 0
  failedAt := 0
  rxClock := false
  lock0 := false
  lock1 := false
  lock3 := false
  clkLostAt := none
  lockLostAt := Vector.replicate 3 none
  dllGated := true
  dllWait := 0
  dllWant := 0
  txDisable := true
  centre := Vector.replicate 3 0
  rxScr := Vector.replicate 3 0
  txScr := Vector.replicate 3 0
  taps := tapsReset
  drops := 0
  supplyAt := 0
  lowRun := Vector.replicate 3 0

/-- The descriptor of the reference cell (R255), in the words that are not 0; its maker, model, serial number and firmware
version, which the manual leaves to the maker, are 0 (DESIGN CHOICE, log entry 54). Word 0xF is its CRC. -/
def refDescriptor : List (Nat × Word) :=
  [(2, 0x01000000), (3, 0x012C01F4), (4, 0x006401F4), (5, 0x04E2186A), (6, 0x55552EE0), (7, 0x000061A8), (8, 0x02800280),
   (9, 0x04B00528), (15, 0x0000EDE7)]

def Cell.reset : Cell where
  clock := none
  counting := false
  offset := 0
  slew := 0
  slewHeld := 0
  tset := none
  epochIx := 0
  tsetSeen := false
  mode := .notAdm
  admitted := false
  pos := 0
  posNew := 0
  held := []
  lastEntry := none
  recent := []
  lastExec := none
  arm := none
  lastArm := none
  lastStop := none
  gates := 0
  before := 0
  gatesAt := 0
  bypass := false
  lastPstart := none
  stopAt := none
  regs := refDescriptor
  evSeq := 0
  evUnsent := []
  hbSilent := true
  linkCw := false
  linkCcw := false
  l3Cw := false
  l3Ccw := false
  goodCw := 0
  goodCcw := 0
  framingLost := false
  schedCw := false
  schedCcw := false
  clapCw := none
  clapCcw := none
  tags := []
  capSeq := 0
  capEpoch := 0
  capBuf := []
  capNext := 0
  quant := List.replicate 8 0

def Leg.reset : Leg := ⟨0, false, false, 0, false, 0, [], false, false, 0⟩

def Brg.reset : Brg := ⟨false, 0, 0, 0, [], Vector.replicate 4 Leg.reset, none, 0, 0⟩

def Adc.reset : Adc :=
  ⟨0, 0, 0, false, none, Vector.replicate 8 0, [], 0, [], true, true, 5000000000, Vector.replicate 8 0, Vector.replicate 8 none,
    [], 0⟩

def Capt.reset : Capt := ⟨0, 0, false, false, none, 0, none, none⟩

/-- The sealed parameter set before commissioning: the lowest value of each range (log entry 6). -/
def Mtr.params0 : Vector Nat 16 :=
  #v[100, 100, 100, 100, 100, 100, 100, 100, 100, 100, 100, 100, 0, 1, 0, 1]

def Mtr.reset : Mtr where
  measuring := false
  mtime := 0
  sub := 0
  sums := List.replicate 9 0
  usums := (0, 0)
  recent := []
  energy := Vector.replicate 19 0
  lastIntv := List.replicate 9 0
  lastSnap := none
  sessOpen := 0
  sessNum := Vector.replicate 8 0
  sessE := List.replicate 8 (0, 0)
  params := Mtr.params0
  pendingP := Mtr.params0
  nextP := none
  pdata := none
  served := 0
  psetNum := 0
  rseq := 0
  log := []
  queue := []
  snap := []
  signBad := false
  count := 0
  lastPair := none
  pairAt := 0
  lastD := 0
  slewLeft := 0
  dayTotal := 0
  dayUsed := 0
  dayNo := 0
  rangeCh := 0
  acc := Vector.replicate 10 0
  gapCh := 0
  passes := Vector.replicate 16 0
  crystalOk := 0
  downMtime := 0
  lossMtime := 0
  backupOut := false
  tinvalid := false
  tunsync := false
  invalid := false
  fkey := false
  fail := 0
  ftime := false
  coverOpen := false

/-- A channel before its domain is powered: in lockout, every output and the heartbeats held, no set (R417). -/
def SafeCh.reset : SafeCh := ⟨false, true, 0x1F, 0, none⟩

def Safe.reset : Safe where
  a := SafeCh.reset
  b := SafeCh.reset
  sealed := false
  hsCmd := 0
  req := 0
  cause := 0
  held := []
  si := 0
  aSeen := 0
  aNext := 0
  discAt := Vector.replicate 8 none
  testing := none
  testVoid := false
  testFail := 0
  testAt := 0
  missA := 0
  missB := 0
  disagree := 0
  testHeld := 0
  liveAt := none
  safe24 := 0
  resetSince := some 0
  hbHigh := false

def Flt.reset : Flt := ⟨Vector.replicate 16 [], Vector.replicate 16 0, 0, 0, []⟩

def Sup.reset : Sup := ⟨false, false, 0, [], [], none, false, 0, false, 0, false, false⟩

def Tim.reset : Tim :=
  ⟨0, 0, none, 0, 0, 0, none, false, 0, 0, Vector.replicate 2 [], [], none, 0, 0, 0, 0, 0, 0⟩

/-- CORE.PERIOD resets to 3,125 units of 8 ns, which is 200,000 ticks. -/
def Timer.reset : Timer := ⟨0, 200000, 3125, 3125, 0⟩

def Mem.reset : Mem := ⟨none, [], [], 0⟩

def HPort.reset : HPort := ⟨none, 0, none, 0, 0, [], none⟩

def Upd.reset : Upd := ⟨none, 0, false, 0, [], none, false⟩

def Strm.reset : Strm := ⟨[], 0, 0, [], 0, 0, 0⟩

/-- The module right after the power-on reset of AON: only AON is powered, every register at the reset value of its map,
the power stage STOPPED, memory in BYTE mode, no time reference, both safety channels in lockout. -/
def State.reset : State where
  pending := []
  free := 0
  ticks := 0
  rtAdj := 0
  ringAt := 0
  lineAt := 0
  tx := Vector.replicate 8 ⟨[], none, none⟩
  ltBase := 0
  regs := []
  live := []
  vers := []
  mem := []
  ecc := []
  timer := Timer.reset
  sup := Sup.reset
  clk := ⟨0, 0, false, 0, 0, 0⟩
  tim := Tim.reset
  cores := Vector.replicate 12 Core.reset
  takes := Vector.replicate 8 Take.reset
  plan := Vector.replicate 4 Dest.reset
  rings := Vector.replicate 3 Ring.reset
  ports := Vector.replicate 8 Port.reset
  evq := []
  access := none
  caTag := 0
  cells := Vector.replicate 3 (Vector.replicate 40 Cell.reset)
  brg := Brg.reset
  adc := Adc.reset
  capt := Vector.replicate 4 Capt.reset
  mtr := Mtr.reset
  safe := Safe.reset
  flt := Flt.reset
  memory := Mem.reset
  host := Vector.replicate 3 HPort.reset
  upd := Upd.reset
  strm := Strm.reset
  out := []

end Sys2Proof.Machine
end

