-- ==== Sys2Proof/Machine/Ops.lean ====
section
/-!
DEFINITION. The named operations that every block uses: registers and their fields, indexed parts of the state, ring
time, domains, and what leaves the module during a command.
-/

namespace Sys2Proof.Machine

/-- Answer of a meaning: every meaning of this model answers a next state. -/
abbrev Res := Host.Outcome State Fault Refusal

/-- The value a register holds. -/
def State.word (s : State) (a : Nat) : Word := sparseGet (resetValue a) s.regs a

/-- The state with one register's value replaced. -/
def State.setWord (s : State) (a : Nat) (v : Word) : State := { s with regs := sparseSet (resetValue a) s.regs a v }

/-- A field's value, unsigned. -/
def State.fget (s : State) (f : Fld) : Nat := f.get (s.word f.addr)

/-- A field's value, signed over its width (R6). -/
def State.fgetI (s : State) (f : Fld) : Int := signedOf f.width (s.fget f)

/-- A field of one bit. -/
def State.flag (s : State) (f : Fld) : Bool := s.fget f != 0

/-- The state with a field holding the low bits of a value. -/
def State.fset (s : State) (f : Fld) (v : Nat) : State := s.setWord f.addr (f.put (s.word f.addr) v)

/-- As `fset`, for a signed value. -/
def State.fsetI (s : State) (f : Fld) (v : Int) : State := s.fset f (unsignedOf f.width v)

/-- A field one higher, held at its largest value. -/
def State.finc (s : State) (f : Fld) : State := s.fset f (min (s.fget f + 1) (2 ^ f.width - 1))

/-- The state with one bit of a field set. -/
def State.fsetBit (s : State) (f : Fld) (i : Nat) : State := s.fset f (s.fget f ||| 2 ^ i)

/-- The state with one bit of a field cleared. -/
def State.fclrBit (s : State) (f : Fld) (i : Nat) : State :=
  if (s.fget f).testBit i then s.fset f (s.fget f - 2 ^ i) else s

/-- One bit of a field set or cleared. -/
def State.fputBit (s : State) (f : Fld) (i : Nat) (b : Bool) : State := if b then s.fsetBit f i else s.fclrBit f i

/-- Every register of a block back at its reset value. -/
def State.resetBlock (s : State) (n : Nat) : State :=
  { s with
    regs := sparseDrop s.regs (0x40000000 + n * 0x10000) (0x40000000 + (n + 1) * 0x10000)
    live := sparseDrop s.live (0x40000000 + n * 0x10000) (0x40000000 + (n + 1) * 0x10000) }

def State.modCore (s : State) (n : CoreId) (f : Core → Core) : State := { s with cores := s.cores.set n (f s.cores[n]) }
def State.modTake (s : State) (h : HandleId) (f : Take → Take) : State := { s with takes := s.takes.set h (f s.takes[h]) }
def State.modDest (s : State) (d : DestId) (f : Dest → Dest) : State := { s with plan := s.plan.set d (f s.plan[d]) }
def State.modRing (s : State) (x : RingId) (f : Ring → Ring) : State := { s with rings := s.rings.set x (f s.rings[x]) }
def State.modView (s : State) (x : RingId) (k : CellId) (f : CellView → CellView) : State :=
  s.modRing x fun r => { r with view := r.view.set k (f r.view[k]) }
def State.modPort (s : State) (p : LaneId) (f : Port → Port) : State := { s with ports := s.ports.set p (f s.ports[p]) }
def State.cell (s : State) (x : RingId) (k : CellId) : Cell := (s.cells[x])[k]
def State.modCell (s : State) (x : RingId) (k : CellId) (f : Cell → Cell) : State :=
  { s with cells := s.cells.set x ((s.cells[x]).set k (f (s.cell x k))) }
def State.modLeg (s : State) (x : LegId) (f : Leg → Leg) : State :=
  { s with brg := { s.brg with legs := s.brg.legs.set x (f s.brg.legs[x]) } }
def State.modCapt (s : State) (u : CaptId) (f : Capt → Capt) : State := { s with capt := s.capt.set u (f s.capt[u]) }
def State.modHost (s : State) (h : HostPort) (f : HPort → HPort) : State := { s with host := s.host.set h (f s.host[h]) }

/-- The state at the beginning of a command: nothing has been sent yet. -/
def State.fresh (s : State) : State := { s with out := [] }

/-- A message leaves. -/
def State.emit (s : State) (o : Out) : State := { s with out := s.out ++ [o] }

/-- A value that the manual leaves undefined, fresh for each use (log entry 3). -/
def State.freshValue (s : State) : BitVec 64 × State := (Config.freeValue s.free, { s with free := s.free + 1 })

/-- Ticks of one microsecond, one epoch (R237) and one cycle of I_RTIME. -/
def us : Nat := 8000
def epochTicks : Nat := 8192
def idleTicks : Nat := 32

/-- Ring time without its wrap at 48 bits (R276). -/
def State.ringNow (s : State) : Nat := s.ticks + s.rtAdj

/-- RTIME (R276). -/
def State.rtime (s : State) : BitVec 48 := BitVec.ofNat 48 s.ringNow

/-- LTIME, in 1 ns: a count of I_RTIME, which stays where the island stopped (R278). -/
def State.ltime (s : State) : Nat := ((if s.sup.islandStop then s.sup.islandAt else s.ticks) - s.ltBase) / 8

/-- RTIME as the TIME block shows it: I_RTIME's own count, which stays where the island stopped. The copies of I_MOD and the
port islands were aligned with it and count on (R38), so that one count serves them all. -/
def State.rtimeShown (s : State) : BitVec 48 :=
  if s.sup.islandStop then BitVec.ofNat 48 (s.sup.islandAt + s.rtAdj) else s.rtime

/-- RTIME of an instant. -/
def State.rtimeAt (s : State) (t : Nat) : BitVec 48 := BitVec.ofNat 48 (t + s.rtAdj)

/-- The instant at which RTIME next takes a value, counted from an instant: at it or later within 2^47 ticks, otherwise
in the past (R276 compares instants as signed 48-bit differences). -/
def State.instantOf (s : State) (rt : BitVec 48) : Int :=
  (s.ticks : Int) + (rt - s.rtime).toInt

/-- Time moves forward to an instant, never back. -/
def State.advanceTo (s : State) (t : Nat) : State := { s with ticks := max s.ticks t }

/-- Instant of the first epoch start at or after an instant (R237). -/
def State.epochUp (s : State) (t : Nat) : Nat := alignUp epochTicks (t + s.rtAdj) - s.rtAdj

/-- RTIME takes another distance from the oscillator's ticks; the cells' own counts do not follow it (R243). -/
def State.setRtAdj (s : State) (a : Nat) : State :=
  { s with
    rtAdj := a
    cells := s.cells.map fun r => r.map fun c => if c.counting then { c with offset := c.offset + s.rtAdj - a } else c }

/-- Is power domain d powered (SUP.DOM.PWR)? Domains in the order of FLT sources 0 to 11. -/
def State.powered (s : State) (d : Nat) : Bool := (s.fget F.SUP_DOM_PWR).testBit d

/-- Domain numbers. -/
def domAon : Nat := 0
def domSafa : Nat := 1
def domSafb : Nat := 2
def domMtr : Nat := 3
def domCore : Nat := 4
def domPlan : Nat := 5
def domRing : Nat := 6
def domStrm : Nat := 7
def domHost : Nat := 8
def domDram : Nat := 9
def domAnlg : Nat := 10
def domGate : Nat := 11

/-- The power domain that holds the registers of block n ("Subsystems", chapter 2). -/
def blockDomain (n : Nat) : Nat :=
  match n with
  | 0 | 1 | 17 => domAon
  | 2 | 5 => domPlan
  | 3 | 4 => domCore
  | 6 => domRing
  | 7 | 9 => domAnlg
  | 8 => domGate
  | 10 => domDram
  | 11 | 12 | 15 => domSafa
  | 13 | 14 => domHost
  | _ => domMtr

/-- Power-stage states (SUP.MODE.PWR). -/
def pwrStopped : Nat := 0
def pwrPrecharge : Nat := 1
def pwrRun : Nat := 2
def pwrRide : Nat := 3
def pwrSafeStop : Nat := 4

def State.pwr (s : State) : Nat := s.fget F.SUP_MODE_PWR

/-- Is the power stage PRECHARGE, RUN or RIDE_THROUGH? -/
def State.running (s : State) : Bool := s.pwr == pwrPrecharge || s.pwr == pwrRun || s.pwr == pwrRide

/-- Does the main oscillator run within its band, and is the spare able to lock to it (R213, R216)? -/
def State.mainUp (s : State) : Bool := decide (s.clk.mainBack ≤ s.ticks)
def State.spareUp (s : State) : Bool := decide (s.clk.spareBack ≤ s.ticks)

/-- The islands that CLK derives from the main oscillator have stopped with it (R214). -/
def State.oscStopped (s : State) : Bool := !s.mainUp && !s.flag F.CLK_STAT_ACTIVE

/-- The stop instant of the stop in progress is past: cells and legs stay off (R24). -/
def State.stopReached (s : State) : Bool := s.sup.stop.any (·.reached)

/-- RUN or RIDE_THROUGH. -/
def State.runOrRide (s : State) : Bool := s.pwr == pwrRun || s.pwr == pwrRide

/-- Code of a requester in SUP.REFUSE.REQUESTER, TAKE.STATh.OWNER and MTR.CMDRES.REQ. -/
def reqCode (r : Requester) : Nat :=
  match r with
  | .host h => h.val + 1
  | .core n => 0x10 + n.val
  | .unit => 0x20

/-- Members of a 40-bit cell mask. -/
def maskCells (m : BitVec 40) : List CellId := (List.finRange 40).filter (fun k => m.getLsbD k.val)

/-- Mask of a register pair, low word and high byte. -/
def State.mask40 (s : State) (l h : Fld) : BitVec 40 := BitVec.ofNat 40 (s.fget l + 2 ^ 32 * s.fget h)

/-- A register pair set from a 40-bit mask. -/
def State.setMask40 (s : State) (l h : Fld) (m : BitVec 40) : State :=
  (s.fset l m.toNat).fset h (m.toNat / 2 ^ 32)

/-- Cells of a ring that are admitted (RING.ADMLx, RING.ADMHx). -/
def State.admitted (s : State) (x : RingId) : BitVec 40 := s.mask40 (F.RING_ADML_MASK x) (F.RING_ADMH_MASK x)

/-- Words set in a pair of registers from an instant's RTIME. -/
def State.setTime48 (s : State) (l h : Fld) (t : BitVec 48) : State :=
  (s.fset l t.toNat).fset h (t.toNat / 2 ^ 32)

def State.getTime48 (s : State) (l h : Fld) : BitVec 48 := BitVec.ofNat 48 (s.fget l + 2 ^ 32 * s.fget h)

/-- W of R159: the largest PLAN.WLATx, in ticks. -/
def State.wWorst (s : State) : Nat := (List.range 3).foldl (fun m x => max m (s.fget (F.PLAN_WLAT_LAT x))) 0 * 64

/-- The effective horizon of R159, in ticks. -/
def State.hEff (s : State) : Nat := max (s.fget F.PLAN_HORIZON_HZ * 64) (s.wWorst + 2 * us)

/-- A fold over a list of parts. -/
def State.each {α : Type} (s : State) (l : List α) (f : α → State → State) : State := l.foldl (fun s a => f a s) s

end Sys2Proof.Machine
end

