-- ==== Sys2Proof/Machine/Wire.lean ====
section
/-!
DEFINITION. The line coding of the data lanes (R199, R201), the blocks and frames of L0 and L1 with their checks (R231 to
R236, R366, R504), what a transmitter sends in every position of the ring cycle (R202, R237), and the heartbeat word (R227).
-/

namespace Sys2Proof.Machine

/-- Sync headers of a data block and of a control block (R199). -/
def headData : BitVec 2 := 0b01
def headCtl : BitVec 2 := 0b10

/-- The scrambler 1 + x^39 + x^58 (R199): each bit that leaves is the payload bit with the bits that left 39 and 58 places
before it; `h` holds the last 58 of those, the latest in bit 57. -/
def scrambleBit (h : BitVec 58) (b : Bool) : BitVec 58 × Bool :=
  let o := b ^^ h.getLsbD 19 ^^ h.getLsbD 0
  ((h >>> 1) ||| (if o then BitVec.twoPow 58 57 else 0), o)

/-- A 64-bit payload scrambled, bit 0 first. -/
def scramble (h : BitVec 58) (x : BitVec 64) : BitVec 64 × BitVec 58 :=
  (List.range 64).foldl (fun a i =>
    let r := scrambleBit a.2 (x.getLsbD i)
    (if r.2 then a.1 ||| BitVec.twoPow 64 i else a.1, r.1)) (0, h)

/-- The payload that a scrambled one carries, from the 58 lane bits before it, and the last 58 after it. -/
def descramble (h : BitVec 58) (x : BitVec 64) : BitVec 64 × BitVec 58 :=
  let all : BitVec 122 := x ++ h
  (x ^^^ (all >>> 19).setWidth 64 ^^^ all.setWidth 64, (all >>> 64).setWidth 58)

/-- A transmitter's blocks as they stand on the lane (R199). -/
def lineBlocks (h : BitVec 58) : List LaneBlock → List LineBlock × BitVec 58
  | [] => ([], h)
  | b :: t =>
    let x := scramble h b.bits
    let r := lineBlocks x.2 t
    (⟨b.pos, if b.ctl then headCtl else headData, x.1⟩ :: r.1, r.2)

/-- What a receiver takes from the lane: the blocks with a valid header, the number of invalid headers, whose blocks it
discards (R201), and its descrambler's state. -/
def unline (h : BitVec 58) : List LineBlock → List LaneBlock × Nat × BitVec 58
  | [] => ([], 0, h)
  | b :: t =>
    let x := descramble h b.body
    let r := unline x.2 t
    if b.head = headData then (⟨b.pos, false, x.1⟩ :: r.1, r.2)
    else if b.head = headCtl then (⟨b.pos, true, x.1⟩ :: r.1, r.2)
    else (r.1, r.2.1 + 1, r.2.2)

/-- Block types (R233). -/
def typIdle : Nat := 0x33
def typEpoch : Nat := 0x4B
def typClap : Nat := 0x55
def typSumm : Nat := 0x5A
def typSched : Nat := 0x66
def typTset : Nat := 0x69
def typCellcmd : Nat := 0x78
def typEnum : Nat := 0x87
def typStop : Nat := 0x96
def typRegrq : Nat := 0x99
def typTlm : Nat := 0xA5
def typEvt : Nat := 0xAA
def typClapr : Nat := 0xB4
def typRegrsp : Nat := 0xC3
def typCapd : Nat := 0xCC

/-- Block types of P7 (R504) and CREDIT of P6 (R499). -/
def typPclap : Nat := 0xE7
def typPtime : Nat := 0xED
def typCredit : Nat := 0xE1

/-- Type of a control block: its bits 7 to 0 (R232). -/
def blockType (b : BitVec 64) : Nat := b.toNat % 256

/-- Data blocks that follow a control block on a ring port; none for a type that R233 does not list. -/
def blockData (b : BitVec 64) : Option Nat :=
  let t := blockType b
  if t = typIdle ∨ t = typEpoch ∨ t = typClap ∨ t = typTset ∨ t = typCellcmd ∨ t = typEnum ∨ t = typStop then some 0
  else if t = typSumm then some 5
  else if t = typSched then some (2 * (b.toNat / 256 % 16))
  else if t = typRegrq ∨ t = typRegrsp then some 1
  else if t = typEvt ∨ t = typClapr then some 2
  else if t = typTlm then some 3
  else if t = typCapd then some 7
  else none

/-- The same on P7 (R504) and on P6 (R499). -/
def peerData (b : BitVec 64) : Option Nat :=
  let t := blockType b
  if t = typIdle ∨ t = typEpoch ∨ t = typPclap then some 0 else if t = typPtime then some 1 else none
def creditData (b : BitVec 64) : Option Nat :=
  let t := blockType b
  if t = typIdle ∨ t = typEpoch ∨ t = typCredit then some 0 else none

/-- A control block from its type and its bits 55 to 8, with the CRC-8 of bytes 0 to 6 (R231, R232). -/
def ctlBlock (typ fields : Nat) : BitVec 64 :=
  let low := typ % 256 + fields % 2 ^ 48 * 256
  BitVec.ofNat 64 (low + (crc8 (bytesLE 7 low)).toNat * 2 ^ 56)

/-- Does a receiver keep a control block: its type listed and its CRC-8 good (R232)? `lists` gives the types of the link. -/
def ctlOk (lists : BitVec 64 → Option Nat) (b : BitVec 64) : Bool := (lists b).isSome && (crc8 (bytesLE 7 b.toNat)).toNat == b.toNat / 2 ^ 56

/-- A frame: its control block and its data blocks. -/
abbrev Frame := List (BitVec 64)

/-- The types whose frames end in a CRC-16 (R234, R504). -/
def frameHasCrc (t : Nat) : Bool :=
  t == typTlm || t == typEvt || t == typClapr || t == typRegrq || t == typRegrsp || t == typCapd ||
    t == typPtime

/-- CRC-16 over every byte of a frame before bits 63 to 48 of its last data block, in the order of transmission, without
the CRC-8 byte (R234). -/
def frameCrc (f : Frame) : BitVec 16 :=
  match f with
  | [] => 0xFFFF
  | c :: t => crc16 ((bytesLE 7 c.toNat ++ t.flatMap fun d => bytesLE 8 d.toNat).take (8 * f.length - 3))

/-- A frame closed with its CRC-16. -/
def closeFrame (f : Frame) : Frame :=
  match f.getLast? with
  | some d => f.dropLast ++ [BitVec.ofNat 64 (d.toNat % 2 ^ 48 + (frameCrc f).toNat * 2 ^ 48)]
  | none => f

/-- Does a complete frame pass its CRC-16, if its type carries one? -/
def frameOk (f : Frame) : Bool :=
  match f with
  | [] => false
  | c :: t => !frameHasCrc (blockType c) || (frameCrc f).toNat == (t.getLast?.getD 0).toNat / 2 ^ 48

/-- Positions of the ring cycle that pause a frame in progress: 0 and 5 to 11 on L0, 0 on L1 (R235). -/
def reservedPos (lane : DataLane) (p : Nat) : Bool := p == 0 || (lane == .l0 && decide (5 ≤ p ∧ p ≤ 11))

/-- The frames in a lane's blocks, and whether a block or a frame was discarded (R232, R234, R235). `cur` is the frame in
progress, its latest block first, or nothing: a control block ends it, and a data block outside a frame is discarded. -/
def framesIn (lists : BitVec 64 → Option Nat) : Frame → List LaneBlock → List Frame × Bool
  | _, [] => ([], false)
  | cur, b :: t =>
    if b.ctl then
      if ctlOk lists b.bits then
        let cut := !cur.isEmpty
        if lists b.bits = some 0 then ([b.bits] :: (framesIn lists [] t).1, cut || (framesIn lists [] t).2)
        else ((framesIn lists [b.bits] t).1, cut || (framesIn lists [b.bits] t).2)
      else ((framesIn lists [] t).1, true)
    else
      match cur.getLast? with
      | none => ((framesIn lists [] t).1, true)
      | some c =>
        if cur.length = (lists c).getD 0 then
          if frameOk (b.bits :: cur).reverse then ((b.bits :: cur).reverse :: (framesIn lists [] t).1, (framesIn lists [] t).2)
          else ((framesIn lists [] t).1, true)
        else framesIn lists (b.bits :: cur) t

/-- The frames of a lane's blocks: the blocks of the reserved positions pause the frames of the others, and have their own. -/
def laneFrames (lists : BitVec 64 → Option Nat) (lane : DataLane) (bs : List LaneBlock) : List Frame × Bool :=
  let main := framesIn lists [] (bs.filter fun b => !reservedPos lane b.pos)
  let fixed := framesIn lists [] (bs.filter fun b => reservedPos lane b.pos)
  (main.1 ++ fixed.1, main.2 || fixed.2)

/-- Field of a block: n bits from bit a. -/
def bitsOf (b : BitVec 64) (a n : Nat) : Nat := b.toNat / 2 ^ a % 2 ^ n

/-- Block i of a frame. -/
def Frame.at_ (f : Frame) (i : Nat) : BitVec 64 := f.getD i 0

/-- Fields of a block, each its first bit and its value, as bits 55 to 8 of a control block. -/
def fieldsOf (l : List (Nat × Nat)) : Nat := l.foldl (fun m e => m + e.2 * 2 ^ (e.1 - 8)) 0

/-- Direction as EPOCH and ENUM code it. -/
def dirCode (d : Dir) : Nat := match d with | .cw => 0 | .ccw => 1

/-- The heartbeat word, sent without gaps, least significant bit first (R227). -/
def hbWord : BitVec 8 := 0xB2

/-- Cycles of the 20 MHz of I_SAFB in one baud, and in one word (R227). -/
def hbBaud : Nat := 16
def hbPeriod : Nat := 16 * hbBaud

/-- Ticks of one cycle of I_SAFB. -/
def hbTicks : Nat := 400

/-- Level of a running heartbeat driver in a cycle of I_SAFB counted from the start of a word: Manchester code, in which a
0 falls and a 1 rises at mid-bit (R227). -/
def hbLevel (cycle : Nat) : Bool :=
  let c := cycle % hbPeriod
  let bit := hbWord.getLsbD (c / (2 * hbBaud))
  if c % (2 * hbBaud) < hbBaud then !bit else bit

end Sys2Proof.Machine
end

