-- ==== Sys2Proof/Machine/Blocks.lean ====
section
/-!
DEFINITION. Which blocks carry the messages of a ring (R233, R236, R366), of P7 (R504) and of P6 (R499), and which messages
received blocks spell.
-/

namespace Sys2Proof.Machine

/-- The other direction. -/
def otherDir (d : Dir) : Dir := match d with | .cw => .ccw | .ccw => .cw

/-- EPOCH (R236): on a ring port the ring's code and the direction, on P6 and P7 RING 3 (R498, R504). -/
def epochBlock (number ring : Nat) (d : Dir) : BitVec 64 :=
  ctlBlock typEpoch (fieldsOf [(8, number), (43, ring), (45, dirCode d)])

/-- Five data blocks of a SUMM frame from the 40 slots (R236). -/
def summData (slots : List (BitVec 8)) : List (BitVec 64) :=
  (List.range 5).map fun j => BitVec.ofNat 64 (ofBytesLE ((slots.drop (8 * j)).take 8))

/-- The blocks of a message on L0 of ring x in one direction (R236). -/
def L0Msg.frame (x : RingId) (d : Dir) (m : L0Msg) : Frame :=
  match m with
  | .epoch number => [epochBlock number.toNat x.val d]
  | .summ slots => ctlBlock typSumm 0 :: summData slots
  | .clap num => [ctlBlock typClap (fieldsOf [(8, num.toNat)])]
  | .tset pos step corr =>
    [ctlBlock typTset (fieldsOf [(8, pos), (14, if step then 1 else 0), (16, unsignedOf 40 corr)])]
  | .cellCmd pos cmd arg => [ctlBlock typCellcmd (fieldsOf [(8, pos), (16, cmd.toNat), (24, arg % 2 ^ 32)])]
  | .enum count => [ctlBlock typEnum (fieldsOf [(8, count.toNat), (16, dirCode d)])]
  | .stop reason number => [ctlBlock typStop (fieldsOf [(8, reason.toNat), (16, number.toNat)])]
  | .sched r => [ctlBlock typSched (fieldsOf [(8, 1)]), (r >>> 64).setWidth 64, r.setWidth 64]
  | .regrq pos tag write addr data =>
    closeFrame [ctlBlock typRegrq (fieldsOf [(8, tag.toNat), (16, pos), (22, x.val), (24, if write then 1 else 0), (32, addr.toNat)]),
      data.setWidth 64]

/-- Position and ring of the sending cell, as TLM, EVT, CLAPR and CAPD give them. -/
def fromCell (x : RingId) (k : CellId) : List (Nat × Nat) := [(8, k.val + 1), (14, x.val)]

/-- Halfwords in one data block. -/
def halves (l : List (BitVec 16)) : BitVec 64 := BitVec.ofNat 64 (ofBytesLE (l.flatMap fun h => bytesLE 2 h.toNat))

/-- The blocks of a frame that a cell sends on L1 (R236, R366); its slot, its copy of ENUM and its clock are no such frame. -/
def CellMsg.frame (x : RingId) (k : CellId) (m : CellMsg) : Frame :=
  match m with
  | .tlm tick q status =>
    closeFrame [ctlBlock typTlm (fieldsOf (fromCell x k ++ [(16, tick % 2 ^ 40)])), halves (q.take 4), halves ((q.drop 4).take 4),
      status.setWidth 64]
  | .evt code seq time data =>
    closeFrame [ctlBlock typEvt (fieldsOf (fromCell x k ++ [(16, code.toNat), (24, seq.toNat)])), time.setWidth 64, data.setWidth 64]
  | .clapr num a b =>
    closeFrame [ctlBlock typClapr (fieldsOf (fromCell x k ++ [(16, num.toNat)])), a.setWidth 64, b.setWidth 64]
  | .regrsp tag status data addr =>
    closeFrame [ctlBlock typRegrsp (fieldsOf [(8, tag.toNat), (16, k.val + 1), (22, x.val), (24, status.toNat), (32, addr.toNat)]),
      data.setWidth 64]
  | .capd qmask epoch fseq codes =>
    closeFrame (ctlBlock typCapd (fieldsOf (fromCell x k ++ [(16, epoch.toNat)])) ::
      ((List.range 6).map fun b => halves ((codes.drop (4 * b)).take 4)) ++
      [BitVec.ofNat 64 (qmask.toNat + 2 ^ 8 * popcount qmask.toNat + 2 ^ 16 * fseq.toNat)])
  | .slot _ _ => []
  | .enum _ _ => []
  | .clockOut => []

/-- Index of the cell at a position that a frame names. -/
def cellAt (pos : Nat) : Option CellId := if h : 1 ≤ pos ∧ pos ≤ 40 then some ⟨pos - 1, by omega⟩ else none

/-- The sending cell that TLM, EVT, CLAPR and CAPD name, where they name a cell of this ring. -/
def Frame.sender (x : RingId) (f : Frame) : Option CellId :=
  if bitsOf (f.at_ 0) 14 2 = x.val then cellAt (bitsOf (f.at_ 0) 8 6) else none

/-- The cell that REGRQ and REGRSP name. -/
def Frame.target (x : RingId) (f : Frame) : Option CellId :=
  if bitsOf (f.at_ 0) 22 2 = x.val then cellAt (bitsOf (f.at_ 0) 16 6) else none

/-- The four halfwords of a data block. -/
def halvesOf (b : BitVec 64) : List (BitVec 16) := (List.range 4).map fun i => BitVec.ofNat 16 (bitsOf b (16 * i) 16)

/-- Is a frame of this type? -/
def Frame.isType (t : Nat) (f : Frame) : Bool := blockType (f.at_ 0) == t

/-- The blocks of frames, each with whether it is a control block: the first of a frame is. -/
def marked (f : Frame) : List (Bool × BitVec 64) := f.zipIdx.map fun b => (b.2 == 0, b.1)

/-- A port's blocks wait for their positions on L0 (R199, R237). A port whose transmitters are off sends nothing. -/
def State.modTx (s : State) (p : LaneId) (f : TxQueue → TxQueue) : State :=
  if (s.ports[p]).txDisable then s else { s with tx := s.tx.set p (f s.tx[p]) }

/-- CLAP waits for position 5, a leader's EPOCH on P7 for position 0, and the other blocks in their order. -/
def TxQueue.put (f : Frame) (q : TxQueue) : TxQueue :=
  if f.isType typClap then { q with clap := f.head? }
  else if f.isType typEpoch then { q with epoch := f.head? }
  else { q with frames := q.frames ++ marked f }

/-- RING hands a message to both ports of a ring (R238, R240), on whose L0 its blocks leave. -/
def State.sendL0 (s : State) (x : RingId) (m : L0Msg) : State :=
  let t := s.emit (.l0 x m)
  (t.modTx ⟨2 * x.val, by omega⟩ (TxQueue.put (m.frame x .cw))).modTx ⟨2 * x.val + 1, by omega⟩ (TxQueue.put (m.frame x .ccw))

/-- Four copies of a block go before what waits. -/
def TxQueue.putFirst (f : Frame) (q : TxQueue) : TxQueue :=
  { q with frames := (List.replicate 4 (marked f)).flatten ++ q.frames.dropWhile fun b => !b.1 }

/-- STOP leaves before what waits, in the first four positions of frames (R259); it ends a frame in progress, whose data blocks
that are left no receiver would take (R235). -/
def State.stopL0 (s : State) (x : RingId) (m : L0Msg) : State :=
  let t := { s with out := s.out ++ List.replicate 4 (Out.l0 x m) }
  (t.modTx ⟨2 * x.val, by omega⟩ (TxQueue.putFirst (m.frame x .cw))).modTx ⟨2 * x.val + 1, by omega⟩ (TxQueue.putFirst (m.frame x .ccw))

/-- A message on L0 of P7 (R504): a leader's EPOCH, which a follower passes on, waits for position 0 (R299), the rest for
positions from 5 on. -/
def State.sendPeer (s : State) (f : Frame) : State :=
  (s.emit (.peer f)).modTx 7 (TxQueue.put f)

/-- PCLAP and PTIME (R504). -/
def pclapBlock (num : BitVec 8) (count acc : Nat) : BitVec 64 :=
  ctlBlock typPclap (fieldsOf [(8, num.toNat), (16, count % 16), (20, acc % 2 ^ 32)])
def ptimeFrame (tL : BitVec 48) (h followers : Nat) (num : BitVec 8) : Frame :=
  closeFrame [ctlBlock typPtime (fieldsOf [(8, tL.toNat)]),
    BitVec.ofNat 64 (h % 2 ^ 32 + 2 ^ 32 * (followers % 16) + 2 ^ 40 * num.toNat)]

end Sys2Proof.Machine
end

