-- ==== Sys2Proof/Machine/Collect.lean ====
section
/-!
DEFINITION. What every check of the module ends in: the stop sequencer (R24, R33, R259, R530), the general log's
buffer (R450, R452), the fault collector (R425 to R436) and refused requests (R47, R48).
-/

namespace Sys2Proof.Machine

/-- L of the stop instant: the largest last measured L among the rings that hold admitted cells (R259). -/
def State.stopL (s : State) : Nat :=
  (List.finRange 3).foldl (fun m x => if s.admitted x = 0 then m else max m (s.fget (F.RING_LTOT_L x))) 0

/-- The stop instant: the first epoch start at least L + 2 µs after the first STOP (R259). -/
def State.stopInstantAt (s : State) : Nat := s.epochUp (s.ticks + s.stopL + 2 * us)

/-- Number of the epoch that begins at an instant, as EPOCH and STOP carry it (R236). -/
def State.epochNumber (s : State) (t : Nat) : BitVec 35 := BitVec.ofNat 35 ((s.rtimeAt t).toNat / epochTicks)

/-- STOP on every ring, in both directions and in each of the first four positions that are not reserved (R259). Reason 0x01
is a commanded stop, 0x02 a controlled stop. -/
def State.sendStop (s : State) (reason : BitVec 8) (t : Nat) : State :=
  if s.powered domRing then
    s.each (List.finRange 3) fun x s => s.stopL0 x (.stop reason (s.epochNumber t))
  else s

/-- A stop begins: the instant is named once, and a later stop only turns a commanded stop into one that ends in
SAFE_STOP (R530). Outside PRECHARGE, RUN and RIDE_THROUGH there is nothing to stop (R42, R430; log entry 10). -/
def State.beginStop (s : State) (safe : Bool) : State :=
  match s.sup.stop with
  | some q => { s with sup := { s.sup with stop := some { q with safe := q.safe || safe } } }
  | none =>
    if s.running then
      ({ s with sup := { s.sup with stop := some ⟨some s.stopInstantAt, safe, false⟩ } }).sendStop
        (if safe then 0x02 else 0x01) s.stopInstantAt
    else s

/-- The log buffer holds 1,024 records (R452). -/
def logCapacity : Nat := 1024

/-- Do two LOW records have the same TYPE and, for FAULT, the same source (R452)? -/
def logSameKind (a b : LogEntry) : Bool :=
  !b.high && a.kind == b.kind && (a.kind != 0x01 || (a.w2 >>> 48) &&& 0x1FF == (b.w2 >>> 48) &&& 0x1FF)

/-- A buffered record takes one more occurrence: its COUNT saturates at 65,535 and its word 3 takes the new RTIME. -/
def logJoin (b e : LogEntry) : LogEntry := { b with count := min (b.count + 1) 65535, w3 := e.w3 }

/-- The first record that joins is replaced by its joined form. -/
def joinFirst (e : LogEntry) : List LogEntry → List LogEntry
  | [] => []
  | b :: t => if logSameKind e b then logJoin b e :: t else b :: joinFirst e t

/-- The list without its oldest LOW record. -/
def dropFirstLow : List LogEntry → List LogEntry
  | [] => []
  | b :: t => if b.high then b :: dropFirstLow t else t

/-- The buffer with a record stored, and MEM.LOG.LEVEL to match. -/
def State.setLogBuf (s : State) (l : List LogEntry) : State :=
  ({ s with memory := { s.memory with buf := l } }).fset F.MEM_LOG_LEVEL l.length

/-- A record arrives at the log buffer (R452), with the source that this sets: 103 LOG_COALESCE or 104 LOG_DROP. -/
def State.logPush (s : State) (e : LogEntry) : State × Option Nat :=
  if s.memory.buf.length < logCapacity then (s.setLogBuf (s.memory.buf ++ [e]), none)
  else if !e.high then
    if s.memory.buf.any (fun b => logSameKind e b) then
      ((s.setLogBuf (joinFirst e s.memory.buf)).finc F.MEM_LOGCNT_COAL, some 103)
    else (s.finc F.MEM_LOGCNT_DROP, some 104)
  else if s.memory.buf.any (fun b => !b.high) then
    ((s.setLogBuf (dropFirstLow s.memory.buf ++ [e])).finc F.MEM_LOGCNT_DROP, some 104)
  else (s.finc F.MEM_LOGCNT_DROP, some 104)

/-- Sources that the tables of R425 and R505 list. -/
def connected (n : Nat) : Bool :=
  decide (n ≤ 20) || decide (32 ≤ n ∧ n ≤ 36) || decide (48 ≤ n ∧ n ≤ 53) || decide (64 ≤ n ∧ n ≤ 69) ||
  decide (72 ≤ n ∧ n ≤ 73) || decide (80 ≤ n ∧ n ≤ 84) || decide (88 ≤ n ∧ n ≤ 90) || decide (96 ≤ n ∧ n ≤ 105) ||
  decide (112 ≤ n ∧ n ≤ 114) || n == 120 || decide (124 ≤ n ∧ n ≤ 129) || decide (131 ≤ n ∧ n ≤ 133) ||
  decide (136 ≤ n ∧ n ≤ 139) || decide (144 ≤ n ∧ n ≤ 147) || n == 152 || decide (256 ≤ n ∧ n ≤ 383)

/-- Sources of kind L (R425, R505). -/
def levelKind (n : Nat) : Bool := decide (n ≤ 12) || decide (112 ≤ n ∧ n ≤ 114) || n == 131 || n == 139

/-- Source numbers (R425, R505). -/
def srcOsc : Nat := 13
def srcDll : Nat := 14
def srcXing : Nat := 15
def srcModeRefused : Nat := 16
def srcParamRange : Nat := 17
def srcTakeOutside : Nat := 18
def srcLockedWrite : Nat := 19
def srcTakeCut : Nat := 20
def srcResidue : Nat := 32
def srcCoreTrap : Nat := 33
def srcCoreMemUe : Nat := 34
def srcCoreHalt : Nat := 35
def srcCoreOverrun : Nat := 36
def srcEmitRes : Nat := 48
def srcEmitQty : Nat := 49
def srcDeadlineMiss : Nat := 50
def srcSchedCrc : Nat := 51
def srcPlanStale : Nat := 52
def srcHorizonShort : Nat := 53
def srcRingCrc : Nat := 64
def srcRingLink : Nat := 65
def srcRingTrain : Nat := 66
def srcRingTime : Nat := 67
def srcRingEnum : Nat := 68
def srcEvtOvf : Nat := 69
def srcPeerTime : Nat := 72
def srcPeerLost : Nat := 73
def srcBrgCrc : Nat := 80
def srcBrgTrip : Nat := 81
def srcGateUvlo : Nat := 82
def srcGateDesat : Nat := 83
def srcGateOc : Nat := 84
def srcAdcTag : Nat := 88
def srcAdcDma : Nat := 89
def srcAdcRef : Nat := 90
def srcScrubSlow : Nat := 102
def srcLogTorn : Nat := 105
def srcThermWarn : Nat := 112
def srcThermThrottle : Nat := 113
def srcThermSensor : Nat := 114
def srcMtrFault : Nat := 120
def srcSafeDemand : Nat := 124
def srcSafeFault : Nat := 125
def srcSafeLane : Nat := 126
def srcFltSelf : Nat := 127
def srcHostAuth : Nat := 128
def srcHostReplay : Nat := 129
def srcHostLink : Nat := 131
def srcHostEvtOvf : Nat := 132
def srcHostKey : Nat := 133
def srcStrmOvf : Nat := 136
def srcStrmCredit : Nat := 137
def srcStrmHalt : Nat := 138
def srcStrmLink : Nat := 139
def srcUpdVerify : Nat := 144
def srcUpdLapse : Nat := 145
def srcUpdUnconf : Nat := 146
def srcUpdReject : Nat := 147
def srcStoreCrc : Nat := 152
/-- CELL_FAIL of the cell at index k of ring x. -/
def srcCellFail (x : RingId) (k : CellId) : Nat := 256 + 40 * x.val + k.val

/-- Is a source's sticky bit set? -/
def State.sticky (s : State) (n : Nat) : Bool := (s.word (A.FLT_STICKY (n / 32))).getLsbD (n % 32)

def State.setSticky (s : State) (n : Nat) : State :=
  s.setWord (A.FLT_STICKY (n / 32)) (s.word (A.FLT_STICKY (n / 32)) ||| (1 : Word) <<< (n % 32))

/-- The 4-bit reaction field of a source (R430). -/
def State.reaction (s : State) (n : Nat) : BitVec 4 :=
  (s.word (A.FLT_REACT (n / 8))).extractLsb' (4 * (n % 8)) 4

/-- The history queue of a privileged source (R434). -/
def State.histOf (s : State) (n : Nat) : Option HistId :=
  (List.finRange 16).find? (fun k => s.fget (F.FLT_PSEL_SRC k) == n)

/-- Does the I_RTIME crossing deliver no value (R436)? -/
def State.rtimeLost (s : State) : Bool := !s.powered domPlan || s.sup.islandStop

/-- An occurrence of a privileged source enters its 8-deep queue; on a full queue the oldest entry goes and LOST
advances (R435). -/
def State.pushHist (s : State) (n : Nat) : State :=
  match s.histOf n with
  | none => s
  | some k =>
    let q := s.flt.hist[k]
    let e : HistEntry := ⟨s.rtime, s.rtimeLost⟩
    if q.length < 8 then { s with flt := { s.flt with hist := s.flt.hist.set k (q ++ [e]) } }
    else { s with flt := { s.flt with hist := s.flt.hist.set k (q.drop 1 ++ [e]), lost := s.flt.lost.set k (s.flt.lost[k] + 1) } }

/-- FAULT_N goes low for at least 5 µs after the last PIN reaction (R432). -/
def State.pinReact (s : State) : State :=
  (({ s with flt := { s.flt with pulseEnd := s.ticks + 5 * us } }).fset F.FLT_PIN_PULSE 1).fset F.FLT_PIN_LEVEL 0

/-- One EVENT datagram to every port that has a session; a port that holds 64 unsent ones drops it (R483). The answer
says whether some port dropped it. -/
def State.hostEvent (s : State) (n : Nat) : State × Bool :=
  (List.finRange 3).foldl (fun (acc : State × Bool) h =>
    let (s, lost) := acc
    let p := s.host[h]
    if p.session = none ∨ !s.powered domHost then (s, lost)
    else if p.evQueue.length < 64 then
      ((s.modHost h fun p => { p with evCount := p.evCount + 1, evQueue := p.evQueue ++ [(n, s.rtime)] }).emit
        (.event h (p.evCount + 1) n s.rtime), lost)
    else (s.fset F.HOST_STAT_EVTOVF 1, true)) (s, false)

/-- The FAULT record of a source (R450): HIGH for a privileged source. -/
def State.faultEntry (s : State) (n : Nat) (high : Bool) : LogEntry where
  ltime := s.ltime
  kind := 0x01
  high := high
  count := 1
  w2 := BitVec.ofNat 64 ((if s.rtimeLost then 2 ^ 63 else 0) + n * 2 ^ 48 + s.rtime.toNat)
  w3 := BitVec.ofNat 64 s.rtime.toNat
  w4 := 0
  w5 := 0
  w6 := 0

/-- A source's bit changes from 0 to 1 (R428, R429): FIRST and the reactions of a field, and the sources that the
reactions themselves set. -/
def State.reactWith (s : State) (n : Nat) (r : BitVec 4) : State × List Nat :=
  let s := s.setSticky n
  let s := if s.flag F.FLT_FIRST_VALID then s else (s.fset F.FLT_FIRST_SRC n).fset F.FLT_FIRST_VALID 1
  let s := if r.getLsbD 0 then s.pinReact else s
  let s := if r.getLsbD 1 then s.beginStop true else s
  let (s, lost) := if r.getLsbD 2 then s.hostEvent n else (s, false)
  let (s, more) := if r.getLsbD 3 then s.logPush (s.faultEntry n (s.histOf n).isSome) else (s, none)
  (s, (if lost then [srcHostEvtOvf] else []) ++ more.toList)

/-- The reactions that a source's own field selects (R430). -/
def State.react (s : State) (n : Nat) : State × List Nat := s.reactWith n (s.reaction n)

/-- An event reaches FLT (R426 to R431, R435). The sources that reactions set in turn are bounded by the fuel: a chain
is at most LOG_COALESCE or LOG_DROP and HOST_EVT_OVF behind the first source. -/
def State.raiseN : Nat → Nat → State → State
  | 0, _, s => s
  | k + 1, n, s =>
    if connected n && s.powered domSafa then
      let s := s.pushHist n
      if s.sticky n then s
      else
        let (s, more) := s.react n
        more.foldl (fun s m => State.raiseN k m s) s
    else s

/-- An event of a source occurs. -/
def State.raise (s : State) (n : Nat) : State := State.raiseN 4 n s

/-- The condition of a source of kind L begins or ends (R426). -/
def State.setCond (s : State) (n : Nat) (on : Bool) : State :=
  if on then
    if s.flt.cond.getLsbD n then s
    else ({ s with flt := { s.flt with cond := s.flt.cond ||| (1 : BitVec 384) <<< n } }).raise n
  else { s with flt := { s.flt with cond := s.flt.cond &&& ~~~((1 : BitVec 384) <<< n) } }

/-- A record enters the log buffer, and the source that this sets occurs (R452). The log writer lies in SAFA. -/
def State.log (s : State) (e : LogEntry) : State :=
  if s.powered domSafa then
    let (s, more) := s.logPush e
    match more with
    | some n => s.raise n
    | none => s
  else s

/-- A record with PRIO HIGH and the data words given (R450). -/
def State.logHigh (s : State) (kind : BitVec 8) (w2 w3 : Nat) : State :=
  s.log ⟨s.ltime, kind, true, 1, BitVec.ofNat 64 w2, BitVec.ofNat 64 w3, 0, 0, 0⟩

/-- Refusal codes (R48). -/
def refSafety : Nat := 1
def refOrder : Nat := 2
def refThermal : Nat := 3
def refUpdate : Nat := 4
def refMemmode : Nat := 5
def refRing : Nat := 6
def refState : Nat := 7
def refDomain : Nat := 8

/-- A refused request: MODE_REFUSED, the record in SUP.REFUSE and the answer to its requester (R47). -/
def State.refuse (s : State) (req : Requester) (who axis value code : Nat) : State :=
  (((((((s.finc F.SUP_REFUSE_COUNT).fset F.SUP_REFUSE_REQUESTER who).fset F.SUP_REFUSE_AXIS axis).fset
    F.SUP_REFUSE_REQ value).fset F.SUP_REFUSE_CODE code).emit (.refusal req (BitVec.ofNat 8 code))).raise srcModeRefused)

end Sys2Proof.Machine
end

