-- ==== Sys2Proof/Machine/Memory.lean ====
section
/-!
DEFINITION. The three memories behind the module's address map (R39, R40), their error correction (R441 to R445) and
what records an error.
-/

namespace Sys2Proof.Machine

/-- What an unlisted byte of memory reads as (log entry 5). -/
def memDefault : Byte := 0

/-- Memory-protection mode in force: BYTE when SUP.MODE.MEM is 1. -/
def State.byteMode (s : State) : Bool := s.flag F.SUP_MODE_MEM

/-- Size of the script SRAM in the mode in force (R39). -/
def State.sramSize (s : State) : Nat := if s.byteMode then 0x400000 else 0x800000

/-- The memory that an address belongs to, by its region of R39. -/
def memOf (a : Nat) : Option MemKind :=
  if a < 0x800000 then some .sram
  else if 0x10000000 ≤ a ∧ a < 0x12000000 then some .mram
  else if 0x80000000 ≤ a ∧ a < 0xC0000000 then some .dram
  else none

/-- MEM.UESRC.MEM code. -/
def memCode (m : MemKind) : Nat :=
  match m with
  | .sram => 0
  | .mram => 1
  | .dram => 2

/-- May the bytes from `a` be read (R39, R40, R448, R449, R470)? Their memory is powered, SRAM is not being initialised,
and neither the key store nor the MTR partition is touched. -/
def State.memReadable (s : State) (a n : Nat) : Bool :=
  match memOf a with
  | some .sram => decide (a + n ≤ s.sramSize) && s.powered domCore && !s.flag F.MEM_STAT_INIT
  | some .mram =>
    decide (a + n ≤ 0x11600000) && s.powered domSafa && !decide (a < 0x10801000 ∧ 0x10800000 < a + n)
  | some .dram => decide (a + n ≤ 0xC0000000) && s.powered domDram
  | none => false

/-- May the bytes from `a` be written through the window? As for reading, and the image region is closed (R484). -/
def State.memWritable (s : State) (a n : Nat) : Bool :=
  s.memReadable a n && !decide (0x10000000 ≤ a ∧ a < 0x10800000)

/-- First byte of the check word of a byte. -/
def State.checkWord (s : State) (a : Nat) : Nat :=
  if a < 0x800000 ∧ s.byteMode then a else a / 8 * 8

/-- Check words that n bytes from `a` touch. -/
def State.checkWords (s : State) (a n : Nat) : List Nat :=
  ((List.range n).map (fun i => s.checkWord (a + i))).eraseDups

/-- The error state of a check word. -/
def eccAt (l : List (Nat × Ecc)) (a : Nat) : Option Ecc := (l.find? (fun e => e.1 == a)).map (·.2)

def eccClear (l : List (Nat × Ecc)) (a : Nat) : List (Nat × Ecc) := l.filter (fun e => e.1 != a)

/-- One byte of memory. -/
def State.byte (s : State) (a : Nat) : Byte := sparseGet memDefault s.mem a

/-- One byte replaced. -/
def State.setByte (s : State) (a : Nat) (b : Byte) : State := { s with mem := sparseSet memDefault s.mem a b }

/-- n bytes as a number, least significant first (R7). -/
def State.peek (s : State) (a n : Nat) : Nat := ofBytesLE ((List.range n).map (fun i => s.byte (a + i)))

/-- Bytes stored from an address. -/
def State.poke (s : State) (a : Nat) : List Byte → State
  | [] => s
  | b :: t => (s.setByte a b).poke (a + 1) t

/-- A corrected error of a memory: its source and its count (R443). -/
def State.recordCe (s : State) (m : MemKind) : State :=
  match m with
  | .sram => (s.finc F.MEM_CECNT0_SRAM).raise 96
  | .mram => (s.finc F.MEM_CECNT1_MRAM).raise 98
  | .dram => (s.finc F.MEM_CECNT0_DRAM).raise 100

/-- An uncorrectable error: its source, MEM.UEADDR, MEM.UESRC, MEM.UECNT, MEM.STAT.UE and the MEM_UE record (R444). -/
def State.recordUe (s : State) (m : MemKind) (a who : Nat) : State :=
  let s := s.finc (match m with | .sram => F.MEM_UECNT_SRAM | .mram => F.MEM_UECNT_MRAM | .dram => F.MEM_UECNT_DRAM)
  let s := (((s.fsetBit F.MEM_STAT_UE (memCode m)).fset F.MEM_UEADDR_ADDR a).fset F.MEM_UESRC_REQ who).fset F.MEM_UESRC_MEM (memCode m)
  let s := s.raise (97 + 2 * memCode m)
  s.logHigh 0x07 (s.word A.MEM_UEADDR).toNat (s.word A.MEM_UESRC).toNat

/-- One check word is read by a requester: none where it is uncorrectable. A corrected word waits for its write-back. -/
def State.checkRead (s : State) (m : MemKind) (who : Nat) (w : Nat) : State × Bool :=
  match eccAt s.ecc w with
  | none => (s, true)
  | some .ce => (({ s with memory := { s.memory with wb := if s.memory.wb.contains w then s.memory.wb else s.memory.wb ++ [w] } }).recordCe m, true)
  | some .ue => (s.recordUe m w who, false)

/-- Every check word of an access is read. -/
def State.checkReads (s : State) (m : MemKind) (who : Nat) (ws : List Nat) : State × Bool :=
  ws.foldl (fun (acc : State × Bool) w =>
    let (s, ok) := acc
    let (s', ok') := s.checkRead m who w
    (s', ok && ok')) (s, true)

/-- n bytes read by a requester (by its code): none is a bus error. Only memories answer: the manual does not say whether the
block commands MEM_READ and MEM_WRITE reach the register space, and the model answers them with a bus error for every register
address, an aligned one of 4 bytes too (DESIGN CHOICE, log entry 51). -/
def State.memRead (s : State) (who a n : Nat) : Option Nat × State :=
  match memOf a with
  | none => (none, s)
  | some m =>
    if s.memReadable a n then
      let (s, ok) := s.checkReads m who (s.checkWords a n)
      if ok then (some (s.peek a n), s) else (none, s)
    else (none, s)

/-- A check word is about to take part of its bytes, or all of them: the merge of R442, or a plain replacement. -/
def State.checkWrite (s : State) (m : MemKind) (who : Nat) (a n w : Nat) : State × Bool :=
  let whole := decide (a ≤ w ∧ w + 8 ≤ a + n) || (decide (w < 0x800000) && s.byteMode)
  let (s, ok) :=
    if whole then (s, true)
    else match eccAt s.ecc w with
      | none => (s, true)
      | some .ce => (s.recordCe m, true)
      | some .ue => (s.recordUe m w who, false)
  if ok then
    ({ s with ecc := eccClear s.ecc w, memory := { s.memory with wb := s.memory.wb.filter (· != w) } }, true)
  else (s, false)

/-- Bytes of the check word that begins at an address. -/
def State.checkSize (s : State) (w : Nat) : Nat := if w < 0x800000 ∧ s.byteMode then 1 else 8

/-- Those of the bytes for `a` onwards that lie in one check word are stored. -/
def State.pokeWord (s : State) (a : Nat) (bytes : List Byte) (w : Nat) : State :=
  s.poke (max a w) ((bytes.drop (w - a)).take (w + s.checkSize w - max a w))

/-- One check word of a store is checked and written; after a failed merge no further word is (R442). -/
def State.storeWord (m : MemKind) (who a : Nat) (bytes : List Byte) (acc : State × Bool) (w : Nat) : State × Bool :=
  if acc.2 then
    let (s, ok) := acc.1.checkWrite m who a bytes.length w
    if ok then (s.pokeWord a bytes w, true) else (s, false)
  else acc

/-- Bytes written without the window's own restrictions: by the log writer, the update commands and the module itself. Check
words are written in the order of their addresses; a merge that meets an uncorrectable error writes nothing and ends the
store, and the words before it stay written (R442, R445). -/
def State.memStore (s : State) (who a : Nat) (bytes : List Byte) : State × Bool :=
  match memOf a with
  | none => (s, false)
  | some m =>
    if s.memReadable a bytes.length then (s.checkWords a bytes.length).foldl (State.storeWord m who a bytes) (s, true)
    else (s, false)

/-- Bytes written by a requester: false is a bus error. A register address is one (log entry 51). -/
def State.memWrite (s : State) (who a : Nat) (bytes : List Byte) : State × Bool :=
  if s.memWritable a bytes.length then s.memStore who a bytes else (s, false)

end Sys2Proof.Machine
end

