-- ==== Sys2Proof/Machine/Bfp.lean ====
section
/-!
DEFINITION. Exact values and the stage of block floating point: SF words (R57, R62), alignment, comparison, rounding and
renormalisation (R59 to R61), with the residue that every value carries (R63, R64).
-/

namespace Sys2Proof.Machine

/-- An exact value m · 2^e with the residue that the datapath predicts for m (R64). -/
structure Ev where
  m : Int
  e : Int
  r : Nat
  deriving DecidableEq, Repr

/-- The residue of an integer: its remainder modulo 7, from 0 to 6 (R63). -/
def residue (v : Int) : Nat := (v % 7).toNat

/-- The residue of a 32-bit word read as a signed integer (R63). -/
def wordResidue (w : Word) : BitVec 3 := BitVec.ofNat 3 (residue w.toInt)

/-- 2^k modulo 7: 1, 2 or 4 for k mod 3 equal to 0, 1 or 2. -/
def pow2Mod7 (k : Nat) : Nat := 2 ^ (k % 3)

/-- Does the predicted residue match the value's own? -/
def Ev.ok (x : Ev) : Bool := decide (residue x.m = x.r % 7)

/-- The value at a smaller exponent: an exact shift left, which multiplies the residue (R64). -/
def Ev.alignTo (x : Ev) (e : Int) : Ev :=
  ⟨x.m * (2 ^ (x.e - e).toNat : Nat), e, x.r * pow2Mod7 (x.e - e).toNat % 7⟩

def Ev.zero : Ev := ⟨0, 0, 0⟩

/-- An integer with its own residue. -/
def Ev.ofInt (v : Int) : Ev := ⟨v, 0, residue v⟩

def Ev.add (x y : Ev) : Ev :=
  let e := min x.e y.e
  ⟨(x.alignTo e).m + (y.alignTo e).m, e, ((x.alignTo e).r + (y.alignTo e).r) % 7⟩

def Ev.neg (x : Ev) : Ev := ⟨-x.m, x.e, (7 - x.r % 7) % 7⟩

def Ev.sub (x y : Ev) : Ev := x.add y.neg

def Ev.mul (x y : Ev) : Ev := ⟨x.m * y.m, x.e + y.e, x.r * y.r % 7⟩

def Ev.abs (x : Ev) : Ev := if x.m < 0 then x.neg else x

/-- Multiplication by 2^k changes only the exponent. -/
def Ev.scale (x : Ev) (k : Int) : Ev := ⟨x.m, x.e + k, x.r⟩

/-- Exact comparison. -/
def Ev.lt (x y : Ev) : Bool :=
  let e := min x.e y.e
  decide ((x.alignTo e).m < (y.alignTo e).m)

def Ev.le (x y : Ev) : Bool := !(y.lt x)

def Ev.min (x y : Ev) : Ev := if y.lt x then y else x
def Ev.max (x y : Ev) : Ev := if x.lt y then y else x

/-- sat(x, lo, hi) of chapter 0. -/
def Ev.clamp (x lo hi : Ev) : Ev := (x.max lo).min hi

/-- n / d rounded to the nearest integer, ties to even; d at least 1. -/
def divHalfEven (n d : Int) : Int :=
  let q := n / d
  let r2 := 2 * (n % d)
  if r2 < d then q else if d < r2 then q + 1 else if q % 2 = 0 then q else q + 1

/-- m · 2^k rounded to the nearest integer, ties to even (R59). -/
def roundHalfEven (m : Int) (k : Int) : Int := if 0 ≤ k then m * (2 ^ k.toNat : Nat) else divHalfEven m (2 ^ (-k).toNat : Nat)

/-- Largest and smallest mantissa: 2^23 − 1 and −2^23. -/
def mantMax : Int := 8388607
def mantMin : Int := -8388608

/-- A value rounded at result exponent e: x · 2^(23 − e). -/
def Ev.at (x : Ev) (e : Int) : Int := roundHalfEven x.m (x.e + 23 - e)

/-- Does a value fit a 24-bit mantissa at exponent e? -/
def Ev.fits (x : Ev) (e : Int) : Bool := decide (mantMin ≤ x.at e ∧ x.at e ≤ mantMax)

/-- Exponents from −128 to 127, in rising order. -/
def exponents : List Int := (List.range 256).map (fun k : Nat => (k : Int) - 128)

/-- The result exponent: the smallest one at which every lane fits (R59), or none (R60). -/
def stageExp (xs : List Ev) : Option Int := exponents.find? (fun e => xs.all (fun x => x.fits e))

/-- The outcome of one stage: the exponent, the mantissas, and whether it saturated. -/
structure StageOut where
  exp  : Int
  mant : List Int
  sat  : Bool
  deriving DecidableEq, Repr

/-- One stage (R59, R60). -/
def stage (xs : List Ev) : StageOut :=
  match stageExp xs with
  | some e => ⟨e, xs.map (fun x => x.at e), false⟩
  | none => ⟨127, xs.map (fun x => clampInt mantMin mantMax (x.at 127)), true⟩

/-- The value of an SF word m × 2^(e − 23), with the residue of its register (R57, R62). The word's own residue is of all
32 bits, so the mantissa's follows from it and the exponent bits: w = 256 m + e', with e' unsigned. -/
def sfValue (w : Word) (r : BitVec 3) : Ev :=
  let m : Int := signedOf 24 (w.toNat / 256)
  let e : Int := signedOf 8 (w.toNat % 256)
  ⟨m, e - 23, ((r.toNat + 7 * 256 - w.toNat % 256) * 2) % 7⟩

/-- The packed SF word of a mantissa and an exponent. -/
def sfPack (m e : Int) : Word := BitVec.ofNat 32 (unsignedOf 24 m * 256 + unsignedOf 8 e)

/-- An SF result (R62): one stage with one lane. -/
def sfResult (x : Ev) : Word × Bool :=
  let o := stage [x]
  (sfPack (o.mant.headD 0) o.exp, o.sat)

/-- Lane i of a vector register (R57). -/
def VReg.lane (v : VReg) (i : Fin 48) : Ev :=
  ⟨(v.mant[i]).toInt, v.exp.toInt - 23, (v.res[i]).toNat⟩

/-- The lanes of a vector register. -/
def VReg.lanes (v : VReg) : List Ev := (List.finRange 48).map v.lane

/-- The residue of a 24-bit mantissa. -/
def mantResidue (m : BitVec 24) : BitVec 3 := BitVec.ofNat 3 (residue m.toInt)

/-- A vector register from an exponent and 48 mantissas. -/
def VReg.ofMants (e : Int) (ms : List Int) : VReg :=
  let mv : Vector (BitVec 24) 48 := Vector.ofFn (fun i => BitVec.ofInt 24 (ms.getD i.val 0))
  ⟨BitVec.ofInt 8 e, mv, mv.map mantResidue⟩

/-- A stage over 48 lanes into a vector register, and whether it saturated. -/
def VReg.ofStage (xs : List Ev) : VReg × Bool :=
  let o := stage xs
  (VReg.ofMants o.exp o.mant, o.sat)

/-- The value rounded to the nearest integer, ties to even. -/
def Ev.toNearest (x : Ev) : Int := roundHalfEven x.m x.e

end Sys2Proof.Machine
end

