-- ==== Sys2Proof/Machine/RegRules.lean ====
section
/-!
DEFINITION. What a register write may hold and when it takes effect: LIVE values that wait for their block's boundary
(R8), the ranges of single fields, and the rules that limit a combination of fields (R135).
-/

namespace Sys2Proof.Machine

/-- The LIVE bits of a register. -/
def rwMask (a : Nat) : Word :=
  match findReg a with
  | some (r, _) => r.mask (· == .rw)
  | none => 0

/-- A word with the LIVE bits of another. -/
def mergeLive (a : Nat) (cur new : Word) : Word := (cur &&& ~~~rwMask a) ||| (new &&& rwMask a)

/-- The value a register will hold once its pending LIVE value is in force. -/
def State.nextWord (s : State) (a : Nat) : Word :=
  match s.live.find? (fun e => e.1 == a) with
  | some e => mergeLive a (s.word a) e.2
  | none => s.word a

/-- A LIVE value waits for its boundary; a later write replaces it (R8). -/
def State.pendLive (s : State) (a : Nat) (v : Word) : State :=
  { s with live := s.live.filter (fun e => e.1 != a) ++ [(a, v)] }

/-- The boundary of a block, or of a range of it: the pending values take effect. -/
def State.applyLive (s : State) (lo hi : Nat) : State :=
  let due := s.live.filter (fun e => decide (lo ≤ e.1 ∧ e.1 < hi))
  let s := { s with live := s.live.filter (fun e => !decide (lo ≤ e.1 ∧ e.1 < hi)) }
  due.foldl (fun s e => s.setWord e.1 (mergeLive e.1 (s.word e.1) e.2)) s

/-- The boundary of a whole block. -/
def State.applyLiveBlock (s : State) (n : Nat) : State :=
  s.applyLive (0x40000000 + n * 0x10000) (0x40000000 + (n + 1) * 0x10000)

/-- A field's value lies outside the range that its description states. -/
def fieldBad (f : RField) (w : Word) : Bool :=
  match f.range with
  | none => false
  | some (lo, hi) =>
    let n := (w.extractLsb' f.lo (f.hi - f.lo + 1)).toNat
    let v : Int := if lo < 0 then signedOf (f.hi - f.lo + 1) n else n
    decide (v < lo ∨ hi < v)

def isCmpCtl (a : Nat) : Bool := decide (0x40020088 ≤ a ∧ a < 0x40020108 ∧ a % 0x10 = 8)

/-- A numeric field of a register value lies outside its own range (R94, R151, R194, R275, R305, R336, R358, R368, R462,
R463, R507). -/
def staticBad (a : Nat) (w : Word) : Bool :=
  (match findReg a with
   | some (r, _) => r.fields.any (fun f => (f.acc == .rw || f.acc == .rt || f.acc == .rl || f.acc == .wo) && fieldBad f w)
   | none => false) ||
  (isCmpCtl a && decide (0 < w.toNat % 2 ^ 24 ∧ w.toNat % 2 ^ 24 < 125)) ||
  (a == A.PLAN_VBSCALE &&
    ((sfValue w (wordResidue w)).lt Ev.zero || (Ev.mk 1 0 1).lt (sfValue w (wordResidue w)))) ||
  (a == A.ADC_REF && (List.range 8).any (fun k => decide (w.toNat / 4 ^ k % 4 = 3))) ||
  (decide (0x400D0014 ≤ a ∧ a ≤ 0x400D0034 ∧ a % 0x10 = 4) &&
    (w ||| (w - 1)) != 0xFFFFFFFF)

/-- A field of a register as a lookup gives it. -/
def fieldOf (g : Nat → Word) (f : Fld) : Nat := f.get (g f.addr)

/-- R162: d × P is below PLAN.HORIZON + 2 µs. -/
def horizonBad (g : Nat → Word) : Bool :=
  decide ((fieldOf g F.PLAN_CTRL_DELAY + 1) * fieldOf g F.CORE_PERIOD_PERIOD < fieldOf g F.PLAN_HORIZON_HZ + 250)

/-- Slots of a control period given in units of 8 ns (R337). -/
def slotsOf (period : Nat) : Nat := period * 64 / 2000

/-- R347 for one group. -/
def groupBad (slots : Nat) (g : Nat → Word) (k : Nat) : Bool :=
  let nsmp := fieldOf g (F.ADC_GTIME_NSMP k) + 1
  decide (255 < popcount (fieldOf g (F.ADC_GMASK_MASK k)) * nsmp) ||
  decide (slots ≤ fieldOf g (F.ADC_GTIME_OFFS k) + (nsmp - 1) * fieldOf g (F.ADC_GTIME_SPACE k))

/-- R368: a window outside the rushes, two windows that overlap, a KIND 1 mask with bits above the quantities, or a trigger
channel that a write of CTRL places outside the mask. -/
def captBad (g : Nat → Word) (u a : Nat) : Bool :=
  let lo := fieldOf g (F.CAPT_WIN_BASE u)
  let hi := lo + fieldOf g (F.CAPT_WIN_SIZE u)
  decide (lo < 0x800 ∨ 0xB80 < hi) ||
  (List.range 4).any (fun v => v != u &&
    decide (lo < fieldOf g (F.CAPT_WIN_BASE v) + fieldOf g (F.CAPT_WIN_SIZE v) ∧ fieldOf g (F.CAPT_WIN_BASE v) < hi)) ||
  (fieldOf g (F.CAPT_CTRL_KIND u) == 1 && decide (2 ^ 8 ≤ fieldOf g (F.CAPT_MASK_MASK u))) ||
  (a == A.CAPT_CTRL u && !(fieldOf g (F.CAPT_MASK_MASK u)).testBit (fieldOf g (F.CAPT_CTRL_TCH u)))

/-- R434 for one selection. -/
def pselBad (g : Nat → Word) (k : Nat) : Bool :=
  !connected (fieldOf g (F.FLT_PSEL_SRC k)) ||
  (List.range 16).any (fun j => j != k && fieldOf g (F.FLT_PSEL_SRC j) == fieldOf g (F.FLT_PSEL_SRC k))

/-- A rule that limits a combination of fields is broken by the values that a write of register `a` leaves (R135). The
slot count is that of the control period in force. -/
def comboBad (slots : Nat) (g : Nat → Word) (a : Nat) : Bool :=
  if a = A.PLAN_HORIZON ∨ a = A.PLAN_CTRL ∨ a = A.CORE_PERIOD then horizonBad g
  else if a = A.PLAN_PAR then decide (fieldOf g F.PLAN_PAR_CNT < fieldOf g F.PLAN_PAR_IDX)
  else if a = A.TIME_PTPCFG then fieldOf g F.TIME_PTPCFG_PROFILE == 1 && fieldOf g F.TIME_PTPCFG_UDP == 1
  else if 0x40090040 ≤ a ∧ a < 0x400900C0 ∧ (a % 0x10 = 0 ∨ a % 0x10 = 4) then groupBad slots g (a % 0x10000 / 0x10 - 4)
  else if 0x400A0000 ≤ a ∧ a < 0x400A0100 ∧ a % 0x40 < 0xC then captBad g (a % 0x10000 / 0x40) a
  else if 0x400B0140 ≤ a ∧ a < 0x400B0180 then pselBad g (a % 0x10000 / 4 - 0x50)
  else if (0x40060800 ≤ a ∧ a < 0x40060980 ∨ 0x400D0800 ≤ a ∧ a < 0x400D0880) ∧ a % 0x40 = 4 then
    decide (4 < (g a).toNat / 2 ^ 8 % 8) || decide (10 < (g a).toNat / 2 ^ 8 % 8 + (g a).toNat % 16)
  else false

/-- A field's value once the pending LIVE value of its register is in force. -/
def State.fnext (s : State) (f : Fld) : Nat := fieldOf s.nextWord f

/-- A lookup with some registers replaced: the last value written to an address counts (R132). -/
def overlay (g : Nat → Word) (ws : List (Nat × Word)) (a : Nat) : Word :=
  match ws.reverse.find? (fun e => e.1 == a) with
  | some e => e.2
  | none => g a

/-- Blocks that takes may write (R149): TIME, CORE, PLAN, RING, BRG, GATE, ADC, CAPT, FLT, MEM. -/
def takeableBlock (n : Nat) : Bool := n == 2 || decide (4 ≤ n ∧ n ≤ 12)

/-- A takeable register: one of those blocks, the load window apart (R134, R149). -/
def takeable (a : Nat) : Bool :=
  (findReg a).isSome && takeableBlock (blockOf a) &&
  !decide (0x40040100 ≤ a ∧ a < 0x40040400 ∧ (a % 0x40 = 0x24 ∨ a % 0x40 = 0x28))

end Sys2Proof.Machine
end

