-- ==== Sys2Proof/Machine/TakeOps.lean ====
section
/-!
DEFINITION. Takes up to their boundary (R127 to R146): opening, writing, printing, cutting, and what TAKE reports.
-/

namespace Sys2Proof.Machine

/-- State codes of R127. -/
def takeFree : Nat := 0
def takeOpen : Nat := 1
def takePending : Nat := 2
def takePrinted : Nat := 3
def takeCut : Nat := 4

/-- Cut reasons of R146. -/
def cutConflict : Nat := 1
def cutFull : Nat := 2
def cutTimeout : Nat := 3
def cutAbandoned : Nat := 4
def cutRefused : Nat := 5

def State.takeState (s : State) (h : HandleId) : Nat := s.fget (F.TAKE_STAT_STATE h)

/-- OPEN or PENDING. -/
def State.takeActive (s : State) (h : HandleId) : Bool := s.takeState h == takeOpen || s.takeState h == takePending

/-- TAKE.WSEQ. -/
def State.wseq (s : State) : Nat := s.fget F.TAKE_WSEQL_SEQ + 2 ^ 32 * s.fget F.TAKE_WSEQH_SEQ

def State.setWseq (s : State) (v : Nat) : State := (s.fset F.TAKE_WSEQL_SEQ v).fset F.TAKE_WSEQH_SEQ (v / 2 ^ 32)

/-- Version of a register (R144). -/
def State.version (s : State) (a : Nat) : Nat := sparseGet 0 s.vers a

/-- An accepted direct write of a takeable register advances TAKE.WSEQ and becomes the register's version (R144). -/
def State.newVersion (s : State) (a : Nat) : State :=
  if takeable a then
    let v := (s.wseq + 1) % 2 ^ 48
    { s.setWseq v with vers := sparseSet 0 s.vers a v }
  else s

/-- A version is later than an open stamp: signed 48-bit difference above 0 (R145). -/
def laterThan (v stamp : Nat) : Bool := decide (0 < signedOf 48 (v + 2 ^ 48 - stamp % 2 ^ 48))

/-- Count of a cut reason in TAKE.CUTCNT. -/
def cutField (reason : Nat) : Fld :=
  match reason with
  | 1 => F.TAKE_CUTCNT_CONFLICT
  | 2 => F.TAKE_CUTCNT_FULL
  | 3 => F.TAKE_CUTCNT_TIMEOUT
  | 4 => F.TAKE_CUTCNT_ABANDONED
  | _ => F.TAKE_CUTCNT_REFUSED

/-- An OPEN or PENDING take is cut: its entries are freed, the reason counted, and TAKE_CUT set except for ABANDONED
(R131, R146). TAKE.BNDLh and TAKE.BNDHh go to 0 (DESIGN CHOICE, log entry 50: the manual does not say what they read in CUT). -/
def State.cutTake (s : State) (h : HandleId) (reason : Nat) : State :=
  if s.takeActive h then
    let s := s.modTake h fun t => { t with writes := [], instant := none }
    let s := ((s.fset (F.TAKE_STAT_STATE h) takeCut).fset (F.TAKE_STAT_REASON h) reason).finc (cutField reason)
    let s := (s.setWord (A.TAKE_BNDL h) 0).setWord (A.TAKE_BNDH h) 0
    if reason = cutAbandoned then s else s.raise srcTakeCut
  else s

/-- Every take of an owner is abandoned. -/
def State.abandonTakes (s : State) (owner : Nat) : State :=
  s.each (List.finRange 8) fun h s => if s.fget (F.TAKE_STAT_OWNER h) = owner then s.cutTake h cutAbandoned else s

/-- Every take is discarded, without a cut (R147): every handle is FREE, the results in PRINTED and CUT too (DESIGN CHOICE, log entry
53: the manual does not say what TAKE.STATh reads after a thermal shutdown while CORE is still powered). -/
def State.discardTakes (s : State) : State :=
  let s := { s with takes := Vector.replicate 8 Take.reset }
  s.each (List.finRange 8) fun h s =>
    ((s.setWord (A.TAKE_STAT h) 0).setWord (A.TAKE_BNDL h) 0).setWord (A.TAKE_BNDH h) 0

/-- Buffer entries in use. -/
def State.takeEntries (s : State) : Nat := (s.takes.toList.map (fun t => t.writes.length)).sum

/-- Opening a take (R128): the lowest handle that is neither OPEN nor PENDING. A pending TAKE.CTRL value takes effect
now (R151), and the take keeps the limits in force. With none, nothing changes. -/
def State.openTake (s : State) (owner : Nat) : Option HandleId × State :=
  match (List.finRange 8).find? (fun h => !s.takeActive h) with
  | none => (none, s)
  | some h =>
    let s := s.applyLive A.TAKE_CTRL (A.TAKE_CTRL + 4)
    let s := s.modTake h fun _ =>
      { Take.reset with
        stamp := s.wseq
        openedAt := s.ticks
        tmo := s.fget F.TAKE_CTRL_TMO
        waitMax := s.fget F.TAKE_CTRL_WAITMAX }
    let s := ((s.setWord (A.TAKE_STAT h) 0).fset (F.TAKE_STAT_OWNER h) owner).fset (F.TAKE_STAT_STATE h) takeOpen
    (some h, (s.setWord (A.TAKE_BNDL h) 0).setWord (A.TAKE_BNDH h) 0)

/-- May a take name this address (R133, R134)? -/
def State.takeTarget (s : State) (a : Nat) : Bool :=
  a % 4 == 0 && (takeable a || decide (a + 4 ≤ s.sramSize))

/-- One write into an OPEN take, and whether the take is still OPEN after it (R130, R132 to R135, R146). A write that is both
one too many and against R134 or R135 cuts the take with REFUSED (DESIGN CHOICE, log entry 50: the manual does not say which
reason counts). -/
def State.writeTake (s : State) (h : HandleId) (a : Nat) (v : Word) : State × Bool :=
  if !s.takeTarget a then (s.cutTake h cutRefused, false)
  else if takeable a && staticBad a v then ((s.raise srcParamRange).cutTake h cutRefused, false)
  else if 512 ≤ s.takes[h].writes.length ∨ 2048 ≤ s.takeEntries then (s.cutTake h cutFull, false)
  else
    ((s.modTake h fun t => { t with writes := t.writes ++ [(a, v)] }).fset (F.TAKE_STAT_WRITES h)
      (s.takes[h].writes.length + 1), true)

/-- Staging time S of a take: 0.5 µs plus 10 ns for each write, in ticks (R138). -/
def stagingTicks (writes : Nat) : Nat := 4000 + 80 * writes

/-- 10 s in ticks, the reach of a boundary-3 print (R138, R139). -/
def tenSeconds : Int := 80000000000

/-- Boundary 4 of the latest detection, 1 µs after it, where it is not before an instant (R138, R357). -/
def State.zxDue (s : State) (t : Nat) : Option Nat :=
  match s.adc.zxAt with
  | some z =>
    let at_ := s.instantOf (BitVec.ofNat 48 z) + us
    if (t : Int) ≤ at_ then some at_.toNat else none
  | none => none

/-- Printing an OPEN take (R138, R139). `instant` is the full boundary instant of boundary 3. -/
def State.printTake (s : State) (h : HandleId) (bnd : Nat) (instant : BitVec 48) : State :=
  let st := stagingTicks s.takes[h].writes.length
  let s := s.fset (F.TAKE_STAT_BND h) bnd
  let late := s.instantOf instant
  if bnd = 3 ∧ (late < (s.ticks : Int) + st ∨ (s.ticks : Int) + tenSeconds < late) then s.cutTake h cutRefused
  else
    let at_ : Option Nat :=
      if bnd = 0 then some (s.ticks + st) else if bnd = 3 then some late.toNat else if bnd = 4 then s.zxDue (s.ticks + st) else none
    let no := (s.takes.toList.map (fun t => t.printNo)).foldl max 0 + 1
    let s := s.modTake h fun t => { t with printedAt := s.ticks, printNo := no, staging := st, instant := at_ }
    s.fset (F.TAKE_STAT_STATE h) takePending

/-- First period tick to come at or after an instant, from the tick spacing in force: after the next tick it is the accepted
period (R69). -/
def State.tickFrom (s : State) (t : Nat) : Nat :=
  if t ≤ s.timer.next then s.timer.next
  else s.timer.next + alignUp (s.timer.accepted * 64) (t - s.timer.next)

/-- That tick, while the tick timer runs. -/
def State.tickAfter (s : State) (t : Nat) : Option Nat :=
  if s.powered domPlan && !s.sup.islandStop then some (s.tickFrom t) else none

/-- First PWM period start to come at or after an instant, from BRG.PER in force; none while no chain runs. -/
def State.pwmAfter (s : State) (t : Nat) : Option Nat :=
  if s.brg.running then
    let per := s.fget F.BRG_PER_PER * 32
    let next := s.brg.start + s.brg.length
    some (if t ≤ next then next else next + alignUp per (t - next))
  else none

/-- A boundary of a kind is reached: it is the instant of application of each take that waits for this kind and is staged by
then (R138). -/
def State.takesReach (s : State) (bnd t : Nat) : State :=
  s.each (List.finRange 8) fun h s =>
    let k := s.takes[h]
    if s.takeState h == takePending && s.fget (F.TAKE_STAT_BND h) == bnd && k.instant.isNone &&
        decide (k.printedAt + k.staging ≤ t) then
      s.modTake h fun k => { k with instant := some t }
    else s

/-- The instant at which a PENDING take is due: the boundary that has been reached, or the one that the module predicts now
("Register block", chapter 5). -/
def State.takeDue (s : State) (h : HandleId) : Option Nat :=
  let t := s.takes[h]
  match t.instant, s.fget (F.TAKE_STAT_BND h) with
  | some i, _ => some i
  | none, 1 => s.tickAfter (t.printedAt + t.staging)
  | none, 2 => s.pwmAfter (t.printedAt + t.staging)
  | none, _ => none

/-- Boundaries with a wait limit: the next tick, the next PWM period and the next zero crossing (R138). -/
def waitBounded (bnd : Nat) : Bool := bnd == 1 || bnd == 2 || bnd == 4

/-- TAKE.BNDLh and TAKE.BNDHh as they read: the prediction while PENDING, the instant of application in PRINTED. -/
def State.takeBnd (s : State) (h : HandleId) : BitVec 48 :=
  if s.takeState h = takePending then
    match s.takeDue h with
    | some t => s.rtimeAt t
    | none => 0
  else s.getTime48 (F.TAKE_BNDL_TIME h) (F.TAKE_BNDH_TIME h)

/-- Ticks of one millisecond. -/
def ms : Nat := 8000000

end Sys2Proof.Machine
end

