-- ==== Sys2Proof/Machine/Operands.lean ====
section
/-!
DEFINITION. Operands of script instructions: scalar, vector and predicate registers with their checks (R55 to R67),
DMEM (R50, R54), and the stores a core holds back (R79).
-/

namespace Sys2Proof.Machine

/-- Why an instruction ends without its effect: a trap (R90), a failed check of R67 with its cause code, or a park of R80. -/
inductive CoreStop where
  | trap (cause : Nat) (addr : Option Nat)
  | check (cause : Nat)
  | park
  deriving DecidableEq, Repr

/-- Result of an instruction's body. -/
abbrev Run := Except (State × CoreStop) State

/-- Trap causes (R90, R126). -/
def causeIllegal : Nat := 0x01
def causeResidue : Nat := 0x02
def causeExponent : Nat := 0x03
def causeRegchk : Nat := 0x04
def causeIfetchUe : Nat := 0x05
def causeDmemUe : Nat := 0x06
def causeBus : Nat := 0x07
def causeAlign : Nat := 0x08
def causeBreak : Nat := 0x09
def causeDrain : Nat := 0x0A
def causeParam : Nat := 0x10
def causeTag : Nat := 0x11
def causeDivzero : Nat := 0x12
def causeEmittgt : Nat := 0x13
def causeTakeuse : Nat := 0x14
def causeNotrap : Nat := 0x15

/-- States of a core (CORE.STATn.STATE). -/
def coreHalted : Nat := 0
def coreWait : Nat := 1
def coreRunning : Nat := 2
def coreSpec : Nat := 3
def coreParked : Nat := 4
def coreTrap : Nat := 5

def State.coreState (s : State) (n : CoreId) : Nat := s.fget (F.CORE_STAT_STATE n)
def State.setCoreState (s : State) (n : CoreId) (v : Nat) : State := s.fset (F.CORE_STAT_STATE n) v

/-- Content of a scalar register; s0 reads as 0 with residue 0 (R55). -/
def State.sVal (s : State) (n : CoreId) (r : Sreg) : Word := if r = 0 then 0 else (s.cores[n]).r.s[r]
def State.sRes (s : State) (n : CoreId) (r : Sreg) : BitVec 3 := if r = 0 then 0 else (s.cores[n]).r.sres[r]

/-- A scalar operand: residue code 7 is a register error (R66). -/
def State.withS (s : State) (n : CoreId) (r : Sreg) (k : Word → Nat → Run) : Run :=
  if s.sRes n r = 7 then .error (s, .check causeRegchk) else k (s.sVal n r) (s.sRes n r).toNat

/-- A scalar result with the residue of its content (R63, R100); a write to s0 is discarded (R55). -/
def State.writeS (s : State) (n : CoreId) (r : Sreg) (v : Word) : State :=
  if r = 0 then s
  else s.modCore n fun c => { c with r := { c.r with s := c.r.s.set r v, sres := c.r.sres.set r (wordResidue v) } }

/-- A vector operand: residue code 7 in any lane is a register error (R66). -/
def State.withV (s : State) (n : CoreId) (r : Vreg) (k : VReg → Run) : Run :=
  if ((s.cores[n]).r.v[r]).res.toList.any (· == 7) then .error (s, .check causeRegchk) else k (s.cores[n]).r.v[r]

def State.writeV (s : State) (n : CoreId) (r : Vreg) (v : VReg) : State :=
  s.modCore n fun c => { c with r := { c.r with v := c.r.v.set r v } }

/-- Even parity of 16 lanes of a predicate. -/
def parity16 (p : BitVec 48) (k : Nat) : Bool :=
  ((List.range 16).filter (fun i => p.getLsbD (16 * k + i))).length % 2 == 1

/-- The three parity bits of a predicate register (R66). -/
def predParity (p : BitVec 48) : BitVec 3 :=
  BitVec.ofNat 3 ((if parity16 p 0 then 1 else 0) + (if parity16 p 1 then 2 else 0) + (if parity16 p 2 then 4 else 0))

/-- All 48 lanes. -/
def allLanes : BitVec 48 := BitVec.allOnes 48

/-- A predicate operand: p0 reads as all ones (R58), and a parity mismatch is a register error (R66). -/
def State.withP (s : State) (n : CoreId) (r : Preg) (k : BitVec 48 → Run) : Run :=
  if r = 0 then k allLanes
  else if (s.cores[n]).r.ppar[r] = predParity (s.cores[n]).r.p[r] then k (s.cores[n]).r.p[r]
  else .error (s, .check causeRegchk)

/-- A predicate result with its parity; a write to p0 is discarded (R58). -/
def State.writeP (s : State) (n : CoreId) (r : Preg) (v : BitVec 48) : State :=
  if r = 0 then s
  else s.modCore n fun c => { c with r := { c.r with p := c.r.p.set r v, ppar := c.r.ppar.set r (predParity v) } }

/-- The check of a result (R64, R65, R100): `ok` says that the predicted residue matches; a pending upset shows in the
first checked result, an exponent upset in the first that has exponent logic (`exp`). -/
def State.checked (s : State) (n : CoreId) (exp ok : Bool) (k : State → Run) : Run :=
  match (s.cores[n]).upset with
  | some .residue => .error (s.modCore n fun c => { c with upset := none }, .check causeResidue)
  | some .exponent =>
    if exp then .error (s.modCore n fun c => { c with upset := none }, .check causeExponent)
    else if ok then k s else .error (s, .check causeResidue)
  | none => if ok then k s else .error (s, .check causeResidue)

/-- Full rate over the share of throttled work (R458): 2, 4 or 8 by a LEVEL of THERM.TCFG, and 1 outside THROTTLE. -/
def State.slowdown (s : State) (level : Fld) : Nat := if s.fget F.SUP_MODE_THERM = 2 then 2 ^ (s.fget level + 1) else 1

/-- Cycles of I_CORE that pass for those an instruction takes: in THROTTLE a core marked in THERM.BGCORE idles between its
instructions so that it runs at the share of CORELVL (R458). -/
def State.coreCycles (s : State) (n : CoreId) (cyc : Nat) : Nat :=
  if (s.fget F.THERM_BGCORE_MASK).testBit n.val then cyc * s.slowdown F.THERM_TCFG_CORELVL else cyc

/-- Cycles pass on a core. -/
def State.spend (s : State) (n : CoreId) (cyc : Nat) : State :=
  s.modCore n fun c => { c with cycles := c.cycles + s.coreCycles n cyc }

/-- The instruction completes: the pc moves on by its length and its cycles are counted. -/
def State.retire (s : State) (n : CoreId) (len cyc : Nat) : State :=
  s.modCore n fun c => { c with pc := c.pc + BitVec.ofNat 16 len, cycles := c.cycles + s.coreCycles n cyc }

/-- CORE.STATn.SAT is set where a stage saturates (R60). -/
def State.setSat (s : State) (n : CoreId) (sat : Bool) : State := if sat then s.fset (F.CORE_STAT_SAT n) 1 else s

/-- The core executes a speculative run. -/
def State.inSpec (s : State) (n : CoreId) : Bool := s.coreState n == coreSpec

/-- Bounds of DMEM and of the core-local addresses (R50). -/
def dmemLo : Nat := 0xF0000000
def dmemHi : Nat := 0xF0020000

/-- Offset of an address in DMEM. -/
def dmemOff (a : Nat) : Nat := a % 0x20000

/-- Byte of a store that a core holds back, or the byte beneath it. -/
def overlayByte (l : List BufStore) (a : Nat) (b : Byte) : Byte :=
  l.foldl (fun b e => match e with
    | .store addr size v => if addr ≤ a ∧ a < addr + size then byteAt v.toNat (a - addr) else b
    | .predSet _ _ => b) b

/-- Stores that a core's own loads see before memory does (R79, R83). -/
def Core.held (c : Core) : List BufStore := c.drain ++ c.stores

/-- One byte of DMEM as the core's loads see it. -/
def Core.dbyte (c : Core) (a : Nat) : Byte := overlayByte c.held a (sparseGet memDefault c.dmem (dmemOff a))

/-- n bytes of DMEM as the core's loads see them. -/
def Core.dpeek (c : Core) (a n : Nat) : Nat := ofBytesLE ((List.range n).map (fun i => c.dbyte (a + i)))

def dmemPoke (l : List Host.Cell) (a : Nat) : List Byte → List Host.Cell
  | [] => l
  | b :: t => dmemPoke (sparseSet memDefault l (dmemOff a) b) (a + 1) t

/-- The 32-bit word of DMEM or IMEM that holds a byte: their check word (R54). -/
def wordOf (a : Nat) : Nat := a / 4 * 4

/-- One check word of DMEM is read: corrected with CORE.MEMERRn.CE, or DUE and trap DMEM_UE (R54, R90). -/
def State.dmemCheck (s : State) (n : CoreId) (a : Nat) : Run :=
  match eccAt (s.cores[n]).dmemErr (wordOf (dmemOff a)) with
  | none => .ok s
  | some .ce =>
    .ok ((s.modCore n fun c => { c with dmemErr := eccClear c.dmemErr (wordOf (dmemOff a)) }).finc (F.CORE_MEMERR_CE n))
  | some .ue => .error (s.fset (F.CORE_MEMERR_DUE n) 1, .trap causeDmemUe (some a))

/-- n consecutive words of DMEM are checked. -/
def State.dmemChecks (s : State) (n : CoreId) (a : Nat) : Nat → Run
  | 0 => .ok s
  | k + 1 =>
    match s.dmemChecks n a k with
    | .ok s => s.dmemCheck n (a + 4 * k)
    | e => e

/-- Words of DMEM read with their checks. -/
def State.withDmem (s : State) (n : CoreId) (a words : Nat) (k : List Nat → State → Run) : Run :=
  match s.dmemChecks n a words with
  | .error e => .error e
  | .ok s => k ((List.range words).map (fun i => (s.cores[n]).dpeek (a + 4 * i) 4)) s

/-- Do n bytes from `a` lie in DMEM? -/
def inDmem (a n : Nat) : Bool := decide (dmemLo ≤ a ∧ a + n ≤ dmemHi)

/-- A store to DMEM: whole words are replaced with their check bits, a narrow one merges into its word. -/
def State.dmemStore (s : State) (n : CoreId) (a : Nat) (bytes : List Byte) : Run :=
  let go := fun (s : State) =>
    Except.ok (s.modCore n fun c =>
      { c with
        dmem := dmemPoke c.dmem a bytes
        dmemErr := c.dmemErr.filter (fun e => !decide (dmemOff a < e.1 + 4 ∧ e.1 < dmemOff a + bytes.length)) })
  if bytes.length < 4 then
    match s.dmemCheck n a with
    | .ok s => go s
    | .error e => .error e
  else go s

/-- A buffered store takes effect: false where it ends with a bus error (R532). A PRED.SET sets the script predictions. -/
def State.performStore (s : State) (n : CoreId) (e : BufStore) : State × Bool :=
  match e with
  | .store addr size v =>
    if inDmem addr size then
      match s.dmemStore n addr (bytesLE size v.toNat) with
      | .ok s => (s, true)
      | .error (s, _) => (s, false)
    else s.memWrite (0x10 + n.val) addr (bytesLE size v.toNat)
  | .predSet slot codes =>
    (s.modCore n fun c => { c with pred := codes.foldl (fun l (x : Nat × BitVec 16) =>
      let old := sparseGet ⟨none, none, none⟩ l (slot * 48 + x.1)
      sparseSet ⟨none, none, none⟩ l (slot * 48 + x.1) { old with script := some x.2 }) c.pred }, true)

/-- Stores drain in order up to the first that fails: the rest, and the one that failed (R83, R532). -/
def State.drainUntil (s : State) (n : CoreId) : List BufStore → State × Option (BufStore × List BufStore)
  | [] => (s, none)
  | e :: t =>
    match s.performStore n e with
    | (s, true) => s.drainUntil n t
    | (s, false) => (s, some (e, t))

/-- The data address of a buffered store. -/
def BufStore.addr (e : BufStore) : Option Nat :=
  match e with
  | .store a _ _ => some a
  | .predSet _ _ => none

/-- A store of a committed run waits behind the stores of its speculative part that still drain, so that all become visible
in the order in which the core performed them (R53; log entry 41); one of those that fails traps DRAIN before it (R532). -/
def State.afterDrain (s : State) (n : CoreId) (k : State → Run) : Run :=
  match s.drainUntil n (s.cores[n]).drain with
  | (s, none) => k (s.modCore n fun c => { c with drain := [] })
  | (s, some (e, t)) => .error (s.modCore n fun c => { c with drain := t }, .trap causeDrain e.addr)

/-- One word of IMEM. -/
def Core.iword (c : Core) (a : Nat) : Word := sparseGet 0 c.imem a

/-- A word of IMEM is fetched (R54, R91). -/
def State.fetchCheck (s : State) (n : CoreId) (a : Nat) : Run :=
  match eccAt (s.cores[n]).imemErr a with
  | none => .ok s
  | some .ce => .ok ((s.modCore n fun c => { c with imemErr := eccClear c.imemErr a }).finc (F.CORE_MEMERR_CE n))
  | some .ue => .error (s.fset (F.CORE_MEMERR_IUE n) 1, .trap causeIfetchUe none)

end Sys2Proof.Machine
end

