-- ==== Sys2Proof/Machine/CoreOps.lean ====
section
/-!
DEFINITION. How a script core runs: fetch, traps and halts (R89 to R93), the period handler (R70 to R74), stalls, jumps,
and speculative runs up to their compare point (R78 to R86).
-/

namespace Sys2Proof.Machine

/-- May the core execute an instruction now? -/
def State.coreReady (s : State) (n : CoreId) : Bool :=
  s.powered domCore && !s.oscStopped &&
  (s.coreState n == coreRunning || s.coreState n == coreSpec || s.coreState n == coreTrap) &&
  (s.cores[n]).stall.isNone && !(s.cores[n]).atWaitp

/-- Byte address of the period handler, and of the trap vector. -/
def State.phv (s : State) (n : CoreId) : Nat := 4 * s.fget (F.CORE_PHV_ADDR n)
def State.tvec (s : State) (n : CoreId) : Nat := 4 * s.fget (F.CORE_TVEC_ADDR n)

/-- A speculative run's buffers, checkpoint and parking are dropped. -/
def Core.dropSpec (c : Core) : Core :=
  { c with ckpt := none, stores := [], emits := [], used := [], specBad := false, atWaitp := false }

/-- The core halts: its takes are abandoned (R146), and what it had not completed is dropped. -/
def State.haltCore (s : State) (n : CoreId) : State :=
  ((s.modCore n fun c => { c.dropSpec with stall := none, pendTicks := 0 }).setCoreState n coreHalted).abandonTakes
    (0x10 + n.val)

/-- FLT sources of a trap cause (R90, R126). -/
def trapSource (cause : Nat) : Option Nat :=
  if cause = causeIllegal ∨ cause = causeAlign ∨ 0x10 ≤ cause then some srcCoreTrap
  else if cause = causeResidue ∨ cause = causeExponent ∨ cause = causeRegchk then some srcResidue
  else if cause = causeIfetchUe ∨ cause = causeDmemUe then some srcCoreMemUe
  else none

/-- The registers that a trap writes (R90, R92). -/
def State.trapRegs (s : State) (n : CoreId) (cause : Nat) (addr : Option Nat) : State :=
  let s := (s.fset (F.CORE_TPC_ADDR n) ((s.cores[n]).pc.toNat / 4)).fset (F.CORE_TCAUSE_CAUSE n) cause
  match addr with
  | some a => s.fset (F.CORE_TADDR_ADDR n) a
  | none => s

/-- A trap (R90 to R93). `next` is how far RETT goes past the trapping instruction (R125). -/
def State.takeTrap (s : State) (n : CoreId) (next cause : Nat) (addr : Option Nat) : State :=
  let twice := s.coreState n == coreTrap
  let s := s.trapRegs n cause addr
  let s := match trapSource cause with
    | some k => s.raise k
    | none => s
  if twice then ((s.fset (F.CORE_TCAUSE_DOUBLE n) 1).haltCore n).raise srcCoreHalt
  else if s.flag (F.CORE_CTRL_TRAPHALT n) then (s.haltCore n).raise srcCoreHalt
  else
    (s.modCore n fun c =>
      { c with pc := BitVec.ofNat 16 (s.tvec n), rettStep := next, stall := none, atWaitp := false }).setCoreState n coreTrap

/-- A speculative run parks (R80); `bad` under the last two items. -/
def State.parkCore (s : State) (n : CoreId) (bad : Bool) : State :=
  (s.modCore n fun c => { c with specBad := c.specBad || bad, stallAt := s.ticks }).setCoreState n coreParked

/-- An error of R67: RESERR and, in a speculative run, RESIDUE at once with the run parked (R86). An instruction that traps
takes the cycles listed for it (R99), a DRAIN trap comes before the instruction and RETT continues at it (R125, R532), and a
parked one has not been executed. -/
def State.settle (s : State) (n : CoreId) (len cyc : Nat) (stop : CoreStop) : State :=
  match stop with
  | .check cause =>
    if s.inSpec n then ((s.fset (F.CORE_STAT_RESERR n) 1).raise srcResidue).parkCore n true
    else ((s.fset (F.CORE_STAT_RESERR n) 1).takeTrap n len cause none).spend n cyc
  | .trap cause addr =>
    if s.inSpec n then s.parkCore n true
    else if cause = causeDrain then s.takeTrap n 0 cause addr
    else (s.takeTrap n len cause addr).spend n cyc
  | .park => s.parkCore n false

/-- The state an instruction's body leaves; `cyc` are the cycles that it takes where it traps. -/
def Run.finish (r : Run) (n : CoreId) (len cyc : Nat) : State :=
  match r with
  | .ok s => s
  | .error (s, stop) => s.settle n len cyc stop

/-- A core executes an instruction of `len` bytes and `cyc` listed cycles; a core that cannot execute now does nothing (log
entry 11). An instruction whose fetch fails is not executed and takes no cycle. -/
def State.coreRun (s : State) (n : CoreId) (len cyc : Nat) (body : State → Run) : Res :=
  let s := s.fresh
  if s.coreReady n then
    match s.fetchCheck n (s.cores[n]).pc.toNat with
    | .ok s => .next ((body s).finish n len cyc)
    | .error e => .next (Run.finish (.error e) n len 0)
  else .next s

/-- A trap that an instruction raises. -/
def State.trapWith (s : State) (cause : Nat) (addr : Option Nat) : Run := .error (s, .trap cause addr)

/-- A jump to a byte address given without wrap: a target that is no IMEM word traps ALIGN (R51, R103). -/
def State.jumpTo (s : State) (n : CoreId) (target : Int) (cyc : Nat) (before : State → State) : Run :=
  if 0 ≤ target ∧ target ≤ 0xFFFC ∧ target % 4 = 0 then
    .ok ((before s).modCore n fun c => { c with pc := BitVec.ofInt 16 target, cycles := c.cycles + s.coreCycles n cyc })
  else .error (s, .trap causeAlign (some (unsignedOf 32 target)))

/-- Target of a branch, J or CALL (R103). -/
def State.relative (s : State) (n : CoreId) (imm : BitVec 16) : Int := ((s.cores[n]).pc.toNat : Int) + 4 * imm.toInt

/-- The core stalls (R52, R108, R121). -/
def State.stallOn (s : State) (n : CoreId) (w : Stall) : State :=
  s.modCore n fun c => { c with stall := some w, stallAt := s.ticks }

/-- Cycles of I_CORE since the core stalled. -/
def State.waited (s : State) (n : CoreId) : Nat := (s.ticks - (s.cores[n]).stallAt) / 10

/-- A run starts at CORE.PHVn (R70): s1, s2 and s3 take their entry values, in RUN or, with a checkpoint, in SPEC. -/
def State.startRun (s : State) (n : CoreId) (period tick : Nat) (replay lost : Bool) (pwr : Nat) (spec : Bool) : State :=
  let s := ((s.writeS n 1 (BitVec.ofNat 32 period)).writeS n 2 (BitVec.ofNat 32 (s.rtimeAt tick).toNat)).writeS n 3
    (BitVec.ofNat 32 ((if replay then 1 else 0) + (if lost then 2 else 0) + 4 * pwr))
  (s.modCore n fun c =>
    { c with pc := BitVec.ofNat 16 (s.phv n), period := period, tick := tick, replay := replay, cycles := 0, specPwr := pwr }).setCoreState n
    (if spec then coreSpec else coreRunning)

/-- The number of the latest tick, as the period timer counts it (R533). -/
def State.tickCount (s : State) : Nat := s.timer.count

/-- CORE.TICK shows it. -/
def State.showTick (s : State) : State := if s.powered domCore then s.fset F.CORE_TICK_COUNT s.tickCount else s

/-- Periods were skipped: the prediction history of every slot is cleared (R73). -/
def State.skipHistory (s : State) (n : CoreId) (lost : Bool) : State :=
  if lost then s.modCore n fun c => { c with pred := [] } else s

/-- The core starts the period of the latest pending tick (R71, R73). -/
def State.startPending (s : State) (n : CoreId) (spec : Bool) : State :=
  let lost := decide (1 < (s.cores[n]).pendTicks)
  let s := (s.skipHistory n lost).modCore n fun c => { c with pendTicks := 0 }
  s.startRun n s.tickCount s.timer.last false lost (s.cores[n]).tickPwr spec

/-- A speculative run starts (R78): of the next period, or of the latest pending tick (R71; log entry 12), whose power-stage
state was sampled at that tick (R70, R82). -/
def State.startSpec (s : State) (n : CoreId) : State :=
  let s := s.modCore n fun c => { c.dropSpec with ckpt := some c.r }
  let s := s.modCore n fun c => { c with predSnap := c.pred }
  if (s.cores[n]).pendTicks = 0 then
    s.startRun n ((s.tickCount + 1) % 2 ^ 32) s.timer.next false false s.pwr true
  else
    let s := s.startPending n true
    s.modCore n fun c => { c with predSnap := c.pred, cmpPwr := c.tickPwr }

/-- WAITP outside a speculative run (R71, R78, R85). -/
def State.endRun (s : State) (n : CoreId) : State :=
  if s.flag (F.CORE_CTRL_SPEC n) then
    if (s.cores[n]).drain.isEmpty then s.startSpec n
    else (s.modCore n fun c => { c with atWaitp := true }).setCoreState n coreRunning
  else if (s.cores[n]).pendTicks = 0 then (s.modCore n fun c => c.dropSpec).setCoreState n coreWait
  else (s.modCore n fun c => c.dropSpec).startPending n false

/-- Instant of the tick of a period number near the present one: ticks after the next one are spaced by the accepted value,
those before it by the one in force (R69). -/
def State.tickInstant (s : State) (n : Nat) : Int :=
  let k := signedOf 32 (n + 2 ^ 32 - (s.tickCount + 1) % 2 ^ 32)
  (s.timer.next : Int) + k * (if 0 ≤ k then s.timer.accepted * 64 else s.timer.copy * 64 : Nat)

/-- Instant of the latest EMIT of a period that PLAN can use (R29, R161). -/
def State.latestEmit (s : State) (period : Nat) : Int :=
  s.tickInstant (period + s.fget F.PLAN_CTRL_DELAY + 1) - (s.hEff + 2 * us : Nat)

/-- CORE.MARGINn of an EMIT now (in 5 ns, rounded down; log entry 13). -/
def State.noteMargin (s : State) (n : CoreId) : State :=
  let m := clampInt (-32768) 32767 ((s.latestEmit (s.cores[n]).period - s.ticks).fdiv 40)
  (s.fsetI (F.CORE_MARGIN_LAST n) m).fsetI (F.CORE_MARGIN_MIN n) (min m (s.fgetI (F.CORE_MARGIN_MIN n)))

/-- An EMIT enters the FIFO toward PLAN (R121). CORE.MARGINn counts this instant, so that an EMIT held in a speculative run counts
where its commit releases it (DESIGN CHOICE, log entry 53: the manual does not say which of the two instants of R94 is meant). -/
def State.pushEmit (s : State) (n : CoreId) (m : EmitMsg) : State :=
  (s.modCore n fun c => { c with fifo := c.fifo ++ [m] }).noteMargin n

/-- Descriptor of an input slot ("Input slots", chapter 3). -/
structure SlotDesc where
  src   : Nat
  band  : Nat
  tmo   : Nat
  mode  : Nat
  kind  : Bool
  vec   : Bool
  sp    : Bool
  lanes : BitVec 48
  deriving DecidableEq, Repr

/-- Address of slot k's descriptor. -/
def slotAddr (k : Nat) : Nat := 0xF001F000 + 16 * k

/-- The descriptor of slot k as the core's DMEM holds it. -/
def Core.slot (c : Core) (k : Nat) : SlotDesc :=
  let b8 := c.dpeek (slotAddr k + 8) 1
  { src := c.dpeek (slotAddr k) 4
    band := c.dpeek (slotAddr k + 4) 2
    tmo := c.dpeek (slotAddr k + 6) 2
    mode := b8 / 16 % 4
    kind := b8.testBit 3
    vec := b8.testBit 2
    sp := b8.testBit 0
    lanes := BitVec.ofNat 48 (c.dpeek (slotAddr k + 10) 6) }

/-- Is slot k a vector slot beyond the 32nd in table order (R76)? -/
def Core.slotExcess (c : Core) (k : Nat) : Bool :=
  (c.slot k).vec && decide (32 ≤ ((List.range k).filter (fun j => (c.slot j).vec)).length)

/-- Lanes of a slot: all 48 of a vector slot, lane 0 of a scalar one. -/
def SlotDesc.laneList (d : SlotDesc) : List Nat :=
  (List.range (if d.vec then 48 else 1)).filter (fun i => d.lanes.getLsbD i)

/-- The mask with which a group writes a period's frame (R345, R347): the one latched for that period, and the register for a
period that the grid has not seen. -/
def State.maskAt (s : State) (g : UnitId) (period : Nat) : Nat :=
  match s.adc.past.find? (fun e => e.1 == period) with
  | some e => (e.2[g]).toNat
  | none => s.fget (F.ADC_GMASK_MASK g)

/-- The group enabled in a period whose frame 0 holds an address (R350). -/
def State.slotGroup (s : State) (src period : Nat) : Option UnitId :=
  (List.finRange 8).find? (fun g => s.maskAt g period != 0 &&
    decide (s.fget (F.ADC_GBUF_BASE g) * 1024 ≤ src ∧ src < s.fget (F.ADC_GBUF_BASE g) * 1024 + 0x400))

/-- Base of ring x's telemetry bank 0 (R274). -/
def State.bankBase (s : State) (x : Nat) : Nat := s.fget F.RING_TLMBASE_ADDR * 0x2000 + x * 0x800

/-- The ring whose bank 0 holds an address. -/
def State.slotRing (s : State) (src : Nat) : Option Nat :=
  (List.range 3).find? (fun x => decide (s.bankBase x ≤ src ∧ src < s.bankBase x + 0x400))

/-- Offset from a slot's address in frame or bank 0 to that of a period's frame or bank. -/
def State.slotShift (s : State) (d : SlotDesc) (period : Nat) : Option Nat :=
  if d.kind then (s.slotRing d.src).map (fun _ => period % 2 * 0x400)
  else (s.slotGroup d.src period).map (fun g => period % 2 ^ s.fget (F.ADC_GBUF_KLOG g) * 0x400)

/-- First byte of the frame or bank that holds a period's data. -/
def State.slotFrame (s : State) (d : SlotDesc) (period : Nat) : Option Nat :=
  match s.slotShift d period with
  | none => none
  | some sh =>
    if d.kind then (s.slotRing d.src).map (fun x => s.bankBase x + sh)
    else (s.slotGroup d.src period).map (fun g => s.fget (F.ADC_GBUF_BASE g) * 1024 + sh)

/-- Does an access meet an uncorrectable check word, or memory that cannot be read? -/
def State.unreadable (s : State) (a n : Nat) : Bool :=
  !s.memReadable a n || (s.checkWords a n).any (fun w => eccAt s.ecc w == some .ue)

/-- The stamp of the frame or bank that holds a period's data. -/
def State.slotStamp (s : State) (d : SlotDesc) (period : Nat) : Option Nat := (s.slotFrame d period).map (· + 0x3FC)

/-- The stamp cannot be read: the access ends with a bus error (R444). -/
def State.stampBad (s : State) (d : SlotDesc) (period : Nat) : Bool := (s.slotStamp d period).any fun a => s.unreadable a 4

/-- The slot's real data for a period is present: its buffer carries that period's stamp. -/
def State.slotPresent (s : State) (d : SlotDesc) (period : Nat) : Bool :=
  match s.slotStamp d period with
  | some a => s.peek a 4 == period % 2 ^ 32 && !s.unreadable a 4
  | none => false

/-- What a lane of a slot's real data holds. -/
inductive LaneRead where
  | code (v : BitVec 16)
  | absent
  | badTag
  deriving DecidableEq, Repr

/-- The channel of rank c in a group mask. -/
def maskChannel (mask c : Nat) : Option Nat := ((List.range 32).filter (fun i => mask.testBit i))[c]?

/-- Does a sample word carry a good tag, the channel its position implies and the period's sequence (R350)? -/
def sampleOk (w ch period : Nat) : Bool :=
  (sampleTag w).toNat == w % 256 && w / 2048 % 32 == ch && w / 256 % 8 == period % 8

/-- Where lane i of a slot's real data for a period stands, and its width. -/
def State.laneAddr (s : State) (d : SlotDesc) (period i : Nat) : Option (Nat × Nat) :=
  (s.slotShift d period).map fun sh => if d.kind then (d.src + sh + 2 * i, 2) else (d.src + sh + 4 * i, 4)

/-- Lane i of a slot's real data for a period, its words readable (R342, R350, R274). -/
def State.laneCode (s : State) (d : SlotDesc) (period i : Nat) : LaneRead :=
  match s.laneAddr d period i, s.slotFrame d period with
  | some (a, _), some f =>
    if d.kind then
      if (s.peek (f + 0x300) 8).testBit i then .code (BitVec.ofNat 16 (s.peek a 2)) else .absent
    else
      let g := (s.slotGroup d.src period).getD 0
      let j := (a - f) / 4
      let ch := maskChannel (s.maskAt g period) (j / (s.fget (F.ADC_GTIME_NSMP g) + 1))
      let w := s.peek a 4
      if sampleOk w (ch.getD 32) period then
        if w / 65536 = 0x8000 then .absent else .code (BitVec.ofNat 16 (w / 65536))
      else .badTag
  | _, _ => .absent

/-- The same as the predictor store and the compare point see it: a lane that cannot be read has no real value. -/
def State.slotLane (s : State) (d : SlotDesc) (period i : Nat) : LaneRead :=
  if (s.laneAddr d period i).any (fun p => s.unreadable p.1 p.2) then .absent else s.laneCode d period i

/-- The accesses of one LD.IN's burst (R99): the stamp, and where it is the period's the lanes and a bank's validity mask. -/
def State.slotBurst (s : State) (d : SlotDesc) (period : Nat) : List (Nat × Nat) :=
  match s.slotFrame d period with
  | some f =>
    (f + 0x3FC, 4) ::
      if s.slotPresent d period then
        (d.laneList.filterMap fun i => s.laneAddr d period i) ++ (if d.kind then [(f + 0x300, 8)] else [])
      else []
  | none => []

/-- The burst is read with its checks (R443, R444): the first access that fails, or none. -/
def State.readBurst (s : State) (who : Nat) : List (Nat × Nat) → State × Option Nat
  | [] => (s, none)
  | (a, n) :: t =>
    match s.memRead who a n with
    | (some _, s) => s.readBurst who t
    | (none, s) => (s, some a)

/-- Key of a slot and lane in the predictor store. -/
def predKey (slot i : Nat) : Nat := slot * 48 + i

def predCell (l : List (Nat × PredCell)) (slot i : Nat) : PredCell := sparseGet ⟨none, none, none⟩ l (predKey slot i)

/-- The prediction of R75. -/
def predict (mode : Nat) (p : PredCell) : Option (BitVec 16) :=
  match mode with
  | 1 => p.last
  | 2 =>
    match p.last, p.before with
    | some a, some b => some (BitVec.ofInt 16 (clampInt (-32768) 32767 (2 * a.toInt - b.toInt)))
    | _, _ => none
  | 3 => p.script
  | _ => none

/-- The predictor store of one core takes the real values of the slots that read a buffer (R77). -/
def State.predIntake (s : State) (n : CoreId) (period : Nat) (mine : SlotDesc → Bool) : State :=
  (List.range 256).foldl (fun s k =>
    let d := (s.cores[n]).slot k
    if d.lanes != 0 && mine d then
      d.laneList.foldl (fun s i =>
        match s.slotLane d period i with
        | .code v => s.modCore n fun c =>
          let old := predCell c.pred k i
          { c with pred := sparseSet ⟨none, none, none⟩ c.pred (predKey k i) { old with last := some v, before := old.last } }
        | _ => s) s
    else s) s

/-- A buffer's period stamp has been written: every core's predictor store takes its real values. -/
def State.stampIntake (s : State) (period : Nat) (mine : SlotDesc → Bool) : State :=
  s.each (List.finRange 12) fun n s => s.predIntake n period mine

/-- A latency of at most the worst case of R52, which the manual leaves open within that bound (log entry 3). -/
def State.latency (s : State) (worst : Nat) : Nat × State :=
  let (v, s) := s.freshValue
  (1 + v.toNat % worst, s)

/-- LD.IN writes its register and pv from what its lanes read, or what stands in for it (R108), and takes its cycles. -/
def State.ldInWrite (s : State) (n : CoreId) (reg : Sreg) (pv : Preg) (slot : Nat) (reads : List LaneRead) (cyc : Nat) : State :=
  let c := s.cores[n]
  let d := c.slot slot
  let s := if reads.any (fun r => r == .badTag) then s.raise srcAdcTag else s
  let s := if !d.kind && (s.slotGroup d.src c.period).isNone then s.fset F.ADC_STAT_NOGRP 1 else s
  let value : Nat → Int := fun i =>
    match reads.getD i .absent with
    | .code v => v.toInt
    | _ => if d.lanes.getLsbD i then ((predCell c.pred slot i).last.getD 0).toInt else 0
  let valid : Nat := (List.range 48).foldl (fun m i =>
    match reads.getD i .absent with
    | .code _ => m + 2 ^ i
    | _ => m) 0
  let s :=
    if d.vec then
      let (v, sat) := VReg.ofStage ((List.range 48).map fun i => Ev.ofInt (value i))
      (s.writeV n ⟨reg.val / 4, by omega⟩ v).setSat n sat
    else s.writeS n reg (BitVec.ofInt 32 (value 0))
  (s.writeP n pv (BitVec.ofNat 48 valid)).retire n 4 cyc

/-- LD.IN reads the slot of its period where the intake stands there (R99, R108). An access of its burst that fails traps BUS,
after the latency of the burst (R99, R444). -/
def State.ldInFinish (s : State) (n : CoreId) (reg : Sreg) (pv : Preg) (slot : Nat) (wait : Nat) : Run :=
  let c := s.cores[n]
  let d := c.slot slot
  let present := s.slotPresent d c.period
  let reads := (List.range (if d.vec then 48 else 1)).map fun i =>
    if !d.lanes.getLsbD i then LaneRead.absent
    else if present then s.laneCode d c.period i else .absent
  let (lat, s) := s.latency 48
  match s.readBurst (0x10 + n.val) (s.slotBurst d c.period) with
  | (s, some a) => .error (s.spend n lat, .trap causeBus (some a))
  | (s, none) => .ok (s.ldInWrite n reg pv slot reads (3 + lat + wait))

end Sys2Proof.Machine
end

