-- ==== Sys2Proof/Machine/PlanOps.lean ====
section
/-!
DEFINITION. The modulation planner: intake of EMITs (R153 to R158), effective cells (R187 to R190), carriers and DAB
phases (R165 to R175), records and their order (R169 to R171, R176 to R180), and local-bridge entries (R191, R192).
-/

namespace Sys2Proof.Machine

def Frac.zero : Frac := ⟨0, 1⟩
def Frac.ofEv (x : Ev) : Frac := if 0 ≤ x.e then ⟨x.m * (2 ^ x.e.toNat : Nat), 1⟩ else ⟨x.m, 2 ^ (-x.e).toNat⟩
def Frac.add (a b : Frac) : Frac := ⟨a.n * b.d + b.n * a.d, a.d * b.d⟩
def Frac.mul (a b : Frac) : Frac := ⟨a.n * b.n, a.d * b.d⟩
def Frac.neg (a : Frac) : Frac := ⟨-a.n, a.d⟩
def Frac.lt (a b : Frac) : Bool := decide (a.n * b.d < b.n * a.d)
def Frac.abs (a : Frac) : Frac := if a.n < 0 then a.neg else a

/-- Integer square root, rounded down, by bits from the highest. -/
def isqrtBits (v : Nat) : Nat → Nat → Nat
  | 0, r => r
  | k + 1, r => if (r + 2 ^ k) * (r + 2 ^ k) ≤ v then isqrtBits v k (r + 2 ^ k) else isqrtBits v k r

def isqrt (v : Nat) : Nat := isqrtBits v (v.log2 / 2 + 1) 0

/-- Square root of a fraction from 0 to 1, to 2^-64 (log entry 15). -/
def Frac.sqrt (a : Frac) : Frac := ⟨isqrt (a.n.toNat * a.d * 2 ^ 128), a.d * 2 ^ 64⟩

/-- 1/π, to 10^-40 (log entry 15). -/
def invPi : Frac := ⟨3183098861837906715377675267450287240689, 10000000000000000000000000000000000000000⟩

/-- Length of the control period that starts at a tick (R69): an accepted value is in force from the next tick on. -/
def State.periodFrom (s : State) (t : Nat) : Nat := if s.timer.next ≤ t then s.timer.accepted * 64 else s.timer.copy * 64

/-- Number of the period that starts at a tick. -/
def State.tickNumber (s : State) (t : Nat) : Nat :=
  (s.tickCount + 1 + (t - s.timer.next) / (s.timer.accepted * 64) +
    (2 ^ 32 - (s.timer.next - t) / (s.timer.copy * 64) % 2 ^ 32)) % 2 ^ 32

/-- Quantities in use for a destination (R155). -/
def State.planQty (s : State) (d : DestId) : List Nat :=
  match d.val with
  | 0 => [s.fget F.PLAN_QSEL_ACASC, 2 + s.fget F.PLAN_QSEL_ADAB]
  | 1 => [s.fget F.PLAN_QSEL_BCASC, 2 + s.fget F.PLAN_QSEL_BDAB]
  | 2 => [s.fget F.PLAN_QSEL_CCASC, 2 + s.fget F.PLAN_QSEL_CDAB]
  | _ => if s.flag F.BRG_CTRL_SRC then [4] else []

/-- Is a quantity listed for a destination (R153)? -/
def qtyListed (d : DestId) (q : Nat) : Bool := if d.val < 3 then decide (q ≤ 3) else q == 4

/-- Has an EMIT of a period come after the latest instant that PLAN can use (R88, R160)? -/
def State.emitLate (s : State) (m : EmitMsg) : Bool :=
  decide (s.latestEmit m.period < s.ticks)

/-- Lane i of an EMIT as PLAN takes it: its value, or none where its residue check fails (R31, R157). -/
def EmitMsg.lane (m : EmitMsg) (i : Fin 48) : Option Frac :=
  let x : Ev := ⟨(m.mant[i]).toInt, m.exp.toInt - 23, (m.res[i]).toNat⟩
  if x.ok && x.r != 7 then some (Frac.ofEv x) else none

/-- Lanes of an EMIT that PLAN looks at: the local bridge's lanes 4 to 47 are ignored (R153). -/
def usedLane (d : DestId) (i : Nat) : Bool := decide (d.val < 3 ∨ i < 4)

/-- Does a carried lane that PLAN looks at fail its residue check? -/
def EmitMsg.badLane (m : EmitMsg) : Bool :=
  (List.finRange 48).any (fun i => usedLane m.dest i.val && m.mask.getLsbD i.val && (m.lane i).isNone)

/-- The carried lanes replace the earlier ones (R122); a carried lane that fails its check is then without a value of this
period, so that the reference of the previous period stands in for it (R31, R157). -/
def mergeLanes (m : EmitMsg) (old : List (Option Frac)) : List (Option Frac) :=
  (List.finRange 48).map fun i =>
    if !usedLane m.dest i.val then none else if m.mask.getLsbD i.val then m.lane i else old.getD i.val none

/-- An EMIT whose references PLAN takes (R153 to R157). -/
def State.planAccept (s : State) (m : EmitMsg) : State :=
  let s := if m.badLane then s.raise srcEmitRes else s
  s.modDest m.dest fun d =>
    let mine := fun (r : RefSet) => r.qty == m.qty && r.period == m.period
    let old := ((d.refs.find? mine).map (·.lanes)).getD []
    { d with refs := d.refs.filter (fun r => !mine r) ++ [⟨m.qty, m.period, mergeLanes m old⟩] }

/-- An EMIT reaches PLAN: taken, or discarded and reported for every ground that applies (R534). -/
def State.planIntake (s : State) (m : EmitMsg) : State :=
  let late := s.emitLate m
  let bad := !qtyListed m.dest m.qty.toNat
  let unused := !bad && !(s.planQty m.dest).contains m.qty.toNat
  if late || bad || unused then
    let s := if late then (s.fset (F.CORE_STAT_LATE m.core) 1).finc F.PLAN_EMITCNT_LATE else s
    let s := if bad then (s.fset F.PLAN_STAT_BADQTY 1).raise srcEmitQty else s
    if unused then s.finc F.PLAN_EMITCNT_UNUSED else s
  else s.planAccept m

/-- FAIL mask of a ring. -/
def State.failMask (s : State) (x : RingId) : BitVec 40 := s.mask40 (F.PLAN_FAILL_MASK x) (F.PLAN_FAILH_MASK x)
def State.actMask (s : State) (x : RingId) : BitVec 40 := s.mask40 (F.PLAN_ACTL_MASK x) (F.PLAN_ACTH_MASK x)

/-- A cell's FAIL bit is set, with FLT source CELL_FAIL (R187). -/
def State.setFail (s : State) (x : RingId) (k : CellId) : State :=
  if s.powered domPlan then
    (s.setMask40 (F.PLAN_FAILL_MASK x) (F.PLAN_FAILH_MASK x) (s.failMask x ||| BitVec.twoPow 40 k.val)).raise (srcCellFail x k)
  else s

/-- Half-words of a cell's descriptor as PLAN holds them (R255). -/
def CellView.dHi (v : CellView) (w : Nat) : Nat := (v.desc.getD w 0).toNat / 65536
def CellView.dLo (v : CellView) (w : Nat) : Nat := (v.desc.getD w 0).toNat % 65536

def State.view (s : State) (x : RingId) (k : CellId) : CellView := (s.rings[x]).view[k]

/-- The descriptor does not allow the DAB half-period in force (R187). -/
def State.hpBad (s : State) (x : RingId) (k : CellId) : Bool :=
  let v := s.view x k
  decide (s.fget F.PLAN_DAB_HPER < v.dHi 5 ∨ v.dLo 5 < s.fget F.PLAN_DAB_HPER)

/-- The standing conditions that hold a FAIL bit (R187). -/
def State.failStands (s : State) (x : RingId) (k : CellId) : Bool :=
  (s.view x k).combined.toNat / 32 % 4 == 3 ||
  ((s.actMask x).getLsbD k.val && !(s.admitted x).getLsbD k.val) ||
  ((s.admitted x).getLsbD k.val && s.hpBad x k)

/-- FAIL bits that a condition of R187 sets where it begins and at the build cut: active cells that are not admitted, and cells
whose descriptor forbids HP. -/
def State.cutFails (s : State) (x : RingId) : State :=
  s.each (List.finRange 40) fun k s =>
    if !(s.failMask x).getLsbD k.val &&
        (((s.actMask x).getLsbD k.val && !(s.admitted x).getLsbD k.val) ||
         ((s.admitted x).getLsbD k.val && s.hpBad x k)) then s.setFail x k
    else s

/-- The same on every ring, after a write that may have begun such a condition. -/
def State.planFails (s : State) : State := if s.powered domPlan then s.each (List.finRange 3) fun x s => s.cutFails x else s

/-- W + 2 µs exceeds PLAN.HORIZON (R161). -/
def State.horizonShort (s : State) : State :=
  if s.powered domPlan && decide (s.fget F.PLAN_HORIZON_HZ * 64 < s.wWorst + 2 * us) then
    (s.fset F.PLAN_STAT_HZSHORT 1).raise srcHorizonShort
  else s

/-- Substitutes of the failed active cells, in order of position (R188). -/
def substitutes (act fail adm : BitVec 40) : List (CellId × CellId) :=
  ((maskCells (act &&& fail)).foldl (fun (acc : List (CellId × CellId)) k =>
    match (maskCells (adm &&& ~~~act &&& ~~~fail)).find? (fun r => !acc.any (fun p => p.2 == r)) with
    | some r => acc ++ [(k, r)]
    | none => acc) [])

/-- The effective set and the substitutes in it (R188). The substitutes are chosen afresh at every build cut, so that a reserve
of lower position that has become available displaces one in service; the spec does not say whether a standing substitution
is kept (DESIGN CHOICE, log entry 48). -/
def State.effective (s : State) (x : RingId) : List CellId × List (CellId × CellId) :=
  let act := s.actMask x
  let fail := s.failMask x
  let subs := if s.flag F.PLAN_CTRL_AUTOSUB then substitutes act fail (s.admitted x) else []
  ((List.finRange 40).filter (fun k => (act &&& ~~~fail).getLsbD k.val || subs.any (fun p => p.2 == k)), subs)

/-- Free slots filled in order, with as many cells as there are slots. -/
def fillSlots : List (Option CellId) → List CellId → Option (List CellId)
  | [], [] => some []
  | [], _ :: _ => none
  | some k :: t, new => (fillSlots t new).map (k :: ·)
  | none :: t, k :: new => (fillSlots t new).map (k :: ·)
  | none :: _, [] => none

/-- Slots of a new effective set (R189). A cell that leaves gives its slot to the cell that now stands in for it, or for the
failed cell for which it stood in itself; the substitutes that are left take the slots of the failed cells that are, in order
of position, and every other cell keeps its slot. Where this does not place every cell, the set is re-spread. -/
def newSlots (old eff : List CellId) (subs before : List (CellId × CellId)) : List CellId × Bool :=
  let added := eff.filter (fun k => !old.contains k)
  let direct := old.map fun k =>
    if eff.contains k then some k
    else
      let for_ := ((before.find? (fun p => p.2 == k)).map (·.1)).getD k
      (subs.find? (fun p => p.1 == for_ && added.contains p.2)).map (·.2)
  let rest := added.filter fun k => !direct.contains (some k)
  let replaced := (old.zip direct).all fun e =>
    e.2.isSome || subs.any (fun p => p.1 == e.1) || before.any (fun p => p.2 == e.1)
  match (if replaced && rest.all fun k => subs.any fun p => p.2 == k then fillSlots direct rest else none) with
  | some l => (l, false)
  | none => (eff, true)

/-- The registers that a schedule is built from. -/
def cutRegs : List Nat :=
  [A.PLAN_CTRL, A.PLAN_CASC, A.PLAN_DAB, A.PLAN_PAR, A.PLAN_QSEL, A.PLAN_VBSCALE, A.BRG_CTRL, A.BRG_PER]

/-- The state with these registers as they stood at a build cut (R163). -/
def State.atCut (s : State) (v : CutView) : State := v.cfg.foldl (fun s e => s.setWord e.1 e.2) s

/-- The build cut of a destination's next schedule (R160, R163): LIVE fields take effect and the effective set is formed. -/
def State.planCut (s : State) (d : DestId) : State :=
  let t := s.tickFrom (s.ticks + s.hEff + 2 * us)
  let s := s.advanceTo (t - s.hEff - 2 * us)
  let s := s.applyLiveBlock 5
  let s := s.horizonShort
  let chain := if s.brg.running then some (s.brg.start + s.brg.length) else none
  let period := (s.tickNumber t + 2 ^ 32 - (s.fget F.PLAN_CTRL_DELAY + 1)) % 2 ^ 32
  let scales := (List.range 5).map fun q => s.word (A.PLAN_SCALE q)
  if h : d.val < 3 then
    let x : RingId := ⟨d.val, h⟩
    let s := s.cutFails x
    let (eff, subs) := s.effective x
    let old := (s.plan[d]).slots
    let same := eff.all (fun k => old.contains k) && old.length == eff.length
    let (slots, seam) := if same then (old, false) else newSlots old eff subs (s.plan[d]).subs
    let s := if !same && subs.any (fun p => !old.contains p.2) then s.fset F.PLAN_STAT_SUBST 1 else s
    s.modDest d fun q => { q with cut := some ⟨t, period, eff, slots, seam, scales, cutRegs.map fun a => (a, s.word a), subs, chain⟩ }
  else s.modDest d fun q => { q with cut := some ⟨t, period, [], [], false, scales, cutRegs.map fun a => (a, s.word a), [], chain⟩ }

/-- What stands in for a lane, and whether it went stale (R157). -/
def holdStep (holdn : Nat) (carried : Option Frac) (mean : Frac) (h : LaneHold) : Frac × LaneHold × Bool :=
  match carried with
  | some v => (v, ⟨some v, 0⟩, false)
  | none =>
    let miss := min (h.miss + 1) 16
    if holdn < miss then (Frac.zero, ⟨h.value, miss⟩, true)
    else (h.value.getD mean, ⟨h.value, miss⟩, false)

/-- Mean of the carried lanes, 0 where none is (R157). -/
def meanOf (lanes : List (Option Frac)) : Frac :=
  let vs := lanes.filterMap id
  if vs.isEmpty then Frac.zero
  else
    let t := vs.foldl Frac.add Frac.zero
    ⟨t.n, t.d * vs.length⟩

/-- The references of one quantity at a commit, per lane, with the holds that remain and whether a lane went stale. -/
def refsAt (holdn : Nat) (scale : Word) (lanes : List (Option Frac)) (holds : List LaneHold) (eff : List Nat) (count : Nat) :
    List Frac × List LaneHold × Bool :=
  let sc := Frac.ofEv (sfValue scale (wordResidue scale))
  let lanes := lanes.map (fun o => o.map (fun v => v.mul sc))
  let mean := meanOf lanes
  (List.range count).foldl (fun (acc : List Frac × List LaneHold × Bool) i =>
    if eff.contains i then
      let (v, h, stale) := holdStep holdn (lanes.getD i none) mean (holds.getD i ⟨none, 0⟩)
      (acc.1 ++ [v], acc.2.1 ++ [h], acc.2.2 || stale)
    else (acc.1 ++ [Frac.zero], acc.2.1 ++ [⟨none, 0⟩], acc.2.2)) ([], [], false)

/-- The code of a period among those kept, else that of the latest period before it: each value that is missing is that of the
period before (R173). -/
def latestCode (l : List (Nat × BitVec 16)) (period : Nat) : Option (BitVec 16) :=
  ((l.map fun e => ((BitVec.ofNat 32 period - BitVec.ofNat 32 e.1).toInt, e.2)).foldl (fun (best : Option (Int × BitVec 16)) e =>
    if e.1 < 0 then best
    else match best with
      | some b => if e.1 < b.1 then some e else best
      | none => some e) none).map (·.2)

/-- DC-link codes of a ring's cells for a period (R166, R173): those that reached RING for it, and the previous ones for the
other cells. -/
def State.dcLinks (s : State) (x : RingId) (period : Nat) (old : List Int) : List Int :=
  (List.range 40).map fun i =>
    ((latestCode (((s.rings[x]).q0.filter fun e => e.2.1 == i).map fun e => (e.1, e.2.2)) period).map (·.toInt)).getD (old.getD i 0)

/-- The V2 code of a period: slot 0 of its tick, and where it failed or reads 0x8000 that of the period before (R173). -/
def State.busCode (s : State) (period : Nat) (old : Int) : Int :=
  ((latestCode (s.adc.vbus.filter fun e => e.2 != 0x8000) period).map (·.toInt)).getD old

/-- Modulation index (R166), and whether it saturated. -/
def modIndex (volts : Bool) (ref : Frac) (v1 : Int) (mmax : Nat) : Frac × Bool :=
  let m : Frac := if volts then (if v1 ≤ 0 then Frac.zero else ⟨ref.n * 16, ref.d * v1.toNat⟩) else ref
  let top : Frac := ⟨mmax, 65536⟩
  if top.lt m then (top, true) else if m.lt top.neg then (top.neg, true) else (m, false)

/-- Phase shift as a part of π for a DAB power (R173): p = |P| / Pmax with Pmax = V1 V2 HP / (4 LLK). -/
def powerPhase (p v1 v2 : Frac) (hp llk : Nat) : Frac × Bool :=
  let num := (p.abs.mul ⟨32000 * llk, 1⟩)
  let den := v1.mul (v2.mul ⟨hp, 1⟩)
  let ovr := decide (den.n * num.d < num.n * den.d)
  let rest : Frac := if ovr then Frac.zero else ⟨den.n * num.d - num.n * den.d, (den.n * num.d).toNat⟩
  let root := rest.sqrt
  (⟨(root.d : Int) - root.n, 2 * root.d⟩, ovr)

/-- τ in ticks (R173, R174), and whether it was clamped. -/
def phaseDelay (power : Bool) (ref : Frac) (v1 v2 : Frac) (hp llk phimax : Nat) : Frac × Bool :=
  if power && (v1.n ≤ 0 || v2.n ≤ 0) then (Frac.zero, ref.n != 0)
  else
    let (phi, ovr) := if power then powerPhase ref v1 v2 hp llk else ((ref.abs).mul invPi, false)
    let top : Frac := ⟨phimax, 65536⟩
    let (phi, ovr) := if top.lt phi then (top, true) else (phi, ovr)
    let t := phi.mul ⟨hp, 1⟩
    (if ref.n < 0 then t.neg else t, ovr)

/-- A leg's state at the start of a segment and its edges after it: offsets from the segment's start and new states. -/
abbrev LegPlan := Bool × List (Nat × Bool)

/-- Numbers that place a ring's carriers (R165, R172). -/
structure Carrier where
  n     : Nat
  j     : Nat
  delta : Nat
  hp    : Nat
  stag  : Bool
  idx   : Nat
  m     : Nat
  deriving DecidableEq, Repr

/-- A cascade leg with index m from RTIME t0 on, for `len` ticks (R165, R167, R168). Times are scaled by 4 · d · M. A crossing
exactly at t0 is the state there, and no edge after it. -/
def cascadeLeg (c : Carrier) (idx : Frac) (t0 len : Nat) : LegPlan :=
  let sc : Int := 4 * idx.d * c.m
  let tc : Int := 2 * c.n * c.delta * sc
  let o : Int := ((c.j * c.delta * c.m + c.idx * c.delta : Nat) : Int) * 4 * idx.d
  let x1 : Int := 2 * c.n * c.delta * ((idx.d : Int) + idx.n) * c.m
  let x2 : Int := 2 * c.n * c.delta * (3 * (idx.d : Int) - idx.n) * c.m
  let p := ((t0 : Int) * sc - o) % tc
  let wait := fun (x : Int) => (2 * ((x - p) % tc) + sc) / (2 * sc)
  let later := fun (x : Int) => decide ((x - p) % tc ≠ 0 ∧ wait x < len)
  let on := decide (p < x1 ∨ x2 ≤ p)
  let offE := if later x1 then [((wait x1).toNat, false)] else []
  let onE := if later x2 then [((wait x2).toNat, true)] else []
  (on, if (x1 - p) % tc ≤ (x2 - p) % tc then offE ++ onE else onE ++ offE)

/-- A DAB bridge with delay τ from RTIME t0 on: true in state A (R172). Times are scaled by N · M · d. -/
def dabBridge (c : Carrier) (tau : Frac) (t0 len : Nat) : LegPlan :=
  let sc : Int := c.n * c.m * tau.d
  let hp : Int := c.hp * sc
  let s : Int := (if c.stag then ((c.j * c.hp * c.m * tau.d : Nat) : Int) else 0) + ((c.idx * c.hp * c.n * tau.d : Nat) : Int) +
    tau.n * c.n * c.m
  let p := (t0 : Int) * sc - s
  let on := decide ((p / hp) % 2 = 0)
  let first := hp - p % hp
  let edges := (List.range (len / c.hp + 2)).map fun i : Nat =>
    (((2 * (first + hp * (i : Int)) + sc) / (2 * sc)).toNat, if i % 2 = 0 then !on else on)
  (on, edges.filter (fun e => decide (e.1 < len)))

/-- A leg over a period whose RTIME may wrap: the second segment restarts from RTIME 0 (R171). -/
def overWrap (t0 len : Nat) (f : Nat → Nat → LegPlan) : LegPlan :=
  if t0 + len ≤ 2 ^ 48 then f t0 len
  else
    let w := 2 ^ 48 - t0
    let a := f t0 w
    let b := f 0 (len - w)
    let endA := (a.2.getLast?.map (·.2)).getD a.1
    (a.1, a.2 ++ (if endA = b.1 then [] else [(w, b.1)]) ++ b.2.map (fun e => (e.1 + w, e.2)))

/-- Removes pairs of edges that lie too close (R169); the stack holds the edges kept so far, latest first. -/
def dropShort {α : Type} (thr : Nat) : List (Nat × α) → List (Nat × α) → Bool → List (Nat × α) × Bool
  | stack, [], runt => (stack.reverse, runt)
  | [], x :: rest, runt => dropShort thr [x] rest runt
  | top :: st, x :: rest, runt =>
    if (x.1 : Int) - top.1 < thr then dropShort thr st rest true else dropShort thr (x :: top :: st) rest runt

/-- R169 for one leg: the edges it makes within the period that starts at instant t, from its state before t. A leg with no edge
committed before counts one at t, without a distance to keep, and has had its state at t before it (DESIGN CHOICE, log entry 53:
the manual does not say what e_last and the state after it are at a cell's first schedule). -/
def legEdges {α : Type} [DecidableEq α] (t len thr : Nat) (last : Option (Nat × α)) (l : α × List (Nat × α)) :
    List (Nat × α) × Bool :=
  let start := match last with
    | some (_, st) => if st = l.1 then [] else [(0, l.1)]
    | none => [(0, l.1)]
  let es := start ++ l.2
  let es := match es, last with
    | (o, v) :: rest, some (e, _) => if t + o < e + thr then (e + thr - t, v) :: rest else (o, v) :: rest
    | es, _ => es
  let (es, runt) := dropShort thr [] es false
  (es.filter (fun e => decide (e.1 < len)), runt)

/-- State of a leg at an offset: the last edge at or before it, else the state before the period. -/
def legAt {α : Type} (before : α) (es : List (Nat × α)) (o : Nat) : α :=
  ((es.filter (fun e => decide (e.1 ≤ o))).getLast?.map (·.2)).getD before

/-- Gate code of a leg (R177): high side on, or low side on; 0 with both off. -/
def legCode (b : Bool) : BitVec 2 := if b then 2 else 1

/-- Gate state of six legs (R177): two bits a leg, high side first. -/
def gatesOf (legs : List (BitVec 2)) : Nat := legs.foldl (fun m b => m * 4 + b.toNat) 0

/-- Bypass state (R177). -/
def gatesBypass : Nat := 0x500

/-- A cell's records in one period: offset from the tick and gate state of each. -/
abbrev CellPlan := List (Nat × Nat)

/-- Records from the legs' edges (R170): a full state at offset 0, a record at each later change, changes closer than
TREC merged into the record before them, and none closer than TREC to the end. -/
def mergeRecords (len trec : Nat) (before : List (BitVec 2)) (legs : List (List (Nat × BitVec 2))) : CellPlan :=
  let at_ := fun o => gatesOf ((before.zip legs).map fun x => legAt x.1 x.2 o)
  let offs := ((legs.flatMap (fun l => l.map (·.1))).filter (fun o => decide (0 < o))).mergeSort (fun a b => a ≤ b)
  let recs := offs.foldl (fun (acc : CellPlan) o =>
    match acc with
    | (r, g) :: rest => if o < r + trec then (r, at_ o) :: rest else if at_ o = g then (r, g) :: rest else (o, at_ o) :: (r, g) :: rest
    | [] => [(o, at_ o)]) [(0, at_ 0)]
  recs.reverse.filter (fun r => r.1 = 0 || decide (r.1 + trec ≤ len))

/-- Gate code of leg i in a gate word. -/
def legBits (gates i : Nat) : BitVec 2 := BitVec.ofNat 2 (gates / 4 ^ (5 - i))

/-- Last edges of the six legs after a cell's records. -/
def lastEdges (t : Nat) (last : List (Option (Nat × BitVec 2))) (rs : CellPlan) : List (Option (Nat × BitVec 2)) :=
  (List.range 6).map fun i =>
    rs.foldl (fun (l : Option (Nat × BitVec 2)) r =>
      match l with
      | some (e, st) => if st = legBits r.2 i then some (e, st) else some (t + r.1, legBits r.2 i)
      | none => some (t + r.1, legBits r.2 i)) (last.getD i none)

/-- The records of one effective cell, with its last edges and whether a runt was removed. -/
def buildCell (c : Carrier) (m tau : Frac) (t rt len thr trec : Nat) (last : List (Option (Nat × BitVec 2))) :
    CellPlan × List (Option (Nat × BitVec 2)) × Bool :=
  let a := overWrap rt len (cascadeLeg c m)
  let b := overWrap rt len (cascadeLeg c m.neg)
  let p := overWrap rt len (dabBridge c Frac.zero)
  let q := overWrap rt len (dabBridge c tau)
  let inv : LegPlan → LegPlan := fun l => (!l.1, l.2.map (fun e => (e.1, !e.2)))
  let plans : List (BitVec 2 × List (Nat × BitVec 2)) :=
    [a, b, p, inv p, q, inv q].map fun l => (legCode l.1, l.2.map fun e => (e.1, legCode e.2))
  let done := plans.zipIdx.map fun x => legEdges t len thr (last.getD x.2 none) x.1
  let before := plans.zipIdx.map fun x => ((last.getD x.2 none).map (·.2)).getD x.1.1
  let rs := mergeRecords len trec before (done.map (·.1))
  (rs, lastEdges t last rs, done.any (·.2))

/-- A record with its CRC (R176, R180). -/
def packRecord (time : BitVec 48) (gates kind seq flags ring pos : Nat) : BitVec 128 :=
  let body : Nat := ((((((time.toNat * 2 ^ 12 + gates % 2 ^ 12) * 2 ^ 4 + kind % 2 ^ 4) * 2 ^ 16 + seq % 2 ^ 16) * 2 ^ 8 +
    flags % 2 ^ 8) * 2 ^ 2 + ring % 4) * 2 ^ 6 + pos % 2 ^ 6) * 2 ^ 16
  BitVec.ofNat 128 (body * 2 ^ 16 + (crc16 (bytesBE 14 body)).toNat)

/-- Does a record's CRC pass? -/
def recordOk (r : BitVec 128) : Bool := (crc16 (bytesBE 14 (r.toNat / 2 ^ 16))).toNat == r.toNat % 2 ^ 16

def recTime (r : BitVec 128) : BitVec 48 := r.extractLsb' 80 48
def recGates (r : BitVec 128) : BitVec 12 := r.extractLsb' 68 12
def recKind (r : BitVec 128) : BitVec 4 := r.extractLsb' 64 4
def recSeq (r : BitVec 128) : BitVec 16 := r.extractLsb' 48 16
def recFlags (r : BitVec 128) : BitVec 8 := r.extractLsb' 40 8
def recRing (r : BitVec 128) : BitVec 2 := r.extractLsb' 38 2
def recPos (r : BitVec 128) : BitVec 6 := r.extractLsb' 32 6

/-- FLAGS bits (R178). -/
def flagHeld : Nat := 0x80
def flagPstart : Nat := 0x40
def flagBypass : Nat := 0x20
def flagSeam : Nat := 0x10

/-- A cell's records packed, numbered from its next sequence number (R179). -/
def packCell (s : State) (x : RingId) (k : CellId) (t : Nat) (len : Nat) (base : Nat) (seam : Bool) (seq : BitVec 16) (rs : CellPlan) :
    List (BitVec 128) :=
  let rt := (s.rtimeAt t).toNat
  let w := 2 ^ 48 - rt
  let wrapAt := if rt + len ≤ 2 ^ 48 then none else (rs.find? (fun r => decide (w ≤ r.1))).map (·.1)
  rs.zipIdx.map fun x' =>
    let (r, i) := x'
    let flags := base + (if r.1 = 0 then flagPstart + (if seam then flagSeam else 0) else 0) +
      (if wrapAt = some r.1 && !(r.1 = 0 && seam) then flagSeam else 0)
    packRecord (s.rtimeAt (t + r.1)) r.2 0 (seq.toNat + i) flags x.val (k.val + 1)

/-- What one build gives: records, edges left, the status bits it sets (MCLAMP, DCLAMP, RUNT), and the cells that have no record
yet since RTIME wrapped. -/
structure Build where
  recs   : List (BitVec 128)
  edges  : List (Nat × List (Option (Nat × BitVec 2)))
  counts : List (Nat × Nat)
  mclamp : Bool
  dclamp : Bool
  runt   : Bool
  due    : BitVec 40
  deriving DecidableEq, Repr

/-- Does RTIME wrap by the end of a period, without a record at or after the wrap (R171)? -/
def wrapDue (rt len : Nat) (rs : CellPlan) : Bool :=
  decide (2 ^ 48 ≤ rt + len) && rs.all fun r => decide (rt + r.1 < 2 ^ 48)

/-- A ring's schedule from its references per cell and its V1 and V2 (R163 to R179, R190). -/
def State.buildRing (s : State) (x : RingId) (v : CutView) (d : Dest) (casc dab : List Frac) (v1s : List Int) (v2c : Int)
    (held : Bool) : Build :=
  let len := s.periodFrom v.tick
  let rt := (s.rtimeAt v.tick).toNat
  let qs := s.planQty ⟨x.val, by omega⟩
  let vb := sfValue (s.word A.PLAN_VBSCALE) (wordResidue (s.word A.PLAN_VBSCALE))
  let hp := s.fget F.PLAN_DAB_HPER * 64
  let base := if held then flagHeld else 0
  (maskCells (s.admitted x)).foldl (fun (b : Build) k =>
    let seq := d.seqs[k]
    let last := ((d.edges.find? (fun e => e.1 == k.val)).map (·.2)).getD []
    let seam := v.seam || d.seamDue.getLsbD k.val
    let due := fun (rs : CellPlan) => if wrapDue rt len rs then b.due ||| BitVec.twoPow 40 k.val else b.due
    match v.slots.findIdx? (· == k) with
    | none =>
      { b with
        recs := b.recs ++ packCell s x k v.tick len (base + flagBypass) seam seq [(0, gatesBypass)]
        edges := b.edges ++ [(k.val, lastEdges v.tick last [(0, gatesBypass)])]
        counts := b.counts ++ [(k.val, 1)]
        due := due [(0, gatesBypass)] }
    | some j =>
      let w := s.view x k
      let v1 := v1s.getD k.val 0
      let (m, mc) := modIndex (qs.getD 0 0 == 0) (casc.getD k.val Frac.zero) v1 (s.fget F.PLAN_CASC_MMAX)
      let v2 : Frac := if w.dLo 6 = 0 then Frac.zero else (Frac.ofEv vb).mul ⟨v2c * 10000, w.dLo 6⟩
      let (tau, dc) := phaseDelay (qs.getD 1 2 == 2) (dab.getD k.val Frac.zero) ⟨v1, 16⟩ v2 hp (w.desc.getD 7 0).toNat (w.dHi 6)
      let c : Carrier := ⟨v.slots.length, j, (s.fget F.PLAN_CASC_DIV + 1) * len, hp, s.flag F.PLAN_CTRL_DABSTAG,
        s.fget F.PLAN_PAR_IDX, s.fget F.PLAN_PAR_CNT + 1⟩
      let (rs, es, runt) := buildCell c m tau v.tick rt len ((w.dLo 3 + w.dHi 3) * 8) (w.dHi 4 * 8) last
      { recs := b.recs ++ packCell s x k v.tick len base seam seq rs
        edges := b.edges ++ [(k.val, es)]
        counts := b.counts ++ [(k.val, rs.length)]
        mclamp := b.mclamp || mc
        dclamp := b.dclamp || dc
        runt := b.runt || runt
        due := due rs }) ⟨[], [], [], false, false, false, 0⟩

/-- A duty field (R192), and whether it saturated. -/
def dutyField (v : Frac) : Nat × Bool :=
  let q := (v.n * 65536) / v.d
  let r2 := 2 * ((v.n * 65536) % v.d)
  let n := if r2 < v.d then q else if (v.d : Int) < r2 then q + 1 else if q % 2 = 0 then q else q + 1
  ((clampInt 0 65535 n).toNat, decide (n < 0 ∨ 65535 < n))

/-- A local-bridge entry with its CRC (R191). -/
def packEntry (time : BitVec 48) (duties : List Nat) : BitVec 128 :=
  let body := duties.foldl (fun m d => m * 2 ^ 16 + d % 2 ^ 16) time.toNat
  BitVec.ofNat 128 (body * 2 ^ 16 + (crc16 (bytesBE 14 body)).toNat)

/-- PWM period starts from T on and before T + P (R191), as the build cut predicts them: from the chain's next start after the
period then in force, or from T where the chain starts there. -/
def State.pwmStarts (s : State) (chain : Option Nat) (t : Nat) : List Nat :=
  let per := s.fget F.BRG_PER_PER * 32
  let first := match chain with
    | some next => if t ≤ next then next else next + alignUp per (t - next)
    | none => t
  ((List.range (s.periodFrom t / per + 1)).map fun i => first + i * per).filter (fun a => decide (t ≤ a ∧ a < t + s.periodFrom t))

/-- The local bridge's entries from its duties. -/
def State.buildBrg (s : State) (v : CutView) (duties : List Frac) : Build :=
  let ds := (List.range 4).map fun i => dutyField (duties.getD i Frac.zero)
  ⟨(s.pwmStarts v.chain v.tick).map fun a => packEntry (s.rtimeAt a) (ds.map (·.1)), [], [], ds.any (·.2), false, false, 0⟩

/-- A destination's schedule from its references, with the registers as they stood at the cut (R163). -/
def State.buildDest (s : State) (d : DestId) (v : CutView) (q : Dest) (refs : List (List Frac)) (v1s : List Int) (v2 : Int)
    (held : Bool) : Build :=
  let s := s.atCut v
  if h : d.val < 3 then s.buildRing ⟨d.val, h⟩ v q (refs.getD 0 []) (refs.getD 1 []) v1s v2 held
  else s.buildBrg v (refs.getD 0 [])

/-- Count field of a destination's misses. -/
def missField (d : DestId) : Fld :=
  match d.val with
  | 0 => F.PLAN_MISSCNT_A
  | 1 => F.PLAN_MISSCNT_B
  | 2 => F.PLAN_MISSCNT_C
  | _ => F.PLAN_MISSCNT_BRG

/-- A deadline miss (R184), and the controlled stop at the second consecutive one (R186). -/
def State.deadlineMiss (s : State) (d : DestId) : State :=
  let s := s.modDest d fun q => { q with missRun := q.missPrev + 1 }
  let s := ((s.fset F.PLAN_STAT_MISS 1).finc (missField d)).raise srcDeadlineMiss
  if 2 ≤ (s.plan[d]).missRun then s.beginStop true else s

/-- The destination's sequence numbers after its records, its edges, and what the record list leaves for AMEND. -/
def Dest.afterBuild (q : Dest) (b : Build) : Dest :=
  { q with
    edges := b.edges
    seqs := b.counts.foldl (fun v e =>
      if h : e.1 < 40 then v.set e.1 (v[e.1] + BitVec.ofNat 16 e.2) else v) q.seqs
    seamDue := b.counts.foldl (fun m e => m &&& ~~~BitVec.twoPow 40 e.1) q.seamDue ||| b.due }

/-- RTIME has wrapped since the last period that was built: every cell's next record carries SEAM (R171). -/
def Dest.sinceWrap (q : Dest) (t : Nat) (rt : BitVec 48) : Dest :=
  let wrapped := q.builtAt.any fun p => decide (2 ^ 48 ≤ t - p.1 ∨ rt < p.2)
  { q with builtAt := some (t, rt), seamDue := if wrapped then BitVec.allOnes 40 else q.seamDue }

/-- What a destination keeps between schedules ends with the power stage STOPPED: the next schedule starts from reference 0
(R157, R164). -/
def Dest.stopped (q : Dest) : Dest := { q with extRefs := [], hold := [], missRun := 0, missPrev := 0 }

/-- The power stage enters STOPPED. -/
def State.planStopped (s : State) : State := { s with plan := s.plan.map Dest.stopped }

/-- The status bits that a schedule's values set (R166, R169, R173). -/
def State.clampBits (s : State) (b : Bool × Bool × Bool) : State :=
  let s := if b.1 then s.fset F.PLAN_STAT_MCLAMP 1 else s
  let s := if b.2.1 then s.fset F.PLAN_STAT_DCLAMP 1 else s
  if b.2.2 then s.fset F.PLAN_STAT_RUNT 1 else s

/-- The commit instant of a destination's next schedule (R163, R164, R184): R where every quantity in use has been
EMITted, else E; nothing outside PRECHARGE, RUN and RIDE_THROUGH. -/
def State.planCommit (s : State) (d : DestId) : State :=
  let s := if (s.plan[d]).cut.isNone then s.planCut d else s
  match (s.plan[d]).cut with
  | none => s
  | some v =>
    let s := s.advanceTo (v.tick - s.hEff)
    let s := s.modDest d fun q => { q with cut := none }
    if !s.running then s.modDest d Dest.stopped
    else
      let qs := (s.atCut v).planQty d
      if qs.isEmpty then s
      else
        let s := if s.brg.running || s.stopReached then s
          else { s with brg := { s.brg with running := true, start := v.tick, length := 0 } }
        let q := (s.plan[d]).sinceWrap v.tick (s.rtimeAt v.tick)
        let sets := qs.map fun n => (q.refs.find? (fun r => r.qty.toNat == n && r.period == v.period)).map (·.lanes)
        let complete := sets.all Option.isSome
        let eff := if d.val < 3 then v.slots.map (·.val) else [0, 1, 2, 3]
        let count := if d.val < 3 then 40 else 4
        let parts := (qs.zipIdx).map fun n =>
          refsAt ((s.atCut v).fget F.PLAN_CTRL_HOLDN) (v.scales.getD n.1 0) ((sets.getD n.2 none).getD []) (q.hold.getD n.2 []) eff count
        let q1 : Dest := if h : d.val < 3 then
          { q with v1 := s.dcLinks ⟨d.val, h⟩ v.period q.v1, v2 := s.busCode v.period q.v2 } else q
        let real := s.buildDest d v q (parts.map (·.1)) q1.v1 q1.v2 false
        let ext := s.buildDest d v q q.extRefs q.extV1 q.extV2 true
        let b := if complete then real else ext
        let s := if complete && parts.any (fun p => p.2.2) then (s.fset F.PLAN_STAT_STALE 1).raise srcPlanStale else s
        let s := s.clampBits (b.mclamp, b.dclamp, b.runt)
        let s := s.modDest d fun _ =>
          { (Dest.afterBuild q1 b) with
            sched := some ⟨v.tick, !complete, b.recs, if complete then ext.recs else [], ext.edges, q1.edges,
              (ext.mclamp, ext.dclamp, ext.runt), 0⟩
            live := q1.live.filter (fun r => decide (0 ≤ (recTime r - s.rtime).toInt)) ++ b.recs
            slots := v.slots
            lastEff := v.eff
            subs := v.subs
            hold := parts.map (fun p => p.2.1)
            extRefs := if complete then parts.map (·.1) else q1.extRefs
            extV1 := if complete then q1.v1 else q1.extV1
            extV2 := if complete then q1.v2 else q1.extV2
            refs := q1.refs.filter (fun r => decide (0 < signedOf 32 (r.period + 2 ^ 32 - v.period)))
            missPrev := q1.missRun
            missRun := 0 }
        let s := if h : d.val < 3 then
          let m := v.eff.foldl (fun (m : BitVec 40) k => m ||| BitVec.twoPow 40 k.val) 0
          s.setMask40 (F.PLAN_EFFL_MASK (⟨d.val, h⟩ : Fin 3)) (F.PLAN_EFFH_MASK (⟨d.val, h⟩ : Fin 3)) m else s
        if complete then s else s.deadlineMiss d

/-- A record or entry leaves PLAN; without the RING domain the control lanes carry nothing (R23). -/
def State.sendRecord (s : State) (d : DestId) (r : BitVec 128) : State :=
  if h : d.val < 3 then (if s.powered domRing then s.sendL0 ⟨d.val, h⟩ (.sched r) else s) else s.emit (.brgEntry r)

/-- The E records that stand in for the R records from a failed one on (R185): those of later cells, and those of the
same cell from the failed record's TIME on, numbered on from it. -/
def spareFrom (bad : BitVec 128) (spare : List (BitVec 128)) : List (BitVec 128) :=
  let same := spare.filter fun r => recPos r == recPos bad && decide (0 ≤ (recTime r - recTime bad).toInt)
  let later := spare.filter fun r => decide (recPos bad < recPos r)
  (same.zipIdx.map fun x =>
    packRecord (recTime x.1) (recGates x.1).toNat (recKind x.1).toNat ((recSeq bad).toNat + x.2) (recFlags x.1).toNat
      (recRing x.1).toNat (recPos x.1).toNat) ++ later

/-- As `spareFrom`, for local-bridge entries: those from the failed entry's TIME on. -/
def spareEntries (bad : BitVec 128) (spare : List (BitVec 128)) : List (BitVec 128) :=
  spare.filter fun r => decide (0 ≤ (recTime r - recTime bad).toInt)

/-- Last edges of the cells of a destination. -/
abbrev CellEdges := List (Nat × List (Option (Nat × BitVec 2)))

/-- The last edges after a switch to E (R169, R185): R's for the cells without a record of it, E's for those with records of E only,
and for the cell of the failed record those that its dispatched R records, which stand, and its E records leave together. -/
def Schedule.switchEdges (c : Schedule) (rt : BitVec 48) (bad : BitVec 128) (stood es : List (BitVec 128)) (old : CellEdges) : CellEdges :=
  old.map fun e =>
    let mine := fun (r : BitVec 128) => (recPos r).toNat == e.1 + 1
    if !es.any mine then e
    else if mine bad then
      (e.1, lastEdges c.tick (((c.before.find? (fun f => f.1 == e.1)).map (·.2)).getD [])
        (((stood ++ es).filter mine).map fun r => ((recTime r - rt).toNat, (recGates r).toNat)))
    else (c.spareEdges.find? (fun f => f.1 == e.1)).getD e

/-- E records leave; one that fails its CRC does not, and a controlled stop is requested at once, until whose instant the others
execute as committed (R186). It sets SCHED_CRC and PLAN.STAT.CRC as a record of R does (DESIGN CHOICE, log entry 53: the manual
states them for R185 only). -/
def State.sendSpare (s : State) (d : DestId) (es : List (BitVec 128)) : State :=
  es.foldl (fun s e => if recordOk e then s.sendRecord d e else ((s.fset F.PLAN_STAT_CRC 1).raise srcSchedCrc).beginStop true) s

/-- Dispatch of the records that are left (R181, R185, R186); each record's CRC is checked as it leaves. -/
def State.dispatchAll (s : State) (d : DestId) (held : Bool) (spare : List (BitVec 128)) : List (BitVec 128) → State
  | [] => s
  | r :: rest =>
    if held then s.sendSpare d (r :: rest)
    else if recordOk r then (s.sendRecord d r).dispatchAll d held spare rest
    else
      let s := (s.fset F.PLAN_STAT_CRC 1).raise srcSchedCrc
      let es := if d.val < 3 then spareFrom r spare else spareEntries r spare
      let s := (s.deadlineMiss d).clampBits (((s.plan[d]).sched.map (·.spareBits)).getD (false, false, false))
      let s := s.modDest d fun q =>
        { q with
          live := q.live.filter (fun l => !((r :: rest).contains l)) ++ es
          edges := (q.sched.map fun c =>
            c.switchEdges (s.rtimeAt c.tick) r (c.records.take (c.records.length - (r :: rest).length)) es q.edges).getD q.edges
          seqs := es.foldl (fun v e =>
            let p := (recPos e).toNat - 1
            if h : p < 40 then v.set p (recSeq e + 1) else v) q.seqs }
      s.sendSpare d es

/-- A write of a position to PLAN.BYPx (R182, R183). Without the RING domain the control lanes carry no AMEND (R23). -/
def State.planBypass (s : State) (x : RingId) (k : CellId) : State :=
  let s := s.setFail x k
  let d : DestId := ⟨x.val, by omega⟩
  let from_ : Int := s.fget (F.PLAN_WLAT_LAT x) * 64 + (s.view x k).dLo 4 * 8
  let mine := fun (r : BitVec 128) => recPos r == BitVec.ofNat 6 (k.val + 1) && decide (0 ≤ (recTime r - s.rtime).toInt)
  let timely := fun (r : BitVec 128) => decide (from_ ≤ (recTime r - s.rtime).toInt)
  (s.plan[d]).live.foldl (fun s r =>
    if mine r then
      if timely r then
        if s.powered domRing then
          (s.sendL0 x (.sched (packRecord (recTime r) gatesBypass 1 (recSeq r).toNat
            ((recFlags r).toNat ||| flagBypass) x.val (k.val + 1)))).finc F.PLAN_AMDCNT_SENT
        else s
      else (s.finc F.PLAN_AMDCNT_WITHHELD).fset F.PLAN_STAT_AMLATE 1
    else s) s

/-- Ones written to FAIL bits clear those that no standing condition holds (R187). -/
def State.failClear (s : State) (x : RingId) (m : BitVec 40) : State :=
  let keep := (List.finRange 40).foldl (fun (a : BitVec 40) k =>
    if m.getLsbD k.val && !s.failStands x k then a else a ||| BitVec.twoPow 40 k.val) 0
  s.setMask40 (F.PLAN_FAILL_MASK x) (F.PLAN_FAILH_MASK x) (s.failMask x &&& keep)

/-- PLAN works: it is powered, and the oscillator that its island runs from has not stopped (R214). -/
def State.planRuns (s : State) : Bool := s.powered domPlan && !s.oscStopped

/-- EMIT_RECEIVED (R153): the oldest EMIT of a core's FIFO reaches PLAN. -/
def execEmitReceived (n : CoreId) (s : State) : Res :=
  let s := s.fresh
  match (s.cores[n]).fifo with
  | [] => .next s
  | m :: rest =>
    if s.oscStopped then .next s
    else
      let s := s.modCore n fun c => { c with fifo := rest }
      .next (if s.powered domPlan then s.planIntake m else s)

/-- BUILD_CUT (R160, R163, R214). -/
def execBuildCut (d : DestId) (s : State) : Res :=
  .next (if s.planRuns then s.fresh.planCut d else s.fresh)

/-- COMMIT (R163). -/
def execCommit (d : DestId) (s : State) : Res :=
  .next (if s.planRuns then s.fresh.planCommit d else s.fresh)

/-- DISPATCH (R181). -/
def execDispatch (d : DestId) (s : State) : Res :=
  let s := s.fresh
  match (s.plan[d]).sched with
  | some c =>
    if s.planRuns then
      let s := s.dispatchAll d c.held c.spare (c.records.drop c.sent)
      .next (s.modDest d fun q => { q with sched := (q.sched.map fun c => { c with sent := c.records.length }) })
    else .next s
  | none => .next s

end Sys2Proof.Machine
end

