-- ==== Sys2Proof/Machine/Adc.lean ====
section
/-!
DEFINITION. Control measurement (R337 to R358): the conversion grid, sample words, sampling groups and their frames,
references, self-calibration and the zero-crossing detector.
-/

namespace Sys2Proof.Machine

/-- Ticks of one conversion slot, 250 ns, and of the 300 ns of R339 and R346. -/
def slotTicks : Nat := 2000
def stampTicks : Nat := 2400

/-- The code that stands in place of a conversion not made (R341). -/
def noCode : BitVec 16 := 0x8000

/-- Slots of the control period in force (R337). -/
def State.slotCount (s : State) : Nat := slotsOf s.timer.copy

/-- Sampling instant of slot i of the period in progress. -/
def State.slotInstant (s : State) (i : Nat) : Nat := s.adc.slotAt + slotTicks * i

def State.converterOk (s : State) (k : Nat) : Bool :=
  (s.fget F.ADC_REF_SETTLED).testBit k && !(s.fget F.ADC_REF_CALBUSY).testBit k

/-- The raw conversion of a differential input voltage in nV: full scale is 10.24 V, and 2.048 times the sensor supply where the
converter uses that (R340, R351). -/
def State.rawCode (s : State) (k : Nat) (nv : Int) : Int :=
  if s.fget F.ADC_REF_SEL / 4 ^ k % 4 = 2 then divHalfEven (nv * 32768 * 1000) (max 1 s.adc.vSup * 2048)
  else divHalfEven (nv * 32768) 10240000000

/-- A raw conversion after the correction of R355, and whether it saturates (R340). -/
def State.convert (s : State) (k : Nat) (r : Int) : BitVec 16 × Bool :=
  let c := roundHalfEven ((r - s.fgetI (F.ADC_CAL_OFFS k)) * (s.fget (F.ADC_CAL_GAIN k) : Int)) (-15)
  (BitVec.ofInt 16 (clampInt (-32767) 32767 c), decide (c < -32767 ∨ 32767 < c))

/-- The code of each channel in a slot, and OVR for the converters that saturate (R340, R341). -/
def State.sampleAll (s : State) (codes : List Int) : List (BitVec 16) × State :=
  let all := (List.range 32).map fun c =>
    if s.converterOk (c / 4) then s.convert (c / 4) (codes.getD c 0) else (noCode, false)
  let ovr := (List.range 8).filter fun k => (List.range 4).any fun j => (all.getD (4 * k + j) (noCode, false)).2
  (all.map (·.1), s.each ovr fun k s => s.fsetBit F.ADC_STAT_OVR k)

/-- Channels of a group, lowest first. -/
def maskList (mask : Nat) : List Nat := (List.range 32).filter fun c => mask.testBit c

def State.groupMask (s : State) (g : UnitId) : Nat := (s.adc.masks[g]).toNat

/-- Does a group write its frame in the period in progress (R345, R349)? -/
def State.groupOn (s : State) (g : UnitId) : Bool := s.groupMask g != 0 && !s.adc.halted.getLsbD g.val

/-- Does its DMA write the words and the stamp of a period's frame? -/
def State.groupOnAt (s : State) (g : UnitId) (period : Nat) : Bool := s.maskAt g period != 0 && !s.adc.halted.getLsbD g.val

/-- Base of a group's frame for a period (R345). -/
def State.frameBase (s : State) (g period : Nat) : Nat :=
  s.fget (F.ADC_GBUF_BASE g) * 1024 + period % 2 ^ s.fget (F.ADC_GBUF_KLOG g) * 0x400

/-- Slot of sample i of a group. -/
def State.groupSlot (s : State) (g i : Nat) : Nat :=
  s.fget (F.ADC_GTIME_OFFS g) + i * s.fget (F.ADC_GTIME_SPACE g)

def State.groupSamples (s : State) (g : Nat) : Nat := s.fget (F.ADC_GTIME_NSMP g) + 1

/-- A DMA write failed: the group halts, and no frame of it is completed (R349). -/
def State.haltGroup (s : State) (g : UnitId) : State :=
  let s := { s with adc := { s.adc with
    halted := s.adc.halted ||| BitVec.twoPow 8 g.val
    due := s.adc.due.filter fun e => e.1 != g } }
  (s.fsetBit F.ADC_STAT_DMAHALT g.val).raise srcAdcDma

/-- A DMA write of one word of a group's frame for a period. -/
def State.dmaWord (s : State) (g : UnitId) (period a w : Nat) : State :=
  if s.groupOnAt g period then
    let (s, ok) := s.memStore 0x22 a (bytesLE 4 w)
    if ok then s else s.haltGroup g
  else s

/-- A sample word meets a full crossing from I_MOD: the converters cannot stall, so it is dropped, the crossing's count advances
and XING_OVF is set (R37). -/
def State.dropWord (s : State) : State := { s with adc := { s.adc with drops := s.adc.drops + 1 } }.raise srcXing

/-- Sample i of a group enters its frame (R345); the words of the channels in `full` are dropped at the crossing, and the DMA
writes 0x8000 with its tag in their place (R341, R344). -/
def State.groupSample (s : State) (g : UnitId) (i : Nat) (code : Nat → BitVec 16) (full : Word) : State :=
  let chans := maskList (s.groupMask g)
  let n := s.groupSamples g
  s.each (List.range chans.length) fun c s =>
    let ch := chans.getD c 0
    let lost := full.getLsbD ch
    (if lost then s.dropWord else s).dmaWord g s.adc.period (s.frameBase g s.adc.period + 4 * (c * n + i))
      (sampleWord (if lost then noCode else code ch) ch s.adc.period)

/-- The slot after which a group's frame of this period is complete: that of its last sample inside the period. -/
def State.lastSlot (s : State) (g : Nat) : Nat :=
  ((List.range (s.groupSamples g)).filter fun i => decide (s.groupSlot g i < s.slotCount)).foldl
    (fun m i => max m (s.groupSlot g i)) 0

/-- The last sample of a group inside its period has been taken: samples beyond the period are written as 0x8000 with
GCLIP (R348), and the frame waits for its stamp (R346). A sample in the last slot itself falls inside its period, as R341 has it
and R347 admits it, and is taken (DEDUCED, log entry 55). -/
def State.closeFrame (s : State) (g : UnitId) : State :=
  let beyond := (List.range (s.groupSamples g)).filter fun i => decide (s.slotCount ≤ s.groupSlot g i)
  let s := if beyond.isEmpty then s else s.fsetBit F.ADC_STAT_GCLIP g.val
  let s := s.each beyond fun i s => s.groupSample g i (fun _ => noCode) 0
  { s with adc := { s.adc with due := s.adc.due ++ [(g, s.adc.period, s.slotInstant s.adc.slot)] } }

/-- The groups at one slot. -/
def State.groupsAt (s : State) (slot : Nat) (code : Nat → BitVec 16) (full : Word) : State :=
  s.each (List.finRange 8) fun g s =>
    if s.groupOn g then
      let mine := (List.range (s.groupSamples g)).filter fun i => s.groupSlot g i == slot
      let s := s.each mine fun i s => s.groupSample g i code full
      if s.lastSlot g == slot then s.closeFrame g else s
    else s

/-- A detection at an instant gives boundary 4, 1 µs later, to the takes that wait for it and are staged by then
(R138, R357). -/
def State.zxPrint (s : State) (t : Nat) : State :=
  s.takesReach 4 (t + us)

/-- The zero-crossing detector at one slot (R357); `bad` are the channels whose word reaches it with a failed tag. -/
def State.zxSlot (s : State) (t : Nat) (code : Nat → BitVec 16) (bad : Word) : State :=
  let v := code (s.fget F.ADC_ZXCFG_CH)
  if !s.flag F.ADC_ZXCFG_EN then s
  else if bad.getLsbD (s.fget F.ADC_ZXCFG_CH) then s.raise srcAdcTag
  else if v == noCode then s
  else if v.toInt ≤ -(s.fget F.ADC_ZXCFG_HYS : Int) then { s with adc := { s.adc with zxReady := true } }
  else if s.adc.zxReady && decide (0 ≤ v.toInt) then
    let s := { s with adc := { s.adc with zxReady := false, zxAt := some (s.rtimeAt t).toNat } }
    (s.fset F.ADC_ZXTL_TIME (s.rtimeAt t).toNat).zxPrint t
  else s

/-- PLAN's own copy of slot 0 of the DC-bus channel (R173); a word that reaches it with a failed tag is as one not made. -/
def State.busSlot (s : State) (slot : Nat) (code : Nat → BitVec 16) (bad : Word) : State :=
  let ch := s.fget F.PLAN_DAB_VBUS
  if slot = 0 then
    { s with adc := { s.adc with vbus := (s.adc.period, if bad.getLsbD ch then noCode else code ch) :: s.adc.vbus.take 7 } }
  else s

/-- The period tick as the conversion grid sees it: LIVE values take effect, each group's mask of the period is kept,
and slot 0 is next (R337, R345). -/
def State.adcTick (s : State) (n tick : Nat) : State :=
  if s.powered domAnlg then
    let s := s.applyLiveBlock 9
    let masks : Vector Word 8 := Vector.ofFn fun g : UnitId => s.word (A.ADC_GMASK g)
    { s with adc := { s.adc with
      period := n, slotAt := tick, slot := 0, masks := masks, past := (n, masks) :: s.adc.past.take 63 } }
  else s

/-- GROUP_STAMP_WRITE (R346): the oldest frame of the group that waits takes its stamp, and the scripts' predictors take
its values (R77). -/
def execGroupStampWrite (g : UnitId) (s : State) : Res :=
  let s := s.fresh
  match s.adc.due.find? (fun e => e.1 == g) with
  | some e =>
    let s := { s with adc := { s.adc with due := s.adc.due.erase e } }
    let s := s.advanceTo (e.2.2 + stampTicks)
    let s := s.dmaWord g e.2.1 (s.frameBase g e.2.1 + 0x3FC) e.2.1
    .next (if s.groupOnAt g e.2.1 then
      s.stampIntake e.2.1 fun d => !d.kind && s.slotGroup d.src e.2.1 == some g
      else s)
  | none => .next s

/-- A write of ADC.GBUFg: a halted group resumes with the first period that starts after it (R349). -/
def State.gbufWritten (s : State) (g : UnitId) : State :=
  if s.adc.halted.getLsbD g.val then
    { s with adc := { s.adc with halted := s.adc.halted &&& ~~~BitVec.twoPow 8 g.val, masks := s.adc.masks.set g 0 } }
  else s

/-- Reference code of converter k (R351). -/
def State.refSel (s : State) (k : Nat) : Nat := s.fget F.ADC_REF_SEL / 4 ^ k % 4

def State.refOk (s : State) (sel : Nat) : Bool := if sel = 1 then s.adc.extOk else if sel = 2 then s.adc.supOk else true

/-- A converter's words are not settled from now on: for 2 ms under the internal reference, 200 µs under the others, and
without an end while its reference is lost (R352, R353). -/
def State.unsettle (s : State) (k : UnitId) : State :=
  let sel := s.refSel k
  let wait : Option Nat := if s.refOk sel then some (s.ticks + if sel = 0 then 2000 * us else 200 * us) else none
  let s := (s.fclrBit F.ADC_REF_SETTLED k.val)
  let s := { s with adc := { s.adc with settle := s.adc.settle.set k wait } }
  if s.refOk sel then s else (s.fset F.ADC_STAT_REFLOST 1).raise srcAdcRef

/-- A calibration ends without a result when SELk or CALk of its converter is written (R356). -/
def State.abortCal (s : State) (k : UnitId) : State :=
  if (s.fget F.ADC_REF_CALBUSY).testBit k.val then
    ((s.fclrBit F.ADC_REF_CALBUSY k.val).fset F.ADC_STAT_CALABT 1).unsettle k
  else s

/-- ADC.REF has been written, and with it every SELk: it ends each calibration in progress (R356), and a changed SELk unsettles
its converter (R352). `old` is the word before. -/
def State.refWritten (s : State) (old : Word) : State :=
  s.each (List.finRange 8) fun k s =>
    let s := s.abortCal k
    if s.refSel k == old.toNat % 2 ^ 16 / 4 ^ k.val % 4 then s else s.unsettle k

/-- REFERENCE_SETTLED (R352). -/
def execReferenceSettled (k : UnitId) (s : State) : Res :=
  let s := s.fresh
  match s.adc.settle[k] with
  | some t =>
    let s := { (s.advanceTo t) with adc := { s.adc with settle := s.adc.settle.set k none } }
    .next (s.fsetBit F.ADC_REF_SETTLED k.val)
  | none => .next s

def refCode (r : RefSource) : Nat :=
  match r with
  | .external => 1
  | .supply => 2

/-- A reference is in range or out of it. -/
def State.setRefOk (s : State) (r : RefSource) (ok : Bool) : State :=
  match r with
  | .external => { s with adc := { s.adc with extOk := ok } }
  | .supply => { s with adc := { s.adc with supOk := ok } }

/-- Converters that use a reference. -/
def State.refUsers (s : State) (r : RefSource) : List UnitId := (List.finRange 8).filter fun k => s.refSel k == refCode r

/-- REFERENCE_LOST (R353). -/
def execReferenceLost (r : RefSource) (s : State) : Res :=
  let s := s.fresh.setRefOk r false
  if s.powered domAnlg then
    let s := s.each (s.refUsers r) fun k s =>
      { (s.fclrBit F.ADC_REF_SETTLED k.val) with adc := { s.adc with settle := s.adc.settle.set k none } }
    .next ((s.fset F.ADC_STAT_REFLOST 1).raise srcAdcRef)
  else .next s

/-- REFERENCE_RETURN (R353); a sensor supply is back with a voltage, in nV, to which its converters are ratiometric (R351). -/
def execReferenceReturn (r : RefSource) (s : State) (nv : Nat := 5000000000) : Res :=
  let s := s.fresh
  let s := if refCode r = 2 then { s with adc := { s.adc with vSup := nv } } else s
  if s.refOk (refCode r) then .next s
  else
    let s := s.setRefOk r true
    .next (if s.powered domAnlg then s.each (s.refUsers r) fun k s => s.unsettle k else s)

/-- 18 ms of R354. -/
def calTicks : Nat := 18 * ms

/-- A 1 written to bit k of ADC.CALCMD.GO (R354). -/
def State.startCal (s : State) (k : UnitId) : State :=
  if s.converterOk k then
    let s := s.fsetBit F.ADC_REF_CALBUSY k.val
    { s with adc := { s.adc with calAt := s.adc.calAt.set k (s.ticks + calTicks) } }
  else s.fset F.ADC_STAT_CALREF 1

def State.calibrate (s : State) (converters : BitVec 8) : State :=
  s.each ((List.finRange 8).filter fun k => converters.getLsbD k.val) fun k s => s.startCal k

/-- CALIBRATION_DONE (R355): the factors are written as an applied write. -/
def execCalibrationDone (k : UnitId) (gain offs : BitVec 16) (s : State) : Res :=
  let s := s.fresh
  if (s.fget F.ADC_REF_CALBUSY).testBit k.val then
    let s := s.advanceTo (s.adc.calAt[k])
    let s := s.fclrBit F.ADC_REF_CALBUSY k.val
    .next (((s.fset (F.ADC_CAL_GAIN k) gain.toNat).fset (F.ADC_CAL_OFFS k) offs.toNat).newVersion (A.ADC_CAL k))
  else .next s

/-- The ANLG domain is released: every converter settles (R352), and the grid is that of the period in progress (R337). -/
def State.adcRelease (s : State) : State :=
  let s := { s with adc := { s.adc with
    period := s.tickCount, slotAt := s.timer.last, slot := (s.ticks - s.timer.last + slotTicks - 1) / slotTicks } }
  s.each (List.finRange 8) fun k s => s.unsettle k

/-- A read of ADC.ZXTL latches the high bits of the detection instant. -/
def State.latchZx (s : State) : State := s.fset F.ADC_ZXTH_TIME (s.adc.zxAt.getD 0 / 2 ^ 32)

end Sys2Proof.Machine
end

