-- ==== Sys2Proof/Machine/RingOps.lean ====
section
/-!
DEFINITION. What the lanes and the ring protocol share: the state of a ring's two ports, breaks (R272), the worst
dispatch latency (R273), enumeration's start (R251), arming (R260, R536), and admission's end.
-/

namespace Sys2Proof.Machine

/-- Port states of RING.PSTATp.STATE. -/
def portOff : Nat := 0
def portModule : Nat := 1
def portTxup : Nat := 2
def portRxwait : Nat := 3
def portScan : Nat := 4
def portAlign : Nat := 5
def portTrained : Nat := 6
def portFailed : Nat := 7

def State.portState (s : State) (p : LaneId) : Nat := s.fget (F.RING_PSTAT_STATE p)
def State.setPortState (s : State) (p : LaneId) (v : Nat) : State := s.fset (F.RING_PSTAT_STATE p) v

/-- The domain that holds a port: RING for P0 to P5, STRM for P6 and P7. -/
def portDomain (p : LaneId) : Nat := if p.val < 6 then domRing else domStrm

/-- Its lane registers lie in RING for P0 to P5 and in HOST for P6 and P7. -/
def State.portPowered (s : State) (p : LaneId) : Bool :=
  s.powered (portDomain p) && (decide (p.val < 6) || s.powered domHost)

def State.isTrained (s : State) (p : LaneId) : Bool := s.portPowered p && s.portState p == portTrained

/-- The even and the odd port of a ring (R19). -/
def evenPort (x : RingId) : LaneId := ⟨2 * x.val, by omega⟩
def oddPort (x : RingId) : LaneId := ⟨2 * x.val + 1, by omega⟩

/-- Does R272 hold for the ring: a port not TRAINED, or a slot that shows LINK? -/
def State.ringBroken (s : State) (x : RingId) : Bool :=
  !s.isTrained (evenPort x) || !s.isTrained (oddPort x) || (s.rings[x]).link

/-- Combined slot of a cell shows LINK (R241). -/
def CellView.showsLink (v : CellView) : Bool := v.combined.getLsbD 2

/-- Does the clockwise direction reach the cell at index k, and does the counter-clockwise one? It ends before the first cell
on its way that has lost its input of that direction and shows LINK (R270, R273). -/
def State.reachCw (s : State) (x : RingId) (k : CellId) : Bool :=
  s.isTrained (evenPort x) &&
    (List.finRange 40).all fun j => decide (k < j) || !(((s.rings[x]).view[j]).showsLink && (s.cell x j).linkCw)
def State.reachCcw (s : State) (x : RingId) (k : CellId) : Bool :=
  s.isTrained (oddPort x) &&
    (List.finRange 40).all fun j => decide (j < k) || !(((s.rings[x]).view[j]).showsLink && (s.cell x j).linkCcw)

/-- Path time to a cell in ticks, 0 where neither direction reaches it (R273). -/
def State.pathTicks (s : State) (x : RingId) (k : CellId) : Nat :=
  let d := (s.view x k).dist
  let back := s.fget (F.RING_LTOT_L x) - d
  match s.reachCw x k, s.reachCcw x k with
  | true, true => min d back
  | true, false => d
  | false, true => back
  | false, false => 0

/-- Records of one cell's largest schedule (R175). -/
def State.worstRecords (s : State) : Nat :=
  let hp := s.fget F.PLAN_DAB_HPER
  let p := s.fget F.CORE_PERIOD_PERIOD
  5 + 2 * (if hp = 0 then 0 else (p + hp - 1) / hp)

/-- W of R273 in units of 8 ns. -/
def State.wLat (s : State) (x : RingId) : Nat :=
  let cells := maskCells (s.admitted x)
  let recs := cells.length * s.worstRecords
  let blocks := 2 * recs + (recs + 7) / 8
  let path := cells.foldl (fun m k => max m (s.pathTicks x k)) 0
  (blocks * 8192 + path * 152 + 152 * 64 - 1) / (152 * 64)

/-- RING.RSTATx and PLAN.WLATx follow the ring's ports, links, admitted cells and distances; a new W may exceed the horizon (R161). -/
def State.refreshRing (s : State) (x : RingId) : State :=
  let s := if s.powered domRing then
    (s.fset (F.RING_RSTAT_BREAK x) (if s.ringBroken x then 1 else 0)).fset (F.RING_RSTAT_NADM x) (maskCells (s.admitted x)).length
  else s
  if s.powered domPlan && s.fget (F.PLAN_WLAT_LAT x) != s.wLat x then (s.fset (F.PLAN_WLAT_LAT x) (s.wLat x)).horizonShort else s

/-- ENUM leaves both ports of a ring with COUNT 0 (R251). -/
def State.startEnum (s : State) (x : RingId) : State :=
  (s.modRing x fun r => { r with enumerating := true }).sendL0 x (.enum 0)

/-- Admission of a cell ends (R242, R248), which is a failure of the cell (R187). -/
def State.withdraw (s : State) (x : RingId) (k : CellId) : State :=
  ((((s.setMask40 (F.RING_ADML_MASK x) (F.RING_ADMH_MASK x) (s.admitted x &&& ~~~BitVec.twoPow 40 k.val)).modView x k
    fun v => { v with stage := 0, misses := 0 }).refreshRing x).setFail x k)

/-- Command codes of CELLCMD (R236). -/
def cmdAdmit : BitVec 8 := 0x01
def cmdUnadmit : BitVec 8 := 0x02
def cmdArm : BitVec 8 := 0x03

/-- Tick of the first schedule that PLAN can still commit: the first one whose commit instant has not passed. -/
def State.firstScheduleTick (s : State) : Nat := s.tickFrom (s.ticks + s.hEff)

/-- Number of the epoch that holds an instant (R236, R237). -/
def State.epochAt (s : State) (t : Nat) : Nat := ((s.rtimeAt t).toNat) / epochTicks

/-- ARM to one cell, or with position 0 to all cells of a ring (R260, R536). -/
def State.sendArm (s : State) (x : RingId) (pos : Nat) : State :=
  s.sendL0 x (.cellCmd pos cmdArm (s.epochAt s.firstScheduleTick % 2 ^ 32))

/-- ARM to every ring, as the power stage enters PRECHARGE (R260). -/
def State.armRings (s : State) : State :=
  if s.powered domRing then
    s.each (List.finRange 3) fun x s => (s.modRing x fun r => { r with armEpoch := some (s.epochAt s.firstScheduleTick) }).sendArm x 0
  else s

/-- RDSTATE codes of HOST.SSTAT. -/
def rdIdle : Nat := 0
def rdRun : Nat := 1
def rdDone : Nat := 2
def rdHalted : Nat := 3

/-- A read-out that runs ends HALTED (R503). -/
def State.haltReadout (s : State) : State :=
  if s.fget F.HOST_SSTAT_RDSTATE = rdRun then
    ({ s with strm := { s.strm with left := 0 } }.fset F.HOST_SSTAT_RDSTATE rdHalted).raise srcStrmHalt
  else s

/-- Roles and states of TIME.PEER. -/
def roleLeader : Nat := 1
def roleFollower : Nat := 2
def peerIdle : Nat := 0
def peerAligned : Nat := 1
def peerMisaligned : Nat := 2
def peerLost : Nat := 3

def State.peerRole (s : State) : Nat := s.fget F.TIME_PEER_ROLE

/-- The peer link fails (R304). -/
def State.losePeer (s : State) : State :=
  if s.powered domPlan && s.peerRole != 0 && s.fget F.TIME_PEER_STATE != peerLost then
    (({ s with tim := { s.tim with peerAt := none, rtSlew := 0 } }.fset F.TIME_PEER_STATE peerLost).fset F.TIME_STAT_PEER_LOST 1).raise srcPeerLost
  else s

/-- What the loss of a port's clock, framing or module means for P7: the peer link fails (R304). -/
def State.peerDown (s : State) (p : LaneId) : State := if p = 7 then s.losePeer else s

/-- Channel B of SAFE runs. -/
def State.bOn (s : State) : Bool := s.powered domSafb && s.safe.b.started

/-- The heartbeat drivers send: channel B is started and holds none of them low (R229, R399). -/
def State.hbOn (s : State) : Bool := s.bOn && !s.safe.b.hold.getLsbD 4

/-- The condition of STRM_LINK: P6 enabled and not TRAINED (R505). -/
def State.strmLink (s : State) : State :=
  s.setCond srcStrmLink (s.flag (F.RING_LCTRL_EN 6) && !s.isTrained 6)

/-- I_RTIME has stopped or left its band: its FLT source, and a controlled stop (R23, R33). -/
def State.stopRtime (s : State) : State :=
  ({ s with sup := { s.sup with islandStop := true, islandAt := s.ticks } }.beginStop true).setCond 12 true

end Sys2Proof.Machine
end

