-- ==== Sys2Proof/Machine/RingLanes.lean ====
section
/-!
DEFINITION. Ports and lanes (chapter 7): training (R222 to R225), block lock and received clock (R200, R201, R219), the
delay-locked lines (R208 to R212), oscillators and discipline (R213 to R218), phase trackers (R220, R221), and
management transfers (R198, R230).
-/

namespace Sys2Proof.Machine

/-- Failure codes of R225. -/
def failNone : Nat := 0
def failAbsent : Nat := 1
def failNotReady : Nat := 2
def failModType : Nat := 3
def failNoCdrCtl : Nat := 4
def failPower : Nat := 5
def failNoClock : Nat := 6
def failEye : Nat := 7
def failLock : Nat := 8
def failSkew : Nat := 9

/-- Ticks of one second. -/
def sec : Nat := 8000000000

/-- Places of the data lanes in a port's vectors. -/
def laneIx (l : DataLane) : Fin 3 := match l with | .l0 => 0 | .l1 => 1 | .l3 => 2

/-- The data lanes of a port: L0 everywhere, L1 but on P7, L3 on P6 (R195). -/
def usesLane (p : LaneId) (l : DataLane) : Bool := match l with | .l0 => true | .l1 => p != 7 | .l3 => p == 6

def dataLanes : List DataLane := [.l0, .l1, .l3]

/-- Block lock of one lane. -/
def Port.lock (q : Port) (l : DataLane) : Bool := match l with | .l0 => q.lock0 | .l1 => q.lock1 | .l3 => q.lock3
def Port.setLock (q : Port) (l : DataLane) (b : Bool) : Port :=
  match l with | .l0 => { q with lock0 := b } | .l1 => { q with lock1 := b } | .l3 => { q with lock3 := b }

/-- Block lock on every data lane of a port. -/
def Port.allLocked (q : Port) (p : LaneId) : Bool := dataLanes.all fun l => !usesLane p l || q.lock l

/-- Where a lane's eye width, sampling phase, frozen flag and count of invalid headers stand; L3 has HOST.P6L3. -/
def eyeField (p : LaneId) (l : DataLane) : Fld :=
  match l with | .l0 => F.RING_PSTAT_EYE0 p | .l1 => F.RING_PSTAT_EYE1 p | .l3 => F.HOST_P6L3_EYE3
def posField (p : LaneId) (l : DataLane) : Fld :=
  match l with | .l0 => F.RING_TRK_POS0 p | .l1 => F.RING_TRK_POS1 p | .l3 => F.HOST_P6L3_POS3
def frzField (p : LaneId) (l : DataLane) : Fld :=
  match l with | .l0 => F.RING_TRK_FRZ0 p | .l1 => F.RING_TRK_FRZ1 p | .l3 => F.HOST_P6L3_FRZ3
def hdrField (p : LaneId) (l : DataLane) : Fld :=
  match l with | .l0 => F.RING_ERRCNT_HDR0 p | .l1 => F.RING_ERRCNT_HDR1 p | .l3 => F.HOST_P6L3_HDR3

/-- Invalid sync headers are counted, up to 65,535 (R201). -/
def State.countHeaders (s : State) (p : LaneId) (l : DataLane) (n : Nat) : State :=
  s.fset (hdrField p l) (min (s.fget (hdrField p l) + n) 65535)

/-- A sticky bit of RING.STAT for port p; P6 and P7 have none. -/
def State.portSticky (s : State) (f : Fld) (p : LaneId) : State := if p.val < 6 then s.fsetBit f p.val else s

/-- A port's state has changed: what follows from it for its ring and for P6. -/
def State.afterPort (s : State) (p : LaneId) : State :=
  if h : p.val / 2 < 3 then s.refreshRing ⟨p.val / 2, h⟩
  else if p.val = 6 then s.strmLink
  else s

/-- A write of a management byte by the port itself (R198). -/
def State.mgmtByte (s : State) (p : LaneId) (byte data : BitVec 8) : State := s.emit (.mgmt p true byte data)

/-- The DLL closes its gate and searches again (R208 step 1); one that is gated already goes on (R211). -/
def State.relockDll (s : State) (p : LaneId) : State :=
  if (s.ports[p]).dllGated then s
  else (s.modPort p fun q => { q with dllGated := true, dllWait := 0 }).fclrBit F.CLK_DLLSTAT_LOCK p.val

/-- Step 1 of R222: an attempt starts. The DLL relocks at the start of training (R211). -/
def State.startAttempt (s : State) (p : LaneId) : State :=
  let s := s.relockDll p
  let s := s.modPort p fun q =>
    { q with resetReleased := true, moduleOk := false, moduleBad := 0, attemptAt := s.ticks, lock0 := false, lock1 := false,
             lock3 := false, clkLostAt := none, lockLostAt := Vector.replicate 3 none }
  let s := s.each (dataLanes.filter (usesLane p)) fun l s => s.fset (eyeField p l) 0
  (s.setPortState p portModule).afterPort p

/-- The port enters FAILED with a code; RING.STAT.TRAINFAIL is set. -/
def State.failPort (s : State) (p : LaneId) (code : Nat) : State :=
  let s := (s.setPortState p portFailed).fset (F.RING_PSTAT_FAIL p) code
  let s := s.modPort p fun q => { q with failedAt := s.ticks }
  let s := if p.val = 6 then s.haltReadout else s
  (s.portSticky F.RING_STAT_TRAINFAIL p).afterPort p

/-- A port after a loss of its domain: the cage supply and ResetL stay as they are (R196, R222). -/
def Port.restart (q : Port) : Port := { Port.reset with resetReleased := q.resetReleased, supplyAt := q.supplyAt }

/-- EN goes from 0 to 1: SUP switches the cage supply on where it is off; the first attempt starts at the release of ResetL, 10 ms
later (R222). -/
def State.enablePort (s : State) (p : LaneId) : State :=
  let on := (s.fget F.SUP_CAGE_ON).testBit p.val
  let s := s.fsetBit F.SUP_CAGE_ON p.val
  (s.modPort p fun q => if on then q.restart else { Port.reset with supplyAt := s.ticks }).afterPort p

/-- EN goes from 1 to 0: transmitters and cage off (R196, R198). -/
def State.disablePort (s : State) (p : LaneId) : State :=
  let s := (s.mgmtByte p 86 0x0F).fclrBit F.SUP_CAGE_ON p.val
  let s := (s.fclrBit F.CLK_DLLSTAT_LOCK p.val).modPort p fun _ => Port.reset
  let s := if p.val = 6 then s.haltReadout else s
  ((s.setPortState p portOff).afterPort p).peerDown p

/-- The other port of the same ring; P6 and P7 have none. -/
def otherPort (p : LaneId) : Option LaneId := if p.val < 6 then some ⟨p.val + 1 - 2 * (p.val % 2), by omega⟩ else none

/-- A 1 written to RETRAIN (R223): refused outside STOPPED while the ring's other port is not TRAINED. Without EN there is no
training to restart, and before the release of ResetL the first attempt is still to come (R222 step 1). -/
def State.retrainPort (s : State) (p : LaneId) : State :=
  if s.pwr ≠ pwrStopped ∧ (otherPort p).any (fun q => !s.isTrained q) = true then s.raise srcRingTrain
  else if !s.flag (F.RING_LCTRL_EN p) || (s.portState p == portOff && !(s.ports[p]).resetReleased) then s
  else ((if p.val = 6 then s.haltReadout else s).startAttempt p).peerDown p

/-- Code of the step that an attempt did not complete (R222, R225). -/
def State.attemptCode (s : State) (p : LaneId) : Nat :=
  let q := s.ports[p]
  if s.portState p = portModule then
    if !(s.fget F.SUP_CAGE_PRES).testBit p.val then failAbsent
    else if q.moduleBad = 0 then failNotReady else q.moduleBad
  else if s.portState p = portTxup ∨ s.portState p = portRxwait then failNoClock
  else if q.allLocked p then failSkew
  else if dataLanes.any (fun l => usesLane p l && !q.lock l && decide (s.fget (eyeField p l) < 20)) then failEye
  else failLock

/-- What R197 finds wrong with an optical module; 0 where it meets every item. -/
def State.moduleFault (s : State) (p : LaneId) (identifier powerClass : BitVec 8) (cdr : Bool) : Nat :=
  if (s.ports[p]).attemptAt + 300 * ms < s.ticks then failNotReady
  else if identifier ≠ 0x0D ∧ identifier ≠ 0x11 then failModType
  else if !cdr then failNoCdrCtl
  else if powerClass = 0 ∨ 3 < powerClass.toNat then failPower
  else 0

/-- Transmit PLL and DLL have locked: TX disable is cleared, and the attempt goes on (R222 steps 2 and 3). -/
def State.txUp (s : State) (p : LaneId) : State :=
  let s := (s.mgmtByte p 86 0x00).modPort p fun q => { q with txDisable := false }
  s.setPortState p (if (s.ports[p]).rxClock then portScan else portRxwait)

/-- Data_Not_Ready is clear: the items of R197 are read, and the bytes of R198 except TX disable are written. The transmitters come
up at once where the DLL has locked already. -/
def State.moduleReady (s : State) (p : LaneId) (identifier powerClass : BitVec 8) (cdr : Bool) : State :=
  let bad := s.moduleFault p identifier powerClass cdr
  let s := s.fsetBit F.SUP_CAGE_PRES p.val
  let s := ((s.fset (F.RING_MODINFO_ID p) identifier.toNat).fset (F.RING_MODINFO_CDRCTL p) (if cdr then 1 else 0)).fset
    (F.RING_MODINFO_PCLASS p) (min powerClass.toNat 7)
  if bad ≠ 0 then s.modPort p fun q => { q with moduleBad := bad }
  else
    let s := (s.mgmtByte p 93 0x01).mgmtByte p 98 0x77
    let s := (s.modPort p fun q => { q with moduleOk := true, moduleBad := 0 }).setPortState p portTxup
    if (s.ports[p]).dllGated then s else s.txUp p

/-- The DLL measures the delay and finds band and fine step (R208 steps 2 and 3). -/
def State.dllSearch (s : State) (p : LaneId) (delay : Nat) : State :=
  let s := s.advanceTo (s.epochUp (s.ticks + 1) + 7 * epochTicks)
  let band := min 7 ((delay - 100) / 800)
  let fine := min 79 (2 * (delay - 800 * band) / 25)
  let err := truncDiv ((1600 * band + 25 * fine : Nat) - (2 * delay : Nat) : Int) 2
  let s := ((s.fset (F.CLK_DLLPOS_BAND p) band).fset (F.CLK_DLLPOS_FINE p) fine).fsetI (F.CLK_DLLPOS_ERR p) err
  s.modPort p fun q => { q with dllWait := 1, dllWant := (2 * delay : Nat) }

/-- Twice the delay of the DLL in ps: bands of 800 ps, fine steps of 12.5 ps. -/
def State.dllDelay (s : State) (p : LaneId) : Int :=
  (1600 * s.fget (F.CLK_DLLPOS_BAND p) + 25 * s.fget (F.CLK_DLLPOS_FINE p) : Nat)

/-- A phase error has been measured: the delay that the DLL needs is its own less the error. -/
def State.dllMeasure (s : State) (p : LaneId) (err : Int) : State :=
  let s := s.fsetI (F.CLK_DLLPOS_ERR p) err
  s.modPort p fun q => { q with dllWant := s.dllDelay p - 2 * err }

/-- One epoch of a DLL in lock (R209): at most one fine step toward the delay it needs. Past the end of a band it goes on in
the next, from the fine step of the same delay: 64 steps of one band are 800 ps. -/
def State.dllStep (s : State) (p : LaneId) : State :=
  let q := s.ports[p]
  let d := q.dllWant - s.dllDelay p
  let b := s.fget (F.CLK_DLLPOS_BAND p)
  let f := s.fget (F.CLK_DLLPOS_FINE p)
  let move : Option (Nat × Nat) :=
    if 25 ≤ d then (if f < 79 then some (b, f + 1) else if b < 7 then some (b + 1, f - 64 + 1) else none)
    else if d ≤ -25 then (if 0 < f then some (b, f - 1) else if 0 < b then some (b - 1, f + 64 - 1) else none)
    else none
  match q.dllGated, move with
  | false, some (b, f) =>
    let s := (s.fset (F.CLK_DLLPOS_BAND p) b).fset (F.CLK_DLLPOS_FINE p) f
    s.fsetI (F.CLK_DLLPOS_ERR p) (truncDiv (s.dllDelay p - q.dllWant) 2)
  | _, _ => s

/-- The phase error of two epochs decides: within ±25 ps the gate opens, else the lock is repeated (R208). -/
def State.dllCheck (s : State) (p : LaneId) (err : Int) : State :=
  let s := (s.advanceTo (s.ticks + 2 * epochTicks)).dllMeasure p err
  if err < -25 ∨ 25 < err then s.modPort p fun q => { q with dllWait := 0 }
  else
    let s := (s.modPort p fun q => { q with dllGated := false, dllWait := 0 }).fsetBit F.CLK_DLLSTAT_LOCK p.val
    if s.portState p = portTxup then s.txUp p else s

/-- Since when each lane of a port with its received clock has been without block lock (R224). -/
def State.noteLocks (s : State) (p : LaneId) : State :=
  s.modPort p fun q =>
    let since (l : DataLane) : Option Nat :=
      if q.rxClock && usesLane p l && !q.lock l then some ((q.lockLostAt[laneIx l]).getD s.ticks) else none
    { q with lockLostAt := #v[since .l0, since .l1, since .l3] }

/-- When the lane that has been without block lock the longest lost it. -/
def Port.lockOut (q : Port) : Option Nat :=
  q.lockLostAt.toList.foldl (fun m t => match m, t with | some a, some b => some (min a b) | none, b => b | a, none => a) none

/-- A received clock is lost (R219): block lock counts as lost on all data lanes (R201). -/
def State.loseRxClock (s : State) (p : LaneId) : State :=
  let s := s.modPort p fun q =>
    { q with rxClock := false, lock0 := false, lock1 := false, lock3 := false, clkLostAt := some s.ticks,
             lockLostAt := Vector.replicate 3 none }
  (((s.portSticky F.RING_STAT_RXCLK_LOST p).portSticky F.RING_STAT_BLKLOCK_LOST p).raise srcRingLink).peerDown p

/-- The scan of a data lane: eye width, sampling phase and a running tracker (R222 step 4). -/
def State.setEye (s : State) (p : LaneId) (lane : DataLane) (phase eye : Nat) : State :=
  (((s.fset (eyeField p lane) eye).fset (posField p lane) phase).fset (frzField p lane) 0).modPort p fun q =>
    { q with centre := q.centre.set (laneIx lane) (BitVec.ofNat 6 phase) }

/-- A data lane gains block lock; an eye below 20 steps gives none (R200, R222). -/
def State.gainLock (s : State) (p : LaneId) (lane : DataLane) (phase eye : Nat) : State :=
  if eye < 20 then s.fset (eyeField p lane) eye
  else
    let s := ((s.setEye p lane phase eye).modPort p fun q => q.setLock lane true).noteLocks p
    if s.portState p = portScan then s.setPortState p portAlign else s

/-- A data lane loses block lock (R200, R201): its 16 invalid headers are counted. -/
def State.loseLock (s : State) (p : LaneId) (lane : DataLane) : State :=
  let s := ((s.countHeaders p lane 16).modPort p fun q => q.setLock lane false).noteLocks p
  ((s.portSticky F.RING_STAT_BLKLOCK_LOST p).raise srcRingLink).peerDown p

/-- Windows with fewer than 32 transitions after which a tracker freezes (R220). -/
def lowWindows : Nat := 101

/-- Windows with fewer than 32 transitions pass at a tracker: it holds its phase, and at the 101st in a row it freezes (R220). -/
def State.trackLow (s : State) (p : LaneId) (l : DataLane) (n : Nat) : State :=
  let run := (s.ports[p]).lowRun[laneIx l] + n
  let s := s.modPort p fun q => { q with lowRun := q.lowRun.set (laneIx l) (min run lowWindows) }
  if run < lowWindows then s else (s.fset (frzField p l) 1).portSticky F.RING_STAT_TRK_FREEZE p

/-- One window of 1,024 unit intervals at a port's trackers (R220, R221): each that counts enough transitions and is not frozen
moves its sampling phase by at most one of its 64 steps toward the eye's centre. -/
def State.trackStep (s : State) (p : LaneId) : State :=
  s.each (dataLanes.filter (usesLane p)) fun l s =>
    let s := s.modPort p fun q => if s.flag (frzField p l) then q else { q with lowRun := q.lowRun.set (laneIx l) 0 }
    let pos := s.fget (posField p l)
    let d := (((s.ports[p]).centre[laneIx l]).toNat + 64 - pos) % 64
    if s.flag (frzField p l) || d = 0 then s
    else s.fset (posField p l) (if d ≤ 32 then (pos + 1) % 64 else (pos + 63) % 64)

/-- Blocks that reach a data lane's receiver (R199, R201, R232, R234, R235): they are descrambled, those with an invalid
header are counted and discarded, and the frames of the rest are answered. A block or frame that fails its check is
discarded, which on a ring port sets RING_CRC. Without block lock nothing is received. -/
def State.laneIn (s : State) (p : LaneId) (lane : DataLane) (bs : List LineBlock) : State × List Frame :=
  if s.portPowered p && (s.ports[p]).lock lane then
    let u := unline ((s.ports[p]).rxScr[laneIx lane]) bs
    let s := (s.modPort p fun q => { q with rxScr := q.rxScr.set (laneIx lane) u.2.2 }).countHeaders p lane u.2.1
    let f := if p.val < 6 then laneFrames blockData lane u.1
      else if p.val = 6 then laneFrames creditData .l1 u.1
      else laneFrames peerData .l1 u.1
    (if f.2 && decide (p.val < 6) then s.raise srcRingCrc else s, f.1)
  else (s, [])

/-- The ring of a ring port. -/
def ringOf (p : LaneId) : Option RingId := if h : p.val / 2 < 3 then some ⟨p.val / 2, h⟩ else none

/-- What a port's receiver makes of the frames of one type that arrive on L1 of a ring port: a full crossing to the RING
domain drops a frame, which advances the crossing's count and sets XING_OVF (R37). -/
def State.framesOf (s : State) (p : LaneId) (typ : Nat) (bs : List LineBlock) (full : Bool)
    (take : RingId → Frame → State → State) : State :=
  match ringOf p with
  | none => s
  | some x =>
    let r := s.laneIn p .l1 bs
    (r.2.filter (Frame.isType typ)).foldl (fun s f =>
      if full then (s.modPort p fun q => { q with drops := q.drops + 1 }).raise srcXing else take x f s) r.1

/-- Both data lanes aligned: TRAINED (R222 step 6), and with both ports of a ring TRAINED its enumeration (R251). Streaming
credits count from the moment P6 enters TRAINED (R499). -/
def State.enterTrained (s : State) (p : LaneId) : State :=
  let s := ((s.setPortState p portTrained).fset (F.RING_PSTAT_FAIL p) failNone).afterPort p
  let s := if p.val = 6 then { s with strm := { s.strm with sent := 0, cum := 0 } }.fset F.HOST_SCRED_AVAIL 0 else s
  if h : p.val / 2 < 3 then
    let x : RingId := ⟨p.val / 2, h⟩
    if s.isTrained (evenPort x) && s.isTrained (oddPort x) then s.startEnum x else s
  else s

/-- May a port with a module still to be used take part in an event? -/
def State.portActive (s : State) (p : LaneId) : Bool := s.portPowered p && s.flag (F.RING_LCTRL_EN p)

/-- States in which an attempt is under way. -/
def State.inAttempt (s : State) (p : LaneId) : Bool := decide (1 ≤ s.portState p ∧ s.portState p ≤ 5)

/-- TRAINING_ATTEMPT (R222): the first attempt, at the release of ResetL 10 ms after the supply. -/
def execTrainingAttempt (p : LaneId) (s : State) : Res :=
  let s := s.fresh
  if s.portActive p && s.portState p == portOff then
    let q := s.ports[p]
    .next ((if q.resetReleased then s else s.advanceTo (q.supplyAt + 10 * ms)).startAttempt p)
  else .next s

/-- MODULE_READY (R197, R222 step 1). -/
def execModuleReady (p : LaneId) (identifier powerClass : BitVec 8) (cdrControl : Bool) (s : State) : Res :=
  let s := s.fresh
  .next (if s.portActive p && s.portState p == portModule then s.moduleReady p identifier powerClass cdrControl else s)

/-- TRAINING_TIMEOUT (R222): 1.0 s after its start an attempt that has not reached TRAINED fails. The command says whether
the cage holds a module, and how wide the scans found the eyes of L0, L1 and L3 on lanes without block lock. -/
def execTrainingTimeout (p : LaneId) (s : State) (present : Bool := true) (eyes : List Nat := [0, 0, 0]) : Res :=
  let s := s.fresh
  if s.portActive p && s.inAttempt p then
    let s := (s.advanceTo ((s.ports[p]).attemptAt + sec)).fputBit F.SUP_CAGE_PRES p.val present
    let s := if s.portState p = portScan ∨ s.portState p = portAlign then
      s.each (dataLanes.filter fun l => usesLane p l && !(s.ports[p]).lock l) fun l s =>
        s.fset (eyeField p l) (min (eyes.getD (laneIx l).val 0) 64)
    else s
    .next (s.failPort p (s.attemptCode p))
  else .next s

/-- TRAINING_RETRY (R222): 1.0 s after entering FAILED. -/
def execTrainingRetry (p : LaneId) (s : State) : Res :=
  let s := s.fresh
  if s.portActive p && s.portState p == portFailed then
    .next ((s.advanceTo ((s.ports[p]).failedAt + sec)).startAttempt p)
  else .next s

/-- PORT_TRAINED (R222 steps 5 and 6): alignment tolerates a skew of up to 40 unit intervals. -/
def execPortTrained (p : LaneId) (skew : Nat) (s : State) : Res :=
  let s := s.fresh
  let q := s.ports[p]
  .next (if s.portActive p && s.portState p == portAlign && q.allLocked p && decide (skew ≤ 40) then
    s.enterTrained p else s)

/-- RX_CLOCK_PRESENT (R219, R222 step 3), with the clock's deviation from the free-running oscillator, which a follower's
oscillator takes up from P7 (R300). A clock more than 100 ppm from the local word clock, which the steering moves, is none. -/
def execRxClockPresent (p : LaneId) (s : State) (ppb : Int := 0) : Res :=
  let s := s.fresh
  if s.portActive p && decide ((ppb - s.clk.steer).natAbs ≤ 100000) then
    let s := (s.modPort p fun q => { q with rxClock := true, clkLostAt := none }).noteLocks p
    let s := if p = 7 then { s with clk := { s.clk with peerPpb := ppb } } else s
    .next (if s.portState p = portRxwait then s.setPortState p portScan else s)
  else .next s

/-- RXCLK_LOST (R219). -/
def execRxclkLost (p : LaneId) (s : State) : Res :=
  let s := s.fresh
  .next (if s.portActive p && (s.ports[p]).rxClock then (s.loseRxClock p).afterPort p else s)

/-- BLOCK_LOCK_GAINED (R200, R222 steps 4 and 5); TRAINED ports recover a lane by the same scan (R201). -/
def execBlockLockGained (p : LaneId) (lane : DataLane) (phase eye : Nat) (s : State) : Res :=
  let s := s.fresh
  .next (if s.portActive p && (s.ports[p]).rxClock && usesLane p lane && decide (4 ≤ s.portState p ∧ s.portState p ≤ 6) then
    s.gainLock p lane phase eye else s)

/-- BLKLOCK_LOST (R201). -/
def execBlklockLost (p : LaneId) (lane : DataLane) (s : State) : Res :=
  let s := s.fresh
  .next (if s.portActive p && usesLane p lane && (s.ports[p]).lock lane then (s.loseLock p lane).afterPort p else s)

/-- A TRAINED port fails outside an attempt (R224, R304). -/
def State.loseTrained (s : State) (p : LaneId) (code : Nat) : State := ((s.failPort p code).raise srcRingTrain).peerDown p

/-- PORT_FAILED (R224): a trained port loses its module, its clock for longer than 1 ms or its block lock for 300 µs. -/
def execPortFailed (p : LaneId) (cause : PortFault) (s : State) : Res :=
  let s := s.fresh
  if s.isTrained p then
    match cause with
    | .moduleLost => .next ((s.fclrBit F.SUP_CAGE_PRES p.val).loseTrained p failAbsent)
    | .clockLost =>
      .next (if (s.ports[p]).rxClock then s else
        (s.advanceTo ((s.ports[p]).clkLostAt.getD s.ticks + ms + 1)).loseTrained p failNoClock)
    | .blockLockLost =>
      let q := s.ports[p]
      .next (if q.rxClock && !q.allLocked p then
        (s.advanceTo (q.lockOut.getD s.ticks + 300 * us)).loseTrained p failLock else s)
  else .next s

/-- DLL_LOCK (R208 steps 1 to 3) of a DLL that is gated and whose transmit PLL runs. -/
def execDllLock (p : LaneId) (delayPs : Nat) (s : State) : Res :=
  let s := s.fresh
  let q := s.ports[p]
  .next (if s.powered domAon && q.dllGated && q.dllWait == 0 && decide (2 ≤ s.portState p) then s.dllSearch p delayPs else s)

/-- DLL_GATE_OPEN (R208 steps 4 and 5). -/
def execDllGateOpen (p : LaneId) (errorPs : Int) (s : State) : Res :=
  let s := s.fresh
  let q := s.ports[p]
  .next (if s.powered domAon && q.dllGated && q.dllWait == 1 then s.dllCheck p errorPs else s)

/-- DLL_LOSS_OF_LOCK (R210, R212): two consecutive phase errors outside ±100 ps. -/
def execDllLossOfLock (p : LaneId) (errorPs : Int) (s : State) : Res :=
  let s := s.fresh
  if s.powered domAon && !(s.ports[p]).dllGated && decide (errorPs < -100 ∨ 100 < errorPs) then
    .next ((((s.dllMeasure p errorPs).fsetBit F.CLK_DLLSTAT_LOL p.val).raise srcDll).relockDll p)
  else .next s

/-- SPARELOCK (R214, R216): the spare is locked to the main, which runs, and is not itself the active oscillator. -/
def State.showSpare (s : State) : State :=
  s.fset F.CLK_STAT_SPARELOCK (if s.spareUp && s.mainUp && !s.flag F.CLK_STAT_ACTIVE then 1 else 0)

/-- CLK.CTRL.REFSEL has changed by a write: the oscillator is switched and every DLL relocks (R211, R215). -/
def State.switchReference (s : State) : State :=
  ((s.fset F.CLK_STAT_ACTIVE (s.fget F.CLK_CTRL_REFSEL)).showSpare).each (List.finRange 8) fun p s => s.relockDll p

/-- MAIN_OSCILLATOR_FAIL (R213, R214), with how long the failure lasts: a changeover with
AUTOSW, otherwise every island that CLK derives from the main stops, handled as a stop of I_RTIME. -/
def execMainOscillatorFail (s : State) (lasts : Nat := 0) : Res :=
  let s := s.fresh
  if s.powered domAon && s.mainUp then
    let back := s.ticks + max 1 lasts
    let s := ({ s with clk := { s.clk with mainBack := back } }.fset F.CLK_STAT_MAINFAIL 1).showSpare
    if s.flag F.CLK_STAT_ACTIVE then .next s
    else if s.flag F.CLK_CTRL_AUTOSW then
      .next (((((s.fset F.CLK_STAT_SPARELOCK 0).fset F.CLK_STAT_SWITCHED 1).fset F.CLK_CTRL_REFSEL 1).fset
        F.CLK_STAT_ACTIVE 1).raise srcOsc)
    else .next (if s.powered domPlan && !s.sup.islandStop then s.stopRtime else s)
  else .next s

/-- SPARE_OSCILLATOR_FAIL (R216), with how long the spare stays without its lock. -/
def execSpareOscillatorFail (s : State) (lasts : Nat := 0) : Res :=
  let s := s.fresh
  if s.powered domAon && s.spareUp then
    let back := s.ticks + max 1 lasts
    .next ((({ s with clk := { s.clk with spareBack := back } }.showSpare).fset F.CLK_STAT_SPAREFAIL 1).raise srcOsc)
  else .next s

/-- Steering follows the 10 MHz input: EXTEN set, the input present, and no follower role (R217, R300). -/
def State.refreshExtLock (s : State) : State :=
  s.fset F.CLK_STAT_EXTLOCK
    (if s.flag F.CLK_CTRL_EXTEN && s.clk.extOk && s.fget F.TIME_PEER_ROLE != 2 then 1 else 0)

/-- CLK.STEER.PPB shows the steering, which the field holds up to 10 ppm either way. -/
def State.setSteer (s : State) (v : Int) : State :=
  { s with clk := { s.clk with steer := v } }.fsetI F.CLK_STEER_PPB (clampInt (-10000) 10000 v)

/-- A tenth of a second of discipline: with the 10 MHz input in use, one ppb toward its frequency, within 10 ppm and so at
most 10 ppb per second (R217, R218). -/
def State.steerStep (s : State) : State :=
  let want := clampInt (-10000) 10000 s.clk.extPpb
  if s.flag F.CLK_STAT_EXTLOCK && s.clk.steer != want then
    s.setSteer (if s.clk.steer < want then s.clk.steer + 1 else s.clk.steer - 1)
  else s

/-- A follower's oscillator is locked in phase to the clock received on P7, within ±100 ppm (R300). Without that clock it keeps
its steering (R304). -/
def State.followPeer (s : State) : State :=
  if s.powered domPlan && s.fget F.TIME_PEER_ROLE == 2 && s.portPowered 7 && (s.ports[(7 : LaneId)]).rxClock then
    s.setSteer (clampInt (-100000) 100000 s.clk.peerPpb)
  else s

/-- EXT_REFERENCE_LOST (R218): the steering value is held. -/
def execExtReferenceLost (s : State) : Res :=
  let s := s.fresh
  if s.powered domAon && s.clk.extOk then
    let s := { s with clk := { s.clk with extOk := false } }.fset F.CLK_STAT_EXTPRES 0
    .next ((s.refreshExtLock.fset F.CLK_STAT_EXTLOST 1).raise srcOsc)
  else .next s

/-- EXT_REFERENCE_RETURN (R218), with the input's deviation from the free-running oscillator: steering resumes under the slew
limit of R217. An input more than 10 ppm from the active oscillator is still lost. -/
def execExtReferenceReturn (s : State) (ppb : Int := 0) : Res :=
  let s := s.fresh
  if s.powered domAon && decide ((ppb - s.clk.steer).natAbs ≤ 10000) then
    .next ({ s with clk := { s.clk with extOk := true, extPpb := ppb } }.fset F.CLK_STAT_EXTPRES 1).refreshExtLock
  else .next s

/-- TRK_FREEZE (R220): a number of windows with too few transitions pass, or the last of the 101 that freeze the tracker ends
now. A freeze sets no fault source while block lock holds (R221). -/
def execTrkFreeze (p : LaneId) (lane : DataLane) (s : State) (windows : Option Nat := none) : Res :=
  let s := s.fresh
  if s.portActive p && usesLane p lane then
    match windows with
    | none => .next (s.trackLow p lane lowWindows)
    | some n => .next ((s.advanceTo (s.ticks + n * 1024 * epochTicks / 10560)).trackLow p lane n)
  else .next s

/-- TRACKER_RESUME (R221), with the centre of the eye now: the phase moves toward it by one step per window. TRK_FREEZE stays
set until cleared. -/
def execTrackerResume (p : LaneId) (lane : DataLane) (s : State) (centre : BitVec 6 := 0) : Res :=
  let s := s.fresh
  .next (if s.portActive p && usesLane p lane then
    (s.fset (frzField p lane) 0).modPort p fun q =>
      { q with centre := q.centre.set (laneIx lane) centre, lowRun := q.lowRun.set (laneIx lane) 0 } else s)

/-- Does R198 refuse a management write to this page and byte? Only upper page 02h may be written. -/
def mgmtRefused (page byte : Nat) : Bool := decide (byte < 128 ∨ page ≠ 2)

/-- RING's LIVE values take effect at a ring cycle (R8). -/
def State.ringCycle (s : State) : State := { s with ringAt := s.ringNow / epochTicks }.applyLiveBlock 6

/-- A ring cycle that time has brought since the last one. -/
def State.ringDue (s : State) : State := if s.ringNow / epochTicks = s.ringAt then s else s.ringCycle

/-- A 1 written to RING.MGMTp.GO (R198, R230): the transfer uses the values written, which read back from the next ring
cycle. -/
def State.mgmtGo (s : State) (p : LaneId) : State :=
  if s.flag (F.RING_MGMT_BUSY p) then s
  else
    let w := decide (s.fnext (F.RING_MGMT_WRITE p) = 1)
    let byte := s.fnext (F.RING_MGMT_BYTE p)
    if w && mgmtRefused (s.fnext (F.RING_MGMT_PAGE p)) byte then s.fset (F.RING_MGMT_REFUSED p) 1
    else (s.fset (F.RING_MGMT_BUSY p) 1).emit
      (.mgmt p w (BitVec.ofNat 8 byte) (if w then BitVec.ofNat 8 (s.fnext (F.RING_MGMT_DATA p)) else 0))

/-- MGMT_TRANSFER_DONE (R230): BUSY clears; a read leaves its byte in DATA. -/
def execMgmtTransferDone (p : LaneId) (data : BitVec 8) (s : State) : Res :=
  let s := s.fresh
  if s.flag (F.RING_MGMT_BUSY p) then
    let s := s.ringCycle.fset (F.RING_MGMT_BUSY p) 0
    .next (if s.flag (F.RING_MGMT_WRITE p) then s else s.fset (F.RING_MGMT_DATA p) data.toNat)
  else .next s

end Sys2Proof.Machine
end

