-- ==== Sys2Proof/Machine/Cells.lean ====
section
/-!
DEFINITION. A cell node as the cell contract describes it: its clock and count (R243 to R247, R535, R537), position and
admission (R251, R253), blocking and running (R256 to R260), records (R261 to R264), events (R265), registers (R267,
R268), loops (R270, R271), telemetry (R274) and capture (R365, R366).
-/

namespace Sys2Proof.Machine

/-- A cell's own count now. -/
def State.cellCount (s : State) (x : RingId) (k : CellId) : BitVec 48 := BitVec.ofInt 48 ((s.ringNow : Int) + (s.cell x k).offset)

/-- Half-words of the descriptor that the cell itself holds. -/
def Cell.descLo (c : Cell) (w : Nat) : Nat := (sparseGet 0 c.regs w).toNat % 65536
def Cell.descHi (c : Cell) (w : Nat) : Nat := (sparseGet 0 c.regs w).toNat / 65536

/-- The control period that CFG0 gives, in ticks. -/
def Cell.perTicks (c : Cell) : Nat := (sparseGet 0 c.regs 0x11).toNat % 2 ^ 15 * 64

/-- Event codes of R265. -/
def evStopped : BitVec 8 := 0x01
def evArmed : BitVec 8 := 0x02
def evSchedLate : BitVec 8 := 0x41
def evSchedGap : BitVec 8 := 0x42
def evSchedCrc : BitVec 8 := 0x43
def evAmLate : BitVec 8 := 0x44
def evLinkLost : BitVec 8 := 0x45
def evClkSwitch : BitVec 8 := 0x46
def evSchedFull : BitVec 8 := 0x47
def evHbLost : BitVec 8 := 0x81
def evFramingLost : BitVec 8 := 0x82
def evNoPstart : BitVec 8 := 0x83
def evClkJump : BitVec 8 := 0x84

/-- A register word of a cell replaced. -/
def State.setCellReg (s : State) (x : RingId) (k : CellId) (a : Nat) (v : Word) : State :=
  s.modCell x k fun c => { c with regs := sparseSet 0 c.regs a v }

/-- An event record enters the cell's log (R265); its data word is the cell maker's and stays free. -/
def State.cellEvent (s : State) (x : RingId) (k : CellId) (code : BitVec 8) : State :=
  let (data, s) := s.freshValue
  let seq := (s.cell x k).evSeq
  let t := s.cellCount x k
  let base := 0x100 + 4 * (seq.toNat % 32)
  let s := ((((s.setCellReg x k base (BitVec.ofNat 32 (x.val * 2 ^ 30 + (k.val + 1) * 2 ^ 24 + code.toNat * 2 ^ 16 + seq.toNat))).setCellReg
    x k (base + 1) (t.setWidth 32)).setCellReg x k (base + 2) ((t >>> 32).setWidth 32)).setCellReg x k (base + 3)
    (data.setWidth 32))
  s.modCell x k fun c =>
    { c with
      evSeq := c.evSeq + 1
      evUnsent := (c.evUnsent ++ [seq]).drop ((c.evUnsent.length + 1) - 32) }

/-- The code of the last block cause in STATUS (R268). -/
def State.cellStatus (s : State) (x : RingId) (k : CellId) (code : BitVec 8) : State :=
  s.setCellReg x k 0x10 (BitVec.ofNat 32 (code.toNat * 256))

/-- All 12 switches off. -/
def Cell.allOff (c : Cell) : Cell := { c with gates := 0, before := 0, bypass := false, lastPstart := none }

/-- The switches that are on at a count (R262): one that a change turns on follows TDEAD after it. -/
def Cell.switches (c : Cell) (count : BitVec 48) : BitVec 12 :=
  if (c.descHi 3 * 8 : Nat) ≤ (count - c.gatesAt).toInt then c.gates else c.gates &&& c.before

/-- Has the cell lost its L0 input of a direction? -/
def Cell.lost (c : Cell) (dir : Dir) : Bool := match dir with | .cw => c.linkCw | .ccw => c.linkCcw

/-- What a cell sends on from its input of a direction leaves by the output of that direction, unless that input is lost and the
other direction is looped there, and, where the input of the other direction is lost, by the output of that one too (R239,
R270). -/
def State.cellOut (s : State) (x : RingId) (k : CellId) (dir : Dir) (m : Dir → Out) : State :=
  let s := if (s.cell x k).lost dir then s else s.emit (m dir)
  if (s.cell x k).lost (otherDir dir) && !(s.cell x k).lost dir then s.emit (m (otherDir dir)) else s

/-- A cell passes a message on with its L0 streams. -/
def State.cellForward (s : State) (x : RingId) (k : CellId) (dir : Dir) (m : L0Msg) : State :=
  s.cellOut x k dir fun d => .fwd x k d m

/-- Is a message among frames: a record in any frame of records (R236)? -/
def L0Msg.among (m : L0Msg) (x : RingId) (dir : Dir) (fs : List Frame) : Bool :=
  match m with
  | .sched r => fs.any fun f => f.isType typSched &&
      (List.range 8).any fun i => (f.drop (2 * i + 1)).take 2 == [(r >>> 64).setWidth 64, r.setWidth 64]
  | m => fs.contains (m.frame x dir)

/-- Blocks reach a cell's L0 input of a direction, and the command's message with them (R232, R234, R235): the blocks given are
received as any receiver does it, and the message counts where it is among their frames. With no block given it arrives
whole. -/
def cellHeard (x : RingId) (dir : Dir) (m : L0Msg) (heard : List LaneBlock) : Bool :=
  heard.isEmpty || m.among x dir (laneFrames blockData .l0 heard).1

/-- What a cell does with a message on L0: it passes on the message that it makes of it, and acts on it; where a check fails it
passes on the blocks alone (R232, R239). -/
def State.onL0 (s : State) (x : RingId) (k : CellId) (dir : Dir) (m : L0Msg) (heard : List LaneBlock) (on : L0Msg)
    (act : State → State) : State :=
  if cellHeard x dir m heard then act (s.cellForward x k dir on)
  else s.cellOut x k dir fun d => .fwdBlocks x k d (heard.map (·.bits))

/-- Does a heartbeat reach a cell's L3 input of a direction (R257)? Each cell passes on, in the same direction and as a level,
what it receives; none starts one, and none loops one back at a break. -/
def State.l3In (s : State) (x : RingId) (k : CellId) (dir : Dir) : Bool :=
  let port := match dir with
    | .cw => evenPort x
    | .ccw => oddPort x
  s.hbOn && (s.fget F.SUP_CAGE_ON).testBit port.val &&
    (List.finRange 40).all fun j =>
      match dir with
      | .cw => decide (k < j) || !(s.cell x j).l3Cw
      | .ccw => decide (j < k) || !(s.cell x j).l3Ccw

/-- The level that a cell relays at its L3 output: that of its input (R257). -/
def State.l3Out (s : State) (x : RingId) (k : CellId) (dir : Dir) : Bool := s.l3In x k dir

/-- A cell that a heartbeat reaches again is no longer blocked for want of one. -/
def State.heartbeatBack (s : State) (x : RingId) (k : CellId) : State :=
  let alive := s.l3In x k .cw || s.l3In x k .ccw
  s.modCell x k fun c => { c with hbSilent := c.hbSilent && !alive }

/-- A cause of R256 with its event code. `after` is the state it leads to; a cell in NOTADM or FAULT keeps its state. -/
def State.cellBlock (s : State) (x : RingId) (k : CellId) (code : BitVec 8) (after : CellMode) : State :=
  let m := (s.cell x k).mode
  if m = .run ∨ m = .blocked then
    ((s.modCell x k fun c => { c.allOff with mode := after, arm := none, admitted := c.admitted && after != .notAdm }).cellStatus x k
      code).cellEvent x k code
  else if code = evStopped ∨ code = evNoPstart then s
  else
    let s := if m = .notAdm ∧ after = .fault then s.modCell x k fun c => { c.allOff with mode := .fault } else s
    (s.cellStatus x k code).cellEvent x k code

/-- Does what a cell puts on L1 in a direction come out at the port of that direction's end: no later cell on its way has lost
that input (R239, R270)? -/
def State.l1Through (s : State) (x : RingId) (k : CellId) (dir : Dir) : Bool :=
  (List.finRange 40).all fun j =>
    match dir with
    | .cw => decide (j ≤ k) || !(s.cell x j).linkCw
    | .ccw => decide (k ≤ j) || !(s.cell x j).linkCcw

/-- Does it turn back on its way, at this cell or a later one that has lost its other input, and come out at the other port
(R270)? -/
def State.l1Back (s : State) (x : RingId) (k : CellId) (dir : Dir) : Bool :=
  (List.finRange 40).any fun j =>
    match dir with
    | .cw => decide (k ≤ j) && (s.cell x j).linkCcw &&
        (List.finRange 40).all fun i => !(decide (k < i ∧ i ≤ j) && (s.cell x i).linkCw) && !(decide (i < j) && (s.cell x i).linkCcw)
    | .ccw => decide (j ≤ k) && (s.cell x j).linkCw &&
        (List.finRange 40).all fun i => !(decide (j ≤ i ∧ i < k) && (s.cell x i).linkCcw) && !(decide (j < i) && (s.cell x i).linkCw)

/-- Ports of the ring at which a frame that a cell sends in both directions comes out of L1. -/
def State.l1Ports (s : State) (x : RingId) (k : CellId) : List LaneId :=
  (if s.l1Through x k .cw || s.l1Back x k .ccw then [oddPort x] else []) ++
    (if s.l1Through x k .ccw || s.l1Back x k .cw then [evenPort x] else [])

/-- A message from a cell in both directions; a frame comes out of L1 where its way is whole. -/
def State.cellSend (s : State) (x : RingId) (k : CellId) (m : CellMsg) : State :=
  let t := s.emit (.cell x k m)
  if m.frame x k = [] then t else t.each (s.l1Ports x k) fun p s => s.emit (.l1 p x k (m.frame x k))

/-- Number of the epoch of a cell's own count, its wraps counted. -/
def State.cellEpochIx (s : State) (x : RingId) (k : CellId) : Int := ((s.ringNow : Int) + (s.cell x k).offset) / (epochTicks : Nat)

/-- A cell comes with the descriptor that its maker gave it (R255). -/
def Cell.withDesc (desc : List Word) (c : Cell) : Cell :=
  if desc.length = 16 then { c with regs := (desc.zipIdx).foldl (fun r e => sparseSet 0 r e.2 e.1) c.regs } else c

/-- CELL_FIRST_CLOCK (R535), with the descriptor of the cell where it is not the reference cell's (R255). -/
def execCellFirstClock (x : RingId) (k : CellId) (dir : Dir) (s : State) (desc : List Word := []) : Res :=
  let s := s.fresh
  if (s.cell x k).clock.isNone && !(s.cell x k).counting then
    let s := s.modCell x k (Cell.withDesc desc)
    .next ((s.modCell x k fun c => { c with clock := some dir }).cellSend x k .clockOut)
  else .next s

/-- A number of the cell's own epochs pass (R247, R537): the first one applies a TSET with STEP 1 in NOTADM or BLOCKED, and each
slews by at most one tick, but not while the slew is suspended. -/
def Cell.epochs (n : Nat) (c : Cell) : Cell :=
  match c.tset with
  | some v =>
    if c.mode = .notAdm ∨ c.mode = .blocked then { c with offset := c.offset + v, tset := none, slew := 0 } else { c with tset := none }
  | none =>
    let held := min n c.slewHeld
    let moved := min (n - held) c.slew.natAbs
    let d : Int := if 0 ≤ c.slew then moved else -moved
    { c with slewHeld := c.slewHeld - held, offset := c.offset + d, slew := c.slew - d }

/-- The stop instant of a received STOP has been reached: held records go, and the cell blocks (R256, R260). -/
def State.cellStopDue (s : State) (x : RingId) (k : CellId) : State :=
  match (s.cell x k).stopAt with
  | some t =>
    if 0 ≤ (s.cellCount x k - t).toInt then
      (s.modCell x k fun c => { c with stopAt := none, held := [] }).cellBlock x k evStopped .blocked
    else s
  | none => s

/-- What has become due at a cell since it last acted: its own epoch starts, and a stop instant. -/
def State.cellWake (s : State) (x : RingId) (k : CellId) : State :=
  if (s.cell x k).counting then
    let n := (s.cellEpochIx x k - (s.cell x k).epochIx).toNat
    let s := if n = 0 then s else s.modCell x k (Cell.epochs n)
    (s.modCell x k fun c => { c with epochIx := s.cellEpochIx x k }).cellStopDue x k
  else s

/-- A valid EPOCH at a cell (R535, R271): the first one of the clock's own direction sets the count. -/
def State.cellEpoch (s : State) (x : RingId) (k : CellId) (dir : Dir) (epoch : BitVec 35) : State :=
  let s := s.modCell x k fun c =>
    match dir with
    | .cw => { c with framingLost := false, goodCw := if c.linkCw then c.goodCw + 1 else 0 }
    | .ccw => { c with framingLost := false, goodCcw := if c.linkCcw then c.goodCcw + 1 else 0 }
  let c := s.cell x k
  if !c.counting && c.clock == some dir then
    let s := s.modCell x k fun c =>
      { c with counting := true, offset := (BitVec.ofNat 48 (epoch.toNat * 8192) - s.rtime).toInt }
    s.modCell x k fun c => { c with epochIx := s.cellEpochIx x k }
  else s

/-- CELL_EPOCH (R535, R247, R271). -/
def execCellEpoch (x : RingId) (k : CellId) (dir : Dir) (epoch : BitVec 35) (s : State) (heard : List LaneBlock := []) : Res :=
  .next ((s.fresh.cellWake x k).onL0 x k dir (.epoch epoch) heard (.epoch epoch) fun s => s.cellEpoch x k dir epoch)

/-- CELL_CLOCK_CHANGEOVER (R243): the clock in use is lost. From the clockwise one the cell changes over to the other where that
is present; otherwise no clock is left. -/
def execCellClockChangeover (x : RingId) (k : CellId) (s : State) (otherPresent : Bool := true) : Res :=
  let s := s.fresh
  match (s.cell x k).clock with
  | some .cw => .next (s.modCell x k fun c => { c with clock := if otherPresent then some .ccw else none })
  | some .ccw => .next (s.modCell x k fun c => { c with clock := none })
  | none => .next s

/-- CLK_JUMP (R244): a lost clock is back for 1.024 ms, with its phase difference to the running count. -/
def execClkJump (x : RingId) (k : CellId) (diffPs : Nat) (s : State) (dir : Dir := .cw) : Res :=
  let s := s.fresh
  let c := s.cell x k
  let back := s.modCell x k fun c => { c with clock := some dir }
  if !c.counting || c.clock == some dir || (c.clock == some .cw) then .next s
  else if diffPs ≤ 1000 then .next back
  else if c.clock == some .ccw then .next (s.cellEvent x k evClkSwitch)
  else .next (back.cellBlock x k evClkJump .notAdm)

/-- A CLAP at a cell: stamps referred to the reference point; CLAPR after the later arrival. -/
def State.cellClap (s : State) (x : RingId) (k : CellId) (dir : Dir) (num : BitVec 8) : State :=
  if (s.cell x k).counting then
    let c := s.cell x k
    let t := s.cellCount x k
    let s := s.modCell x k fun c => { c with slewHeld := 128, tsetSeen := false }
    let s := match dir with
      | .cw => s.modCell x k fun c' => { c' with clapCw := some (num, t + BitVec.ofNat 48 (c.descHi 8 / 2)) }
      | .ccw => s.modCell x k fun c' => { c' with clapCcw := some (num, t + BitVec.ofNat 48 (c.descLo 8 / 2)) }
    match (s.cell x k).clapCw, (s.cell x k).clapCcw with
    | some (m, a), some (n, b) =>
      if m = num ∧ n = num then
        (s.modCell x k fun c => { c with clapCw := none, clapCcw := none }).cellSend x k (.clapr num a b)
      else s
    | _, _ => s
  else s

/-- CELL_CLAP (R245, R537). -/
def execCellClap (x : RingId) (k : CellId) (dir : Dir) (num : BitVec 8) (s : State) (heard : List LaneBlock := []) : Res :=
  .next ((s.fresh.cellWake x k).onL0 x k dir (.clap num) heard (.clap num) fun s => s.cellClap x k dir num)

/-- CELL_TSET (R247, R537): of either kind it replaces what is still to be slewed. The second copy since a clapper is
discarded (R240). -/
def execCellTset (x : RingId) (k : CellId) (step : Bool) (corr : BitVec 40) (s : State) (dir : Dir := .cw)
    (heard : List LaneBlock := []) : Res :=
  let m : L0Msg := .tset (k.val + 1) step corr.toInt
  .next ((s.fresh.cellWake x k).onL0 x k dir m heard m fun s => if (s.cell x k).tsetSeen then s else s.modCell x k fun c =>
    if step then { c with tset := some corr.toInt, slew := 0, slewHeld := 0, tsetSeen := true }
    else { c with tset := none, slew := corr.toInt, slewHeld := 0, tsetSeen := true })

/-- CELL_ENUM (R239, R251): COUNT + 1 of the clockwise copy is the position. -/
def execCellEnum (x : RingId) (k : CellId) (dir : Dir) (count : BitVec 8) (s : State) (heard : List LaneBlock := []) : Res :=
  .next (s.fresh.onL0 x k dir (.enum count) heard (.enum (count + 1)) fun s =>
    match dir with
    | .cw => s.modCell x k fun c => { c with posNew := count.toNat + 1 }
    | .ccw => s)

/-- CELL_ADMIT (R253 step 4): from NOTADM to BLOCKED. -/
def execCellAdmit (x : RingId) (k : CellId) (s : State) (dir : Dir := .cw) (heard : List LaneBlock := []) : Res :=
  let m : L0Msg := .cellCmd (k.val + 1) cmdAdmit 0
  .next ((s.fresh.cellWake x k).onL0 x k dir m heard m fun s => if (s.cell x k).mode == .notAdm then
    s.modCell x k fun c => { c with mode := .blocked, admitted := true, arm := none, lastArm := none } else s)

/-- CELL_UNADMIT (R256, R258, R537): at once NOTADM, from FAULT too. -/
def execCellUnadmit (x : RingId) (k : CellId) (s : State) (dir : Dir := .cw) (heard : List LaneBlock := []) : Res :=
  let m : L0Msg := .cellCmd (k.val + 1) cmdUnadmit 0
  .next ((s.fresh.cellWake x k).onL0 x k dir m heard m fun s => s.modCell x k fun c => { c.allOff with mode := .notAdm, admitted := false, arm := none, slewHeld := 0 })

/-- A full epoch number from its low 32 bits, the one nearest to a count. -/
def epochNear (count : BitVec 48) (low : Word) : BitVec 48 :=
  let e := count.toNat / 8192
  let d := (low - BitVec.ofNat 32 e).toInt
  BitVec.ofInt 48 (((e : Int) + d) * 8192)

/-- An ARM for a cell (R258, R260): an admitted one takes it, logs ARMED, and discards records timed before it. Its second copy
names the same epoch and is discarded (R240). -/
def State.cellArm (s : State) (x : RingId) (k : CellId) (epoch : Word) : State :=
  let t := epochNear (s.cellCount x k) epoch
  if (s.cell x k).admitted && (s.cell x k).lastArm != some t then
    (s.modCell x k fun c =>
      { c with
        arm := some t
        lastArm := some t
        held := c.held.filter (fun h => decide (0 ≤ (h.time - t).toInt))
        lastEntry := none }).cellEvent x k evArmed
  else s

/-- CELL_ARM (R236, R258, R260, R536), which names this cell or, with position 0, all; one for another cell only passes. -/
def execCellArm (x : RingId) (k : CellId) (epoch : Word) (s : State) (dir : Dir := .cw) (heard : List LaneBlock := [])
    (pos : Nat := 0) : Res :=
  let m : L0Msg := .cellCmd pos cmdArm epoch.toNat
  .next ((s.fresh.cellWake x k).onL0 x k dir m heard m fun s => if pos = 0 ∨ pos = k.val + 1 then s.cellArm x k epoch else s)

/-- CELL_STOP (R256, R260): the cell blocks at the stop instant, at which held records go; those before it still execute (R186).
Further copies name the same epoch and are discarded (R240). -/
def execCellStop (x : RingId) (k : CellId) (reason : BitVec 8) (epoch : BitVec 35) (s : State) (dir : Dir := .cw)
    (heard : List LaneBlock := []) : Res :=
  let t := BitVec.ofNat 48 (epoch.toNat * 8192)
  .next ((s.fresh.cellWake x k).onL0 x k dir (.stop reason epoch) heard (.stop reason epoch) fun s => if (s.cell x k).lastStop == some t then s
    else (s.modCell x k fun c => { c with stopAt := some t, lastStop := some t }).cellStopDue x k)

/-- HB_LOST (R256). -/
def execHbLost (x : RingId) (k : CellId) (s : State) : Res :=
  .next (((s.fresh.cellWake x k).modCell x k fun c => { c with hbSilent := true }).cellBlock x k evHbLost .blocked)

/-- FRAMING_LOST (R256). -/
def execFramingLost (x : RingId) (k : CellId) (s : State) : Res :=
  .next (((s.fresh.cellWake x k).modCell x k fun c => { c with framingLost := true }).cellBlock x k evFramingLost .blocked)

/-- NO_PSTART (R256): in RUN, no PSTART record is held for TIME(last PSTART) + PER. -/
def execNoPstart (x : RingId) (k : CellId) (s : State) : Res :=
  let s := s.fresh.cellWake x k
  let c := s.cell x k
  match c.lastPstart with
  | some t =>
    let due := t + BitVec.ofNat 48 c.perTicks
    if c.mode = .run ∧ c.held.any (fun h => h.time == due && h.flags.getLsbD 6) = false then
      .next (((s.advanceTo (s.ticks + (due - s.cellCount x k).toInt.toNat)).cellWake x k).cellBlock x k evNoPstart .blocked)
    else .next s
  | none => .next s

/-- CELL_INTERNAL_FAULT (R256). -/
def execCellInternalFault (x : RingId) (k : CellId) (low : BitVec 6) (s : State) : Res :=
  .next ((s.fresh.cellWake x k).cellBlock x k (BitVec.ofNat 8 (0xC0 + low.toNat)) .fault)

/-- SCHED of the slot, in both directions (R241), with an event. -/
def State.schedBad (s : State) (x : RingId) (k : CellId) (code : BitVec 8) : State :=
  (s.modCell x k fun c => { c with schedCw := true, schedCcw := true }).cellEvent x k code

/-- A record in its place by TIME. -/
def insertHeld (now : BitVec 48) (h : HeldRec) : List HeldRec → List HeldRec
  | [] => [h]
  | g :: t => if (h.time - now).toInt < (g.time - now).toInt then h :: g :: t else g :: insertHeld now h t

/-- A record accepted lately, at most 128 of them. -/
def Cell.note (c : Cell) (amend : Bool) (seq : BitVec 16) : Cell :=
  { c with recent := (c.recent ++ [(amend, seq)]).drop (c.recent.length + 1 - 128) }

/-- Is a record timed before the cell's last ARM (R260)? -/
def Cell.beforeArm (c : Cell) (t : BitVec 48) : Bool := c.lastArm.any fun a => decide ((t - a).toInt < 0)

/-- An ENTRY that the cell accepts (R262 to R264). -/
def State.cellEntry (s : State) (x : RingId) (k : CellId) (r : BitVec 128) : State :=
  let now := s.cellCount x k
  let seq := recSeq r
  let s := s.modCell x k fun c =>
    { c.note false seq with
      lastEntry := some (match c.lastEntry with
        | some l => if 0 < (seq - l).toInt then seq else l
        | none => seq) }
  let c := s.cell x k
  if c.held.any (fun h => h.orphan && h.seq == seq) then
    s.modCell x k fun c => { c with held := c.held.map fun h => if h.seq = seq then { h with orphan := false } else h }
  else if (recTime r - now).toInt < 0 then s.schedBad x k evSchedLate
  else if c.beforeArm (recTime r) then s
  else if 64 ≤ c.held.length then s.schedBad x k evSchedFull
  else s.modCell x k fun c => { c with held := insertHeld now ⟨recTime r, recGates r, recFlags r, seq, false⟩ c.held }

/-- An AMEND that the cell accepts (R264). -/
def State.cellAmend (s : State) (x : RingId) (k : CellId) (r : BitVec 128) : State :=
  let now := s.cellCount x k
  let seq := recSeq r
  let s := s.modCell x k fun c => c.note true seq
  let c := s.cell x k
  let lead : Int := (c.descLo 4 * 8 : Nat)
  match c.held.find? (fun h => h.seq == seq) with
  | some h =>
    if lead ≤ (h.time - now).toInt then
      s.modCell x k fun c =>
        { c with held := c.held.map fun g => if g.seq = seq then { g with gates := recGates r, flags := recFlags r } else g }
    else s.schedBad x k evAmLate
  | none =>
    if c.lastEntry.any (fun l => decide (0 ≤ (l - seq).toInt)) then s
    else if (recTime r - now).toInt < lead then s.schedBad x k evAmLate
    else if c.beforeArm (recTime r) then s
    else if 64 ≤ c.held.length then s.schedBad x k evSchedFull
    else s.modCell x k fun c => { c with held := insertHeld now ⟨recTime r, recGates r, recFlags r, seq, true⟩ c.held }

/-- A record at a cell (R261 to R264); the second copy of a record is discarded (R240). -/
def State.cellRecord (s : State) (x : RingId) (k : CellId) (record : BitVec 128) : State :=
  let c := s.cell x k
  if !recordOk record then s.schedBad x k evSchedCrc
  else if (recRing record).toNat ≠ x.val ∨ (recPos record).toNat ≠ k.val + 1 ∨ c.admitted = false then s
  else if recKind record = 0 then
    (if c.recent.contains (false, recSeq record) then s else s.cellEntry x k record)
  else if recKind record = 1 then
    (if c.recent.contains (true, recSeq record) then s else s.cellAmend x k record)
  else s

/-- CELL_RECORD_ACCEPT (R235, R261 to R264): a record of a frame of records. -/
def execCellRecordAccept (x : RingId) (k : CellId) (record : BitVec 128) (s : State) (dir : Dir := .cw)
    (heard : List LaneBlock := []) : Res :=
  .next ((s.fresh.cellWake x k).onL0 x k dir (.sched record) heard (.sched record) fun s => s.cellRecord x k record)

/-- A lower SEQ has never arrived (R263): some number after the last one whose record came due, 0xFFFF before the first, and
before this one. -/
def Cell.gapBefore (c : Cell) (seq : BitVec 16) : Bool :=
  let l := c.lastExec.getD 0xFFFF
  let n := (seq - l).toNat
  decide (n < 0x8000) && (List.range (min n 128 - 1)).any fun i => !c.recent.contains (false, l + BitVec.ofNat 16 (i + 1))

/-- May a BLOCKED cell enter RUN at a record (R258)? -/
def Cell.mayRun (c : Cell) (h : HeldRec) : Bool :=
  c.mode == .blocked && c.admitted && h.flags.getLsbD 6 && !c.hbSilent && !c.framingLost && c.stopAt.isNone &&
  (match c.arm with | some t => decide (0 ≤ (h.time - t).toInt) | none => false)

/-- A record takes effect in a cell in RUN (R262): switches go off at once, and those that go on follow TDEAD later. -/
def Cell.apply (c : Cell) (h : HeldRec) : Cell :=
  { c with
    before := c.switches h.time
    gates := h.gates
    gatesAt := h.time
    bypass := h.flags.getLsbD 5
    lastPstart := if h.flags.getLsbD 6 then some h.time else c.lastPstart }

/-- CELL_RECORD_EXECUTE (R262, R263, R258): the record that is due first takes effect at its TIME, unless a stop instant comes
before it. -/
def execCellRecordExecute (x : RingId) (k : CellId) (s : State) : Res :=
  let s := s.fresh.cellWake x k
  match (s.cell x k).held with
  | [] => .next s
  | h :: _ =>
    let s := (s.advanceTo (s.ticks + (h.time - s.cellCount x k).toInt.toNat)).cellWake x k
    match (s.cell x k).held with
    | [] => .next s
    | h :: rest =>
      let gap := (s.cell x k).gapBefore h.seq
      let s := s.modCell x k fun c => { c with held := rest, lastExec := some h.seq, mode := if c.mayRun h then .run else c.mode }
      if (s.cell x k).mode = .run then
        let s := s.modCell x k fun c => c.apply h
        .next (if gap then s.schedBad x k evSchedGap else s)
      else .next s

/-- The cell's slot byte in one direction (R241); `hb` is its bit HB. -/
def Cell.slotByte (c : Cell) (dir : Dir) (hb : Bool) : BitVec 8 :=
  let st := match c.mode with
    | .notAdm => 0
    | .blocked => 1
    | .run => 2
    | .fault => 3
  let sched := match dir with
    | .cw => c.schedCw
    | .ccw => c.schedCcw
  let b := st * 32 + (if c.bypass then 16 else 0) + (if c.evUnsent.isEmpty then 0 else 8) +
    (if c.linkCw || c.linkCcw then 4 else 0) + (if sched then 2 else 0) + (if hb then 1 else 0)
  BitVec.ofNat 8 (b + (if popcount b % 2 = 0 then 128 else 0))

/-- At least one of the cell's L3 inputs carries no heartbeat (R241). -/
def State.cellHb (s : State) (x : RingId) (k : CellId) : Bool :=
  (s.cell x k).hbSilent || !(s.l3In x k .cw) || !(s.l3In x k .ccw)

/-- The byte that a cell writes into its slot in one direction. -/
def State.slotByte (s : State) (x : RingId) (k : CellId) (dir : Dir) : BitVec 8 := (s.cell x k).slotByte dir (s.cellHb x k)

/-- CELL_SUMM_SLOT (R239, R241): the SUMM frame passes, and the cell changes its own slot alone. -/
def execCellSummSlot (x : RingId) (k : CellId) (dir : Dir) (s : State) (slots : List (BitVec 8) := List.replicate 40 0xFF)
    (heard : List LaneBlock := []) : Res :=
  let s := s.fresh.cellWake x k
  let b := s.slotByte x k dir
  if cellHeard x dir (.summ slots) heard then
    let s := (s.cellSend x k (.slot dir b)).cellForward x k dir (.summ (slots.set k.val b))
    .next (s.modCell x k fun c =>
      match dir with
      | .cw => { c with schedCw := false }
      | .ccw => { c with schedCcw := false })
  else .next (s.cellOut x k dir fun d => .fwdBlocks x k d (heard.map (·.bits)))

/-- CELL_EVENT_SEND (R265): the oldest record not yet sent, once in each direction. -/
def execCellEventSend (x : RingId) (k : CellId) (s : State) : Res :=
  let s := s.fresh
  match (s.cell x k).evUnsent with
  | [] => .next s
  | seq :: rest =>
    let r := fun i => (sparseGet 0 (s.cell x k).regs (0x100 + 4 * (seq.toNat % 32) + i) : Word)
    let m : CellMsg := .evt ((r 0).extractLsb' 16 8) seq ((r 2).setWidth 16 ++ r 1) (r 3)
    .next ((s.modCell x k fun c => { c with evUnsent := rest }).cellSend x k m)

/-- A cell's answer to a read: status and data (R267, R268, R365); `slot` is its slot byte. -/
def Cell.readReg (c : Cell) (slot : BitVec 8) (a : Nat) : BitVec 2 × Word :=
  if a = 0x10 then (0, sparseGet 0 c.regs 0x10 ||| slot.setWidth 32)
  else if a = 0x40 then (0, BitVec.ofNat 32 (c.evSeq - 1).toNat)
  else if a ≤ 0xF ∨ (0x11 ≤ a ∧ a ≤ 0x13) ∨ (0x20 ≤ a ∧ a ≤ 0x25) ∨ (0x100 ≤ a ∧ a ≤ 0x17F) ∨ a = 0x200 then
    (0, sparseGet 0 c.regs a)
  else (1, 0)

/-- The bits of a writable cell register that exist (R268, R365). -/
def cellRegMask (a : Nat) : Word :=
  if a = 0x11 then 0x00FF7FFF
  else if a = 0x12 then 0xFFFFFFFF
  else if a = 0x13 then 0x0000FFFF
  else if a = 0x200 then 0x800F00FF
  else 0x00FF0F0F

/-- A cell's answer to a write, and the cell after it: 1 NOREG, 2 REFUSED (R267, R268, R365). A CCTRL with DIV above 10 is REFUSED
(DESIGN CHOICE, log entry 53: R365 gives the range and not the answer). -/
def Cell.writeReg (c : Cell) (a : Nat) (v : Word) : BitVec 2 × Cell :=
  let put : Cell := { c with regs := sparseSet 0 c.regs a (v &&& cellRegMask a) }
  if (0x11 ≤ a ∧ a ≤ 0x13) ∨ (0x20 ≤ a ∧ a ≤ 0x25) then (if c.mode = .run then (2, c) else (0, put))
  else if a = 0x200 then
    (if (v.getLsbD 31 = true ∧ v.toNat % 256 = 0) ∨ 10 < v.toNat / 2 ^ 16 % 16 then (2, c)
     else (0, { put with capBuf := [] }))
  else if a ≤ 0x10 ∨ a = 0x40 ∨ (0x100 ≤ a ∧ a ≤ 0x17F) then (2, c)
  else (1, c)

/-- A register request as the cell executes it: at most once for any of the last 16 tags (R267). -/
def State.cellAnswer (s : State) (x : RingId) (k : CellId) (tag : BitVec 8) (write : Bool) (addr : BitVec 16) (data : Word) : State :=
  let c := s.cell x k
  if c.clock.isNone && !c.counting then s
  else
    match c.tags.find? (fun t => t.1 == tag) with
    | some (_, st, d, a) => s.cellSend x k (.regrsp tag st d a)
    | none =>
      let (st, c', d) : BitVec 2 × Cell × Word :=
        if write then ((c.writeReg addr.toNat data).1, (c.writeReg addr.toNat data).2, 0)
        else ((c.readReg (s.slotByte x k .cw) addr.toNat).1, c, (c.readReg (s.slotByte x k .cw) addr.toNat).2)
      (s.modCell x k fun _ => { c' with tags := (c'.tags ++ [(tag, st, d, addr)]).drop (c'.tags.length + 1 - 16) }).cellSend x k
        (.regrsp tag st d addr)

/-- CELL_REGRQ (R267): a request of the blocks given, discarded where a check fails (R232, R234) or another cell is meant, and
passed on in any case (R239). -/
def execCellRegrqHeard (x : RingId) (k : CellId) (dir : Dir) (ctl data : BitVec 64) (s : State) : Res :=
  let f : Frame := [ctl, data]
  let s := s.fresh.cellWake x k
  if ctlOk blockData ctl && Frame.isType typRegrq f && frameOk f then
    let tag := BitVec.ofNat 8 (bitsOf ctl 8 8)
    let write := ctl.getLsbD 24
    let addr := BitVec.ofNat 16 (bitsOf ctl 32 16)
    let s := s.cellForward x k dir (.regrq (bitsOf ctl 16 6) tag write addr (data.setWidth 32))
    .next (if f.target x = some k then s.cellAnswer x k tag write addr (data.setWidth 32) else s)
  else .next (s.cellOut x k dir fun d => .fwdBlocks x k d f)

/-- LINK_LOST (R270): the input of one direction loses framing, and the other direction is looped back. The command may say
whether the input of L3 is cut too; unless it does, it is where RING has power, so that a broken fibre must be the cause (R25,
R196; DESIGN CHOICE, log entry 54). -/
def execLinkLost (x : RingId) (k : CellId) (dir : Dir) (s : State) (l3 : Option Bool := none) : Res :=
  let s := s.fresh.cellWake x k
  let cut := l3.getD (s.powered domRing)
  let s := s.modCell x k fun c => match dir with | .cw => { c with l3Cw := c.l3Cw || cut } | .ccw => { c with l3Ccw := c.l3Ccw || cut }
  if (s.cell x k).lost dir then
    .next (s.modCell x k fun c => match dir with | .cw => { c with goodCw := 0 } | .ccw => { c with goodCcw := 0 })
  else
    let s := s.modCell x k fun c =>
      match dir with
      | .cw => { c with linkCw := true, goodCw := 0 }
      | .ccw => { c with linkCcw := true, goodCcw := 0 }
    .next (s.cellEvent x k evLinkLost)

/-- Consecutive epochs for which a lost input has shown valid framing. -/
def Cell.good (c : Cell) (dir : Dir) : Nat := match dir with | .cw => c.goodCw | .ccw => c.goodCcw

/-- CELL_LOOP_REMOVE (R271): after 1,024 epochs of valid framing, at the next epoch start of the cell's count. -/
def execCellLoopRemove (x : RingId) (k : CellId) (dir : Dir) (s : State) : Res :=
  let s := s.fresh
  if (s.cell x k).lost dir && decide (1024 ≤ (s.cell x k).good dir) then
    let s := (s.advanceTo (s.ticks + (epochTicks - (s.cellCount x k).toNat % epochTicks) % epochTicks)).cellWake x k
    let s := s.modCell x k fun c =>
      match dir with
      | .cw => { c with linkCw := false, l3Cw := false, goodCw := 0 }
      | .ccw => { c with linkCcw := false, l3Ccw := false, goodCcw := 0 }
    .next (s.each (List.finRange 40) fun j s => s.heartbeatBack x j)
  else .next s

/-- The latest tick at or before a cell's count, from its anchor and PER (R268). -/
def Cell.lastTick (c : Cell) (count : BitVec 48) : BitVec 48 :=
  let anchor : BitVec 48 := BitVec.ofNat 48 ((sparseGet 0 c.regs 0x12).toNat + 2 ^ 32 * ((sparseGet 0 c.regs 0x13).toNat % 65536))
  count - BitVec.ofNat 48 ((count - anchor).toInt % (c.perTicks : Int)).toNat

/-- The cell measures: the quantities q0 to q7, where the command gives them. -/
def Cell.measure (quant : List (BitVec 16)) (c : Cell) : Cell := if quant.isEmpty then c else { c with quant := quant }

/-- CELL_TELEMETRY_SEND (R274), with what the cell measures; the status word is the cell's own and stays free. -/
def execCellTelemetrySend (x : RingId) (k : CellId) (s : State) (quant : List (BitVec 16) := []) : Res :=
  let s := (s.fresh.cellWake x k).modCell x k (Cell.measure quant)
  let c := s.cell x k
  if c.counting && c.perTicks != 0 then
    let (status, s) := s.freshValue
    .next (s.cellSend x k (.tlm ((c.lastTick (s.cellCount x k)).toNat / 256) c.quant (status.setWidth 32)))
  else .next s

/-- Quantities that a mask selects, ascending. -/
def capCodes (c : Cell) (qmask : Nat) : List (BitVec 16) :=
  ((List.range 8).filter (fun i => qmask.testBit i)).map fun i => c.quant.getD i 0

/-- CELL_CAPTURE_SAMPLE (R365, R366), with what the cell measures: at its next epoch start whose number is a multiple of
2^DIV. -/
def execCellCaptureSample (x : RingId) (k : CellId) (s : State) (quant : List (BitVec 16) := []) : Res :=
  let s := s.fresh.modCell x k (Cell.measure quant)
  let ctl : Word := sparseGet 0 (s.cell x k).regs 0x200
  let qmask := ctl.toNat % 256
  if ctl.getLsbD 31 && (s.cell x k).counting && qmask != 0 then
    let from_ := if (s.cell x k).capNext = s.ringNow / epochTicks + 1 then (s.cell x k).capNext * epochTicks else s.ringNow
    let s := s.advanceTo (alignUp (epochTicks * 2 ^ (ctl.toNat / 2 ^ 16 % 16)) from_ - s.rtAdj)
    let s := s.modCell x k fun c =>
      { c with
        capNext := s.ringNow / epochTicks + 1
        capEpoch := if c.capBuf.isEmpty then BitVec.ofNat 35 (s.rtime.toNat / 8192) else c.capEpoch
        capBuf := c.capBuf ++ capCodes c qmask }
    let c := s.cell x k
    let nch := popcount qmask
    if 24 / nch * nch ≤ c.capBuf.length then
      .next ((s.modCell x k fun c => { c with capBuf := [], capSeq := c.capSeq + 1 }).cellSend x k
        (.capd (BitVec.ofNat 8 qmask) c.capEpoch c.capSeq (c.capBuf ++ List.replicate (24 - c.capBuf.length) 0)))
    else .next s
  else .next s

end Sys2Proof.Machine
end

