-- ==== Sys2Proof/Machine/RingProto.lean ====
section
/-!
DEFINITION. RING's side of the ring protocol: summaries (R242), clappers (R245 to R248), enumeration and admission
(R251 to R255), events (R266), telemetry (R274) and register access to cells (R269).
-/

namespace Sys2Proof.Machine

/-- Number of cells found at the last successful enumeration. -/
def State.found (s : State) (x : RingId) : Nat := (s.rings[x]).found

/-- RING.CTIME and RING.CDIST show the cell that RING.CSEL names. -/
def State.showCsel (s : State) : State :=
  let x := s.fget F.RING_CSEL_RING
  let k := s.fget F.RING_CSEL_POS - 1
  if h : x < 3 ∧ k < 40 then
    let v := s.view ⟨x, h.1⟩ ⟨k, h.2⟩
    (s.fsetI F.RING_CTIME_CORR (clampInt (-(2 ^ 31)) (2 ^ 31 - 1) v.corr)).fset F.RING_CDIST_DIST v.dist
  else s

/-- A slot's copy is valid: odd parity (R241). -/
def slotOk (b : BitVec 8) : Bool := popcount b.toNat % 2 == 1

/-- A slot byte with its parity bit. -/
def slotPar (b : Nat) : BitVec 8 :=
  BitVec.ofNat 8 (b % 128 + (if popcount (b % 128) % 2 = 0 then 128 else 0))

/-- The lower of two STATE values by the precedence FAULT, BLOCKED, NOTADM, RUN (R242). -/
def slotState (a b : Nat) : Nat :=
  if a = 3 ∨ b = 3 then 3 else if a = 1 ∨ b = 1 then 1 else if a = 0 ∨ b = 0 then 0 else 2

/-- Both copies of a slot combined; none where neither is valid (R242). -/
def combineSlots (a b : BitVec 8) : Option (BitVec 8) :=
  match slotOk a, slotOk b with
  | true, true =>
    some (slotPar (slotState (a.toNat / 32 % 4) (b.toNat / 32 % 4) * 32 + ((a ||| b).toNat % 32)))
  | true, false => some a
  | false, true => some b
  | false, false => none

/-- Requester code of the ring telemetry writer (MEM.UESRC.REQ). -/
def reqTlm : Nat := 0x23

/-- Base of the bank of a period. -/
def State.bankOf (s : State) (x : RingId) (period : Nat) : Nat := s.bankBase x.val + period % 2 * 0x400

/-- A ring-writer's store; the open period is marked where it fails. -/
def State.tlmStore (s : State) (x : RingId) (period a : Nat) (bytes : List Byte) : State :=
  let (s, ok) := s.memStore reqTlm a bytes
  if ok then s
  else s.modRing x fun r => { r with tlm := r.tlm.map fun t => if t.period = period then { t with bad := true } else t }

/-- The slots that read this ring's telemetry as ring and quantity inputs. -/
def State.ringSlot (s : State) (x : RingId) (d : SlotDesc) : Bool := d.kind && s.slotRing d.src == some x.val

/-- The period stamp is written, with the unused halfwords 0 (R274); scripts' slots see the data from now on. -/
def State.writeStamp (s : State) (x : RingId) (t : Tlm) : State :=
  let s := s.each (List.range 8) fun q (s : State) => s.tlmStore x t.period (s.bankOf x t.period + 0x60 * q + 80) (List.replicate 16 0)
  let bad := ((s.rings[x]).tlm.find? (fun u => u.period == t.period)).any (·.bad)
  let s := if bad then s else s.tlmStore x t.period (s.bankOf x t.period + 0x3FC) (bytesLE 4 t.period)
  let s := s.modRing x fun r => { r with tlm := r.tlm.filter (fun u => u.period != t.period) }
  if bad then s else s.stampIntake t.period (s.ringSlot x)

/-- Has every admitted cell's telemetry of a period arrived (R274)? -/
def State.tlmComplete (s : State) (x : RingId) (t : Tlm) : Bool := s.admitted x &&& ~~~t.mask == 0

/-- Periods for which no admitted cell's telemetry is missing any more are stamped. -/
def State.tlmSettle (s : State) (x : RingId) : State :=
  ((s.rings[x]).tlm.filter (s.tlmComplete x)).foldl (fun s t => s.writeStamp x t) s

/-- A tick opens a period's bank: no cell has delivered yet (R274). -/
def State.tlmOpen (s : State) (x : RingId) (period tick : Nat) : State :=
  if s.powered domRing then
    let s := s.modRing x fun r => { r with tlm := r.tlm ++ [(⟨period, tick, 0, false⟩ : Tlm)] }
    (s.tlmStore x period (s.bankOf x period + 0x300) (List.replicate 8 0)).tlmSettle x
  else s

/-- A TLM frame (R274): taken from an admitted cell, once, for a period whose stamp is not yet written. -/
def State.tlmIn (s : State) (x : RingId) (k : CellId) (tick : BitVec 40) (q : List (BitVec 16)) : State :=
  let open_ := (s.rings[x]).tlm.find? fun t => (s.rtimeAt t.tick).toNat / 256 == tick.toNat && !t.mask.getLsbD k.val
  match open_ with
  | none => s
  | some t =>
    if (s.admitted x).getLsbD k.val then
      let base := s.bankOf x t.period
      let s := s.each (List.range 8) fun i s => s.tlmStore x t.period (base + 0x60 * i + 2 * k.val) (bytesLE 2 (q.getD i 0).toNat)
      let mask := t.mask ||| BitVec.twoPow 40 k.val
      let s := s.modRing x fun r =>
        { r with
          tlm := r.tlm.map fun u => if u.period = t.period then { u with mask := mask } else u
          q0 := ((t.period, k.val, q.getD 0 0) :: r.q0).take 400 }
      (s.tlmStore x t.period (base + 0x300) (bytesLE 8 mask.toNat)).tlmSettle x
    else s

/-- The quantities of a TLM frame (R236). -/
def tlmQuants (f : Frame) : List (BitVec 16) := halvesOf (f.at_ 1) ++ halvesOf (f.at_ 2)

/-- TLM_RECEIVED (R235, R274). -/
def execTlmHeard (p : LaneId) (blocks : List LineBlock) (full : Bool) (s : State) : Res :=
  .next (s.fresh.framesOf p typTlm blocks full fun x f s =>
    match f.sender x with
    | some k => s.tlmIn x k (BitVec.ofNat 40 (bitsOf (f.at_ 0) 16 40)) (tlmQuants f)
    | none => s)

/-- TLM_WAIT_EXPIRY (R274): the oldest open period is stamped at its tick plus TLMWAIT. -/
def execTlmWaitExpiry (x : RingId) (s : State) : Res :=
  let s := s.fresh
  match (s.rings[x]).tlm with
  | [] => .next s
  | t :: _ =>
    if s.powered domRing then .next ((s.advanceTo (t.tick + s.fget F.RING_CFG_TLMWAIT * 64)).writeStamp x t) else .next s

/-- Is a cell in the effective set E_x of the last commit (R188)? -/
def State.inEffective (s : State) (x : RingId) (k : CellId) : Bool := (s.plan[(⟨x.val, by omega⟩ : DestId)]).lastEff.contains k

/-- RING's reaction to one cell's combined status (R242). -/
def State.slotReact (s : State) (x : RingId) (k : CellId) (b : BitVec 8) : State :=
  let st := b.toNat / 32 % 4
  if st = 3 then s.setFail x k
  else if st = 0 ∧ (s.admitted x).getLsbD k.val = true then
    (s.withdraw x k).modView x k fun v => { v with stage := 1 }
  else if st = 1 && s.runOrRide && s.inEffective x k then s.setFail x k
  else s

/-- One slot of a returned SUMM frame. -/
def State.slotIn (s : State) (x : RingId) (k : CellId) (a b : BitVec 8) : State :=
  match combineSlots a b with
  | some c => (s.modView x k fun v => { v with combined := c, misses := 0 }).slotReact x k c
  | none => s.modView x k fun v => { v with misses := v.misses + 1 }

/-- The ten words RING.SUMx_w from the combined slots. -/
def State.showSummary (s : State) (x : RingId) : State :=
  s.each (List.range 10) fun w s =>
    s.setWord (A.RING_SUM0 x + 4 * w) (BitVec.ofNat 32
      (ofBytesLE ((List.range 4).map fun i => if h : 4 * w + i < 40 then (s.view x ⟨4 * w + i, h⟩).combined else 0)))

/-- Cells found on a ring. -/
def State.foundCells (s : State) (x : RingId) : List CellId := (List.finRange 40).filter (fun k => decide (k.val < s.found x))

/-- What the ring's receivers make of the L0 blocks that brought a message back, clockwise on the odd port and counter-clockwise on
the even one (R201, R232, R234, R235): whether each copy arrived. A direction of which no block is given brought it whole. -/
def State.l0Return (s : State) (x : RingId) (cw ccw : L0Msg) (lines : List LineBlock × List LineBlock) : State × Bool × Bool :=
  let a := if lines.1.isEmpty then (s, true) else
    ((s.laneIn (oddPort x) .l0 lines.1).1, cw.among x .cw (s.laneIn (oddPort x) .l0 lines.1).2)
  let b := if lines.2.isEmpty then (a.1, true) else
    ((a.1.laneIn (evenPort x) .l0 lines.2).1, ccw.among x .ccw (a.1.laneIn (evenPort x) .l0 lines.2).2)
  (b.1, a.2, b.2)

/-- SUMMARY_RETURN (R242): a copy that does not arrive has no valid slot. -/
def execSummaryReturn (x : RingId) (cw ccw : List (BitVec 8)) (s : State)
    (lines : List LineBlock × List LineBlock := ([], [])) : Res :=
  let s := s.fresh
  if s.powered domRing then
    let r := s.l0Return x (.summ cw) (.summ ccw) lines
    let cw := if r.2.1 then cw else []
    let ccw := if r.2.2 then ccw else []
    let s := r.1.ringCycle.showCsel
    let s := s.each (s.foundCells x) fun k s => s.slotIn x k (cw.getD k.val 0xFF) (ccw.getD k.val 0xFF)
    let s := s.modRing x fun r => { r with link := (List.finRange 40).any fun k => (r.view[k]).showsLink }
    .next (((s.showSummary x).refreshRing x).tlmSettle x)
  else .next s

/-- SUMMARY_SLOT_TIMEOUT (R242): after 4 ring cycles without a valid copy, admission is withdrawn. -/
def execSummarySlotTimeout (x : RingId) (k : CellId) (s : State) : Res :=
  let s := s.fresh
  .next (if s.powered domRing && decide (4 ≤ (s.view x k).misses) && (s.admitted x).getLsbD k.val then
    (s.withdraw x k).tlmSettle x else s)

/-- Instant from which no report of the last clapper is outstanding: now, or 128 epochs after it (R253 step 3). -/
def State.reportsDone (s : State) (x : RingId) : Nat :=
  let r := s.rings[x]
  if r.awaited = 0 then s.ticks else max s.ticks (r.launchAt + 128 * epochTicks)

/-- Instant at which the next clapper may leave: at the interval, or for an admission at the first epoch start after the
last reports, the second one no earlier than the epoch after its TSET applies (R253). -/
def State.clapperDue (s : State) (x : RingId) : Nat :=
  let st := (s.rings[x]).view.toList.map (·.stage)
  if st.any (· == 2) then s.epochUp (s.reportsDone x + 1) + epochTicks
  else if st.any (fun n => n == 1 || n == 3) then s.epochUp (s.reportsDone x)
  else s.epochUp (max s.ticks (s.rings[x]).nextClap)

/-- CLAPPER_LAUNCH (R237, R245): both ports launch CLAP at position 5, 256 ticks into the epoch. -/
def execClapperLaunch (x : RingId) (s : State) : Res :=
  let s := s.fresh
  if s.powered domRing then
    let e := s.clapperDue x
    let s := s.advanceTo (e + 256)
    let num := (s.fget (F.RING_RSTAT_CLAPNUM x) + 1) % 256
    let s := s.fset (F.RING_RSTAT_CLAPNUM x) num
    let s := s.modRing x fun r =>
      { r with
        tL := s.rtime
        nextClap := e + s.fget F.RING_CFG_CLAPINT * epochTicks
        launchAt := s.ticks
        awaited := (s.foundCells x).foldl (fun (m : BitVec 40) k => m ||| BitVec.twoPow 40 k.val) 0
        view := r.view.map fun v => { v with lastNum := none } }
    .next (s.sendL0 x (.clap (BitVec.ofNat 8 num)))
  else .next s

/-- A signed difference of two 48-bit counts. -/
def diff48 (a b : BitVec 48) : Int := (a - b).toInt

/-- L, D_k and c_k of R246 times 4 and exact, from a cell's report and the two loop times. -/
def clapperTerms (a b tL : BitVec 48) (loopCw loopCcw : Nat) : Int × Int × Int :=
  let l4 : Int := 2 * (loopCw + loopCcw : Nat)
  let d4 : Int := 2 * diff48 a b + (loopCw + loopCcw : Nat)
  (l4, d4, d4 - 4 * diff48 a tL)

/-- TSET to one cell (R247). -/
def State.sendTset (s : State) (x : RingId) (k : CellId) (step : Bool) (c : Int) : State :=
  s.sendL0 x (.tset (k.val + 1) step c)

/-- CELLCMD to one cell. -/
def State.sendCmd (s : State) (x : RingId) (k : CellId) (cmd : BitVec 8) : State := s.sendL0 x (.cellCmd (k.val + 1) cmd 0)

/-- Step 4 of admission (R253, R536). What PLAN counts as a failure of the cell stands from now on (R187). -/
def State.admitCell (s : State) (x : RingId) (k : CellId) : State :=
  let s := s.sendCmd x k cmdAdmit
  let s := s.setMask40 (F.RING_ADML_MASK x) (F.RING_ADMH_MASK x) (s.admitted x ||| BitVec.twoPow 40 k.val)
  let s := ((s.modView x k fun v => { v with stage := 0, misses := 0 }).refreshRing x).planFails
  if s.running then s.sendArm x (k.val + 1) else s

/-- Admission fails; the cell is tried again at the next enumeration (R253). -/
def State.admissionFails (s : State) (x : RingId) (k : CellId) : State := s.modView x k fun v => { v with stage := 0 }

/-- L exceeds 40 µs: no cell is admitted (R254). -/
def State.ringTooLong (s : State) (x : RingId) : State := (s.fset (F.RING_RSTAT_ENUMERR x) 1).raise srcRingEnum

/-- What a correction leads to: for an admitted cell a slew, or above 1 ns UNADMIT and re-admission (R248); for a cell in
admission the next step (R253). -/
def State.applyCorrection (s : State) (x : RingId) (k : CellId) (c : Int) : State :=
  if (s.admitted x).getLsbD k.val then
    if c.natAbs ≤ 8 then s.sendTset x k false c
    else (((s.sendCmd x k cmdUnadmit).raise srcRingTime).withdraw x k).modView x k fun v => { v with stage := 1 }
  else
    match (s.view x k).stage with
    | 1 => (s.sendTset x k true c).modView x k fun v => { v with stage := 2 }
    | 2 => if c.natAbs ≤ 2 then s.modView x k fun v => { v with stage := 3 } else s.admissionFails x k
    | 3 => if c.natAbs ≤ 2 then s.admitCell x k else s.admissionFails x k
    | _ => s

/-- A CLAPR frame with the loop times of its clapper (R246, R248, R253); R272 applies no result while the ring is broken. -/
def State.claprIn (s : State) (x : RingId) (k : CellId) (num : BitVec 8) (a b : BitVec 48) (loopCw loopCcw : Nat) : State :=
  let fresh := num.toNat == s.fget (F.RING_RSTAT_CLAPNUM x) && (s.view x k).lastNum.isNone
  let s := if fresh then s.modRing x fun r => { r with awaited := r.awaited &&& ~~~BitVec.twoPow 40 k.val } else s
  if fresh && !s.ringBroken x then
    let (l4, d4, c4) := clapperTerms a b (s.rings[x]).tL loopCw loopCcw
    let l := roundUpTies l4 4
    let d := roundUpTies d4 4
    let c := roundUpTies c4 4
    let s := (s.fset (F.RING_LTOT_L x) (clampInt 0 524287 l).toNat).fsetI (F.RING_LASYM_DIFF x)
      (clampInt (-32768) 32767 ((loopCw : Int) - loopCcw))
    let s := (s.modView x k fun v => { v with corr := c, dist := (clampInt 0 320000 d).toNat, lastNum := some num }).showCsel
    let s := if decide (320000 < l) && !(s.admitted x).getLsbD k.val && (s.view x k).stage != 0 then
      (s.ringTooLong x).admissionFails x k else s.applyCorrection x k c
    (s.refreshRing x).tlmSettle x
  else s

/-- CLAPR_RECEIVED (R235, R246, R248, R253). -/
def execClaprHeard (p : LaneId) (blocks : List LineBlock) (loopCw loopCcw : Nat) (s : State) : Res :=
  .next (s.fresh.framesOf p typClapr blocks false fun x f s =>
    match f.sender x with
    | some k =>
      s.claprIn x k (BitVec.ofNat 8 (bitsOf (f.at_ 0) 16 8)) (BitVec.ofNat 48 (bitsOf (f.at_ 1) 0 48))
        (BitVec.ofNat 48 (bitsOf (f.at_ 2) 0 48)) loopCw loopCcw
    | none => s)

/-- ENUM_START (R251). -/
def execEnumStart (x : RingId) (s : State) : Res :=
  let s := s.fresh
  .next (if s.powered domRing && !(s.rings[x]).enumerating then s.startEnum x else s)

/-- Would an enumeration of n cells move an admitted cell (R252)? -/
def State.movesAdmitted (s : State) (x : RingId) (n : Nat) : Bool :=
  (maskCells (s.admitted x)).any fun k => decide (n ≤ k.val) || (s.cell x k).posNew != k.val + 1

/-- ENUM_RETURN (R251, R252): both copies are needed. -/
def execEnumReturn (x : RingId) (countCw countCcw : BitVec 8) (s : State)
    (lines : List LineBlock × List LineBlock := ([], [])) : Res :=
  let s := s.fresh
  if s.powered domRing && (s.rings[x]).enumerating then
    let r := s.l0Return x (.enum countCw) (.enum countCcw) lines
    let s := r.1.modRing x fun r => { r with enumerating := false }
    let n := countCw.toNat
    if (r.2.1 && r.2.2) = true ∧ countCw = countCcw ∧ 1 ≤ n ∧ n ≤ 40 ∧ s.movesAdmitted x n = false then
      let s := (s.modRing x fun r => { r with found := n }).fset (F.RING_RSTAT_N x) n
      let s := { s with cells := s.cells.set x ((s.cells[x]).map fun (c : Cell) => { c with pos := c.posNew }) }
      let adm := s.admitted x
      .next ((s.each (s.foundCells x) fun k s =>
        if adm.getLsbD k.val || decide (1 ≤ (s.view x k).stage ∧ (s.view x k).stage ≤ 3) then s
        else s.modView x k fun v => { v with stage := 4 }).refreshRing x)
    else .next ((s.fset (F.RING_RSTAT_ENUMERR x) 1).raise srcRingEnum)
  else .next s

/-- The words 0 to 15 of a cell's descriptor. -/
def State.descWords (s : State) (x : RingId) (k : CellId) : List Word :=
  (List.range 16).map fun i => sparseGet 0 (s.cell x k).regs i

/-- Does R255 accept a descriptor? -/
def descOk (d : List Word) : Bool :=
  (d.getD 2 0).toNat / 2 ^ 24 == 1 &&
  (crc16 ((d.take 15).flatMap fun w => bytesBE 4 w.toNat)).toNat == (d.getD 15 0).toNat % 65536 &&
  decide ((d.getD 8 0).toNat / 65536 ≤ 768) && decide ((d.getD 8 0).toNat % 65536 ≤ 768)

/-- The next access tag. -/
def State.nextTag (s : State) : State := { s with caTag := s.caTag + 1 }

/-- One register access that RING makes for itself, with the cell's answer (R267, R268). -/
def State.ownAccess (s : State) (x : RingId) (k : CellId) (write : Bool) (addr : BitVec 16) (data : Word) : State :=
  let s := s.nextTag
  (s.sendL0 x (.regrq (k.val + 1) s.caTag write addr data)).cellAnswer x k s.caTag write addr data

/-- CFG0 to CFG2 as RING writes them (R268): ring, position, period and the RTIME of a tick. -/
def State.cfgWords (s : State) (x : RingId) (k : CellId) : List Word :=
  let t := (s.rtimeAt s.timer.last).toNat
  [BitVec.ofNat 32 (x.val * 2 ^ 22 + (k.val + 1) * 2 ^ 16 + s.timer.copy), BitVec.ofNat 32 t, BitVec.ofNat 32 (t / 2 ^ 32)]

def State.writeCfg (s : State) (x : RingId) (k : CellId) : State :=
  ((s.cfgWords x k).zipIdx).foldl (fun s e => s.ownAccess x k true (BitVec.ofNat 16 (0x11 + e.2)) e.1) s

/-- ADMISSION (R253 steps 1 and 2, R255): in order of position, on an unbroken ring whose L is at most 40 µs. -/
def execAdmission (x : RingId) (k : CellId) (s : State) : Res :=
  let s := s.fresh
  let first := (List.finRange 40).all fun j => !decide (j < k) || (s.view x j).stage != 4
  if s.powered domRing && (s.view x k).stage == 4 && first && !s.ringBroken x then
    if 320000 < s.fget (F.RING_LTOT_L x) then .next ((s.ringTooLong x).admissionFails x k)
    else
      let s := s.each (List.range 16) fun i s => s.ownAccess x k false (BitVec.ofNat 16 i) 0
      let d := s.descWords x k
      if (s.cell x k).clock.isSome && descOk d then
        .next ((s.modView x k fun v => { v with desc := d, stage := 1 }).writeCfg x k)
      else .next (s.admissionFails x k)
  else .next s

/-- ADMISSION_CLAPR_TIMEOUT (R253 step 3): 128 epochs after a clapper whose report has not returned. -/
def execAdmissionClaprTimeout (x : RingId) (k : CellId) (s : State) : Res :=
  let s := s.fresh
  if s.powered domRing && decide (1 ≤ (s.view x k).stage ∧ (s.view x k).stage ≤ 3) && (s.rings[x]).awaited.getLsbD k.val then
    let s := s.advanceTo ((s.rings[x]).launchAt + 128 * epochTicks)
    .next ((s.modRing x fun r => { r with awaited := r.awaited &&& ~~~BitVec.twoPow 40 k.val }).admissionFails x k)
  else .next s

/-- RING.EVTQ0 to EVTQ3 show the head of the intake queue, RING.EVTLVL its length. -/
def State.showEvtq (s : State) : State :=
  let h : Word × Word × Word × Word := match s.evq with
    | [] => (0, 0, 0, 0)
    | e :: _ => (BitVec.ofNat 32 (e.ring.val * 2 ^ 30 + (e.cell.val + 1) * 2 ^ 24 + e.code.toNat * 2 ^ 16 + e.seq.toNat),
        e.time.setWidth 32, (e.time >>> 32).setWidth 32, e.data)
  ((((s.setWord A.RING_EVTQ0 h.1).setWord A.RING_EVTQ1 h.2.1).setWord A.RING_EVTQ2 h.2.2.1).setWord A.RING_EVTQ3 h.2.2.2).fset
    F.RING_EVTLVL_LEVEL s.evq.length

/-- Lowest event class queued from a ring (RING.EVTCFG). -/
def State.evtMin (s : State) (x : RingId) : Nat :=
  match x.val with
  | 0 => s.fget F.RING_EVTCFG_MINA
  | 1 => s.fget F.RING_EVTCFG_MINB
  | _ => s.fget F.RING_EVTCFG_MINC

def evtDropField (x : RingId) : Fld :=
  match x.val with
  | 0 => F.RING_EVTDROP_A
  | 1 => F.RING_EVTDROP_B
  | _ => F.RING_EVTDROP_C

/-- Is a sequence number later than the last one (signed 16-bit difference)? -/
def later16 (seq : BitVec 16) (last : Option (BitVec 16)) : Bool :=
  match last with
  | none => true
  | some l => decide (0 < (seq - l).toInt)

/-- An EVT frame (R266). -/
def State.evtIn (s : State) (x : RingId) (k : CellId) (code : BitVec 8) (seq : BitVec 16) (time : BitVec 48) (data : Word) : State :=
  let s := s.ringDue
  if later16 seq (s.view x k).lastSeq then
    let s := s.modView x k fun v => { v with lastSeq := some seq }
    if code.toNat / 64 < s.evtMin x then s
    else if s.evq.length < 1024 then { s with evq := s.evq ++ [(⟨x, k, code, seq, time, data⟩ : EvtRec)] }.showEvtq
    else (s.finc (evtDropField x)).raise srcEvtOvf
  else s

/-- EVT_RECEIVED (R235, R266). -/
def execEvtHeard (p : LaneId) (blocks : List LineBlock) (full : Bool) (s : State) : Res :=
  .next (s.fresh.framesOf p typEvt blocks full fun x f s =>
    match f.sender x with
    | some k =>
      s.evtIn x k (BitVec.ofNat 8 (bitsOf (f.at_ 0) 16 8)) (BitVec.ofNat 16 (bitsOf (f.at_ 0) 24 16))
        (BitVec.ofNat 48 (bitsOf (f.at_ 1) 0 48)) ((f.at_ 2).setWidth 32)
    | none => s)

/-- A read of RING.EVTQ3 removes the head record. -/
def State.popEvtq (s : State) : State := { s with evq := s.evq.drop 1 }.showEvtq

/-- A 1 written to RING.CACMD.GO (R269): the request carries the values written, which read back from the next ring cycle. -/
def State.cellGo (s : State) : State :=
  let x := s.fnext F.RING_CACMD_RING
  if h : x < 3 then
    if s.flag F.RING_CASTAT_BUSY then s
    else
      let s := s.nextTag
      let w := decide (s.fnext F.RING_CACMD_WRITE = 1)
      let pos := s.fnext F.RING_CACMD_POS
      let s := { s with access := some ⟨s.ticks, ⟨x, h⟩, pos - 1, s.caTag, w⟩ }.fset F.RING_CASTAT_BUSY 1
      s.sendL0 ⟨x, h⟩ (.regrq pos s.caTag w (BitVec.ofNat 16 (s.fnext F.RING_CACMD_ADDR))
        (if w then s.nextWord A.RING_CADATA else 0))
  else s

/-- A REGRSP frame (R269): the first valid answer ends the access. -/
def State.regrspIn (s : State) (x : RingId) (k : CellId) (tag : BitVec 8) (status : BitVec 2) (data : Word) : State :=
  match s.access with
  | some a =>
    if a.ring == x && a.cell == k.val && a.tag == tag then
      let s := (({ s with access := none }.ringCycle).fset F.RING_CASTAT_BUSY 0).fset F.RING_CASTAT_STATUS status.toNat
      if a.write then s else s.setWord A.RING_CADATA data
    else s
  | none => s

/-- REGRSP_RECEIVED (R235, R269). -/
def execRegrspHeard (p : LaneId) (blocks : List LineBlock) (s : State) : Res :=
  .next (s.fresh.framesOf p typRegrsp blocks false fun x f s =>
    match f.target x with
    | some k =>
      s.regrspIn x k (BitVec.ofNat 8 (bitsOf (f.at_ 0) 8 8)) (BitVec.ofNat 2 (bitsOf (f.at_ 0) 24 2)) ((f.at_ 1).setWidth 32)
    | none => s)

/-- CELL_ACCESS_TIMEOUT (R269): 60 µs after the GO. -/
def execCellAccessTimeout (s : State) : Res :=
  let s := s.fresh
  match s.access with
  | some a =>
    if s.powered domRing then
      .next (({ (s.advanceTo (a.goAt + 60 * us)).ringCycle with access := none }.fset F.RING_CASTAT_BUSY 0).fset
        F.RING_CASTAT_TIMEOUT 1)
    else .next s
  | none => .next s

end Sys2Proof.Machine
end

