-- ==== Sys2Proof/Machine/Time.lean ====
section
/-!
DEFINITION. Time bases (chapter 9): the mapping from RTIME to GTIME (R279 to R281), the PTP servo and the time-source
axis (R294 to R298), PTP stamps (R290 to R293), reports to the metrology island (R283, R296), compare units (R284 to
R288), and peer modules (R299 to R304).
-/

namespace Sys2Proof.Machine

/-- One nanosecond in the unit of the mapping, 2^-43 ns. -/
def nsUnit : Nat := 2 ^ 43

/-- The anchor R_A, and its GTIME in 2^-43 ns. -/
def State.mapR (s : State) : BitVec 48 := s.getTime48 F.TIME_MAPRL_RA F.TIME_MAPRH_RA
def State.mapG (s : State) : Nat :=
  ((s.fget F.TIME_MAPGSL_SEC + 2 ^ 32 * s.fget F.TIME_MAPGSH_SEC) * 1000000000 + s.fget F.TIME_MAPGNS_NS) * nsUnit + s.tim.gFrac

/-- GTIME gained per tick in 2^-43 ns (R279). -/
def State.mapRate (s : State) : Int := 2 ^ 40 + s.tim.kFreq + s.tim.kSlew

/-- GTIME of an RTIME instant in 2^-43 ns, exact (R279). -/
def State.gExact (s : State) (t : BitVec 48) : Int := (s.mapG : Int) + (t - s.mapR).toInt * s.mapRate

/-- GTIME in ns, rounded to the nearest with a tie to the later one (R279). -/
def State.gtimeNs (s : State) (t : BitVec 48) : Int := roundUpTies (s.gExact t) nsUnit

/-- The mapping anchored at an instant with a GTIME given in 2^-43 ns. -/
def State.setAnchor (s : State) (t : BitVec 48) (g : Nat) : State :=
  let ns := g / nsUnit
  let s := s.setTime48 F.TIME_MAPRL_RA F.TIME_MAPRH_RA t
  let s := ((s.fset F.TIME_MAPGSL_SEC (ns / 1000000000)).fset F.TIME_MAPGSH_SEC (ns / 1000000000 / 2 ^ 32)).fset
    F.TIME_MAPGNS_NS (ns % 1000000000)
  { s with tim := { s.tim with gFrac := g % nsUnit } }

/-- TIME.MAPK shows K. -/
def State.showK (s : State) : State := s.fsetI F.TIME_MAPK_K (s.tim.kFreq + s.tim.kSlew)

/-- |K_freq| of R281. -/
def kFreqMax : Int := 219902326

/-- K_slew of a limit in ppm, in 2^-40: rounded to the nearest (DESIGN CHOICE, log entry 53: the manual gives the limit in ppm
only). -/
def kSlewMax (ppm : Nat) : Int := ((ppm * 2 ^ 40 + 500000) / 1000000 : Nat)

/-- The slew that removes an offset in the shortest time (R295): its rate, and what it has to remove. -/
def slewOf (ppm : Nat) (theta : Int) : Int × Nat :=
  (if theta = 0 then 0 else if 0 < theta then -kSlewMax ppm else kSlewMax ppm, theta.natAbs * nsUnit)

/-- Time-source codes of SUP.MODE.TSRC. -/
def tsrcLocked : Nat := 0
def tsrcHoldover : Nat := 1
def tsrcFree : Nat := 2

def State.tsrc (s : State) : Nat := s.fget F.SUP_MODE_TSRC

/-- A servo rate update takes effect (R280, R281). Outside PTP_LOCKED the mapping keeps its last K_freq (R298). -/
def State.takeRate (s : State) : State :=
  match s.tim.newK with
  | some (k, theta) =>
    let (ks, left) := slewOf (s.fget F.TIME_GCFG_SLEW) theta
    ({ s with tim := { s.tim with kFreq := if s.tsrc = tsrcLocked then k else s.tim.kFreq, kSlew := ks, slewLeft := left, newK := none } }).showK
  | none => s

/-- Ticks from the anchor until a GTIME in 2^-43 ns is reached. -/
def State.ticksTo (s : State) (g : Nat) : Nat := ((g : Int) - s.mapG + s.mapRate - 1).toNat / s.mapRate.toNat

/-- Instant of an RTIME at or after now. -/
def State.aheadOf (s : State) (t : BitVec 48) : Nat := s.ticks + (t - s.rtime).toInt.toNat

/-- Ticks after the anchor at which the slew in progress is spent; none without one. -/
def State.slewEnd (s : State) : Option Nat :=
  if s.tim.kSlew = 0 then none
  else some ((s.tim.slewLeft + s.tim.kSlew.natAbs - 1) / s.tim.kSlew.natAbs)

/-- Ticks after the anchor at which GTIME reaches its next whole second. -/
def State.toSecond (s : State) : Nat := s.ticksTo ((s.mapG / nsUnit / 1000000000 + 1) * 1000000000 * nsUnit)

/-- The next re-anchor, in ticks after the anchor: a whole GTIME second (R280), or earlier the end of a slew (R298). -/
def State.anchorSpan (s : State) : Nat :=
  match s.slewEnd with
  | some e => min s.toSecond e
  | none => s.toSecond

/-- GTIME_REANCHOR (R280): no GTIME value changes; at a whole second a pending rate update takes effect. -/
def execGtimeReanchor (s : State) : Res :=
  let s := s.fresh
  if s.powered domPlan then
    let n := s.anchorSpan
    let second := decide (s.toSecond ≤ n)
    let t := s.mapR + BitVec.ofNat 48 n
    let s := s.advanceTo (s.aheadOf t)
    let left := s.tim.slewLeft - n * s.tim.kSlew.natAbs
    let s := s.setAnchor t (s.gExact t).toNat
    let s := { s with tim := { s.tim with slewLeft := left, kSlew := if left = 0 then 0 else s.tim.kSlew } }.showK
    .next (if second then s.takeRate else s)
  else .next s

/-- From PTP_LOCKED to HOLDOVER (R297). -/
def State.toHoldover (s : State) : State :=
  if s.tsrc = tsrcLocked then
    { s with tim := { s.tim with holdAt := s.ticks, count := 0 } }.fset F.SUP_MODE_TSRC tsrcHoldover
  else s

/-- A measurement counts toward lock, or breaks the run (R294, R297). -/
def State.countMeasurement (s : State) (theta : Int) : State :=
  if theta.natAbs ≤ 1000 ∧ s.tim.stepDue = none then
    let s := { s with tim := { s.tim with count := s.tim.count + 1 } }
    if 16 ≤ s.tim.count ∧ s.tsrc ≠ tsrcLocked then
      { s with tim := { s.tim with everLocked := true } }.fset F.SUP_MODE_TSRC tsrcLocked
    else s
  else
    let s := { s with tim := { s.tim with count := 0 } }
    if 1000 < theta.natAbs then s.toHoldover else s

/-- Is a step permitted (R295)? -/
def State.stepAllowed (s : State) : Bool :=
  !s.flag F.TIME_GCFG_STEPINH && !(s.flag F.TIME_GCFG_STEPMODE && s.tim.everLocked)

/-- The first whole second of the unstepped GTIME at least 1 ms ahead, in seconds (R295). -/
def State.stepSecond (s : State) : Nat :=
  alignUp (1000000000 * nsUnit) (s.gExact (s.rtime + BitVec.ofNat 48 ms)).toNat / (1000000000 * nsUnit)

/-- Instant at which the unstepped GTIME reaches a whole second, by the mapping in force. -/
def State.secondAt (s : State) (g : Nat) : Nat := s.aheadOf (s.mapR + BitVec.ofNat 48 (s.ticksTo (g * 1000000000 * nsUnit)))

/-- SYNC_MEASUREMENT (R294, R295): the LIVE fields of TIME take effect, the measurement counts, and the offset is slewed
or becomes a step. -/
def execSyncMeasurement (theta kFreq utcOffset : Int) (s : State) : Res :=
  let s := s.fresh
  if s.powered domPlan && s.powered domHost then
    let s := (s.applyLiveBlock 2).fsetI F.TIME_OFFSET_THETA (clampInt (-(2 ^ 31)) (2 ^ 31 - 1) theta)
    let s := { s with tim := { s.tim with utc := utcOffset } }
    let k := clampInt (-kFreqMax) kFreqMax kFreq
    let pending := s.tim.stepDue
    let s := s.countMeasurement theta
    match pending with
    | some (_, g) => .next { s with tim := { s.tim with stepDue := some (theta, g), newK := some (k, 0) } }
    | none =>
      if 2000 < theta.natAbs ∧ s.stepAllowed = true then
        .next { s with tim := { s.tim with stepDue := some (theta, s.stepSecond), newK := some (k, 0) } }
      else .next { s with tim := { s.tim with newK := some (k, theta) } }
  else .next s

/-- GTIME_STEP (R295, R296). -/
def execGtimeStep (s : State) : Res :=
  let s := s.fresh
  match s.tim.stepDue with
  | none => .next s
  | some (theta, g) =>
    if s.powered domPlan then
      let s := s.advanceTo (s.secondAt g)
      let t := s.rtime
      let before := s.gtimeNs t
      let s := s.setAnchor t (s.gExact t - theta * nsUnit).toNat
      let s := { s with tim := { s.tim with stepDue := none, kSlew := 0, slewLeft := 0, newK := s.tim.newK.map fun (n : Int × Int) => (n.1, 0) } }.showK
      let after := s.gtimeNs t
      let s := (s.fset F.TIME_STAT_STEPPED 1).finc F.TIME_STEPCNT_COUNT
      let s := s.log ⟨s.ltime, 0x02, true, 1, t.setWidth 64, BitVec.ofInt 64 (before / 1000000000),
        BitVec.ofInt 64 (before % 1000000000 * 2 ^ 32 + after % 1000000000), BitVec.ofInt 64 (after / 1000000000), BitVec.ofInt 64 theta⟩
      .next (s.emit (.stepReport theta (after / 1000000000).toNat))
    else .next s

/-- HOLDOVER (R297). -/
def execHoldover (s : State) : Res := .next s.fresh.toHoldover

/-- HOLDMAX_EXPIRY (R297). -/
def execHoldmaxExpiry (s : State) : Res :=
  let s := s.fresh
  if s.tsrc = tsrcHoldover then
    .next ((s.advanceTo (s.tim.holdAt + s.fget F.TIME_GCFG_HOLDMAX * 60 * sec)).fset F.SUP_MODE_TSRC tsrcFree)
  else .next s

/-- TIME_PAIR_SEND (R283): every 60 s while PTP_LOCKED. -/
def execTimePairSend (s : State) : Res :=
  let s := s.fresh
  if s.powered domPlan && s.tsrc == tsrcLocked then
    let s := s.advanceTo (s.tim.pairAt + 60 * sec)
    let s := { s with tim := { s.tim with pairAt := s.ticks } }
    let g := (s.gtimeNs s.rtime).toNat
    .next (s.emit (.toMtr g ((g / 1000000000 : Nat) - s.tim.utc - 946684800)))
  else .next s

/-- Fields of a PTP port's transmit queue. -/
def txLevel (p : EthId) : Fld := if p = 0 then F.TIME_TXTS_LVLA else F.TIME_TXTS_LVLB
def txDropped (p : EthId) : Fld := if p = 0 then F.TIME_TXTS_OVFA else F.TIME_TXTS_OVFB

/-- A message that makes no transmit entry in one-step operation: Sync and Pdelay_Resp (R291). -/
def State.oneStep (s : State) (kind : BitVec 4) : Bool := !s.flag F.TIME_PTPCFG_TWOSTEP && (kind == 0 || kind == 3)

/-- Does a port stamp event messages of a type: PTP on, its link up, and the type one of the profile's delay mechanism (R289)?
A slave-only clock sends no Sync. -/
def State.ptpOn (s : State) (port : EthId) (transmit : Bool) (kind : BitVec 4) : Bool :=
  s.powered domPlan && s.powered domHost && s.fget F.TIME_PTPCFG_ROLE != 0 && (s.fget F.HOST_STAT_LINK).testBit port.val &&
    !(transmit && kind == 0 && s.fget F.TIME_PTPCFG_ROLE == 1) &&
    (kind == 0 || (if s.fget F.TIME_PTPCFG_PROFILE = 0 then kind == 1 else kind == 2 || kind == 3))

/-- A stamp, of 1 ns resolution (R290): RTIME without its last three bits (DESIGN CHOICE, log entry 53: the manual does not say
how the resolution is reached). -/
def State.ptpStamp (s : State) : BitVec 48 := s.rtime &&& ~~~(7 : BitVec 48)

/-- The stamp of the last received message of a type on a port, with its sequence number (R290). -/
def State.rxStamp (s : State) (port : EthId) (kind : BitVec 4) (seq : BitVec 16) : Option (BitVec 48) :=
  (s.tim.rxq.find? fun r => r.port == port && r.kind == kind && r.seq == seq).map (·.time)

/-- What a one-step message takes as it leaves (R291): a Sync its originTimestamp, a Pdelay_Resp the turnaround time since the
request that it answers, and with UDP transport either a corrected checksum. -/
def State.oneStepOut (s : State) (port : EthId) (kind : BitVec 4) (seq : BitVec 16) : State :=
  let udp := s.flag F.TIME_PTPCFG_UDP
  if kind = 0 then s.emit (.ptp port kind seq (s.gtimeNs s.ptpStamp) udp)
  else
    match s.rxStamp port 2 seq with
    | some t => s.emit (.ptp port kind seq ((s.ptpStamp - t).toInt / 8) udp)
    | none => s

/-- PTP_EVENT_MESSAGE (R289 to R292). A received message's stamp is kept for the engine. -/
def execPtpEventMessage (port : EthId) (transmit : Bool) (messageType : BitVec 4) (sequenceId : BitVec 16) (s : State) : Res :=
  let s := s.fresh
  if s.ptpOn port transmit messageType then
    if !transmit then
      .next { s with tim := { s.tim with
        rxq := ⟨port, messageType, sequenceId, s.ptpStamp⟩ :: s.tim.rxq.filter fun r => r.port != port || r.kind != messageType } }
    else if s.oneStep messageType then .next (s.oneStepOut port messageType sequenceId)
    else
      let q := s.tim.txq[port]
      if q.length < 16 then
        let s := { s with tim := { s.tim with txq := s.tim.txq.set port (q ++ [(⟨messageType, sequenceId, s.ptpStamp, s.gtimeNs s.ptpStamp⟩ : TxStamp)]) } }
        .next (s.fset (txLevel port) (q.length + 1))
      else .next ((s.fsetBit F.TIME_STAT_TXTS_OVF port.val).finc (txDropped port))
  else .next s

/-- What the engine does with a transmit stamp (R292, R293): the Follow_Up of a Sync or of a Pdelay_Resp leaves, and a delay
measurement may be made. A message whose stamp was dropped is in no queue and gets neither. GTIME is that of the mapping at
the stamp (R282). -/
def State.useStamp (s : State) (port : EthId) (x : TxStamp) : State :=
  if x.kind = 0 then s.emit (.ptp port 8 x.seq x.gtime false)
  else if x.kind = 3 then s.emit (.ptp port 0xA x.seq x.gtime false)
  else s.emit (.ptpDelay port x.kind x.seq x.time)

/-- The engine reads and frees the transmit stamps (R292). -/
def State.drainStamps (s : State) : State :=
  if s.powered domHost && s.tim.txq.toList.any (fun q => !q.isEmpty) then
    let s := s.each (List.finRange 2) fun p s => (s.tim.txq[p]).foldl (fun s x => s.useStamp p x) s
    ({ s with tim := { s.tim with txq := Vector.replicate 2 [] } }.fset F.TIME_TXTS_LVLA 0).fset F.TIME_TXTS_LVLB 0
  else s

/-- Compare instant of a unit. -/
def State.cmp (s : State) (u : UnitId) : BitVec 48 := s.getTime48 (F.TIME_CMPL_TIME u) (F.TIME_CMPH_TIME u)

/-- RTIME at the start of the I_RTIME cycle in progress (R284). -/
def State.cycleStart (s : State) : BitVec 48 := BitVec.ofNat 48 (s.ringNow / idleTicks * idleTicks)

/-- Is a unit's instant reached at the start of this cycle (R284)? One exactly 2^47 ticks ahead counts as reached (R285). -/
def State.cmpReached (s : State) (u : UnitId) : Bool :=
  let d := (s.cycleStart - s.cmp u).toInt
  decide (0 ≤ d ∨ d = -(2 ^ 47))

/-- A unit arms at its instant, by a take or by its own firing (R285, R286): one that is already past fires late. -/
def State.armCompare (s : State) (u : UnitId) : State :=
  let s := s.fset (F.TIME_CMPCTL_ARMED u) 1
  if s.cmpReached u then s.fsetBit F.TIME_STAT_CMPLATE u.val else s

def State.disarmCompare (s : State) (u : UnitId) : State := s.fset (F.TIME_CMPCTL_ARMED u) 0

/-- An armed unit fires (R284, R286, R287): a periodic one re-arms, and where its next instant is past too it fires again in the
same cycle (DESIGN CHOICE, log entry 53: the manual does not say in which). -/
def State.fireCompare (s : State) (u : UnitId) : State :=
  let c := s.cmp u
  let s := s.fsetBit F.TIME_STAT_CMPHIT u.val
  let s := if s.fget (F.TIME_CMPCTL_TGT u) = 1 then
    s.modCapt ⟨u.val % 4, by omega⟩ fun c' => { c' with cmpAt := some (s.instantOf c).toNat } else s
  let per := s.fget (F.TIME_CMPCTL_PER u)
  if per = 0 then s.disarmCompare u
  else (s.setTime48 (F.TIME_CMPL_TIME u) (F.TIME_CMPH_TIME u) (c + BitVec.ofNat 48 (64 * per))).armCompare u

/-- COMPARE_FIRE (R284, R286, R287), in the cycle that begins at or after the unit's instant. -/
def execCompareFire (u : UnitId) (s : State) : Res :=
  let s := s.fresh
  if s.powered domPlan && s.flag (F.TIME_CMPCTL_ARMED u) then
    let t := s.ticks + (s.cmp u - s.rtime).toInt.toNat
    .next ((s.advanceTo (alignUp idleTicks (t + s.rtAdj) - s.rtAdj)).fireCompare u)
  else .next s

/-- CMPCTLn.DISARM: written in the cycle in which the unit fires, it takes effect after the firing (R305). -/
def State.writeDisarm (s : State) (u : UnitId) : State :=
  (if s.flag (F.TIME_CMPCTL_ARMED u) && s.cmpReached u then s.fireCompare u else s).disarmCompare u

/-- TIME.PEEROFF.LOOP, from a time in ticks: whole nanoseconds, at most 65,535 (DESIGN CHOICE, log entry 53: the manual gives the
unit only). -/
def State.showLoop (s : State) (t : Nat) : State := s.fset F.TIME_PEEROFF_LOOP (min (t / 8) 65535)

/-- TIME.PEER.ROLE has been written: a leader has no position and no offset. -/
def State.roleWritten (s : State) : State :=
  if s.peerRole = roleLeader then (s.fset F.TIME_PEEROFF_OFF 0).fset F.TIME_PEER_POS 0 else s

/-- Does the peer link run? -/
def State.peerUp (s : State) : Bool := s.powered domPlan && s.powered domStrm && s.portState 7 == portTrained

/-- PEER_CLAPPER_LAUNCH (R301, R504): the leader's clapper, 1,024 epochs after the last one at the earliest, its loop time, and
PTIME in the next epoch. -/
def execPeerClapperLaunch (loopTime fwdSum followers : Nat) (s : State) : Res :=
  let s := s.fresh
  if s.peerUp && s.peerRole == roleLeader then
    let e := max (s.epochUp s.ticks) (s.tim.peerEpoch * epochTicks - s.rtAdj)
    let s := s.advanceTo (e + 256)
    let tL := s.rtime
    let num := s.tim.peerNum + 1
    let h := roundUpTies ((loopTime : Int) - fwdSum) (followers + 1)
    let s := { s with tim := { s.tim with peerNum := num, peerEpoch := (e + s.rtAdj) / epochTicks + 1024 } }.sendPeer
      [pclapBlock num 0 0]
    let s := (s.showLoop loopTime).roleWritten
    .next ((s.advanceTo (e + epochTicks + 256)).sendPeer (ptimeFrame tL h.toNat followers num))
  else .next s

/-- A follower's receiver of one type of block on P7 (R232, R234, R299, R504): the leader's EPOCH blocks pass on unchanged. -/
def State.peerFrames (s : State) (typ : Nat) (blocks : List LineBlock) (take : Frame → State → State) : State :=
  if s.peerUp && s.peerRole == roleFollower then
    let r := s.laneIn 7 .l0 blocks
    r.2.foldl (fun s f =>
      if f.isType typ then take f s else if f.isType typEpoch then s.sendPeer f else s) r.1
  else s

/-- A PCLAP (R301, R504): stamped, counted and passed on. -/
def State.pclapIn (s : State) (fwd : Nat) (f : Frame) : State :=
  let b := f.at_ 0
  let num := BitVec.ofNat 8 (bitsOf b 8 8)
  let count := bitsOf b 16 4
  let acc := bitsOf b 20 32
  let s := { s with tim := { s.tim with peerAt := some (num, s.rtime), peerAcc := acc } }
  (s.fset F.TIME_PEER_POS (count + 1)).sendPeer [pclapBlock num (count + 1) (acc + fwd)]

/-- PCLAP (R301, R504). -/
def execPclapHeard (blocks : List LineBlock) (fwd : Nat) (s : State) : Res :=
  .next (s.fresh.peerFrames typPclap blocks fun f s => s.pclapIn fwd f)

/-- Where an instant stands after RTIME has moved by d: at the same RTIME, and one still to come that the move passes comes at
once (DESIGN CHOICE, log entry 53: the manual does not say what becomes of a tick that a forward step passes). -/
def State.moved (s : State) (d : Int) (t : Nat) : Nat :=
  let u := ((t : Int) - d).toNat
  if s.ticks ≤ t then max s.ticks u else u

/-- RTIME moves against the oscillator (R303); the cells' own counts do not. What is placed in RTIME stays at its RTIME: the
ticks (R68), the sample slots of a period, the PWM periods with their edges (R309, R310), the instants of takes (R138) and a
stop instant (R259). -/
def State.shiftRtime (s : State) (d : Int) : State :=
  let a := (s.rtAdj : Int) + d
  let at_ := s.moved d
  let start := at_ s.brg.start
  { s.setRtAdj (if a < 0 then a + 2 ^ 48 else a).toNat with
    timer := { s.timer with last := at_ s.timer.last, next := at_ s.timer.next }
    adc := { s.adc with slotAt := at_ s.adc.slotAt }
    brg := { s.brg with
      start := start
      length := at_ (s.brg.start + s.brg.length) - start
      legs := s.brg.legs.map fun l => { l with edges := l.edges.map fun e => (at_ e.1, e.2) } }
    takes := s.takes.map fun k => { k with instant := k.instant.map at_ }
    sup := { s.sup with stop := s.sup.stop.map fun q => { q with instant := q.instant.map at_ } } }

/-- Every ring clappers at once. -/
def State.reclapper (s : State) : State := s.each (List.finRange 3) fun x s => s.modRing x fun r => { r with nextClap := s.ticks }

/-- The offset that a follower finds (R303): in STOPPED it steps RTIME at the next epoch start; otherwise it slews at most 1 ns,
one tick per epoch, and leaves more for the next STOPPED. -/
def State.correctRtime (s : State) (o : Int) : State :=
  let s := { s with tim := { s.tim with rtSlew := 0 } }
  if s.pwr = pwrStopped then
    (((s.advanceTo (s.epochUp (s.ticks + 1))).shiftRtime (-o)).reclapper).fset F.TIME_PEER_STATE peerAligned
  else if o.natAbs ≤ 8 then
    { s with tim := { s.tim with rtSlew := -o, rtEpoch := s.ringNow / epochTicks } }.fset F.TIME_PEER_STATE peerAligned
  else (s.fset F.TIME_PEER_STATE peerMisaligned).raise srcPeerTime

/-- RTIME slews by d ticks, and counts the epochs for the rest of its slew from here (R303). -/
def State.slewBy (s : State) (d : Int) : State :=
  let t := s.shiftRtime d
  { t with tim := { t.tim with rtSlew := t.tim.rtSlew - d, rtEpoch := t.ringNow / epochTicks } }

/-- The epochs that have passed carry out a follower's slew, one tick each (R303). -/
def State.slewRtime (s : State) : State :=
  let n := min (s.ringNow / epochTicks - s.tim.rtEpoch) s.tim.rtSlew.natAbs
  let d : Int := if 0 ≤ s.tim.rtSlew then n else -n
  if n = 0 then s else s.slewBy d

/-- A PTIME frame (R301, R303, R504), passed on by each follower (R299). -/
def State.ptimeIn (s : State) (f : Frame) : State :=
  let s := s.sendPeer f
  let tL := BitVec.ofNat 48 (bitsOf (f.at_ 0) 8 48)
  let h := bitsOf (f.at_ 1) 0 32
  match s.tim.peerAt with
  | some (n, a) =>
    if n.toNat = bitsOf (f.at_ 1) 40 8 then
      let o : Int := (a - tL).toInt - ((s.fget F.TIME_PEER_POS * h + s.tim.peerAcc : Nat) : Int)
      let s := (s.showLoop h).fsetI F.TIME_PEEROFF_OFF (clampInt (-32768) 32767 o)
      { s with tim := { s.tim with peerAt := none } }.correctRtime o
    else s
  | none => s

/-- PTIME (R301, R303). -/
def execPtimeHeard (blocks : List LineBlock) (s : State) : Res :=
  .next (s.fresh.peerFrames typPtime blocks fun f s => s.ptimeIn f)

/-- PEER_LOST (R304). -/
def execPeerLost (s : State) : Res := .next s.fresh.losePeer

/-- PEER_RETURN (R304): a follower measures again under R303. -/
def execPeerReturn (s : State) : Res :=
  let s := s.fresh
  .next (if s.powered domPlan && s.fget F.TIME_PEER_STATE == peerLost then s.fset F.TIME_PEER_STATE peerIdle else s)

end Sys2Proof.Machine
end

