-- ==== Sys2Proof/Machine/Bridge.lean ====
section
/-!
DEFINITION. The local bridge and its gate drivers (chapter 10): periods and edges (R306 to R316, R327), trips (R317 to
R321), gate supplies (R325, R326), short circuits (R329 to R334) and loss of command (R335).
-/

namespace Sys2Proof.Machine

/-- Leg states of BRG.LEGSTAT. -/
def legOff : Nat := 0
def legFault : Nat := 1
def legLatched : Nat := 2
def legTripped : Nat := 3
def legCharge : Nat := 4
def legForced : Nat := 5
def legRefresh : Nat := 6
def legRun : Nat := 7

/-- A leg's field of BRG.LEGSTAT. -/
def legField (x : LegId) : Fld := ⟨A.BRG_LEGSTAT, 4 * x.val + 2, 4 * x.val⟩

def State.legState (s : State) (x : LegId) : Nat := s.fget (legField x)
def State.setLegState (s : State) (x : LegId) (v : Nat) : State := s.fset (legField x) v

/-- Is a switch on at an instant, by its last edge? -/
def Leg.isOn (l : Leg) (high : Bool) (t : Nat) : Bool :=
  match (l.edges.filter (fun e => e.2.1 == high && decide (e.1 ≤ t))).getLast? with
  | some e => e.2.2
  | none => false

/-- The last edge of each switch at or before an instant. -/
def Leg.carry (l : Leg) (t : Nat) : List (Nat × Bool × Bool) :=
  [false, true].filterMap fun h => (l.edges.filter (fun e => e.2.1 == h && decide (e.1 ≤ t))).getLast?

/-- No edge of a leg after now is made; its switches stay as they are. -/
def State.dropEdges (s : State) (x : LegId) : State :=
  s.modLeg x fun l => { l with edges := l.carry s.ticks, lowPlanned := false }

/-- Both switches of a leg turn off now, and no later edge of the period is made. -/
def State.cutLeg (s : State) (x : LegId) : State :=
  let l := s.brg.legs[x]
  let offs := [true, false].filterMap fun h => if l.isOn h s.ticks then some (s.ticks, h, false) else none
  let s := (s.dropEdges x).modLeg x fun l => { l with edges := l.edges ++ offs }
  s.each offs fun e s => s.emit (.gate x e.2.1 false s.ticks)

/-- The chain of periods ends and every leg is OFF (R313, R314 row 1). -/
def State.bridgeOff (s : State) : State :=
  let s := { s with brg := { s.brg with running := false, entries := [] } }
  if s.powered domAnlg then
    s.each (List.finRange 4) fun x s =>
      ((s.cutLeg x).modLeg x fun l => { l with tripCut := false, charge := 0, restart := false, noLow := 0 }).setLegState x legOff
  else s

/-- A leg begins its charge periods (R315). -/
def State.startCharge (s : State) (x : LegId) : State :=
  s.modLeg x fun l => { l with charge := s.fget F.BRG_REFCTL_NCHG, restart := true }

/-- Row 1 of R314 with the stop instant of R24: the leg is off whatever else holds. -/
def State.legIdle (s : State) (x : LegId) : Bool :=
  !s.running || s.stopReached || !(s.fget F.BRG_CTRL_LEGEN).testBit x.val

def State.legLatchedBit (s : State) (x : LegId) : Bool := (s.fget F.BRG_TSTAT_LATCHED).testBit x.val

/-- The state of a leg before its first period start: rows 1 to 3 of R314, which hold at once. Where none does it still reads OFF
(DESIGN CHOICE, log entry 53: rows 5 to 7 are chosen at a period start only, and the switches are off). -/
def State.legWaiting (s : State) (x : LegId) : Nat :=
  if s.legIdle x then legOff else if s.flag (F.GATE_STAT_FAULT x) then legFault else if s.legLatchedBit x then legLatched else legOff

/-- The power stage enters PRECHARGE: every leg charges first, and the kept duty is 0 (R312, R315). -/
def State.bridgeStart (s : State) : State :=
  s.each (List.finRange 4) fun x s =>
    let s := (s.startCharge x).modLeg x fun l => { l with duty := 0, noLow := 0, lowPlanned := false }
    s.setLegState x (s.legWaiting x)

/-- Mode of a trip input: true for LATCH. -/
def State.tripLatch (s : State) (t : Nat) : Bool := (s.word A.BRG_TRIPCFG).getLsbD (8 * t + 6)

/-- Does trip t act on leg x (R317)? -/
def State.tripActs (s : State) (t : Nat) (x : LegId) : Bool := (s.fget F.BRG_TRIPMASK_MASK).testBit (4 * x.val + t)
def State.tripActive (s : State) (t : Nat) : Bool := (s.fget F.BRG_TSTAT_ACTIVE).testBit t

/-- Trips in a mode that act on a leg and are active. -/
def State.tripHolds (s : State) (x : LegId) (latch : Bool) : Bool :=
  (List.range 4).any fun t => s.tripActs t x && s.tripActive t && s.tripLatch t == latch

/-- Supply released: V+ of a channel, V- of a channel (GATE.MON). -/
def State.posOk (s : State) (x : LegId) (high : Bool) : Bool := (s.fget F.GATE_MON_POSOK).testBit (2 * x.val + high.toNat)
def State.negOk (s : State) (x : LegId) (high : Bool) : Bool := (s.fget F.GATE_MON_NEGOK).testBit (2 * x.val + high.toNat)

/-- A leg enters FAULT with a cause bit of GATE.STATx, a count of GATE.FLTCNT and an FLT source. -/
def State.gateFault (s : State) (x : LegId) (cause count : Fld) (src : Nat) : State :=
  let s := ((s.fset cause 1).fset (F.GATE_STAT_FAULT x) 1).finc count
  (if s.legIdle x then s else s.setLegState x legFault).raise src

/-- A lock-out of a leg that is neither OFF nor in CHARGE (R326); a leg in soft turn-off, or waiting for it, goes on with that
(R331). -/
def State.lockoutFault (s : State) (x : LegId) (high negative : Bool) : State :=
  let cause := if negative then F.GATE_STAT_UVLO_NEG x else if high then F.GATE_STAT_UVLO_HS x else F.GATE_STAT_UVLO_LS x
  (if (s.brg.legs[x]).softWait then s else s.cutLeg x).gateFault x cause F.GATE_FLTCNT_UVLO srcGateUvlo

/-- The four supplies of a leg: V+ and V- of the high side and of the low side, in the order of their causes. -/
def legSupplies : List (Bool × Bool) := [(true, false), (false, false), (true, true), (false, true)]

/-- The charge periods are over: each supply still locked out is a fault (R326). -/
def State.chargeEnd (s : State) (x : LegId) : State :=
  let s := s.modLeg x fun l => { l with restart := false }
  if s.powered domGate then
    s.each (legSupplies.filter fun e => !(if e.2 then s.negOk x e.1 else s.posOk x e.1)) fun e s => s.lockoutFault x e.1 e.2
  else s

/-- Numbers of one leg's period in ticks: T, DT, MINP. -/
structure LegTime where
  t  : Nat
  dt : Nat
  mp : Nat
  deriving DecidableEq, Repr

/-- Offsets of the high-side and the low-side pulse of a period with high interval D, a pulse removed by R307 left out,
and whether one was. -/
def pulses (p : LegTime) (d : Nat) : Option (Nat × Nat) × Option (Nat × Nat) × Bool :=
  let hi := d - p.dt
  let lo := p.t - d - p.dt
  let keep := fun n => decide (0 < n ∧ p.mp ≤ n)
  let runt := fun n => decide (0 < n ∧ n < p.mp)
  (if keep hi then some (p.dt, d) else none, if keep lo then some (d + p.dt, p.t) else none, runt hi || runt lo)

/-- Pulses of a refresh period (R327): the high side off at T - REFW - DT, or earlier where its duty ends it, and the low side on for
the last REFW. -/
def refreshPulses (p : LegTime) (d refw : Nat) : Option (Nat × Nat) × Option (Nat × Nat) × Bool :=
  let d' := min d (p.t - refw - p.dt)
  let hi := d' - p.dt
  (if 0 < hi ∧ p.mp ≤ hi then some (p.dt, d') else none,
   some (p.t - refw, p.t),
   decide (0 < hi ∧ hi < p.mp))

/-- May a channel turn its switch on: the GATE domain is powered (R23), its primary-side supply is there (R335) and neither of its
own supplies is locked out (R325)? -/
def State.gateUsable (s : State) (x : LegId) (high : Bool) : Bool :=
  s.powered domGate && !s.brg.primLost.getLsbD (2 * x.val + high.toNat) && s.posOk x high && s.negOk x high

/-- A leg's edges for the period from s0; a channel that cannot be used does not turn on. -/
def State.placeEdges (s : State) (x : LegId) (s0 : Nat) (hi lo : Option (Nat × Nat)) : State :=
  let hi := if s.gateUsable x true then hi else none
  let lo := if s.gateUsable x false then lo else none
  let l := s.brg.legs[x]
  let first := if l.isOn false s0 then [(s0, false, false)] else []
  let hiE := match hi with | some (a, b) => [(s0 + a, true, true), (s0 + b, true, false)] | none => []
  let loE := match lo with | some (a, _) => [(s0 + a, false, true)] | none => []
  let es := first ++ hiE ++ loE
  let s := s.modLeg x fun l => { l with edges := l.carry s0 ++ es, lowPlanned := lo.isSome }
  s.each es fun e s => s.emit (.gate x e.2.1 e.2.2 e.1)

/-- Forced mode of a leg (R316): 0 none, 1 OFF, 2 LOW, 3 HIGH. -/
def State.forceMode (s : State) (x : LegId) : Nat := (s.word A.BRG_FORCE).toNat / 4 ^ x.val % 4

/-- D of a leg before the clamp (R311, R312). -/
def State.dutyOf (s : State) (x : LegId) (t : Nat) : Nat :=
  if s.flag F.BRG_CTRL_SRC then ((s.brg.legs[x]).duty * t + 32768) / 65536 else s.fget (F.BRG_DUTY_DUTY x)

/-- One leg's pattern in a period: rows 5 to 7 of R314, with clamp, removal and refresh. -/
def State.legPattern (s : State) (x : LegId) (s0 t : Nat) : State :=
  let p : LegTime := ⟨t, s.fget (F.BRG_DEAD_DEAD x) * 32, s.fget F.BRG_MINP_MINP * 32⟩
  let l := s.brg.legs[x]
  if 0 < l.charge then
    let s := (s.modLeg x fun l => { l with charge := l.charge - 1 }).setLegState x legCharge
    let q := pulses p 0
    let s := if q.2.2 then s.fsetBit F.BRG_STAT_RUNT x.val else s
    s.placeEdges x s0 none q.2.1
  else
    let mode := s.forceMode x
    let want := s.dutyOf x t
    let clamp := mode = 0 ∧ t - p.dt < want
    let d := if mode = 2 ∨ mode = 1 then 0 else if mode = 3 then t - p.dt else min want (t - p.dt)
    let s := if clamp then s.fsetBit F.BRG_STAT_CLAMP x.val else s
    let due := s.flag F.BRG_REFCTL_REFEN && decide (s.fget F.BRG_REFCTL_REFN ≤ l.noLow + 1)
    let q := if due then refreshPulses p d (s.fget F.BRG_REFCTL_REFW * 32) else pulses p d
    let q := if mode = 1 then (none, if due then q.2.1 else none, false) else q
    let s := if q.2.2 then s.fsetBit F.BRG_STAT_RUNT x.val else s
    let s := if due then s.fsetBit F.BRG_STAT_REFRESH x.val else s
    (s.setLegState x (if due then legRefresh else if mode = 0 then legRun else legForced)).placeEdges x s0 q.1 q.2.1

/-- The count of R327 after the period that has just ended. -/
def State.countLow (s : State) (x : LegId) : State :=
  let st := s.legState x
  s.modLeg x fun l =>
    { l with
      noLow :=
        if st = legOff ∨ st = legFault then 0
        else if l.lowPlanned then 0
        else if (s.fget F.BRG_REFCTL_REFN ≤ l.noLow + 1) then l.noLow
        else l.noLow + 1 }

/-- Rows 1 to 4 of R314 at a period start: the state they give, or none where rows 5 to 7 choose. From the stop instant on
every leg is off (R24). -/
def State.legHeld (s : State) (x : LegId) : Option Nat :=
  if s.legIdle x then some legOff
  else if s.flag (F.GATE_STAT_FAULT x) then some legFault
  else if s.legLatchedBit x then some legLatched
  else if s.tripHolds x false then some legTripped
  else none

/-- A leg at a period start before its pattern: the counts of its trip, and the end of its charge. -/
def State.legBefore (s : State) (x : LegId) : State :=
  let s := s.countLow x
  let s := if s.tripHolds x true then s.fsetBit F.BRG_TSTAT_LATCHED x.val else s
  let s := s.modLeg x fun l => { l with tripCut := false }
  let s := s.fclrBit F.BRG_TSTAT_CUT x.val
  if s.legHeld x != some legOff && s.legHeld x != some legFault && (s.brg.legs[x]).restart && (s.brg.legs[x]).charge == 0 then
    s.chargeEnd x
  else s

/-- A leg that its enable, a fault or a trip holds off over the period; one in FAULT that still waits for its soft turn-off keeps
waiting (R331, R332). -/
def State.legStop (s : State) (x : LegId) (st : Nat) : State :=
  let s := (if st = legFault ∧ (s.brg.legs[x]).softWait = true then s else s.cutLeg x).setLegState x st
  if st = legTripped ∨ st = legLatched then
    let s := s.finc F.BRG_CNT_TRIPCUT
    if st = legTripped then (s.fsetBit F.BRG_TSTAT_CUT x.val).modLeg x fun l => { l with tripCut := true } else s
  else s

/-- A leg at a period start: held off, or its pattern. -/
def State.legStart (s : State) (s0 t : Nat) (x : LegId) (held : Option Nat) : State :=
  match held with
  | some st => s.legStop x st
  | none => s.legPattern x s0 t

/-- One leg at a period start. -/
def State.legPeriod (s : State) (s0 t : Nat) (x : LegId) : State :=
  (s.legBefore x).legStart s0 t x ((s.legBefore x).legHeld x)

/-- Duty x of a local-bridge entry, and its TIME (R191). -/
def entryDuty (e : BitVec 128) (x : LegId) : Nat := (e.extractLsb' (64 - 16 * x.val) 16).toNat
def entryTime (e : BitVec 128) : BitVec 48 := e.extractLsb' 80 48

/-- The entry of a period start, if PLAN is the source (R312); entries whose TIME has passed are discarded and counted. -/
def State.takeEntry (s : State) (s0 : Nat) : State :=
  if !s.flag F.BRG_CTRL_SRC then s
  else
    let rt := s.rtimeAt s0
    let late := s.brg.entries.filter fun e => decide ((entryTime e - rt).toInt < 0)
    let s := if late.isEmpty then s else
      (s.fset F.BRG_STAT_NOENT 1).fset F.BRG_CNT_NOENT (min (s.fget F.BRG_CNT_NOENT + late.length) 65535)
    let mine := s.brg.entries.find? fun e => entryTime e == rt
    let s := { s with brg := { s.brg with entries := s.brg.entries.filter fun e => decide (0 < (entryTime e - rt).toInt) } }
    match mine with
    | some e => s.each (List.finRange 4) fun x s => s.modLeg x fun l => { l with duty := entryDuty e x }
    | none => (s.fset F.BRG_STAT_NOENT 1).finc F.BRG_CNT_NOENT

/-- The next period start of the chain. -/
def State.nextPwm (s : State) : Nat := s.brg.start + s.brg.length

/-- BRG_ENTRY_RECEIVED (R312). -/
def execBrgEntryReceived (entry : BitVec 128) (s : State) : Res :=
  let s := s.fresh
  if s.powered domAnlg then
    if recordOk entry then .next { s with brg := { s.brg with entries := s.brg.entries ++ [entry] } }
    else .next (s.raise srcBrgCrc)
  else .next s

/-- A trip acts on a leg (R318, R320). -/
def State.tripLeg (s : State) (t : Nat) (x : LegId) : State :=
  let st := s.legState x
  let s := if s.tripLatch t then s.fsetBit F.BRG_TSTAT_LATCHED x.val else s
  if s.legIdle x ∨ st = legFault then s
  else if st = legOff then s.setLegState x (s.legWaiting x)
  else
    let s := if (s.brg.legs[x]).tripCut || st == legLatched then s else s.finc F.BRG_CNT_TRIPCUT
    let s := ((s.cutLeg x).fsetBit F.BRG_TSTAT_CUT x.val).modLeg x fun l => { l with tripCut := true }
    s.setLegState x (if s.legLatchedBit x then legLatched else legTripped)

/-- Active level of a trip input, true for high, and how long it must last, in ticks: POLn and FILTn x 8 ns (R317). -/
def State.tripHigh (s : State) (t : Nat) : Bool := (s.word A.BRG_TRIPCFG).getLsbD (8 * t + 7)
def State.tripFilter (s : State) (t : Nat) : Nat := (s.word A.BRG_TRIPCFG).toNat / 2 ^ (8 * t) % 64 * 64

/-- TRIP (R317, R318, R320): `input` is the level at X10 and for how many ticks it has lasted without a break; none is an input
whose filter has passed. -/
def execTrip (t : TripId) (s : State) (input : Option (Bool × Nat) := none) : Res :=
  let s := s.fresh
  let on := input.all fun (i : Bool × Nat) => i.1 == s.tripHigh t && decide (s.tripFilter t ≤ i.2)
  if s.powered domAnlg && !s.tripActive t && on then
    let s := ((s.fsetBit F.BRG_TSTAT_ACTIVE t.val).fsetBit F.BRG_TSTAT_HIT t.val).raise srcBrgTrip
    .next (s.each (List.finRange 4) fun x s => if s.tripActs t x then s.tripLeg t x else s)
  else .next s

/-- TRIP_INACTIVE (R317, R319): a break of the active level ends it. -/
def execTripInactive (t : TripId) (s : State) (input : Option Bool := none) : Res :=
  let s := s.fresh
  .next (if input.all (· != s.tripHigh t) then s.fclrBit F.BRG_TSTAT_ACTIVE t.val else s)

/-- Ones written to LATCHED bits (R321); a cleared leg stays off to the next period start. -/
def State.clearLatched (s : State) (legs : BitVec 4) : State :=
  s.each (List.finRange 4) fun x s =>
    if legs.getLsbD x.val && s.legLatchedBit x then
      if s.tripHolds x true then s.fset F.BRG_STAT_CLRREF 1
      else
        let s := s.fclrBit F.BRG_TSTAT_LATCHED x.val
        if s.legState x = legLatched then s.setLegState x (if s.brg.running then legTripped else s.legWaiting x) else s
    else s

/-- Settings of a leg's V+ and of the magnitude of its V- in mV (R323). -/
def State.posSet (s : State) (x : LegId) : Nat := 15000 + 500 * s.fget (F.GATE_SUP_VPOS x)
def State.negSet (s : State) (x : LegId) : Nat := 2000 + 500 * s.fget (F.GATE_SUP_VNEG x)

/-- Lock-out and release values of a supply in mV (R325). -/
def State.lockoutMv (s : State) (x : LegId) (negative : Bool) : Nat := if negative then s.negSet x - 1000 else s.posSet x - 2500
def State.releaseMv (s : State) (x : LegId) (negative : Bool) : Nat := if negative then s.negSet x - 500 else s.posSet x - 1500

/-- GATE_SUPPLY_LOCKOUT (R325, R326): `seen` is the supply's magnitude in mV and for how many ticks it has stood there or lower;
none is a lock-out whose filter of 1 µs has passed. -/
def execGateSupplyLockout (x : LegId) (high negative : Bool) (s : State) (seen : Option (Nat × Nat) := none) : Res :=
  let s := s.fresh
  if s.powered domGate && seen.all (fun (v : Nat × Nat) => decide (v.1 < s.lockoutMv x negative ∧ us ≤ v.2)) then
    let f := if negative then F.GATE_MON_NEGOK else F.GATE_MON_POSOK
    let s := s.fclrBit f (2 * x.val + high.toNat)
    let st := s.legState x
    if st = legOff then .next s
    else if st = legCharge then
      .next (s.modLeg x fun l =>
        let kept := l.edges.filter fun e => !(e.2.1 == high && e.2.2 && decide (s.ticks < e.1))
        { l with edges := kept, lowPlanned := l.lowPlanned && kept.length == l.edges.length })
    else .next (s.lockoutFault x high negative)
  else .next s

/-- GATE_SUPPLY_RELEASE (R325): `seen` as for the lock-out, of a supply that stands there or higher. -/
def execGateSupplyRelease (x : LegId) (high negative : Bool) (s : State) (seen : Option (Nat × Nat) := none) : Res :=
  let s := s.fresh
  .next (if s.powered domGate && seen.all (fun (v : Nat × Nat) => decide (s.releaseMv x negative ≤ v.1 ∧ us ≤ v.2)) then
    s.fsetBit (if negative then F.GATE_MON_NEGOK else F.GATE_MON_POSOK) (2 * x.val + high.toNat) else s)

/-- Least distance of two soft turn-offs: 200 ns (R332). -/
def softGap : Nat := 1600

/-- A leg's soft turn-off begins (R331). -/
def State.softStart (s : State) (x : LegId) : State :=
  let s := (s.cutLeg x).modLeg x fun l => { l with softWait := false, softOff := true, softAt := s.ticks }
  { s with brg := { s.brg with lastSoft := some s.ticks } }

/-- A leg whose switches turn off, or wait to turn off, by soft turn-off. -/
def State.inSoft (s : State) (x : LegId) : Bool := (s.brg.legs[x]).softWait || (s.brg.legs[x]).softOff

/-- A short-circuit fault of a leg (R331): its soft turn-off waits for the end of the I_MOD cycle of the detection, in which another
leg may come before it, and for its distance from the last one (R332). -/
def State.shortFault (s : State) (x : LegId) (cause count : Fld) (src : Nat) : State :=
  let s := s.gateFault x cause count src
  if s.inSoft x then s else (s.dropEdges x).modLeg x fun l => { l with softWait := true, softAt := s.ticks }

/-- In soft turn-off, waiting for it, or in FAULT. -/
def State.shortHeld (s : State) (x : LegId) : Bool := s.inSoft x || s.flag (F.GATE_STAT_FAULT x)

/-- When a switch last turned on; none while it is off. -/
def Leg.onSince (l : Leg) (high : Bool) (t : Nat) : Option Nat :=
  match (l.edges.filter (fun e => e.2.1 == high && decide (e.1 ≤ t))).getLast? with
  | some (at_, _, true) => some at_
  | _ => none

/-- Is a switch on and past its blanking time, GATE.PROTx.BLANK in 100 ns (R329)? -/
def State.unblanked (s : State) (x : LegId) (high : Bool) : Bool :=
  ((s.brg.legs[x]).onSince high s.ticks).any fun t => decide (t + s.fget (F.GATE_PROT_BLANK x) * 800 ≤ s.ticks)

/-- Thresholds of the desaturation and the over-current comparator in mV ("GATE register block", chapter 10). -/
def State.desatMv (s : State) (x : LegId) : Nat := 5000 + 500 * s.fget (F.GATE_PROT_DSTH x)
def State.ocMv (s : State) (x : LegId) : Nat := 10 * s.fget (F.GATE_PROT_OCTH x)

/-- DESATURATION_FAULT (R329): of a switch that is on and past its blanking, in a leg not yet in soft turn-off or FAULT. `mv` is the
sense voltage; none is one above DSTH. -/
def execDesaturationFault (x : LegId) (high : Bool) (s : State) (mv : Option Nat := none) : Res :=
  let s := s.fresh
  if s.powered domGate && !s.shortHeld x && s.unblanked x high && mv.all (fun v => decide (s.desatMv x < v)) then
    .next (s.shortFault x (if high then F.GATE_STAT_DESAT_H x else F.GATE_STAT_DESAT_L x) F.GATE_FLTCNT_DESAT srcGateDesat)
  else .next s

/-- Time for which the sense input must stay above OCTH: 150 ns (R330). -/
def ocFilter : Nat := 1200

/-- OVERCURRENT_FAULT (R330): `seen` is the sense voltage in mV and for how many ticks it has stood above OCTH; none is a fault
whose 150 ns have passed. The leg's FAULT does not hold it back. -/
def execOvercurrentFault (x : LegId) (s : State) (seen : Option (Nat × Nat) := none) : Res :=
  let s := s.fresh
  if s.powered domGate && seen.all (fun (v : Nat × Nat) => decide (s.ocMv x < v.1)) then
    let s := s.fsetBit F.GATE_MON_OCACT x.val
    .next (if seen.all (fun (v : Nat × Nat) => decide (ocFilter ≤ v.2)) then s.shortFault x (F.GATE_STAT_OC x) F.GATE_FLTCNT_OC srcGateOc else s)
  else .next s

/-- OVERCURRENT_END (R330, R334). -/
def execOvercurrentEnd (x : LegId) (s : State) (mv : Option Nat := none) : Res :=
  let s := s.fresh
  .next (if mv.all (fun v => decide (v ≤ s.ocMv x)) then s.fclrBit F.GATE_MON_OCACT x.val else s)

/-- The cycle of I_MOD, of 4 ns, that holds an instant. -/
def modCycle (t : Nat) : Nat := t / 32

/-- No other leg waits ahead of this one: by the I_MOD cycle of its detection, then in the order U, V, W, N (R332). -/
def State.softFirst (s : State) (x : LegId) : Bool :=
  let mine := modCycle (s.brg.legs[x]).softAt
  (List.finRange 4).all fun y =>
    let other := modCycle (s.brg.legs[y]).softAt
    y == x || !(s.brg.legs[y]).softWait || decide (mine < other ∨ (mine = other ∧ x < y))

/-- The instant from which a waiting leg may begin: the end of the I_MOD cycle of its detection, and 200 ns after the last one. -/
def State.softFrom (s : State) (x : LegId) : Nat :=
  max ((modCycle (s.brg.legs[x]).softAt + 1) * 32) (match s.brg.lastSoft with | some t => t + softGap | none => 0)

/-- SOFT_TURNOFF_START (R332). -/
def execSoftTurnoffStart (x : LegId) (s : State) : Res :=
  let s := s.fresh
  if (s.brg.legs[x]).softWait && s.softFirst x then .next ((s.advanceTo (s.softFrom x)).softStart x) else .next s

/-- As time passes, the leg that comes first begins its soft turn-off (R332). -/
def State.softNext (s : State) : State :=
  match (List.finRange 4).find? fun x => (s.brg.legs[x]).softWait && s.softFirst x && decide (s.softFrom x ≤ s.ticks) with
  | some x => s.softStart x
  | none => s

/-- SOFT_TURNOFF_END (R331): after 2 µs the gates are held at V- with the programmed sink. -/
def execSoftTurnoffEnd (x : LegId) (s : State) : Res :=
  let s := s.fresh
  if (s.brg.legs[x]).softOff then
    .next ((s.advanceTo ((s.brg.legs[x]).softAt + 2 * us)).modLeg x fun l => { l with softOff := false })
  else .next s

/-- A 1 written to GATE.STATx.FAULT (R334). -/
def State.clearGateFault (s : State) (x : LegId) : State :=
  if !s.flag (F.GATE_STAT_FAULT x) then s
  else if !s.posOk x false || !s.negOk x true || !s.negOk x false || (s.fget F.GATE_MON_OCACT).testBit x.val then
    s.fset (F.GATE_STAT_CLRREF x) 1
  else
    let s := (s.fset (F.GATE_STAT_FAULT x) 0).startCharge x
    if s.brg.running then (if !s.legIdle x && s.legLatchedBit x then s.setLegState x legLatched else s) else s.setLegState x (s.legWaiting x)

/-- A channel holds its gate off (R335). -/
def State.channelOff (s : State) (x : LegId) (high : Bool) : State :=
  let on := (s.brg.legs[x]).isOn high s.ticks
  let s := s.modLeg x fun l =>
    { l with
      edges := (l.edges.filter fun e => !(e.2.1 == high && decide (s.ticks < e.1))) ++ (if on then [(s.ticks, high, false)] else [])
      lowPlanned := l.lowPlanned && high }
  if on then s.emit (.gate x high false s.ticks) else s

/-- GATE_COMMAND_LOSS (R335): with no `primary`, the channel's command is absent for 200 ns; else its primary-side supply is lost,
or is there again. The channel holds its gate off, an absent command until BRG places edges again, a lost supply until it returns. -/
def execGateCommandLoss (x : LegId) (high : Bool) (s : State) (primary : Option Bool := none) : Res :=
  let s := s.fresh
  let bit := BitVec.twoPow 8 (2 * x.val + high.toNat)
  match primary with
  | none => .next ({ s with brg := { s.brg with noCmd := s.brg.noCmd ||| bit } }.channelOff x high)
  | some true => .next ({ s with brg := { s.brg with primLost := s.brg.primLost ||| bit } }.channelOff x high)
  | some false => .next { s with brg := { s.brg with primLost := s.brg.primLost &&& ~~~bit } }

/-- Every channel's command or supply is gone (R335). -/
def State.gatesLost (s : State) : State :=
  let s := s.each (List.finRange 4) fun x s => s.cutLeg x
  { s with brg := { s.brg with noCmd := 0xFF } }

/-- A read of BRG.PSTARTL latches the high bits of the last period start. -/
def State.latchPstart (s : State) : State := s.fset F.BRG_PSTARTH_TIME (s.brg.lastStart.toNat / 2 ^ 32)

end Sys2Proof.Machine
end

