-- ==== Sys2Proof/Machine/Capt.lean ====
section
/-!
DEFINITION. The capture units (R359 to R368): records from the conversion grid or from a cell's capture stream, the
trigger and the states of R362; and the conversion slot, at which groups, detector and units take their samples.
-/

namespace Sys2Proof.Machine

/-- Unit states of CAPT.STATn.STATE. -/
def captIdle : Nat := 0
def captArmed : Nat := 1
def captTriggered : Nat := 2
def captDone : Nat := 3
def captAborted : Nat := 4
def captLost : Nat := 5

def State.captState (s : State) (u : Nat) : Nat := s.fget (F.CAPT_STAT_STATE u)

/-- ARMED or TRIGGERED. -/
def State.captBusy (s : State) (u : Nat) : Bool := s.captState u == captArmed || s.captState u == captTriggered

/-- The capture axis follows the combined state of the units. -/
def State.captAxis (s : State) : State :=
  s.fset F.SUP_MODE_CAPT
    (if (List.range 4).any (fun u => s.captState u == captTriggered) then 2
     else if (List.range 4).any (fun u => s.captState u == captArmed) then 1 else 0)

def State.setCapt (s : State) (u v : Nat) : State := (s.fset (F.CAPT_STAT_STATE u) v).captAxis

/-- Channels of a unit's records. -/
def State.captChans (s : State) (u : Nat) : List Nat := maskList (s.fget (F.CAPT_MASK_MASK u))

/-- Records that a unit's window holds (R360). -/
def State.captSize (s : State) (u : Nat) : Nat := s.fget (F.CAPT_WIN_SIZE u) * 2 ^ 20 / (4 * (s.captChans u).length)

/-- Byte offset of record r (R360). -/
def State.captOffset (s : State) (u r : Nat) : Nat := r % s.captSize u * (4 * (s.captChans u).length)

/-- The results of DONE as they read outside DONE: 0. -/
def State.clearResults (s : State) (u : Nat) : State :=
  ((((s.setWord (A.CAPT_TTIMEL u) 0).setWord (A.CAPT_TTIMEH u) 0).setWord (A.CAPT_FIRST u) 0).setWord (A.CAPT_TREC u) 0).setWord (A.CAPT_NPRE u) 0

/-- Entering DONE (R363). -/
def State.captFinish (s : State) (u : CaptId) (rt : Nat) : State :=
  let npre := min rt (s.captSize u - s.fget (F.CAPT_POST_COUNT u))
  let s := (s.fset (F.CAPT_NPRE_COUNT u) npre).fset (F.CAPT_TREC_OFFS u) (s.captOffset u rt)
  let s := s.fset (F.CAPT_FIRST_OFFS u) (s.captOffset u (rt - npre))
  let s := s.setTime48 (F.CAPT_TTIMEL_TIME u) (F.CAPT_TTIMEH_TIME u) (BitVec.ofNat 48 (s.capt[u]).trigAt)
  s.setCapt u captDone

/-- Does a value of the trigger channel fire an ARMED unit, and does it ready it (R361)? -/
def State.captEdge (s : State) (u : CaptId) (v : Int) : Bool × Bool :=
  let level := s.fgetI (F.CAPT_TLVL_LEVEL u)
  let hys : Int := s.fget (F.CAPT_THYS_HYS u)
  match s.fget (F.CAPT_CTRL_EDGE u) with
  | 0 => ((s.capt[u]).ready && decide (level ≤ v), decide (v < level - hys))
  | 1 => ((s.capt[u]).ready && decide (v ≤ level), decide (level + hys < v))
  | _ => (false, false)

/-- The trigger of an ARMED unit, and the FORCE that has taken it to TRIGGERED, on one record, its sampling instant `t` (R361, R362). -/
def State.captTrigger (s : State) (u : CaptId) (t : Int) (code : Option (BitVec 16)) : State :=
  let c := s.capt[u]
  let edge := match code with
    | some v => if v = noCode then (false, false) else s.captEdge u v.toInt
    | none => (false, false)
  let byCompare := s.fget (F.CAPT_CTRL_EDGE u) == 2 && c.cmpAt.any (fun m => decide ((m : Int) ≤ t))
  if c.force || (s.captState u == captArmed && (byCompare || edge.1)) then
    (s.modCapt u fun c =>
      { c with force := false, trig := some c.recNo, trigAt := (BitVec.ofInt 48 (t + s.rtAdj)).toNat }).setCapt u captTriggered
  else if edge.2 then s.modCapt u fun c => { c with ready := true } else s

/-- One sample word of a capture unit goes to memory; DROP where the crossing is full, or the DRAM does not take it (R37, R364). -/
def State.captStore (s : State) (u : CaptId) (full : Bool) (a w : Nat) : State :=
  let (s, ok) := if full then (s.dropWord, false) else s.memStore 0x20 a (bytesLE 4 w)
  if ok then s else s.fset (F.CAPT_STAT_DROP u) 1

/-- One record: its words go into the window (R360, R364), the trigger is evaluated, and the unit ends DONE when its
post-trigger count is full. `code` gives each channel's code, `seq` the SEQ of its words, `full` the channels whose word finds
the crossing to I_STRM full. -/
def State.captRecord (s : State) (u : CaptId) (t : Int) (seq : Nat) (code : Nat → BitVec 16) (full : Word) : State :=
  let chans := s.captChans u
  let base := s.fget (F.CAPT_WIN_BASE u) * 2 ^ 20 + s.captOffset u (s.capt[u]).recNo
  let s := s.each (List.range chans.length) fun c s =>
    s.captStore u (full.getLsbD (chans.getD c 0)) (base + 4 * c) (sampleWord (code (chans.getD c 0)) (chans.getD c 0) seq)
  let tch := s.fget (F.CAPT_CTRL_TCH u)
  let s := if s.captState u = captArmed ∨ (s.capt[u]).force then s.captTrigger u t (if chans.contains tch then some (code tch) else none) else s
  let s := s.modCapt u fun c => { c with recNo := c.recNo + 1 }
  match (s.capt[u]).trig with
  | some rt => if s.fget (F.CAPT_POST_COUNT u) ≤ (s.capt[u]).recNo - rt then s.captFinish u rt else s
  | none => s

/-- A unit of KIND 0 at one slot (R359). -/
def State.captSlot (s : State) (u : CaptId) (t : Nat) (code : Nat → BitVec 16) (full : Word) : State :=
  if s.powered domDram && s.captBusy u && !s.flag (F.CAPT_CTRL_KIND u) then
    let due := (s.capt[u]).slots % 2 ^ s.fget (F.CAPT_CTRL_DEC u) == 0
    let s := s.modCapt u fun c => { c with slots := c.slots + 1 }
    if due then s.captRecord u t s.adc.period code full else s
  else s

/-- CONVERSION_SLOT (R337 to R345, R357, R359): the next slot of the grid. A channel's input is its differential voltage in nV,
where `nv` gives one (R340), otherwise a raw conversion in codes. `full` and `strmFull` are the channels whose words find the
crossing to I_CORE or to I_STRM full (R37), `bad` those whose words fail their tag at the detector and at PLAN. -/
def execConversionSlot (codes : List Int) (s : State) (full : Word := 0) (nv : List Int := []) (bad strmFull : Word := 0) : Res :=
  let s := s.fresh
  if s.powered domAnlg && s.powered domPlan && !s.oscStopped && decide (s.adc.slot < s.slotCount) then
    let slot := s.adc.slot
    let t := s.slotInstant slot
    let s := s.advanceTo t
    let (all, s) := s.sampleAll ((List.range 32).map fun c => ((nv[c]?).map (s.rawCode (c / 4))).getD (codes.getD c 0))
    let code : Nat → BitVec 16 := fun c => all.getD c noCode
    let s := ((s.busSlot slot code bad).groupsAt slot code full).zxSlot t code bad
    let s := s.each (List.finRange 4) fun u s => s.captSlot u t code strmFull
    .next { s with adc := { s.adc with slot := slot + 1 } }
  else .next s

/-- ARM (R362, R45, R47). A read-out of the unit that runs ends HALTED (R503). -/
def State.captArm (s : State) (req : Requester) (u : CaptId) : State :=
  if s.fget F.SUP_MODE_THERM = 2 then s.refuse req 0x20 3 1 refThermal
  else if !s.powered domDram then s.refuse req 0x20 3 1 refDomain
  else if s.captBusy u || decide (s.fget (F.CAPT_MASK_MASK u) = 0) || decide (s.captSize u < s.fget (F.CAPT_POST_COUNT u)) then
    s.fset (F.CAPT_STAT_CFGERR u) 1
  else
    let s := s.modCapt u fun _ => Capt.reset
    let s := (s.clearResults u).setCapt u captArmed
    if s.strm.unit = u then s.haltReadout else s

/-- FORCE (R362): an ARMED unit is TRIGGERED, and its next record is the trigger record. -/
def State.captForce (s : State) (u : CaptId) : State :=
  if s.captState u = captArmed then (s.modCapt u fun c => { c with force := true }).setCapt u captTriggered else s

/-- ABORT (R362). -/
def State.captAbort (s : State) (u : CaptId) : State :=
  if s.captBusy u then (s.clearResults u).setCapt u captAborted else s

/-- A loss of the DRAM domain (R362). -/
def State.captLoss (s : State) : State :=
  s.each (List.finRange 4) fun u s => if s.captBusy u then (s.clearResults u).setCapt u captLost else s

/-- A write of CAPT.CMDn. -/
def State.captCmd (s : State) (req : Requester) (u : CaptId) (cmd : Nat) : State :=
  match cmd with
  | 1 => s.captArm req u
  | 2 => s.captForce u
  | 3 => s.captAbort u
  | _ => s

/-- Decimation exponent of a cell's capture stream (R365): CCTRL is word 0x0200. -/
def Cell.capDiv (c : Cell) : Nat := (sparseGet (0 : Word) c.regs 0x0200).toNat / 2 ^ 16 % 16

/-- Records of a stream: the instants count epochs from the frame's first sample, 2^DIV apart (R365, R367). -/
def State.captCells (s : State) (u : CaptId) (first : Int) (step : Nat) (recs : List (Nat → BitVec 16)) : State :=
  s.each ((List.range recs.length).zip recs) fun e s =>
    if s.captBusy u then s.captRecord u (first + step * e.1) (s.capt[u]).recNo e.2 0 else s

/-- A frame of a cell's stream at one unit (R367). -/
def State.captFrame (s : State) (u : CaptId) (qmask : BitVec 8) (epoch : BitVec 35) (fseq : BitVec 16)
    (codes : List (BitVec 16)) (div : Nat) : State :=
  if s.fget (F.CAPT_MASK_MASK u) ≠ qmask.toNat then s.fset (F.CAPT_STAT_CFGERR u) 1
  else
    let chans := s.captChans u
    let per := 24 / chans.length
    let step := 2 ^ div * epochTicks
    let first := s.instantOf (BitVec.ofNat 48 (epoch.toNat * epochTicks))
    let gap : Int := ((s.capt[u]).fseq.map fun f => (fseq - f).toInt).getD 1
    if gap ≤ 0 then s
    else
      let missing := (gap.toNat - 1) * per
      let s := s.modCapt u fun c => { c with fseq := some fseq }
      let s := s.captCells u (first - step * missing) step (List.replicate missing fun _ => noCode)
      s.captCells u first step ((List.range per).map fun j => fun ch => codes.getD (j * chans.length + chans.idxOf ch) noCode)

/-- A CAPD frame (R366, R367): every busy unit of KIND 1 that names the cell takes it. -/
def State.capdIn (s : State) (x : RingId) (k : CellId) (f : Frame) : State :=
  let codes := (List.range 6).flatMap fun b => halvesOf (f.at_ (b + 1))
  s.each (List.finRange 4) fun u s =>
    if s.captBusy u && s.flag (F.CAPT_CTRL_KIND u) && s.fget (F.CAPT_CTRL_RING u) == x.val &&
        s.fget (F.CAPT_CTRL_POS u) == k.val + 1 then
      s.captFrame u (BitVec.ofNat 8 (bitsOf (f.at_ 7) 0 8)) (BitVec.ofNat 35 (bitsOf (f.at_ 0) 16 35))
        (BitVec.ofNat 16 (bitsOf (f.at_ 7) 16 16)) codes (s.cell x k).capDiv
    else s

/-- CAPD_RECEIVED (R235, R367). -/
def execCapdHeard (p : LaneId) (blocks : List LineBlock) (s : State) (full : Bool := false) : Res :=
  let s := s.fresh
  if s.powered domDram then
    .next (s.framesOf p typCapd blocks full fun x f s =>
      match f.sender x with
      | some k => s.capdIn x k f
      | none => s)
  else .next s

end Sys2Proof.Machine
end

