-- ==== Sys2Proof/Machine/CoreInt.lean ====
section
/-!
DEFINITION. Integer operations, immediate operations, branches and jumps (R97, R101 to R103).
-/

namespace Sys2Proof.Machine

/-- An integer result of class A: `pred` is the predicted residue of the exact result, whose low 32 bits are written. -/
def State.intA (s : State) (n : CoreId) (rd : Sreg) (cyc : Nat) (exact : Int) (pred : Nat) (v : Word) : Run :=
  s.checked n false (residue exact == pred % 7) fun s => .ok ((s.writeS n rd v).retire n 4 cyc)

/-- A scalar result of class D: two copies agree unless an upset is pending (R100). -/
def State.intD (s : State) (n : CoreId) (rd : Sreg) (cyc : Nat) (v : Word) : Run :=
  s.checked n false true fun s => .ok ((s.writeS n rd v).retire n 4 cyc)

/-- Two scalar operands, checked as they are read. -/
def State.withSS (s : State) (n : CoreId) (ra rb : Sreg) (k : Word → Nat → Word → Nat → Run) : Run :=
  s.withS n ra fun a ar => s.withS n rb fun b br => k a ar b br

/-- Integer 1 or 0. -/
def boolWord (b : Bool) : Word := if b then 1 else 0

/-- Residue of a register read as an unsigned number: 2^32 mod 7 is 4. -/
def unsignedRes (a : Word) (r : Nat) : Nat := if a.msb then r + 4 else r

/-- Result held to the signed 32-bit range (R101). -/
def satWord (v : Int) : Word := BitVec.ofInt 32 (clampInt (-2147483648) 2147483647 v)

/-- A division, class A: the check verifies q × b + r = a modulo 7; a divisor of 0 traps DIVZERO (R102). -/
def State.divide (s : State) (n : CoreId) (rd : Sreg) (zero : Bool) (q r : Int) (bRes aRes : Nat) (v : Word) : Run :=
  if zero then s.trapWith causeDivzero none
  else
    s.checked n false ((residue q * bRes + residue r) % 7 == aRes % 7) fun s =>
      .ok ((s.writeS n rd v).retire n 4 34)

/-- ADD (OP 0x01): the sum, which wraps (R101). -/
def execAdd (n : CoreId) (rd ra rb : Sreg) (s : State) : Res :=
  s.coreRun n 4 1 fun s => s.withSS n ra rb fun a ar b br =>
    s.intA n rd 1 (a.toInt + b.toInt) (ar + br) (a + b)

/-- SUB (OP 0x01): the difference, which wraps (R101). -/
def execSub (n : CoreId) (rd ra rb : Sreg) (s : State) : Res :=
  s.coreRun n 4 1 fun s => s.withSS n ra rb fun a ar b br =>
    s.intA n rd 1 (a.toInt - b.toInt) (ar + (7 - br % 7)) (a - b)

/-- AND (OP 0x01): bitwise AND. -/
def execAnd (n : CoreId) (rd ra rb : Sreg) (s : State) : Res :=
  s.coreRun n 4 1 fun s => s.withSS n ra rb fun a _ b _ =>
    s.intD n rd 1 (a &&& b)

/-- OR (OP 0x01): bitwise OR. -/
def execOr (n : CoreId) (rd ra rb : Sreg) (s : State) : Res :=
  s.coreRun n 4 1 fun s => s.withSS n ra rb fun a _ b _ =>
    s.intD n rd 1 (a ||| b)

/-- XOR (OP 0x01): bitwise exclusive OR. -/
def execXor (n : CoreId) (rd ra rb : Sreg) (s : State) : Res :=
  s.coreRun n 4 1 fun s => s.withSS n ra rb fun a _ b _ =>
    s.intD n rd 1 (a ^^^ b)

/-- SLL (OP 0x01): shift left by rb[4:0]. -/
def execSll (n : CoreId) (rd ra rb : Sreg) (s : State) : Res :=
  s.coreRun n 4 1 fun s => s.withSS n ra rb fun a _ b _ =>
    s.intD n rd 1 (a <<< (b.toNat % 32))

/-- SRL (OP 0x01): logical right shift by rb[4:0]. -/
def execSrl (n : CoreId) (rd ra rb : Sreg) (s : State) : Res :=
  s.coreRun n 4 1 fun s => s.withSS n ra rb fun a _ b _ =>
    s.intD n rd 1 (a >>> (b.toNat % 32))

/-- SRA (OP 0x01): arithmetic right shift by rb[4:0]. -/
def execSra (n : CoreId) (rd ra rb : Sreg) (s : State) : Res :=
  s.coreRun n 4 1 fun s => s.withSS n ra rb fun a _ b _ =>
    s.intD n rd 1 (a.sshiftRight (b.toNat % 32))

/-- SLT (OP 0x01): 1 when ra is below rb, both signed. -/
def execSlt (n : CoreId) (rd ra rb : Sreg) (s : State) : Res :=
  s.coreRun n 4 1 fun s => s.withSS n ra rb fun a _ b _ =>
    s.intD n rd 1 (boolWord (a.slt b))

/-- SLTU (OP 0x01): 1 when ra is below rb, both unsigned. -/
def execSltu (n : CoreId) (rd ra rb : Sreg) (s : State) : Res :=
  s.coreRun n 4 1 fun s => s.withSS n ra rb fun a _ b _ =>
    s.intD n rd 1 (boolWord (a.ult b))

/-- MUL (OP 0x01): low 32 bits of the product. -/
def execMul (n : CoreId) (rd ra rb : Sreg) (s : State) : Res :=
  s.coreRun n 4 3 fun s => s.withSS n ra rb fun a ar b br =>
    s.intA n rd 3 (a.toInt * b.toInt) (ar * br) (a * b)

/-- MULH (OP 0x01): high 32 bits of the signed 64-bit product. -/
def execMulh (n : CoreId) (rd ra rb : Sreg) (s : State) : Res :=
  s.coreRun n 4 3 fun s => s.withSS n ra rb fun a ar b br =>
    s.intA n rd 3 (a.toInt * b.toInt) (ar * br) (BitVec.ofInt 32 ((a.toInt * b.toInt) / 4294967296))

/-- DIV (OP 0x01): signed quotient, toward zero (R102). -/
def execDiv (n : CoreId) (rd ra rb : Sreg) (s : State) : Res :=
  s.coreRun n 4 34 fun s => s.withSS n ra rb fun a ar b br =>
    s.divide n rd (b == 0) (a.toInt.tdiv b.toInt) (a.toInt.tmod b.toInt) br ar (BitVec.ofInt 32 (a.toInt.tdiv b.toInt))

/-- DIVU (OP 0x01): unsigned quotient (R102). -/
def execDivu (n : CoreId) (rd ra rb : Sreg) (s : State) : Res :=
  s.coreRun n 4 34 fun s => s.withSS n ra rb fun a ar b br =>
    s.divide n rd (b == 0) (a.toNat / b.toNat : Nat) (a.toNat % b.toNat : Nat) (unsignedRes b br) (unsignedRes a ar) (a.udiv b)

/-- REM (OP 0x01): signed remainder, with the sign of ra (R102). -/
def execRem (n : CoreId) (rd ra rb : Sreg) (s : State) : Res :=
  s.coreRun n 4 34 fun s => s.withSS n ra rb fun a ar b br =>
    s.divide n rd (b == 0) (a.toInt.tdiv b.toInt) (a.toInt.tmod b.toInt) br ar (BitVec.ofInt 32 (a.toInt.tmod b.toInt))

/-- ADDS (OP 0x01): sum held to the signed 32-bit range (R101). -/
def execAdds (n : CoreId) (rd ra rb : Sreg) (s : State) : Res :=
  s.coreRun n 4 1 fun s => s.withSS n ra rb fun a ar b br =>
    s.intA n rd 1 (a.toInt + b.toInt) (ar + br) (satWord (a.toInt + b.toInt))

/-- SUBS (OP 0x01): difference held to the signed 32-bit range (R101). -/
def execSubs (n : CoreId) (rd ra rb : Sreg) (s : State) : Res :=
  s.coreRun n 4 1 fun s => s.withSS n ra rb fun a ar b br =>
    s.intA n rd 1 (a.toInt - b.toInt) (ar + (7 - br % 7)) (satWord (a.toInt - b.toInt))

/-- ADDI (OP 0x04): sum with the sign-extended immediate (R101). -/
def execAddi (n : CoreId) (rd ra : Sreg) (imm : BitVec 16) (s : State) : Res :=
  s.coreRun n 4 1 fun s => s.withS n ra fun a ar =>
    s.intA n rd 1 (a.toInt + imm.toInt) (ar + residue imm.toInt) (a + imm.signExtend 32)

/-- ANDI (OP 0x05): AND with the zero-extended immediate. -/
def execAndi (n : CoreId) (rd ra : Sreg) (imm : BitVec 16) (s : State) : Res :=
  s.coreRun n 4 1 fun s => s.withS n ra fun a _ => s.intD n rd 1 (a &&& imm.setWidth 32)

/-- ORI (OP 0x06): OR with the zero-extended immediate. -/
def execOri (n : CoreId) (rd ra : Sreg) (imm : BitVec 16) (s : State) : Res :=
  s.coreRun n 4 1 fun s => s.withS n ra fun a _ => s.intD n rd 1 (a ||| imm.setWidth 32)

/-- SLTI (OP 0x07): 1 when ra is below the sign-extended immediate, signed. -/
def execSlti (n : CoreId) (rd ra : Sreg) (imm : BitVec 16) (s : State) : Res :=
  s.coreRun n 4 1 fun s => s.withS n ra fun a _ => s.intD n rd 1 (boolWord (a.slt (imm.signExtend 32)))

/-- SLLI (OP 0x08): shift left by imm[4:0]; imm[15:5] is 0, or the word is undefined (R97). -/
def execSlli (n : CoreId) (rd ra : Sreg) (imm : BitVec 16) (s : State) : Res :=
  s.coreRun n 4 1 fun s => 
    if imm.toNat < 32 then s.withS n ra fun a _ => s.intD n rd 1 (a <<< imm.toNat)
    else s.trapWith causeIllegal none

/-- SRLI (OP 0x09): logical right shift by imm[4:0]; imm[15:5] is 0, or the word is undefined (R97). -/
def execSrli (n : CoreId) (rd ra : Sreg) (imm : BitVec 16) (s : State) : Res :=
  s.coreRun n 4 1 fun s => 
    if imm.toNat < 32 then s.withS n ra fun a _ => s.intD n rd 1 (a >>> imm.toNat)
    else s.trapWith causeIllegal none

/-- SRAI (OP 0x0A): arithmetic right shift by imm[4:0]; imm[15:5] is 0, or the word is undefined (R97). -/
def execSrai (n : CoreId) (rd ra : Sreg) (imm : BitVec 16) (s : State) : Res :=
  s.coreRun n 4 1 fun s => 
    if imm.toNat < 32 then s.withS n ra fun a _ => s.intD n rd 1 (a.sshiftRight imm.toNat)
    else s.trapWith causeIllegal none

/-- LUI (OP 0x0B): the immediate in the high half. -/
def execLui (n : CoreId) (rd : Sreg) (imm : BitVec 16) (s : State) : Res :=
  s.coreRun n 4 1 fun s => s.intD n rd 1 (imm.setWidth 32 <<< 16)

/-- LI (OP 0x0C): the extension word at the next IMEM word (R98); class L. -/
def execLi (n : CoreId) (rd : Sreg) (s : State) : Res :=
  s.coreRun n 8 2 fun s =>
    let a := ((s.cores[n]).pc + 4).toNat
    match s.fetchCheck n a with
    | .ok s => .ok ((s.writeS n rd ((s.cores[n]).iword a)).retire n 8 2)
    | e => e

/-- A conditional branch (R103): taken in 2 cycles, not taken in 1. -/
def State.branch (s : State) (n : CoreId) (ra rd : Sreg) (imm : BitVec 16) (cond : Word → Word → Bool) : Run :=
  s.withSS n ra rd fun a _ b _ =>
    if cond a b then s.jumpTo n (s.relative n imm) 2 id else .ok (s.retire n 4 1)

/-- BEQ (OP 0x10): branches when the registers are equal. -/
def execBeq (n : CoreId) (ra rd : Sreg) (imm : BitVec 16) (s : State) : Res :=
  s.coreRun n 4 1 fun s => s.branch n ra rd imm (fun a b => a == b)

/-- BNE (OP 0x11): branches when they differ. -/
def execBne (n : CoreId) (ra rd : Sreg) (imm : BitVec 16) (s : State) : Res :=
  s.coreRun n 4 1 fun s => s.branch n ra rd imm (fun a b => a != b)

/-- BLT (OP 0x12): branches when ra is below rd, signed. -/
def execBlt (n : CoreId) (ra rd : Sreg) (imm : BitVec 16) (s : State) : Res :=
  s.coreRun n 4 1 fun s => s.branch n ra rd imm (fun a b => a.slt b)

/-- BGE (OP 0x13): branches when ra is at least rd, signed. -/
def execBge (n : CoreId) (ra rd : Sreg) (imm : BitVec 16) (s : State) : Res :=
  s.coreRun n 4 1 fun s => s.branch n ra rd imm (fun a b => !a.slt b)

/-- BLTU (OP 0x14): branches when ra is below rd, unsigned. -/
def execBltu (n : CoreId) (ra rd : Sreg) (imm : BitVec 16) (s : State) : Res :=
  s.coreRun n 4 1 fun s => s.branch n ra rd imm (fun a b => a.ult b)

/-- BGEU (OP 0x15): branches when ra is at least rd, unsigned. -/
def execBgeu (n : CoreId) (ra rd : Sreg) (imm : BitVec 16) (s : State) : Res :=
  s.coreRun n 4 1 fun s => s.branch n ra rd imm (fun a b => !a.ult b)

/-- J (OP 0x16). -/
def execJ (n : CoreId) (imm : BitVec 16) (s : State) : Res :=
  s.coreRun n 4 2 fun s => s.jumpTo n (s.relative n imm) 2 id

/-- CALL (OP 0x17): s31 takes the address of the next instruction (R56), class D; a target outside IMEM traps first. -/
def execCall (n : CoreId) (imm : BitVec 16) (s : State) : Res :=
  s.coreRun n 4 2 fun s =>
    let back : Word := BitVec.ofNat 32 ((s.cores[n]).pc.toNat + 4)
    s.checked n false true fun s => s.jumpTo n (s.relative n imm) 2 fun s => s.writeS n 31 back

/-- JR (OP 0x18): the target is the register's value (R51). -/
def execJr (n : CoreId) (ra : Sreg) (s : State) : Res :=
  s.coreRun n 4 2 fun s => s.withS n ra fun a _ => s.jumpTo n a.toNat 2 id

/-- ILLEGAL_INSTRUCTION (R97): an undefined instruction word traps ILLEGAL with no other effect; it has no listed cycles. A
defined word is not this event, and the core goes on with that instruction's own command. -/
def execIllegalInstruction (n : CoreId) (word : Word) (s : State) : Res :=
  match decodeScript n word with
  | none => s.coreRun n 4 0 fun s => s.trapWith causeIllegal none
  | some _ => .next s.fresh

end Sys2Proof.Machine
end

