-- ==== Sys2Proof/Machine/CoreSf.lean ====
section
/-!
DEFINITION. SF scalar operations (R62, R111).
-/

namespace Sys2Proof.Machine

/-- Two SF operands with the predicted residues of their mantissas. -/
def State.withSf (s : State) (n : CoreId) (ra rb : Sreg) (k : Ev → Ev → Run) : Run :=
  s.withSS n ra rb fun a _ b _ => k (sfValue a (s.sRes n ra)) (sfValue b (s.sRes n rb))

/-- An SF result of class A: one stage with one lane, which may set SAT (R62). -/
def State.sfDone (s : State) (n : CoreId) (rd : Sreg) (cyc : Nat) (x : Ev) : Run :=
  s.checked n true x.ok fun s =>
    .ok (((s.writeS n rd (sfResult x).1).setSat n (sfResult x).2).retire n 4 cyc)

/-- SF.ADD: ra + rb. -/
def execSfAdd (n : CoreId) (rd ra rb : Sreg) (s : State) : Res :=
  s.coreRun n 4 2 fun s => s.withSf n ra rb fun a b => s.sfDone n rd 2 (a.add b)

/-- SF.SUB: ra − rb. -/
def execSfSub (n : CoreId) (rd ra rb : Sreg) (s : State) : Res :=
  s.coreRun n 4 2 fun s => s.withSf n ra rb fun a b => s.sfDone n rd 2 (a.sub b)

/-- SF.MUL: ra × rb. -/
def execSfMul (n : CoreId) (rd ra rb : Sreg) (s : State) : Res :=
  s.coreRun n 4 3 fun s => s.withSf n ra rb fun a b => s.sfDone n rd 3 (a.mul b)

/-- SF.ABS: the absolute value. -/
def execSfAbs (n : CoreId) (rd ra : Sreg) (s : State) : Res :=
  s.coreRun n 4 2 fun s => s.withS n ra fun a _ => s.sfDone n rd 2 (sfValue a (s.sRes n ra)).abs

/-- SF.SLT: integer 1 when ra is below rb, compared exactly; class D. -/
def execSfSlt (n : CoreId) (rd ra rb : Sreg) (s : State) : Res :=
  s.coreRun n 4 1 fun s => s.withSf n ra rb fun a b => s.intD n rd 1 (boolWord (a.lt b))

/-- SF.SLE: integer 1 when ra is at most rb; class D. -/
def execSfSle (n : CoreId) (rd ra rb : Sreg) (s : State) : Res :=
  s.coreRun n 4 1 fun s => s.withSf n ra rb fun a b => s.intD n rd 1 (boolWord (a.le b))

/-- SF.FROMI: the SF value of a signed integer. -/
def execSfFromi (n : CoreId) (rd ra : Sreg) (s : State) : Res :=
  s.coreRun n 4 2 fun s => s.withS n ra fun a ar => s.sfDone n rd 2 ⟨a.toInt, 0, ar⟩

/-- SF.TOI: the nearest integer, ties to even, held to the signed 32-bit range; SAT is set where it saturates (R111). -/
def execSfToi (n : CoreId) (rd ra : Sreg) (s : State) : Res :=
  s.coreRun n 4 2 fun s => s.withS n ra fun a _ =>
    let x := sfValue a (s.sRes n ra)
    s.checked n true x.ok fun s =>
      .ok (((s.writeS n rd (satWord x.toNearest)).setSat n
        (decide (x.toNearest < -2147483648 ∨ 2147483647 < x.toNearest))).retire n 4 2)

/-- SF.SCALE: ra × 2^rb, rb a signed integer. -/
def execSfScale (n : CoreId) (rd ra rb : Sreg) (s : State) : Res :=
  s.coreRun n 4 2 fun s => s.withSS n ra rb fun a _ b _ => s.sfDone n rd 2 ((sfValue a (s.sRes n ra)).scale b.toInt)

end Sys2Proof.Machine
end

