-- ==== Sys2Proof/Machine/CoreVec.lean ====
section
/-!
DEFINITION. Vector arithmetic, lane access and reductions, compares and predicates (R59 to R61, R100, R112, R113).
-/

namespace Sys2Proof.Machine

/-- The exact results of a stage: the operation on the lanes whose predicate bit is 1, the previous value on the others (R61). -/
def stageLanes (old : VReg) (pg : BitVec 48) (f : Fin 48 → Ev) : List Ev :=
  (List.finRange 48).map fun i => if pg.getLsbD i.val then f i else old.lane i

/-- A vector result of class A: one stage over 48 lanes, which may set SAT (R59, R60). -/
def State.vecDone (s : State) (n : CoreId) (vd : Vreg) (cyc : Nat) (xs : List Ev) : Run :=
  s.checked n true (xs.all Ev.ok) fun s =>
    .ok (((s.writeV n vd (VReg.ofStage xs).1).setSat n (VReg.ofStage xs).2).retire n 4 cyc)

/-- Destination, two sources and predicate, all read before the destination is written (R112). -/
def State.withVVP (s : State) (n : CoreId) (vd va vb : Vreg) (pg : Preg) (k : VReg → VReg → VReg → BitVec 48 → Run) : Run :=
  s.withV n vd fun d => s.withV n va fun a => s.withV n vb fun b => s.withP n pg fun p => k d a b p

/-- Destination, one source and predicate. -/
def State.withVP (s : State) (n : CoreId) (vd va : Vreg) (pg : Preg) (k : VReg → VReg → BitVec 48 → Run) : Run :=
  s.withV n vd fun d => s.withV n va fun a => s.withP n pg fun p => k d a p

/-- VADD: va + vb. -/
def execVadd (n : CoreId) (vd va vb : Vreg) (pg : Preg) (s : State) : Res :=
  s.coreRun n 4 4 fun s => s.withVVP n vd va vb pg fun d a b p =>
    s.vecDone n vd 4 (stageLanes d p fun i => (a.lane i).add (b.lane i))

/-- VSUB: va − vb. -/
def execVsub (n : CoreId) (vd va vb : Vreg) (pg : Preg) (s : State) : Res :=
  s.coreRun n 4 4 fun s => s.withVVP n vd va vb pg fun d a b p =>
    s.vecDone n vd 4 (stageLanes d p fun i => (a.lane i).sub (b.lane i))

/-- VMUL: va × vb. -/
def execVmul (n : CoreId) (vd va vb : Vreg) (pg : Preg) (s : State) : Res :=
  s.coreRun n 4 6 fun s => s.withVVP n vd va vb pg fun d a b p =>
    s.vecDone n vd 6 (stageLanes d p fun i => (a.lane i).mul (b.lane i))

/-- VMAC: vd + va × vb, rounded once. -/
def execVmac (n : CoreId) (vd va vb : Vreg) (pg : Preg) (s : State) : Res :=
  s.coreRun n 4 6 fun s => s.withVVP n vd va vb pg fun d a b p =>
    s.vecDone n vd 6 (stageLanes d p fun i => (d.lane i).add ((a.lane i).mul (b.lane i)))

/-- VMIN: the smaller of va and vb. -/
def execVmin (n : CoreId) (vd va vb : Vreg) (pg : Preg) (s : State) : Res :=
  s.coreRun n 4 4 fun s => s.withVVP n vd va vb pg fun d a b p =>
    s.vecDone n vd 4 (stageLanes d p fun i => (a.lane i).min (b.lane i))

/-- VMAX: the larger of va and vb. -/
def execVmax (n : CoreId) (vd va vb : Vreg) (pg : Preg) (s : State) : Res :=
  s.coreRun n 4 4 fun s => s.withVVP n vd va vb pg fun d a b p =>
    s.vecDone n vd 4 (stageLanes d p fun i => (a.lane i).max (b.lane i))

/-- VNEG: −va. -/
def execVneg (n : CoreId) (vd va : Vreg) (pg : Preg) (s : State) : Res :=
  s.coreRun n 4 4 fun s => s.withVP n vd va pg fun d a p => s.vecDone n vd 4 (stageLanes d p fun i => (a.lane i).neg)

/-- VABS: the absolute value of va. -/
def execVabs (n : CoreId) (vd va : Vreg) (pg : Preg) (s : State) : Res :=
  s.coreRun n 4 4 fun s => s.withVP n vd va pg fun d a p => s.vecDone n vd 4 (stageLanes d p fun i => (a.lane i).abs)

/-- VMOV: va, renormalised. -/
def execVmov (n : CoreId) (vd va : Vreg) (pg : Preg) (s : State) : Res :=
  s.coreRun n 4 4 fun s => s.withVP n vd va pg fun d a p => s.vecDone n vd 4 (stageLanes d p fun i => a.lane i)

/-- VCLAMP: min(max(va, vb), vc). -/
def execVclamp (n : CoreId) (vd va vb vc : Vreg) (pg : Preg) (s : State) : Res :=
  s.coreRun n 4 5 fun s => s.withVVP n vd va vb pg fun d a b p => s.withV n vc fun c =>
    s.vecDone n vd 5 (stageLanes d p fun i => (a.lane i).clamp (b.lane i) (c.lane i))

/-- VSCALE: va × 2^rs, rs a signed integer. -/
def execVscale (n : CoreId) (vd va : Vreg) (rs : Sreg) (pg : Preg) (s : State) : Res :=
  s.coreRun n 4 4 fun s => s.withVP n vd va pg fun d a p => s.withS n rs fun k _ =>
    s.vecDone n vd 4 (stageLanes d p fun i => (a.lane i).scale k.toInt)

/-- VBCAST: the SF value of rs. -/
def execVbcast (n : CoreId) (vd : Vreg) (rs : Sreg) (pg : Preg) (s : State) : Res :=
  s.coreRun n 4 3 fun s => s.withV n vd fun d => s.withP n pg fun p => s.withS n rs fun k _ =>
    s.vecDone n vd 3 (stageLanes d p fun _ => sfValue k (s.sRes n rs))

/-- VSEL: va where the predicate is 1, else vb; every lane is written. -/
def execVsel (n : CoreId) (vd va vb : Vreg) (pg : Preg) (s : State) : Res :=
  s.coreRun n 4 4 fun s => s.withV n va fun a => s.withV n vb fun b => s.withP n pg fun p =>
    s.vecDone n vd 4 (stageLanes b p a.lane)

/-- VGET: the SF word of one lane (R62); an index above 47 is undefined (R97). -/
def execVget (n : CoreId) (rs : Sreg) (va : Vreg) (idx : BitVec 6) (s : State) : Res :=
  s.coreRun n 4 2 fun s =>
    if h : idx.toNat < 48 then s.withV n va fun a => s.sfDone n rs 2 (a.lane ⟨idx.toNat, h⟩)
    else s.trapWith causeIllegal none

/-- VSET: one lane takes the SF value of rs, as one stage. -/
def execVset (n : CoreId) (vd : Vreg) (rs : Sreg) (idx : BitVec 6) (s : State) : Res :=
  s.coreRun n 4 4 fun s =>
    if idx.toNat < 48 then s.withV n vd fun d => s.withS n rs fun k _ =>
      s.vecDone n vd 4 (stageLanes d (BitVec.ofNat 48 (2 ^ idx.toNat)) fun _ => sfValue k (s.sRes n rs))
    else s.trapWith causeIllegal none

/-- Lanes that a predicate selects, in rising order. -/
def lanesOf (p : BitVec 48) : List (Fin 48) := (List.finRange 48).filter (fun i => p.getLsbD i.val)

/-- The exact sum of values. -/
def sumEv (l : List Ev) : Ev := l.foldl Ev.add ⟨0, 0, 0⟩

/-- VSUM: the sum of the selected lanes, rounded once; with none selected the SF word of 0 (R113). -/
def execVsum (n : CoreId) (rs : Sreg) (va : Vreg) (pg : Preg) (s : State) : Res :=
  s.coreRun n 4 6 fun s => s.withV n va fun a => s.withP n pg fun p =>
    s.sfDone n rs 6 (sumEv ((lanesOf p).map a.lane))

/-- VDOT: the dot product over the selected lanes, rounded once. -/
def execVdot (n : CoreId) (rs : Sreg) (va vb : Vreg) (pg : Preg) (s : State) : Res :=
  s.coreRun n 4 8 fun s => s.withV n va fun a => s.withV n vb fun b => s.withP n pg fun p =>
    s.sfDone n rs 8 (sumEv ((lanesOf p).map fun i => (a.lane i).mul (b.lane i)))

/-- The first lane whose value no later lane beats; none of an empty list. -/
def bestLane (better : Ev → Ev → Bool) (v : VReg) : List (Fin 48) → Option (Fin 48)
  | [] => none
  | i :: t =>
    match bestLane better v t with
    | none => some i
    | some j => if better (v.lane j) (v.lane i) then some j else some i

/-- Index of a lane as a word, −1 for none (R113). -/
def laneWord (l : Option (Fin 48)) : Word :=
  match l with
  | some i => BitVec.ofNat 32 i.val
  | none => 0xFFFFFFFF

/-- VMAXR: index of the largest selected lane, the lowest on a tie, −1 for none (R113). -/
def execVmaxr (n : CoreId) (rs : Sreg) (va : Vreg) (pg : Preg) (s : State) : Res :=
  s.coreRun n 4 5 fun s => s.withV n va fun a => s.withP n pg fun p =>
    s.intD n rs 5 (laneWord (bestLane (fun x y => y.lt x) a (lanesOf p)))

/-- VMINR: index of the smallest selected lane, the lowest on a tie, −1 for none (R113). -/
def execVminr (n : CoreId) (rs : Sreg) (va : Vreg) (pg : Preg) (s : State) : Res :=
  s.coreRun n 4 5 fun s => s.withV n va fun a => s.withP n pg fun p =>
    s.intD n rs 5 (laneWord (bestLane (fun x y => x.lt y) a (lanesOf p)))

/-- A predicate result of class P (R100). -/
def State.predDone (s : State) (n : CoreId) (pd : Preg) (cyc : Nat) (v : BitVec 48) : Run :=
  s.checked n false true fun s => .ok ((s.writeP n pd v).retire n 4 cyc)

/-- The predicate whose bits a function gives. -/
def predOf (f : Fin 48 → Bool) : BitVec 48 := (List.finRange 48).foldl (fun m i => if f i then m ||| BitVec.twoPow 48 i.val else m) 0

/-- VCMPLT: bit i is pg[i] and va[i] < vb[i], compared exactly. -/
def execVcmplt (n : CoreId) (pd : Preg) (va vb : Vreg) (pg : Preg) (s : State) : Res :=
  s.coreRun n 4 3 fun s => s.withV n va fun a => s.withV n vb fun b => s.withP n pg fun p =>
    s.predDone n pd 3 (predOf fun i => p.getLsbD i.val && (a.lane i).lt (b.lane i))

/-- VCMPLE: bit i is pg[i] and va[i] ≤ vb[i], compared exactly. -/
def execVcmple (n : CoreId) (pd : Preg) (va vb : Vreg) (pg : Preg) (s : State) : Res :=
  s.coreRun n 4 3 fun s => s.withV n va fun a => s.withV n vb fun b => s.withP n pg fun p =>
    s.predDone n pd 3 (predOf fun i => p.getLsbD i.val && (a.lane i).le (b.lane i))

/-- PAND. -/
def execPand (n : CoreId) (pd pa pb : Preg) (s : State) : Res :=
  s.coreRun n 4 1 fun s => s.withP n pa fun a => s.withP n pb fun b => s.predDone n pd 1 (a &&& b)

/-- POR. -/
def execPor (n : CoreId) (pd pa pb : Preg) (s : State) : Res :=
  s.coreRun n 4 1 fun s => s.withP n pa fun a => s.withP n pb fun b => s.predDone n pd 1 (a ||| b)

/-- PNOT. -/
def execPnot (n : CoreId) (pd pa : Preg) (s : State) : Res :=
  s.coreRun n 4 1 fun s => s.withP n pa fun a => s.predDone n pd 1 (~~~a)

/-- PSETL: bits 31 to 0 from a scalar, the others unchanged. -/
def execPsetl (n : CoreId) (pd : Preg) (rs : Sreg) (s : State) : Res :=
  s.coreRun n 4 1 fun s => s.withP n pd fun d => s.withS n rs fun a _ =>
    s.predDone n pd 1 ((d.extractLsb' 32 16 ++ a).setWidth 48)

/-- PSETH: bits 47 to 32 from a scalar's low half, the others unchanged. -/
def execPseth (n : CoreId) (pd : Preg) (rs : Sreg) (s : State) : Res :=
  s.coreRun n 4 1 fun s => s.withP n pd fun d => s.withS n rs fun a _ =>
    s.predDone n pd 1 ((a.extractLsb' 0 16 ++ d.extractLsb' 0 32).setWidth 48)

/-- PGET: one half of a predicate to a scalar; h above 1 is undefined (R97). -/
def execPget (n : CoreId) (rs : Sreg) (pa : Preg) (h : BitVec 3) (s : State) : Res :=
  s.coreRun n 4 1 fun s =>
    if h = 0 then s.withP n pa fun a => s.intD n rs 1 (a.extractLsb' 0 32)
    else if h = 1 then s.withP n pa fun a => s.intD n rs 1 ((a.extractLsb' 32 16).setWidth 32)
    else s.trapWith causeIllegal none

/-- PCNT: the number of bits set in pa AND pg. -/
def execPcnt (n : CoreId) (rs : Sreg) (pa pg : Preg) (s : State) : Res :=
  s.coreRun n 4 2 fun s => s.withP n pa fun a => s.withP n pg fun p =>
    s.intD n rs 2 (BitVec.ofNat 32 (lanesOf (a &&& p)).length)

end Sys2Proof.Machine
end

