-- ==== Sys2Proof/Machine/CoreCtl.lean ====
section
/-!
DEFINITION. Control laws (R114 to R119).
-/

namespace Sys2Proof.Machine

/-- A parameter block of SF words in DMEM (R114): PARAM where it is misplaced; its words are checked as they are read. -/
def State.withParams (s : State) (n : CoreId) (rp : Sreg) (words : Nat) (k : List Ev → Nat → State → Run) : Run :=
  s.withS n rp fun a _ =>
    if inDmem a.toNat (4 * words) ∧ a.toNat % 4 = 0 then
      s.withDmem n a.toNat words fun ws s =>
        k (ws.map fun w => sfValue (BitVec.ofNat 32 w) (wordResidue (BitVec.ofNat 32 w))) a.toNat s
    else s.trapWith causeParam (some a.toNat)

def paramAt (ps : List Ev) (i : Nat) : Ev := ps.getD i Ev.zero

/-- PI.STEP (R115, R116): the integrator advances within ILO to IHI, then the output within ULO to UHI, each one stage. R116
says that the integrator never lies outside ILO to IHI, and the pseudocode of R115 clamps before the stage, whose rounding at
a shared exponent may move a clamped lane just past its bound: the model follows the pseudocode (DESIGN CHOICE, log entry 44). -/
def execPiStep (n : CoreId) (vd va vb : Vreg) (pg : Preg) (rp : Sreg) (s : State) : Res :=
  s.coreRun n 4 14 fun s =>
    if vd = vb then s.trapWith causeIllegal none
    else s.withVVP n vd va vb pg fun d a b p => s.withParams n rp 6 fun ps addr s =>
      let kp := paramAt ps 0
      let ki := paramAt ps 1
      let ilo := paramAt ps 2
      let ihi := paramAt ps 3
      let ulo := paramAt ps 4
      let uhi := paramAt ps 5
      if ilo.le ihi && ulo.le uhi then
        let acc := stageLanes b p fun i => ((b.lane i).add (ki.mul (a.lane i))).clamp ilo ihi
        let o := VReg.ofStage acc
        let out := stageLanes d p fun i => ((kp.mul (a.lane i)).add (o.1.lane i)).clamp ulo uhi
        s.checked n true (acc.all Ev.ok && out.all Ev.ok) fun s =>
          .ok (((((s.writeV n vb o.1).writeV n vd (VReg.ofStage out).1).setSat n o.2).setSat n (VReg.ofStage out).2).retire n 4 14)
      else s.trapWith causeParam (some addr)

/-- HYST (R118): sets the bit above THI, clears it below TLO, else leaves it. -/
def execHyst (n : CoreId) (pd : Preg) (va : Vreg) (pg : Preg) (rp : Sreg) (s : State) : Res :=
  s.coreRun n 4 5 fun s => s.withP n pd fun d => s.withV n va fun a => s.withP n pg fun p =>
    s.withParams n rp 2 fun ps addr s =>
      let tlo := paramAt ps 0
      let thi := paramAt ps 1
      if tlo.le thi then
        s.predDone n pd 5 (predOf fun i =>
          if p.getLsbD i.val && thi.lt (a.lane i) then true
          else if p.getLsbD i.val && (a.lane i).lt tlo then false
          else d.getLsbD i.val)
      else s.trapWith causeParam (some addr)

/-- The smallest of the candidates in one lane, the lowest index on a tie (R119). -/
def minSel (vs : List VReg) (i : Fin 48) : Nat × Ev :=
  (vs.zipIdx.drop 1).foldl (fun (acc : Nat × Ev) (x : VReg × Nat) =>
    if (x.1.lane i).lt acc.2 then (x.2, x.1.lane i) else acc) (0, (vs.headD VReg.reset).lane i)

/-- Vector operands va to va + k. -/
def State.withVs (s : State) (n : CoreId) (va : Vreg) : Nat → (List VReg → Run) → Run
  | 0, k => k []
  | m + 1, k =>
    s.withVs n va m fun vs =>
      if h : va.val + m < 8 then s.withV n ⟨va.val + m, h⟩ fun v => k (vs ++ [v]) else s.trapWith causeIllegal none

/-- MINSEL (R119): the smallest of n candidates per selected lane, and the winner's index in a predicate pair. -/
def execMinsel (n : CoreId) (vd va : Vreg) (cnt : BitVec 2) (pg : Preg) (pw : Preg) (s : State) : Res :=
  s.coreRun n 4 8 fun s =>
    if h : cnt ≠ 3 ∧ (pw = 2 ∨ pw = 4 ∨ pw = 6) ∧ va.val + cnt.toNat ≤ 7 then
      let pw1 : Preg := ⟨pw.val + 1, by rcases h.2.1 with h | h | h <;> subst h <;> decide⟩
      s.withV n vd fun d => s.withVs n va (cnt.toNat + 1) fun vs => s.withP n pg fun p =>
        s.withP n pw fun w0 => s.withP n pw1 fun w1 =>
          let xs := stageLanes d p fun i => (minSel vs i).2
          s.checked n true (xs.all Ev.ok) fun s =>
            let s := (s.writeV n vd (VReg.ofStage xs).1).setSat n (VReg.ofStage xs).2
            let s := s.writeP n pw (predOf fun i =>
              if p.getLsbD i.val then (minSel vs i).1.testBit 0 else w0.getLsbD i.val)
            let s := s.writeP n pw1 (predOf fun i =>
              if p.getLsbD i.val then (minSel vs i).1.testBit 1 else w1.getLsbD i.val)
            .ok (s.retire n 4 8)
    else s.trapWith causeIllegal none

/-- SETP (R117): min(max(va, LO), HI) on the selected lanes, as one stage. -/
def execSetp (n : CoreId) (vd va : Vreg) (pg : Preg) (rp : Sreg) (s : State) : Res :=
  s.coreRun n 4 6 fun s => s.withVP n vd va pg fun d a p => s.withParams n rp 2 fun ps addr s =>
    let lo := paramAt ps 0
    let hi := paramAt ps 1
    if lo.le hi then s.vecDone n vd 6 (stageLanes d p fun i => (a.lane i).clamp lo hi)
    else s.trapWith causeParam (some addr)

end Sys2Proof.Machine
end

