-- ==== Sys2Proof/Machine/CoreMem.lean ====
section
/-!
DEFINITION. Loads and stores (R52, R79, R80, R104 to R107), vector images (R105), and the input slots' LD.IN and
PRED.SET (R75, R76, R108 to R110).
-/

namespace Sys2Proof.Machine

/-- Bytes that a load moves. -/
def LoadKind.size (k : LoadKind) : Nat :=
  match k with
  | .word | .sample => 4
  | .half | .halfU => 2
  | .byte | .byteU => 1

/-- The value that a load writes. -/
def LoadKind.extend (k : LoadKind) (raw : Nat) : Word :=
  match k with
  | .word => BitVec.ofNat 32 raw
  | .half => (BitVec.ofNat 16 raw).signExtend 32
  | .halfU => BitVec.ofNat 32 (raw % 2 ^ 16)
  | .byte => (BitVec.ofNat 8 raw).signExtend 32
  | .byteU => BitVec.ofNat 32 (raw % 2 ^ 8)
  | .sample => (BitVec.ofNat 16 (raw / 2 ^ 16)).signExtend 32

/-- A load's data has arrived: LD.SMP checks its tag (R106), and the register is written (class L). In a speculative run a failed
tag sets ADC_TAG at once though the trap is not taken (DESIGN CHOICE, log entry 53: R80 says this of the trap only). -/
def State.loadDone (s : State) (n : CoreId) (k : LoadKind) (rt : Sreg) (addr raw cyc : Nat) : Run :=
  if k = .sample ∧ (sampleTag raw).toNat ≠ raw % 256 then (s.raise srcAdcTag).trapWith causeTag (some addr)
  else .ok ((s.writeS n rt (k.extend raw)).retire n 4 cyc)

/-- Effective address (R104): the base plus the sign-extended offset, modulo 2^32. -/
def effAddr (a : Word) (off : BitVec 16) : Nat := (a + off.signExtend 32).toNat

/-- Where a data access goes. -/
inductive Target where
  | dmem
  | sram
  /-- MRAM window, DRAM, a register block: an access that parks a speculative run (R80). -/
  | outside
  | none
  deriving DecidableEq, Repr

/-- Is an address in the register blocks (R41)? -/
def inRegSpace (a : Nat) : Bool := decide (0x40000000 ≤ a ∧ a < 0x40120000)

/-- The target of a data access (R39, R50). -/
def targetOf (a : Nat) : Target :=
  if inDmem a 1 then .dmem
  else if a < 0x800000 then .sram
  else if (memOf a).isSome || inRegSpace a then .outside
  else .none

/-- An access outside DMEM: it stalls the core until it completes (R52); in a speculative run only script SRAM is
reached, and an address outside every region ends with a bus error (R39, R50). -/
def State.outsideDmem (s : State) (n : CoreId) (addr : Nat) (w : Stall) : Run :=
  match targetOf addr with
  | .sram => .ok (s.stallOn n w)
  | .outside => if s.inSpec n then .error (s, .park) else .ok (s.stallOn n w)
  | _ => s.trapWith causeBus (some addr)

/-- An instruction that traps after its access to DMEM: the 1 cycle of R52 passes beside those listed (R99). -/
def Run.late (r : Run) (n : CoreId) : Run :=
  match r with
  | .ok s => .ok s
  | .error (s, e) => .error (s.spend n 1, e)

/-- Would a store meet memory that takes it? A buffered one that would not traps, and so parks (R40, R80). -/
def State.storeFits (s : State) (a n : Nat) : Bool := inDmem a n || s.memWritable a n

/-- A load of one word or less. -/
def State.loadOp (s : State) (n : CoreId) (k : LoadKind) (rt ra : Sreg) (off : BitVec 16) : Run :=
  s.withS n ra fun a _ =>
    let ea := effAddr a off
    if ea % k.size ≠ 0 then s.trapWith causeAlign (some ea)
    else if inDmem ea k.size then
      match s.dmemCheck n ea with
      | .ok s => (s.loadDone n k rt ea ((s.cores[n]).dpeek ea k.size) 2).late n
      | .error (s, e) => .error (s.spend n 1, e)
    else s.outsideDmem n ea (.load k rt ea)

/-- The speculation buffer takes more stores, at most 512 (R79, R80). The manual gives no latency for a store that goes into
the buffer: the callers count the 1 cycle of DMEM for SW, SH, SB and VST, and none for PRED.SET (DESIGN CHOICE, log entry 42). -/
def State.bufferStores (s : State) (n : CoreId) (l : List BufStore) (cyc : Nat) : Run :=
  if 512 < (s.cores[n]).stores.length + l.length then .error (s, .park)
  else .ok ((s.modCore n fun c => { c with stores := c.stores ++ l }).retire n 4 cyc)

/-- A store of one word or less. -/
def State.storeOp (s : State) (n : CoreId) (size : Nat) (rt ra : Sreg) (off : BitVec 16) : Run :=
  s.withSS n ra rt fun a _ v _ =>
    let ea := effAddr a off
    if ea % size ≠ 0 then s.trapWith causeAlign (some ea)
    else if s.inSpec n && (inDmem ea size || targetOf ea == .sram) then
      if s.storeFits ea size then s.bufferStores n [.store ea size v] 2 else s.trapWith causeBus (some ea)
    else s.afterDrain n fun s =>
      if inDmem ea size then
        match s.dmemStore n ea (bytesLE size v.toNat) with
        | .ok s => .ok (s.retire n 4 2)
        | .error (s, e) => .error (s.spend n 1, e)
      else s.outsideDmem n ea (.store size ea v)

/-- LW: 32 bits. -/
def execLw (n : CoreId) (rt ra : Sreg) (off : BitVec 16) (s : State) : Res := s.coreRun n 4 1 fun s => s.loadOp n .word rt ra off
/-- LH: 16 bits, sign-extended. -/
def execLh (n : CoreId) (rt ra : Sreg) (off : BitVec 16) (s : State) : Res := s.coreRun n 4 1 fun s => s.loadOp n .half rt ra off
/-- LHU: 16 bits, zero-extended. -/
def execLhu (n : CoreId) (rt ra : Sreg) (off : BitVec 16) (s : State) : Res := s.coreRun n 4 1 fun s => s.loadOp n .halfU rt ra off
/-- LB: 8 bits, sign-extended. -/
def execLb (n : CoreId) (rt ra : Sreg) (off : BitVec 16) (s : State) : Res := s.coreRun n 4 1 fun s => s.loadOp n .byte rt ra off
/-- LBU: 8 bits, zero-extended. -/
def execLbu (n : CoreId) (rt ra : Sreg) (off : BitVec 16) (s : State) : Res := s.coreRun n 4 1 fun s => s.loadOp n .byteU rt ra off
/-- SW: 32 bits. -/
def execSw (n : CoreId) (rt ra : Sreg) (off : BitVec 16) (s : State) : Res := s.coreRun n 4 1 fun s => s.storeOp n 4 rt ra off
/-- SH: 16 bits. -/
def execSh (n : CoreId) (rt ra : Sreg) (off : BitVec 16) (s : State) : Res := s.coreRun n 4 1 fun s => s.storeOp n 2 rt ra off
/-- SB: 8 bits. -/
def execSb (n : CoreId) (rt ra : Sreg) (off : BitVec 16) (s : State) : Res := s.coreRun n 4 1 fun s => s.storeOp n 1 rt ra off
/-- LD.SMP: an ADC sample word, its tag checked (R106). -/
def execLdSmp (n : CoreId) (rt ra : Sreg) (off : BitVec 16) (s : State) : Res := s.coreRun n 4 1 fun s => s.loadOp n .sample rt ra off

/-- Words of a vector image (R105). -/
def imageWords : Nat := 49

/-- The vector register of an image, exactly as it stands (R105). -/
def vregOfImage (ws : List Nat) : VReg :=
  VReg.ofMants (signedOf 8 (ws.headD 0)) ((ws.drop 1).map (signedOf 24))

/-- The image of a vector register. -/
def imageOf (v : VReg) : List Word := (v.exp.setWidth 32) :: v.mant.toList.map (fun m => m.signExtend 32)

/-- VLD: a vector image in one burst; the address is a multiple of 4 (R104, R105). -/
def execVld (n : CoreId) (vd : Vreg) (ra : Sreg) (off : BitVec 16) (s : State) : Res :=
  s.coreRun n 4 13 fun s => s.withS n ra fun a _ =>
    let ea := effAddr a off
    if ea % 4 ≠ 0 then s.trapWith causeAlign (some ea)
    else if inDmem ea (4 * imageWords) then
      (s.withDmem n ea imageWords fun ws s => .ok ((s.writeV n vd (vregOfImage ws)).retire n 4 14)).late n
    else if inDmem ea 1 then s.trapWith causeBus (some dmemHi)
    else s.outsideDmem n ea (.loadVec vd ea)

/-- VST: a vector image in one burst. In a speculative run its words take 49 entries of the buffer (log entry 14). -/
def execVst (n : CoreId) (vd : Vreg) (ra : Sreg) (off : BitVec 16) (s : State) : Res :=
  s.coreRun n 4 13 fun s => s.withS n ra fun a _ => s.withV n vd fun v =>
    let ea := effAddr a off
    if ea % 4 ≠ 0 then s.trapWith causeAlign (some ea)
    else if inDmem ea 1 && !inDmem ea (4 * imageWords) then s.trapWith causeBus (some dmemHi)
    else if s.inSpec n && (inDmem ea 1 || targetOf ea == .sram) then
      if s.storeFits ea (4 * imageWords) then
        s.bufferStores n ((imageOf v).zipIdx.map fun x => .store (ea + 4 * x.2) 4 x.1) 14
      else s.trapWith causeBus (some ea)
    else s.afterDrain n fun s =>
      if inDmem ea 1 then
        match s.dmemStore n ea ((imageOf v).flatMap fun w => bytesLE 4 w.toNat) with
        | .ok s => .ok (s.retire n 4 14)
        | .error (s, e) => .error (s.spend n 1, e)
      else s.outsideDmem n ea (.storeVec (imageOf v) ea)

/-- A slot's descriptor is read from DMEM; a vector slot's register field has 0 in its two low bits, and a vector slot
beyond the 32nd is illegal (R76, R97). -/
def State.withSlot (s : State) (n : CoreId) (slot : Nat) (reg : Sreg) (k : SlotDesc → State → Run) : Run :=
  match s.dmemChecks n (slotAddr slot) 4 with
  | .error e => .error e
  | .ok s =>
    let d := (s.cores[n]).slot slot
    if d.vec && (reg.val % 4 != 0) then s.trapWith causeIllegal none else k d s

/-- LD.IN in a speculative run (R79, R80, R109): the prediction as the predictor store stood when the run started. -/
def State.ldInSpec (s : State) (n : CoreId) (reg : Sreg) (pv : Preg) (slot : BitVec 8) (d : SlotDesc) : Run :=
  let preds := d.laneList.map fun i => (i, predict d.mode (predCell (s.cores[n]).predSnap slot.toNat i))
  if !d.sp || d.mode = 0 || preds.any (fun x => x.2.isNone) then .error (s, .park)
  else
    let value : Nat → Int := fun i =>
      match preds.find? (fun x => x.1 == i) with
      | some (_, some v) => v.toInt
      | _ => 0
    let s := s.modCore n fun c => { c with used := if c.used.contains slot then c.used else c.used ++ [slot] }
    let s :=
      if d.vec then
        let (v, sat) := VReg.ofStage ((List.range 48).map fun i => Ev.ofInt (value i))
        (s.writeV n ⟨reg.val / 4, by omega⟩ v).setSat n sat
      else s.writeS n reg (BitVec.ofInt 32 (value 0))
    .ok ((s.writeP n pv (if d.vec then d.lanes else d.lanes &&& 1)).retire n 4 3)

/-- LD.IN (R108, R109): outside a speculative run it reads at once where the data is present or the timeout is past, and
otherwise waits. -/
def execLdIn (n : CoreId) (reg : Sreg) (pv : Preg) (slot : BitVec 8) (s : State) : Res :=
  s.coreRun n 4 3 fun s => s.withSlot n slot.toNat reg fun d s =>
    if (s.cores[n]).slotExcess slot.toNat then s.trapWith causeIllegal none
    else if s.inSpec n then s.ldInSpec n reg pv slot d
    else if s.slotPresent d (s.cores[n]).period ∨ s.stampBad d (s.cores[n]).period ∨ (s.cores[n]).tick + d.tmo * 64 ≤ s.ticks then
      s.ldInFinish n reg pv slot.toNat 0
    else .ok (s.stallOn n (.input reg pv slot))

/-- A value rounded to an input code and saturated (R110). -/
def inputCode (x : Ev) : BitVec 16 × Bool :=
  (BitVec.ofInt 16 (clampInt (-32768) 32767 x.toNearest), decide (x.toNearest < -32768 ∨ 32767 < x.toNearest))

/-- PRED.SET (R110): every lane of the source is converted, and one that saturates sets SAT; the codes of the slot's lanes
become its SCRIPT prediction, buffered as one store in a speculative run. -/
def execPredSet (n : CoreId) (slot : BitVec 8) (reg : Sreg) (s : State) : Res :=
  s.coreRun n 4 3 fun s => s.withSlot n slot.toNat reg fun d s =>
    let store := fun (x : Nat → Ev) =>
      let codes := (List.range (if d.vec then 48 else 1)).map fun i => (i, inputCode (x i))
      let s := s.setSat n (codes.any fun c => c.2.2)
      let e := BufStore.predSet slot.toNat ((codes.filter fun c => d.lanes.getLsbD c.1).map fun c => (c.1, c.2.1))
      if s.inSpec n then s.bufferStores n [e] 3
      else s.afterDrain n fun s => .ok ((s.performStore n e).1.retire n 4 3)
    if d.vec then s.withV n ⟨reg.val / 4, by omega⟩ fun v =>
      store fun i => if h : i < 48 then v.lane ⟨i, h⟩ else Ev.zero
    else s.withS n reg fun w _ => store fun _ => sfValue w (s.sRes n reg)

end Sys2Proof.Machine
end

