-- ==== Sys2Proof/Machine/CoreSys.lean ====
section
/-!
DEFINITION. EMIT, the system operations and the take operations of a script (R71, R78, R80, R90, R120 to R125, R128 to R138).
-/

namespace Sys2Proof.Machine

/-- EMIT (R120, R121): a reference vector on its way to PLAN, or into the EMIT hold of a speculative run. -/
def execEmit (n : CoreId) (va : Vreg) (pg : Preg) (dest qty : BitVec 4) (s : State) : Res :=
  s.coreRun n 4 4 fun s => s.withV n va fun a => s.withP n pg fun p =>
    if h : dest.toNat < 4 then
      let m : EmitMsg := ⟨n, (s.cores[n]).period, ⟨dest.toNat, h⟩, qty, a.exp, a.mant, a.res, p⟩
      s.checked n true true fun s =>
        if s.inSpec n then
          if 64 ≤ (s.cores[n]).emits.length then .error (s, .park)
          else .ok ((s.modCore n fun c => { c with emits := c.emits ++ [m] }).retire n 4 4)
        else if 8 ≤ (s.cores[n]).fifo.length then .ok (s.stallOn n (.emit m))
        else .ok ((s.pushEmit n m).retire n 4 4)
    else s.trapWith causeEmittgt none

/-- NOP (R99). -/
def execNop (n : CoreId) (s : State) : Res := s.coreRun n 4 1 fun s => .ok (s.retire n 4 1)

/-- WAITP (R71, R73, R78, R80, R125). -/
def execWaitp (n : CoreId) (s : State) : Res :=
  s.coreRun n 4 1 fun s =>
    if s.inSpec n then .error (s.modCore n fun c => { c with atWaitp := true }, .park)
    else .ok (s.endRun n)

/-- RETT (R125): the instruction after the trapping one, in state RUN; outside TRAP it traps NOTRAP. -/
def execRett (n : CoreId) (s : State) : Res :=
  s.coreRun n 4 2 fun s =>
    if s.coreState n = coreTrap then
      .ok ((s.modCore n fun c =>
        { c with pc := BitVec.ofNat 16 (4 * s.fget (F.CORE_TPC_ADDR n) + c.rettStep), cycles := c.cycles + s.coreCycles n 2 }).setCoreState n
          coreRunning)
    else s.trapWith causeNotrap none

/-- BREAK (R90). -/
def execBrk (n : CoreId) (s : State) : Res := s.coreRun n 4 1 fun s => s.trapWith causeBreak none

/-- RDSYS: the system value that sel selects; 5 to 31 are undefined (R97). -/
def execRdsys (n : CoreId) (rd : Sreg) (sel : BitVec 5) (s : State) : Res :=
  s.coreRun n 4 1 fun s =>
    match sel.toNat with
    | 0 => s.intD n rd 1 (BitVec.ofNat 32 n.val)
    | 1 => s.intD n rd 1 (BitVec.ofNat 32 (s.cores[n]).cycles)
    | 2 => s.intD n rd 1 (BitVec.ofNat 32 (s.fget (F.CORE_TCAUSE_CAUSE n)))
    | 3 => s.intD n rd 1 (BitVec.ofNat 32 (4 * s.fget (F.CORE_TPC_ADDR n)))
    | 4 => s.intD n rd 1 (s.word (A.CORE_TADDR n))
    | _ => s.trapWith causeIllegal none

/-- A take instruction parks a speculative run (R80). -/
def State.takeOp (s : State) (n : CoreId) (k : Unit → Run) : Run := if s.inSpec n then .error (s, .park) else k ()

/-- The handle that a register names, in a take that this core owns and whose state is allowed; TAKEUSE otherwise (R123). -/
def State.withTake (s : State) (n : CoreId) (v : Word) (ok : Nat → Bool) (k : HandleId → Run) : Run :=
  if h : v.toNat < 8 then
    let t : HandleId := ⟨v.toNat, h⟩
    if s.fget (F.TAKE_STAT_OWNER t) = 0x10 + n.val ∧ ok (s.takeState t) then k t else s.trapWith causeTakeuse none
  else s.trapWith causeTakeuse none

/-- TK.OPEN (R128): the handle, or −1 when eight takes are open; class D. -/
def execTkOpen (n : CoreId) (rd : Sreg) (s : State) : Res :=
  s.coreRun n 4 4 fun s => s.takeOp n fun _ => s.checked n false true fun s =>
    match s.openTake (0x10 + n.val) with
    | (some h, s) => .ok ((s.writeS n rd (BitVec.ofNat 32 h.val)).retire n 4 4)
    | (none, s) => .ok ((s.writeS n rd 0xFFFFFFFF).retire n 4 4)

/-- TK.WR (R123, R130 to R135): adds to take ra the write of rd's value to the address in rb. -/
def execTkWr (n : CoreId) (rd ra rb : Sreg) (s : State) : Res :=
  s.coreRun n 4 2 fun s => s.takeOp n fun _ => s.withS n rd fun v _ => s.withSS n ra rb fun t _ a _ =>
    s.withTake n t (· == takeOpen) fun h => .ok ((s.writeTake h a.toNat v).1.retire n 4 2)

/-- The instant whose low 32 bits a register gives, nearest to the present (R124). -/
def State.nearInstant (s : State) (low : Word) : BitVec 48 :=
  s.rtime + (low - s.rtime.setWidth 32).signExtend 48

/-- TK.PRINT (R123, R138, R139): boundary codes 5 to 31 are undefined (R97). -/
def execTkPrint (n : CoreId) (ra rb : Sreg) (bnd : BitVec 5) (s : State) : Res :=
  s.coreRun n 4 4 fun s =>
    if bnd.toNat ≤ 4 then s.takeOp n fun _ => s.withSS n ra rb fun t _ i _ =>
      s.withTake n t (· == takeOpen) fun h => .ok ((s.printTake h bnd.toNat (s.nearInstant i)).retire n 4 4)
    else s.trapWith causeIllegal none

/-- TK.CUT (R123, R146): the owner cuts an OPEN or PENDING take with reason ABANDONED. -/
def execTkCut (n : CoreId) (ra : Sreg) (s : State) : Res :=
  s.coreRun n 4 4 fun s => s.takeOp n fun _ => s.withS n ra fun t _ =>
    s.withTake n t (fun st => st == takeOpen || st == takePending) fun h => .ok ((s.cutTake h cutAbandoned).retire n 4 4)

/-- TK.STAT (R123): the value of TAKE.STATh; class D. -/
def execTkStat (n : CoreId) (rd ra : Sreg) (s : State) : Res :=
  s.coreRun n 4 4 fun s => s.takeOp n fun _ => s.withS n ra fun t _ =>
    if h : t.toNat < 8 then s.intD n rd 4 (s.word (A.TAKE_STAT (⟨t.toNat, h⟩ : Fin 8))) else s.trapWith causeTakeuse none

end Sys2Proof.Machine
end

