-- ==== Sys2Proof/Machine/Flt.lean ====
section
/-!
DEFINITION. The fault collector's own commands: the FAULT_N pin (R432, R433), the history queues (R435 to R437), software
sources (R425) and the collector self-check (R438 to R440).
-/

namespace Sys2Proof.Machine

/-- FAULT_EVENT (R426 to R431). -/
def execFaultEvent (src : SourceId) (s : State) : Res := .next (s.fresh.raise src.val)

/-- FAULT_N outside the pulse: low while HOLD is 1, and while a self-fault stands (R432, R439). -/
def State.pinLevel (s : State) : State :=
  if s.flag F.FLT_PIN_PULSE then s
  else s.fset F.FLT_PIN_LEVEL (if s.flag F.FLT_PIN_HOLD || s.flag F.FLT_SELF_FAULT then 0 else 1)

/-- PIN_PULSE_END (R432). -/
def execPinPulseEnd (s : State) : Res :=
  let s := s.fresh
  if s.flag F.FLT_PIN_PULSE then .next (((s.advanceTo s.flt.pulseEnd).fset F.FLT_PIN_PULSE 0).pinLevel) else .next s

/-- A write of FLT.PIN.HOLD (R433). -/
def State.pinHold (s : State) (v : Nat) : State := (s.fset F.FLT_PIN_HOLD v).pinLevel

/-- A read of FLT.HISTLk: the oldest entry leaves its queue and the rest of it is latched (R437). -/
def State.readHist (s : State) (k : HistId) : Word × State :=
  match s.flt.hist[k] with
  | [] => (0, s.setWord (A.FLT_HISTH k) 0)
  | e :: t =>
    let lost := min s.flt.lost[k] 15
    let s := { s with flt := { s.flt with hist := s.flt.hist.set k t, lost := s.flt.lost.set k 0 } }
    let s := ((s.setWord (A.FLT_HISTH k) 0).fset (F.FLT_HISTH_VALID k) 1).fset (F.FLT_HISTH_EXTRAP k) e.extrap.toNat
    let s := (s.fset (F.FLT_HISTH_LEVEL k) t.length).fset (F.FLT_HISTH_LOST k) lost
    (e.time.setWidth 32, s.fset (F.FLT_HISTH_TIME k) (e.time.toNat / 2 ^ 32))

/-- A write of FLT.SWSET (R425). -/
def State.swSet (s : State) (v : Nat) : State :=
  s.each ((List.range 8).filter fun k => v.testBit k) fun k s => s.raise (376 + k)

/-- Every connected source of a STICKY word. -/
def connectedWord (w : Nat) : Word :=
  (List.range 32).foldl (fun (m : Word) b => if connected (32 * w + b) then m ||| (1 : Word) <<< b else m) 0

/-- The word that FLT.SELF.WORD codes. -/
def selfAddr (item : Nat) : Nat :=
  if item ≤ 0x0B then A.FLT_STICKY item else if item ≤ 0x3F then A.FLT_REACT (item - 0x10) else A.FLT_PSEL (item - 0x40)

/-- The second, inverted copy of the word of an item (R438). -/
def State.copyOf (s : State) (item : Nat) : Word := ~~~(s.word (selfAddr item)) ^^^ sparseGet 0 s.flt.wrong item

/-- The comparison of every pair (R438, R440): does a mismatch remain? -/
def State.mismatch (s : State) : Bool := s.flt.wrong.any fun e => s.copyOf e.1 != ~~~(s.word (selfAddr e.1))

/-- The failed word is rewritten: a repair, not an occurrence (R439). -/
def State.rewriteFailed (s : State) (item : Nat) (lasts : Bool) : State :=
  let s := if lasts then s else { s with flt := { s.flt with wrong := sparseSet 0 s.flt.wrong item 0 } }
  if item = 0xFF then s
  else s.setWord (selfAddr item) (if item ≤ 0x0B then connectedWord item else resetValue (selfAddr item))

/-- Items that FLT.SELF.WORD codes. -/
def selfItem (item : Nat) : Bool :=
  decide (item ≤ 0x0B) || decide (0x10 ≤ item ∧ item ≤ 0x4F) || item == 0xFF

/-- Source FLT_SELF is set with its reactions, but for LOG: its record is written once, in any case (R439). -/
def State.raiseSelf (s : State) : State :=
  let s := s.pushHist srcFltSelf
  let s :=
    if s.sticky srcFltSelf then s
    else
      let (s, more) := s.reactWith srcFltSelf (s.reaction srcFltSelf &&& 0x7)
      more.foldl (fun s m => s.raise m) s
  s.log (s.faultEntry srcFltSelf true)

/-- COLLECTOR_SELF_FAULT (R438, R439): bits of an item's two copies come to differ, and the comparison finds it. The reactions of
DOM_SAFA and FLT_SELF, lowest number first (R429), are those of the collector before the failed word is rewritten. A mismatch that
lasts is a defect which the rewriting does not remove; the copies of the reaction logic are rewritten by nothing. -/
def execCollectorSelfFault (item : BitVec 8) (s : State) (bits : Word := 1) (lasts : Bool := false) : Res :=
  let s := s.fresh
  if s.powered domSafa && selfItem item.toNat && bits != 0 then
    let s := { s with flt := { s.flt with wrong := sparseSet 0 s.flt.wrong item.toNat bits } }
    let s := ((s.fset F.FLT_SELF_FAULT 1).fset F.FLT_SELF_WORD item.toNat).fset F.FLT_PIN_LEVEL 0
    .next (((s.setCond domSafa true).raiseSelf.rewriteFailed item.toNat lasts).beginStop true)
  else .next s

/-- A 1 written to FLT.SELF.FAULT: ignored while the power stage works or a mismatch remains (R440). -/
def State.clearSelf (s : State) : State :=
  if (s.pwr = pwrStopped ∨ s.pwr = pwrSafeStop) ∧ !s.mismatch then
    ((s.fset F.FLT_SELF_FAULT 0).setCond domSafa false).pinLevel
  else s

/-- Bits of a STICKY word written to 1 clear, and the sources of kind L whose condition holds are set again (R426). -/
def State.clearSticky (s : State) (w : Nat) (v : Word) : State :=
  let cleared := s.word (A.FLT_STICKY w) &&& v
  let s := s.setWord (A.FLT_STICKY w) (s.word (A.FLT_STICKY w) &&& ~~~v)
  s.each ((List.range 32).filter fun b => cleared.getLsbD b && s.flt.cond.getLsbD (32 * w + b)) fun b s => s.raise (32 * w + b)

end Sys2Proof.Machine
end

