-- ==== Sys2Proof/Machine/Safe.lean ====
section
/-!
DEFINITION. The safe-disconnect function (chapter 13, R399 to R423): inputs and functions, the two channels, lockout and
reset, output tests, returned heartbeats and the safety parameter set.
-/

namespace Sys2Proof.Machine

def State.modSafe (s : State) (f : Safe → Safe) : State := { s with safe := f s.safe }

/-- Cause codes (R407). -/
def causePowerup : BitVec 8 := 0x01
def causeDemand : BitVec 8 := 0x02
def causeDisc : BitVec 8 := 0x03
def causeTest : BitVec 8 := 0x04
def causeEdm : BitVec 8 := 0x05
def causeChan : BitVec 8 := 0x06
def causePset : BitVec 8 := 0x07
def causeLaneLive : BitVec 8 := 0x08
def causeSelftest : BitVec 8 := 0x09

/-- Byte i of a set. -/
def setByteAt (set : List Byte) (i : Nat) : Nat := (set.getD i 0).toNat

/-- Fields of function f (R418). -/
def setMode (set : List Byte) (f : Nat) : Nat := setByteAt set (16 + 8 * f)
def setDisc (set : List Byte) (f : Nat) : Nat := setByteAt set (17 + 8 * f)
def setAct (set : List Byte) (f : Nat) : Nat := setByteAt set (18 + 8 * f)
def setEdmOut (set : List Byte) (f : Nat) : Nat := setByteAt set (19 + 8 * f)
def setReq (set : List Byte) (n : Nat) : Nat := setByteAt set (80 + 4 * n)
def setPeerHb (set : List Byte) : Nat := setByteAt set 8
def setPeerAct (set : List Byte) : Nat := setByteAt set 9

/-- CRC-32 of a copy, and the CRC field that it carries (R418, R419). -/
def setCrc (set : List Byte) : Word := crc32 (set.take 508)
def setCrcField (set : List Byte) : Word := BitVec.ofNat 32 (ofBytesLE (set.drop 508))

/-- Bytes that R418 reserves. -/
def setReserved (i : Nat) : Bool :=
  decide (4 ≤ i ∧ i < 8) || decide (10 ≤ i ∧ i < 16) || decide (16 ≤ i ∧ i < 80 ∧ 4 ≤ i % 8) ||
  decide (80 ≤ i ∧ i < 96 ∧ i % 4 ≠ 0) || decide (96 ≤ i ∧ i < 508)

/-- The fields of one function lie in their ranges (R418, R420). -/
def setFuncOk (set : List Byte) (f : Nat) : Bool :=
  let m := setMode set f
  decide (m ≤ 3) && decide (1 ≤ setDisc set f ∧ setDisc set f ≤ 50) && decide (setAct set f < 32) &&
  (if m = 3 then decide (setEdmOut set f ≤ 3) else setEdmOut set f == 0) &&
  (if m = 1 ∨ m = 2 then setAct set f != 0 else true)

/-- A set is valid (R420). -/
def setValid (set : List Byte) : Bool :=
  set.length == 512 && setByteAt set 0 == 1 && setByteAt set 1 == 0 && decide (setPeerHb set ≤ 1) &&
  decide (setPeerAct set < 32) && (setPeerHb set == 0 || setPeerAct set != 0) &&
  (List.range 8).all (setFuncOk set) && (List.range 4).all (fun n => decide (setReq set n < 32)) &&
  (List.range 508).all (fun i => !setReserved i || setByteAt set i == 0) && setCrc set == setCrcField set

/-- The set that a channel goes by: none unless it is valid. -/
def SafeCh.rules (c : SafeCh) : List Byte :=
  match c.set with
  | some b => if setValid b then b else []
  | none => []

def State.aOn (s : State) : Bool := s.powered domSafa && s.safe.a.started

/-- Is the switch of output n and channel k (0 A, 1 B) open for a test now? -/
def Safe.tested (c : Safe) (n k : Nat) : Bool := c.testing.any fun t => t.val == 2 * n + k

/-- The low-side switch of output n: channel B grants its permit (R400). -/
def State.lsCmd (s : State) (n : Nat) : Bool := s.bOn && !s.safe.b.hold.getLsbD n
def State.lsClosed (s : State) (n : Nat) : Bool := s.lsCmd n && !s.safe.tested n 1

/-- The high-side switch of output n, as channel A last commanded it (R400). -/
def State.hsClosed (s : State) (n : Nat) : Bool := s.powered domSafa && s.safe.hsCmd.getLsbD n && !s.safe.tested n 0

/-- Both switches of an output are closed. -/
def State.outputOn (s : State) (n : Nat) : Bool := s.hsClosed n && s.lsClosed n

/-- Does an output's load carry current: both switches closed and 24V_SAFE at least 16.8 V (R524)? -/
def State.outputCurrent (s : State) (n : Nat) : Bool := s.outputOn n && decide (16800 ≤ s.safe.safe24)

def State.lockout (s : State) : Bool :=
  !s.powered domSafa || !s.powered domSafb || s.safe.a.lockout || s.safe.b.lockout

/-- SAFE.FUNC: channel B's levels as they stand, channel A's of its last cycle. -/
def Safe.funcWord (c : Safe) : Nat :=
  (List.range 8).foldl (fun w f => w + 16 ^ f * (c.si.toNat / 4 ^ f % 4 * 4 + c.aSeen.toNat / 4 ^ f % 4)) 0

/-- SAFE.OUT. -/
def State.outWord (s : State) : Nat :=
  (List.range 4).foldl (fun w n => w + 256 ^ n *
    ((s.safe.req.getLsbD n).toNat * 16 + (s.safe.hsCmd.getLsbD n).toNat * 8 + (s.lsCmd n).toNat * 4 +
      (s.hsClosed n).toNat * 2 + (s.lsClosed n).toNat)) 0

/-- What the mirror and SUP show of the channels ("SAFE register block", R408). -/
def State.safeShow (s : State) : State :=
  let c := s.safe
  let s := s.fset F.SUP_MODE_LOCKOUT s.lockout.toNat
  if s.powered domSafa then
    let s := (s.fset F.SAFE_STAT_LOCKOUT s.lockout.toNat).fset F.SAFE_STAT_CAUSE (if c.a.started then c.cause.toNat else 0)
    let s := s.fset F.SAFE_STAT_DEMAND (c.a.demand ||| c.b.demand).toNat
    (s.setWord A.SAFE_FUNC (BitVec.ofNat 32 c.funcWord)).setWord A.SAFE_OUT (BitVec.ofNat 32 s.outWord)
  else s

/-- Do both channels command an output closed, whatever a test does with its switches? -/
def State.outputCmd (s : State) (n : Nat) : Bool := s.powered domSafa && s.safe.hsCmd.getLsbD n && s.lsCmd n

/-- Functions in EDM mode whose output has just been switched off: their time starts, and the output's return ends it (R403). A
test's opening is no switching off (R412). -/
def State.edmStart (s s' : State) : State :=
  let rules := s.safe.a.rules
  let edm (f : Nat) : Bool := setMode rules f == 3
  let was (f : Nat) : Bool := s.outputCmd (setEdmOut rules f)
  let is (f : Nat) : Bool := s'.outputCmd (setEdmOut rules f)
  s'.modSafe fun c =>
    { c with discAt := Vector.ofFn fun f : Fin 8 =>
        if edm f.val && was f.val && !is f.val then some s'.ticks
        else if edm f.val && !was f.val && is f.val then none else c.discAt[f] }

/-- A change of the channels, with its consequences for the outputs and the mirror. -/
def State.safeChange (s : State) (f : Safe → Safe) : State := (s.edmStart (s.modSafe f)).safeShow

/-- A lockout cause is set, with its SAFE_LOCKOUT record (R407, R450). -/
def State.safeCause (s : State) (code : BitVec 8) : State :=
  let s := s.safeChange fun c => { c with cause := code }
  s.logHigh 0x03 code.toNat (s.word A.SAFE_STAT).toNat

/-- A lockout fault: every powered channel holds every output and the heartbeats, SAFE_FAULT is set and the power stage
stops (R399, R407). -/
def State.safeFault (s : State) (code : BitVec 8) : State :=
  let s := s.safeChange fun c =>
    { c with
      a := { c.a with lockout := true, hold := 0x1F }
      b := { c.b with lockout := true, hold := 0x1F }
      held := if c.held.contains code then c.held else c.held ++ [code] }
  ((s.safeCause code).raise srcSafeFault).beginStop true

/-- A demand meets a test, whichever channel sees it (R413): the result is void, and the switch under test stays open. -/
def Safe.overTest (c : Safe) : Safe :=
  match c.testing with
  | some t =>
    let bit : BitVec 5 := BitVec.twoPow 5 (t.val / 2)
    { c with
      testVoid := true
      testHeld := c.testHeld ||| BitVec.twoPow 4 (t.val / 2)
      a := if t.val % 2 = 0 then { c.a with hold := c.a.hold ||| bit } else c.a
      b := if t.val % 2 = 1 then { c.b with hold := c.b.hold ||| bit } else c.b }
  | none => c

/-- A channel sees a demand with an action mask (R404, R413): f from 0 to 7, 8 for the peer. -/
def State.safeDemand (s : State) (ch : Channel) (f act : Nat) : State :=
  let new := !(s.safe.a.demand ||| s.safe.b.demand).getLsbD f
  let mark (k : SafeCh) : SafeCh :=
    { k with lockout := true, hold := k.hold ||| BitVec.ofNat 5 act, demand := k.demand ||| BitVec.twoPow 9 f }
  let s := s.safeChange fun c =>
    match ch with
    | .a => { c with a := mark c.a }.overTest
    | .b => { c with b := mark c.b }.overTest
  let s := if new then (s.finc F.SAFE_CNT_DEMANDS).safeCause causeDemand else s
  (s.raise srcSafeDemand).beginStop true

/-- Levels of a function's two inputs. -/
def inLo (si : BitVec 16) (f : Nat) : Bool := si.getLsbD (2 * f)
def inHi (si : BitVec 16) (f : Nat) : Bool := si.getLsbD (2 * f + 1)

/-- The demand pattern of a function (R403). -/
def demandOf (rules : List Byte) (si : BitVec 16) (f : Nat) : Bool :=
  match setMode rules f with
  | 1 => !inLo si f || !inHi si f
  | 2 => !inLo si f || inHi si f
  | _ => false

/-- The discrepancy pattern of a function in mode 1 or 2; in mode 3, not both inputs high (R403). -/
def discrepantOf (rules : List Byte) (si : BitVec 16) (f : Nat) : Bool :=
  match setMode rules f with
  | 1 => inLo si f != inHi si f
  | 2 => inLo si f == inHi si f
  | 3 => !(inLo si f && inHi si f)
  | _ => false

/-- Channel B evaluates its functions on the levels as they stand (R404). -/
def State.bEvaluate (s : State) : State :=
  if s.bOn then
    (List.range 8).foldl (fun s f =>
      let rules := s.safe.b.rules
      if demandOf rules s.safe.si f then
        if s.safe.b.demand.getLsbD f then s else s.safeDemand .b f (setAct rules f)
      else s.safeChange fun c => { c with b := { c.b with demand := c.b.demand &&& ~~~BitVec.twoPow 9 f } }) s
  else s

/-- The rules of whichever channel works. -/
def State.anyRules (s : State) : List Byte := if s.bOn then s.safe.b.rules else s.safe.a.rules

/-- Discrepancies begin or end with the levels and the rules as they stand; the time of an EDM function runs from its output's opening
alone (R403). -/
def State.discSince (s : State) : State :=
  let rules := s.anyRules
  let since (old : Option Nat) (f : Nat) : Option Nat :=
    if setMode rules f = 3 then old else if !discrepantOf rules s.safe.si f then none else if old.isSome then old else some s.ticks
  s.modSafe fun c => { c with discAt := Vector.ofFn fun f : Fin 8 => since c.discAt[f] f.val }

/-- SAFETY_INPUT_CHANGE (R402 to R404): a level that has lasted 20 µs. -/
def execSafetyInputChange (si : SafetyInputId) (level : Bool) (s : State) : Res :=
  let s := s.fresh
  let s := s.modSafe fun c =>
    { c with si := if level then c.si ||| BitVec.twoPow 16 si.val else c.si &&& ~~~BitVec.twoPow 16 si.val }
  .next (s.discSince.safeShow.bEvaluate)

/-- 10 ms in ticks, the unit of DISCf. -/
def discTicks : Nat := 10 * ms

/-- DISCREPANCY_TIMEOUT (R403, R407): a discrepancy that lasts longer than DISCf, or EDM inputs not both high DISCf after
the output opened. -/
def execDiscrepancyTimeout (f : FuncId) (s : State) : Res :=
  let s := s.fresh
  let rules := s.anyRules
  match s.safe.discAt[f] with
  | some t =>
    let edm := setMode rules f.val == 3
    let s := s.advanceTo (t + discTicks * setDisc rules f.val + if edm then 0 else 1)
    let s := s.modSafe fun c => { c with discAt := c.discAt.set f none }
    .next (if discrepantOf rules s.safe.si f.val && (s.aOn || s.bOn) then s.safeFault (if edm then causeEdm else causeDisc) else s)
  | none => .next s

/-- The outputs whose EDM inputs are not both high at a switch-on request (R403). -/
def State.edmBlocked (s : State) (n : Nat) : Bool :=
  (List.range 8).any fun f =>
    setMode s.safe.a.rules f == 3 && setEdmOut s.safe.a.rules f == n && !(inLo s.safe.si f && inHi s.safe.si f)

/-- Channel A's cycle: the demands it sees on two samples in a row, and those that have ended (R404, R405). -/
def State.aEvaluate (s : State) (before : BitVec 16) : State :=
  (List.range 8).foldl (fun s f =>
    let rules := s.safe.a.rules
    if demandOf rules s.safe.aSeen f then
      if demandOf rules before f && !s.safe.a.demand.getLsbD f then s.safeDemand .a f (setAct rules f) else s
    else s.safeChange fun c => { c with a := { c.a with demand := c.a.demand &&& ~~~BitVec.twoPow 9 f } }) s

/-- The outputs that the power-stage state requests (R400). -/
def State.reqMask (s : State) : BitVec 4 :=
  (List.range 4).foldl (fun m n => if (setReq s.safe.a.rules n).testBit s.pwr then m ||| BitVec.twoPow 4 n else m) 0

/-- Channel A commands its high-side switches; an output whose EDM inputs are wrong at the request stays off (R400,
R403). -/
def State.aCommand (s : State) : State :=
  let req := s.reqMask
  let want : BitVec 4 := req &&& ~~~(s.safe.a.hold.setWidth 4)
  let bad := (List.range 4).filter fun n => want.getLsbD n && !s.safe.hsCmd.getLsbD n && s.edmBlocked n
  let cmd := bad.foldl (fun (m : BitVec 4) n => m &&& ~~~BitVec.twoPow 4 n) want
  let s := s.safeChange fun c => { c with hsCmd := cmd, req := req }
  if bad.isEmpty then s else (s.safeFault causeEdm).safeChange fun c => { c with hsCmd := 0 }

/-- CHANNEL_A_CYCLE (R400, R404). -/
def execChannelACycle (s : State) : Res :=
  let s := s.fresh
  if s.aOn then
    let s := s.advanceTo s.safe.aNext
    let before := s.safe.aSeen
    let s := s.safeChange fun c => { c with aSeen := c.si, aNext := s.ticks + 2 * ms }
    .next ((s.aEvaluate before).aCommand)
  else .next s

/-- The channels agree in their demand states and in the outputs that their switch commands hold off, but for a switch that a
test keeps open (R406, R413). -/
def Safe.agree (c : Safe) : Bool :=
  c.a.demand == c.b.demand && ((c.a.hold ^^^ c.b.hold).setWidth 4 &&& ~~~c.testHeld) == 0

/-- CHANNEL_EXCHANGE (R406): live counts that arrive, the comparison of demands and switch commands, and what A learns of the
peer demand. -/
def execChannelExchange (liveA liveB : Bool) (s : State) : Res :=
  let s := s.fresh
  if s.aOn || s.bOn then
    let s := s.modSafe fun c =>
      { c with
        missA := if liveA && s.aOn then 0 else c.missA + 1
        missB := if liveB && s.bOn then 0 else c.missB + 1
        disagree := if c.agree then 0 else c.disagree + 1 }
    if s.aOn && s.bOn && liveB then
      if s.safe.b.demand.getLsbD 8 then
        .next (if s.safe.a.demand.getLsbD 8 then s else s.safeDemand .a 8 (setPeerAct s.safe.a.rules))
      else .next (s.safeChange fun c => { c with a := { c.a with demand := c.a.demand &&& 0xFF } })
    else .next s
  else .next s

/-- Does a channel fault stand, as the survivor sees it (R406)? -/
def State.chanBad (s : State) (survivor : Channel) : Bool :=
  decide (6 ≤ s.safe.disagree) ||
  match survivor with
  | .a => s.aOn && (decide (3 ≤ s.safe.missB) || !s.powered domSafb)
  | .b => s.bOn && (decide (3 ≤ s.safe.missA) || !s.powered domSafa || !s.powered domAon)

/-- A channel in lockout that holds every output and the heartbeats (R399). -/
def SafeCh.safeState (k : SafeCh) : SafeCh := { k with lockout := true, hold := 0x1F }

/-- Channel k enters the safe state for a CHAN fault that a channel sees: its own share, and on a discrepancy, which each
channel sees, both shares (R23, R406, R407). -/
def Safe.chanShare (c : Safe) (survivor : Channel) : Safe :=
  let both := decide (6 ≤ c.disagree)
  { c with
    a := if survivor = .a ∨ both then c.a.safeState else c.a
    b := if survivor = .b ∨ both then c.b.safeState else c.b
    held := if c.held.contains causeChan then c.held else c.held ++ [causeChan] }

/-- The CHAN lockout of the surviving channel (R406, R407). -/
def State.chanFault (s : State) (survivor : Channel) : State :=
  if s.safe.chanShare survivor = s.safe then s
  else (((s.safeChange fun c => c.chanShare survivor).safeCause causeChan).raise srcSafeFault).beginStop true

/-- CHANNEL_FAULT (R406). -/
def execChannelFault (survivor : Channel) (s : State) : Res :=
  let s := s.fresh
  .next (if s.chanBad survivor then s.chanFault survivor else s)

/-- Has a lockout cause met its clearing condition (R407)? -/
def State.causeCleared (s : State) (code : BitVec 8) : Bool :=
  let rules := s.anyRules
  let si := s.safe.si
  if code = causeDisc then (List.range 8).all fun f => setMode rules f == 3 || !(discrepantOf rules si f || demandOf rules si f)
  else if code = causeTest then s.safe.testFail == 0
  else if code = causeEdm then (List.range 8).all fun f => setMode rules f != 3 || (inLo si f && inHi si f)
  else if code = causePset then s.safe.sealed
  else if code = causeLaneLive then s.safe.liveAt.all fun t => decide (t + 1000 * ms ≤ s.ticks)
  else code != causeChan && code != causeSelftest

/-- A channel accepts a held time from 0.5 s to 5 s (R409). -/
def holdOk (us : Nat) : Bool := decide (500000 ≤ us ∧ us ≤ 5000000)

/-- An accepted reset (R410, R411): the lockout ends, the sticky fields of the mirror clear, the heartbeats restart. -/
def State.safeReset (s : State) : State :=
  let s := s.safeChange fun c =>
    { c with
      a := { c.a with lockout := false, hold := 0 }
      b := { c.b with lockout := false, hold := 0 }
      cause := 0
      testHeld := 0
      held := [] }
  let s := (((s.fset F.SAFE_STAT_RSTDISC 0).fset F.SAFE_STAT_VOID 0).fset F.SAFE_LANE_RETLOST 0).finc F.SAFE_CNT_RESETS
  s.each (List.finRange 3) fun x s => s.each (List.finRange 40) fun k s => s.heartbeatBack x k

/-- SAFE_RESET_EDGE (R409 to R411): `gapUs` lies between the instants at which the channels accept. An edge that only one of them has
accepted after 10 ms counts as accepted by one. -/
def execSafeResetEdge (heldUsA heldUsB : Nat) (s : State) (gapUs : Nat := 0) : Res :=
  let s := s.fresh.modSafe fun c => { c with resetSince := none }
  let okA := s.aOn && holdOk heldUsA
  let okB := s.bOn && holdOk heldUsB
  if okA && okB && decide (gapUs ≤ 10000) then
    .next (if s.safe.a.demand ||| s.safe.b.demand = 0 ∧ s.safe.held.all s.causeCleared then s.safeReset else s)
  else if okA || okB then .next (s.fset F.SAFE_STAT_RSTDISC 1)
  else .next s

/-- Does channel k (0 A, 1 B) of the test command its switch closed? -/
def State.testClosed (s : State) (t : Nat) : Bool :=
  if t % 2 = 0 then s.safe.hsCmd.getLsbD (t / 2) else s.lsCmd (t / 2)

/-- OUTPUT_TEST_SLOT (R412): the switch of SAFE.TEST.NEXT opens for its test, or is checked open. -/
def execOutputTestSlot (s : State) : Res :=
  let s := s.fresh
  let t := s.fget F.SAFE_TEST_NEXT % 8
  if s.safe.a.started && s.safe.b.started && s.safe.testing.isNone && (if t % 2 = 0 then s.aOn else s.bOn) then
    let s := s.advanceTo s.safe.testAt
    .next (s.safeChange fun c =>
      { c with testing := some (Fin.ofNat 8 t), testVoid := false, testAt := s.ticks + 1000 * ms })
  else .next s

/-- OUTPUT_TEST_CHECK (R412, R413): the readback of a closed switch is taken at 250 µs, and the switch closes again at 300 µs unless
the check fails, which opens every switch. -/
def execOutputTestCheck (nodeOpen : Bool) (s : State) : Res :=
  let s := s.fresh
  match s.safe.testing with
  | none => .next s
  | some t =>
    let began := s.safe.testAt - 1000 * ms
    let s := s.advanceTo (began + if s.testClosed t.val then 250 * us else 300 * us)
    let void := s.safe.testVoid
    let s := (if void || nodeOpen then s.advanceTo (began + 300 * us) else s).safeChange fun c => { c with testing := none, testVoid := false }
    if void then .next ((s.fset F.SAFE_STAT_VOID 1).finc F.SAFE_TEST_VOIDCNT)
    else
      let s := (s.fset F.SAFE_TEST_NEXT ((t.val + 1) % 8)).fset F.SAFE_TEST_LASTPASS nodeOpen.toNat
      if nodeOpen then .next (s.modSafe fun c => { c with testFail := c.testFail &&& ~~~BitVec.twoPow 8 t.val })
      else .next ((s.modSafe fun c => { c with testFail := c.testFail ||| BitVec.twoPow 8 t.val }).safeFault causeTest)

/-- The peer heartbeat on P7 is lost (R416). -/
def State.peerHbLost (s : State) : State :=
  if s.bOn then
    let s := (s.fsetBit F.SAFE_LANE_RETLOST 7).fclrBit F.SAFE_LANE_RETOK 7
    if setPeerHb s.safe.b.rules = 1 ∧ !s.safe.b.demand.getLsbD 8 then s.safeDemand .b 8 (setPeerAct s.safe.b.rules) else s
  else s

/-- PEER_HEARTBEAT_LOST (R416). -/
def execPeerHeartbeatLost (s : State) : Res := .next s.fresh.peerHbLost

/-- A cage that holds no optical module and is not configured for use is not a fault source (R21). -/
def State.portUsed (s : State) (p : LaneId) : Bool := s.flag (F.RING_LCTRL_EN p) || (s.fget F.SUP_CAGE_PRES).testBit p.val

/-- RETURNED_HB_LOST (R414, R415): the port no longer counts as receiving, and while the drivers send that is a status; on P7 the loss
is that of the peer, and P6 carries no heartbeat. -/
def execReturnedHbLost (p : LaneId) (s : State) : Res :=
  let s := s.fresh
  if p.val = 7 then .next s.peerHbLost
  else if p.val < 6 ∧ s.bOn then
    let s := s.fclrBit F.SAFE_LANE_RETOK p.val
    if s.hbOn then
      let s := s.fsetBit F.SAFE_LANE_RETLOST p.val
      .next (if s.portUsed p then s.raise srcSafeLane else s)
    else .next s
  else .next s

/-- RETURNED_HEARTBEAT (R414): a port that decodes a word counts as receiving; on P7 it is the preceding module's. A word that the
drivers send and that has come back through the ring has reached every one of its cells. -/
def execReturnedHeartbeat (p : LaneId) (s : State) : Res :=
  let s := s.fresh
  if p.val = 7 ∧ s.bOn then
    .next ((s.fsetBit F.SAFE_LANE_RETOK 7).safeChange fun c => { c with b := { c.b with demand := c.b.demand &&& 0xFF } })
  else
    match ringOf p with
    | some x =>
      let s := if s.bOn then s.fsetBit F.SAFE_LANE_RETOK p.val else s
      if s.hbOn then
        .next { s with cells := s.cells.set x ((s.cells[x]).map fun (c : Cell) => { c with hbSilent := false }) }
      else .next s
    | none => .next s

/-- LANE_LIVE (R414, R415): a heartbeat word while the drivers are held low. -/
def execLaneLive (p : LaneId) (s : State) : Res :=
  let s := s.fresh
  if s.bOn && !s.hbOn && p.val != 6 then
    let s := (s.modSafe fun c => { c with liveAt := some s.ticks }).fsetBit F.SAFE_LANE_RETOK p.val
    .next (if s.safe.held.contains causeLaneLive then s else s.safeFault causeLaneLive)
  else .next s

/-- SAFE.CRCA, SAFE.CRCB and SAFE.PSET from the copies that the channels hold. -/
def State.showSet (s : State) : State :=
  let crc (k : SafeCh) : Word := match k.set with
    | some b => setCrc b
    | none => 0
  let s := (s.setWord A.SAFE_CRCA (crc s.safe.a)).setWord A.SAFE_CRCB (crc s.safe.b)
  match s.safe.a.set with
  | some b => (s.fset F.SAFE_PSET_SETNUM (setByteAt b 2 + 256 * setByteAt b 3)).fset F.SAFE_PSET_STATE (if s.safe.sealed then 2 else 1)
  | none => (s.fset F.SAFE_PSET_SETNUM 0).fset F.SAFE_PSET_STATE 0

/-- A channel's copy is absent, unconfirmed, or fails its check (R407). -/
def State.setBad (s : State) (k : SafeCh) : Bool :=
  !s.safe.sealed || (match k.set with | some b => !setValid b | none => true)

/-- SAFE_STARTUP_DONE (R417). -/
def execSafeStartupDone (ch : Channel) (selfTestPassed : Bool) (s : State) : Res :=
  let s := s.fresh
  let (dom, k) := match ch with
    | .a => (domSafa, s.safe.a)
    | .b => (domSafb, s.safe.b)
  if s.powered dom && !k.started then
    let s := s.safeChange fun c =>
      match ch with
      | .a => { c with a := { c.a with started := true }, aNext := s.ticks + 2 * ms, testAt := s.ticks + 1000 * ms }
      | .b => { c with b := { c.b with started := true }, testAt := s.ticks + 1000 * ms }
    let s := s.showSet
    let s :=
      if !selfTestPassed then s.safeFault causeSelftest
      else if s.setBad k then s.safeFault causePset
      else if s.safe.cause = 0 ∨ s.safe.cause = causePowerup then s.safeCause causePowerup else s
    .next s.bEvaluate
  else .next s

/-- A channel's domain is powered: it is in lockout and holds everything (R417); its set copy is kept. -/
def State.safePower (s : State) (ch : Channel) : State :=
  s.safeChange fun c =>
    match ch with
    | .a => { c with a := { SafeCh.reset with set := c.a.set }, hsCmd := 0, req := 0, aSeen := 0, testing := none, missA := 0,
                     disagree := 0, testHeld := 0, cause := 0, held := [], testFail := 0, liveAt := none }
    | .b => { c with b := { SafeCh.reset with set := c.b.set }, testing := none, missB := 0, disagree := 0, testHeld := 0,
                     cause := 0, held := [], testFail := 0, liveAt := none }

/-- SAFE_LOAD (R421): a valid set becomes UNCONFIRMED in both channels and brings lockout with cause PSET, and channel B goes by it at
once (R404). The answer says whether the set was accepted. -/
def State.safeLoad (s : State) (set : List Byte) : State × Bool :=
  if setValid set then
    let s := s.modSafe fun c =>
      { c with sealed := false, a := { c.a with set := some set }, b := { c.b with set := some set } }
    (((s.discSince.showSet).safeFault causePset).bEvaluate, true)
  else (s, false)

/-- SAFE_CONFIRM (R422): both channels must be powered to hold their copies. -/
def State.safeConfirm (s : State) (check : Word) : State × Bool :=
  match s.safe.a.set with
  | some b =>
    if s.powered domSafa = true ∧ s.powered domSafb = true ∧ check = setCrcField b ∧ s.word A.SAFE_CRCA = check ∧ s.word A.SAFE_CRCB = check then
      ((s.modSafe fun c => { c with sealed := true }).showSet, true)
    else (s, false)
  | none => (s, false)

end Sys2Proof.Machine
end

