-- ==== Sys2Proof/Machine/Mtr.lean ====
section
/-!
DEFINITION. The legal metrology island (chapter 12, R369 to R398): energy, legal time, records and the legal log, the
mailbox, faults, supply loss and the billing port.
-/

namespace Sys2Proof.Machine

def State.modMtr (s : State) (f : Mtr → Mtr) : State := { s with mtr := f s.mtr }

/-- States of MTR.STAT.STATE. -/
def mtrInit : Nat := 0
def mtrRun : Nat := 1
def mtrParam : Nat := 2
def mtrInvalid : Nat := 3

def State.mtrState (s : State) : Nat := s.fget F.MTR_STAT_STATE

/-- Does the island measure and log: powered, in RUN or PARAM, and before a supply loss? -/
def State.mtrOn (s : State) : Bool := s.powered domMtr && s.mtr.measuring && !s.mtr.invalid

/-- Results of MTR.CMDRES. -/
def resOk : Nat := 0
def resState : Nat := 1
def resOrder : Nat := 2
def resRequester : Nat := 3
def resCover : Nat := 4
def resQueue : Nat := 5
def resTime : Nat := 6
def resRange : Nat := 7
def resInvalid : Nat := 8

/-- Parameters by PADDR. -/
def Mtr.par (m : Mtr) (a : Nat) : Nat := m.params.toList.getD a 0
def parVt : Nat := 0x00
def parCt : Nat := 0x01
def parDiv : Nat := 0x02
def parSens : Nat := 0x04
def parVsel : Nat := 0x0C
def parInterval : Nat := 0x0D
def parTie : Nat := 0x0E

/-- May a parameter hold a value ("Parameters and the PARAM state")? -/
def paramOk (a v : Nat) : Bool :=
  if a ≤ 1 then decide (100 ≤ v ∧ v ≤ 1000000)
  else if a ≤ 0x0B then decide (100 ≤ v ∧ v ≤ 100000)
  else if a = parVsel then decide (v < 256)
  else if a = parInterval then [1, 5, 10, 15, 30, 60].contains v
  else if a = parTie then decide (v ≤ 1)
  else a == 0x0F && decide (v / 256 ≤ 3 ∧ 1 ≤ v % 256 ∧ v % 256 ≤ 247)

/-- Index of the voltage channel of dispenser n: 6 for U1, 7 for U2. -/
def Mtr.uSel (m : Mtr) (n : Nat) : Nat := if (m.par parVsel).testBit (n - 1) then 7 else 6

/-- Channels that a record of CH c uses (R385). -/
def Mtr.chUses (m : Mtr) (c : Nat) : Nat :=
  if c = 0 then 0x3F else if c ≤ 8 then 2 ^ (7 + c) + 2 ^ m.uSel c else 0

/-- FLAGS bits of R385. -/
def flFault : Nat := 0x01
def flTunsync : Nat := 0x02
def flTinvalid : Nat := 0x04
def flCover : Nat := 0x08
def flRange : Nat := 0x10
def flVdisc : Nat := 0x20
def flGap : Nat := 0x40
def flLate : Nat := 0x80

/-- Flags that hold now for CH c; 9 stands for no channel. -/
def State.flagsNow (s : State) (c : Nat) : BitVec 16 :=
  BitVec.ofNat 16
    ((if s.flag F.MTR_STAT_FTIME || (s.fget F.MTR_FCHAN_FAIL &&& s.mtr.chUses c) != 0 then flFault else 0) +
     (if s.mtr.tunsync then flTunsync else 0) + (if s.mtr.tinvalid then flTinvalid else 0) +
     (if s.mtr.coverOpen || s.mtrState == mtrParam then flCover else 0))

/-- What holds now counts for the period of every record to come. -/
def State.mtrNote (s : State) : State :=
  s.modMtr fun m => { m with acc := Vector.ofFn fun c : Fin 10 => m.acc[c] ||| s.flagsNow c.val }

/-- A flag met by the records whose channels it touches. -/
def State.mtrMark (s : State) (chans flag : Nat) : State :=
  s.modMtr fun m => { m with acc := Vector.ofFn fun c : Fin 10 =>
    if (m.chUses c.val &&& chans) != 0 then m.acc[c] ||| BitVec.ofNat 16 flag else m.acc[c] }

/-- Index of a record's CH among the accumulated flags. -/
def chIdx (ch : Nat) : Fin 10 := if h : ch < 9 then ⟨ch, by omega⟩ else 9

/-- A register in whole Wh, truncated (R372). -/
def State.wh (s : State) (j : EnergyId) : Int := truncDiv (s.mtr.energy[j]) (2 ^ 20)

/-- Register numbers: 0 IMP, 1 EXP, 2 RES, 3 to 10 DEL, 11 to 18 RET. -/
def delIdx (n : Fin 8) : EnergyId := ⟨3 + n.val, by omega⟩
def retIdx (n : Fin 8) : EnergyId := ⟨11 + n.val, by omega⟩

/-- The dispenser that CH c names, counted from 0. -/
def dispenser (c : Nat) : Option (Fin 8) := if h : 1 ≤ c ∧ c ≤ 8 then some ⟨c - 1, by omega⟩ else none

/-- E1, E2 of an INTERVAL of CH c, and E4 (R384). -/
def State.chEnergies (s : State) (c : Nat) : Int × Int × Int :=
  match dispenser c with
  | none => (s.wh 0, s.wh 1, s.wh 2)
  | some n => (s.wh (delIdx n), s.wh (retIdx n),
      if s.mtr.sessOpen.getLsbD n.val then s.wh (delIdx n) - (s.mtr.sessE.getD n.val (0, 0)).1 else 0)

/-- A record of this instant, before it takes its sequence number (R384, R385). -/
def State.newRec (s : State) (kind ch : Nat) (e1 e2 e3 e4 : Int) : MtrRec where
  kind := BitVec.ofNat 8 kind
  flags := s.mtr.acc[chIdx ch] ||| s.flagsNow (chIdx ch).val
  rseq := 0
  mtime := s.mtr.mtime
  ch := BitVec.ofNat 8 ch
  session := match dispenser ch with
    | some n => s.mtr.sessNum[n]
    | none => 0
  e1 := e1
  e2 := e2
  e3 := e3
  e4 := e4
  prev := 0
  pset := BitVec.ofNat 16 s.mtr.psetNum
  corrupt := false
  commit := true

/-- The period that FLAGS of a record of CH covers ends here, and the next one begins with what holds now. -/
def State.flagsTaken (s : State) (ch : Nat) : State :=
  s.modMtr fun m => { m with acc := m.acc.set (chIdx ch) (s.flagsNow (chIdx ch).val) }

/-- Bytes 0 to 63 of a record (R384). -/
def MtrRec.head (r : MtrRec) : List Byte :=
  [0x01, r.kind] ++ bytesBE 2 r.flags.toNat ++ bytesBE 4 r.rseq ++ bytesBE 4 r.mtime ++ bytesBE 4 Config.meterId.toNat ++
  [r.ch, 0] ++ bytesBE 2 r.session.toNat ++ bytesBE 8 (unsignedOf 64 r.e1) ++ bytesBE 8 (unsignedOf 64 r.e2) ++
  bytesBE 8 (unsignedOf 64 r.e3) ++ bytesBE 8 (unsignedOf 64 r.e4) ++ bytesBE 8 r.prev.toNat ++
  bytesBE 2 Config.meterFirmware.toNat ++ bytesBE 2 r.pset.toNat

/-- The 128 bytes of a record (R384, R387). -/
def MtrRec.bytes (r : MtrRec) : List Byte := r.head ++ bytesBE 64 (Config.meterSignature r.head).toNat

/-- The number that bytes spell, most significant first. -/
def ofBytesBE (l : List Byte) : Nat := ofBytesLE l.reverse

/-- First 8 bytes of the SHA-256 of some bytes. -/
def digest8 (l : List Byte) : BitVec 64 := BitVec.ofNat 64 (ofBytesBE ((Config.sha256 l).take 8))

/-- PREV against the last logged record; 0 before the first one. -/
def Mtr.prevDigest (m : Mtr) : BitVec 64 :=
  match m.log.getLast? with
  | some r => digest8 r.bytes
  | none => 0

/-- Seal events (R384). -/
def MtrRec.seal (r : MtrRec) : Bool := decide (0x10 ≤ r.kind.toNat ∧ r.kind.toNat ≤ 0x14)

def Mtr.seals (m : Mtr) : Nat := (m.log.filter MtrRec.seal).length

/-- The log without its oldest non-seal record. -/
def dropOldest : List MtrRec → List MtrRec
  | [] => []
  | r :: t => if r.seal then r :: dropOldest t else t

/-- The log that a record is added to: a full one gives up its oldest non-seal record. -/
def Mtr.room (m : Mtr) : List MtrRec := if 65536 ≤ m.log.length then dropOldest m.log else m.log

/-- Check words of the record of an RSEQ: its 128 bytes and its commit word, wherever they lie in the partition. -/
def recWords (rseq : Nat) : List Nat := (List.range 17).map fun i => 0x11600000 + 8 * (Config.recordPlace rseq % 1310000 + i)

/-- A record enters the legal log with the next RSEQ, its commit word last (R388), over what its words held. -/
def State.pushRec (s : State) (r : MtrRec) : State :=
  let m := s.mtr
  let r := { r with rseq := m.rseq + 1, prev := m.prevDigest, commit := true }
  let s := s.modMtr fun m => { m with rseq := m.rseq + 1, log := m.room ++ [r] }
  let s := { s with ecc := s.ecc.filter fun e => !(recWords r.rseq).contains e.1 }
  (s.fset F.MTR_RSEQ_SEQ s.mtr.rseq).fset F.MTR_PSET_SEALS s.mtr.seals

/-- The island enters INVALID: it measures and logs nothing more (R389, R393). -/
def State.enterInvalid (s : State) : State :=
  (s.modMtr fun m => { m with invalid := true, measuring := false }).fset F.MTR_STAT_STATE mtrInvalid

/-- A signature fails its own verification: the record is not written, and the island enters INVALID, which logs nothing (R393). -/
def State.keyFault (s : State) : State :=
  (((s.modMtr fun m => { m with fkey := true }).fset F.MTR_STAT_FKEY 1).enterInvalid).raise srcMtrFault

/-- E1 of a FAULT record: the fault bits and MTR.FCHAN. -/
def State.faultCause (s : State) : Int := ((s.word A.MTR_STAT).toNat / 2 ^ 16 % 16 * 2 ^ 16 + s.fget F.MTR_FCHAN_FAIL : Nat)

/-- A record is signed, verified (R387) and written; the 4,096th seal place takes SEAL_FULL and ends the log (R388, R389), and FLOG ends with the
overwriting of the last CORRUPT record (R393). -/
def State.writeRec (s : State) (r : MtrRec) : State :=
  if s.mtr.invalid then s
  else if s.mtr.signBad then s.keyFault
  else if r.seal && s.mtr.seals == 4095 then (s.pushRec { r with kind := 0x14, e1 := 0, e2 := 0, e3 := 0, e4 := 0 }).enterInvalid
  else
    let s := s.pushRec r
    if s.flag F.MTR_STAT_FLOG && !s.mtr.log.any (·.corrupt) then
      let s := s.fset F.MTR_STAT_FLOG 0
      (s.flagsTaken 0xFF).pushRec (s.newRec 0x07 0xFF (2 ^ 18) 0 0 0)
    else s

/-- A record's bytes in MTR.LRECw. -/
def State.loadLrec (s : State) (r : MtrRec) : State :=
  let s := (List.range 32).foldl (fun (acc : State × List Byte) w =>
    (acc.1.setWord (A.MTR_LREC w) (BitVec.ofNat 32 (ofBytesBE (acc.2.take 4))), acc.2.drop 4)) (s, r.bytes) |>.1
  (s.fset F.MTR_LSTAT_READY 1).fset F.MTR_LSTAT_ABSENT 0

def State.cmdResult (s : State) (req code res : Nat) : State :=
  ((s.fset F.MTR_CMDRES_CODE code).fset F.MTR_CMDRES_REQ req).fset F.MTR_CMDRES_RESULT res

/-- A READOUT carries the RSEQ and the digest of the last logged record (R384). -/
def State.asReadout (s : State) (r : MtrRec) : MtrRec := { r with rseq := s.mtr.rseq, prev := s.mtr.prevDigest }

/-- A queued command completes (R383): its record is signed and written, or returned for a READOUT. -/
def State.mtrComplete (s : State) (c : MtrCmd) : State :=
  if s.mtr.invalid then s.cmdResult (reqCode c.req) c.code.toNat resInvalid
  else
    let s := match c.recd with
      | none => s
      | some r => if c.code = 0x03 then (if s.mtr.signBad then s.keyFault else s.loadLrec (s.asReadout r)) else s.writeRec r
    s.cmdResult (reqCode c.req) c.code.toNat (if s.mtr.fkey then resInvalid else resOk)

/-- The records of a snapshot taken are written: they come before every later record (R380, R382). -/
def State.mtrFlush (s : State) : State :=
  s.mtr.snap.foldl (fun s r => s.writeRec r) (s.modMtr fun m => { m with snap := [] })

/-- Queued commands complete in order while a condition holds of the next one (R382). -/
def State.mtrDrain (s : State) (p : MtrCmd → Bool) : State :=
  let s := s.mtrFlush
  let due := s.mtr.queue.takeWhile p
  let s := s.modMtr fun m => { m with queue := m.queue.drop due.length }
  due.foldl (fun s c => s.mtrComplete c) s

/-- A record of this instant is made and written. -/
def State.mtrWrite (s : State) (kind ch : Nat) (e1 e2 e3 e4 : Int) : State :=
  let r := s.newRec kind ch e1 e2 e3 e4
  (s.flagsTaken ch).writeRec r

/-- A record that no command asked for: records are written in the order of their instants (R382). -/
def State.mtrLog (s : State) (kind ch : Nat) (e1 e2 e3 e4 : Int) : State :=
  (s.mtrDrain fun _ => true).mtrWrite kind ch e1 e2 e3 e4

/-- A sample's value of a channel, in units of full scale over 2^23. -/
def mtrValue (codes : List Int) (c : Nat) : Int := codes.getD c 0 * (Config.meterFullScale c : Int)

/-- The products of R372 for one sample: MV, then D1 to D8, with the ratios of the set in force. -/
def Mtr.products (m : Mtr) (codes : List Int) : List Int :=
  let x := mtrValue codes
  ((m.par parVt * m.par parCt : Nat) : Int) * (x 0 * x 3 + x 1 * x 4 + x 2 * x 5) ::
  (List.range 8).map fun n =>
    let u := m.uSel (n + 1)
    ((m.par (parDiv + (u - 6)) * m.par (parSens + n) : Nat) : Int) * (x u * x (8 + n))

/-- W per unit of the products: ratios in 0.01, inputs in nV or nA at code 2^23. -/
def productScale : Int := 10000 * 10 ^ 18 * 2 ^ 46

/-- Units of the clock in a second, and in a millisecond. -/
def subSecond : Nat := 160000000
def subMs : Nat := 160000

/-- Largest adjustment of an MTIME day, 2 s (R376). -/
def dayBudget : Nat := 2 * subSecond

/-- Seconds of an MTIME day. -/
def daySec : Nat := 86400

/-- The MTIME day in which the island last moved its clock is over: its TIME_ADJ, and a new budget (R376, R377). -/
def State.dayOver (s : State) : State :=
  if s.mtr.mtime / daySec = s.mtr.dayNo then s
  else
    let s := if s.mtr.dayUsed = 0 then s else s.mtrLog 0x04 0xFF (truncDiv s.mtr.dayTotal subMs) 0 0 0
    (s.modMtr fun m => { m with dayTotal := 0, dayUsed := 0, dayNo := m.mtime / daySec }).fset F.MTR_TADJ_USED 0

/-- One sample of the clock: 125 µs, and at most 50 ppm of it toward removing d, within the day's budget (R375, R376). -/
def State.mtrClock (s : State) : State :=
  let s := s.dayOver
  let m := s.mtr
  if m.slewLeft = 0 ∨ dayBudget ≤ m.dayUsed then s.modMtr fun m => { m with sub := m.sub + 20000, count := m.count + 20000 }
  else
    let d : Int := if 0 < m.slewLeft then 1 else -1
    let s := s.modMtr fun m =>
      { m with
        sub := (m.sub + 20000 + d).toNat
        count := m.count + 20000
        slewLeft := m.slewLeft - d
        dayTotal := m.dayTotal + d
        dayUsed := m.dayUsed + 1 }
    s.fset F.MTR_TADJ_USED (s.mtr.dayUsed / subMs)

/-- Channels at either end of the 24-bit range (R371). -/
def rangeMask (codes : List Int) : Nat :=
  (List.range 16).foldl (fun m c => if codes.getD c 0 ≤ -8388608 ∨ 8388607 ≤ codes.getD c 0 then m + 2 ^ c else m) 0

/-- Mean of the products of R372 over the last samples, in W. -/
def meanPower (recent : List (List Int)) (k : Nat) : Int :=
  truncDiv ((recent.map fun p => p.getD k 0).foldl (· + ·) 0) ((recent.length : Int) * productScale)

/-- MTR_SAMPLE (R371, R372). -/
def execMtrSample (codes : List Int) (s : State) : Res :=
  let s := s.fresh
  if s.mtrOn then
    let s := s.mtrClock
    let p := s.mtr.products codes
    let ovr := rangeMask codes
    let s := if ovr = 0 then s else s.mtrMark ovr flRange
    let s := s.modMtr fun m =>
      { m with
        sums := List.zipWith (· + ·) m.sums p
        usums := (m.usums.1 + (m.par parDiv : Int) * mtrValue codes 6, m.usums.2 + (m.par (parDiv + 1) : Int) * mtrValue codes 7)
        recent := p :: m.recent.take 159
        rangeCh := m.rangeCh ||| BitVec.ofNat 16 ovr }
    .next (s.each (List.range 9) fun k s => s.fsetI (F.MTR_P_POWER k) (meanPower s.mtr.recent k))
  else .next s

/-- Energy of one second in 2^-20 Wh, from the sum of its products (R372). -/
def secondEnergy (sum : Int) : Int := truncDiv (sum * 2 ^ 20) (8000 * 3600 * productScale)

/-- RES of R372. -/
def resOf (e : Vector Int 19) : Int :=
  (List.finRange 8).foldl (fun r n => r - e[delIdx n] + e[retIdx n]) (e[0] - e[1])

/-- The registers after one second (R372). -/
def addEnergy (e : Vector Int 19) (sums : List Int) : Vector Int 19 :=
  let add (e : Vector Int 19) (pos neg : EnergyId) (v : Int) : Vector Int 19 :=
    if 0 ≤ v then e.set pos (e[pos] + v) else e.set neg (e[neg] - v)
  let e := add e 0 1 (secondEnergy (sums.getD 0 0))
  let e := (List.finRange 8).foldl (fun e n => add e (delIdx n) (retIdx n) (secondEnergy (sums.getD (n.val + 1) 0))) e
  e.set 2 (resOf e)

def State.showEnergies (s : State) : State :=
  s.each (List.finRange 19) fun j s => s.fsetI (F.MTR_EL_E j) (s.wh j)

/-- U1 and U2 differ by more than 0.5 % of the larger magnitude over a second (R374). -/
def Mtr.vdiscNow (m : Mtr) : Bool :=
  m.par parTie == 1 && decide (max m.usums.1.natAbs m.usums.2.natAbs < (m.usums.1 - m.usums.2).natAbs * 200)

/-- A second of measurement ends (R371, R372, R374). -/
def State.mtrSecond (s : State) : State :=
  let v := s.mtr.vdiscNow
  let s := if v then s.mtrMark 0xFF00 flVdisc else s
  let s := (s.fset F.MTR_STAT_RANGE (if s.mtr.rangeCh = 0 then 0 else 1)).fset F.MTR_STAT_VDISC (if v then 1 else 0)
  let s := s.modMtr fun m =>
    { m with
      energy := addEnergy m.energy m.sums
      sums := List.replicate 9 0
      usums := (0, 0)
      rangeCh := 0 }
  s.showEnergies

/-- A new parameter set governs from here (R392). -/
def State.takeSet (s : State) : State := s.modMtr fun m => { m with params := m.nextP.getD m.params, nextP := none }

/-- The clock reaches the end of its second: what of the second no sample has counted has passed too, and what the samples have
counted beyond it stays in the new second (R375). -/
def Mtr.nextSecond (m : Mtr) : Mtr :=
  { m with mtime := (m.mtime + 1) % 2 ^ 32, sub := m.sub - subSecond, count := m.count + (subSecond - m.sub) }

/-- One record of a snapshot (R380, R384, R394): GAP on the first INTERVAL after power-up. -/
def State.snapRec (s : State) (c : Nat) : State :=
  let (e1, e2, e4) := s.chEnergies c
  let r := s.newRec 0x01 c e1 e2 (e1 - s.mtr.lastIntv.getD c 0) e4
  let r := if s.mtr.gapCh.getLsbD c then { r with flags := r.flags ||| BitVec.ofNat 16 flGap } else r
  (s.flagsTaken c).modMtr fun m =>
    { m with snap := m.snap ++ [r], lastIntv := m.lastIntv.set c e1, gapCh := m.gapCh &&& ~~~BitVec.twoPow 9 c }

/-- Is a snapshot due at this MTIME (R380)? -/
def State.snapDue (s : State) : Bool :=
  s.mtrOn && s.mtr.mtime % (60 * s.mtr.par parInterval) == 0 && s.mtr.lastSnap != some s.mtr.mtime

/-- A snapshot is taken (R380, R382): commands of earlier instants are written before it, those of this instant after it. -/
def State.takeSnap (s : State) : State :=
  if s.snapDue then
    let now := s.mtr.mtime
    let s := s.mtrDrain fun c => match c.recd with
      | some r => decide (r.mtime ≠ now)
      | none => true
    (s.each (List.range 9) fun c s => s.snapRec c).modMtr fun m => { m with lastSnap := some now }
  else s

/-- ENERGY_SECOND (R372, R375, R379, R380): MTIME counts on from the backup store without the domain. -/
def execEnergySecond (s : State) : Res :=
  let s := s.fresh
  if !s.powered domMtr && s.mtr.backupOut then .next s
  else
    let s := s.modMtr Mtr.nextSecond
    let s := ((if s.mtrOn then s.mtrSecond else s).takeSet).takeSnap
    if s.powered domMtr then .next (s.fset F.MTR_MTIME_SEC s.mtr.mtime) else .next s

/-- INTERVAL_SNAPSHOT (R380, R382): the snapshot, where the second has not taken it, and its nine records. `bad`: a signature fails
its own verification (R387, R393). -/
def execIntervalSnapshot (s : State) (bad : Bool := false) : Res :=
  let s := s.fresh
  if s.mtrOn then .next ((s.takeSnap.modMtr fun m => { m with signBad := m.signBad || bad }).mtrFlush) else .next s

/-- The island's own time in ns. -/
def Mtr.nowNs (m : Mtr) : Int := (m.mtime * 1000000000 + m.sub * 25 / 4 : Nat)

def State.setTunsync (s : State) (on : Bool) : State :=
  let s := s.mtrNote.modMtr fun m => { m with tunsync := on }
  (if s.powered domMtr then s.fset F.MTR_STAT_TUNSYNC (if on then 1 else 0) else s).mtrNote

/-- TIME_PAIR_RECEIVED (R376, R378). -/
def execTimePairReceived (gtimeNs : Nat) (target : Int) (s : State) : Res :=
  let s := s.fresh
  if s.mtrOn then
    let ns := gtimeNs % 1000000000
    let d := truncDiv (target * 1000000000 + ns - s.mtr.nowNs) 1000000
    let s := s.modMtr fun m =>
      { m with lastPair := some (target, ns), pairAt := m.count, lastD := d, slewLeft := d * subMs }
    let s := s.fsetI F.MTR_TADJ_D (clampInt (-32768) 32767 d)
    .next (s.setTunsync (decide (1000 < d.natAbs)))
  else .next s

/-- STEP_SEEN (R377). -/
def execStepSeen (theta : Int) (gtimeSec : Nat) (s : State) : Res :=
  let s := s.fresh
  .next (if s.mtrOn then s.mtrLog 0x05 0xFF theta gtimeSec 0 0 else s)

/-- MTIME_DAY_END (R376, R377): at MTIME 00:00:00. -/
def execMtimeDayEnd (s : State) : Res :=
  let s := s.fresh
  .next (if s.mtrOn && s.mtr.mtime % daySec == 0 then s.dayOver else s)

/-- UNSYNC_TIMEOUT (R378), without the domain too. -/
def execUnsyncTimeout (s : State) : Res := .next (s.fresh.setTunsync true)

/-- A refused mailbox command or parameter write (R398). -/
def State.mtrRefuse (s : State) (req : Requester) (code res : Nat) : State := s.cmdResult (reqCode req) code res

/-- A command that passes its own checks finds room in the queue, or QUEUE (R383); `f` is its effect at acceptance and
the record it will write. -/
def State.mtrAccept (s : State) (req : Requester) (code : Nat) (f : State → Option MtrRec × State) : State :=
  if 16 ≤ s.mtr.queue.length then s.mtrRefuse req code resQueue
  else
    let (r, s) := f s
    s.modMtr fun m => { m with queue := m.queue ++ [⟨req, BitVec.ofNat 8 code, r⟩] }

/-- A write of MTR.PDATA is served (R398): in PARAM and from the service port only. -/
def State.pdataServe (s : State) (req : Requester) (v : Nat) : State :=
  let a := s.fget F.MTR_PADDR_ADDR
  if s.mtr.invalid then s.mtrRefuse req 0 resInvalid
  else if s.mtrState ≠ mtrParam then s.mtrRefuse req 0 resState
  else if req ≠ .host 2 then s.mtrRefuse req 0 resRequester
  else if paramOk a v then s.modMtr fun m => { m with pendingP := m.pendingP.setIfInBounds a v }
  else (s.mtrRefuse req 0 resRange).raise srcParamRange

/-- A record in the log is found CORRUPT: a FAULT names its RSEQ, and FLOG stays set until it is overwritten (R390, R393). -/
def State.markCorrupt (s : State) (rseq : Nat) : State :=
  if s.mtr.log.any fun r => r.rseq == rseq && !r.corrupt then
    let s := s.modMtr fun m => { m with log := m.log.map fun r => if r.rseq = rseq then { r with corrupt := true } else r }
    if s.mtrOn then
      let s := (s.fset F.MTR_STAT_FLOG 1).mtrNote
      (s.mtrLog 0x06 0xFF s.faultCause rseq 0 0).raise srcMtrFault
    else s
  else s

/-- The island reads a record of its log (R443, R444): requester 0x28, and an uncorrectable error makes the record CORRUPT. -/
def State.readStored (s : State) (rseq : Nat) : Option MtrRec × State :=
  match s.mtr.log.find? (fun r => r.rseq == rseq) with
  | none => (none, s)
  | some r =>
    let (s, ok) := if s.powered domSafa then s.checkReads .mram 0x28 (recWords rseq)
      else (s, (recWords rseq).all fun w => eccAt s.ecc w != some .ue)
    if ok then (some r, s) else (some { r with corrupt := true }, s.markCorrupt rseq)

/-- A write of MTR.LSEL is served: the logged record enters MTR.LRECw (R388). -/
def State.lselServe (s : State) : State :=
  match s.readStored (s.fget F.MTR_LSEL_SEQ) with
  | (some r, s) => if r.corrupt then (s.fset F.MTR_LSTAT_READY 0).fset F.MTR_LSTAT_ABSENT 1 else s.loadLrec r
  | (none, s) => (s.fset F.MTR_LSTAT_READY 0).fset F.MTR_LSTAT_ABSENT 1

/-- The island serves its mailbox, every 1 ms: its LIVE values take effect, PADDR before PDATA (R8). The manual does not give the
phase of the service: the model serves at whole milliseconds of the module's count of time, and with every command that it
accepts or executes (DESIGN CHOICE, log entry 49). -/
def State.mtrService (s : State) : State :=
  if s.powered domMtr then
    let sel := s.live.any fun e => e.1 == A.MTR_LSEL
    let s := s.applyLiveBlock 16
    let data := s.mtr.pdata
    let s := s.modMtr fun m => { m with pdata := none, served := s.ticks / ms }
    let s := if sel then s.lselServe else s
    match data with
    | some (req, v) => s.pdataServe req v
    | none => s
  else s

/-- A service that time has brought since the last one. -/
def State.mtrDue (s : State) : State := if s.ticks / ms = s.mtr.served then s else s.mtrService

/-- A mailbox command reaches the island, which serves its mailbox first: INVALID and INIT refuse every command. -/
def State.mtrCommand (s : State) (req : Requester) (code : Nat) (k : State → State) : State :=
  let s := s.mtrService
  if !s.powered domMtr then s.emit (.busError req A.MTR_CMD)
  else if s.mtr.invalid then s.mtrRefuse req code resInvalid
  else if !s.mtr.measuring then s.mtrRefuse req code resState
  else k s

/-- The session register of a dispenser (MTR.SESSn). -/
def State.showSession (s : State) (n : Fin 8) : State :=
  (s.fset (F.MTR_SESS_OPEN n) (if s.mtr.sessOpen.getLsbD n.val then 1 else 0)).fset (F.MTR_SESS_NUM n) (s.mtr.sessNum[n]).toNat

/-- SESS_START (R381, R382): the session is open, with its number and start values, from acceptance. -/
def State.sessStart (s : State) (req : Requester) (arg : Nat) : State :=
  s.mtrCommand req 0x01 fun s =>
    match dispenser arg with
    | none => s.mtrRefuse req 0x01 resRange
    | some n =>
      if s.mtr.sessOpen.getLsbD n.val then s.mtrRefuse req 0x01 resOrder
      else s.mtrAccept req 0x01 fun s =>
        let s := s.modMtr fun m =>
          { m with
            sessOpen := m.sessOpen ||| BitVec.twoPow 8 n.val
            sessNum := m.sessNum.set n (m.sessNum[n] + 1)
            sessE := m.sessE.set n.val (s.wh (delIdx n), s.wh (retIdx n)) }
        (some (s.newRec 0x02 arg (s.wh (delIdx n)) (s.wh (retIdx n)) 0 0), (s.showSession n).flagsTaken arg)

/-- The SESSION_END record of a dispenser, and its session closed. -/
def State.closeSession (s : State) (n : Fin 8) : MtrRec × State :=
  let (d0, r0) := s.mtr.sessE.getD n.val (0, 0)
  let d := s.wh (delIdx n)
  let r := s.wh (retIdx n)
  let e := s.newRec 0x03 (n.val + 1) d r (d - d0) (r - r0)
  (e, ((s.modMtr fun m => { m with sessOpen := m.sessOpen &&& ~~~BitVec.twoPow 8 n.val }).showSession n).flagsTaken (n.val + 1))

/-- SESS_END (R381, R382). -/
def State.sessEnd (s : State) (req : Requester) (arg : Nat) : State :=
  s.mtrCommand req 0x02 fun s =>
    match dispenser arg with
    | none => s.mtrRefuse req 0x02 resRange
    | some n =>
      if s.mtr.sessOpen.getLsbD n.val then s.mtrAccept req 0x02 fun s => ((some (s.closeSession n).1), (s.closeSession n).2)
      else s.mtrRefuse req 0x02 resOrder

/-- A READOUT record of a channel at this instant (R384). -/
def State.readoutRec (s : State) (c : Nat) : MtrRec :=
  let (e1, e2, e4) := s.chEnergies c
  s.newRec 0x08 c e1 e2 (e1 - s.mtr.lastIntv.getD c 0) e4

/-- READOUT command. -/
def State.mtrReadout (s : State) (req : Requester) (arg : Nat) : State :=
  s.mtrCommand req 0x03 fun s =>
    if 8 < arg then s.mtrRefuse req 0x03 resRange
    else s.mtrAccept req 0x03 fun s => (some (s.readoutRec arg), s)

/-- PARAM_ENTER (R391). -/
def State.paramEnter (s : State) (req : Requester) : State :=
  s.mtrCommand req 0x10 fun s =>
    if s.mtrState ≠ mtrRun then s.mtrRefuse req 0x10 resState
    else if req ≠ .host 2 then s.mtrRefuse req 0x10 resRequester
    else if !s.mtr.coverOpen then s.mtrRefuse req 0x10 resCover
    else s.mtrAccept req 0x10 fun s =>
      (none, ((s.modMtr fun m => { m with pendingP := m.nextP.getD m.params }).fset F.MTR_STAT_STATE mtrParam).mtrNote)

/-- The bytes of a parameter set, four for each value. -/
def paramBytes (p : Vector Nat 16) : List Byte := (p.toList.map (bytesBE 4)).flatten

/-- The end of PARAM (R392), with the PARAM_CHANGE record when a value has changed. -/
def State.endParam (s : State) : Option MtrRec × State :=
  let s := (s.mtrNote).fset F.MTR_STAT_STATE mtrRun
  let m := s.mtr
  let old := m.nextP.getD m.params
  if m.pendingP = old then (none, s)
  else
    let s := s.modMtr fun m => { m with psetNum := (m.psetNum + 1) % 2 ^ 16, nextP := some m.pendingP }
    let r := s.newRec 0x12 0xFF s.mtr.psetNum (digest8 (paramBytes m.pendingP)).toInt (digest8 (paramBytes old)).toInt 0
    (some r, (s.fset F.MTR_PSET_NUM s.mtr.psetNum).flagsTaken 0xFF)

/-- PARAM_EXIT (R392). -/
def State.paramExit (s : State) (req : Requester) : State :=
  s.mtrCommand req 0x11 fun s =>
    if s.mtrState ≠ mtrParam then s.mtrRefuse req 0x11 resState
    else s.mtrAccept req 0x11 State.endParam

/-- MTIME takes the target of the last pair (R379); an MTIME met again is met with a snapshot of its own (R380). -/
def State.setMtime (s : State) (target : Int) (ns : Nat) : State :=
  let s := s.mtrNote.modMtr fun m =>
    { m with mtime := target.toNat % 2 ^ 32, sub := ns * 4 / 25, slewLeft := 0, tinvalid := false, lastSnap := none }
  (s.fset F.MTR_MTIME_SEC s.mtr.mtime).fset F.MTR_STAT_TINVALID 0

/-- TIME_SET (R379): in PARAM only, and while the last pair is less than 120 s old by the crystal's own count. -/
def State.timeSet (s : State) (req : Requester) : State :=
  s.mtrCommand req 0x12 fun s =>
    if s.mtrState ≠ mtrParam then s.mtrRefuse req 0x12 resState
    else
      match s.mtr.lastPair with
      | none => s.mtrRefuse req 0x12 resTime
      | some (target, ns) =>
        if s.mtr.count < s.mtr.pairAt + 120 * subSecond then
          s.mtrAccept req 0x12 fun s =>
            let before := s.mtr.mtime
            let s := s.setMtime target ns
            (some (s.newRec 0x13 0xFF before s.mtr.mtime 0 0), s.flagsTaken 0xFF)
        else s.mtrRefuse req 0x12 resTime

/-- A write of MTR.CMD (R398). -/
def State.mtrCmd (s : State) (req : Requester) (code arg : Nat) : State :=
  match code with
  | 0x01 => s.sessStart req arg
  | 0x02 => s.sessEnd req arg
  | 0x03 => s.mtrReadout req arg
  | 0x10 => s.paramEnter req
  | 0x11 => s.paramExit req
  | 0x12 => s.timeSet req
  | _ => s.mtrCommand req code fun s => s.mtrRefuse req code resOrder

def execSessStart (req : Requester) (arg : BitVec 8) (s : State) : Res := .next (s.fresh.sessStart req arg.toNat)
def execSessEnd (req : Requester) (arg : BitVec 8) (s : State) : Res := .next (s.fresh.sessEnd req arg.toNat)
def execMtrReadout (req : Requester) (arg : BitVec 8) (s : State) : Res := .next (s.fresh.mtrReadout req arg.toNat)
def execParamEnter (req : Requester) (s : State) : Res := .next (s.fresh.paramEnter req)
def execParamExit (req : Requester) (s : State) : Res := .next (s.fresh.paramExit req)
def execTimeSet (req : Requester) (s : State) : Res := .next (s.fresh.timeSet req)

/-- MTR_CMD_UNDEFINED (R398). -/
def execMtrCmdUndefined (req : Requester) (code : BitVec 8) (s : State) : Res := .next (s.fresh.mtrCmd req code.toNat 0)

/-- MTR_COMMAND_EXECUTE (R382, R383): after the records of a snapshot taken before it. `bad`: a signature fails its own
verification (R387, R393). -/
def execMtrCommandExecute (s : State) (bad : Bool := false) : Res :=
  let s := s.fresh
  if s.mtrOn then
    let s := s.mtrService
    match s.mtr.queue with
    | [] => .next s
    | c :: t =>
      let s := s.modMtr fun m => { m with queue := t, signBad := m.signBad || bad }
      .next (s.mtrFlush.mtrComplete c)
  else .next s

/-- A write of MTR.PDATA waits for the island's next service (R8, R398), a later one replaces it. -/
def State.pdataWrite (s : State) (req : Requester) (v : Nat) : State :=
  let s := s.mtrDue
  if !s.powered domMtr then s.emit (.busError req A.MTR_PDATA)
  else s.modMtr fun m => { m with pdata := some (req, v) }

def execPdataWrite (req : Requester) (v : Word) (s : State) : Res := .next (s.fresh.pdataWrite req v.toNat)

/-- A write of MTR.LSEL waits for the island's next service (R8). -/
def State.lselWrite (s : State) (req : Requester) (v : Nat) : State :=
  let s := s.mtrDue
  if !s.powered domMtr then s.emit (.busError req A.MTR_LSEL) else s.pendLive A.MTR_LSEL (BitVec.ofNat 32 v)

def execLselWrite (req : Requester) (v : Word) (s : State) : Res := .next (s.fresh.lselWrite req v.toNat)

/-- A read of MTR.ELj latches bits [63:32] into MTR.EHj. -/
def State.latchEnergy (s : State) (j : EnergyId) : State :=
  if s.mtrState = mtrInit then s else s.fset (F.MTR_EH_E j) (unsignedOf 64 (s.wh j) / 2 ^ 32)

/-- COVER_OPEN (R391). -/
def execCoverOpen (s : State) : Res :=
  let s := s.fresh
  if s.mtr.coverOpen then .next s
  else
    let s := s.modMtr fun m => { m with coverOpen := true }
    let s := if s.powered domMtr then s.fset F.MTR_STAT_COVER 1 else s
    .next (if s.mtrOn then s.mtrNote.mtrLog 0x10 0xFF 0 0 0 0 else s)

/-- COVER_CLOSE (R391, R392). -/
def execCoverClose (s : State) : Res :=
  let s := s.fresh
  if !s.mtr.coverOpen then .next s
  else
    let s := s.mtrNote.modMtr fun m => { m with coverOpen := false }
    let s := if s.powered domMtr then s.fset F.MTR_STAT_COVER 0 else s
    if s.mtrOn then
      let s := s.mtrLog 0x11 0xFF 0 0 0 0
      if s.mtrState = mtrParam then
        match s.endParam with
        | (some r, s) => .next (s.writeRec r)
        | (none, s) => .next s
      else .next s
    else .next s

/-- CH of a FAULT or FAULT_END: that of the one kind of record that uses the failing channels, else 0xFF (DESIGN CHOICE, log entry
53: the manual gives "CH or 0xFF" and not when it is which). -/
def Mtr.faultCh (m : Mtr) (chans : Nat) : Nat :=
  match (List.range 9).filter fun c => m.chUses c &&& chans != 0 with
  | [c] => c
  | _ => 0xFF

/-- A fault bit of MTR.STAT begins: FAULT and MTR_FAULT (R393). -/
def State.mtrFaultOn (s : State) (f : Fld) (ch : Nat) : State :=
  if s.flag f then s
  else
    let s := (s.fset f 1).mtrNote
    (s.mtrLog 0x06 ch s.faultCause 0 0 0).raise srcMtrFault

/-- A fault bit ends: FAULT_END with the causes ended (R393). -/
def State.mtrFaultOff (s : State) (f : Fld) (ch : Nat) (cause : Int) : State :=
  if s.flag f then (s.mtrNote.fset f 0).mtrLog 0x07 ch cause 0 0 0 else s

/-- MTR_SELF_TEST (R393): a channel's failure ends after 10 consecutive passes. -/
def execMtrSelfTest (failing : BitVec 16) (s : State) : Res :=
  let s := s.fresh
  if s.mtrOn then
    let old := BitVec.ofNat 16 (s.fget F.MTR_FCHAN_FAIL)
    let s := s.modMtr fun m =>
      { m with passes := Vector.ofFn fun c : Fin 16 => if failing.getLsbD c.val then 0 else m.passes[c] + 1 }
    let new := (List.finRange 16).foldl (fun (v : BitVec 16) c =>
      if failing.getLsbD c.val || (old.getLsbD c.val && decide (s.mtr.passes[c] < 10)) then v ||| BitVec.twoPow 16 c.val else v) 0
    let s := (s.mtrNote.fset F.MTR_FCHAN_FAIL new.toNat).mtrNote
    .next (if new = 0 then s.mtrFaultOff F.MTR_STAT_FMEAS (s.mtr.faultCh old.toNat) (2 ^ 16 + (old.toNat : Int))
      else s.mtrFaultOn F.MTR_STAT_FMEAS (s.mtr.faultCh new.toNat))
  else .next s

/-- CRYSTAL_CHECK (R393): FTIME ends after 60 s, six windows, within 100 ppm. -/
def execCrystalCheck (ppm : Nat) (s : State) : Res :=
  let s := s.fresh
  if s.mtrOn then
    if 100 < ppm then .next ((s.modMtr fun m => { m with crystalOk := 0 }).mtrFaultOn F.MTR_STAT_FTIME 0xFF)
    else
      let s := s.modMtr fun m => { m with crystalOk := m.crystalOk + 1 }
      .next (if 6 ≤ s.mtr.crystalOk then s.mtrFaultOff F.MTR_STAT_FTIME 0xFF (2 ^ 17) else s)
  else .next s

/-- An uncorrectable error in a word of the island's partition: a record that the word belongs to is CORRUPT (R390). -/
def State.mtrCorrupt (s : State) (w : Nat) : State :=
  s.each ((s.mtr.log.filter fun r => (recWords r.rseq).contains w).map (·.rseq)) fun q s => s.markCorrupt q

/-- Does a queued command still have a record to log, which an accepted change always gets (R369)? -/
def MtrCmd.logs (c : MtrCmd) : Bool := c.recd.isSome && c.code != 0x03

/-- The legal log closes (R28, R379): the record being signed is written, then POWER_DOWN, and measurement ends. What else waits for
its record is stored, and written after power-up (R369, R394). -/
def State.mtrClose (s : State) : State :=
  if s.mtrOn then
    let s := match s.mtr.snap, s.mtr.queue with
      | r :: t, _ => (s.modMtr fun m => { m with snap := t }).writeRec r
      | [], c :: t => (s.modMtr fun m => { m with queue := t }).mtrComplete c
      | [], [] => s
    (s.mtrWrite 0x20 0 (s.wh 0) (s.wh 1) (s.wh 2) 0).modMtr fun m =>
      { m with
        measuring := false
        downMtime := m.mtime
        lossMtime := m.mtime
        backupOut := false
        queue := m.queue.filter MtrCmd.logs }
  else s

/-- MTR_SUPPLY_LOSS (R28, R379). -/
def execMtrSupplyLoss (s : State) : Res := .next s.fresh.mtrClose

/-- The registers that show the island's lasting state. -/
def State.showMtr (s : State) : State :=
  let m := s.mtr
  let s := ((s.setWord A.MTR_ID Config.meterId).fset F.MTR_RSEQ_SEQ m.rseq).fset F.MTR_MTIME_SEC m.mtime
  let s := (s.fset F.MTR_PSET_NUM m.psetNum).fset F.MTR_PSET_SEALS m.seals
  let s := (s.fset F.MTR_STAT_TINVALID (if m.tinvalid then 1 else 0)).fset F.MTR_STAT_TUNSYNC (if m.tunsync then 1 else 0)
  let s := (s.fset F.MTR_STAT_COVER (if m.coverOpen then 1 else 0)).fset F.MTR_STAT_FLOG (if m.log.any (·.corrupt) then 1 else 0)
  let s := ((s.fset F.MTR_FCHAN_FAIL m.fail.toNat).fset F.MTR_STAT_FMEAS (if m.fail = 0 then 0 else 1)).fset F.MTR_STAT_FTIME (if m.ftime then 1 else 0)
  let s := (s.fset F.MTR_STAT_FKEY (if m.fkey then 1 else 0)).fset F.MTR_TADJ_USED (m.dayUsed / subMs)
  let s := s.fsetI F.MTR_TADJ_D (clampInt (-32768) 32767 m.lastD)
  s.each (List.finRange 8) fun n s => s.showSession n

/-- A record written after power-up for an instant before it (R385). -/
def MtrRec.late (r : MtrRec) : MtrRec := { r with flags := r.flags ||| BitVec.ofNat 16 flLate }

/-- What the island is when it starts (R375, R378, R379, R390): records without a commit word erased; MTIME as the backup store kept
it, or that of the loss. Without the store the time since is unknown, and no pair counts as accepted within 24 h. -/
def Mtr.wake (m : Mtr) : Mtr :=
  { m with
    log := m.log.filter (·.commit)
    mtime := if m.backupOut then m.lossMtime else m.mtime
    sub := if m.backupOut then 0 else m.sub
    tinvalid := m.tinvalid || m.backupOut
    tunsync := m.tunsync || m.backupOut || decide (m.pairAt + daySec * subSecond ≤ m.count)
    lastPair := if m.backupOut then none else m.lastPair
    backupOut := false
    measuring := true
    sums := List.replicate 9 0
    usums := (0, 0)
    recent := []
    rangeCh := 0
    passes := Vector.replicate 16 0
    crystalOk := 0
    snap := m.snap.map MtrRec.late
    queue := m.queue.map fun c => { c with recd := c.recd.map MtrRec.late } }

/-- MTR_POWER_UP (R379, R389, R390, R394): POWER_UP, the open sessions' SESSION_END, and with LATE what waited for its record; a
TIME_ADJ of a day that has ended comes last (R377). -/
def execMtrPowerUp (s : State) : Res :=
  let s := s.fresh
  if s.powered domMtr && s.mtrState == mtrInit then
    if s.mtr.invalid then .next (s.showMtr.fset F.MTR_STAT_STATE mtrInvalid)
    else
      let out := s.mtr.backupOut
      let s := (s.modMtr Mtr.wake).fset F.MTR_STAT_STATE mtrRun
      let s := (s.showMtr.showEnergies).mtrNote.mtrWrite 0x21 0xFF s.mtr.downMtime (if out then 1 else 0) 0 0
      let s := s.mtrMark 0xFFFF flGap
      let s := s.each ((List.finRange 8).filter fun n => s.mtr.sessOpen.getLsbD n.val) fun n s =>
        (s.closeSession n).2.writeRec (s.closeSession n).1
      let s := s.mtrDrain fun _ => true
      .next (((s.mtrMark 0xFFFF flGap).modMtr fun m => { m with gapCh := BitVec.allOnes 9 }).dayOver)
  else .next s

/-- BACKUP_EXHAUSTED (R379). -/
def execBackupExhausted (s : State) : Res :=
  let s := s.fresh
  .next (if s.powered domMtr then s else s.modMtr fun m => { m with backupOut := true })

/-- The record being signed, as a failure without the supply-loss signal leaves it: stored without its commit word (R390). -/
def State.partRec (s : State) : State :=
  let next := match s.mtr.snap, s.mtr.queue with
    | r :: _, _ => some r
    | [], c :: _ => if c.logs then c.recd else none
    | [], [] => none
  match next with
  | some r => s.modMtr fun m => { m with log := m.room ++ [{ r with rseq := m.rseq + 1, prev := m.prevDigest, commit := false }] }
  | none => s

/-- The MTR domain is lost: measurement ends, if the supply-loss signal has not ended it, and what waits for its record is stored;
fault bits outlive the loss. -/
def State.mtrDown (s : State) : State :=
  let s := s.modMtr fun m => { m with fail := BitVec.ofNat 16 (s.fget F.MTR_FCHAN_FAIL), ftime := s.flag F.MTR_STAT_FTIME, pdata := none }
  if s.mtr.measuring then
    s.partRec.modMtr fun m => { m with measuring := false, lossMtime := m.mtime, queue := m.queue.filter MtrCmd.logs }
  else s

/-- Address of the island on X9, from parameter BUS. -/
def Mtr.busAddr (m : Mtr) : Nat := m.par 0x0F % 256

/-- A frame of the billing port (R395): ADDR, FN, LEN, the payload and the CRC-16 of R180 over all of them, its high byte first
(DESIGN CHOICE, log entry 53: the manual does not give the order of its bytes). -/
def billFrame (addr : Nat) (fn : BitVec 8) (payload : List Byte) : List Byte :=
  let b := [BitVec.ofNat 8 addr, fn, BitVec.ofNat 8 payload.length] ++ payload
  b ++ bytesBE 2 (crc16 b).toNat

/-- FN and payload of a frame addressed to the island with a valid CRC; every other frame is ignored (R395). -/
def billIn (addr : Nat) (f : List Byte) : Option (BitVec 8 × List Byte) :=
  match f with
  | a :: fn :: len :: rest =>
    let n := len.toNat
    if a.toNat = addr ∧ rest.length = n + 2 ∧ billFrame addr fn (rest.take n) = f then some (fn, rest.take n) else none
  | _ => none

/-- A reply leaves. -/
def State.billOut (s : State) (fn : BitVec 8) (payload : List Byte) : State :=
  s.emit (.billing fn payload (billFrame s.mtr.busAddr fn payload))

/-- An error reply of the billing port (R395). -/
def State.billError (s : State) (fn code : BitVec 8) : State := s.billOut (fn ||| 0x80) [code]

/-- A frame for the island: it answers while it is at work, or INVALID (R395). -/
def State.billing (s : State) (fn : BitVec 8) (k : State → State) : Res :=
  let s := s.fresh
  if s.powered domMtr && s.mtr.invalid && fn != 0x01 then .next (s.billError fn 0x05)
  else if s.powered domMtr && (s.mtr.measuring || s.mtr.invalid) then .next (k s)
  else .next s

/-- A function of the billing port: on a payload of a frame that has passed, or on the bytes of a frame on X9, whose payload must have
the function's length (R395). -/
def State.billFn (s : State) (fn : BitVec 8) (payload : List Byte) (frame : Option (List Byte)) (k : List Byte → State → State) : Res :=
  match frame with
  | none => s.billing fn (k payload)
  | some f =>
    match billIn s.mtr.busAddr f with
    | some (g, p) =>
      if g = fn then s.billing fn fun s => if p.length = payload.length then k p s else s.billError fn 0x01 else .next s.fresh
    | none => .next s.fresh

/-- STATUS (R395). -/
def execStatus (s : State) (frame : Option (List Byte) := none) : Res :=
  s.billFn 0x01 [] frame fun _ s => s.billOut 0x01
    (bytesBE 4 Config.meterId.toNat ++ bytesBE 4 s.mtr.rseq ++ bytesBE 4 s.mtr.mtime ++
      bytesBE 2 (s.word A.MTR_STAT).toNat ++ bytesBE 2 Config.meterFirmware.toNat)

/-- READ_REC (R395): the island reads the record in its partition. -/
def execReadRec (rseq : Word) (s : State) (frame : Option (List Byte) := none) : Res :=
  s.billFn 0x02 (bytesBE 4 rseq.toNat) frame fun p s =>
    match s.readStored (ofBytesBE p) with
    | (none, s) => s.billError 0x02 0x02
    | (some r, s) => if r.corrupt then s.billError 0x02 0x03 else s.billOut 0x02 r.bytes

/-- READOUT of the billing port (R395, R396). -/
def execBillingReadout (arg : BitVec 8) (s : State) (frame : Option (List Byte) := none) : Res :=
  s.billFn 0x03 [arg] frame fun p s =>
    let c := ofBytesBE p
    if 8 < c then s.billError 0x03 0x06
    else if 16 ≤ s.mtr.queue.length then s.billError 0x03 0x04
    else s.billOut 0x03 (s.asReadout (s.readoutRec c)).bytes

/-- READ_CERT (R395). -/
def execReadCert (arg : BitVec 8) (s : State) (frame : Option (List Byte) := none) : Res :=
  s.billFn 0x04 [arg] frame fun p s =>
    let c := ofBytesBE p
    if 7 < c then s.billError 0x04 0x06
    else s.billOut 0x04 (bytesBE 2 Config.certificate.length ++ (Config.certificate.drop (126 * c)).take 126)

/-- Payload lengths of the functions that the port knows (R395). -/
def billLen (fn : BitVec 8) : Option Nat :=
  if fn = 1 then some 0 else if fn = 2 then some 4 else if fn = 3 ∨ fn = 4 then some 1 else none

/-- BILLING_UNKNOWN_FN (R395): an unknown FN, or a wrong LEN. -/
def execBillingUnknownFn (fn : BitVec 8) (s : State) (frame : Option (List Byte) := none) : Res :=
  match frame with
  | none => s.billing fn fun s => s.billError fn 0x01
  | some f =>
    match billIn s.mtr.busAddr f with
    | some (g, p) => if billLen g = some p.length then .next s.fresh else s.billing g fun s => s.billError g 0x01
    | none => .next s.fresh

end Sys2Proof.Machine
end

