-- ==== Sys2Proof/Machine/Mem.lean ====
section
/-!
DEFINITION. Memory upkeep: write-back and scrubbing (R443 to R447), the memory-protection mode (R448), and the general
log (R450 to R453).
-/

namespace Sys2Proof.Machine

/-- CE_WRITEBACK (R443). -/
def execCeWriteback (addr : Nat) (s : State) : Res :=
  let s := s.fresh
  if s.memory.wb.contains addr then
    let s := { s with memory := { s.memory with wb := s.memory.wb.filter (· != addr) } }
    .next { s with ecc := if eccAt s.ecc addr == some .ce then eccClear s.ecc addr else s.ecc }
  else .next s

/-- The memory that an address belongs to is powered and not being initialised. -/
def State.memAlive (s : State) (m : MemKind) : Bool :=
  match m with
  | .sram => s.powered domCore && !s.flag F.MEM_STAT_INIT
  | .mram => s.powered domSafa
  | .dram => s.powered domDram

/-- Last check word of a memory. -/
def State.lastCheckWord (s : State) (m : MemKind) : Nat :=
  match m with
  | .sram => if s.byteMode then 0x3FFFFF else 0x7FFFF8
  | .mram => 0x11FFFFF8
  | .dram => 0xBFFFFFF8

/-- A pass of one memory ends: its interval field that waits takes effect (R447). -/
def State.endPass (s : State) (m : MemKind) : State :=
  match s.live.find? (fun e => e.1 == A.MEM_SCRUB) with
  | none => s
  | some e =>
    let f := match m with
      | .sram => F.MEM_SCRUB_SRAM
      | .mram => F.MEM_SCRUB_MRAM
      | .dram => F.MEM_SCRUB_DRAM
    let s := s.fset f (f.get e.2)
    if s.word A.MEM_SCRUB = e.2 then { s with live := s.live.filter fun e => e.1 != A.MEM_SCRUB } else s

/-- SCRUB_READ (R443, R444, R446). -/
def execScrubRead (mem : MemKind) (addr : Nat) (s : State) : Res :=
  let s := s.fresh
  if s.memAlive mem && memOf addr == some mem && (mem != .sram || decide (addr < s.sramSize)) then
    let w := s.checkWord addr
    let (s, ok) := s.checkRead mem 0x26 w
    let s := if !ok && decide (0x11600000 ≤ w ∧ w < 0x12000000) then s.mtrCorrupt w else s
    .next (if w = s.lastCheckWord mem then s.endPass mem else s)
  else .next s

/-- SCRUB_SLOW (R447). -/
def execScrubSlow (mem : MemKind) (s : State) : Res :=
  let s := s.fresh
  if s.powered domSafa && s.memAlive mem then .next ((s.fsetBit F.MEM_STAT_SLOW (memCode mem)).raise srcScrubSlow) else .next s

/-- SRAM with every byte 0 and no error. -/
def State.clearSram (s : State) : State :=
  { s with
    mem := sparseDrop s.mem 0 0x800000
    ecc := s.ecc.filter fun e => decide (0x800000 ≤ e.1)
    memory := { s.memory with wb := s.memory.wb.filter fun w => decide (0x800000 ≤ w) } }

/-- A write of MEM.CTRL.MODE that may run: refused while INIT reads 1 or the CORE domain is lost; a new value starts the
initialisation; `who` is the requester's code (R448). -/
def State.memMode (s : State) (req : Requester) (who mode : Nat) : State :=
  if s.flag F.MEM_STAT_INIT then s.refuse req who 5 mode refOrder
  else if !s.powered domCore then s.refuse req who 5 mode refDomain
  else if s.fget F.MEM_CTRL_MODE = mode then s
  else
    let s := ((s.fset F.MEM_CTRL_MODE mode).fset F.MEM_STAT_INIT 1).clearSram
    { s with memory := { s.memory with initTo := some (mode == 1) } }

/-- MEM_INIT_DONE (R448). -/
def execMemInitDone (s : State) : Res :=
  let s := s.fresh
  match s.memory.initTo with
  | some byte =>
    let s := (s.fset F.MEM_STAT_INIT 0).fset F.SUP_MODE_MEM byte.toNat
    .next { s with memory := { s.memory with initTo := none } }
  | none => .next s

/-- LOG_ENQUEUE (R452). -/
def execLogEnqueue (entry : LogEntry) (s : State) : Res := .next (s.fresh.log entry)

/-- Words 0 to 6 of a record (R450). -/
def logWords (e : LogEntry) (lseq : Nat) : List Nat :=
  [e.ltime, lseq * 2 ^ 32 + e.kind.toNat * 2 ^ 24 + e.high.toNat * 2 ^ 23 + e.count % 2 ^ 16,
   e.w2.toNat, e.w3.toNat, e.w4.toNat, e.w5.toNat, e.w6.toNat]

/-- The 64 bytes of a record, the commit word last (R450). -/
def logBytes (e : LogEntry) (lseq : Nat) : List Byte :=
  let body := ((logWords e lseq).map (bytesLE 8)).flatten
  body ++ bytesLE 8 (0x5A3CC35A * 2 ^ 32 + (crc32 body).toNat)

/-- Address of a log position, and the positions in the log (R449). -/
def logAddr (pos : Nat) : Nat := 0x11000000 + 64 * pos
def logSize : Nat := 65536

/-- A record is written at the next position with the next LSEQ (R451). -/
def State.writeLog (s : State) (e : LogEntry) : State :=
  let lseq := (s.fget F.MEM_LSEQ_SEQ + 1) % 2 ^ 32
  let (s, _) := s.memStore 0x27 (logAddr s.memory.pos) (logBytes e lseq)
  { s.fset F.MEM_LSEQ_SEQ lseq with memory := { s.memory with pos := (s.memory.pos + 1) % logSize } }

/-- LOG_RECORD_WRITE (R451). -/
def execLogRecordWrite (s : State) : Res :=
  let s := s.fresh
  match s.memory.buf with
  | e :: t => if s.powered domSafa && !s.sup.shutdown then .next ((s.setLogBuf t).writeLog e) else .next s
  | [] => .next s

/-- Does an address lie in the log? -/
def inLog (a : Nat) : Bool := decide (0x11000000 ≤ a ∧ a < 0x11400000)

/-- Positions of the log that hold a written byte. -/
def State.logWritten (s : State) : List Nat :=
  ((s.mem.filter fun e => inLog e.1).map fun e => (e.1 - 0x11000000) / 64).eraseDups

/-- Positions of the log in which a scan meets anything: a written byte or a word with an error. -/
def State.logMet (s : State) : List Nat :=
  (s.logWritten ++ (s.ecc.filter fun (e : Nat × Ecc) => inLog e.1).map fun (e : Nat × Ecc) => (e.1 - 0x11000000) / 64).eraseDups

/-- Reads of a position by the log writer (R443, R444): an uncorrectable word makes its record count as torn. -/
def State.logRead (s : State) (pos : Nat) : State × Bool := s.checkReads .mram 0x27 (s.checkWords (logAddr pos) 64)

/-- LSEQ of a valid record at a position whose words could be read (R451). -/
def State.logValid (s : State) (pos : Nat) : Option Nat :=
  let a := logAddr pos
  if s.peek (a + 60) 4 = 0x5A3CC35A ∧ s.peek (a + 56) 4 = (crc32 (bytesLE 56 (s.peek a 56))).toNat then some (s.peek (a + 12) 4) else none

/-- The scan of the log: every position read once, and the valid records with their positions (R443, R444, R453). -/
def State.logFound (s : State) : State × List (Nat × Nat) :=
  s.logMet.foldl (fun (acc : State × List (Nat × Nat)) p =>
    let r := acc.1.logRead p
    (r.1, match if r.2 then s.logValid p else none with
      | some q => acc.2 ++ [(p, q)]
      | none => acc.2)) (s, [])

/-- LOG_SCAN (R453), and the POWER_UP record that the start then writes (R450). -/
def execLogScan (s : State) : Res :=
  let s := s.fresh
  if s.powered domSafa then
    let (s, found) := s.logFound
    let last := found.foldl (fun (m : Option (Nat × Nat)) e =>
      match m with
      | none => some e
      | some b => if b.2 < e.2 then some e else some b) none
    let (pos, lseq) := match last with
      | some (p, q) => ((p + 1) % logSize, q)
      | none => (0, 0)
    let s := { s.fset F.MEM_LSEQ_SEQ lseq with memory := { s.memory with pos := pos } }
    let s := if s.logWritten.contains pos && found.all (fun (e : Nat × Nat) => e.1 != pos) then (s.finc F.MEM_LOGCNT_TORN).raise srcLogTorn else s
    .next (s.logHigh 0x06 (s.fget F.THERM_STAT_LASTSD) 0)
  else .next s

end Sys2Proof.Machine
end

