-- ==== Sys2Proof/Machine/Therm.lean ====
section
/-!
DEFINITION. The thermal supervisor (R454 to R459): sensor samples, the thermal axis, the limits and a shutdown's start.
-/

namespace Sys2Proof.Machine

/-- TEMP of a failed sensor. -/
def noReading : Nat := 0x8000

/-- A reading, unless the sensor is failed (R455). -/
def usable (reading : Option Int) : Option Int :=
  match reading with
  | some v => if v < -880 ∨ 2400 < v then none else some v
  | none => none

/-- Readings of the sensors that have not failed, in 1/16 °C. -/
def State.readings (s : State) : List (Nat × Int) :=
  (List.range 9).filterMap fun n => if s.fget (F.THERM_T_TEMP n) = noReading then none else some (n, s.fgetI (F.THERM_T_TEMP n))

/-- The sensor with the highest reading, the lowest-numbered of several. -/
def hottest (l : List (Nat × Int)) : Option (Nat × Int) :=
  l.foldl (fun m e => match m with
    | none => some e
    | some b => if b.2 < e.2 then some e else some b) none

def State.limitWarn (s : State) : Int := 16 * s.fget F.THERM_LIMIT_WARN
def State.limitThr (s : State) : Int := 16 * s.fget F.THERM_LIMIT_THR
def State.limitShut (s : State) : Int := 16 * s.fget F.THERM_LIMIT_SHUT

/-- Rows 2 to 6 of R456 on the highest reading. -/
def State.thermState (s : State) (top : Option Int) : Nat :=
  let old := s.fget F.THERM_STAT_STATE
  let at_ (l : Int) : Bool := top.any fun v => decide (l ≤ v)
  if at_ s.limitThr then 2
  else if old = 2 ∧ at_ (s.limitThr - 80) then 2
  else if at_ s.limitWarn || s.fget F.THERM_STAT_FAILED != 0 then 1
  else if old ≠ 0 ∧ at_ (s.limitWarn - 80) then 1
  else 0

/-- The thermal axis takes a value, with its two sources. -/
def State.setTherm (s : State) (v : Nat) : State :=
  (((s.fset F.THERM_STAT_STATE v).fset F.SUP_MODE_THERM v).setCond srcThermWarn (v != 0)).setCond srcThermThrottle (v == 2)

/-- A shutdown is latched (R459): the log writer discards its buffer and writes THERM_SHUTDOWN, and the stop sequencer
begins a controlled stop; every take is discarded (R147). -/
def State.shutDown (s : State) (sensor : Nat) (reading : Int) : State :=
  let s := { s with sup := { s.sup with shutdown := true, shutAt := s.ticks } }
  let s := ((s.fsetI F.THERM_SDINFO_TEMP reading).fset F.THERM_SDINFO_LOST s.memory.buf.length).fset F.THERM_SDINFO_SENSOR sensor
  let s :=
    if s.powered domSafa then
      (s.setLogBuf []).writeLog
        ⟨s.ltime, 0x04, true, 1, BitVec.ofNat 64 (sensor * 2 ^ 32 + unsignedOf 16 reading), 0, 0, 0, 0⟩
    else s
  s.discardTakes.beginStop true

/-- A sensor's reading enters THERM, or its failure does (R454). -/
def State.takeReading (s : State) (sensor : SensorId) (reading : Option Int) : State :=
  match reading with
  | some v =>
    let s := (s.fsetI (F.THERM_T_TEMP sensor) v).fclrBit F.THERM_STAT_FAILED sensor.val
    if s.fget (F.THERM_T_PEAK sensor) = noReading ∨ s.fgetI (F.THERM_T_PEAK sensor) < v then s.fsetI (F.THERM_T_PEAK sensor) v else s
  | none => (s.fset (F.THERM_T_TEMP sensor) noReading).fsetBit F.THERM_STAT_FAILED sensor.val

/-- The condition of THERM_SENSOR: a sensor has failed (R454). -/
def State.sensorCond (s : State) : State := s.setCond srcThermSensor (s.fget F.THERM_STAT_FAILED != 0)

/-- THERMAL_SAMPLE (R454 to R456). The sources of one sample are set lowest number first (R429). -/
def execThermalSample (sensor : SensorId) (reading : Option Int) (s : State) : Res :=
  let s := s.fresh
  if s.sup.shutdown then .next s
  else
    let s := (s.applyLiveBlock 17).takeReading sensor (usable reading)
    let top := hottest s.readings
    let s := s.fset F.THERM_STAT_HOTTEST ((top.map (·.1)).getD 0)
    match top with
    | some (n, v) =>
      if s.limitShut ≤ v then .next (s.sensorCond.shutDown n v) else .next (s.setTherm (s.thermState (some v))).sensorCond
    | none => .next (s.setTherm (s.thermState none)).sensorCond

/-- A value of THERM.LIMIT that R457 rejects. -/
def limitBad (old new : Word) : Bool :=
  let g (w : Word) (f : Fld) : Nat := f.get w
  decide (g old F.THERM_LIMIT_WARN < g new F.THERM_LIMIT_WARN) || decide (g old F.THERM_LIMIT_THR < g new F.THERM_LIMIT_THR) ||
  decide (g old F.THERM_LIMIT_SHUT < g new F.THERM_LIMIT_SHUT) ||
  decide (g new F.THERM_LIMIT_THR ≤ g new F.THERM_LIMIT_WARN) || decide (g new F.THERM_LIMIT_SHUT ≤ g new F.THERM_LIMIT_THR) ||
  decide (g new F.THERM_LIMIT_WARN < 60) || decide (g new F.THERM_LIMIT_THR < 70) || decide (g new F.THERM_LIMIT_SHUT < 85)

end Sys2Proof.Machine
end

