-- ==== Sys2Proof/Machine/HostOps.lean ====
section
/-!
DEFINITION. Sessions of the host ports and the update lock, as the rest of the module ends them (R474, R489), and the
update's state word (R487).
-/

namespace Sys2Proof.Machine

/-- The session of a port ends (R474). -/
def State.endSession (s : State) (h : HostPort) : State :=
  (((s.modHost h fun p => { p with session := none }).fclrBit F.HOST_STAT_SESS h.val).fset (F.HOST_SESSIP_ADDR h) 0).fset
    (F.HOST_SESSP_UDP h) 0

/-- Source HOST_LINK: the link of X6 or X7 is down while its address is not 0.0.0.0 (R505). -/
def State.hostLinkCond (s : State) : State :=
  s.setCond srcHostLink (s.powered domHost &&
    (List.range 2).any fun n => !(s.fget F.HOST_STAT_LINK).testBit n && s.fget (F.HOST_IP_ADDR n) != 0)

/-- The update axis: SESSION while a port holds the lock, and for an image not yet confirmed (R488, R489, R495). -/
def State.updAxis (s : State) : State :=
  s.fset F.SUP_MODE_UPD (if s.upd.lock.isSome || s.upd.validAt.isSome then 1 else 0)

/-- The update lock ends (R489). -/
def State.updEnd (s : State) : State :=
  (({ s with upd := { s.upd with lock := none } }.fset F.UPD_STAT_LOCK 0).fset F.UPD_STAT_OWNER 0).updAxis

/-- STATE codes of the state word (R487). -/
def slEmpty : Nat := 0x00
def slInProgress : Nat := 0x5A
def slValid : Nat := 0xA5
def slConfirmed : Nat := 0x3C
def slRejected : Nat := 0xC3

/-- First bytes of the slate, of the state word and of the image body (R486, R487), and the longest body. -/
def slateAddr : Nat := 0x10000000
def stateWordAddr : Nat := 0x10000100
def bodyAddr : Nat := 0x10001000
def bodyMax : Nat := 8384512

/-- The state word that holds a STATE and a BOOTS count. -/
def stateWord (state boots : Nat) : Nat :=
  0x534C4154 * 2 ^ 32 + state * 2 ^ 24 + boots * 2 ^ 16 + (255 - state) * 2 ^ 8 + (255 - boots)

/-- STATE and BOOTS of a word; any other content counts as IN_PROGRESS. -/
def readStateWord (w : Nat) : Nat × Nat :=
  let state := w / 2 ^ 24 % 256
  let boots := w / 2 ^ 16 % 256
  if w = stateWord state boots ∧ [slEmpty, slInProgress, slValid, slConfirmed, slRejected].contains state then (state, boots)
  else (slInProgress, 0)

/-- What the module itself reads and writes in MRAM goes by UPD's requester code. -/
def reqUpd : Nat := 0x21

/-- The state word as MRAM holds it; one that cannot be read counts as IN_PROGRESS. -/
def State.slState (s : State) : (Nat × Nat) × State :=
  match s.memRead reqUpd stateWordAddr 8 with
  | (some w, s) => (readStateWord w, s)
  | (none, s) => ((slInProgress, 0), s)

/-- UPD.STAT shows the state word. -/
def State.showSl (s : State) (state boots : Nat) : State :=
  (s.fset F.UPD_STAT_STATE state).fset F.UPD_STAT_BOOTS boots

/-- The state word is written by one 64-bit write (R487). -/
def State.writeSl (s : State) (state boots : Nat) : State :=
  ((s.memStore reqUpd stateWordAddr (bytesLE 8 (stateWord state boots))).1).showSl state boots

end Sys2Proof.Machine
end

