-- ==== Sys2Proof/Machine/Sup.lean ====
section
/-!
DEFINITION. The supervisor: power domains and start-up (R32 to R35, R508 to R514), the end of a thermal shutdown (R460),
the mode arbiter with its refusals (R42 to R49), and stops (R24, R530, R531).
-/

namespace Sys2Proof.Machine

/-- Power of domain d as SUP.DOM shows it. -/
def State.setPower (s : State) (d : Nat) (on : Bool) : State := s.fputBit F.SUP_DOM_PWR d on

/-- Registers in an address range go back to their reset values. -/
def State.resetRange (s : State) (lo hi : Nat) : State :=
  { s with regs := sparseDrop s.regs lo hi, live := sparseDrop s.live lo hi }

/-- The lane registers of P6 and P7, which lie in STRM. -/
def strmLanesLo : Nat := 0x400D0800
def strmLanesHi : Nat := 0x400D0880

/-- The ports of RING, and those of STRM. -/
def ringLanes : List LaneId := (List.finRange 8).filter fun p => decide (p.val < 6)
def strmLanes : List LaneId := (List.finRange 8).filter fun p => decide (6 ≤ p.val)

/-- Memory loses its content. -/
def State.dropMem (s : State) (lo hi : Nat) : State :=
  { s with
    mem := sparseDrop s.mem lo hi
    ecc := s.ecc.filter fun e => decide (e.1 < lo ∨ hi ≤ e.1)
    memory := { s.memory with wb := s.memory.wb.filter fun w => decide (w < lo ∨ hi ≤ w) } }

/-- Gate commands reach the drivers when ANLG and GATE are powered (R335). -/
def State.gateCommands (s : State) : State :=
  { s with brg := { s.brg with noCmd := if s.powered domAnlg && s.powered domGate then 0 else 0xFF } }

/-- SAFA after its power-on reset. -/
def State.safaReset (s : State) : State :=
  let s := ((s.resetBlock 11).resetBlock 12).resetBlock 15
  let s := { s with flt := { Flt.reset with cond := s.flt.cond } }
  let s := { s with memory := { s.memory with buf := [], initTo := none, pos := 0 } }
  ((s.fset F.SUP_MODE_MEM 1).safePower .a).showSet

/-- CORE after its power-on reset. -/
def State.coreReset (s : State) : State :=
  let s := (((s.resetBlock 3).resetBlock 4).clearSram).showTick
  let s := if s.powered domSafa then s.fset F.MEM_STAT_INIT 0 else s
  { s with
    cores := Vector.replicate 12 Core.reset
    takes := Vector.replicate 8 Take.reset
    vers := []
    memory := { s.memory with initTo := none } }

/-- PLAN after its power-on reset. -/
def State.planReset (s : State) : State :=
  let s := ((s.resetBlock 2).resetBlock 5).setRtAdj ((2 ^ 48 - s.ticks % 2 ^ 48) % 2 ^ 48)
  ({ s with
    plan := Vector.replicate 4 Dest.reset
    tim := Tim.reset
    ltBase := s.ticks
    timer := ⟨s.ticks, s.ticks + 200000, 3125, 3125, 0⟩
    sup := { s.sup with islandStop := false } }.fset F.SUP_MODE_TSRC tsrcFree).showTick.setCond 12 false

/-- Ports with their DLL out of lock, as after a reset (R208). -/
def State.unlockDlls (s : State) (l : List LaneId) : State := s.each l fun p s => s.fclrBit F.CLK_DLLSTAT_LOCK p.val

/-- RING after its power-on reset. -/
def State.ringReset (s : State) : State :=
  let s := (s.resetBlock 6).unlockDlls ringLanes
  { s with
    rings := Vector.replicate 3 Ring.reset
    ports := Vector.ofFn fun p : Fin 8 => if p.val < 6 then (s.ports[p]).restart else s.ports[p]
    evq := []
    access := none
    caTag := 0 }

/-- STRM after its power-on reset. -/
def State.strmReset (s : State) : State :=
  let s := (s.resetRange strmLanesLo strmLanesHi).unlockDlls strmLanes
  { s with
    ports := Vector.ofFn fun p : Fin 8 => if p.val < 6 then s.ports[p] else (s.ports[p]).restart
    strm := Strm.reset }

/-- HOST after its power-on reset. -/
def State.hostReset (s : State) : State :=
  let s := ((s.resetRange 0x400D0000 strmLanesLo).resetRange strmLanesHi 0x400E0000).resetBlock 14
  let s := { s with host := s.host.map fun (p : HPort) => { HPort.reset with key := p.key, ctr := p.ctr } }
  let s := { s with upd := Upd.reset, sup := { s.sup with loaderHold := false, configDone := false } }
  let s := s.each (List.finRange 3) fun h s =>
    (s.fset (F.HOST_MACL_ADDR h) (Config.macAddress h).toNat).fset (F.HOST_MACH_ADDR h) ((Config.macAddress h).toNat / 2 ^ 32)
  (s.fset F.HOST_STAT_LOADER 1).updAxis

/-- DRAM after its power-on reset. -/
def State.dramReset (s : State) : State :=
  let s := (s.resetBlock 10).dropMem 0x80000000 0xC0000000
  { s with capt := Vector.replicate 4 Capt.reset }.captAxis

/-- ANLG after its power-on reset. -/
def State.anlgReset (s : State) : State :=
  let s := (s.resetBlock 7).resetBlock 9
  let s := { s with brg := { Brg.reset with primLost := s.brg.primLost }, adc := { Adc.reset with extOk := s.adc.extOk, supOk := s.adc.supOk, vSup := s.adc.vSup } }
  s.gateCommands.adcRelease

/-- What a domain holds after its power-on reset. -/
def State.domainReset (s : State) (d : Nat) : State :=
  match d with
  | 1 => s.safaReset
  | 2 => s.safePower .b
  | 3 => (s.resetBlock 16).modMtr fun m => { m with pdata := none, served := s.ticks / ms }
  | 4 => s.coreReset
  | 5 => s.planReset
  | 6 => s.ringReset
  | 7 => s.strmReset
  | 8 => s.hostReset
  | 9 => s.dramReset
  | 10 => s.anlgReset
  | 11 => (s.resetBlock 8).gateCommands
  | _ => s

/-- The sources of kind L whose condition holds are set, as the collector's own domain is powered (R426). -/
def State.raiseStanding (s : State) : State := s.each ((List.range 384).filter fun n => s.flt.cond.getLsbD n) fun n s => s.raise n

/-- A domain is powered: its power-on reset, and its FLT condition ends. -/
def State.powerUp (s : State) (d : Nat) : State :=
  let s := ((s.setPower d true).domainReset d).setCond d false
  (if d = domSafa then s.raiseStanding else s).safeShow

/-- What follows when a domain is no longer powered, whatever the cause (R23, R33 to R35, R147, R362, R474, R489). -/
def State.afterOff (s : State) (d : Nat) : State :=
  match d with
  | 1 =>
    let s := { s with memory := { s.memory with buf := [] } }
    if s.bOn then s.chanFault .b else s
  | 2 => if s.aOn then s.chanFault .a else s
  | 3 => s.mtrDown
  | 4 => s.discardTakes
  | 5 => s.beginStop true
  | 6 =>
    let s := { s.bridgeOff with access := none }
    if s.running then { s with sup := { s.sup with stop := some ⟨none, true, true⟩ } } else s
  | 7 => s.losePeer.haltReadout.strmLink
  | 8 =>
    let s := s.each (List.finRange 3) fun h s => (s.endSession h).abandonTakes (h.val + 1)
    s.toHoldover.updEnd.hostLinkCond
  | 9 => { s.captLoss with strm := { s.captLoss.strm with buf := [] } }.haltReadout
  | 10 => s.gatesLost.bridgeOff.beginStop true
  | 11 => s.gatesLost
  | _ => s

/-- A domain loses its power. -/
def State.powerOff (s : State) (d : Nat) : State :=
  if s.powered d then ((s.setPower d false).afterOff d).safeShow else s

/-- Several domains lose their power together; a stop that this begins does not outlive them. -/
def State.powerOffAll (s : State) (ds : List Nat) : State :=
  let s := s.each ds fun d s => s.powerOff d
  { s with sup := { s.sup with stop := none, arb := [], arbNext := [] } }

/-- Domains in the order of start-up (R513). -/
def startGroups : List (List Nat) :=
  [[domSafa, domSafb], [domMtr], [domCore, domPlan, domHost], [domDram, domAnlg, domRing, domStrm], [domGate]]

/-- Every domain but AON, in the reverse of that order. -/
def allButAon : List Nat := startGroups.flatten.reverse

/-- Power-on reset of AON (R513): SUP, CLK and THERM at their reset values. -/
def State.aonReset (s : State) (cause : Nat) : State :=
  let s := ((s.resetBlock 0).resetBlock 1).resetBlock 17
  let s := { s with sup := { Sup.reset with inputOn := true } }
  let s := { s with flt := { s.flt with cond := s.flt.cond &&& ~~~(0xFFF : BitVec 384) } }
  let s := ((s.fset F.SUP_STAT_LASTRST cause).fset F.SUP_STAT_INOK 1).fset F.SUP_STAT_SAFE24 (if 19200 ≤ s.safe.safe24 then 1 else 0)
  ({ s with clk := { s.clk with steer := 0 } }.showSpare).fset F.CLK_STAT_EXTPRES s.clk.extOk.toNat

/-- POWER_ON (R513): the input stage starts, and AON with its power-on reset. -/
def execPowerOn (s : State) : Res :=
  let s := s.fresh
  .next (if s.sup.inputOn then s else (s.powerOffAll allButAon).aonReset 0)

/-- Domains of a group that are still to be powered: one that was lost stays off until the next start. -/
def State.groupLeft (s : State) (g : List Nat) : List Nat := g.filter fun d => !s.powered d && !s.flt.cond.getLsbD d

/-- DOMAIN_POWER_UP (R513). -/
def execDomainPowerUp (s : State) : Res :=
  let s := s.fresh
  if s.powered domAon && s.sup.inputOn && !s.sup.auxLost && !s.sup.shutdown then
    match startGroups.find? fun g => !(s.groupLeft g).isEmpty with
    | some g => .next (s.each (s.groupLeft g) fun d s => s.powerUp d)
    | none => .next s
  else .next s

/-- RING_READY (R513, R514): SUP.START is written once, saturated at 65,534. -/
def execRingReady (ms : Nat) (s : State) : Res :=
  let s := s.fresh
  .next (if s.powered domAon && s.fget F.SUP_START_RDYMS = 0xFFFF then s.fset F.SUP_START_RDYMS (min ms 65534) else s)

/-- AUX_SUPPLY_LOSS (R28, R33, R509): the controlled stop and the AUX_LOST record. -/
def execAuxSupplyLoss (s : State) : Res :=
  let s := s.fresh
  if s.powered domAon && s.sup.inputOn && !s.sup.auxLost then
    let s := { s with sup := { s.sup with auxLost := true, lostAt := s.ticks } }.fset F.SUP_STAT_INOK 0
    .next ((s.beginStop true).logHigh 0x05 s.rtime.toNat 0)
  else .next s

/-- The logs are closed (R28): the POWER_DOWN record of the legal log is committed, and every record of the log buffer. -/
def State.closeLogs (s : State) : State :=
  let s := s.mtrClose
  if s.powered domSafa then (s.memory.buf.foldl State.writeLog s).setLogBuf [] else s

/-- HOLDUP_END (R28): the logs have been closed within 6 ms of the loss, and what the store fed loses power. -/
def execHoldupEnd (s : State) : Res :=
  let s := s.fresh
  if s.sup.auxLost || !s.powered domAon then
    let s := if s.sup.auxLost then s.closeLogs else s
    let s := (s.powerOffAll allButAon).powerOff domAon
    .next { s with sup := { Sup.reset with inputOn := false } }
  else .next s

/-- AUX_SUPPLY_RETURN (R512): every domain is off from the later of t0 + 20 ms and now, for 200 ms; then the module starts
from power-on. A latched shutdown stays latched through a shorter loss (R460). -/
def execAuxSupplyReturn (s : State) : Res :=
  let s := s.fresh
  if s.powered domAon && s.sup.auxLost then
    if s.sup.shutdown then .next ({ s with sup := { s.sup with auxLost := false } }.fset F.SUP_STAT_INOK 1)
    else
      let s := (s.closeLogs.advanceTo (s.sup.lostAt + 20 * ms)).powerOffAll allButAon
      .next ((s.advanceTo (s.ticks + 200 * ms)).aonReset 1)
  else .next s

/-- BROWN_OUT (R511). -/
def execBrownOut (volts : Nat) (s : State) : Res :=
  let s := s.fresh
  if s.powered domAon then
    let s := s.fset F.SUP_VIN_VPK (min volts 1023)
    .next (if 75 ≤ volts ∧ volts ≤ 110 then s.fset F.SUP_STAT_BROWN 1 else s)
  else .next s

/-- STORE_MEASURE (R510). -/
def execStoreMeasure (milliJoule : Nat) (s : State) : Res :=
  let s := s.fresh
  if s.powered domAon then
    let s := s.fset F.SUP_VIN_STORE (min milliJoule 65535)
    .next (if milliJoule < 2200 then s.fset F.SUP_STAT_STORELOW 1 else s)
  else .next s

/-- DOMAIN_LOSS (R23, R32 to R35): every loss sets its source; with AON every domain but SAFA and SAFB loses its power. -/
def execDomainLoss (d : DomainId) (s : State) : Res :=
  let s := s.fresh
  if s.powered d then
    let s := if d = 0 then s else s.fsetBit F.SUP_DOM_LOST d.val
    let s := (s.powerOff d).setCond d.val true
    if d = 0 then
      let s := s.powerOffAll (allButAon.filter fun k => k != domSafa && k != domSafb)
      .next (if s.bOn then s.chanFault .b else s).safeShow
    else .next s
  else .next s

/-- RTIME_ISLAND_STOP (R23, R33). -/
def execRtimeIslandStop (s : State) : Res :=
  let s := s.fresh
  if s.powered domPlan && !s.sup.islandStop then .next s.stopRtime else .next s

/-- A cell that holds the STOP, or has yet to, reaches the stop instant (R256, R260): its records go, and it blocks. A copy of
that STOP which arrives later is one it has already had (R240). -/
def State.cellStop (s : State) (t : BitVec 48) (x : RingId) (k : CellId) : State :=
  if (s.cell x k).stopAt.isSome || (s.cell x k).mode == .run then
    (s.modCell x k fun c => { c with stopAt := none, lastStop := some t, held := [] }).cellBlock x k evStopped .blocked
  else s

/-- STOP_INSTANT (R24, R259): the cells block and every leg turns off at the instant that the STOP blocks named. -/
def execStopInstant (s : State) : Res :=
  let s := s.fresh
  match s.sup.stop with
  | some ⟨some t, safe, false⟩ =>
    let s := s.advanceTo t
    let s := s.each (List.finRange 3) fun x s => s.each (List.finRange 40) fun k s => s.cellStop (s.rtimeAt t) x k
    .next { s.bridgeOff with sup := { s.sup with stop := some ⟨some t, safe, true⟩ } }
  | _ => .next s

/-- POWER_STATE_UPDATE (R531). -/
def execPowerStateUpdate (s : State) : Res :=
  let s := s.fresh
  match s.sup.stop with
  | some q =>
    if q.reached then
      let s := { s with sup := { s.sup with stop := none } }
      .next (if q.safe then s.fset F.SUP_MODE_PWR pwrSafeStop else (s.fset F.SUP_MODE_PWR pwrStopped).planStopped)
    else .next s
  | none => .next s

/-- A safety demand is active or LOCKOUT is set. -/
def State.safetyBars (s : State) : Bool := s.lockout || s.safe.a.demand ||| s.safe.b.demand != 0

/-- The condition of R20: a ring that holds configured cells lacks a trained port. The manual does not say which rings hold
configured cells: the model takes those with RING.LCTRL.EN set on a port, or with cells found (DESIGN CHOICE, log entry 45). -/
def State.ringBars (s : State) : Bool :=
  (List.finRange 3).any fun x =>
    (s.flag (F.RING_LCTRL_EN (evenPort x)) || s.flag (F.RING_LCTRL_EN (oddPort x)) || decide (0 < s.found x)) &&
      !(s.isTrained (evenPort x) && s.isTrained (oddPort x))

/-- R43: CORE, PLAN, RING, ANLG, GATE, SAFA and SAFB are all powered and free of a fault, and I_RTIME runs. -/
def State.domainBars (s : State) : Bool :=
  [domCore, domPlan, domRing, domAnlg, domGate, domSafa, domSafb].any (fun d => !s.powered d || s.flt.cond.getLsbD d) ||
    s.sup.islandStop

/-- Lowest of the codes whose conditions hold (R48). -/
def firstCode (l : List (Nat × Bool)) : Option Nat := (l.find? (·.2)).map (·.1)

/-- Refusal code of a power-stage request in the current state; none when it is accepted (R42, R43, R48). -/
def State.refusalCode (s : State) (code : Nat) : Option Nat :=
  if code = 1 ∧ s.pwr = pwrStopped then
    firstCode [(refSafety, s.safetyBars), (refThermal, s.fget F.SUP_MODE_THERM == 2), (refUpdate, s.flag F.SUP_MODE_UPD),
      (refMemmode, s.byteMode), (refRing, s.ringBars), (refDomain, s.domainBars)]
  else if code = 2 ∧ s.pwr = pwrPrecharge then firstCode [(refSafety, s.safetyBars), (refDomain, s.domainBars)]
  else if code = 6 ∧ s.pwr = pwrRun ∨ code = 7 ∧ s.pwr = pwrRide ∨ (code = 3 ∨ code = 4) ∧ s.running = true then none
  else if code = 5 ∧ s.pwr = pwrSafeStop then firstCode [(refSafety, s.safetyBars)]
  else some refOrder

/-- SUP.MODE.PWR takes a value, but keeps its value while a stop is in progress (R531). A RUN, RIDE or RESUME that the table
of R42 lists for that value is accepted and changes nothing (DESIGN CHOICE, log entry 16). -/
def State.setPwr (s : State) (v : Nat) : State := if s.sup.stop.isSome then s else s.fset F.SUP_MODE_PWR v

/-- An accepted request (R42). PRECHARGE arms the cells and starts the local bridge (R260, R313). -/
def State.moveAxis (s : State) (code : Nat) : State :=
  match code with
  | 1 => ((s.setPwr pwrPrecharge).armRings).bridgeStart
  | 2 => s.setPwr pwrRun
  | 3 => s.beginStop false
  | 4 => s.beginStop true
  | 5 => (s.setPwr pwrStopped).planStopped
  | 6 => s.setPwr pwrRide
  | 7 => s.setPwr pwrRun
  | _ => s

/-- One request is decided (R42, R47 to R49). The answer is its refusal code. -/
def State.arbDecide (s : State) (r : ArbReq) : State × Option Nat :=
  match s.refusalCode r.code.toNat with
  | some c => (s.refuse r.req (reqCode r.req) 0 r.code.toNat c, some c)
  | none => ((s.moveAxis r.code.toNat).emit (.accepted r.req), none)

/-- Order within a group: Ethernet A, B, service port, cores 0 to 11 (R49). -/
def insertReq (r : ArbReq) : List ArbReq → List ArbReq
  | [] => [r]
  | q :: t => if reqCode r.req < reqCode q.req then r :: q :: t else q :: insertReq r t

/-- A request joins the arbiter (R49); code 0 does nothing. -/
def State.joinArb (s : State) (req : Requester) (code : BitVec 4) : State :=
  if code = 0 then s else { s with sup := { s.sup with arbNext := s.sup.arbNext ++ [(s.ticks, ⟨req, code⟩)] } }

/-- Number of the I_AON edge, of 32,768 in a second, at which a request that arrives at an instant joins; the phase of the
edges is not defined (R49; log entry 46). -/
def aonEdge (t : Nat) : Nat := (t + Config.aonPhase) * 512 / 125000000

/-- Do two requests join at one edge? -/
def sameEdge (a b : Nat) : Bool := a == b || aonEdge a == aonEdge b

/-- The requests that joined at the first edge, in the order of R49, and those that joined later. -/
def nextGroup (l : List (Nat × ArbReq)) : List ArbReq × List (Nat × ArbReq) :=
  match l with
  | [] => ([], [])
  | (t, _) :: _ =>
    (((l.takeWhile fun e => sameEdge t e.1).map (·.2)).foldl (fun g r => insertReq r g) [], l.dropWhile fun e => sameEdge t e.1)

/-- One I_AON cycle of the arbiter (R49): the first request of the current group, or of the next group. -/
def State.arbStep (s : State) : State × Option (ArbReq × Option Nat) :=
  let s := if s.sup.arb.isEmpty then
    { s with sup := { s.sup with arb := (nextGroup s.sup.arbNext).1, arbNext := (nextGroup s.sup.arbNext).2 } }
  else s
  match s.sup.arb with
  | [] => (s, none)
  | r :: t =>
    let (s, c) := { s with sup := { s.sup with arb := t } }.arbDecide r
    (s, some (r, c))

/-- ARBITER_DECISION (R49). -/
def execArbiterDecision (s : State) : Res :=
  let s := s.fresh
  .next (if s.powered domAon then s.arbStep.1 else s)

/-- A write of SUP.MODE_REQ: its request joins the arbiter; SUP unpowered is a bus error. -/
def State.modeReq (s : State) (req : Requester) (code : BitVec 4) : State :=
  if s.powered domAon then s.joinArb req code else s.emit (.busError req A.SUP_MODE_REQ)

/-- REQ_PRECHARGE (R42). -/
def execReqPrecharge (req : Requester) (s : State) : Res := .next (s.fresh.modeReq req 1)
/-- REQ_RUN (R42). -/
def execReqRun (req : Requester) (s : State) : Res := .next (s.fresh.modeReq req 2)
/-- REQ_STOP (R42). -/
def execReqStop (req : Requester) (s : State) : Res := .next (s.fresh.modeReq req 3)
/-- REQ_SAFE_STOP (R42). -/
def execReqSafeStop (req : Requester) (s : State) : Res := .next (s.fresh.modeReq req 4)
/-- REQ_CLEAR (R42). -/
def execReqClear (req : Requester) (s : State) : Res := .next (s.fresh.modeReq req 5)
/-- REQ_RIDE (R42). -/
def execReqRide (req : Requester) (s : State) : Res := .next (s.fresh.modeReq req 6)
/-- REQ_RESUME (R42). -/
def execReqResume (req : Requester) (s : State) : Res := .next (s.fresh.modeReq req 7)
/-- REQ_UNDEFINED (R48): codes 0x8 to 0xF. -/
def execReqUndefined (req : Requester) (low : BitVec 3) (s : State) : Res := .next (s.fresh.modeReq req (8 + low.setWidth 4))

/-- SHUTDOWN_POWER_OFF (R459): at ts + 2 ms only AON stays powered, and every cage supply goes off. -/
def execShutdownPowerOff (s : State) : Res :=
  let s := s.fresh
  if s.powered domAon && s.sup.shutdown then
    .next (((s.advanceTo (s.sup.shutAt + 2 * ms)).powerOffAll allButAon).fset F.SUP_CAGE_ON 0)
  else .next s

/-- SHUTDOWN_RELEASE (R460): the latch ends, and the module starts from power-on. With AON powered throughout, its
registers stay but for the mode axes and SUP.START, and LASTSD reads 1; otherwise AON has its power-on reset. -/
def execShutdownRelease (aonLost : Bool) (s : State) : Res :=
  let s := s.fresh
  if s.powered domAon && s.sup.shutdown then
    let s := s.powerOffAll allButAon
    if aonLost then .next (s.aonReset 0)
    else
      let s := ((s.setWord A.SUP_MODE (resetValue A.SUP_MODE)).fset F.SUP_START_RDYMS 0xFFFF).fset F.SUP_STAT_LASTRST 3
      let s := { s with sup := { Sup.reset with inputOn := true } }
      let s := { s with flt := { s.flt with cond := s.flt.cond &&& ~~~(0xFFF : BitVec 384) } }
      .next (((s.fset F.SUP_STAT_INOK 1).fset F.THERM_STAT_LASTSD 1).setTherm 0)
  else .next s

/-- SAFE24_CHANGE (R524): SAFE24 follows the level, and a fall below 19.2 V sets SAFE24LOW. -/
def execSafe24Change (milliVolt : Nat) (s : State) : Res :=
  let s := { s.fresh with safe := { s.safe with safe24 := milliVolt } }
  if s.powered domAon then
    .next (if 19200 ≤ milliVolt then s.fset F.SUP_STAT_SAFE24 1 else (s.fset F.SUP_STAT_SAFE24 0).fset F.SUP_STAT_SAFE24LOW 1)
  else .next s

end Sys2Proof.Machine
end

