-- ==== Sys2Proof/Machine/Strm.lean ====
section
/-!
DEFINITION. The streaming port P6 (R498 to R503): live packets, credits, and the read-out of rushes.
-/

namespace Sys2Proof.Machine

def State.modStrm (s : State) (f : Strm → Strm) : State := { s with strm := f s.strm }

/-- SRC of a packet (R499). -/
def srcCode (r : StreamSrc) : Nat :=
  match r with
  | .ring x => x.val
  | .group g => 0x10 + g.val

/-- Is a source selected for live packets (R501)? -/
def State.liveOn (s : State) (r : StreamSrc) : Bool :=
  s.flag F.HOST_SCTRL_EN &&
  match r with
  | .ring x => (s.fget F.HOST_SCTRL_RINGS).testBit x.val
  | .group g => (s.fget F.HOST_SCTRL_GROUPS).testBit g.val

/-- Size of the streaming buffer, and of a credit, in bytes. -/
def strmBytes : Nat := 0x8000000
def creditBytes : Nat := 256

/-- Packets of a source that have been numbered. -/
def State.pseqOf (s : State) (src : Nat) : Nat := sparseGet 0 s.strm.pseq src

/-- The next packet of a source takes its number. -/
def State.nextPacket (s : State) (src lenc : Nat) : Packet × State :=
  (⟨BitVec.ofNat 8 src, lenc, s.pseqOf src % 2 ^ 24⟩,
    s.modStrm fun c => { c with pseq := sparseSet 0 c.pseq src (sparseGet 0 c.pseq src + 1) })

/-- Bytes that the buffered packets take. -/
def State.strmUsed (s : State) : Nat := (s.strm.buf.map fun p => p.lenc * creditBytes).sum

/-- STREAM_LIVE_PACKET (R501). -/
def execStreamLivePacket (src : StreamSrc) (s : State) : Res :=
  let s := s.fresh
  if s.powered domHost && s.powered domStrm && s.powered domDram && !s.oscStopped && s.liveOn src then
    if strmBytes < s.strmUsed + 4 * creditBytes then
      .next (((s.finc F.HOST_SCNT_DROP).fset F.HOST_SSTAT_OVF 1).raise srcStrmOvf)
    else
      let (p, s) := s.nextPacket (srcCode src) 4
      .next (s.modStrm fun c => { c with buf := c.buf ++ [p] })
  else .next s

/-- Credits available: the last CUM less the credits sent, as a signed 32-bit difference (R500). -/
def State.credits (s : State) : Int := (BitVec.ofNat 32 s.strm.cum - BitVec.ofNat 32 s.strm.sent).toInt

/-- HOST.SCRED shows them. -/
def State.showCredits (s : State) : State :=
  if s.powered domHost then s.fset F.HOST_SCRED_AVAIL (clampInt 0 (2 ^ 20) s.credits).toNat else s

/-- A CREDIT block (R499, R500). -/
def State.creditIn (s : State) (cum : Word) : State :=
  if (2 ^ 20 : Int) < (cum - BitVec.ofNat 32 s.strm.sent).toInt then
    (if s.powered domHost then s.fset F.HOST_SSTAT_CREDERR 1 else s).raise srcStrmCredit
  else (s.modStrm fun c => { c with cum := cum.toNat }).showCredits

/-- CREDIT (R232, R498 to R500): the partner's blocks on L0 of P6, with those on L1 and L3, of which only the headers count
(R201). -/
def execCredit (blocks : List LineBlock) (s : State) (others : List LineBlock × List LineBlock := ([], [])) : Res :=
  let s := s.fresh
  if s.isTrained 6 then
    let s := ((s.laneIn 6 .l1 others.1).1.laneIn 6 .l3 others.2).1
    let r := s.laneIn 6 .l0 blocks
    .next ((r.2.filter (Frame.isType typCredit)).foldl (fun s f => s.creditIn (BitVec.ofNat 32 (bitsOf (f.at_ 0) 8 32))) r.1)
  else .next s

/-- A packet leaves on P6 and takes its credits. -/
def State.sendPacket (s : State) (p : Packet) : State :=
  ((s.emit (.packet p)).modStrm fun c => { c with sent := (c.sent + p.lenc) % 2 ^ 32 }).showCredits

/-- May a packet of n credits be sent (R500)? -/
def State.mayStream (s : State) (n : Nat) : Bool := decide ((n : Int) ≤ s.credits)

/-- Check words of the next bytes of a read-out, which wraps in its unit's window (R360, R502). -/
def State.readoutWords (s : State) (bytes : Nat) : List Nat :=
  let u := s.strm.unit
  let base := s.fget (F.CAPT_WIN_BASE u) * 2 ^ 20
  let size := s.captSize u * (4 * (s.captChans u).length)
  ((List.range ((bytes + 3) / 4)).map fun i => s.checkWord (base + (s.strm.next + 4 * i) % size)).eraseDups

/-- The next packet of a read-out: at most 16 credits, the last one shorter (R502); an uncorrectable DRAM error halts the
read-out (R444, R503), and so does the loss of DRAM, with which the rushes are lost (R23). -/
def State.readoutPacket (s : State) : State :=
  let bytes := min s.strm.left 4096
  let lenc := (bytes + creditBytes - 1) / creditBytes
  if !s.powered domDram then s.haltReadout
  else if s.mayStream lenc then
    let (s, ok) := s.checkReads .dram 0x24 (s.readoutWords bytes)
    if ok then
      let (p, s) := s.nextPacket (0x20 + s.strm.unit.val) lenc
      (s.modStrm fun c => { c with left := c.left - bytes, next := c.next + bytes }).sendPacket p
    else s.haltReadout
  else s

/-- STREAM_PACKET_SEND (R214, R500, R502): live packets go before those of a read-out. -/
def execStreamPacketSend (s : State) : Res :=
  let s := s.fresh
  if s.isTrained 6 && !s.oscStopped then
    match s.strm.buf with
    | p :: t => .next (if s.mayStream p.lenc then (s.modStrm fun c => { c with buf := t }).sendPacket p else s)
    | [] => .next (if s.fget F.HOST_SSTAT_RDSTATE = rdRun ∧ 0 < s.strm.left then s.readoutPacket else s)
  else .next s

/-- A 1 written to HOST.SRD.GO (R502). -/
def State.readoutGo (s : State) (u : CaptId) : State :=
  if s.captState u ≠ captDone ∨ s.fget F.HOST_SSTAT_RDSTATE = rdRun ∨ s.powered domDram = false then s.fset F.HOST_SSTAT_CFGERR 1
  else
    let bytes := (s.fget (F.CAPT_NPRE_COUNT u) + s.fget (F.CAPT_POST_COUNT u)) * (4 * (s.captChans u).length)
    (s.modStrm fun c =>
      { c with unit := u, left := bytes, next := s.fget (F.CAPT_FIRST_OFFS u), pseq := sparseSet 0 c.pseq (0x20 + u.val) 0 }).fset
      F.HOST_SSTAT_RDSTATE rdRun

/-- RUSHES_READOUT_GO (R502): the write of UNIT and GO. -/
def execRushesReadoutGo (req : Requester) (unit : CaptId) (s : State) : Res :=
  let s := s.fresh
  if s.powered domHost then .next ((s.fset F.HOST_SRD_UNIT unit.val).readoutGo unit)
  else .next (s.emit (.busError req A.HOST_SRD))

/-- RUSHES_READOUT_ABORT (R503). -/
def execRushesReadoutAbort (req : Requester) (s : State) : Res :=
  let s := s.fresh
  .next (if s.powered domHost then s.haltReadout else s.emit (.busError req A.HOST_SRD))

/-- READOUT_DONE (R503). -/
def execReadoutDone (s : State) : Res :=
  let s := s.fresh
  .next (if s.powered domHost && s.fget F.HOST_SSTAT_RDSTATE == rdRun && s.strm.left == 0 then
    s.fset F.HOST_SSTAT_RDSTATE rdDone else s)

/-- HOST.SCTRL has been written: a source that it newly selects counts its packets from 0 (R499). -/
def State.sctrlWritten (s s' : State) : State :=
  s'.each ((List.finRange 3).map StreamSrc.ring ++ (List.finRange 8).map StreamSrc.group) fun r s' =>
    if s'.liveOn r && !s.liveOn r then s'.modStrm fun c => { c with pseq := sparseSet 0 c.pseq (srcCode r) 0 } else s'

end Sys2Proof.Machine
end

