-- ==== Sys2Proof/Machine/RegAccess.lean ====
section
/-!
DEFINITION. Every read and write of a register by its address (R3, R8 to R13): what reads latch, pop or clear, when
writes are rejected, when they take effect, and what else they do.
-/

namespace Sys2Proof.Machine

/-- The power domain that holds a register: that of its block, but STRM for the lane registers of P6 and P7. -/
def regDomain (a : Nat) : Nat :=
  if strmLanesLo ≤ a ∧ a < strmLanesHi then domStrm else blockDomain (blockOf a)

/-- The element of an array of n registers that an address names. -/
def regIdx (base stride n a : Nat) : Option (Fin n) := (List.finRange n).find? fun i => base + stride * i.val == a

/-- The port whose lane register of an offset lies at an address. -/
def laneIdx (off a : Nat) : Option LaneId := (List.finRange 8).find? fun p => laneAddr off p == a

/-- The requester that a code of SUP.REFUSE.REQUESTER names. -/
def reqOf (code : Nat) : Requester :=
  if h : 1 ≤ code ∧ code ≤ 3 then .host ⟨code - 1, by omega⟩
  else if h : 16 ≤ code ∧ code < 28 then .core ⟨code - 16, by omega⟩
  else .unit

/-- Word of the load window: SEL and WORD of CORE.LADDRn, when an access is allowed (R95). -/
def State.loadTarget (s : State) (n : CoreId) : Option (Bool × Nat) :=
  let dmem := s.flag (F.CORE_LADDR_SEL n)
  let w := s.fget (F.CORE_LADDR_WORD n)
  if s.coreState n = coreHalted ∧ (dmem = true ∨ w ≤ 16383) then some (dmem, w) else none

def State.loadAdvance (s : State) (n : CoreId) : State := s.fset (F.CORE_LADDR_WORD n) (s.fget (F.CORE_LADDR_WORD n) + 1)

/-- A read of CORE.LDATAn (R95, R96). -/
def State.loadRead (s : State) (n : CoreId) : Option Word × State :=
  match s.loadTarget n with
  | none => (none, s)
  | some (dmem, w) =>
    let c := s.cores[n]
    match eccAt (if dmem then c.dmemErr else c.imemErr) (4 * w) with
    | some .ue => (none, s.fset (if dmem then F.CORE_MEMERR_DUE n else F.CORE_MEMERR_IUE n) 1)
    | e =>
      let v : Word := if dmem then BitVec.ofNat 32 (ofBytesLE ((List.range 4).map fun i => sparseGet memDefault c.dmem (4 * w + i)))
        else c.iword (4 * w)
      let s := if e.isSome then
          (s.modCore n fun c => { c with
            dmemErr := if dmem then eccClear c.dmemErr (4 * w) else c.dmemErr
            imemErr := if dmem then c.imemErr else eccClear c.imemErr (4 * w) }).finc (F.CORE_MEMERR_CE n)
        else s
      (some v, s.loadAdvance n)

/-- A write of CORE.LDATAn (R95, R96): false is a bus error. -/
def State.loadWrite (s : State) (n : CoreId) (v : Word) : State × Bool :=
  match s.loadTarget n with
  | none => (s, false)
  | some (true, w) =>
    ((s.modCore n fun c => { c with
      dmem := dmemPoke c.dmem (dmemLo + 4 * w) (bytesLE 4 v.toNat)
      dmemErr := eccClear c.dmemErr (4 * w) }).loadAdvance n, true)
  | some (false, w) =>
    ((s.modCore n fun c => { c with
      imem := sparseSet 0 c.imem (4 * w) v
      imemErr := eccClear c.imemErr (4 * w) }).loadAdvance n, true)

/-- TAKE.VERL and TAKE.VERH: the version of the register that VADDR names (R144). -/
def State.versionWords (s : State) : Word × Word :=
  let a := 4 * s.fget F.TAKE_VADDR_ADDR
  if takeable a then (BitVec.ofNat 32 (s.version a), BitVec.ofNat 32 (s.version a / 2 ^ 32)) else (0, 0x80000000)

/-- TAKE.USE. -/
def State.useWord (s : State) : Word :=
  BitVec.ofNat 32 (s.takeEntries * 2 ^ 16 + ((List.finRange 8).filter fun h => s.takeActive h).length)

/-- PLAN.HZEFF: the effective horizon and W (R159). -/
def State.hzeffWord (s : State) : Word := BitVec.ofNat 32 ((s.wWorst / 64) % 2 ^ 14 * 2 ^ 16 + (s.hEff / 64) % 2 ^ 14)

/-- Seconds since UPD_OPEN or the last block, saturated at 63. -/
def State.updIdle (s : State) : Nat := if s.upd.lock.isSome then min ((s.ticks - s.upd.since) / sec) 63 else 0

/-- Registers whose value is computed when they are read. -/
def State.computed (s : State) (who : Requester) (a : Nat) : Option Word :=
  if a = A.TAKE_VERL then some s.versionWords.1
  else if a = A.TAKE_VERH then some s.versionWords.2
  else if a = A.TAKE_USE then some s.useWord
  else if a = A.PLAN_HZEFF then some s.hzeffWord
  else if a = A.UPD_STAT then some ((F.UPD_STAT_IDLE).put (s.word a) s.updIdle)
  else if a = A.MTR_PDATA then some (BitVec.ofNat 32 (s.mtr.pendingP.toList.getD (s.fget F.MTR_PADDR_ADDR) 0))
  else if a = A.MTR_CMDRES then some ((F.MTR_CMDRES_BUSY).put (s.word a) (if s.mtr.queue.any (fun c => c.req == who) then 1 else 0))
  else match regIdx (A.TAKE_BNDL 0) 0x10 8 a, regIdx (A.TAKE_BNDH 0) 0x10 8 a with
    | some h, _ => some ((s.takeBnd h).setWidth 32)
    | _, some h => some ((s.takeBnd h >>> 32).setWidth 32)
    | none, none => none

/-- Registers whose read has an effect of its own (R13, R95, R277, R278, R357, R437). -/
def State.readEffect (s : State) (a : Nat) : Option (Option Word × State) :=
  if a = A.TIME_RTIMEL then some (some (s.rtimeShown.setWidth 32), s.fset F.TIME_RTIMEH_TIME (s.rtimeShown.toNat / 2 ^ 32))
  else if a = A.TIME_LTIMEL then some (some (BitVec.ofNat 32 s.ltime), s.fset F.TIME_LTIMEH_TIME (s.ltime / 2 ^ 32))
  else if a = A.RING_EVTQ3 then some (some (s.word a), s.popEvtq)
  else if a = A.BRG_PSTARTL then some (some (s.brg.lastStart.setWidth 32), s.latchPstart)
  else if a = A.ADC_ZXTL then some (some (s.word a), s.latchZx)
  else match regIdx (A.CORE_LDATA 0) 0x40 12 a, regIdx (A.FLT_HISTL 0) 8 16 a, regIdx (A.MTR_EL 0) 8 19 a with
    | some n, _, _ => some (s.loadRead n)
    | _, some k, _ => some (((s.readHist k).1), (s.readHist k).2)
    | _, _, some j => some (some (s.word a), s.latchEnergy j)
    | none, none, none => none

/-- A read of a register whose RC fields return to their reset values (R13). -/
def State.readClear (s : State) (a : Nat) (r : RegRow) : Word × State :=
  let w := s.word a
  let rc := r.mask (· == .rc)
  (w, if rc = 0 then s else s.setWord a ((w &&& ~~~rc) ||| (resetValue a &&& rc)))

/-- The boundaries of a register's block that time alone brings: the ring cycles of RING and the services of MTR (R8). -/
def State.blockDue (s : State) (a : Nat) : State :=
  match blockOf a with
  | 6 => if s.ringNow / epochTicks = s.ringAt then s else s.ringCycle.showCsel
  | 16 => s.mtrDue
  | _ => s

/-- A read of the register at an address: none is a bus error (R3). -/
def State.readReg (s : State) (who : Requester) (a : Nat) : Option Word × State :=
  match findReg a with
  | none => (none, s)
  | some (r, _) =>
    let s := s.blockDue a
    if s.powered (regDomain a) then
      match s.readEffect a, s.computed who a with
      | some x, _ => x
      | none, some v => (some v, s)
      | none, none => (some (s.readClear a r).1, (s.readClear a r).2)
    else (none, s)

/-- How a register write ended (R3, R9, R47, R479). -/
inductive Wrote where
  | done
  | busError
  /-- Rejected; some ground concerns an RT or RL field. -/
  | locked
  /-- Rejected for a value out of range only. -/
  | range
  /-- A request refused under R47, with its code. -/
  | refused (code : BitVec 8)
  deriving DecidableEq, Repr

/-- RW fields that take effect at a later boundary of their block (R8): TIME.GCFG, TAKE.CTRL, PLAN.SCALEq, RING at its ring
cycle, BRG, ADC.GMASKg, MEM.SCRUB, MTR.PADDR and MTR.LSEL at the mailbox service, and THERM. The load window, FLT, HOST and
TAKE.VADDR act at once. -/
def liveWaits (a : Nat) : Bool :=
  a == A.TIME_GCFG || a == A.TAKE_CTRL || a == A.MEM_SCRUB || blockOf a == 5 || blockOf a == 6 || blockOf a == 7 ||
    blockOf a == 9 || blockOf a == 16 || blockOf a == 17

/-- Grounds on which a direct write is rejected (R9, R10, R135, R215, R457), lowest source first (R429): CLK_OSC for a switch to a
failed main oscillator, PARAM_RANGE, TAKE_OUTSIDE and LOCKED_WRITE. -/
def State.writeGrounds (s : State) (a : Nat) (r : RegRow) (v : Word) : List Nat :=
  let diff := s.word a ^^^ v
  let g := overlay s.nextWord [(a, v)]
  (if a = A.CLK_CTRL ∧ s.flag F.CLK_CTRL_REFSEL = true ∧ v.getLsbD 0 = false ∧ s.mainUp = false then [srcOsc] else []) ++
  (if staticBad a v || comboBad s.slotCount g a || (a == A.THERM_LIMIT && limitBad (s.word a) v) then [srcParamRange] else []) ++
  (if diff &&& r.mask (· == .rt) = 0 then [] else [srcTakeOutside]) ++
  (if diff &&& r.mask (· == .rl) = 0 ∨ s.pwr = pwrStopped then [] else [srcLockedWrite])

/-- The fields of a write are stored: RT and RL at once, W1C cleared, RW at once or at its block's boundary. -/
def State.storeFields (s : State) (now : Bool) (a : Nat) (r : RegRow) (v : Word) : State :=
  let fixed := r.mask (fun c => c == .rt || c == .rl)
  let rw := r.mask (· == .rw)
  let w := (s.word a &&& ~~~fixed) ||| (v &&& fixed)
  let w := w &&& ~~~(v &&& r.mask (· == .w1c))
  if rw = 0 then s.setWord a w
  else if liveWaits a && !now then (s.setWord a w).pendLive a v
  else
    let s := { s with live := s.live.filter fun e => e.1 != a }
    s.setWord a ((w &&& ~~~rw) ||| (v &&& rw))

/-- CORE.ENABLE has been written (R74). -/
def State.enableCores (s : State) (old new : Word) : State :=
  s.each (List.finRange 12) fun n s =>
    if new.getLsbD n.val && !old.getLsbD n.val then
      ((s.modCore n fun c => { c with pendTicks := 0 }).fset (F.CORE_TCAUSE_DOUBLE n) 0).setCoreState n coreWait
    else if old.getLsbD n.val && !new.getLsbD n.val then s.haltCore n
    else s

/-- CLK.CTRL has been written (R215, R217). -/
def State.clkWritten (s : State) (old : Word) : State :=
  (if old.getLsbD 0 == s.flag F.CLK_CTRL_REFSEL then s else s.switchReference).refreshExtLock

/-- RING.LCTRLp has been written (R222, R223). -/
def State.lctrlWritten (s : State) (p : LaneId) (old v : Word) : State :=
  let s := if v.getLsbD 0 && !old.getLsbD 0 then s.enablePort p
    else if old.getLsbD 0 && !v.getLsbD 0 then s.disablePort p
    else s
  if v.getLsbD 8 then s.retrainPort p else s

/-- RING.MGMTp: while BUSY reads 1 only REFUSED can be cleared; otherwise the fields are stored, and GO acts. -/
def State.mgmtWrite (s : State) (p : LaneId) (now : Bool) (r : RegRow) (v : Word) : State :=
  if s.flag (F.RING_MGMT_BUSY p) then
    if v.getLsbD 28 then s.fset (F.RING_MGMT_REFUSED p) 0 else s
  else
    let s := s.storeFields now (A.RING_MGMT p) r v
    if v.getLsbD 31 then s.mgmtGo p else s

/-- What a write does beside storing its fields, or in place of it; none where the address has nothing of the kind. -/
def State.writeEffect (s : State) (req : Requester) (now : Bool) (a : Nat) (r : RegRow) (v : Word) : Option (State × Wrote) :=
  let st := s.storeFields now a r v
  let old := s.word a
  let done (s : State) : Option (State × Wrote) := some (s, .done)
  match blockOf a with
  | 0 => if a = A.SUP_MODE_REQ then done (s.joinArb req (v.setWidth 4)) else none
  | 1 =>
    if a = A.CLK_CTRL then done (st.clkWritten old)
    else if a = A.CLK_STAT then done (if s.mainUp then st else st.fset F.CLK_STAT_MAINFAIL 1)
    else if a = A.CLK_DLLCMD then
      done (s.each ((List.finRange 8).filter fun p => v.getLsbD p.val) fun p s => s.relockDll p)
    else none
  | 2 =>
    if a = A.TIME_PEER then done st.roleWritten.refreshExtLock
    else match regIdx (A.TIME_CMPCTL 0) 0x10 8 a with
      | some u => done (if v.getLsbD 31 then st.writeDisarm u else st)
      | none => none
  | 4 =>
    if a = A.CORE_ENABLE then done (st.enableCores old (st.word A.CORE_ENABLE))
    else if a = A.CORE_PERIOD then done { st with timer := { st.timer with accepted := st.fget F.CORE_PERIOD_PERIOD } }
    else match regIdx (A.CORE_LDATA 0) 0x40 12 a with
      | some n => let (s, ok) := s.loadWrite n v; some (s, if ok then .done else .busError)
      | none => none
  | 5 =>
    match regIdx (A.PLAN_FAILL 0) 0x20 3 a, regIdx (A.PLAN_FAILH 0) 0x20 3 a, regIdx (A.PLAN_BYP 0) 0x20 3 a with
    | some x, _, _ => done (s.failClear x (v.setWidth 40))
    | _, some x, _ => done (s.failClear x ((v.setWidth 40) <<< 32))
    | _, _, some x =>
      let k := v.toNat % 64 - 1
      done (if h : k < 40 then s.planBypass x ⟨k, h⟩ else s)
    | none, none, none =>
      if now then none
      else if a = A.PLAN_HORIZON then done st.horizonShort
      else if a = A.PLAN_DAB then done st.planFails
      else none
  | 6 | 13 =>
    if a = A.RING_CACMD then done (if v.getLsbD 31 then st.cellGo else st)
    else if a = A.HOST_SRD then
      let st := if v.getLsbD 30 then st.haltReadout else st
      done (if v.getLsbD 31 then st.readoutGo ⟨v.toNat % 4, by omega⟩ else st)
    else if a = A.HOST_SCTRL then done (s.sctrlWritten st)
    else if a = A.HOST_IP 0 ∨ a = A.HOST_IP 1 then done st.hostLinkCond
    else match regIdx (A.RING_RCMD 0) 0x40 3 a, laneIdx 0 a, laneIdx 0x18 a with
      | some x, _, _ => done (if v.getLsbD 0 then s.startEnum x else s)
      | _, some p, _ => done (st.lctrlWritten p old v)
      | _, _, some p => done (s.mgmtWrite p now r v)
      | none, none, none => none
  | 7 => if a = A.BRG_TSTAT then done ((s.setWord a (old &&& ~~~(v &&& 0xF))).clearLatched ((v >>> 4).setWidth 4)) else none
  | 8 =>
    match regIdx (A.GATE_STAT 0) 4 4 a with
    | some x =>
      let st := s.storeFields now a r (v &&& ~~~(0x80 : Word))
      done (if v.getLsbD 7 then st.clearGateFault x else st)
    | none => none
  | 9 =>
    if a = A.ADC_REF then done (st.refWritten old)
    else if a = A.ADC_CALCMD then done (s.calibrate (v.setWidth 8))
    else match regIdx (A.ADC_CAL 0) 4 8 a, regIdx (A.ADC_GBUF 0) 0x10 8 a with
      | some k, _ => done (st.abortCal k)
      | _, some g => done (st.gbufWritten g)
      | none, none => none
  | 10 =>
    match regIdx (A.CAPT_CMD 0) 0x40 4 a with
    | some u => done (s.captCmd req u (v.toNat % 4))
    | none => none
  | 11 =>
    if a = A.FLT_PIN then done (s.pinHold (v.toNat % 2))
    else if a = A.FLT_SELF then done (if v.getLsbD 31 then s.clearSelf else s)
    else if a = A.FLT_SWSET then done (s.swSet v.toNat)
    else match regIdx (A.FLT_STICKY 0) 4 12 a with
      | some w => done (s.clearSticky w.val v)
      | none => none
  | 12 => if a = A.MEM_CTRL then done (s.memMode req (reqCode req) (v.toNat % 2)) else none
  | 16 =>
    if a = A.MTR_CMD then done (s.mtrCmd req (v.toNat / 2 ^ 24) (v.toNat % 256))
    else if a = A.MTR_PDATA then done (s.pdataWrite req v.toNat)
    else if a = A.MTR_LSEL then done (s.lselWrite req v.toNat)
    else none
  | _ => none

/-- Refusal answered since an earlier state of the same command. -/
def newRefusal (before after : State) : Option (BitVec 8) :=
  (after.out.drop before.out.length).findSome? fun o => match o with
    | .refusal _ c => some c
    | _ => none

/-- The answer of a write in whose course a request was refused. -/
def State.afterWrite (s : State) (p : State × Wrote) : State × Wrote :=
  match p.2, newRefusal s p.1 with
  | .done, some c => (p.1, .refused c)
  | _, _ => p

/-- A write that no ground rejects takes place. -/
def State.applyWrite (s : State) (req : Requester) (now : Bool) (a : Nat) (r : RegRow) (v : Word) : State × Wrote :=
  s.afterWrite ((s.writeEffect req now a r v).getD (s.storeFields now a r v, .done))

/-- A direct write of a register (R3, R8 to R10, R144). A write whose request is refused under R47 is not counted as accepted
(DESIGN CHOICE, log entry 50: the manual does not say whether it advances TAKE.WSEQ). -/
def State.writeReg (s : State) (req : Requester) (a : Nat) (v : Word) : State × Wrote :=
  match findReg a with
  | none => (s, .busError)
  | some (r, _) =>
    let s := s.blockDue a
    if s.powered (regDomain a) || (blockOf a == 10 && (regIdx (A.CAPT_CMD 0) 0x40 4 a).isSome) then
      match s.writeGrounds a r v with
      | [] =>
        let (s, w) := s.applyWrite req false a r v
        if w = .done then (s.newVersion a, w) else (s, w)
      | l => (s.each l fun n s => s.raise n, if l = [srcParamRange] then .range else .locked)
    else (s, .busError)

/-- A write that reaches a register from outside the script cores' own instructions, or from one; a bus error is
answered to the requester. -/
def State.busWrite (s : State) (req : Requester) (a : Nat) (v : Word) : State :=
  match s.writeReg req a v with
  | (s, .busError) => s.emit (.busError req a)
  | (s, _) => s

/-- A read with its answer. -/
def State.busRead (s : State) (req : Requester) (a : Nat) : State :=
  let (v, s) := s.readReg req a
  s.emit (.value req v)

end Sys2Proof.Machine
end

