-- ==== Sys2Proof/Machine/TakeApply.lean ====
section
/-!
DEFINITION. Takes at their boundary (R136 to R144) and their time limits (R146).
-/

namespace Sys2Proof.Machine

/-- Registers that a take writes, each once. -/
def takeRegs (ws : List (Nat × Word)) : List Nat := ((ws.map (·.1)).filter isRegSpace).eraseDups

/-- Check 1 of R143: a target lies in a domain that is lost or faulted. -/
def State.takeDomainBad (s : State) (ws : List (Nat × Word)) : Bool :=
  ws.any fun e =>
    let d := if isRegSpace e.1 then regDomain e.1 else domCore
    !s.powered d || s.flt.cond.getLsbD d

/-- Check 2: an RL field would change outside STOPPED. -/
def State.takeLocked (s : State) (ws : List (Nat × Word)) : Bool :=
  s.pwr != pwrStopped && (takeRegs ws).any fun a =>
    match findReg a with
    | some (r, _) => (s.word a ^^^ overlay s.word ws a) &&& r.mask (· == .rl) != 0
    | none => false

/-- Check 3: a target register's version is later than the open stamp. -/
def State.takeConflict (s : State) (ws : List (Nat × Word)) (stamp : Nat) : Bool :=
  (takeRegs ws).any fun a => laterThan (s.version a) stamp

/-- Slot count that the values of a take leave (R135, R347): that of the period which it writes, else of the period in
force. -/
def State.slotsLeft (s : State) (ws : List (Nat × Word)) : Nat :=
  if ws.any fun e => e.1 == A.CORE_PERIOD then slotsOf (fieldOf (overlay s.word ws) F.CORE_PERIOD_PERIOD) else s.slotCount

/-- Check 4: a rule on a combination of fields. -/
def State.takeComboBad (s : State) (ws : List (Nat × Word)) : Bool :=
  (takeRegs ws).any fun a => comboBad (s.slotsLeft ws) (overlay s.word ws) a

/-- One write of an applied take (R136, R137); false where an SRAM word was not written. A LIVE value of the local bridge waits, as
a direct write's does, for the period start from which it governs (R140, R321). -/
def State.takeOne (s : State) (req : Requester) (a : Nat) (v : Word) : State × Bool :=
  match findReg a with
  | some (r, _) => ((s.applyWrite req (blockOf a != 7) a r v).1, true)
  | none => s.memWrite 0x25 a (bytesLE 4 v.toNat)

/-- Every write of an applied take, in the order written (R132, R137). -/
def State.takeWrites (s : State) (req : Requester) : List (Nat × Word) → State × Bool
  | [] => (s, true)
  | (a, v) :: t =>
    let (s, ok) := s.takeOne req a v
    let (s, all) := s.takeWrites req t
    (s, ok && all)

/-- Compare units whose instant the take has written arm (R285). -/
def State.takeArms (s : State) (ws : List (Nat × Word)) : State :=
  s.each ((List.finRange 8).filter fun (u : UnitId) => ws.any fun e => e.1 == A.TIME_CMPL u || e.1 == A.TIME_CMPH u)
    fun u s => s.armCompare u

/-- The applied take's sequence number becomes the version of each register it wrote (R144). -/
def State.takeVersions (s : State) (ws : List (Nat × Word)) : State :=
  let v := (s.wseq + 1) % 2 ^ 48
  let s := s.setWseq v
  { s with vers := (takeRegs ws).foldl (fun l a => sparseSet 0 l a v) s.vers }

/-- A take that passed its checks is applied, and its handle reads PRINTED (R131, R140): so already while its writes act, for
it is no longer one that a halt of its owner abandons. -/
def State.applyTake (s : State) (h : HandleId) (t : Nat) : State :=
  let ws := s.takes[h].writes
  let s := (s.modTake h fun k => { k with writes := [], instant := none }).fset (F.TAKE_STAT_STATE h) takePrinted
  let (s, ok) := s.takeWrites (reqOf (s.fget (F.TAKE_STAT_OWNER h))) ws
  let s := (s.takeArms ws).takeVersions ws
  let s := if (takeRegs ws).any fun a => blockOf a == 5 then s.planFails.horizonShort else s
  let s := s.fset (F.TAKE_STAT_WFAIL h) (if ok then 0 else 1)
  s.setTime48 (F.TAKE_BNDL_TIME h) (F.TAKE_BNDH_TIME h) (s.rtimeAt t)

/-- The checks of R143 in order, then the application or the cut. -/
def State.boundary (s : State) (h : HandleId) (t : Nat) : State :=
  let ws := s.takes[h].writes
  if s.takeDomainBad ws then s.cutTake h cutRefused
  else if s.takeLocked ws then (s.raise srcLockedWrite).cutTake h cutRefused
  else if s.takeConflict ws s.takes[h].stamp then s.cutTake h cutConflict
  else if s.takeComboBad ws then (s.raise srcParamRange).cutTake h cutRefused
  else s.applyTake h t

/-- Another take falls on the same instant and was printed earlier (R141). -/
def State.takeBefore (s : State) (h : HandleId) (t : Nat) : Bool :=
  (List.finRange 8).any fun k =>
    s.takeState k == takePending && s.takeDue k == some t && decide (s.takes[k].printNo < s.takes[h].printNo)

/-- The last instant at which a PENDING take is applied: the wait limit that held when it was opened (R138, R151). -/
def State.takeLimit (s : State) (h : HandleId) : Nat := s.takes[h].printedAt + s.takes[h].waitMax * ms

/-- A take with a wait limit has no boundary within it (R138). -/
def State.takeOverdue (s : State) (h : HandleId) : Bool :=
  waitBounded (s.fget (F.TAKE_STAT_BND h)) && (s.takeDue h).all fun t => decide (s.takeLimit h < t)

/-- A PENDING take meets its boundary at an instant, or its wait limit before it (R138, R146). -/
def State.takeRun (s : State) (h : HandleId) (t : Nat) : State :=
  if s.takeOverdue h then (s.advanceTo (s.takeLimit h)).cutTake h cutTimeout else (s.advanceTo t).boundary h t

/-- The take that is due first, by an instant: with its instant, and in the order of the prints where they agree (R141). -/
def State.firstTake (s : State) (t : Nat) : Option (HandleId × Nat) :=
  ((List.finRange 8).filterMap fun h =>
    if s.takeState h == takePending then (s.takeDue h).bind fun d => if d ≤ t then some (h, d) else none else none).foldl
    (fun best e => match best with
      | some b => if e.2 < b.2 ∨ (e.2 = b.2 ∧ (s.takes[e.1]).printNo < (s.takes[b.1]).printNo) then some e else best
      | none => some e) none

/-- Every take due by an instant is applied, each at its own: a period that starts there has the new values (R69, R140, R309). -/
def State.takesUpTo (s : State) (t : Nat) : State :=
  if s.powered domCore then
    (List.range 8).foldl (fun s _ => match s.firstTake t with
      | some (h, d) => s.takeRun h d
      | none => s) s
  else s

/-- TAKE_APPLY (R138, R140 to R144): at the boundary, unless the wait limit comes first. -/
def execTakeApply (h : HandleId) (s : State) : Res :=
  let s := s.fresh
  if s.powered domCore && s.takeState h == takePending then
    match s.takeDue h with
    | some t => .next (if !s.takeOverdue h && s.takeBefore h t then s else s.takeRun h t)
    | none => .next s
  else .next s

/-- TAKE_OPEN_TIMEOUT (R16, R146): OPEN for longer than the limit that held when it was opened (R151); at exactly the limit it
is not yet cut. -/
def execTakeOpenTimeout (h : HandleId) (s : State) : Res :=
  let s := s.fresh
  if s.powered domCore && s.takeState h == takeOpen then
    .next ((s.advanceTo (s.takes[h].openedAt + s.takes[h].tmo * ms + 1)).cutTake h cutTimeout)
  else .next s

/-- TAKE_WAIT_TIMEOUT (R138, R146): no boundary within the wait limit. -/
def execTakeWaitTimeout (h : HandleId) (s : State) : Res :=
  let s := s.fresh
  if s.powered domCore && s.takeState h == takePending && s.takeOverdue h then
    .next ((s.advanceTo (s.takeLimit h)).cutTake h cutTimeout)
  else .next s

end Sys2Proof.Machine
end

