-- ==== Sys2Proof/Machine/CoreEvents.lean ====
section
/-!
DEFINITION. What happens to the cores from outside their instructions: the period tick (R68 to R73), the end of a stall
(R52, R108, R121), and the compare point, commit, squash and drain of a speculative run (R81 to R85, R532).
-/

namespace Sys2Proof.Machine

/-- The tick of period k reaches one core (R71, R72, R89). A core held at WAITP while stores drain has not executed it (R85,
R532), so that the tick overruns it. -/
def State.coreTick (s : State) (n : CoreId) (k t : Nat) : State :=
  let c := s.cores[n]
  let st := s.coreState n
  let ovr (s : State) : State :=
    ((s.modCore n fun c => { c with pendTicks := c.pendTicks + 1 }).fset (F.CORE_STAT_OVR n) 1).raise srcCoreOverrun
  if st = coreHalted then s
  else
    let s := s.modCore n fun c => { c with tickPwr := s.pwr }
    if st = coreWait then s.startRun n k t false false s.pwr false
    else if c.ckpt.isSome && c.period == k then s.modCore n fun c => { c with cmpPwr := s.pwr, tick := t }
    else ovr s

/-- PERIOD_TICK (R68, R69, R533): the timer counts in the PLAN domain, with or without the cores. The takes due by then are
applied before it, so that the period which starts has their values (R140). A period that has changed is written to every
admitted cell (R268). -/
def execPeriodTick (s : State) : Res :=
  let s := s.fresh
  if s.powered domPlan && !s.sup.islandStop then
    let t := s.timer.next
    let s := (s.takesUpTo t).advanceTo t
    let k := (s.tickCount + 1) % 2 ^ 32
    let changed := s.timer.accepted != s.timer.copy
    let s := { s with timer := ⟨t, t + s.timer.accepted * 64, s.timer.accepted, s.timer.accepted, k⟩ }
    let s := if s.powered domCore then s.showTick.each (List.finRange 12) fun n s => s.coreTick n k t else s
    let s := s.each (List.finRange 3) fun x s => s.tlmOpen x k t
    let s := if changed && s.powered domRing then
      s.each (List.finRange 3) fun x s => s.each (maskCells (s.admitted x)) fun c s => s.writeCfg x c else s
    .next (s.adcTick k t)
  else .next s

/-- Worst-case latency of an access, in cycles of I_CORE (R52). -/
def State.worstLatency (s : State) (a : Nat) (narrowWrite : Bool) : Nat :=
  if inRegSpace a then
    if blockOf a = 0 ∨ blockOf a = 1 ∨ blockOf a = 17 then 24420 else if blockOf a = 16 then 160 else 120
  else if a < 0x800000 then (if narrowWrite && !s.byteMode then 50 else 48)
  else if a < 0x20000000 then 160
  else 400

/-- The target of an access that has stalled a core, and whether it is a narrow write. -/
def Stall.access (w : Stall) : Option (Nat × Bool) :=
  match w with
  | .load _ _ a => some (a, false)
  | .loadVec _ a => some (a, false)
  | .store size a _ => some (a, decide (size < 4))
  | .storeVec _ a => some (a, false)
  | .input _ _ _ => none
  | .emit _ => none

/-- Cycles listed for the instruction that has stalled (R99). -/
def Stall.listed (w : Stall) : Nat :=
  match w with
  | .load _ _ _ | .store _ _ _ => 1
  | .loadVec _ _ | .storeVec _ _ => 13
  | .input _ _ _ => 3
  | .emit _ => 4

/-- Bytes of memory as the core's own loads see them: its held stores over what memory holds (R79). -/
def Core.overlayRead (c : Core) (a n raw : Nat) : Nat :=
  ofBytesLE ((List.range n).map fun i => overlayByte c.held (a + i) (byteAt raw i))

/-- A core's read of one word or less outside DMEM: none is a bus error. -/
def State.coreRead (s : State) (n : CoreId) (a size : Nat) : Option Nat × State :=
  if inRegSpace a then
    if size = 4 then
      let (v, s) := s.readReg (.core n) a
      (v.map (·.toNat), s)
    else (none, s)
  else
    let (v, s) := s.memRead (0x10 + n.val) a size
    (v.map fun raw => (s.cores[n]).overlayRead a size raw, s)

/-- A core's write of one word or less outside DMEM: false is a bus error. -/
def State.coreWrite (s : State) (n : CoreId) (a size : Nat) (v : Word) : State × Bool :=
  if inRegSpace a then
    if size = 4 then
      let (s, w) := s.writeReg (.core n) a v
      (s, w != .busError)
    else (s, false)
  else s.memWrite (0x10 + n.val) a (bytesLE size v.toNat)

/-- Words of a vector image read one after the other, with the address that failed. -/
def State.coreReads (s : State) (n : CoreId) (a : Nat) : Nat → Except (State × Nat) (List Nat × State)
  | 0 => .ok ([], s)
  | k + 1 =>
    match s.coreReads n a k with
    | .error e => .error e
    | .ok (l, s) =>
      match s.coreRead n (a + 4 * k) 4 with
      | (some v, s) => .ok (l ++ [v], s)
      | (none, s) => .error (s, a + 4 * k)

/-- Words of a vector image written one after the other, up to the first bus error. -/
def State.coreWrites (s : State) (n : CoreId) (a : Nat) : List Word → State × Option Nat
  | [] => (s, none)
  | v :: t =>
    match s.coreWrite n a 4 v with
    | (s, true) => s.coreWrites n (a + 4) t
    | (s, false) => (s, some a)

/-- A read of a stalled load answers: none is a bus error. -/
def State.readDone (p : Option Nat × State) (a : Nat) (go : Nat → State → Run) : Run :=
  match p.1 with
  | some raw => go raw p.2
  | none => p.2.trapWith causeBus (some a)

/-- A write of a stalled store answers: false is a bus error. -/
def State.writeDone (p : State × Bool) (a : Nat) (go : State → Run) : Run :=
  match p.2 with
  | true => go p.1
  | false => p.1.trapWith causeBus (some a)

/-- The reads of a stalled vector load answer. -/
def State.readsDone (p : Except (State × Nat) (List Nat × State)) (go : List Nat → State → Run) : Run :=
  match p with
  | .ok x => go x.1 x.2
  | .error x => x.1.trapWith causeBus (some x.2)

/-- The writes of a stalled vector store answer. -/
def State.writesDone (p : State × Option Nat) (go : State → Run) : Run :=
  match p.2 with
  | none => go p.1
  | some bad => p.1.trapWith causeBus (some bad)

/-- A stalled access completes after a number of cycles of I_CORE (R52, R90, R105). -/
def State.accessDone (s : State) (n : CoreId) (w : Stall) (cyc : Nat) : Run :=
  match w with
  | .load k rt a => State.readDone (s.coreRead n a k.size) a fun raw s => s.loadDone n k rt a raw (1 + cyc)
  | .store size a v => State.writeDone (s.coreWrite n a size v) a fun s => .ok (s.retire n 4 (1 + cyc))
  | .loadVec vd a => State.readsDone (s.coreReads n a imageWords) fun ws s => .ok ((s.writeV n vd (vregOfImage ws)).retire n 4 (13 + cyc))
  | .storeVec ws a => State.writesDone (s.coreWrites n a ws) fun s => .ok (s.retire n 4 (13 + cyc))
  | .input _ _ _ => .ok s
  | .emit _ => .ok s

/-- A core is powered and in a state in which a stall of its own can end. -/
def State.coreAlive (s : State) (n : CoreId) : Bool :=
  s.powered domCore && (s.coreState n == coreRunning || s.coreState n == coreSpec || s.coreState n == coreTrap)

/-- DATA_ACCESS_COMPLETE (R52): after the cycles named, at least 1 and at most the worst case of the target. -/
def execDataAccessComplete (n : CoreId) (cycles : Nat) (s : State) : Res :=
  let s := s.fresh
  match (s.cores[n]).stall with
  | some w =>
    match w.access with
    | some (a, narrow) =>
      if s.coreAlive n then
        let cyc := max 1 (min cycles (s.worstLatency a narrow))
        let s := (s.advanceTo ((s.cores[n]).stallAt + cyc * 10)).modCore n fun c => { c with stall := none }
        .next ((s.accessDone n w cyc).finish n 4 (w.listed + cyc))
      else .next s
    | none => .next s
  | none => .next s

/-- LD_IN_RESUME (R108): at once where the slot's data is present, otherwise at its timeout. -/
def execLdInResume (n : CoreId) (s : State) : Res :=
  let s := s.fresh
  match (s.cores[n]).stall with
  | some (.input reg pv slot) =>
    if s.coreAlive n then
      let d := (s.cores[n]).slot slot.toNat
      let s := if s.slotPresent d (s.cores[n]).period || s.stampBad d (s.cores[n]).period then s else s.advanceTo ((s.cores[n]).tick + d.tmo * 64)
      let s := s.modCore n fun c => { c with stall := none }
      .next ((s.ldInFinish n reg pv slot.toNat (s.waited n)).finish n 4 (3 + s.waited n))
    else .next s
  | _ => .next s

/-- EMIT_FIFO_ROOM (R121). -/
def execEmitFifoRoom (n : CoreId) (s : State) : Res :=
  let s := s.fresh
  match (s.cores[n]).stall with
  | some (.emit m) =>
    if s.coreAlive n && decide ((s.cores[n]).fifo.length < 8) then
      let s := s.modCore n fun c => { c with stall := none }
      .next ((s.pushEmit n m).retire n 4 (4 + s.waited n))
    else .next s
  | _ => .next s

/-- Does the real value of a used lane lie inside its band (R82)? A lane without a real value counts as outside. -/
def State.laneInBand (s : State) (n : CoreId) (slot : Nat) (d : SlotDesc) (i : Nat) : Bool :=
  let c := s.cores[n]
  match s.slotLane d c.period i, predict d.mode (predCell c.predSnap slot i) with
  | .code v, some p => decide ((v.toInt - p.toInt).natAbs ≤ d.band)
  | _, _ => false

/-- Every used lane of every used slot lies inside its band. -/
def State.inputsHold (s : State) (n : CoreId) : Bool :=
  (s.cores[n]).used.all fun k =>
    let d := (s.cores[n]).slot k.toNat
    s.slotPresent d (s.cores[n]).period && d.laneList.all fun i => s.laneInBand n k.toNat d i

/-- The real data of every slot that the run used is present (R81). -/
def State.inputsPresent (s : State) (n : CoreId) : Bool :=
  (s.cores[n]).used.all fun k => s.slotPresent ((s.cores[n]).slot k.toNat) (s.cores[n]).period

/-- Largest TMO of the used slots, in ticks. -/
def State.usedTmo (s : State) (n : CoreId) : Nat :=
  (s.cores[n]).used.foldl (fun m k => max m ((s.cores[n]).slot k.toNat).tmo) 0 * 64

/-- A commit (R83, R85): EMITs and stores are released, and the run goes on where it stands. -/
def State.commitRun (s : State) (n : CoreId) : State :=
  let c := s.cores[n]
  let parked := s.coreState n == coreParked
  let wait := if parked then s.waited n else 0
  let s := s.finc (F.CORE_SPECCNT_COMMITS n)
  let s := s.each c.emits fun m s => s.pushEmit n m
  let s := s.modCore n fun c =>
    { c with ckpt := none, stores := [], emits := [], used := [], specBad := false, drain := c.drain ++ c.stores,
             cycles := c.cycles + s.coreCycles n wait }
  let s := s.setCoreState n coreRunning
  if c.atWaitp then (s.modCore n fun c => { c with atWaitp := false }).endRun n else s

/-- A squash (R84): the checkpoint is restored, and the period starts again on real inputs, with REPLAY set. The manual does
not say whether a replay's LOST repeats that of the squashed run: the model gives it 0 (DESIGN CHOICE, log entry 43). -/
def State.squashRun (s : State) (n : CoreId) (ck : Regs) : State :=
  let c := s.cores[n]
  let s := s.finc (F.CORE_SPECCNT_SQUASHES n)
  let s := s.modCore n fun c => { c.dropSpec with r := ck, stall := none }
  s.startRun n c.period c.tick true false c.cmpPwr false

/-- COMPARE_POINT (R81 to R84): once its tick has come, at once where every used slot's data is present, otherwise at the
largest timeout. -/
def execComparePoint (n : CoreId) (s : State) : Res :=
  let s := s.fresh
  let c := s.cores[n]
  match c.ckpt with
  | some ck =>
    if s.powered domCore && decide (0 ≤ (BitVec.ofNat 32 s.tickCount - BitVec.ofNat 32 c.period).toInt) then
      let s := if s.inputsPresent n then s else s.advanceTo (c.tick + s.usedTmo n)
      .next (if s.inputsHold n && c.cmpPwr == c.specPwr && !c.specBad then s.commitRun n else s.squashRun n ck)
    else .next s
  | none => .next s

/-- A store that failed as it drained traps the core where the committed run stands (R532). A narrow store that meets an
uncorrectable DMEM word has set MEMERR.DUE, and no source is set for it (DESIGN CHOICE, log entry 53: for DRAIN the manual says
"as the target sets it", and names CORE_MEM_UE for the causes IFETCH_UE and DMEM_UE). -/
def State.drainFail (s : State) (n : CoreId) (e : BufStore) : State :=
  if s.coreState n = coreRunning ∨ s.coreState n = coreTrap then s.takeTrap n 0 causeDrain e.addr else s

/-- Stores drain in order; each that fails is not performed (R532). -/
def State.drainAll (s : State) (n : CoreId) : List BufStore → State
  | [] => s
  | e :: t =>
    match s.performStore n e with
    | (s, true) => s.drainAll n t
    | (s, false) => (s.drainFail n e).drainAll n t

/-- STORE_DRAIN_END (R83, R85). -/
def execStoreDrainEnd (n : CoreId) (s : State) : Res :=
  let s := s.fresh
  if s.powered domCore && !(s.cores[n]).drain.isEmpty then
    let l := (s.cores[n]).drain
    let s := (s.modCore n fun c => { c with drain := [] }).drainAll n l
    .next (if (s.cores[n]).atWaitp && s.coreState n == coreRunning then
      (s.modCore n fun c => { c with atWaitp := false }).endRun n else s)
  else .next s

/-- DRAIN_TRAP (R532): the first buffered store that fails; the stores behind it are still to drain. -/
def execDrainTrap (n : CoreId) (s : State) : Res :=
  let s := s.fresh
  if s.powered domCore then
    match s.drainUntil n (s.cores[n]).drain with
    | (s', some (e, t)) => .next ((s'.modCore n fun c => { c with drain := t }).drainFail n e)
    | (_, none) => .next s
  else .next s

end Sys2Proof.Machine
end

