-- ==== Sys2Proof/Machine/RegCommands.lean ====
section
/-!
DEFINITION. The commands that are a read or a write of one register or field: each is the access itself.
-/

namespace Sys2Proof.Machine

/-- A 1 written to one bit of a register, every other field left as it is: RW, RT and RL fields with their present values,
W1C and WO bits with 0. -/
def State.bitWord (s : State) (a : Nat) (bits : Word) : Word :=
  match findReg a with
  | some (r, _) => (s.nextWord a &&& r.mask (fun c => c == .rw || c == .rt || c == .rl)) ||| bits
  | none => bits

/-- REGISTER_WRITE (R8 to R10). -/
def execRegisterWrite (req : Requester) (addr : Nat) (value : Word) (s : State) : Res := .next (s.fresh.busWrite req addr value)
/-- RC_READ (R13). -/
def execRcRead (req : Requester) (addr : Nat) (s : State) : Res := .next (s.fresh.busRead req addr)
/-- CORE_ENABLE_WRITE (R74). -/
def execCoreEnableWrite (req : Requester) (value : Word) (s : State) : Res := .next (s.fresh.busWrite req A.CORE_ENABLE value)
/-- CORE_PERIOD_WRITE (R69, R94). -/
def execCorePeriodWrite (req : Requester) (value : Word) (s : State) : Res := .next (s.fresh.busWrite req A.CORE_PERIOD value)
/-- LOAD_WINDOW_READ (R95, R96). -/
def execLoadWindowRead (req : Requester) (n : CoreId) (s : State) : Res := .next (s.fresh.busRead req (A.CORE_LDATA n))
/-- LOAD_WINDOW_WRITE (R95, R96). -/
def execLoadWindowWrite (req : Requester) (n : CoreId) (value : Word) (s : State) : Res :=
  .next (s.fresh.busWrite req (A.CORE_LDATA n) value)
/-- PLAN_BYP_WRITE (R182). -/
def execPlanBypWrite (req : Requester) (x : RingId) (value : Word) (s : State) : Res := .next (s.fresh.busWrite req (A.PLAN_BYP x) value)
/-- FAIL_CLEAR (R187): the low or the high word of the mask. -/
def execFailClear (req : Requester) (x : RingId) (high : Bool) (value : Word) (s : State) : Res :=
  .next (s.fresh.busWrite req (if high then A.PLAN_FAILH x else A.PLAN_FAILL x) value)
/-- RETRAIN (R223). -/
def execRetrain (req : Requester) (p : LaneId) (s : State) : Res :=
  let s := s.fresh
  .next (s.busWrite req (A.RING_LCTRL p) (s.bitWord (A.RING_LCTRL p) 0x100))
/-- DLL_RELOCK (R211). -/
def execDllRelock (req : Requester) (value : Word) (s : State) : Res := .next (s.fresh.busWrite req A.CLK_DLLCMD value)
/-- REFSEL_WRITE (R215). -/
def execRefselWrite (req : Requester) (value : Word) (s : State) : Res := .next (s.fresh.busWrite req A.CLK_CTRL value)
/-- MGMT_TRANSFER (R198, R230). -/
def execMgmtTransfer (req : Requester) (p : LaneId) (value : Word) (s : State) : Res :=
  .next (s.fresh.busWrite req (A.RING_MGMT p) (value ||| 0x80000000))
/-- TAPS_WRITE (R203, R204). -/
def execTapsWrite (req : Requester) (p : LaneId) (value : Word) (s : State) : Res := .next (s.fresh.busWrite req (A.RING_TAPS p) value)
/-- EVTQ_READ (R266). -/
def execEvtqRead (req : Requester) (s : State) : Res := .next (s.fresh.busRead req A.RING_EVTQ3)
/-- CELL_ACCESS_GO (R269). -/
def execCellAccessGo (req : Requester) (value : Word) (s : State) : Res :=
  .next (s.fresh.busWrite req A.RING_CACMD (value ||| 0x80000000))
/-- RTIMEL_READ (R277). -/
def execRtimelRead (req : Requester) (s : State) : Res := .next (s.fresh.busRead req A.TIME_RTIMEL)
/-- LTIMEL_READ (R278). -/
def execLtimelRead (req : Requester) (s : State) : Res := .next (s.fresh.busRead req A.TIME_LTIMEL)
/-- CMP_DISARM (R285). -/
def execCmpDisarm (req : Requester) (u : UnitId) (s : State) : Res :=
  let s := s.fresh
  .next (s.busWrite req (A.TIME_CMPCTL u) (s.bitWord (A.TIME_CMPCTL u) 0x80000000))
/-- LATCHED_CLEAR (R320). -/
def execLatchedClear (req : Requester) (legs : BitVec 4) (s : State) : Res :=
  .next (s.fresh.busWrite req A.BRG_TSTAT (legs.setWidth 32 <<< 4))
/-- GATE_FAULT_CLEAR (R334). -/
def execGateFaultClear (req : Requester) (x : LegId) (s : State) : Res := .next (s.fresh.busWrite req (A.GATE_STAT x) 0x80)
/-- PSTARTL_READ. -/
def execPstartlRead (req : Requester) (s : State) : Res := .next (s.fresh.busRead req A.BRG_PSTARTL)
/-- GBUF_WRITE (R349). -/
def execGbufWrite (req : Requester) (g : UnitId) (value : Word) (s : State) : Res := .next (s.fresh.busWrite req (A.ADC_GBUF g) value)
/-- CALIBRATE (R354). -/
def execCalibrate (req : Requester) (converters : BitVec 8) (s : State) : Res :=
  .next (s.fresh.busWrite req A.ADC_CALCMD (converters.setWidth 32))
/-- ZXTL_READ (R357). -/
def execZxtlRead (req : Requester) (s : State) : Res := .next (s.fresh.busRead req A.ADC_ZXTL)
/-- ARM (R362). -/
def execArm (req : Requester) (u : CaptId) (s : State) : Res := .next (s.fresh.busWrite req (A.CAPT_CMD u) 1)
/-- FORCE (R362). -/
def execForce (req : Requester) (u : CaptId) (s : State) : Res := .next (s.fresh.busWrite req (A.CAPT_CMD u) 2)
/-- ABORT (R362). -/
def execAbort (req : Requester) (u : CaptId) (s : State) : Res := .next (s.fresh.busWrite req (A.CAPT_CMD u) 3)
/-- MTR_EL_READ. -/
def execMtrElRead (req : Requester) (j : EnergyId) (s : State) : Res := .next (s.fresh.busRead req (A.MTR_EL j))
/-- PIN_HOLD_WRITE (R433). -/
def execPinHoldWrite (req : Requester) (value : Word) (s : State) : Res := .next (s.fresh.busWrite req A.FLT_PIN value)
/-- HISTL_READ (R437). -/
def execHistlRead (req : Requester) (k : HistId) (s : State) : Res := .next (s.fresh.busRead req (A.FLT_HISTL k))
/-- SWSET (R425). -/
def execSwset (req : Requester) (value : Word) (s : State) : Res := .next (s.fresh.busWrite req A.FLT_SWSET value)
/-- SELF_FAULT_CLEAR (R440). -/
def execSelfFaultClear (req : Requester) (s : State) : Res := .next (s.fresh.busWrite req A.FLT_SELF 0x80000000)
/-- MEM_MODE_WRITE (R448). -/
def execMemModeWrite (req : Requester) (value : Word) (s : State) : Res := .next (s.fresh.busWrite req A.MEM_CTRL value)
/-- THERM_LIMIT_WRITE (R457). -/
def execThermLimitWrite (req : Requester) (value : Word) (s : State) : Res := .next (s.fresh.busWrite req A.THERM_LIMIT value)

end Sys2Proof.Machine
end

