-- ==== Sys2Proof/Machine/Host.lean ====
section
/-!
DEFINITION. The command protocol of the three host ports (R464 to R483): datagrams, counters, sessions, and the commands
that read and write registers, memory, core stores and takes.
-/

namespace Sys2Proof.Machine

/-- Statuses of R478. -/
def stOk : BitVec 8 := 0x00
def stBadCmd : BitVec 8 := 0x01
def stBadLen : BitVec 8 := 0x02
def stBusErr : BitVec 8 := 0x03
def stPort : BitVec 8 := 0x04
def stNoSession : BitVec 8 := 0x05
def stBusy : BitVec 8 := 0x06
def stState : BitVec 8 := 0x07
def stRefused : BitVec 8 := 0x08
def stSignature : BitVec 8 := 0x09
def stVerify : BitVec 8 := 0x0A
def stNotOwner : BitVec 8 := 0x0B

/-- Header and payload of a reply (R464, R469): VER, CMD, FLAGS with REPLY and LOADER, STATUS, LEN, CTR, payload. -/
def Reply.body (r : Reply) : List Byte :=
  [0x01, r.cmd, if r.loader then 0x05 else 0x01, r.status] ++ bytesLE 2 (4 * r.payload.length) ++ [0, 0] ++
    bytesLE 8 r.ctr.toNat ++ (r.payload.map fun w => bytesLE 4 w.toNat).flatten

/-- The datagram: the body and its authentication code under a key (R464, R469). -/
def Reply.datagram (r : Reply) (key : List Byte) : List Byte := r.body ++ Config.hmac key r.body

/-- Bit FLAGS.LOADER: the loader runs. -/
def State.inLoader (s : State) : Bool := s.flag F.HOST_STAT_LOADER

/-- Does a port take part in the IP layer: HOST is powered, its link is up, its address is not 0.0.0.0? -/
def State.portUp (s : State) (h : HostPort) : Bool :=
  s.powered domHost && !s.oscStopped && (s.fget F.HOST_STAT_LINK).testBit h.val && s.fget (F.HOST_IP_ADDR h) != 0

/-- A reply leaves, and is kept for a repeated request (R467, R469). -/
def State.answer (s : State) (q : Dgram) (r : Reply) : State :=
  (s.modHost q.port fun p => { p with reply := some r }).emit
    (.reply q.port q.ip q.udp r (r.datagram ((s.host[q.port]).key.getD [])))

/-- A datagram whose authentication code does not match (R466). -/
def State.authFail (s : State) (h : HostPort) : State :=
  ((s.finc (F.HOST_PCNT_AUTH h)).fsetBit F.HOST_STAT_AUTHF h.val).raise srcHostAuth

/-- A datagram with a counter that is not above the last one (R467). -/
def State.replayFail (s : State) (h : HostPort) : State := (s.finc (F.HOST_PCNT_REPLAY h)).raise srcHostReplay

/-- Is the sender of a request the one that holds the port's session (R474)? -/
def State.fromSession (s : State) (q : Dgram) : Bool := (s.host[q.port]).session == some (q.ip, q.udp)

/-- Acceptance of a request (R467, R468, R474): its counter is stored and counted, and the session's time starts anew. -/
def State.acceptReq (s : State) (q : Dgram) : State :=
  (s.modHost q.port fun p =>
    { p with ctr := q.ctr, lastReq := if s.fromSession q then s.ticks else p.lastReq }).finc (F.HOST_PCNT_ACCEPT q.port)

/-- What a command answers: its status and its payload. -/
abbrev Ans : Type := State × BitVec 8 × List Word

/-- A row of the table under R477: its code, whether it is a service-port command, and whether the loader has it. -/
structure CmdRow where
  code    : BitVec 8
  service : Bool
  loader  : Bool
  deriving DecidableEq, Repr

/-- The request of one command (R465 to R478): discarded, or accepted and answered. `needs` says whether a session is
needed, `lenOk` whether the payload has a length and counts of the table, and `run` executes it. -/
def State.hostCmd (s : State) (q : Dgram) (c : CmdRow) (needs lenOk : Bool) (run : State → Ans) : State :=
  if !s.portUp q.port then s
  else if (s.host[q.port]).key.isNone && !(c.code == 0x60 && q.port == 2) then s.authFail q.port
  else if q.ctr ≤ (s.host[q.port]).ctr then s.replayFail q.port
  else
    let loader := s.inLoader
    let s := s.acceptReq q
    let (s, status, payload) : Ans :=
      if loader && !c.loader then (s, stBadCmd, [])
      else if c.service && q.port != 2 then (s, stPort, [])
      else if needs && !s.fromSession q then (s, stNoSession, [])
      else if !lenOk then (s, stBadLen, [])
      else run s
    s.answer q ⟨c.code, loader, status, q.ctr, payload⟩

/-- AUTH_FAILURE (R466). -/
def execAuthFailure (h : HostPort) (s : State) : Res :=
  let s := s.fresh
  .next (if s.portUp h then s.authFail h else s)

/-- REPLAY_REJECT (R467): a request that repeats the last counter with the same authentication code has its reply sent
again, unchanged. -/
def execReplayReject (q : Dgram) (sameMac : Bool) (s : State) : Res :=
  let s := s.fresh
  if s.portUp q.port && (s.host[q.port]).key.isSome && decide (q.ctr ≤ (s.host[q.port]).ctr) then
    match (s.host[q.port]).reply with
    | some r => if sameMac && q.ctr == (s.host[q.port]).ctr then .next (s.answer q r) else .next (s.replayFail q.port)
    | none => .next (s.replayFail q.port)
  else .next s

/-- MALFORMED_DATAGRAM (R465): discarded, nothing counted. -/
def execMalformedDatagram (_h : HostPort) (s : State) : Res := .next s.fresh

/-- A session opens, or that of the same sender is renewed; the event count starts anew (R474, R475, R483). -/
def State.openSession (s : State) (q : Dgram) : State :=
  let s := s.modHost q.port fun p => { p with session := some (q.ip, q.udp), lastReq := s.ticks, evCount := 0 }
  ((s.fsetBit F.HOST_STAT_SESS q.port.val).fset (F.HOST_SESSIP_ADDR q.port) q.ip.toNat).fset (F.HOST_SESSP_UDP q.port) q.udp.toNat

/-- Payload of HELLO: part 0x8640 and hardware issue 1, the image VERSION, the port. -/
def State.identity (s : State) (h : HostPort) : List Word := [0x00018640, s.word A.UPD_RUNVER, BitVec.ofNat 32 h.val]

/-- HELLO (R474, R475). -/
def execHello (q : Dgram) (s : State) : Res :=
  .next (s.fresh.hostCmd q ⟨0x01, false, true⟩ false true fun s =>
    if (s.host[q.port]).session.isSome && !s.fromSession q then (s, stBusy, [])
    else (s.openSession q, stOk, s.identity q.port))

/-- BYE (R474). -/
def execBye (q : Dgram) (s : State) : Res :=
  .next (s.fresh.hostCmd q ⟨0x02, false, true⟩ true true fun s => (s.endSession q.port, stOk, []))

/-- Blocks that the loader reads: HOST, UPD and SUP (R477). -/
def loaderBlock (a : Nat) : Bool := findReg a != none && (blockOf a == 13 || blockOf a == 14 || blockOf a == 0)

/-- Consecutive registers read in order: the failing address, or the words (R480). -/
def State.readRegs (s : State) (req : Requester) (a : Nat) : Nat → State × Except Nat (List Word)
  | 0 => (s, .ok [])
  | n + 1 =>
    if s.inLoader && !loaderBlock a then (s, .error a)
    else match s.readReg req a with
      | (none, s) => (s, .error a)
      | (some v, s) =>
        match s.readRegs req (a + 4) n with
        | (s, .ok l) => (s, .ok (v :: l))
        | (s, .error e) => (s, .error e)

/-- The answer to a read: the words, or BUSERR with the failing address (R478). -/
def readAnswer : State × Except Nat (List Word) → Ans
  | (s, .ok l) => (s, stOk, l)
  | (s, .error a) => (s, stBusErr, [BitVec.ofNat 32 a])

/-- REG_READ (R480). -/
def execRegRead (q : Dgram) (addr count : Nat) (s : State) : Res :=
  .next (s.fresh.hostCmd q ⟨0x10, false, true⟩ true (decide (1 ≤ count ∧ count ≤ 256)) fun s =>
    readAnswer (s.readRegs (.host q.port) addr count))

/-- The arbiter decides until a requester has nothing left in it: the refusal code of its last request (R479). -/
def State.arbWait (req : Requester) : Nat → State → Option Nat → State × Option Nat
  | 0, s, last => (s, last)
  | k + 1, s, last =>
    if (s.sup.arb ++ s.sup.arbNext.map (·.2)).any (fun r => r.req == req) then
      match s.arbStep with
      | (s, some (r, c)) => State.arbWait req k s (if r.req == req then c else last)
      | (s, none) => (s, last)
    else (s, last)

/-- One pair of REG_WRITE: a write to SUP.MODE_REQ is answered after the arbiter has decided it (R479). -/
def State.hostWrite (s : State) (req : Requester) (a : Nat) (v : Word) : State × Wrote :=
  match s.writeReg req a v with
  | (s, .done) =>
    if a = A.SUP_MODE_REQ then
      match State.arbWait req (s.sup.arb.length + s.sup.arbNext.length) s none with
      | (s, some c) => (s, .refused (BitVec.ofNat 8 c))
      | (s, none) => (s, .done)
    else (s, .done)
  | r => r

/-- Status, and the payload for a write that ended so after `n` writes performed (R478, R479). -/
def wroteAnswer (n a : Nat) : Wrote → BitVec 8 × List Word
  | .done => (stOk, [BitVec.ofNat 32 n, 0])
  | .locked => (stState, [BitVec.ofNat 32 n, 0])
  | .range => (stBadLen, [BitVec.ofNat 32 n, 0])
  | .busError => (stBusErr, [BitVec.ofNat 32 a])
  | .refused c => (stRefused, [BitVec.ofNat 32 n, c.setWidth 32])

/-- The pairs of REG_WRITE in order, stopping at the first write that is not performed (R479). -/
def State.writeRegs (s : State) (req : Requester) (n : Nat) : List (Nat × Word) → Ans
  | [] => (s, wroteAnswer n 0 .done)
  | (a, v) :: t =>
    match s.hostWrite req a v with
    | (s, .done) => s.writeRegs req (n + 1) t
    | (s, w) => (s, wroteAnswer n a w)

/-- REG_WRITE (R479). -/
def execRegWrite (q : Dgram) (pairs : List (Nat × Word)) (s : State) : Res :=
  .next (s.fresh.hostCmd q ⟨0x11, false, false⟩ true (decide (1 ≤ pairs.length ∧ pairs.length ≤ 128)) fun s =>
    s.writeRegs (.host q.port) 0 pairs)

/-- The accesses of a block command: at most 8 bytes each, none across a 64-bit word; the fuel bounds their number. -/
def chunks : Nat → Nat → Nat → List (Nat × Nat)
  | 0, _, _ => []
  | k + 1, a, n => if n = 0 then [] else let m := min n (8 - a % 8); (a, m) :: chunks k (a + m) (n - m)

/-- Bytes read access by access: the failing address, or the bytes. -/
def State.readChunks (s : State) (who : Nat) : List (Nat × Nat) → State × Except Nat (List Byte)
  | [] => (s, .ok [])
  | (a, n) :: t =>
    match s.memRead who a n with
    | (none, s) => (s, .error a)
    | (some v, s) =>
      match s.readChunks who t with
      | (s, .ok l) => (s, .ok (bytesLE n v ++ l))
      | (s, .error e) => (s, .error e)

/-- Bytes written access by access: the failing address, if any. -/
def State.writeChunks (s : State) (who : Nat) (bytes : List Byte) : List (Nat × Nat) → State × Option Nat
  | [] => (s, none)
  | (a, n) :: t =>
    match s.memWrite who a (bytes.take n) with
    | (s, true) => s.writeChunks who (bytes.drop n) t
    | (s, false) => (s, some a)

/-- Bytes as the words of a payload. -/
def wordsOf (bytes : List Byte) : List Word :=
  (List.range (bytes.length / 4)).map fun i => BitVec.ofNat 32 (ofBytesLE ((bytes.drop (4 * i)).take 4))

/-- A count of bytes that MEM_READ and MEM_WRITE take (R477). -/
def blockLen (n : Nat) : Bool := decide (4 ≤ n ∧ n ≤ 1024 ∧ n % 4 = 0)

/-- MEM_READ (R477, R478). -/
def execMemRead (q : Dgram) (addr nbytes : Nat) (s : State) : Res :=
  .next (s.fresh.hostCmd q ⟨0x12, false, false⟩ true (blockLen nbytes) fun s =>
    match s.readChunks (q.port.val + 1) (chunks nbytes addr nbytes) with
    | (s, .ok l) => (s, stOk, wordsOf l)
    | (s, .error a) => (s, stBusErr, [BitVec.ofNat 32 a]))

/-- Does a block touch the script store (R484)? -/
def inScriptStore (a n : Nat) : Bool := decide (a < 0x11000000 ∧ 0x10801000 < a + n)

/-- MEM_WRITE (R484). -/
def execMemWrite (q : Dgram) (addr : Nat) (data : List Byte) (s : State) : Res :=
  .next (s.fresh.hostCmd q ⟨0x13, false, false⟩ true (blockLen data.length) fun s =>
    if inScriptStore addr data.length && s.pwr != pwrStopped then (s, stState, [])
    else match s.writeChunks (q.port.val + 1) data (chunks data.length addr data.length) with
      | (s, none) => (s, stOk, [])
      | (s, some a) => (s, stBusErr, [BitVec.ofNat 32 a]))

/-- Words through CORE.LDATAn in order: false at the first that R95 rejects. -/
def State.loadWords (s : State) (req : Requester) (n : CoreId) : List Word → State × Bool
  | [] => (s, true)
  | v :: t =>
    match s.writeReg req (A.CORE_LDATA n) v with
    | (s, .done) => s.loadWords req n t
    | (s, _) => (s, false)

/-- CORE_LOAD (R481). -/
def execCoreLoad (q : Dgram) (core : BitVec 8) (sel : BitVec 8) (word : Nat) (words : List Word) (s : State) : Res :=
  .next (s.fresh.hostCmd q ⟨0x18, false, false⟩ true
    (decide (core.toNat < 12 ∧ sel.toNat ≤ 1 ∧ word < 2 ^ 15 ∧ 1 ≤ words.length ∧ words.length ≤ 256)) fun s =>
      if h : core.toNat < 12 then
        let n : CoreId := ⟨core.toNat, h⟩
        match s.writeReg (.host q.port) (A.CORE_LADDR n) (BitVec.ofNat 32 (sel.toNat * 2 ^ 31 + 4 * word)) with
        | (s, .done) =>
          match s.loadWords (.host q.port) n words with
          | (s, true) => (s, stOk, [])
          | (s, false) => (s, stBusErr, [BitVec.ofNat 32 (A.CORE_LDATA n)])
        | (s, _) => (s, stBusErr, [BitVec.ofNat 32 (A.CORE_LADDR n)])
      else (s, stBadLen, []))

/-- Owner code of a host port's takes. -/
def takeOwner (q : Dgram) : Nat := q.port.val + 1

/-- A command on a take: CORE holds the takes; its answer is TAKE.STATh as the command leaves it, and NOTOWNER where
another requester owns the take or its state is not one the command needs (R123, R129, R478, R482). -/
def State.onTake (s : State) (q : Dgram) (handle : BitVec 8) (ok : Nat → Bool) (f : HandleId → State → State) : Ans :=
  if h : handle.toNat < 8 then
    let t : HandleId := ⟨handle.toNat, h⟩
    if !s.powered domCore then (s, stBusErr, [BitVec.ofNat 32 (A.TAKE_STAT t)])
    else if s.fget (F.TAKE_STAT_OWNER t) = takeOwner q ∧ ok (s.takeState t) then
      let s := f t s
      (s, stOk, [s.word (A.TAKE_STAT t)])
    else (s, stNotOwner, [s.word (A.TAKE_STAT t)])
  else (s, stBadLen, [])

/-- TK_OPEN (R128, R482): HANDLE 0xFF with eight takes open, for which no TAKE.STATh exists. -/
def execTkOpenCommand (q : Dgram) (s : State) : Res :=
  .next (s.fresh.hostCmd q ⟨0x20, false, false⟩ true true fun s =>
    if !s.powered domCore then (s, stBusErr, [BitVec.ofNat 32 (A.TAKE_STAT 0)])
    else match s.openTake (takeOwner q) with
      | (some h, s) => (s, stOk, [BitVec.ofNat 32 h.val, s.word (A.TAKE_STAT h)])
      | (none, s) => (s, stOk, [0xFF, 0]))

/-- The pairs of TK_WR, stopping at the first that cuts the take (R482). -/
def State.takePairs (s : State) (h : HandleId) : List (Nat × Word) → State
  | [] => s
  | (a, v) :: t =>
    match s.writeTake h a v with
    | (s, true) => s.takePairs h t
    | (s, false) => s

/-- TK_WR (R482). -/
def execTkWrCommand (q : Dgram) (handle : BitVec 8) (pairs : List (Nat × Word)) (s : State) : Res :=
  .next (s.fresh.hostCmd q ⟨0x21, false, false⟩ true (decide (1 ≤ pairs.length ∧ pairs.length ≤ 128)) fun s =>
    s.onTake q handle (· == takeOpen) fun h s => s.takePairs h pairs)

/-- TK_PRINT (R146, R482): an undefined boundary code cuts the take with REFUSED. -/
def execTkPrintCommand (q : Dgram) (handle bnd : BitVec 8) (instant : BitVec 48) (s : State) : Res :=
  .next (s.fresh.hostCmd q ⟨0x22, false, false⟩ true true fun s =>
    s.onTake q handle (· == takeOpen) fun h s =>
      if bnd.toNat ≤ 4 then s.printTake h bnd.toNat instant else s.cutTake h cutRefused)

/-- TK_CUT (R146, R482). -/
def execTkCutCommand (q : Dgram) (handle : BitVec 8) (s : State) : Res :=
  .next (s.fresh.hostCmd q ⟨0x23, false, false⟩ true true fun s =>
    s.onTake q handle (fun st => st == takeOpen || st == takePending) fun h s => s.cutTake h cutAbandoned)

/-- TK_STAT (R482): it needs no ownership. -/
def execTkStatCommand (q : Dgram) (handle : BitVec 8) (s : State) : Res :=
  .next (s.fresh.hostCmd q ⟨0x24, false, false⟩ true (decide (handle.toNat < 8)) fun s =>
    if s.powered domCore then (s, stOk, [s.word (A.TAKE_STAT handle.toNat)])
    else (s, stBusErr, [BitVec.ofNat 32 (A.TAKE_STAT handle.toNat)]))

/-- UNKNOWN_COMMAND (R477, R478): BADCMD whatever else holds. -/
def execUnknownCommand (q : Dgram) (cmd : BitVec 8) (s : State) : Res :=
  .next (s.fresh.hostCmd q ⟨cmd, false, true⟩ false true fun s => (s, stBadCmd, []))

/-- SESSION_TIMEOUT (R474). -/
def execSessionTimeout (h : HostPort) (s : State) : Res :=
  let s := s.fresh
  if s.powered domHost && (s.host[h]).session.isSome then
    .next ((s.advanceTo ((s.host[h]).lastReq + s.fget F.HOST_CTRL_SESSTMO * sec)).endSession h)
  else .next s

/-- HOST_LINK_DOWN (R146, R297, R474, R505): the session ends, the port's takes are abandoned, and with both Ethernet
links down PTP lock turns to holdover. -/
def execHostLinkDown (h : HostPort) (s : State) : Res :=
  let s := s.fresh
  if s.powered domHost && (s.fget F.HOST_STAT_LINK).testBit h.val then
    let s := (((s.fclrBit F.HOST_STAT_LINK h.val).endSession h).abandonTakes (h.val + 1)).hostLinkCond
    .next (if s.fget F.HOST_STAT_LINK % 4 = 0 ∧ h.val < 2 then s.toHoldover else s)
  else .next s

/-- HOST_LINK_UP (R505). -/
def execHostLinkUp (h : HostPort) (s : State) : Res :=
  let s := s.fresh
  .next (if s.powered domHost then (s.fsetBit F.HOST_STAT_LINK h.val).hostLinkCond else s)

end Sys2Proof.Machine
end

