-- ==== Sys2Proof/Machine/Periods.lean ====
section
/-!
DEFINITION. The start of a PWM period of the local bridge, with the takes that are due at it (R309, R313).
-/

namespace Sys2Proof.Machine

/-- PWM_PERIOD_START (R309 to R316): the takes due by then are applied first, and what they leave governs the period; not while the
oscillator that I_MOD runs from is stopped (R214). -/
def execPwmPeriodStart (s : State) : Res :=
  let s := s.fresh
  if s.powered domAnlg && s.brg.running && !s.oscStopped then
    let s0 := s.nextPwm
    let s := (s.takesUpTo s0).advanceTo s0
    let s := (s.applyLiveBlock 7).takeEntry s0
    let t := s.fget F.BRG_PER_PER * 32
    let s := s.setWord A.BRG_PSTARTL (BitVec.ofNat 32 (s.rtimeAt s0).toNat)
    let s := { s with brg := { s.brg with start := s0, length := t, lastStart := s.rtimeAt s0, noCmd := if s.powered domGate then 0 else 0xFF } }
    .next (s.each (List.finRange 4) (fun x s => s.legPeriod s0 t x))
  else .next s

end Sys2Proof.Machine
end

