-- ==== Sys2Proof/Machine/Upd.lean ====
section
/-!
DEFINITION. Field update, the loader, the resident configuration and the service-only commands (R421, R422, R472, R473,
R484 to R497).
-/

namespace Sys2Proof.Machine

/-- Number in n slate bytes from one. -/
def slateField (slate : List Byte) (i n : Nat) : Nat := ofBytesLE ((slate.drop i).take n)

def slateVersion (slate : List Byte) : Nat := slateField slate 12 4
def slateLength (slate : List Byte) : Nat := slateField slate 16 4
def slateDigest (slate : List Byte) : List Byte := (slate.drop 24).take 32

/-- The fields of the table under R486 hold. -/
def slateFieldsOk (slate : List Byte) : Bool :=
  slateField slate 0 4 == 0x57464E5A && slateField slate 4 2 == 0x0001 && slateField slate 6 2 == 0x0001 &&
  slateField slate 8 4 == 0x8640 && decide (8 ≤ slateLength slate ∧ slateLength slate ≤ bodyMax ∧ slateLength slate % 8 = 0) &&
  slateField slate 20 4 == 0 && slateField slate 56 8 == 0

/-- Fields and signature (R488). -/
def slateOk (slate : List Byte) : Bool := slateFieldsOk slate && Config.slateSignatureValid slate

/-- Words 2 and 3 of the update records: VERSION, and DIGEST bytes 0 to 7 (R506). -/
def slateWord2 (low : Nat) (slate : List Byte) : Nat := slateVersion slate * 2 ^ 32 + low
def slateWord3 (slate : List Byte) : Nat := ofBytesLE ((slateDigest slate).take 8)

def State.modUpd (s : State) (f : Upd → Upd) : State := { s with upd := f s.upd }

/-- Is the lock held by the port of a request? -/
def State.holdsLock (s : State) (q : Dgram) : Bool := s.upd.lock == some q.port

/-- The checks of the slate, and the lock with the update axis (R488). -/
def State.grantLock (s : State) (q : Dgram) (slate : List Byte) : Ans :=
  if slateOk slate then
    let s := s.modUpd fun u => { u with lock := some q.port, since := s.ticks, wrote := false, bytes := 0, slate := slate }
    let s := (((s.fset F.UPD_STAT_LOCK 1).fset F.UPD_STAT_OWNER q.port.val).fset F.UPD_STAT_VERIFIED 0).updAxis
    (s, stOk, [BitVec.ofNat 32 q.port.val])
  else (s, stSignature, [])

/-- UPD_OPEN (R488). -/
def execUpdOpen (q : Dgram) (slate : List Byte) (s : State) : Res :=
  .next (s.fresh.hostCmd q ⟨0x40, false, true⟩ true (slate.length == 128) fun s =>
    if s.pwr ≠ pwrStopped then (s.refuse (.host q.port) reqUpd 2 1 refState, stState, [])
    else match s.upd.lock with
      | some h => if h ≠ q.port then (s, stBusy, [BitVec.ofNat 32 h.val]) else s.grantLock q slate
      | none => s.grantLock q slate)

/-- What precedes the first block of a session (R490). -/
def State.beginBody (s : State) (q : Dgram) : State :=
  let slate := s.upd.slate
  let s := s.writeSl slInProgress 0
  let s := (s.memStore reqUpd slateAddr slate).1.fset F.UPD_SLATEVER_VERSION (slateVersion slate)
  (s.modUpd fun u => { u with wrote := true }).logHigh 0x41 (slateWord2 q.port.val slate) (slateWord3 slate)

/-- A block whose place is inside the body (R490, R491): any earlier verification is void, and the lock's time starts anew. -/
def State.writeBody (s : State) (q : Dgram) (offset : Nat) (data : List Byte) : Ans :=
  let s := if s.upd.wrote then s else s.beginBody q
  let (s, ok) := s.memStore reqUpd (bodyAddr + offset) data
  let s := (s.modUpd fun u => { u with since := s.ticks, bytes := u.bytes + data.length }).fset F.UPD_STAT_VERIFIED 0
  if ok then (s, stOk, []) else (s, stBusErr, [BitVec.ofNat 32 (bodyAddr + offset)])

/-- UPD_BLOCK (R490, R491). -/
def execUpdBlock (q : Dgram) (offset : Nat) (data : List Byte) (s : State) : Res :=
  .next (s.fresh.hostCmd q ⟨0x41, false, true⟩ true (decide (8 ≤ data.length ∧ data.length ≤ 1024 ∧ data.length % 8 = 0)) fun s =>
    if !s.holdsLock q then (s, stState, [])
    else if slateLength s.upd.slate < offset + data.length then (s, stBadLen, [])
    else s.writeBody q offset data)

/-- The body of a slate's LENGTH has its DIGEST (R492). -/
def State.bodyDigestOk (s : State) (slate : List Byte) : Bool × State :=
  match s.memRead reqUpd bodyAddr (slateLength slate) with
  | (some w, s) => (Config.sha256 (bytesLE (slateLength slate) w) == slateDigest slate, s)
  | (none, s) => (false, s)

/-- UPD_VERIFY (R492). -/
def execUpdVerify (q : Dgram) (s : State) : Res :=
  .next (s.fresh.hostCmd q ⟨0x42, false, true⟩ true true fun s =>
    if s.holdsLock q then
      match s.bodyDigestOk s.upd.slate with
      | (true, s) => (s.fset F.UPD_STAT_VERIFIED 1, stOk, [])
      | (false, s) => ((s.fset F.UPD_STAT_VERIFIED 0).raise srcUpdVerify, stVerify, [])
    else (s, stState, []))

/-- UPD_ACTIVATE (R489, R493): VALID with BOOTS 0; the lock ends, and a restart follows. -/
def execUpdActivate (q : Dgram) (s : State) : Res :=
  .next (s.fresh.hostCmd q ⟨0x43, false, true⟩ true true fun s =>
    if s.holdsLock q && s.flag F.UPD_STAT_VERIFIED then
      let slate := s.upd.slate
      let s := (s.writeSl slValid 0).logHigh 0x42 (slateWord2 0 slate) (slateWord3 slate)
      ((s.modUpd fun u => { u with restart := true }).updEnd, stOk, [])
    else (s, stState, []))

/-- The domains that R493 restarts, in the order of start-up. -/
def restartDomains : List Nat :=
  startGroups.flatten.filter fun d => d != domSafa && d != domSafb && d != domMtr

/-- Every domain except AON, SAFA, SAFB and MTR restarts (R493). -/
def State.restartModule (s : State) : State :=
  let s := s.powerOffAll restartDomains.reverse
  (s.each restartDomains fun d s => s.powerUp d).fset F.SUP_STAT_LASTRST 2

/-- ACTIVATION_RESTART (R493): after an accepted UPD_ACTIVATE. -/
def execActivationRestart (s : State) : Res :=
  let s := s.fresh
  .next (if s.powered domAon && s.powered domHost && s.upd.restart then s.restartModule else s)

/-- VERSION in the slate that MRAM holds, as it is read (R443, R444); a word that cannot be read leaves the version shown. -/
def State.storedVersion (s : State) : Nat × State :=
  match s.memRead reqUpd (slateAddr + 12) 4 with
  | (some v, s) => (v, s)
  | (none, s) => (s.fget F.UPD_SLATEVER_VERSION, s)

/-- An update record whose word 2 is the stored VERSION (R506). -/
def State.logVersion (s : State) (kind : BitVec 8) : State := s.storedVersion.2.logHigh kind (s.storedVersion.1 * 2 ^ 32) 0

/-- UPD_CONFIRM (R495): within 120 s of the start of an image in VALID; BOOTS keeps its value. -/
def execUpdConfirm (q : Dgram) (s : State) : Res :=
  .next (s.fresh.hostCmd q ⟨0x44, false, false⟩ true true fun s =>
    match s.upd.validAt with
    | some t =>
      if s.ticks ≤ t + 120 * sec then
        let s := s.writeSl slConfirmed (s.fget F.UPD_STAT_BOOTS)
        let s := s.logVersion 0x43
        ((s.modUpd fun u => { u with validAt := none }).updAxis, stOk, [])
      else (s, stState, [])
    | none => (s, stState, []))

/-- UPD_CLOSE (R489). -/
def execUpdClose (q : Dgram) (s : State) : Res :=
  .next (s.fresh.hostCmd q ⟨0x45, false, true⟩ true true fun s =>
    if s.holdsLock q then (s.updEnd, stOk, []) else (s, stState, []))

/-- UPD_LAPSE (R489): more than 60 s after UPD_OPEN or the last block. -/
def execUpdLapse (s : State) : Res :=
  let s := s.fresh
  match s.upd.lock with
  | some h =>
    if s.powered domHost then
      let s := s.advanceTo (s.upd.since + 60 * sec + 1)
      .next ((s.raise srcUpdLapse).logHigh 0x45 h.val s.upd.bytes).updEnd
    else .next s
  | none => .next s

/-- UPD_UNCONF (R495): more than 120 s after the start of an image in VALID. -/
def execUpdUnconf (s : State) : Res :=
  let s := s.fresh
  match s.upd.validAt with
  | some t =>
    if s.powered domHost && s.powered domAon then
      .next (((s.advanceTo (t + 120 * sec + 1)).raise srcUpdUnconf).restartModule)
    else .next s
  | none => .next s

/-- The loader stays: it waits for the commands that the table under R477 marks for it. -/
def State.loaderStay (s : State) : State := { s with sup := { s.sup with loaderHold := true } }

/-- The loader has verified an image and starts it (R494, R495). -/
def State.startImage (s : State) (slate : List Byte) (unconfirmed : Bool) : State :=
  let s := (s.fset F.HOST_STAT_LOADER 0).fset F.UPD_RUNVER_VERSION (slateVersion slate)
  (s.modUpd fun u => { u with validAt := if unconfirmed then some s.ticks else none }).updAxis

/-- DIGEST and signature of the image in MRAM (R494): the slate where both hold. -/
def State.checkImage (s : State) : Option (List Byte) × State :=
  match s.memRead reqUpd slateAddr 128 with
  | (some w, s) =>
    let slate := bytesLE 128 w
    if slateOk slate then
      match s.bodyDigestOk slate with
      | (true, s) => (some slate, s)
      | (false, s) => (none, s)
    else (none, s)
  | (none, s) => (none, s)

/-- LOADER_START (R494). -/
def execLoaderStart (s : State) : Res :=
  let s := s.fresh
  if s.powered domHost && s.inLoader && !s.sup.loaderHold then
    let ((state, boots), s) := s.slState
    let (v, s) := (s.showSl state boots).storedVersion
    let s := s.fset F.UPD_SLATEVER_VERSION v
    if state = slValid ∧ 3 ≤ boots then
      let s := (s.writeSl slRejected boots).raise srcUpdReject
      .next (s.logVersion 0x44).loaderStay
    else if state = slConfirmed ∨ state = slValid then
      match s.checkImage with
      | (some slate, s) =>
        let s := if state = slValid then s.writeSl slValid (boots + 1) else s
        .next (s.startImage slate (state == slValid))
      | (none, s) => .next (s.raise srcUpdVerify).loaderStay
    else .next s.loaderStay
  else .next s

/-- SAFE_LOAD (R421, R488). -/
def execSafeLoad (q : Dgram) (set : List Byte) (s : State) : Res :=
  .next (s.fresh.hostCmd q ⟨0x50, true, false⟩ true (set.length == 512) fun s =>
    if s.pwr ≠ pwrStopped ∨ s.flag F.SUP_MODE_UPD = true then (s, stState, [])
    else if s.powered domSafa && s.powered domSafb then
      match s.safeLoad set with
      | (s, true) => (s.logHigh 0x46 (setByteAt set 2 + 256 * setByteAt set 3) (setCrcField set).toNat, stOk, [])
      | (s, false) => (s, stRefused, [])
    else (s, stRefused, []))

/-- SAFE_CONFIRM (R422). -/
def execSafeConfirm (q : Dgram) (check : Word) (s : State) : Res :=
  .next (s.fresh.hostCmd q ⟨0x51, true, false⟩ true true fun s =>
    match s.safeConfirm check with
    | (s, true) => (s.logHigh 0x47 (s.fget F.SAFE_PSET_SETNUM) check.toNat, stOk, [])
    | (s, false) => (s, stRefused, []))

/-- Ticks for which SAFE_RESET has to be held for KEY_INIT (R472). -/
def keyHold : Nat := 6000 * ms

/-- A port's key is replaced, or erased, and its counter starts again (R472, R473). -/
def State.setKey (s : State) (h : HostPort) (key : Option (List Byte)) : State :=
  s.modHost h fun p => { p with key := key, ctr := 0 }

/-- A KEY_CHANGE record and HOST_KEY (R473, R506). -/
def State.keyChanged (s : State) (port : Nat) (init : Bool) : State :=
  (s.logHigh 0x40 (port + init.toNat * 256) 0).raise srcHostKey

/-- KEY_INIT (R471, R472). -/
def execKeyInit (q : Dgram) (key : List Byte) (s : State) : Res :=
  .next (s.fresh.hostCmd q ⟨0x60, true, true⟩ false (key.length == 32) fun s =>
    if s.pwr = pwrStopped ∧ s.safe.resetSince.any (fun t => decide (t + keyHold ≤ s.ticks)) = true then
      ((((s.setKey 0 none).setKey 1 none).setKey 2 (some key)).keyChanged 2 true, stOk, [])
    else (s, stState, []))

/-- KEY_SET (R473): ports 0 and 1. -/
def execKeySet (q : Dgram) (target : BitVec 8) (key : List Byte) (s : State) : Res :=
  .next (s.fresh.hostCmd q ⟨0x61, true, true⟩ true (key.length == 32 && decide (target.toNat ≤ 1)) fun s =>
    if s.pwr = pwrStopped then
      ((s.setKey (if target = 0 then 0 else 1) (some key)).keyChanged target.toNat false, stOk, [])
    else (s, stState, []))

/-- First byte of the script store (R484). -/
def storeAddr : Nat := 0x10801000

/-- An entry of the script store (R484). -/
structure StoreEntry where
  kind   : Nat
  core   : Nat
  target : Nat
  data   : List Byte
  crc    : Nat
  deriving DecidableEq, Repr

/-- Entry e of the store as MRAM holds it; none where its data does not lie in the region or cannot be read. -/
def State.storeEntry (s : State) (e : Nat) : Option StoreEntry × State :=
  match s.memRead reqUpd (storeAddr + 16 + 24 * e) 24 with
  | (some w, s) =>
    let b := bytesLE 24 w
    let off := slateField b 8 4
    let len := slateField b 12 4
    if off % 8 = 0 ∧ len % 4 = 0 ∧ storeAddr + off + len ≤ 0x11000000 then
      match s.memRead reqUpd (storeAddr + off) len with
      | (some d, s) => (some ⟨slateField b 0 1, slateField b 1 1, slateField b 4 4, bytesLE len d, slateField b 16 4⟩, s)
      | (none, s) => (none, s)
    else (none, s)
  | (none, s) => (none, s)

/-- Address and value pairs of a register list. -/
def pairsOf : List Word → List (Nat × Word)
  | a :: v :: t => (a.toNat, v) :: pairsOf t
  | _ => []

/-- A register list as direct writes: false at the first that is rejected or ends with a bus error (R485). -/
def State.applyPairs (s : State) : List (Nat × Word) → State × Bool
  | [] => (s, true)
  | (a, v) :: t =>
    match s.writeReg .unit a v with
    | (s, .done) => s.applyPairs t
    | (s, .refused _) => s.applyPairs t
    | (s, _) => (s, false)

/-- Data through the load window of a core (R485). -/
def State.applyLoad (s : State) (e : StoreEntry) : State × Bool :=
  if h : e.core < 12 then
    if e.target < 2 ^ 15 then
      match s.writeReg .unit (A.CORE_LADDR e.core) (BitVec.ofNat 32 ((e.kind - 2) * 2 ^ 31 + 4 * e.target)) with
      | (s, .done) => s.loadWords .unit ⟨e.core, h⟩ (wordsOf e.data)
      | (s, _) => (s, false)
    else (s, false)
  else (s, false)

/-- Data to script SRAM (R485). -/
def State.applySram (s : State) (e : StoreEntry) : State × Bool :=
  if e.target + e.data.length ≤ s.sramSize then
    match s.writeChunks reqUpd e.data (chunks e.data.length e.target e.data.length) with
    | (s, none) => (s, true)
    | (s, some _) => (s, false)
  else (s, false)

/-- One entry: its DCRC, then its data (R484, R485). -/
def State.applyEntry (s : State) (e : StoreEntry) : State × Bool :=
  if (crc32 e.data).toNat ≠ e.crc then (s, false)
  else match e.kind with
    | 1 => if e.data.length % 8 = 0 then s.applyPairs (pairsOf (wordsOf e.data)) else (s, false)
    | 2 | 3 => s.applyLoad e
    | 4 => s.applySram e
    | _ => (s, false)

/-- The entries in order, to the first that stops: how many were applied, and whether all were. -/
def State.applyEntries (s : State) (n : Nat) : List Nat → State × Nat × Bool
  | [] => (s, n, true)
  | e :: t =>
    match s.storeEntry e with
    | (some x, s) =>
      match s.applyEntry x with
      | (s, true) => s.applyEntries (n + 1) t
      | (s, false) => (s, n, false)
    | (none, s) => (s, n, false)

/-- The store: its header, then its entries (R484, R485). -/
def State.applyStore (s : State) : State × Nat × Bool :=
  match s.memRead reqUpd storeAddr 16 with
  | (some w, s) =>
    let b := bytesLE 16 w
    let n := slateField b 4 4
    if slateField b 0 4 ≠ 0x54534E5A ∨ n = 0 then (s, 0, true)
    else if n ≤ 64 then
      match s.memRead reqUpd (storeAddr + 16) (24 * n) with
      | (some e, s) =>
        if (crc32 (bytesLE (24 * n) e)).toNat = slateField b 12 4 then s.applyEntries 0 (List.range n) else (s, 0, false)
      | (none, s) => (s, 0, false)
    else (s, 0, false)
  | (none, s) => (s, 0, false)

/-- RESIDENT_CONFIG_APPLY (R484, R485): once per start of the image, with every core halted and the power stage STOPPED. -/
def execResidentConfigApply (s : State) : Res :=
  let s := s.fresh
  if s.powered domHost && !s.inLoader && !s.sup.configDone && s.pwr == pwrStopped &&
      (List.finRange 12).all (fun n => s.coreState n == coreHalted) then
    let (s, n, ok) := s.applyStore
    let s := { s with sup := { s.sup with configDone := true } }
    let s := if ok then s else s.raise srcStoreCrc
    .next (s.logHigh 0x48 (n + (if ok then 0 else 256)) 0)
  else .next s

end Sys2Proof.Machine
end

