-- ==== Sys2Proof/Machine/Whole.lean ====
section
/-!
DEFINITION. Shorthands for the commands that bring a frame, in the terms of what the frame says: the frame arrives whole, on
the even port of its ring or on P7, in positions from 20 on, from a transmitter whose scrambler stands at 0.
-/

namespace Sys2Proof

open Machine

/-- A frame as it stands on a lane whose scrambler starts at 0, from position 20 on. -/
def Machine.wholeLine (f : Machine.Frame) : List LineBlock := (lineBlocks 0 (f.zipIdx.map fun b => ⟨20 + b.2, b.2 == 0, b.1⟩)).1

/-- The blocks of a cell's message, whole. -/
def Machine.cellLine (x : RingId) (k : CellId) (m : CellMsg) : List LineBlock := wholeLine (m.frame x k)

/-- TLM of a period, as R236 lays it out. -/
def Instr.tlmReceived (x : RingId) (k : CellId) (tick : Nat) (q : List (BitVec 16)) (status : Word) : Instr :=
  .tlmHeard (evenPort x) (cellLine x k (.tlm tick q status)) false
def Machine.execTlmReceived (x : RingId) (k : CellId) (tick : Nat) (q : List (BitVec 16)) (status : Word) (s : State) : Res :=
  execTlmHeard (evenPort x) (cellLine x k (.tlm tick q status)) false s

/-- EVT, as R236 lays it out. -/
def Instr.evtReceived (x : RingId) (k : CellId) (code : BitVec 8) (seq : BitVec 16) (time : BitVec 48) (data : Word) : Instr :=
  .evtHeard (evenPort x) (cellLine x k (.evt code seq time data)) false
def Machine.execEvtReceived (x : RingId) (k : CellId) (code : BitVec 8) (seq : BitVec 16) (time : BitVec 48) (data : Word)
    (s : State) : Res :=
  execEvtHeard (evenPort x) (cellLine x k (.evt code seq time data)) false s

/-- CLAPR, as R236 lays it out. -/
def Instr.claprReceived (x : RingId) (k : CellId) (num : BitVec 8) (a b : BitVec 48) (loopCw loopCcw : Nat) : Instr :=
  .claprHeard (evenPort x) (cellLine x k (.clapr num a b)) loopCw loopCcw
def Machine.execClaprReceived (x : RingId) (k : CellId) (num : BitVec 8) (a b : BitVec 48) (loopCw loopCcw : Nat)
    (s : State) : Res :=
  execClaprHeard (evenPort x) (cellLine x k (.clapr num a b)) loopCw loopCcw s

/-- REGRSP, as R236 lays it out. -/
def Instr.regrspReceived (x : RingId) (k : CellId) (tag : BitVec 8) (status : BitVec 2) (data : Word) : Instr :=
  .regrspHeard (evenPort x) (cellLine x k (.regrsp tag status data))
def Machine.execRegrspReceived (x : RingId) (k : CellId) (tag : BitVec 8) (status : BitVec 2) (data : Word) (s : State) : Res :=
  execRegrspHeard (evenPort x) (cellLine x k (.regrsp tag status data)) s

/-- CAPD, as R366 lays it out. -/
def Instr.capdReceived (x : RingId) (k : CellId) (qmask : BitVec 8) (epoch : BitVec 35) (fseq : BitVec 16)
    (codes : List (BitVec 16)) : Instr :=
  .capdHeard (evenPort x) (cellLine x k (.capd qmask epoch fseq codes))
def Machine.execCapdReceived (x : RingId) (k : CellId) (qmask : BitVec 8) (epoch : BitVec 35) (fseq : BitVec 16)
    (codes : List (BitVec 16)) (s : State) : Res :=
  execCapdHeard (evenPort x) (cellLine x k (.capd qmask epoch fseq codes)) s

/-- REGRQ as a cell hears it from the clockwise side (R236). -/
def Machine.regrqLine (x : RingId) (k : CellId) (tag : BitVec 8) (write : Bool) (addr : BitVec 16) (data : Word) : Machine.Frame :=
  L0Msg.frame x .cw (.regrq (k.val + 1) tag write addr data)
def Instr.cellRegrq (x : RingId) (k : CellId) (tag : BitVec 8) (write : Bool) (addr : BitVec 16) (data : Word) : Instr :=
  .cellRegrqHeard x k .cw ((regrqLine x k tag write addr data).at_ 0) ((regrqLine x k tag write addr data).at_ 1)
def Machine.execCellRegrq (x : RingId) (k : CellId) (tag : BitVec 8) (write : Bool) (addr : BitVec 16) (data : Word)
    (s : State) : Res :=
  execCellRegrqHeard x k .cw ((regrqLine x k tag write addr data).at_ 0) ((regrqLine x k tag write addr data).at_ 1) s

/-- PCLAP of P7 (R504). -/
def Instr.pclap (num : BitVec 8) (count acc fwd : Nat) : Instr := .pclapHeard (wholeLine [pclapBlock num count acc]) fwd
def Machine.execPclap (num : BitVec 8) (count acc fwd : Nat) (s : State) : Res :=
  execPclapHeard (wholeLine [pclapBlock num count acc]) fwd s

/-- PTIME of P7 (R504). -/
def Instr.ptime (tL : BitVec 48) (h followers : Nat) (num : BitVec 8) : Instr :=
  .ptimeHeard (wholeLine (ptimeFrame tL h followers num))
def Machine.execPtime (tL : BitVec 48) (h followers : Nat) (num : BitVec 8) (s : State) : Res :=
  execPtimeHeard (wholeLine (ptimeFrame tL h followers num)) s

end Sys2Proof
end

