-- ==== Sys2Proof/Machine/Dispatch.lean ====
section
/-!
DEFINITION. One arm per command: its meaning.
-/

namespace Sys2Proof.Machine

/-- The effect of a command on everything but the queue. -/
def exec (i : Instr) (s : State) : Host.Outcome State Fault Refusal :=
  match i with
  | .registerWrite req addr value => Sys2Proof.Machine.execRegisterWrite req addr value s
  | .rcRead req addr => Sys2Proof.Machine.execRcRead req addr s
  | .powerOn => Sys2Proof.Machine.execPowerOn s
  | .domainPowerUp => Sys2Proof.Machine.execDomainPowerUp s
  | .ringReady ms => Sys2Proof.Machine.execRingReady ms s
  | .auxSupplyLoss => Sys2Proof.Machine.execAuxSupplyLoss s
  | .holdupEnd => Sys2Proof.Machine.execHoldupEnd s
  | .auxSupplyReturn => Sys2Proof.Machine.execAuxSupplyReturn s
  | .brownOut volts => Sys2Proof.Machine.execBrownOut volts s
  | .storeMeasure milliJoule => Sys2Proof.Machine.execStoreMeasure milliJoule s
  | .domainLoss d => Sys2Proof.Machine.execDomainLoss d s
  | .rtimeIslandStop => Sys2Proof.Machine.execRtimeIslandStop s
  | .stopInstant => Sys2Proof.Machine.execStopInstant s
  | .powerStateUpdate => Sys2Proof.Machine.execPowerStateUpdate s
  | .reqPrecharge req => Sys2Proof.Machine.execReqPrecharge req s
  | .reqRun req => Sys2Proof.Machine.execReqRun req s
  | .reqStop req => Sys2Proof.Machine.execReqStop req s
  | .reqSafeStop req => Sys2Proof.Machine.execReqSafeStop req s
  | .reqClear req => Sys2Proof.Machine.execReqClear req s
  | .reqRide req => Sys2Proof.Machine.execReqRide req s
  | .reqResume req => Sys2Proof.Machine.execReqResume req s
  | .reqUndefined req low => Sys2Proof.Machine.execReqUndefined req low s
  | .arbiterDecision => Sys2Proof.Machine.execArbiterDecision s
  | .periodTick => Sys2Proof.Machine.execPeriodTick s
  | .coreEnableWrite req value => Sys2Proof.Machine.execCoreEnableWrite req value s
  | .corePeriodWrite req value => Sys2Proof.Machine.execCorePeriodWrite req value s
  | .loadWindowRead req n => Sys2Proof.Machine.execLoadWindowRead req n s
  | .loadWindowWrite req n value => Sys2Proof.Machine.execLoadWindowWrite req n value s
  | .dataAccessComplete n cycles => Sys2Proof.Machine.execDataAccessComplete n cycles s
  | .ldInResume n => Sys2Proof.Machine.execLdInResume n s
  | .emitFifoRoom n => Sys2Proof.Machine.execEmitFifoRoom n s
  | .comparePoint n => Sys2Proof.Machine.execComparePoint n s
  | .storeDrainEnd n => Sys2Proof.Machine.execStoreDrainEnd n s
  | .drainTrap n => Sys2Proof.Machine.execDrainTrap n s
  | .illegalInstruction n word => Sys2Proof.Machine.execIllegalInstruction n word s
  | .add n rd ra rb => Sys2Proof.Machine.execAdd n rd ra rb s
  | .sub n rd ra rb => Sys2Proof.Machine.execSub n rd ra rb s
  | .and n rd ra rb => Sys2Proof.Machine.execAnd n rd ra rb s
  | .or n rd ra rb => Sys2Proof.Machine.execOr n rd ra rb s
  | .xor n rd ra rb => Sys2Proof.Machine.execXor n rd ra rb s
  | .sll n rd ra rb => Sys2Proof.Machine.execSll n rd ra rb s
  | .srl n rd ra rb => Sys2Proof.Machine.execSrl n rd ra rb s
  | .sra n rd ra rb => Sys2Proof.Machine.execSra n rd ra rb s
  | .slt n rd ra rb => Sys2Proof.Machine.execSlt n rd ra rb s
  | .sltu n rd ra rb => Sys2Proof.Machine.execSltu n rd ra rb s
  | .mul n rd ra rb => Sys2Proof.Machine.execMul n rd ra rb s
  | .mulh n rd ra rb => Sys2Proof.Machine.execMulh n rd ra rb s
  | .div n rd ra rb => Sys2Proof.Machine.execDiv n rd ra rb s
  | .divu n rd ra rb => Sys2Proof.Machine.execDivu n rd ra rb s
  | .rem n rd ra rb => Sys2Proof.Machine.execRem n rd ra rb s
  | .adds n rd ra rb => Sys2Proof.Machine.execAdds n rd ra rb s
  | .subs n rd ra rb => Sys2Proof.Machine.execSubs n rd ra rb s
  | .addi n rd ra imm => Sys2Proof.Machine.execAddi n rd ra imm s
  | .andi n rd ra imm => Sys2Proof.Machine.execAndi n rd ra imm s
  | .ori n rd ra imm => Sys2Proof.Machine.execOri n rd ra imm s
  | .slti n rd ra imm => Sys2Proof.Machine.execSlti n rd ra imm s
  | .slli n rd ra imm => Sys2Proof.Machine.execSlli n rd ra imm s
  | .srli n rd ra imm => Sys2Proof.Machine.execSrli n rd ra imm s
  | .srai n rd ra imm => Sys2Proof.Machine.execSrai n rd ra imm s
  | .lui n rd imm => Sys2Proof.Machine.execLui n rd imm s
  | .li n rd => Sys2Proof.Machine.execLi n rd s
  | .beq n ra rd imm => Sys2Proof.Machine.execBeq n ra rd imm s
  | .bne n ra rd imm => Sys2Proof.Machine.execBne n ra rd imm s
  | .blt n ra rd imm => Sys2Proof.Machine.execBlt n ra rd imm s
  | .bge n ra rd imm => Sys2Proof.Machine.execBge n ra rd imm s
  | .bltu n ra rd imm => Sys2Proof.Machine.execBltu n ra rd imm s
  | .bgeu n ra rd imm => Sys2Proof.Machine.execBgeu n ra rd imm s
  | .j n imm => Sys2Proof.Machine.execJ n imm s
  | .call n imm => Sys2Proof.Machine.execCall n imm s
  | .jr n ra => Sys2Proof.Machine.execJr n ra s
  | .lw n rt ra off => Sys2Proof.Machine.execLw n rt ra off s
  | .lh n rt ra off => Sys2Proof.Machine.execLh n rt ra off s
  | .lhu n rt ra off => Sys2Proof.Machine.execLhu n rt ra off s
  | .lb n rt ra off => Sys2Proof.Machine.execLb n rt ra off s
  | .lbu n rt ra off => Sys2Proof.Machine.execLbu n rt ra off s
  | .sw n rt ra off => Sys2Proof.Machine.execSw n rt ra off s
  | .sh n rt ra off => Sys2Proof.Machine.execSh n rt ra off s
  | .sb n rt ra off => Sys2Proof.Machine.execSb n rt ra off s
  | .ldSmp n rt ra off => Sys2Proof.Machine.execLdSmp n rt ra off s
  | .vld n vd ra off => Sys2Proof.Machine.execVld n vd ra off s
  | .vst n vd ra off => Sys2Proof.Machine.execVst n vd ra off s
  | .ldIn n reg pv slot => Sys2Proof.Machine.execLdIn n reg pv slot s
  | .predSet n slot reg => Sys2Proof.Machine.execPredSet n slot reg s
  | .sfAdd n rd ra rb => Sys2Proof.Machine.execSfAdd n rd ra rb s
  | .sfSub n rd ra rb => Sys2Proof.Machine.execSfSub n rd ra rb s
  | .sfMul n rd ra rb => Sys2Proof.Machine.execSfMul n rd ra rb s
  | .sfAbs n rd ra => Sys2Proof.Machine.execSfAbs n rd ra s
  | .sfSlt n rd ra rb => Sys2Proof.Machine.execSfSlt n rd ra rb s
  | .sfSle n rd ra rb => Sys2Proof.Machine.execSfSle n rd ra rb s
  | .sfFromi n rd ra => Sys2Proof.Machine.execSfFromi n rd ra s
  | .sfToi n rd ra => Sys2Proof.Machine.execSfToi n rd ra s
  | .sfScale n rd ra rb => Sys2Proof.Machine.execSfScale n rd ra rb s
  | .vadd n vd va vb pg => Sys2Proof.Machine.execVadd n vd va vb pg s
  | .vsub n vd va vb pg => Sys2Proof.Machine.execVsub n vd va vb pg s
  | .vmul n vd va vb pg => Sys2Proof.Machine.execVmul n vd va vb pg s
  | .vmac n vd va vb pg => Sys2Proof.Machine.execVmac n vd va vb pg s
  | .vneg n vd va pg => Sys2Proof.Machine.execVneg n vd va pg s
  | .vabs n vd va pg => Sys2Proof.Machine.execVabs n vd va pg s
  | .vmin n vd va vb pg => Sys2Proof.Machine.execVmin n vd va vb pg s
  | .vmax n vd va vb pg => Sys2Proof.Machine.execVmax n vd va vb pg s
  | .vclamp n vd va vb vc pg => Sys2Proof.Machine.execVclamp n vd va vb vc pg s
  | .vscale n vd va rs pg => Sys2Proof.Machine.execVscale n vd va rs pg s
  | .vmov n vd va pg => Sys2Proof.Machine.execVmov n vd va pg s
  | .vbcast n vd rs pg => Sys2Proof.Machine.execVbcast n vd rs pg s
  | .vsel n vd va vb pg => Sys2Proof.Machine.execVsel n vd va vb pg s
  | .vget n rs va idx => Sys2Proof.Machine.execVget n rs va idx s
  | .vset n vd rs idx => Sys2Proof.Machine.execVset n vd rs idx s
  | .vsum n rs va pg => Sys2Proof.Machine.execVsum n rs va pg s
  | .vdot n rs va vb pg => Sys2Proof.Machine.execVdot n rs va vb pg s
  | .vmaxr n rs va pg => Sys2Proof.Machine.execVmaxr n rs va pg s
  | .vminr n rs va pg => Sys2Proof.Machine.execVminr n rs va pg s
  | .vcmplt n pd va vb pg => Sys2Proof.Machine.execVcmplt n pd va vb pg s
  | .vcmple n pd va vb pg => Sys2Proof.Machine.execVcmple n pd va vb pg s
  | .pand n pd pa pb => Sys2Proof.Machine.execPand n pd pa pb s
  | .por n pd pa pb => Sys2Proof.Machine.execPor n pd pa pb s
  | .pnot n pd pa => Sys2Proof.Machine.execPnot n pd pa s
  | .psetl n pd rs => Sys2Proof.Machine.execPsetl n pd rs s
  | .pseth n pd rs => Sys2Proof.Machine.execPseth n pd rs s
  | .pget n rs pa h => Sys2Proof.Machine.execPget n rs pa h s
  | .pcnt n rs pa pg => Sys2Proof.Machine.execPcnt n rs pa pg s
  | .piStep n vd va vb pg rp => Sys2Proof.Machine.execPiStep n vd va vb pg rp s
  | .hyst n pd va pg rp => Sys2Proof.Machine.execHyst n pd va pg rp s
  | .minsel n vd va cnt pg pw => Sys2Proof.Machine.execMinsel n vd va cnt pg pw s
  | .setp n vd va pg rp => Sys2Proof.Machine.execSetp n vd va pg rp s
  | .emit n va pg dest qty => Sys2Proof.Machine.execEmit n va pg dest qty s
  | .nop n => Sys2Proof.Machine.execNop n s
  | .waitp n => Sys2Proof.Machine.execWaitp n s
  | .rett n => Sys2Proof.Machine.execRett n s
  | .brk n => Sys2Proof.Machine.execBrk n s
  | .rdsys n rd sel => Sys2Proof.Machine.execRdsys n rd sel s
  | .tkOpen n rd => Sys2Proof.Machine.execTkOpen n rd s
  | .tkWr n rd ra rb => Sys2Proof.Machine.execTkWr n rd ra rb s
  | .tkPrint n ra rb bnd => Sys2Proof.Machine.execTkPrint n ra rb bnd s
  | .tkCut n ra => Sys2Proof.Machine.execTkCut n ra s
  | .tkStat n rd ra => Sys2Proof.Machine.execTkStat n rd ra s
  | .takeApply h => Sys2Proof.Machine.execTakeApply h s
  | .takeOpenTimeout h => Sys2Proof.Machine.execTakeOpenTimeout h s
  | .takeWaitTimeout h => Sys2Proof.Machine.execTakeWaitTimeout h s
  | .emitReceived n => Sys2Proof.Machine.execEmitReceived n s
  | .buildCut d => Sys2Proof.Machine.execBuildCut d s
  | .commit d => Sys2Proof.Machine.execCommit d s
  | .dispatch d => Sys2Proof.Machine.execDispatch d s
  | .planBypWrite req x value => Sys2Proof.Machine.execPlanBypWrite req x value s
  | .failClear req x high value => Sys2Proof.Machine.execFailClear req x high value s
  | .trainingAttempt p => Sys2Proof.Machine.execTrainingAttempt p s
  | .moduleReady p identifier powerClass cdrControl => Sys2Proof.Machine.execModuleReady p identifier powerClass cdrControl s
  | .trainingTimeout p present eyes => Sys2Proof.Machine.execTrainingTimeout p s present eyes
  | .trainingRetry p => Sys2Proof.Machine.execTrainingRetry p s
  | .retrain req p => Sys2Proof.Machine.execRetrain req p s
  | .portTrained p skew => Sys2Proof.Machine.execPortTrained p skew s
  | .rxClockPresent p ppb => Sys2Proof.Machine.execRxClockPresent p s ppb
  | .rxclkLost p => Sys2Proof.Machine.execRxclkLost p s
  | .blockLockGained p lane phase eye => Sys2Proof.Machine.execBlockLockGained p lane phase eye s
  | .blklockLost p lane => Sys2Proof.Machine.execBlklockLost p lane s
  | .portFailed p cause => Sys2Proof.Machine.execPortFailed p cause s
  | .dllLock p delayPs => Sys2Proof.Machine.execDllLock p delayPs s
  | .dllGateOpen p errorPs => Sys2Proof.Machine.execDllGateOpen p errorPs s
  | .dllLossOfLock p errorPs => Sys2Proof.Machine.execDllLossOfLock p errorPs s
  | .dllRelock req value => Sys2Proof.Machine.execDllRelock req value s
  | .refselWrite req value => Sys2Proof.Machine.execRefselWrite req value s
  | .mainOscillatorFail lasts => Sys2Proof.Machine.execMainOscillatorFail s lasts
  | .spareOscillatorFail lasts => Sys2Proof.Machine.execSpareOscillatorFail s lasts
  | .extReferenceLost => Sys2Proof.Machine.execExtReferenceLost s
  | .extReferenceReturn ppb => Sys2Proof.Machine.execExtReferenceReturn s ppb
  | .trkFreeze p lane windows => Sys2Proof.Machine.execTrkFreeze p lane s windows
  | .trackerResume p lane centre => Sys2Proof.Machine.execTrackerResume p lane s centre
  | .mgmtTransfer req p value => Sys2Proof.Machine.execMgmtTransfer req p value s
  | .mgmtTransferDone p data => Sys2Proof.Machine.execMgmtTransferDone p data s
  | .tapsWrite req p value => Sys2Proof.Machine.execTapsWrite req p value s
  | .summaryReturn x cw ccw lines => Sys2Proof.Machine.execSummaryReturn x cw ccw s lines
  | .summarySlotTimeout x k => Sys2Proof.Machine.execSummarySlotTimeout x k s
  | .clapperLaunch x => Sys2Proof.Machine.execClapperLaunch x s
  | .claprHeard p blocks loopCw loopCcw => Sys2Proof.Machine.execClaprHeard p blocks loopCw loopCcw s
  | .enumStart x => Sys2Proof.Machine.execEnumStart x s
  | .enumReturn x countCw countCcw lines => Sys2Proof.Machine.execEnumReturn x countCw countCcw s lines
  | .admission x k => Sys2Proof.Machine.execAdmission x k s
  | .admissionClaprTimeout x k => Sys2Proof.Machine.execAdmissionClaprTimeout x k s
  | .evtHeard p blocks full => Sys2Proof.Machine.execEvtHeard p blocks full s
  | .evtqRead req => Sys2Proof.Machine.execEvtqRead req s
  | .tlmHeard p blocks full => Sys2Proof.Machine.execTlmHeard p blocks full s
  | .tlmWaitExpiry x => Sys2Proof.Machine.execTlmWaitExpiry x s
  | .cellAccessGo req value => Sys2Proof.Machine.execCellAccessGo req value s
  | .regrspHeard p blocks => Sys2Proof.Machine.execRegrspHeard p blocks s
  | .cellAccessTimeout => Sys2Proof.Machine.execCellAccessTimeout s
  | .cellFirstClock x k dir desc => Sys2Proof.Machine.execCellFirstClock x k dir s desc
  | .cellEpoch x k dir epoch heard => Sys2Proof.Machine.execCellEpoch x k dir epoch s heard
  | .cellClockChangeover x k otherPresent => Sys2Proof.Machine.execCellClockChangeover x k s otherPresent
  | .clkJump x k diffPs dir => Sys2Proof.Machine.execClkJump x k diffPs s dir
  | .cellClap x k dir num heard => Sys2Proof.Machine.execCellClap x k dir num s heard
  | .cellTset x k step corr dir heard => Sys2Proof.Machine.execCellTset x k step corr s dir heard
  | .cellEnum x k dir count heard => Sys2Proof.Machine.execCellEnum x k dir count s heard
  | .cellAdmit x k dir heard => Sys2Proof.Machine.execCellAdmit x k s dir heard
  | .cellUnadmit x k dir heard => Sys2Proof.Machine.execCellUnadmit x k s dir heard
  | .cellArm x k epoch dir heard pos => Sys2Proof.Machine.execCellArm x k epoch s dir heard pos
  | .cellStop x k reason epoch dir heard => Sys2Proof.Machine.execCellStop x k reason epoch s dir heard
  | .hbLost x k => Sys2Proof.Machine.execHbLost x k s
  | .framingLost x k => Sys2Proof.Machine.execFramingLost x k s
  | .noPstart x k => Sys2Proof.Machine.execNoPstart x k s
  | .cellInternalFault x k low => Sys2Proof.Machine.execCellInternalFault x k low s
  | .cellRecordAccept x k record dir heard => Sys2Proof.Machine.execCellRecordAccept x k record s dir heard
  | .cellRecordExecute x k => Sys2Proof.Machine.execCellRecordExecute x k s
  | .cellRegrqHeard x k dir ctl data => Sys2Proof.Machine.execCellRegrqHeard x k dir ctl data s
  | .linkLost x k dir l3 => Sys2Proof.Machine.execLinkLost x k dir s l3
  | .cellLoopRemove x k dir => Sys2Proof.Machine.execCellLoopRemove x k dir s
  | .cellTelemetrySend x k quant => Sys2Proof.Machine.execCellTelemetrySend x k s quant
  | .cellCaptureSample x k quant => Sys2Proof.Machine.execCellCaptureSample x k s quant
  | .rtimelRead req => Sys2Proof.Machine.execRtimelRead req s
  | .ltimelRead req => Sys2Proof.Machine.execLtimelRead req s
  | .gtimeReanchor => Sys2Proof.Machine.execGtimeReanchor s
  | .ptpEventMessage port transmit messageType sequenceId => Sys2Proof.Machine.execPtpEventMessage port transmit messageType sequenceId s
  | .syncMeasurement theta kFreq utcOffset => Sys2Proof.Machine.execSyncMeasurement theta kFreq utcOffset s
  | .gtimeStep => Sys2Proof.Machine.execGtimeStep s
  | .holdover => Sys2Proof.Machine.execHoldover s
  | .holdmaxExpiry => Sys2Proof.Machine.execHoldmaxExpiry s
  | .timePairSend => Sys2Proof.Machine.execTimePairSend s
  | .compareFire u => Sys2Proof.Machine.execCompareFire u s
  | .cmpDisarm req u => Sys2Proof.Machine.execCmpDisarm req u s
  | .peerClapperLaunch loopTime fwdSum followers => Sys2Proof.Machine.execPeerClapperLaunch loopTime fwdSum followers s
  | .pclapHeard blocks fwd => Sys2Proof.Machine.execPclapHeard blocks fwd s
  | .ptimeHeard blocks => Sys2Proof.Machine.execPtimeHeard blocks s
  | .peerLost => Sys2Proof.Machine.execPeerLost s
  | .peerReturn => Sys2Proof.Machine.execPeerReturn s
  | .pwmPeriodStart => Sys2Proof.Machine.execPwmPeriodStart s
  | .brgEntryReceived entry => Sys2Proof.Machine.execBrgEntryReceived entry s
  | .trip t input => Sys2Proof.Machine.execTrip t s input
  | .latchedClear req legs => Sys2Proof.Machine.execLatchedClear req legs s
  | .gateSupplyLockout x high negative seen => Sys2Proof.Machine.execGateSupplyLockout x high negative s seen
  | .desaturationFault x high mv => Sys2Proof.Machine.execDesaturationFault x high s mv
  | .overcurrentFault x seen => Sys2Proof.Machine.execOvercurrentFault x s seen
  | .softTurnoffStart x => Sys2Proof.Machine.execSoftTurnoffStart x s
  | .softTurnoffEnd x => Sys2Proof.Machine.execSoftTurnoffEnd x s
  | .gateFaultClear req x => Sys2Proof.Machine.execGateFaultClear req x s
  | .gateCommandLoss x high primary => Sys2Proof.Machine.execGateCommandLoss x high s primary
  | .pstartlRead req => Sys2Proof.Machine.execPstartlRead req s
  | .conversionSlot codes full nv bad strmFull => Sys2Proof.Machine.execConversionSlot codes s full nv bad strmFull
  | .groupStampWrite g => Sys2Proof.Machine.execGroupStampWrite g s
  | .gbufWrite req g value => Sys2Proof.Machine.execGbufWrite req g value s
  | .referenceSettled k => Sys2Proof.Machine.execReferenceSettled k s
  | .referenceLost ref => Sys2Proof.Machine.execReferenceLost ref s
  | .referenceReturn ref nv => Sys2Proof.Machine.execReferenceReturn ref s nv
  | .calibrate req converters => Sys2Proof.Machine.execCalibrate req converters s
  | .calibrationDone k gain offs => Sys2Proof.Machine.execCalibrationDone k gain offs s
  | .zxtlRead req => Sys2Proof.Machine.execZxtlRead req s
  | .arm req u => Sys2Proof.Machine.execArm req u s
  | .force req u => Sys2Proof.Machine.execForce req u s
  | .abort req u => Sys2Proof.Machine.execAbort req u s
  | .capdHeard p blocks full => Sys2Proof.Machine.execCapdHeard p blocks s full
  | .mtrSample codes => Sys2Proof.Machine.execMtrSample codes s
  | .energySecond => Sys2Proof.Machine.execEnergySecond s
  | .intervalSnapshot bad => Sys2Proof.Machine.execIntervalSnapshot s bad
  | .timePairReceived gtimeNs target => Sys2Proof.Machine.execTimePairReceived gtimeNs target s
  | .stepSeen theta gtimeSec => Sys2Proof.Machine.execStepSeen theta gtimeSec s
  | .mtimeDayEnd => Sys2Proof.Machine.execMtimeDayEnd s
  | .unsyncTimeout => Sys2Proof.Machine.execUnsyncTimeout s
  | .sessStart req arg => Sys2Proof.Machine.execSessStart req arg s
  | .sessEnd req arg => Sys2Proof.Machine.execSessEnd req arg s
  | .mtrReadout req arg => Sys2Proof.Machine.execMtrReadout req arg s
  | .paramEnter req => Sys2Proof.Machine.execParamEnter req s
  | .paramExit req => Sys2Proof.Machine.execParamExit req s
  | .timeSet req => Sys2Proof.Machine.execTimeSet req s
  | .mtrCmdUndefined req code => Sys2Proof.Machine.execMtrCmdUndefined req code s
  | .mtrCommandExecute bad => Sys2Proof.Machine.execMtrCommandExecute s bad
  | .pdataWrite req value => Sys2Proof.Machine.execPdataWrite req value s
  | .lselWrite req value => Sys2Proof.Machine.execLselWrite req value s
  | .mtrElRead req j => Sys2Proof.Machine.execMtrElRead req j s
  | .coverOpen => Sys2Proof.Machine.execCoverOpen s
  | .coverClose => Sys2Proof.Machine.execCoverClose s
  | .mtrSelfTest failing => Sys2Proof.Machine.execMtrSelfTest failing s
  | .crystalCheck ppm => Sys2Proof.Machine.execCrystalCheck ppm s
  | .mtrSupplyLoss => Sys2Proof.Machine.execMtrSupplyLoss s
  | .mtrPowerUp => Sys2Proof.Machine.execMtrPowerUp s
  | .backupExhausted => Sys2Proof.Machine.execBackupExhausted s
  | .status frame => Sys2Proof.Machine.execStatus s frame
  | .readRec rseq frame => Sys2Proof.Machine.execReadRec rseq s frame
  | .billingReadout arg frame => Sys2Proof.Machine.execBillingReadout arg s frame
  | .readCert arg frame => Sys2Proof.Machine.execReadCert arg s frame
  | .billingUnknownFn fn frame => Sys2Proof.Machine.execBillingUnknownFn fn s frame
  | .safetyInputChange si level => Sys2Proof.Machine.execSafetyInputChange si level s
  | .discrepancyTimeout f => Sys2Proof.Machine.execDiscrepancyTimeout f s
  | .channelACycle => Sys2Proof.Machine.execChannelACycle s
  | .channelExchange liveA liveB => Sys2Proof.Machine.execChannelExchange liveA liveB s
  | .channelFault survivor => Sys2Proof.Machine.execChannelFault survivor s
  | .safeResetEdge heldUsA heldUsB gapUs => Sys2Proof.Machine.execSafeResetEdge heldUsA heldUsB s gapUs
  | .outputTestSlot => Sys2Proof.Machine.execOutputTestSlot s
  | .outputTestCheck nodeOpen => Sys2Proof.Machine.execOutputTestCheck nodeOpen s
  | .returnedHbLost p => Sys2Proof.Machine.execReturnedHbLost p s
  | .laneLive p => Sys2Proof.Machine.execLaneLive p s
  | .peerHeartbeatLost => Sys2Proof.Machine.execPeerHeartbeatLost s
  | .safeStartupDone c selfTestPassed => Sys2Proof.Machine.execSafeStartupDone c selfTestPassed s
  | .faultEvent src => Sys2Proof.Machine.execFaultEvent src s
  | .pinPulseEnd => Sys2Proof.Machine.execPinPulseEnd s
  | .pinHoldWrite req value => Sys2Proof.Machine.execPinHoldWrite req value s
  | .histlRead req k => Sys2Proof.Machine.execHistlRead req k s
  | .swset req value => Sys2Proof.Machine.execSwset req value s
  | .collectorSelfFault item bits lasts => Sys2Proof.Machine.execCollectorSelfFault item s bits lasts
  | .selfFaultClear req => Sys2Proof.Machine.execSelfFaultClear req s
  | .ceWriteback addr => Sys2Proof.Machine.execCeWriteback addr s
  | .scrubRead mem addr => Sys2Proof.Machine.execScrubRead mem addr s
  | .scrubSlow mem => Sys2Proof.Machine.execScrubSlow mem s
  | .memModeWrite req value => Sys2Proof.Machine.execMemModeWrite req value s
  | .memInitDone => Sys2Proof.Machine.execMemInitDone s
  | .logEnqueue entry => Sys2Proof.Machine.execLogEnqueue entry s
  | .logRecordWrite => Sys2Proof.Machine.execLogRecordWrite s
  | .logScan => Sys2Proof.Machine.execLogScan s
  | .thermalSample sensor reading => Sys2Proof.Machine.execThermalSample sensor reading s
  | .shutdownPowerOff => Sys2Proof.Machine.execShutdownPowerOff s
  | .shutdownRelease aonLost => Sys2Proof.Machine.execShutdownRelease aonLost s
  | .thermLimitWrite req value => Sys2Proof.Machine.execThermLimitWrite req value s
  | .authFailure h => Sys2Proof.Machine.execAuthFailure h s
  | .replayReject q sameMac => Sys2Proof.Machine.execReplayReject q sameMac s
  | .malformedDatagram h => Sys2Proof.Machine.execMalformedDatagram h s
  | .hello q => Sys2Proof.Machine.execHello q s
  | .bye q => Sys2Proof.Machine.execBye q s
  | .regRead q addr count => Sys2Proof.Machine.execRegRead q addr count s
  | .regWrite q pairs => Sys2Proof.Machine.execRegWrite q pairs s
  | .memRead q addr nbytes => Sys2Proof.Machine.execMemRead q addr nbytes s
  | .memWrite q addr data => Sys2Proof.Machine.execMemWrite q addr data s
  | .coreLoad q core sel word words => Sys2Proof.Machine.execCoreLoad q core sel word words s
  | .tkOpenCommand q => Sys2Proof.Machine.execTkOpenCommand q s
  | .tkWrCommand q handle pairs => Sys2Proof.Machine.execTkWrCommand q handle pairs s
  | .tkPrintCommand q handle bnd instant => Sys2Proof.Machine.execTkPrintCommand q handle bnd instant s
  | .tkCutCommand q handle => Sys2Proof.Machine.execTkCutCommand q handle s
  | .tkStatCommand q handle => Sys2Proof.Machine.execTkStatCommand q handle s
  | .updOpen q slate => Sys2Proof.Machine.execUpdOpen q slate s
  | .updBlock q offset data => Sys2Proof.Machine.execUpdBlock q offset data s
  | .updVerify q => Sys2Proof.Machine.execUpdVerify q s
  | .updActivate q => Sys2Proof.Machine.execUpdActivate q s
  | .activationRestart => Sys2Proof.Machine.execActivationRestart s
  | .updConfirm q => Sys2Proof.Machine.execUpdConfirm q s
  | .updClose q => Sys2Proof.Machine.execUpdClose q s
  | .updLapse => Sys2Proof.Machine.execUpdLapse s
  | .updUnconf => Sys2Proof.Machine.execUpdUnconf s
  | .loaderStart => Sys2Proof.Machine.execLoaderStart s
  | .safeLoad q set => Sys2Proof.Machine.execSafeLoad q set s
  | .safeConfirm q check => Sys2Proof.Machine.execSafeConfirm q check s
  | .keyInit q key => Sys2Proof.Machine.execKeyInit q key s
  | .keySet q target key => Sys2Proof.Machine.execKeySet q target key s
  | .unknownCommand q cmd => Sys2Proof.Machine.execUnknownCommand q cmd s
  | .sessionTimeout h => Sys2Proof.Machine.execSessionTimeout h s
  | .hostLinkDown h => Sys2Proof.Machine.execHostLinkDown h s
  | .residentConfigApply => Sys2Proof.Machine.execResidentConfigApply s
  | .streamLivePacket src => Sys2Proof.Machine.execStreamLivePacket src s
  | .streamPacketSend => Sys2Proof.Machine.execStreamPacketSend s
  | .credit blocks others => Sys2Proof.Machine.execCredit blocks s others
  | .rushesReadoutGo req unit => Sys2Proof.Machine.execRushesReadoutGo req unit s
  | .rushesReadoutAbort req => Sys2Proof.Machine.execRushesReadoutAbort req s
  | .readoutDone => Sys2Proof.Machine.execReadoutDone s
  | .tripInactive t input => Sys2Proof.Machine.execTripInactive t s input
  | .gateSupplyRelease x high negative seen => Sys2Proof.Machine.execGateSupplyRelease x high negative s seen
  | .overcurrentEnd x mv => Sys2Proof.Machine.execOvercurrentEnd x s mv
  | .safe24Change milliVolt => Sys2Proof.Machine.execSafe24Change milliVolt s
  | .hostLinkUp h => Sys2Proof.Machine.execHostLinkUp h s
  | .cellSummSlot x k dir slots heard => Sys2Proof.Machine.execCellSummSlot x k dir s slots heard
  | .cellEventSend x k => Sys2Proof.Machine.execCellEventSend x k s
  | .returnedHeartbeat p => Sys2Proof.Machine.execReturnedHeartbeat p s

end Sys2Proof.Machine
end

