-- ==== Sys2Proof/Machine/Line.lean ====
section
/-!
DEFINITION. What goes on at the lanes and clocks by itself as time passes: the blocks of every position (R199, R202, R237,
R238), the delay-locked lines and taps at each epoch start (R204, R209), the phase trackers (R220), discipline (R217, R300),
a follower's slew (R303), and soft turn-offs that wait (R332).
-/

namespace Sys2Proof.Machine

/-- Position of the ring cycle in which a count of RTIME stands, 160 to an epoch of 8,192 ticks, counted from RTIME 0 (R237). -/
def lineIx (n : Nat) : Nat := n * 160 / epochTicks

/-- Its number in the epoch. -/
def posAt (n : Nat) : Nat := lineIx n % 160

/-- Window of 1,024 unit intervals: 10,560 unit intervals to an epoch (R220). -/
def windowAt (n : Nat) : Nat := n * 10560 / (1024 * epochTicks)

/-- The block of a position that no message takes (R202, R237): EPOCH at 0, but none of its own from a follower on P7 (R299); on
L0 of a ring port SUMM, every slot 0xFF, at 6 to 11 (R241); else IDLE. P6 numbers its epochs 0 (R498). -/
def State.fillBlock (s : State) (p : LaneId) (lane : DataLane) (pos : Nat) : LaneBlock :=
  let number := if p = 6 then 0 else (s.epochNumber s.ticks).toNat
  let dir : Dir := if p.val % 2 = 1 && decide (p.val < 6) then .ccw else .cw
  if pos = 0 ∧ ¬(p = 7 ∧ s.peerRole = roleFollower) then ⟨pos, true, epochBlock number (min (p.val / 2) 3) dir⟩
  else if lane = .l0 ∧ p.val < 6 ∧ pos = 6 then ⟨pos, true, ctlBlock typSumm 0⟩
  else if lane = .l0 ∧ p.val < 6 ∧ 7 ≤ pos ∧ pos ≤ 11 then ⟨pos, false, BitVec.allOnes 64⟩
  else ⟨pos, true, ctlBlock typIdle 0⟩

/-- Does a position of L0 carry blocks that wait: on a ring port those that R237 gives frames, on P7 those from 5 on (R504)? -/
def framePos (p : LaneId) (pos : Nat) : Bool := if p = 7 then decide (5 ≤ pos) else !reservedPos .l0 pos

/-- The block that waits for a position of L0, and what waits after it has left. -/
def TxQueue.take (q : TxQueue) (p : LaneId) (pos : Nat) : Option (Bool × BitVec 64) × TxQueue :=
  if pos = 0 then (q.epoch.map (true, ·), { q with epoch := none })
  else if pos = 5 ∧ p ≠ 7 then (q.clap.map (true, ·), { q with clap := none })
  else if framePos p pos then (q.frames.head?, { q with frames := q.frames.tail })
  else (none, q)

/-- A block leaves on a lane as it stands there, and the lane's scrambler moves on (R199). -/
def State.sendLine (s : State) (p : LaneId) (lane : DataLane) (b : LaneBlock) : State :=
  let r := scramble ((s.ports[p]).txScr[laneIx lane]) b.bits
  (s.modPort p fun q => { q with txScr := q.txScr.set (laneIx lane) r.2 }).emit
    (.line p lane ⟨b.pos, if b.ctl then headCtl else headData, r.1⟩)

/-- Does a port's transmitter send on a data lane: its DLL has locked and TX disable is cleared (R222 step 2)? -/
def State.transmits (s : State) (p : LaneId) (lane : DataLane) : Bool :=
  s.portPowered p && !s.oscStopped && !(s.ports[p]).txDisable && usesLane p lane

/-- A lane's block of a position leaves: on L0 the one that waits for it, else the one that fills it. -/
def State.sendPos (s : State) (p : LaneId) (lane : DataLane) (pos : Nat) : State :=
  let fill := s.fillBlock p lane pos
  if lane = .l0 then
    let r := (s.tx[p]).take p pos
    { s with tx := s.tx.set p r.2 }.sendLine p lane (match r.1 with | some b => ⟨pos, b.1, b.2⟩ | none => fill)
  else s.sendLine p lane fill

/-- A position begins: every transmitter sends its block. Where a port sends none on L0, nothing waits there. -/
def State.fillLanes (s : State) : State :=
  let pos := posAt s.ringNow
  { s with lineAt := lineIx s.ringNow }.each (List.finRange 8) fun p s =>
    if s.transmits p .l0 then s.each (dataLanes.filter (s.transmits p)) fun l s => s.sendPos p l pos
    else { s with tx := s.tx.set p ⟨[], none, none⟩ }

/-- The heartbeat drivers' level now (R227, R229): the word's, its start counted from the start of I_SAFB (DESIGN CHOICE, log entry
54); low while channel B holds them. -/
def State.hbDrive (s : State) : Bool := s.hbOn && hbLevel (s.ticks / hbTicks)

/-- The drivers follow their level. -/
def State.driveHb (s : State) : State :=
  if s.hbDrive = s.safe.hbHigh then s else { s with safe := { s.safe with hbHigh := s.hbDrive } }.emit (.heartbeat s.hbDrive)

/-- A tracker window ends at every port whose data lanes have been scanned. -/
def State.trackAll (s : State) : State :=
  s.each (List.finRange 8) fun p s =>
    if s.portPowered p && decide (portAlign ≤ s.portState p ∧ s.portState p ≤ portTrained) then s.trackStep p else s

/-- An epoch starts: taps take effect, and a DLL in lock follows its delay. -/
def State.epochStart (s : State) : State :=
  s.each (List.finRange 8) fun p s =>
    let s := if s.portPowered p then s.modPort p fun q => { q with taps := s.word (A.RING_TAPS p) } else s
    if s.powered domAon then s.dllStep p else s

/-- Time has passed from a count of RTIME to now: what begins in between takes place. -/
def State.passed (s : State) (from_ fromTicks : Nat) : State :=
  let s := s.softNext.driveHb
  let s := if lineIx s.ringNow = s.lineAt then s else s.fillLanes
  let s := if windowAt from_ = windowAt s.ringNow then s else s.trackAll
  let s := if from_ / epochTicks = s.ringNow / epochTicks then s else s.epochStart.slewRtime
  let s := s.ringDue.showCsel
  let s := s.mtrDue
  let s := if s.powered domAon then s.showSpare.followPeer else s
  if fromTicks / (sec / 10) = s.ticks / (sec / 10) || !s.powered domAon then s else s.steerStep

end Sys2Proof.Machine
end

