-- ==== Sys2Proof/Machine/Idle.lean ====
section
/-!
DEFINITION. The block with nothing to do.
-/

namespace Sys2Proof.Machine

/-- One cycle of I_RTIME passes with no command waiting (log entry 18): 32 ticks of 125 ps, and what waits to leave, leaves:
unsent EVENT datagrams (R483) and transmit time stamps that the PTP engine reads (R292); the lanes and clocks go on. -/
def State.idle (s : State) : State :=
  let t := { s.fresh with ticks := s.ticks + idleTicks }
  let t := { t with host := t.host.map fun (p : HPort) => { p with evQueue := [] } }
  t.drainStamps.passed s.ringNow s.ticks

end Sys2Proof.Machine
end

