-- ==== Sys2Proof/Safety.lean ====
section
/-!
DEFINITION. What counts as a good state, in the terms that claims use: the canonical forms that every step keeps, and a core
that is ready for its next instruction and carries no error.
-/

namespace Sys2Proof.Machine

/-- Memory is in canonical form: addresses rise strictly, and no listed byte equals what an unlisted one reads as. -/
def Memory.wf (l : List Host.Cell) : Bool := sparseWf (fun _ => memDefault) l

/-- Registers are in canonical form over their reset values. -/
def regsWf (l : List (Nat × Word)) : Bool := sparseWf resetValue l

/-- Core n may execute its next instruction, and nothing it holds is in error: no upset awaits (R65), its instruction word
passes its check (R54), and every register agrees with its residue codes or parity bits (R63, R66). -/
structure CoreSound (s : State) (n : CoreId) : Prop where
  ready : s.coreReady n = true
  upset : (s.cores[n]).upset = none
  fetch : eccAt (s.cores[n]).imemErr (s.cores[n]).pc.toNat = none
  scal  : ∀ r : Sreg, (s.cores[n]).r.sres[r] = wordResidue (s.cores[n]).r.s[r]
  vec   : ∀ (r : Vreg) (i : Fin 48), ((s.cores[n]).r.v[r]).res[i] = mantResidue ((s.cores[n]).r.v[r]).mant[i]
  pred  : ∀ r : Preg, (s.cores[n]).r.ppar[r] = predParity (s.cores[n]).r.p[r]

/-- The core of an instruction that only computes: integer, SF and vector arithmetic, predicates, control laws, branches, jumps,
NOP and BREAK. Loads, stores, LD.IN, PRED.SET, EMIT, WAITP, RETT, RDSYS and the take instructions are not of these. -/
def computeCore : Instr → Option CoreId
  | .add n _ _ _ | .sub n _ _ _ | .and n _ _ _ | .or n _ _ _ | .xor n _ _ _ | .sll n _ _ _
  | .srl n _ _ _ | .sra n _ _ _ | .slt n _ _ _ | .sltu n _ _ _ | .mul n _ _ _ | .mulh n _ _ _
  | .div n _ _ _ | .divu n _ _ _ | .rem n _ _ _ | .adds n _ _ _ | .subs n _ _ _ | .addi n _ _ _
  | .andi n _ _ _ | .ori n _ _ _ | .slti n _ _ _ | .slli n _ _ _ | .srli n _ _ _ | .srai n _ _ _
  | .lui n _ _ | .li n _ | .beq n _ _ _ | .bne n _ _ _ | .blt n _ _ _ | .bge n _ _ _
  | .bltu n _ _ _ | .bgeu n _ _ _ | .j n _ | .call n _ | .jr n _ | .sfAdd n _ _ _
  | .sfSub n _ _ _ | .sfMul n _ _ _ | .sfAbs n _ _ | .sfSlt n _ _ _ | .sfSle n _ _ _ | .sfFromi n _ _
  | .sfToi n _ _ | .sfScale n _ _ _ | .vadd n _ _ _ _ | .vsub n _ _ _ _ | .vmul n _ _ _ _ | .vmac n _ _ _ _
  | .vneg n _ _ _ | .vabs n _ _ _ | .vmin n _ _ _ _ | .vmax n _ _ _ _ | .vclamp n _ _ _ _ _ | .vscale n _ _ _ _
  | .vmov n _ _ _ | .vbcast n _ _ _ | .vsel n _ _ _ _ | .vget n _ _ _ | .vset n _ _ _ | .vsum n _ _ _
  | .vdot n _ _ _ _ | .vmaxr n _ _ _ | .vminr n _ _ _ | .vcmplt n _ _ _ _ | .vcmple n _ _ _ _ | .pand n _ _ _
  | .por n _ _ _ | .pnot n _ _ | .psetl n _ _ | .pseth n _ _ | .pget n _ _ _ | .pcnt n _ _ _
  | .piStep n _ _ _ _ _ | .hyst n _ _ _ _ | .minsel n _ _ _ _ _ | .setp n _ _ _ _ | .nop n | .brk n => some n
  | _ => none

/-- The state after an instruction of core n whose only results are a scalar register, the pc one word on and its cycles. -/
def scalarOut (s : State) (n : CoreId) (rd : Sreg) (cyc : Nat) (v : Word) : State := (s.fresh.writeS n rd v).retire n 4 cyc

/-- As `scalarOut`, for an SF result: the packed word of one stage with one lane, and CORE.STATn.SAT where it saturates (R62). -/
def sfOut (s : State) (n : CoreId) (rd : Sreg) (cyc : Nat) (x : Ev) : State :=
  ((s.fresh.writeS n rd (sfResult x).1).setSat n (sfResult x).2).retire n 4 cyc

/-- As `scalarOut`, for a vector result: one stage over 48 lanes, and CORE.STATn.SAT where it saturates (R59, R60). -/
def vecOut (s : State) (n : CoreId) (vd : Vreg) (cyc : Nat) (xs : List Ev) : State :=
  ((s.fresh.writeV n vd (VReg.ofStage xs).1).setSat n (VReg.ofStage xs).2).retire n 4 cyc

/-- As `scalarOut`, for a predicate result. -/
def predOut (s : State) (n : CoreId) (pd : Preg) (cyc : Nat) (v : BitVec 48) : State := (s.fresh.writeP n pd v).retire n 4 cyc

/-- Content of a vector register, and of a predicate register: p0 reads as all ones (R58). -/
def State.vVal (s : State) (n : CoreId) (r : Vreg) : VReg := (s.cores[n]).r.v[r]
def State.pVal (s : State) (n : CoreId) (r : Preg) : BitVec 48 := if r = 0 then allLanes else (s.cores[n]).r.p[r]

/-- The value of a scalar register read as an SF word (R62). -/
def State.sfVal (s : State) (n : CoreId) (r : Sreg) : Ev := sfValue (s.sVal n r) (s.sRes n r)

/-- The value of an SF word that carries its own residue, as a parameter read from memory does (R62, R114). -/
def sfOfWord (w : Word) : Ev := sfValue w (wordResidue w)

/-- The state after an instruction of core n that only moves the pc, to a byte address, and takes cycles. -/
def jumpOut (s : State) (n : CoreId) (pc : BitVec 16) (cyc : Nat) : State :=
  s.fresh.modCore n fun c => { c with pc := pc, cycles := c.cycles + s.coreCycles n cyc }

/-- The state after an instruction of core n that traps outside a speculative run: the trap, and the cycles listed for the
instruction (R90, R99). -/
def trapOut (s : State) (n : CoreId) (cyc cause : Nat) (addr : Option Nat) : State := (s.fresh.takeTrap n 4 cause addr).spend n cyc

/-- The state after a store of bytes to a core's own DMEM: whole check words that the store replaces lose their errors. -/
def dmemOut (s : State) (n : CoreId) (a : Nat) (bytes : List Byte) (cyc : Nat) : State :=
  (s.fresh.modCore n fun c =>
    { c with
      dmem := dmemPoke c.dmem a bytes
      dmemErr := c.dmemErr.filter (fun e => !decide (dmemOff a < e.1 + 4 ∧ e.1 < dmemOff a + bytes.length)) }).retire n 4 cyc

/-- The words of a core's own DMEM from `a` on pass their checks (R54). -/
def dmemClean (s : State) (n : CoreId) (a words : Nat) : Prop :=
  ∀ i < words, eccAt (s.cores[n]).dmemErr (wordOf (dmemOff (a + 4 * i))) = none

/-- Every access of an LD.IN's burst can be read, and no check word of it has an error (R99, R443). -/
def State.burstClean (s : State) (d : SlotDesc) (period : Nat) : Prop :=
  ∀ p ∈ s.slotBurst d period, s.memReadable p.1 p.2 = true ∧ ∀ w ∈ s.checkWords p.1 p.2, eccAt s.ecc w = none

/-- No boundary at which the LIVE values of the block of `a` take effect has passed without its effect (R8). -/
def upToDate (s : State) (a : Nat) : Prop := s.blockDue a = s

/-- A direct write of a word to the register at `a` is accepted: there is such a register, its domain is powered, and no rule
rejects the write (R3, R9, R10, R135). -/
def writeFree (s : State) (a : Nat) (v : Word) : Prop :=
  upToDate s a ∧ ∃ r i, findReg a = some (r, i) ∧ s.powered (regDomain a) = true ∧ s.writeGrounds a r v = []

/-- The register at `a` can be read: there is one, and its domain is powered (R3). -/
def readable (s : State) (a : Nat) : Prop := upToDate s a ∧ (findReg a).isSome = true ∧ s.powered (regDomain a) = true

/-- A byte address of IMEM at which a word starts (R51). -/
def imemAddr (a : Int) : Prop := 0 ≤ a ∧ a ≤ 0xFFFC ∧ a % 4 = 0

/-- Port p of ring x receives blocks on L1, and its receiver makes of them one frame: their line coding, their headers, CRC-8 and
CRC-16 are good (R199, R201, R232, R234, R235). -/
def heard (s : State) (x : RingId) (p : LaneId) (bs : List LineBlock) (f : Frame) : Prop :=
  ringOf p = some x ∧ (s.laneIn p .l1 bs).2 = [f]

/-- A frame shows the cell that sent it, the type of its message and what that message says (R236, R366). -/
def carries (x : RingId) (k : CellId) (f : Frame) (m : CellMsg) : Prop :=
  match m with
  | .tlm tick q _ => f.sender x = some k ∧ f.isType typTlm = true ∧ bitsOf (f.at_ 0) 16 40 = tick % 2 ^ 40 ∧
    tlmQuants f = (List.range 8).map fun i => q.getD i 0
  | .evt code seq time data => f.sender x = some k ∧ f.isType typEvt = true ∧ bitsOf (f.at_ 0) 16 8 = code.toNat ∧
    bitsOf (f.at_ 0) 24 16 = seq.toNat ∧ bitsOf (f.at_ 1) 0 48 = time.toNat ∧ (f.at_ 2).setWidth 32 = data
  | .clapr num a b => f.sender x = some k ∧ f.isType typClapr = true ∧ bitsOf (f.at_ 0) 16 8 = num.toNat ∧
    bitsOf (f.at_ 1) 0 48 = a.toNat ∧ bitsOf (f.at_ 2) 0 48 = b.toNat
  | .regrsp tag status data addr => f.target x = some k ∧ f.isType typRegrsp = true ∧ bitsOf (f.at_ 0) 8 8 = tag.toNat ∧
    bitsOf (f.at_ 0) 24 2 = status.toNat ∧ bitsOf (f.at_ 0) 32 16 = addr.toNat ∧ (f.at_ 1).setWidth 32 = data
  | .capd qmask epoch fseq codes => f.sender x = some k ∧ f.isType typCapd = true ∧ bitsOf (f.at_ 0) 16 35 = epoch.toNat ∧
    bitsOf (f.at_ 7) 0 8 = qmask.toNat ∧ bitsOf (f.at_ 7) 16 16 = fseq.toNat ∧
    ((List.range 6).flatMap fun b => halvesOf (f.at_ (b + 1))) = (List.range 24).map fun i => codes.getD i 0
  | _ => True

/-- A cell passes on what it makes of its input of a direction: by the output of that direction, and where it has lost the input of
the other direction by the output of that one too; nothing where it has lost this input itself (R239, R270). -/
def passedOn (s t : State) (x : RingId) (k : CellId) (dir : Dir) (m : Dir → Out) : Prop :=
  ((s.cell x k).lost dir = false → m dir ∈ t.out ∧ ((s.cell x k).lost (otherDir dir) = true → m (otherDir dir) ∈ t.out)) ∧
    ((s.cell x k).lost dir = true → m dir ∉ t.out ∧ m (otherDir dir) ∉ t.out)

/-- A message of a cell leaves, and where it is a frame comes out of L1 at every port to which its way is whole (R239, R270). -/
def sentBy (s t : State) (x : RingId) (k : CellId) (m : CellMsg) : Prop :=
  Out.cell x k m ∈ t.out ∧ (m.frame x k ≠ [] → ∀ p ∈ s.l1Ports x k, Out.l1 p x k (m.frame x k) ∈ t.out)

/-! Requests from the host, and takes. -/

/-- The state on which a host request that was accepted takes its effect: its counter stored and counted (R467, R468, R474). -/
def accepted (s : State) (q : Dgram) : State := s.fresh.acceptReq q

/-- A request with an authentication code that matches comes from the sender that holds the port's session, with a counter
above the last one, to a port that takes part, and the loader does not run (R466, R467, R474, R477). -/
def hostReady (s : State) (q : Dgram) : Prop :=
  s.portUp q.port = true ∧ (s.host[q.port]).key.isSome = true ∧ (s.host[q.port]).ctr < q.ctr ∧ s.fromSession q = true ∧ s.inLoader = false

/-- The reply of R478 leaves, to the sender of the request. -/
def answered (t : State) (q : Dgram) (code status : BitVec 8) (payload : List Word) : Prop :=
  ∃ d, Out.reply q.port q.ip q.udp ⟨code, false, status, q.ctr, payload⟩ d ∈ t.out

/-- From `s` to `t` the take h is cut for a reason of R146: its entries are freed, and the reason is shown and counted (R131). -/
def cutAs (s t : State) (h : HandleId) (reason : Nat) : Prop :=
  t.takeState h = takeCut ∧ t.fget (F.TAKE_STAT_REASON h) = reason ∧ (t.takes[h]).writes = [] ∧
    t.fget (cutField reason) = min (s.fget (cutField reason) + 1) 63

/-- The register blocks that an event or command of the bridge, the time bases, the metrology island, the safety function or the
fault collector may change: its own, SUP where the mode axes show it, and the three in which reports stand (the collector's,
those of memory upkeep and those of the host ports). -/
def ownBlocks : Instr → Option (List Nat)
  | .brgEntryReceived _ | .trip _ | .tripInactive _ | .gateSupplyLockout _ _ _ | .gateSupplyRelease _ _ _
  | .desaturationFault _ _ | .overcurrentFault _ | .overcurrentEnd _ | .softTurnoffStart _ | .softTurnoffEnd _
  | .gateCommandLoss _ _ => some [7, 8, 11, 12, 13]
  | .gtimeReanchor | .ptpEventMessage _ _ _ _ | .syncMeasurement _ _ _ | .gtimeStep | .holdover | .holdmaxExpiry | .timePairSend
  | .compareFire _ | .peerClapperLaunch _ _ _ | .peerLost | .peerReturn => some [0, 2, 11, 12, 13]
  | .pclapHeard _ _ | .ptimeHeard _ => some [0, 2, 6, 11, 12, 13]
  | .mtrSample _ | .energySecond | .intervalSnapshot | .timePairReceived _ _ | .stepSeen _ _ | .mtimeDayEnd | .unsyncTimeout
  | .sessStart _ _ | .sessEnd _ _ | .mtrReadout _ _ | .paramEnter _ | .paramExit _ | .timeSet _ | .mtrCmdUndefined _ _
  | .mtrCommandExecute | .pdataWrite _ _ | .lselWrite _ _ | .coverOpen | .coverClose | .mtrSelfTest _ | .crystalCheck _
  | .mtrSupplyLoss | .mtrPowerUp | .backupExhausted | .status | .readRec _ | .billingReadout _ | .readCert _
  | .billingUnknownFn _ => some [11, 12, 13, 16]
  | .safetyInputChange _ _ | .discrepancyTimeout _ | .channelACycle | .channelExchange _ _ | .channelFault _ | .safeResetEdge _ _
  | .outputTestSlot | .outputTestCheck _ | .returnedHbLost _ | .returnedHeartbeat _ | .laneLive _ | .peerHeartbeatLost
  | .safeStartupDone _ _ => some [0, 11, 12, 13, 15]
  | .faultEvent _ | .pinPulseEnd | .collectorSelfFault _ => some [11, 12, 13]
  | _ => none

end Sys2Proof.Machine
end

