-- ==== Sys2Proof/Certificates/Slice0/Obligations.lean ====
section
/-!
DEFINITION. Obligations: what the manual's rules say of the commands and events, as statements about every state and operand.
-/

open Sys2Proof Sys2Proof.Machine

/-- R97, R100 to R103: the integer operations on two registers. -/
def Obligations.IntegerRegisterResults : Prop :=
  ∀ (s : State) (n : CoreId) (rd ra rb : Sreg), CoreSound s n →
    let a := s.sVal n ra
    let b := s.sVal n rb
    exec (.add n rd ra rb) s = .next (scalarOut s n rd 1 (a + b)) ∧
    exec (.sub n rd ra rb) s = .next (scalarOut s n rd 1 (a - b)) ∧
    exec (.and n rd ra rb) s = .next (scalarOut s n rd 1 (a &&& b)) ∧
    exec (.or n rd ra rb) s = .next (scalarOut s n rd 1 (a ||| b)) ∧
    exec (.xor n rd ra rb) s = .next (scalarOut s n rd 1 (a ^^^ b)) ∧
    exec (.sll n rd ra rb) s = .next (scalarOut s n rd 1 (a <<< (b.toNat % 32))) ∧
    exec (.srl n rd ra rb) s = .next (scalarOut s n rd 1 (a >>> (b.toNat % 32))) ∧
    exec (.sra n rd ra rb) s = .next (scalarOut s n rd 1 (a.sshiftRight (b.toNat % 32))) ∧
    exec (.slt n rd ra rb) s = .next (scalarOut s n rd 1 (if a.toInt < b.toInt then 1 else 0)) ∧
    exec (.sltu n rd ra rb) s = .next (scalarOut s n rd 1 (if a.toNat < b.toNat then 1 else 0)) ∧
    exec (.mul n rd ra rb) s = .next (scalarOut s n rd 3 (BitVec.ofInt 32 (a.toInt * b.toInt))) ∧
    exec (.mulh n rd ra rb) s = .next (scalarOut s n rd 3 (BitVec.ofInt 32 (a.toInt * b.toInt / 2 ^ 32))) ∧
    exec (.adds n rd ra rb) s =
      .next (scalarOut s n rd 1 (BitVec.ofInt 32 (max (-2 ^ 31) (min (2 ^ 31 - 1) (a.toInt + b.toInt))))) ∧
    exec (.subs n rd ra rb) s =
      .next (scalarOut s n rd 1 (BitVec.ofInt 32 (max (-2 ^ 31) (min (2 ^ 31 - 1) (a.toInt - b.toInt)))))

/-- R102: divisions, their corner, and the trap of a divisor of 0 outside a speculative run. -/
def Obligations.DivisionResults : Prop :=
  ∀ (s : State) (n : CoreId) (rd ra rb : Sreg), CoreSound s n →
    let a := s.sVal n ra
    let b := s.sVal n rb
    (b ≠ 0 →
      exec (.div n rd ra rb) s = .next (scalarOut s n rd 34 (BitVec.ofInt 32 (a.toInt.tdiv b.toInt))) ∧
      exec (.divu n rd ra rb) s = .next (scalarOut s n rd 34 (BitVec.ofNat 32 (a.toNat / b.toNat))) ∧
      exec (.rem n rd ra rb) s = .next (scalarOut s n rd 34 (BitVec.ofInt 32 (a.toInt.tmod b.toInt)))) ∧
    (a = 0x80000000 → b = 0xFFFFFFFF →
      exec (.div n rd ra rb) s = .next (scalarOut s n rd 34 0x80000000) ∧
      exec (.rem n rd ra rb) s = .next (scalarOut s n rd 34 0)) ∧
    (b = 0 → s.inSpec n = false →
      exec (.div n rd ra rb) s = .next (trapOut s n 34 causeDivzero none) ∧
      exec (.divu n rd ra rb) s = .next (trapOut s n 34 causeDivzero none) ∧
      exec (.rem n rd ra rb) s = .next (trapOut s n 34 causeDivzero none))

/-- R97, R98, R101: the immediate operations, and LI with its extension word. -/
def Obligations.ImmediateResults : Prop :=
  ∀ (s : State) (n : CoreId) (rd ra : Sreg) (imm : BitVec 16), CoreSound s n →
    let a := s.sVal n ra
    exec (.addi n rd ra imm) s = .next (scalarOut s n rd 1 (a + imm.signExtend 32)) ∧
    exec (.andi n rd ra imm) s = .next (scalarOut s n rd 1 (a &&& imm.setWidth 32)) ∧
    exec (.ori n rd ra imm) s = .next (scalarOut s n rd 1 (a ||| imm.setWidth 32)) ∧
    exec (.slti n rd ra imm) s = .next (scalarOut s n rd 1 (if a.toInt < imm.toInt then 1 else 0)) ∧
    exec (.lui n rd imm) s = .next (scalarOut s n rd 1 (imm.setWidth 32 <<< 16)) ∧
    (imm.toNat < 32 →
      exec (.slli n rd ra imm) s = .next (scalarOut s n rd 1 (a <<< imm.toNat)) ∧
      exec (.srli n rd ra imm) s = .next (scalarOut s n rd 1 (a >>> imm.toNat)) ∧
      exec (.srai n rd ra imm) s = .next (scalarOut s n rd 1 (a.sshiftRight imm.toNat))) ∧
    (eccAt (s.cores[n]).imemErr ((s.cores[n]).pc + 4).toNat = none →
      exec (.li n rd) s = .next ((s.fresh.writeS n rd ((s.cores[n]).iword ((s.cores[n]).pc + 4).toNat)).retire n 8 2))

/-- R103: a branch that is taken goes to its target, one that is not goes on; jumps, CALL with its return address (R56), JR. -/
def Obligations.BranchesAndJumps : Prop :=
  ∀ (s : State) (n : CoreId) (ra rd : Sreg) (imm : BitVec 16), CoreSound s n →
    let a := s.sVal n ra
    let b := s.sVal n rd
    let target : Int := ((s.cores[n]).pc.toNat : Int) + 4 * imm.toInt
    let go (taken : Prop) [Decidable taken] : State :=
      if taken then jumpOut s n (BitVec.ofInt 16 target) 2 else s.fresh.retire n 4 1
    (imemAddr target →
      exec (.beq n ra rd imm) s = .next (go (a = b)) ∧
      exec (.bne n ra rd imm) s = .next (go (a ≠ b)) ∧
      exec (.blt n ra rd imm) s = .next (go (a.toInt < b.toInt)) ∧
      exec (.bge n ra rd imm) s = .next (go (b.toInt ≤ a.toInt)) ∧
      exec (.bltu n ra rd imm) s = .next (go (a.toNat < b.toNat)) ∧
      exec (.bgeu n ra rd imm) s = .next (go (b.toNat ≤ a.toNat)) ∧
      exec (.j n imm) s = .next (jumpOut s n (BitVec.ofInt 16 target) 2) ∧
      exec (.call n imm) s =
        .next ((s.fresh.writeS n 31 (BitVec.ofNat 32 ((s.cores[n]).pc.toNat + 4))).modCore n fun c =>
          { c with pc := BitVec.ofInt 16 target, cycles := c.cycles + s.coreCycles n 2 })) ∧
    (imemAddr a.toNat → exec (.jr n ra) s = .next (jumpOut s n (a.setWidth 16) 2)) ∧
    (¬ imemAddr target → s.inSpec n = false →
      exec (.j n imm) s = .next (trapOut s n 2 causeAlign (some (unsignedOf 32 target))) ∧
      exec (.call n imm) s = .next (trapOut s n 2 causeAlign (some (unsignedOf 32 target))))

/-- R104 to R106: loads from the core's own DMEM. -/
def Obligations.DmemLoads : Prop :=
  ∀ (s : State) (n : CoreId) (rt ra : Sreg) (vd : Vreg) (off : BitVec 16), CoreSound s n →
    let ea := effAddr (s.sVal n ra) off
    let raw := fun k => (s.cores[n]).dpeek ea k
    (dmemClean s n ea 1 → inDmem ea 4 = true → ea % 4 = 0 →
      exec (.lw n rt ra off) s = .next (scalarOut s n rt 2 (BitVec.ofNat 32 (raw 4))) ∧
      ((sampleTag (raw 4)).toNat = raw 4 % 256 →
        exec (.ldSmp n rt ra off) s = .next (scalarOut s n rt 2 ((BitVec.ofNat 16 (raw 4 / 2 ^ 16)).signExtend 32)))) ∧
    (dmemClean s n ea 1 → inDmem ea 2 = true → ea % 2 = 0 →
      exec (.lh n rt ra off) s = .next (scalarOut s n rt 2 ((BitVec.ofNat 16 (raw 2)).signExtend 32)) ∧
      exec (.lhu n rt ra off) s = .next (scalarOut s n rt 2 (BitVec.ofNat 32 (raw 2 % 2 ^ 16)))) ∧
    (dmemClean s n ea 1 → inDmem ea 1 = true →
      exec (.lb n rt ra off) s = .next (scalarOut s n rt 2 ((BitVec.ofNat 8 (raw 1)).signExtend 32)) ∧
      exec (.lbu n rt ra off) s = .next (scalarOut s n rt 2 (BitVec.ofNat 32 (raw 1 % 2 ^ 8)))) ∧
    (dmemClean s n ea 49 → inDmem ea 196 = true → ea % 4 = 0 →
      exec (.vld n vd ra off) s = .next ((s.fresh.writeV n vd (VReg.ofMants (signedOf 8 ((s.cores[n]).dpeek ea 4))
        ((List.range 48).map fun i => signedOf 24 ((s.cores[n]).dpeek (ea + 4 * (i + 1)) 4)))).retire n 4 14))

/-- R104, R105: stores to the core's own DMEM outside a speculative run, and the pending check of a misaligned one. -/
def Obligations.DmemStores : Prop :=
  ∀ (s : State) (n : CoreId) (rt ra : Sreg) (vs : Vreg) (off : BitVec 16), CoreSound s n → s.inSpec n = false →
    let ea := effAddr (s.sVal n ra) off
    let v := (s.sVal n rt).toNat
    (inDmem ea 4 = true → ea % 4 = 0 → exec (.sw n rt ra off) s = .next (dmemOut s n ea (bytesLE 4 v) 2)) ∧
    (dmemClean s n ea 1 → inDmem ea 2 = true → ea % 2 = 0 →
      exec (.sh n rt ra off) s = .next (dmemOut s n ea (bytesLE 2 v) 2)) ∧
    (dmemClean s n ea 1 → inDmem ea 1 = true → exec (.sb n rt ra off) s = .next (dmemOut s n ea (bytesLE 1 v) 2)) ∧
    (inDmem ea 196 = true → ea % 4 = 0 →
      exec (.vst n vs ra off) s = .next (dmemOut s n ea
        (bytesLE 4 ((s.vVal n vs).exp.toNat) ++ ((s.vVal n vs).mant.toList.flatMap fun m => bytesLE 4 (m.signExtend 32).toNat)) 14)) ∧
    (ea % 4 ≠ 0 → exec (.sw n rt ra off) s = .next (trapOut s n 1 causeAlign (some ea)))

/-- R59, R60, R62, R111: SF operations. -/
def Obligations.SfResults : Prop :=
  ∀ (s : State) (n : CoreId) (rd ra rb : Sreg), CoreSound s n →
    let a := s.sfVal n ra
    let b := s.sfVal n rb
    exec (.sfAdd n rd ra rb) s = .next (sfOut s n rd 2 (a.add b)) ∧
    exec (.sfSub n rd ra rb) s = .next (sfOut s n rd 2 (a.sub b)) ∧
    exec (.sfMul n rd ra rb) s = .next (sfOut s n rd 3 (a.mul b)) ∧
    exec (.sfAbs n rd ra) s = .next (sfOut s n rd 2 a.abs) ∧
    exec (.sfSlt n rd ra rb) s = .next (scalarOut s n rd 1 (if a.lt b then 1 else 0)) ∧
    exec (.sfSle n rd ra rb) s = .next (scalarOut s n rd 1 (if b.lt a then 0 else 1)) ∧
    exec (.sfFromi n rd ra) s = .next (sfOut s n rd 2 (Ev.ofInt (s.sVal n ra).toInt)) ∧
    exec (.sfScale n rd ra rb) s = .next (sfOut s n rd 2 (a.scale (s.sVal n rb).toInt)) ∧
    (∃ t, exec (.sfToi n rd ra) s = .next t ∧ (t.cores[n]).pc = (s.cores[n]).pc + 4 ∧
      (rd ≠ 0 → t.sVal n rd = BitVec.ofInt 32 (max (-2 ^ 31) (min (2 ^ 31 - 1) a.toNearest))) ∧
      (t.fget (F.CORE_STAT_SAT n) =
        if a.toNearest < -2 ^ 31 ∨ 2 ^ 31 - 1 < a.toNearest then 1 else s.fget (F.CORE_STAT_SAT n)))

/-- R59, R60: rounding is to the nearest, ties to even, and exact where no bit is lost; the exponent of a stage, its mantissas,
and saturation. -/
def Obligations.StageExponent : Prop :=
  (∀ (m : Int) (k : Nat),
    let q := roundHalfEven m (-(k : Int))
    2 * (q * 2 ^ k - m) ≤ 2 ^ k ∧ 2 * (m - q * 2 ^ k) ≤ 2 ^ k ∧
    (2 * (q * 2 ^ k - m) = 2 ^ k ∨ 2 * (m - q * 2 ^ k) = 2 ^ k → q % 2 = 0) ∧
    roundHalfEven m (k : Int) = m * 2 ^ k) ∧
  ∀ (xs : List Ev),
    ((stage xs).sat = false →
      (stage xs).mant = xs.map (fun x => x.at (stage xs).exp) ∧ -128 ≤ (stage xs).exp ∧ (stage xs).exp ≤ 127 ∧
      (∀ x ∈ xs, -2 ^ 23 ≤ x.at (stage xs).exp ∧ x.at (stage xs).exp ≤ 2 ^ 23 - 1) ∧
      ∀ e, -128 ≤ e → e < (stage xs).exp → ∃ x ∈ xs, x.at e < -2 ^ 23 ∨ 2 ^ 23 - 1 < x.at e) ∧
    ((stage xs).sat = true →
      (stage xs).exp = 127 ∧ (stage xs).mant = xs.map (fun x => max (-2 ^ 23) (min (2 ^ 23 - 1) (x.at 127))) ∧
      ∀ e, -128 ≤ e → e ≤ 127 → ∃ x ∈ xs, x.at e < -2 ^ 23 ∨ 2 ^ 23 - 1 < x.at e)

/-- R59 to R61, R112: vector operations, one stage over the lanes that the predicate selects; the others keep the
destination's value. -/
def Obligations.VectorResults : Prop :=
  ∀ (s : State) (n : CoreId) (vd va vb vc : Vreg) (rs : Sreg) (pg : Preg), CoreSound s n →
    let d := s.vVal n vd
    let a := (s.vVal n va).lane
    let b := (s.vVal n vb).lane
    let out (cyc : Nat) (f : Fin 48 → Ev) : State :=
      vecOut s n vd cyc ((List.finRange 48).map fun i => if (s.pVal n pg).getLsbD i.val then f i else d.lane i)
    exec (.vadd n vd va vb pg) s = .next (out 4 fun i => (a i).add (b i)) ∧
    exec (.vsub n vd va vb pg) s = .next (out 4 fun i => (a i).sub (b i)) ∧
    exec (.vmul n vd va vb pg) s = .next (out 6 fun i => (a i).mul (b i)) ∧
    exec (.vmac n vd va vb pg) s = .next (out 6 fun i => (d.lane i).add ((a i).mul (b i))) ∧
    exec (.vneg n vd va pg) s = .next (out 4 fun i => (a i).neg) ∧
    exec (.vabs n vd va pg) s = .next (out 4 fun i => (a i).abs) ∧
    exec (.vmin n vd va vb pg) s = .next (out 4 fun i => if (b i).lt (a i) then b i else a i) ∧
    exec (.vmax n vd va vb pg) s = .next (out 4 fun i => if (a i).lt (b i) then b i else a i) ∧
    exec (.vclamp n vd va vb vc pg) s = .next (out 5 fun i => ((a i).max (b i)).min ((s.vVal n vc).lane i)) ∧
    exec (.vscale n vd va rs pg) s = .next (out 4 fun i => (a i).scale (s.sVal n rs).toInt) ∧
    exec (.vmov n vd va pg) s = .next (out 4 a) ∧
    exec (.vbcast n vd rs pg) s = .next (out 3 fun _ => s.sfVal n rs) ∧
    exec (.vsel n vd va vb pg) s =
      .next (vecOut s n vd 4 ((List.finRange 48).map fun i => if (s.pVal n pg).getLsbD i.val then a i else b i)) ∧
    (∀ j : Fin 48, exec (.vset n vd rs (BitVec.ofNat 6 j.val)) s =
      .next (vecOut s n vd 4 ((List.finRange 48).map fun i => if i = j then s.sfVal n rs else d.lane i)))

/-- R62, R100, R112, R113: a lane, sums, the first best lane, halves and counts of a predicate. -/
def Obligations.VectorScalarResults : Prop :=
  ∀ (s : State) (n : CoreId) (rs : Sreg) (va vb : Vreg) (pa pg : Preg), CoreSound s n →
    let a := (s.vVal n va).lane
    let b := (s.vVal n vb).lane
    let on (i : Fin 48) : Prop := (s.pVal n pg).getLsbD i.val = true
    let sel := (List.finRange 48).filter fun i => (s.pVal n pg).getLsbD i.val
    (∀ j : Fin 48, exec (.vget n rs va (BitVec.ofNat 6 j.val)) s = .next (sfOut s n rs 2 (a j))) ∧
    exec (.vsum n rs va pg) s = .next (sfOut s n rs 6 ((sel.map a).foldl Ev.add ⟨0, 0, 0⟩)) ∧
    exec (.vdot n rs va vb pg) s = .next (sfOut s n rs 8 ((sel.map fun i => (a i).mul (b i)).foldl Ev.add ⟨0, 0, 0⟩)) ∧
    (∀ j : Fin 48, on j → (∀ i : Fin 48, on i → (a j).lt (a i) = false) → (∀ i : Fin 48, i < j → on i → (a i).lt (a j) = true) →
      exec (.vmaxr n rs va pg) s = .next (scalarOut s n rs 5 (BitVec.ofNat 32 j.val))) ∧
    (∀ j : Fin 48, on j → (∀ i : Fin 48, on i → (a i).lt (a j) = false) → (∀ i : Fin 48, i < j → on i → (a j).lt (a i) = true) →
      exec (.vminr n rs va pg) s = .next (scalarOut s n rs 5 (BitVec.ofNat 32 j.val))) ∧
    ((∀ i : Fin 48, ¬ on i) → exec (.vmaxr n rs va pg) s = .next (scalarOut s n rs 5 0xFFFFFFFF) ∧
      exec (.vminr n rs va pg) s = .next (scalarOut s n rs 5 0xFFFFFFFF) ∧
      exec (.vsum n rs va pg) s = .next (sfOut s n rs 6 Ev.zero) ∧ exec (.vdot n rs va vb pg) s = .next (sfOut s n rs 8 Ev.zero)) ∧
    exec (.pget n rs pa 0) s = .next (scalarOut s n rs 1 ((s.pVal n pa).extractLsb' 0 32)) ∧
    exec (.pget n rs pa 1) s = .next (scalarOut s n rs 1 (((s.pVal n pa).extractLsb' 32 16).setWidth 32)) ∧
    exec (.pcnt n rs pa pg) s = .next (scalarOut s n rs 2
      (BitVec.ofNat 32 (((List.range 48).filter fun i => (s.pVal n pa).getLsbD i && (s.pVal n pg).getLsbD i).length)))

/-- R58, R100, R112, R118: predicate results, bit by bit. -/
def Obligations.PredicateResults : Prop :=
  ∀ (s : State) (n : CoreId) (pd pa pb pg : Preg) (va vb : Vreg) (rs rp : Sreg), CoreSound s n →
    let a := (s.vVal n va).lane
    let b := (s.vVal n vb).lane
    let p := s.pVal n pg
    let one (c : Instr) (cyc : Nat) (f : Fin 48 → Bool) : Prop :=
      ∃ w : BitVec 48, (∀ i : Fin 48, w.getLsbD i.val = f i) ∧ exec c s = .next (predOut s n pd cyc w)
    one (.vcmplt n pd va vb pg) 3 (fun i => p.getLsbD i.val && (a i).lt (b i)) ∧
    one (.vcmple n pd va vb pg) 3 (fun i => p.getLsbD i.val && !(b i).lt (a i)) ∧
    one (.pand n pd pa pb) 1 (fun i => (s.pVal n pa).getLsbD i.val && (s.pVal n pb).getLsbD i.val) ∧
    one (.por n pd pa pb) 1 (fun i => (s.pVal n pa).getLsbD i.val || (s.pVal n pb).getLsbD i.val) ∧
    one (.pnot n pd pa) 1 (fun i => !(s.pVal n pa).getLsbD i.val) ∧
    one (.psetl n pd rs) 1 (fun i => if i.val < 32 then (s.sVal n rs).getLsbD i.val else (s.pVal n pd).getLsbD i.val) ∧
    one (.pseth n pd rs) 1 (fun i => if i.val < 32 then (s.pVal n pd).getLsbD i.val else (s.sVal n rs).getLsbD (i.val - 32)) ∧
    (let rb := (s.sVal n rp).toNat
     let ps := fun i => sfOfWord (BitVec.ofNat 32 ((s.cores[n]).dpeek (rb + 4 * i) 4))
     inDmem rb 8 = true → rb % 4 = 0 → dmemClean s n rb 2 → (ps 1).lt (ps 0) = false →
      one (.hyst n pd va pg rp) 5 (fun i =>
        if p.getLsbD i.val && (ps 1).lt (a i) then true else if p.getLsbD i.val && (a i).lt (ps 0) then false
        else (s.pVal n pd).getLsbD i.val))

/-- R114 to R117, R119: control laws whose parameters lie in DMEM and are ordered; MINSEL writes the smallest candidate of every
selected lane and the winner's index, the lowest on a tie. -/
def Obligations.ControlLaws : Prop :=
  (∀ (s : State) (n : CoreId) (vd va vb : Vreg) (pg pw : Preg) (rp : Sreg) (cnt : BitVec 2), CoreSound s n →
    let p := s.pVal n pg
    let x := (s.vVal n va).lane
    let d := (s.vVal n vd).lane
    let rb := (s.sVal n rp).toNat
    let ps := fun i => sfOfWord (BitVec.ofNat 32 ((s.cores[n]).dpeek (rb + 4 * i) 4))
    let lanes (f g : Fin 48 → Ev) : List Ev := (List.finRange 48).map fun i => if p.getLsbD i.val then f i else g i
    (inDmem rb 24 = true → rb % 4 = 0 → dmemClean s n rb 6 → (ps 3).lt (ps 2) = false → (ps 5).lt (ps 4) = false → vd ≠ vb →
      let acc := VReg.ofStage (lanes (fun i => (((s.vVal n vb).lane i).add ((ps 1).mul (x i))).clamp (ps 2) (ps 3)) (s.vVal n vb).lane)
      let out := VReg.ofStage (lanes (fun i => (((ps 0).mul (x i)).add (acc.1.lane i)).clamp (ps 4) (ps 5)) d)
      exec (.piStep n vd va vb pg rp) s =
        .next (((((s.fresh.writeV n vb acc.1).writeV n vd out.1).setSat n acc.2).setSat n out.2).retire n 4 14)) ∧
    (inDmem rb 8 = true → rb % 4 = 0 → dmemClean s n rb 2 → (ps 1).lt (ps 0) = false →
      exec (.setp n vd va pg rp) s = .next (vecOut s n vd 6 (lanes (fun i => ((x i).max (ps 0)).min (ps 1)) d))) ∧
    (inDmem rb 8 = true → rb % 4 = 0 → dmemClean s n rb 2 → (ps 1).lt (ps 0) = true → s.inSpec n = false →
      exec (.setp n vd va pg rp) s = .next (trapOut s n 6 causeParam (some rb)))) ∧
  ∀ (s : State) (n : CoreId) (vd : Vreg) (base : Fin 8) (cnt : BitVec 2) (pg : Preg) (k : Fin 3), CoreSound s n →
    cnt.toNat < 3 → base.val + cnt.toNat ≤ 7 →
    let pw : Preg := ⟨2 * k.val + 2, by omega⟩
    let pw1 : Preg := ⟨2 * k.val + 3, by omega⟩
    let p := s.pVal n pg
    let cand (j : Nat) (i : Fin 48) : Ev := (s.vVal n ⟨(base.val + j) % 8, by omega⟩).lane i
    ∃ (win : Fin 48 → Nat) (b0 b1 : BitVec 48),
      (∀ i, win i ≤ cnt.toNat ∧ (∀ j ≤ cnt.toNat, (cand j i).lt (cand (win i) i) = false) ∧
        ∀ j < win i, (cand (win i) i).lt (cand j i) = true) ∧
      (∀ i : Fin 48, b0.getLsbD i.val = if p.getLsbD i.val then (win i).testBit 0 else (s.pVal n pw).getLsbD i.val) ∧
      (∀ i : Fin 48, b1.getLsbD i.val = if p.getLsbD i.val then (win i).testBit 1 else (s.pVal n pw1).getLsbD i.val) ∧
      let out := VReg.ofStage ((List.finRange 48).map fun i => if p.getLsbD i.val then cand (win i) i else (s.vVal n vd).lane i)
      exec (.minsel n vd base cnt pg pw) s =
        .next (((((s.fresh.writeV n vd out.1).setSat n out.2).writeP n pw b0).writeP n pw1 b1).retire n 4 8)

/-- R76, R80, R99, R108, R110: LD.IN where the data is present, at the timeout, before it, where its stamp cannot be read and in a
speculative run; PRED.SET. -/
def Obligations.InputSlots : Prop :=
  ∀ (s : State) (n : CoreId) (reg : Sreg) (pv : Preg) (slot : BitVec 8), CoreSound s n →
    let d := (s.cores[n]).slot slot.toNat
    let here := s.slotPresent d (s.cores[n]).period
    let on (i : Nat) : Bool := d.lanes.getLsbD i && decide (i < (if d.vec then 48 else 1))
    dmemClean s n (slotAddr slot.toNat) 4 → (d.vec = true → reg.val % 4 = 0) → (s.cores[n]).slotExcess slot.toNat = false →
    let late : Prop := (s.cores[n]).tick + d.tmo * 64 ≤ s.ticks
    (s.inSpec n = false → (here = true ∨ late) → s.burstClean d (s.cores[n]).period →
      ∃ t, exec (.ldIn n reg pv slot) s = .next t ∧ (t.cores[n]).pc = (s.cores[n]).pc + 4 ∧
        (pv ≠ 0 → ∀ i : Fin 48, (t.pVal n pv).getLsbD i.val = true ↔
          on i.val = true ∧ here = true ∧ ∃ v, s.laneCode d (s.cores[n]).period i.val = .code v) ∧
        (d.vec = false → reg ≠ 0 → t.sVal n reg =
          match d.lanes.getLsbD 0, here, s.laneCode d (s.cores[n]).period 0 with
          | true, true, .code v => v.signExtend 32
          | true, _, _ => ((predCell (s.cores[n]).pred slot.toNat 0).last.getD 0).signExtend 32
          | false, _, _ => 0)) ∧
    (s.inSpec n = false → s.stampBad d (s.cores[n]).period = true →
      ∃ t, exec (.ldIn n reg pv slot) s = .next t ∧ t.fget (F.CORE_TCAUSE_CAUSE n) = causeBus) ∧
    (s.inSpec n = false → here = false → s.stampBad d (s.cores[n]).period = false → ¬ late →
      exec (.ldIn n reg pv slot) s = .next (s.fresh.stallOn n (.input reg pv slot))) ∧
    (s.inSpec n = true → d.sp = false ∨ d.mode = 0 →
      ∃ t, exec (.ldIn n reg pv slot) s = .next t ∧ t.coreState n = coreParked) ∧
    (s.inSpec n = false →
      ∃ t, exec (.predSet n slot reg) s = .next t ∧ (t.cores[n]).pc = (s.cores[n]).pc + 4 ∧
        ∀ i : Fin 48, predCell (t.cores[n]).pred slot.toNat i.val =
          { predCell (s.cores[n]).pred slot.toNat i.val with
            script :=
              if on i.val then
                some (BitVec.ofInt 16 (max (-2 ^ 15) (min (2 ^ 15 - 1)
                  (if d.vec then (s.vVal n ⟨reg.val / 4, by omega⟩).lane i else s.sfVal n reg).toNearest)))
              else (predCell (s.cores[n]).pred slot.toNat i.val).script })

/-- R71, R78, R99, R100, R120, R121, R125: EMIT, NOP, WAITP, RETT and RDSYS. -/
def Obligations.ControlInstructions : Prop :=
  ∀ (s : State) (n : CoreId) (rd : Sreg) (va : Vreg) (pg : Preg) (dest : Fin 4) (qty : BitVec 4), CoreSound s n →
    let m : EmitMsg :=
      ⟨n, (s.cores[n]).period, dest, qty, (s.vVal n va).exp, (s.vVal n va).mant, (s.vVal n va).res, s.pVal n pg⟩
    exec (.nop n) s = .next (s.fresh.retire n 4 1) ∧
    (s.inSpec n = false → (s.cores[n]).fifo.length < 8 →
      ∃ t, exec (.emit n va pg (BitVec.ofNat 4 dest.val) qty) s = .next t ∧ (t.cores[n]).fifo = (s.cores[n]).fifo ++ [m] ∧
        (t.cores[n]).pc = (s.cores[n]).pc + 4) ∧
    (s.inSpec n = false → 8 ≤ (s.cores[n]).fifo.length →
      exec (.emit n va pg (BitVec.ofNat 4 dest.val) qty) s = .next (s.fresh.stallOn n (.emit m))) ∧
    (s.inSpec n = true → (s.cores[n]).emits.length < 64 →
      ∃ t, exec (.emit n va pg (BitVec.ofNat 4 dest.val) qty) s = .next t ∧ (t.cores[n]).emits = (s.cores[n]).emits ++ [m] ∧
        (t.cores[n]).fifo = (s.cores[n]).fifo) ∧
    (s.inSpec n = false → s.fget (F.CORE_CTRL_SPEC n) = 0 → (s.cores[n]).pendTicks = 0 →
      ∃ t, exec (.waitp n) s = .next t ∧ t.coreState n = coreWait ∧ (t.cores[n]).r = (s.cores[n]).r) ∧
    (s.inSpec n = false → s.fget (F.CORE_CTRL_SPEC n) = 0 → 0 < (s.cores[n]).pendTicks →
      ∃ t, exec (.waitp n) s = .next t ∧ t.coreState n = coreRunning ∧ (t.cores[n]).period = s.tickCount ∧
        (t.cores[n]).pc = BitVec.ofNat 16 (s.phv n) ∧ (t.cores[n]).pendTicks = 0 ∧
        (t.cores[n]).tick = s.timer.last ∧ t.sVal n 1 = BitVec.ofNat 32 s.tickCount ∧
        t.sVal n 2 = (s.rtimeAt s.timer.last).setWidth 32) ∧
    (s.coreState n = coreTrap →
      ∃ t, exec (.rett n) s = .next t ∧ t.coreState n = coreRunning ∧
        (t.cores[n]).pc = BitVec.ofNat 16 (4 * s.fget (F.CORE_TPC_ADDR n) + (s.cores[n]).rettStep) ∧
        (t.cores[n]).r = (s.cores[n]).r) ∧
    exec (.rdsys n rd 0) s = .next (scalarOut s n rd 1 (BitVec.ofNat 32 n.val)) ∧
    exec (.rdsys n rd 1) s = .next (scalarOut s n rd 1 (BitVec.ofNat 32 (s.cores[n]).cycles)) ∧
    exec (.rdsys n rd 2) s = .next (scalarOut s n rd 1 (BitVec.ofNat 32 (s.fget (F.CORE_TCAUSE_CAUSE n)))) ∧
    exec (.rdsys n rd 3) s = .next (scalarOut s n rd 1 (BitVec.ofNat 32 (4 * s.fget (F.CORE_TPC_ADDR n)))) ∧
    exec (.rdsys n rd 4) s = .next (scalarOut s n rd 1 (s.word (A.CORE_TADDR n)))

/-- R90, R92, R99: a trap outside a speculative run saves the pc and the cause, and the core goes on at its trap vector or
halts; BREAK and every undefined instruction word take it, and BREAK takes its listed cycle. -/
def Obligations.TrapEntry : Prop :=
  ∀ (s : State) (n : CoreId) (word : Word), CoreSound s n → s.inSpec n = false → s.coreState n ≠ coreTrap →
    let entry (c : Instr) (cause : Nat) : Prop :=
      ∃ t, exec c s = .next t ∧ t.fget (F.CORE_TPC_ADDR n) = (s.cores[n]).pc.toNat / 4 ∧
        t.fget (F.CORE_TCAUSE_CAUSE n) = cause ∧ t.word (A.CORE_TADDR n) = s.word (A.CORE_TADDR n) ∧
        (t.cores[n]).r = (s.cores[n]).r ∧
        (s.fget (F.CORE_CTRL_TRAPHALT n) = 0 →
          t.coreState n = coreTrap ∧ (t.cores[n]).pc = BitVec.ofNat 16 (4 * s.fget (F.CORE_TVEC_ADDR n)) ∧
          (t.cores[n]).rettStep = 4) ∧
        (s.fget (F.CORE_CTRL_TRAPHALT n) = 1 → t.coreState n = coreHalted)
    entry (.brk n) causeBreak ∧
    (decodeScript n word = none → entry (.illegalInstruction n word) causeIllegal) ∧
    (s.fget (F.CORE_CTRL_TRAPHALT n) = 0 →
      exec (.brk n) s = .next (trapOut s n 1 causeBreak none) ∧
      (trapOut s n 1 causeBreak none).cores[n].cycles = (s.cores[n]).cycles + s.coreCycles n 1)

/-- R123, R128, R130 to R132, R138, R146: the take instructions, outside a speculative run. -/
def Obligations.TakeInstructions : Prop :=
  ∀ (s : State) (n : CoreId) (rd ra rb : Sreg) (h : HandleId) (bnd : BitVec 5), CoreSound s n → s.inSpec n = false →
    let mine : Prop := s.sVal n ra = BitVec.ofNat 32 h.val ∧ s.fget (F.TAKE_STAT_OWNER h) = 0x10 + n.val
    let a := (s.sVal n rb).toNat
    let v := s.sVal n rd
    (s.takeActive h = false → (∀ k < h, s.takeActive k = true) →
      ∃ t, exec (.tkOpen n rd) s = .next t ∧ t.takeState h = takeOpen ∧ t.fget (F.TAKE_STAT_OWNER h) = 0x10 + n.val ∧
        (t.takes[h]).writes = [] ∧ (t.takes[h]).stamp = s.wseq ∧ (t.takes[h]).openedAt = s.ticks ∧
        (rd ≠ 0 → t.sVal n rd = BitVec.ofNat 32 h.val)) ∧
    ((∀ k, s.takeActive k = true) →
      ∃ t, exec (.tkOpen n rd) s = .next t ∧ (rd ≠ 0 → t.sVal n rd = 0xFFFFFFFF) ∧ t.takes = s.takes) ∧
    (mine → s.takeState h = takeOpen → a % 4 = 0 → takeable a = true → staticBad a v = false →
      (s.takes[h]).writes.length < 512 → s.takeEntries < 2048 →
      ∃ t, exec (.tkWr n rd ra rb) s = .next t ∧ (t.takes[h]).writes = (s.takes[h]).writes ++ [(a, v)] ∧
        t.takeState h = takeOpen ∧ t.fget (F.TAKE_STAT_WRITES h) = (s.takes[h]).writes.length + 1 ∧ t.word a = s.word a) ∧
    (mine → s.takeState h = takeOpen → a % 4 ≠ 0 →
      ∃ t, exec (.tkWr n rd ra rb) s = .next t ∧ t.takeState h = takeCut ∧ t.fget (F.TAKE_STAT_REASON h) = cutRefused ∧
        (t.takes[h]).writes = []) ∧
    (mine → s.takeState h = takeOpen → bnd.toNat ≤ 4 → bnd ≠ 3 →
      ∃ t, exec (.tkPrint n ra rb bnd) s = .next t ∧ t.takeState h = takePending ∧
        t.fget (F.TAKE_STAT_BND h) = bnd.toNat ∧ (t.takes[h]).printedAt = s.ticks ∧
        (t.takes[h]).writes = (s.takes[h]).writes) ∧
    (mine → s.takeActive h = true →
      ∃ t, exec (.tkCut n ra) s = .next t ∧ t.takeState h = takeCut ∧ t.fget (F.TAKE_STAT_REASON h) = cutAbandoned ∧
        (t.takes[h]).writes = [] ∧
        t.fget F.TAKE_CUTCNT_ABANDONED = min (s.fget F.TAKE_CUTCNT_ABANDONED + 1) (2 ^ F.TAKE_CUTCNT_ABANDONED.width - 1)) ∧
    (s.sVal n ra = BitVec.ofNat 32 h.val →
      exec (.tkStat n rd ra) s = .next (scalarOut s n rd 4 (s.word (A.TAKE_STAT h))))

/-- R55, R63, R99: a completed instruction moves the pc on by a word and counts its cycles; s0 discards writes; the other registers
of the core, the other cores and memory are unchanged. Of an instruction that only computes, traps and halts included: memory, the
other cores and every register outside TAKE, CORE, FLT, MEM and HOST are unchanged. -/
def Obligations.InstructionFrames : Prop :=
  (∀ (s : State) (n : CoreId) (rd : Sreg) (cyc : Nat) (v : Word),
    let t := scalarOut s n rd cyc v
    t.sVal n rd = (if rd = 0 then 0 else v) ∧ (t.cores[n]).pc = (s.cores[n]).pc + 4 ∧
    (t.cores[n]).cycles = (s.cores[n]).cycles + s.coreCycles n cyc ∧
    (∀ r, r ≠ rd → (t.cores[n]).r.s[r] = (s.cores[n]).r.s[r]) ∧ (t.cores[n]).r.v = (s.cores[n]).r.v ∧
    (t.cores[n]).r.p = (s.cores[n]).r.p ∧ (t.cores[n]).dmem = (s.cores[n]).dmem ∧ (t.cores[n]).imem = (s.cores[n]).imem ∧
    (∀ m, m ≠ n → t.cores[m] = s.cores[m]) ∧ t.mem = s.mem ∧ t.regs = s.regs ∧ t.pending = s.pending ∧
    (CoreSound s n → s.fget (F.CORE_STAT_STATE n) ≠ coreSpec → ∀ r : Sreg, (t.cores[n]).r.sres[r] = wordResidue (t.cores[n]).r.s[r])) ∧
  ∀ (s t : State) (n : CoreId) (c : Instr), computeCore c = some n → exec c s = .next t →
    t.mem = s.mem ∧ (∀ m, m ≠ n → t.cores[m] = s.cores[m]) ∧ t.pending = s.pending ∧ t.ticks = s.ticks ∧ t.timer = s.timer ∧
    t.plan = s.plan ∧ t.rings = s.rings ∧ t.brg = s.brg ∧ t.adc = s.adc ∧ t.mtr = s.mtr ∧ t.safe = s.safe ∧ t.cells = s.cells ∧
    ∀ a, (a < 0x40030000 ∨ 0x40050000 ≤ a ∧ a < 0x400B0000 ∨ 0x400E0000 ≤ a) → t.word a = s.word a

/-- R8 to R10, R13: what a direct write stores, what a rejected one leaves, and what a read clears. -/
def Obligations.RegisterAccess : Prop :=
  ∀ (s : State) (req : Requester) (a : Nat) (v : Word) (r : RegRow) (i : Nat), findReg a = some (r, i) →
    s.powered (regDomain a) = true →
    (s.writeGrounds a r v = [] → s.fresh.writeEffect req false a r v = none → liveWaits a = false → a ≠ A.TAKE_WSEQL → a ≠ A.TAKE_WSEQH →
      ∃ t, exec (.registerWrite req a v) s = .next t ∧
        (∀ j < 32, (t.word a).getLsbD j =
          if (r.mask (· == .rw)).getLsbD j then v.getLsbD j
          else if (r.mask (· == .w1c)).getLsbD j && v.getLsbD j then false
          else if (r.mask fun c => c == .rt || c == .rl).getLsbD j then v.getLsbD j
          else (s.word a).getLsbD j) ∧
        (∀ b, b ≠ a → b ≠ A.TAKE_WSEQL → b ≠ A.TAKE_WSEQH → t.word b = s.word b) ∧ t.mem = s.mem ∧ t.cores = s.cores) ∧
    (s.writeGrounds a r v ≠ [] → a < 0x400B0000 →
      ∃ t, exec (.registerWrite req a v) s = .next t ∧ t.word a = s.word a ∧ t.mem = s.mem ∧ t.cores = s.cores) ∧
    (s.fresh.readEffect a = none → s.fresh.computed req a = none →
      ∃ t, exec (.rcRead req a) s = .next t ∧ Out.value req (some (s.word a)) ∈ t.out ∧
        (∀ j < 32, (t.word a).getLsbD j =
          if (r.mask (· == .rc)).getLsbD j then (resetValue a).getLsbD j else (s.word a).getLsbD j) ∧
        (∀ b, b ≠ a → t.word b = s.word b))

/-- R13, R277, R278, R357, R437: reads that latch the rest of a value, or take it from a queue. -/
def Obligations.LatchingReads : Prop :=
  ∀ (s : State) (req : Requester) (j : EnergyId) (k : HistId),
    (readable s A.TIME_RTIMEL → ∃ t, exec (.rtimelRead req) s = .next t ∧ Out.value req (some (s.rtimeShown.setWidth 32)) ∈ t.out ∧
      t.fget F.TIME_RTIMEH_TIME = s.rtimeShown.toNat / 2 ^ 32 ∧ (s.sup.islandStop = false → s.rtimeShown = s.rtime) ∧ ∀ a, a ≠ A.TIME_RTIMEH → t.word a = s.word a) ∧
    (readable s A.TIME_LTIMEL → ∃ t, exec (.ltimelRead req) s = .next t ∧ Out.value req (some (BitVec.ofNat 32 s.ltime)) ∈ t.out ∧
      t.fget F.TIME_LTIMEH_TIME = s.ltime / 2 ^ 32 % 2 ^ F.TIME_LTIMEH_TIME.width ∧ ∀ a, a ≠ A.TIME_LTIMEH → t.word a = s.word a) ∧
    (readable s A.BRG_PSTARTL → ∃ t, exec (.pstartlRead req) s = .next t ∧
      Out.value req (some (s.brg.lastStart.setWidth 32)) ∈ t.out ∧
      t.fget F.BRG_PSTARTH_TIME = s.brg.lastStart.toNat / 2 ^ 32 ∧ ∀ a, a ≠ A.BRG_PSTARTH → t.word a = s.word a) ∧
    (readable s A.ADC_ZXTL → ∃ t, exec (.zxtlRead req) s = .next t ∧ Out.value req (some (s.word A.ADC_ZXTL)) ∈ t.out ∧
      t.fget F.ADC_ZXTH_TIME = s.adc.zxAt.getD 0 / 2 ^ 32 % 2 ^ 16 ∧ ∀ a, a ≠ A.ADC_ZXTH → t.word a = s.word a) ∧
    (readable s (A.MTR_EL j) → s.mtrState ≠ mtrInit → ∃ t, exec (.mtrElRead req j) s = .next t ∧
      Out.value req (some (s.word (A.MTR_EL j))) ∈ t.out ∧ t.fget (F.MTR_EH_E j) = unsignedOf 64 (s.wh j) / 2 ^ 32 ∧
      ∀ a, a ≠ A.MTR_EH j → t.word a = s.word a) ∧
    (readable s (A.FLT_HISTL k) → ∀ e rest, (s.flt.hist[k]) = e :: rest → rest.length < 8 →
      ∃ t, exec (.histlRead req k) s = .next t ∧ Out.value req (some (e.time.setWidth 32)) ∈ t.out ∧ (t.flt.hist[k]) = rest ∧
        t.fget (F.FLT_HISTH_TIME k) = e.time.toNat / 2 ^ 32 ∧ t.fget (F.FLT_HISTH_VALID k) = 1 ∧
        t.fget (F.FLT_HISTH_LEVEL k) = rest.length ∧ (t.flt.lost[k]) = 0) ∧
    (readable s (A.FLT_HISTL k) → (s.flt.hist[k]) = [] →
      ∃ t, exec (.histlRead req k) s = .next t ∧ Out.value req (some 0) ∈ t.out ∧ t.word (A.FLT_HISTH k) = 0 ∧ t.flt = s.flt) ∧
    (readable s A.RING_EVTQ3 → ∃ t, exec (.evtqRead req) s = .next t ∧ Out.value req (some (s.word A.RING_EVTQ3)) ∈ t.out ∧
      t.evq = s.evq.drop 1)

/-- R511 to R514: the start of the module, and its restart after the supply returns. -/
def Obligations.PowerStart : Prop :=
  ∀ (s : State) (msec : Nat),
    (s.sup.inputOn = false →
      ∃ t, exec .powerOn s = .next t ∧ t.sup = { Sup.reset with inputOn := true } ∧ (∀ d < 12, t.powered d = decide (d = 0)) ∧
        t.fget F.SUP_STAT_LASTRST = 0 ∧ t.fget F.SUP_STAT_INOK = 1) ∧
    (regsWf s.regs = true → s.powered domAon = true → s.sup.inputOn = true → s.sup.auxLost = false → s.sup.shutdown = false →
      ∀ g, startGroups.find? (fun g => !(s.groupLeft g).isEmpty) = some g →
      ∃ t, exec .domainPowerUp s = .next t ∧ (∀ d ∈ s.groupLeft g, t.powered d = true) ∧
        (∀ d, s.powered d = true → t.powered d = true) ∧ t.pwr = s.pwr) ∧
    (s.powered domAon = true → s.fget F.SUP_START_RDYMS = 0xFFFF →
      ∃ t, exec (.ringReady msec) s = .next t ∧ t.fget F.SUP_START_RDYMS = min msec 65534 ∧ ∀ a, a ≠ A.SUP_START → t.word a = s.word a) ∧
    (s.powered domAon = true → s.sup.auxLost = true →
      (s.sup.shutdown = false → ∃ t, exec .auxSupplyReturn s = .next t ∧ t.sup = { Sup.reset with inputOn := true } ∧
        (∀ d < 12, t.powered d = decide (d = 0)) ∧ t.fget F.SUP_STAT_LASTRST = 1 ∧
        s.ticks + 200 * ms ≤ t.ticks ∧ s.sup.lostAt + 220 * ms ≤ t.ticks) ∧
      (s.sup.shutdown = true → ∃ t, exec .auxSupplyReturn s = .next t ∧ t.sup = { s.sup with auxLost := false } ∧ t.fget F.SUP_STAT_INOK = 1))

/-- R28, R509 to R511, R524: what SUP shows of the supplies, and their loss. -/
def Obligations.SupplyLevels : Prop :=
  ∀ (s : State) (volts mj mv : Nat), s.powered domAon = true →
    (∃ t, exec (.brownOut volts) s = .next t ∧ t.fget F.SUP_VIN_VPK = min volts 1023 ∧
      t.fget F.SUP_STAT_BROWN = (if 75 ≤ volts ∧ volts ≤ 110 then 1 else s.fget F.SUP_STAT_BROWN) ∧
      ∀ a, a ≠ A.SUP_VIN → a ≠ A.SUP_STAT → t.word a = s.word a) ∧
    (∃ t, exec (.storeMeasure mj) s = .next t ∧ t.fget F.SUP_VIN_STORE = min mj 65535 ∧
      t.fget F.SUP_STAT_STORELOW = (if mj < 2200 then 1 else s.fget F.SUP_STAT_STORELOW) ∧
      ∀ a, a ≠ A.SUP_VIN → a ≠ A.SUP_STAT → t.word a = s.word a) ∧
    (∃ t, exec (.safe24Change mv) s = .next t ∧ t.safe = { s.safe with safe24 := mv } ∧
      t.fget F.SUP_STAT_SAFE24 = (if 19200 ≤ mv then 1 else 0) ∧
      t.fget F.SUP_STAT_SAFE24LOW = (if 19200 ≤ mv then s.fget F.SUP_STAT_SAFE24LOW else 1) ∧
      ∀ a, a ≠ A.SUP_STAT → t.word a = s.word a) ∧
    (s.sup.inputOn = true → s.sup.auxLost = false →
      ∃ t, exec .auxSupplyLoss s = .next t ∧ t.sup.auxLost = true ∧ t.sup.lostAt = s.ticks ∧ t.fget F.SUP_STAT_INOK = 0 ∧ t.ticks = s.ticks ∧
        (s.running = true → s.sup.stop = none → ∃ i, t.sup.stop = some ⟨some i, true, false⟩)) ∧
    (s.sup.auxLost = true →
      ∃ t, exec .holdupEnd s = .next t ∧ t.sup = { Sup.reset with inputOn := false } ∧ ∀ d < 12, t.powered d = false)

/-- R23, R24, R32 to R34, R256, R259, R459, R460, R531: a domain or I_RTIME is lost; the stop instant and the state that the power
stage takes behind it; a thermal shutdown switches the domains off and ends. -/
def Obligations.DomainLoss : Prop :=
  (∀ (s : State) (d : DomainId),
    (s.powered d = true →
      ∃ t, exec (.domainLoss d) s = .next t ∧ t.powered d = false ∧ (d ≠ 0 → (t.fget F.SUP_DOM_LOST).testBit d.val = true) ∧
        (d ≠ 0 → ∀ k, k ≠ d.val → t.powered k = s.powered k) ∧
        (d = 0 → ∀ k, k < 12 → t.powered k = (s.powered k && (k == domSafa || k == domSafb))) ∧ t.pwr = s.pwr) ∧
    (s.powered domPlan = true → s.sup.islandStop = false →
      ∃ t, exec .rtimeIslandStop s = .next t ∧ t.sup.islandStop = true ∧
        (s.running = true → s.sup.stop = none → ∃ i, t.sup.stop = some ⟨some i, true, false⟩)) ∧
    (s.powered domAon = true → s.sup.shutdown = true →
      (∃ t, exec .shutdownPowerOff s = .next t ∧ (∀ k < 12, t.powered k = decide (k = 0)) ∧ t.fget F.SUP_CAGE_ON = 0 ∧
        s.sup.shutAt + 2 * ms ≤ t.ticks) ∧
      (∃ t, exec (.shutdownRelease false) s = .next t ∧ t.sup = { Sup.reset with inputOn := true } ∧ t.fget F.SUP_STAT_LASTRST = 3 ∧
        t.fget F.THERM_STAT_LASTSD = 1 ∧ t.pwr = pwrStopped ∧ (∀ k < 12, t.powered k = decide (k = 0))) ∧
      (∃ t, exec (.shutdownRelease true) s = .next t ∧ t.sup = { Sup.reset with inputOn := true } ∧ t.fget F.SUP_STAT_LASTRST = 0 ∧
        t.pwr = pwrStopped ∧ (∀ k < 12, t.powered k = decide (k = 0))))) ∧
  ∀ (s : State) (i : Nat) (safe : Bool),
    (s.sup.stop = some ⟨some i, safe, false⟩ →
      ∃ t, exec .stopInstant s = .next t ∧ t.sup.stop = some ⟨some i, safe, true⟩ ∧ i ≤ t.ticks ∧ s.ticks ≤ t.ticks ∧ t.brg.running = false ∧
        (s.powered domAnlg = true → ∀ x, t.legState x = legOff) ∧ (∀ x k, (t.cell x k).mode ≠ .run) ∧ t.pwr = s.pwr) ∧
    (∀ j, s.sup.stop = some ⟨j, safe, true⟩ →
      ∃ t, exec .powerStateUpdate s = .next t ∧ t.sup = { s.sup with stop := none } ∧
        t.pwr = (if safe then pwrSafeStop else pwrStopped) ∧ ∀ a, a ≠ A.SUP_MODE → t.word a = s.word a)

/-- R42, R48, R49: a request joins the mode arbiter with its code; without SUP it is a bus error. -/
def Obligations.ModeRequests : Prop :=
  ∀ (s : State) (req : Requester) (low : BitVec 3) (c : Instr × BitVec 4),
    c ∈ [(.reqPrecharge req, 1), (.reqRun req, 2), (.reqStop req, 3), (.reqSafeStop req, 4), (.reqClear req, 5), (.reqRide req, 6),
      (.reqResume req, 7), (.reqUndefined req low, 8 + low.setWidth 4)] →
    ∃ t, exec c.1 s = .next t ∧ t.regs = s.regs ∧ t.mem = s.mem ∧
      t.sup = (if s.powered domAon = true then { s.sup with arbNext := s.sup.arbNext ++ [(s.ticks, ⟨req, c.2⟩)] } else s.sup) ∧
      t.out = (if s.powered domAon = true then [] else [.busError req A.SUP_MODE_REQ])

/-- R42, R47, R48: the power-stage state decides whether a request moves the axis or is refused. -/
def Obligations.ArbiterDecisions : Prop :=
  ∀ (s : State) (req : Requester) (code : BitVec 4) (rest : List ArbReq), s.powered domAon = true → s.sup.arb = ⟨req, code⟩ :: rest →
    s.sup.stop = none →
    ∃ t, exec .arbiterDecision s = .next t ∧ t.sup.arb = rest ∧
      (code = 2 → s.pwr = pwrPrecharge → s.safetyBars = false → s.domainBars = false → t.pwr = pwrRun ∧ Out.accepted req ∈ t.out) ∧
      (code = 5 → s.pwr = pwrSafeStop → s.safetyBars = false → t.pwr = pwrStopped ∧ Out.accepted req ∈ t.out) ∧
      (code = 6 → s.pwr = pwrRun → t.pwr = pwrRide ∧ Out.accepted req ∈ t.out) ∧
      (code = 7 → s.pwr = pwrRide → t.pwr = pwrRun ∧ Out.accepted req ∈ t.out) ∧
      (code = 3 ∨ code = 4 → s.running = true →
        (∃ i, t.sup.stop = some ⟨some i, code == 4, false⟩) ∧ t.pwr = s.pwr ∧ Out.accepted req ∈ t.out) ∧
      (code = 1 → s.pwr = pwrStopped → s.safetyBars = false → s.fget F.SUP_MODE_THERM ≠ 2 → s.flag F.SUP_MODE_UPD = false →
        s.byteMode = false → s.ringBars = false → s.domainBars = false → t.pwr = pwrPrecharge ∧ Out.accepted req ∈ t.out) ∧
      (s.safetyBars = true → (code = 1 ∧ s.pwr = pwrStopped ∨ code = 2 ∧ s.pwr = pwrPrecharge ∨ code = 5 ∧ s.pwr = pwrSafeStop) →
        t.pwr = s.pwr ∧ t.fget F.SUP_REFUSE_CODE = refSafety ∧ t.fget F.SUP_REFUSE_REQ = code.toNat ∧
          t.fget F.SUP_REFUSE_REQUESTER = reqCode req ∧ t.fget F.SUP_REFUSE_AXIS = 0) ∧
      ((code = 1 ∧ s.pwr ≠ pwrStopped ∨ code = 2 ∧ s.pwr ≠ pwrPrecharge ∨ code = 5 ∧ s.pwr ≠ pwrSafeStop ∨ code = 6 ∧ s.pwr ≠ pwrRun ∨
          code = 7 ∧ s.pwr ≠ pwrRide ∨ (code = 3 ∨ code = 4) ∧ s.running = false ∨ 8 ≤ code.toNat) →
        t.pwr = s.pwr ∧ t.fget F.SUP_REFUSE_CODE = refOrder ∧ t.fget F.SUP_REFUSE_REQ = code.toNat ∧
          t.fget F.SUP_REFUSE_REQUESTER = reqCode req ∧ t.fget F.SUP_REFUSE_AXIS = 0)

/-- R69, R74, R95, R96: CORE.ENABLE, CORE.PERIOD and the load window of a halted core. -/
def Obligations.CoreControl : Prop :=
  ∀ (s : State) (req : Requester) (v : Word) (n : CoreId),
    let w := s.fget (F.CORE_LADDR_WORD n)
    (writeFree s A.CORE_ENABLE v →
      ∃ t, exec (.coreEnableWrite req v) s = .next t ∧ ∀ m : CoreId,
        (v.getLsbD m.val = true → (s.word A.CORE_ENABLE).getLsbD m.val = false →
          t.coreState m = coreWait ∧ t.cores[m] = { s.cores[m] with pendTicks := 0 }) ∧
        (v.getLsbD m.val = false → (s.word A.CORE_ENABLE).getLsbD m.val = true →
          t.coreState m = coreHalted ∧ (t.cores[m]).r = (s.cores[m]).r ∧ (t.cores[m]).stall = none) ∧
        (v.getLsbD m.val = (s.word A.CORE_ENABLE).getLsbD m.val → t.coreState m = s.coreState m ∧ t.cores[m] = s.cores[m])) ∧
    (writeFree s A.CORE_PERIOD v →
      ∃ t, exec (.corePeriodWrite req v) s = .next t ∧ t.timer = { s.timer with accepted := F.CORE_PERIOD_PERIOD.get v } ∧
        t.fget F.CORE_PERIOD_PERIOD = F.CORE_PERIOD_PERIOD.get v ∧ t.cores = s.cores) ∧
    (readable s (A.CORE_LDATA n) → s.coreState n = coreHalted →
      (s.flag (F.CORE_LADDR_SEL n) = true → eccAt (s.cores[n]).dmemErr (4 * w) = none →
        ∃ t, exec (.loadWindowRead req n) s = .next t ∧
          Out.value req (some (BitVec.ofNat 32 (ofBytesLE ((List.range 4).map fun i => sparseGet memDefault (s.cores[n]).dmem (4 * w + i))))) ∈ t.out ∧
          t.fget (F.CORE_LADDR_WORD n) = (w + 1) % 2 ^ 15 ∧ t.cores = s.cores) ∧
      (s.flag (F.CORE_LADDR_SEL n) = false → w ≤ 16383 → eccAt (s.cores[n]).imemErr (4 * w) = none →
        ∃ t, exec (.loadWindowRead req n) s = .next t ∧ Out.value req (some ((s.cores[n]).iword (4 * w))) ∈ t.out ∧
          t.fget (F.CORE_LADDR_WORD n) = w + 1 ∧ t.cores = s.cores)) ∧
    (writeFree s (A.CORE_LDATA n) v → s.coreState n = coreHalted →
      (s.flag (F.CORE_LADDR_SEL n) = true →
        ∃ t, exec (.loadWindowWrite req n v) s = .next t ∧ t.fget (F.CORE_LADDR_WORD n) = (w + 1) % 2 ^ 15 ∧
          t.cores[n] = { s.cores[n] with
            dmem := dmemPoke (s.cores[n]).dmem (dmemLo + 4 * w) (bytesLE 4 v.toNat), dmemErr := eccClear (s.cores[n]).dmemErr (4 * w) }) ∧
      (s.flag (F.CORE_LADDR_SEL n) = false → w ≤ 16383 →
        ∃ t, exec (.loadWindowWrite req n v) s = .next t ∧ (t.cores[n]).iword (4 * w) = v ∧ eccAt (t.cores[n]).imemErr (4 * w) = none ∧
          t.fget (F.CORE_LADDR_WORD n) = w + 1)) ∧
    (readable s (A.CORE_LDATA n) → s.coreState n ≠ coreHalted →
      ∃ t, exec (.loadWindowRead req n) s = .next t ∧ Out.value req none ∈ t.out ∧ t.cores = s.cores)

/-- R68, R69, R71, R140, R533: the period tick paces the timer and the cores, after the takes that are due by it. -/
def Obligations.PeriodTick : Prop :=
  ∀ (s : State), s.powered domPlan = true → s.sup.islandStop = false →
    let u := s.fresh.takesUpTo s.timer.next
    ∃ t, exec .periodTick s = .next t ∧
      t.timer = ⟨s.timer.next, s.timer.next + u.timer.accepted * 64, u.timer.accepted, u.timer.accepted, (u.tickCount + 1) % 2 ^ 32⟩ ∧
      s.timer.next ≤ t.ticks ∧
      (u.powered domCore = true →
        t.fget F.CORE_TICK_COUNT = (u.tickCount + 1) % 2 ^ 32 ∧
        ∀ n : CoreId,
          (u.coreState n = coreHalted → t.cores[n] = u.cores[n] ∧ t.coreState n = coreHalted) ∧
          (u.coreState n = coreWait →
            t.coreState n = coreRunning ∧ (t.cores[n]).pc = BitVec.ofNat 16 (u.phv n) ∧ (t.cores[n]).period = (u.tickCount + 1) % 2 ^ 32 ∧
            (t.cores[n]).tick = s.timer.next ∧ t.sVal n 1 = BitVec.ofNat 32 ((u.tickCount + 1) % 2 ^ 32)) ∧
          (u.coreState n = coreRunning → (u.cores[n]).ckpt = none →
            t.coreState n = coreRunning ∧ (t.cores[n]).pendTicks = (u.cores[n]).pendTicks + 1 ∧ (t.cores[n]).r = (u.cores[n]).r ∧
            t.fget (F.CORE_STAT_OVR n) = 1))

/-- R52, R107, R108, R121: a stalled access, LD.IN and EMIT complete. -/
def Obligations.StallsEnd : Prop :=
  ∀ (s : State) (n : CoreId) (cyc : Nat), s.coreAlive n = true →
    (∀ rt a, (s.cores[n]).stall = some (.load .word rt a) → inRegSpace a = false → s.memReadable a 4 = true →
      (∀ w ∈ s.checkWords a 4, eccAt s.ecc w = none) → (s.cores[n]).held = [] →
      ∃ t, exec (.dataAccessComplete n cyc) s = .next t ∧ (t.cores[n]).stall = none ∧ (t.cores[n]).pc = (s.cores[n]).pc + 4 ∧
        (rt ≠ 0 → t.sVal n rt = BitVec.ofNat 32 (s.peek a 4)) ∧ (s.cores[n]).stallAt + 10 ≤ t.ticks ∧ t.mem = s.mem) ∧
    (∀ a v, (s.cores[n]).stall = some (.store 4 a v) → inRegSpace a = false → s.memWritable a 4 = true →
      (∀ w ∈ s.checkWords a 4, eccAt s.ecc w = none) →
      ∃ t, exec (.dataAccessComplete n cyc) s = .next t ∧ (t.cores[n]).stall = none ∧ (t.cores[n]).pc = (s.cores[n]).pc + 4 ∧
        (t.cores[n]).r = (s.cores[n]).r ∧
        ∀ b, t.byte b = if a ≤ b ∧ b < a + 4 then (bytesLE 4 v.toNat).getD (b - a) 0 else s.byte b) ∧
    (∀ reg pv slot, (s.cores[n]).stall = some (.input reg pv slot) →
      let d := (s.cores[n]).slot slot.toNat
      s.slotPresent d (s.cores[n]).period = false → s.stampBad d (s.cores[n]).period = false →
      ∃ t, exec (.ldInResume n) s = .next t ∧ (t.cores[n]).stall = none ∧ (t.cores[n]).pc = (s.cores[n]).pc + 4 ∧
        (s.cores[n]).tick + d.tmo * 64 ≤ t.ticks ∧ (pv ≠ 0 → t.pVal n pv = 0) ∧
        (d.vec = false → reg ≠ 0 → d.lanes.getLsbD 0 = true →
          t.sVal n reg = ((predCell (s.cores[n]).pred slot.toNat 0).last.getD 0).signExtend 32)) ∧
    (∀ m, (s.cores[n]).stall = some (.emit m) → (s.cores[n]).fifo.length < 8 →
      ∃ t, exec (.emitFifoRoom n) s = .next t ∧ (t.cores[n]).stall = none ∧ (t.cores[n]).fifo = (s.cores[n]).fifo ++ [m] ∧
        (t.cores[n]).pc = (s.cores[n]).pc + 4 ∧ (t.cores[n]).r = (s.cores[n]).r)

/-- R81 to R85, R532: a speculative run is committed or squashed at its compare point, and its stores drain or trap. -/
def Obligations.SpeculativeRuns : Prop :=
  ∀ (s : State) (n : CoreId), s.powered domCore = true →
    (∀ ck, (s.cores[n]).ckpt = some ck → (BitVec.ofNat 32 s.tickCount - BitVec.ofNat 32 (s.cores[n]).period).toInt ≥ 0 →
      s.inputsPresent n = true →
      (s.inputsHold n = true → (s.cores[n]).cmpPwr = (s.cores[n]).specPwr → (s.cores[n]).specBad = false → (s.cores[n]).atWaitp = false →
        (s.cores[n]).emits = [] →
        ∃ t, exec (.comparePoint n) s = .next t ∧ t.coreState n = coreRunning ∧ (t.cores[n]).ckpt = none ∧
          (t.cores[n]).drain = (s.cores[n]).drain ++ (s.cores[n]).stores ∧ (t.cores[n]).stores = [] ∧ (t.cores[n]).r = (s.cores[n]).r ∧
          (t.cores[n]).pc = (s.cores[n]).pc ∧ t.fget (F.CORE_SPECCNT_COMMITS n) = min (s.fget (F.CORE_SPECCNT_COMMITS n) + 1) 65535) ∧
      (s.inputsHold n = false ∨ (s.cores[n]).cmpPwr ≠ (s.cores[n]).specPwr ∨ (s.cores[n]).specBad = true →
        ∃ t, exec (.comparePoint n) s = .next t ∧ t.coreState n = coreRunning ∧ (t.cores[n]).ckpt = none ∧ (t.cores[n]).stores = [] ∧
          (t.cores[n]).emits = [] ∧ (t.cores[n]).pc = BitVec.ofNat 16 (s.phv n) ∧ (t.cores[n]).period = (s.cores[n]).period ∧
          (∀ r : Sreg, r ≠ 1 → r ≠ 2 → r ≠ 3 → (t.cores[n]).r.s[r] = ck.s[r]) ∧ (t.cores[n]).r.v = ck.v ∧ (t.cores[n]).r.p = ck.p ∧
          t.fget (F.CORE_SPECCNT_SQUASHES n) = min (s.fget (F.CORE_SPECCNT_SQUASHES n) + 1) 65535)) ∧
    (∀ a v, (s.cores[n]).drain = [.store a 4 v] → inDmem a 4 = false → s.memWritable a 4 = true →
      (∀ w ∈ s.checkWords a 4, eccAt s.ecc w = none) → (s.cores[n]).atWaitp = false →
      ∃ t, exec (.storeDrainEnd n) s = .next t ∧ t.cores[n] = { s.cores[n] with drain := [] } ∧
        ∀ b, t.byte b = if a ≤ b ∧ b < a + 4 then (bytesLE 4 v.toNat).getD (b - a) 0 else s.byte b) ∧
    (∀ a v rest, (s.cores[n]).drain = .store a 4 v :: rest → inDmem a 4 = false → s.memWritable a 4 = false → s.coreState n = coreRunning →
      s.flag (F.CORE_CTRL_TRAPHALT n) = false → a < 2 ^ 32 →
      ∃ t, exec (.drainTrap n) s = .next t ∧ (t.cores[n]).drain = rest ∧ t.coreState n = coreTrap ∧ t.mem = s.mem ∧
        (t.cores[n]).pc = BitVec.ofNat 16 (s.tvec n) ∧ (t.cores[n]).rettStep = 0 ∧ t.fget (F.CORE_TCAUSE_CAUSE n) = causeDrain ∧
        t.fget (F.CORE_TADDR_ADDR n) = a ∧ t.fget (F.CORE_TPC_ADDR n) = (s.cores[n]).pc.toNat / 4 ∧ (t.cores[n]).r = (s.cores[n]).r)

/-- R128 to R135, R146, R482: the host's commands on takes. -/
def Obligations.TakeCommands : Prop :=
  ∀ (s : State) (q : Dgram), hostReady s q → s.powered domCore = true →
    (∀ h : HandleId, s.takeActive h = false → (∀ k : HandleId, k < h → s.takeActive k = true) →
      ∃ t, exec (.tkOpenCommand q) s = .next t ∧ answered t q 0x20 stOk [BitVec.ofNat 32 h.val, t.word (A.TAKE_STAT h)] ∧
        t.takeState h = takeOpen ∧ t.fget (F.TAKE_STAT_OWNER h) = takeOwner q ∧ (t.takes[h]).writes = [] ∧
        (t.takes[h]).stamp = s.wseq ∧ (t.takes[h]).openedAt = s.ticks) ∧
    ((∀ k : HandleId, s.takeActive k = true) → ∃ t, exec (.tkOpenCommand q) s = .next t ∧ answered t q 0x20 stOk [0xFF, 0] ∧ t.takes = s.takes) ∧
    ∀ h : HandleId,
      (s.fget (F.TAKE_STAT_OWNER h) = takeOwner q → s.takeState h = takeOpen →
        (∀ a v, s.takeTarget a = true → (takeable a && staticBad a v) = false → (s.takes[h]).writes.length < 512 → s.takeEntries < 2048 →
          ∃ t, exec (.tkWrCommand q (BitVec.ofNat 8 h.val) [(a, v)]) s = .next t ∧ answered t q 0x21 stOk [t.word (A.TAKE_STAT h)] ∧
            t.takeState h = takeOpen ∧ (t.takes[h]).writes = (s.takes[h]).writes ++ [(a, v)] ∧
            t.fget (F.TAKE_STAT_WRITES h) = (s.takes[h]).writes.length + 1) ∧
        (∀ a v rest, rest.length < 128 → s.takeTarget a = false →
          ∃ t, exec (.tkWrCommand q (BitVec.ofNat 8 h.val) ((a, v) :: rest)) s = .next t ∧ cutAs s t h cutRefused ∧ answered t q 0x21 stOk [t.word (A.TAKE_STAT h)]) ∧
        (∀ a v rest, rest.length < 128 → s.takeTarget a = true → (takeable a && staticBad a v) = false →
          512 ≤ (s.takes[h]).writes.length ∨ 2048 ≤ s.takeEntries →
          ∃ t, exec (.tkWrCommand q (BitVec.ofNat 8 h.val) ((a, v) :: rest)) s = .next t ∧ cutAs s t h cutFull) ∧
        (∀ bnd instant, bnd < 5 → (bnd = 3 → (s.ticks : Int) + stagingTicks (s.takes[h]).writes.length ≤ s.instantOf instant ∧
            s.instantOf instant ≤ (s.ticks : Int) + tenSeconds) →
          ∃ t, exec (.tkPrintCommand q (BitVec.ofNat 8 h.val) (BitVec.ofNat 8 bnd) instant) s = .next t ∧ t.takeState h = takePending ∧
            t.fget (F.TAKE_STAT_BND h) = bnd ∧ (t.takes[h]).writes = (s.takes[h]).writes ∧ (t.takes[h]).printedAt = s.ticks ∧
            (t.takes[h]).staging = 4000 + 80 * (s.takes[h]).writes.length ∧
            (bnd = 0 → (t.takes[h]).instant = some (s.ticks + (4000 + 80 * (s.takes[h]).writes.length)))) ∧
        (∀ bnd instant, 4 < bnd ∧ bnd < 256 ∨ bnd = 3 ∧ (s.instantOf instant < (s.ticks : Int) + stagingTicks (s.takes[h]).writes.length ∨
            (s.ticks : Int) + tenSeconds < s.instantOf instant) →
          ∃ t, exec (.tkPrintCommand q (BitVec.ofNat 8 h.val) (BitVec.ofNat 8 bnd) instant) s = .next t ∧ cutAs s t h cutRefused)) ∧
      (s.fget (F.TAKE_STAT_OWNER h) = takeOwner q → s.takeActive h = true →
        ∃ t, exec (.tkCutCommand q (BitVec.ofNat 8 h.val)) s = .next t ∧ cutAs s t h cutAbandoned ∧ answered t q 0x23 stOk [t.word (A.TAKE_STAT h)]) ∧
      (∃ t, exec (.tkStatCommand q (BitVec.ofNat 8 h.val)) s = .next t ∧ answered t q 0x24 stOk [s.word (A.TAKE_STAT h)] ∧ t.takes = s.takes) ∧
      (s.fget (F.TAKE_STAT_OWNER h) ≠ takeOwner q →
        ∃ t, exec (.tkCutCommand q (BitVec.ofNat 8 h.val)) s = .next t ∧ answered t q 0x23 stNotOwner [s.word (A.TAKE_STAT h)] ∧ t.takes = s.takes)

/-- R131, R136, R140, R143, R144, R146: a take at its boundary, and its time limits. -/
def Obligations.TakeBoundary : Prop :=
  ∀ (s : State) (h : HandleId), s.powered domCore = true →
    (s.takeState h = takePending → s.takeOverdue h = true → (s.takeDue h).isSome = true →
      ∃ t, exec (.takeApply h) s = .next t ∧ cutAs s t h cutTimeout) ∧
    (s.takeState h = takePending → ∀ due, s.takeDue h = some due → s.takeOverdue h = false → s.takeBefore h due = false →
      let ws := (s.takes[h]).writes
      (s.takeDomainBad ws = true → ∃ t, exec (.takeApply h) s = .next t ∧ cutAs s t h cutRefused) ∧
      (s.takeDomainBad ws = false → s.takeLocked ws = true → ∃ t, exec (.takeApply h) s = .next t ∧ cutAs s t h cutRefused) ∧
      (s.takeDomainBad ws = false → s.takeLocked ws = false → s.takeConflict ws (s.takes[h]).stamp = true →
        ∃ t, exec (.takeApply h) s = .next t ∧ cutAs s t h cutConflict) ∧
      (s.takeDomainBad ws = false → s.takeLocked ws = false → s.takeConflict ws (s.takes[h]).stamp = false →
        (s.takeComboBad ws = true → ∃ t, exec (.takeApply h) s = .next t ∧ cutAs s t h cutRefused) ∧
        (s.takeComboBad ws = false →
          (∃ t, exec (.takeApply h) s = .next t ∧ t.takeState h = takePrinted ∧ (t.takes[h]).writes = [] ∧
            t.getTime48 (F.TAKE_BNDL_TIME h) (F.TAKE_BNDH_TIME h) = t.rtimeAt due) ∧
          ∀ a v, ws = [(a, v)] → findReg a = none → s.memWritable a 4 = true → (∀ w ∈ s.checkWords a 4, eccAt s.ecc w = none) →
            ∃ t, exec (.takeApply h) s = .next t ∧ t.fget (F.TAKE_STAT_WFAIL h) = 0 ∧ t.wseq = (s.wseq + 1) % 2 ^ 48 ∧
              ∀ b, t.byte b = if a ≤ b ∧ b < a + 4 then (bytesLE 4 v.toNat).getD (b - a) 0 else s.byte b))) ∧
    (s.takeState h = takeOpen →
      ∃ t, exec (.takeOpenTimeout h) s = .next t ∧ cutAs s t h cutTimeout ∧ (s.takes[h]).openedAt + (s.takes[h]).tmo * ms < t.ticks) ∧
    (s.takeState h = takePending → (s.fget (F.TAKE_STAT_BND h) = 1 ∨ s.fget (F.TAKE_STAT_BND h) = 2 ∨ s.fget (F.TAKE_STAT_BND h) = 4) →
      (∀ t, s.takeDue h = some t → (s.takes[h]).printedAt + (s.takes[h]).waitMax * ms < t) →
      ∃ t, exec (.takeWaitTimeout h) s = .next t ∧ cutAs s t h cutTimeout ∧ (s.takes[h]).printedAt + (s.takes[h]).waitMax * ms ≤ t.ticks)

/-- R121, R122, R153 to R155, R534: an EMIT leaves its core's FIFO and reaches PLAN, which takes or discards it. -/
def Obligations.PlannerIntake : Prop :=
  ∀ (s : State) (n : CoreId) (m : EmitMsg) (rest : List EmitMsg), s.powered domPlan = true → (s.cores[n]).fifo = m :: rest →
    let mine := fun (r : RefSet) => r.qty == m.qty && r.period == m.period
    (s.emitLate m = false → qtyListed m.dest m.qty.toNat = true → (s.planQty m.dest).contains m.qty.toNat = true →
      ∃ t, exec (.emitReceived n) s = .next t ∧ (t.cores[n]).fifo = rest ∧
        (t.plan[m.dest]).refs = (s.plan[m.dest]).refs.filter (fun r => !mine r) ++
          [⟨m.qty, m.period, mergeLanes m ((((s.plan[m.dest]).refs.find? mine).map (·.lanes)).getD [])⟩] ∧
        t.fget F.PLAN_EMITCNT_LATE = s.fget F.PLAN_EMITCNT_LATE ∧ t.fget F.PLAN_EMITCNT_UNUSED = s.fget F.PLAN_EMITCNT_UNUSED) ∧
    (s.emitLate m = true ∨ qtyListed m.dest m.qty.toNat = false ∨ (s.planQty m.dest).contains m.qty.toNat = false →
      ∃ t, exec (.emitReceived n) s = .next t ∧ (t.cores[n]).fifo = rest ∧ t.plan = s.plan ∧
        (s.emitLate m = true → t.fget (F.CORE_STAT_LATE m.core) = 1 ∧ t.fget F.PLAN_EMITCNT_LATE = min (s.fget F.PLAN_EMITCNT_LATE + 1) 65535) ∧
        (qtyListed m.dest m.qty.toNat = false → t.fget F.PLAN_STAT_BADQTY = 1) ∧
        (qtyListed m.dest m.qty.toNat = true → (s.planQty m.dest).contains m.qty.toNat = false →
          t.fget F.PLAN_EMITCNT_UNUSED = min (s.fget F.PLAN_EMITCNT_UNUSED + 1) 65535))

/-- R160, R163, R181 to R184, R186, R187, R194, R214: the build cut, the commit with the real or the extension draft, and the dispatch; the
cell-bypass register, and ones written to FAIL bits. -/
def Obligations.PlannerSchedules : Prop :=
  (∀ (s : State) (d : DestId), s.planRuns = false →
    exec (.buildCut d) s = .next s.fresh ∧ exec (.commit d) s = .next s.fresh ∧ exec (.dispatch d) s = .next s.fresh) ∧
  (∀ (s : State) (d : DestId), s.planRuns = true →
    (∃ t v, exec (.buildCut d) s = .next t ∧ (t.plan[d]).cut = some v ∧ v.tick = s.tickFrom (s.ticks + s.hEff + 2 * us)) ∧
    (∀ v, (s.plan[d]).cut = some v → s.running = false →
      ∃ t, exec (.commit d) s = .next t ∧ (t.plan[d]).cut = none ∧ (t.plan[d]).sched = (s.plan[d]).sched ∧ (t.plan[d]).missRun = 0) ∧
    (∀ v, (s.plan[d]).cut = some v → s.running = true → (s.atCut v).planQty d ≠ [] →
      let complete := ((s.atCut v).planQty d).all fun n => (s.plan[d]).refs.any fun r => r.qty.toNat == n && r.period == v.period
      ∃ t c, exec (.commit d) s = .next t ∧ (t.plan[d]).sched = some c ∧ c.tick = v.tick ∧ c.sent = 0 ∧ c.held = !complete ∧
        v.tick - s.hEff ≤ t.ticks ∧
        (complete = true → (t.plan[d]).missRun = 0) ∧
        (complete = false → (t.plan[d]).missRun = (s.plan[d]).missRun + 1 ∧ t.fget F.PLAN_STAT_MISS = 1 ∧
          (1 ≤ (s.plan[d]).missRun → t.sup.stop.isSome = true))) ∧
    (∀ c, (s.plan[d]).sched = some c → (d.val < 3 → s.powered domRing = true) → (∀ r ∈ c.records.drop c.sent, recordOk r = true) →
      ∃ t, exec (.dispatch d) s = .next t ∧ (t.plan[d]).sched = some { c with sent := c.records.length } ∧
        t.out = (c.records.drop c.sent).map fun r => if h : d.val < 3 then Out.l0 ⟨d.val, h⟩ (.sched r) else Out.brgEntry r)) ∧
  ∀ (s : State) (req : Requester) (x : RingId) (value : Word),
    (∀ k : CellId, value.toNat % 64 = k.val + 1 → writeFree s (A.PLAN_BYP x) value →
      ∃ t, exec (.planBypWrite req x value) s = .next t ∧ (t.failMask x).getLsbD k.val = true ∧ t.plan = s.plan) ∧
    (value.toNat % 64 = 0 ∨ 40 < value.toNat % 64 → s.powered (regDomain (A.PLAN_BYP x)) = true →
      ∃ t, exec (.planBypWrite req x value) s = .next t ∧ t.failMask x = s.failMask x ∧
        (s.powered domSafa = true → t.sticky srcParamRange = true)) ∧
    (∀ hi, writeFree s (if hi then A.PLAN_FAILH x else A.PLAN_FAILL x) value →
      ∃ t, exec (.failClear req x hi value) s = .next t ∧ ∀ k : CellId,
        (t.failMask x).getLsbD k.val =
          ((s.failMask x).getLsbD k.val && !(((value.setWidth 40) <<< (if hi then 32 else 0)).getLsbD k.val && !s.failStands x k)))

/-- R197, R198, R222 to R225: the training of a port, and its failures. -/
def Obligations.PortTraining : Prop :=
  ∀ (s : State) (p : LaneId), s.portActive p = true →
    (s.portState p = portOff →
      ∃ t, exec (.trainingAttempt p) s = .next t ∧ t.portState p = portModule ∧ (t.ports[p]).attemptAt = t.ticks ∧
        ((s.ports[p]).resetReleased = false → (s.ports[p]).supplyAt + 10 * ms ≤ t.ticks) ∧ (t.ports[p]).dllGated = true) ∧
    (∀ id pc cdr, s.portState p = portModule →
      (s.moduleFault p id pc cdr = 0 →
        ∃ t, exec (.moduleReady p id pc cdr) s = .next t ∧ t.portState p = portTxup ∧ t.fget (F.RING_MODINFO_ID p) = id.toNat ∧
          Out.mgmt p true 93 0x01 ∈ t.out ∧ Out.mgmt p true 98 0x77 ∈ t.out) ∧
      (s.moduleFault p id pc cdr ≠ 0 →
        ∃ t, exec (.moduleReady p id pc cdr) s = .next t ∧ t.portState p = portModule ∧ (t.ports[p]).moduleBad = s.moduleFault p id pc cdr)) ∧
    (∀ present eyes, s.inAttempt p = true →
      ∃ t, exec (.trainingTimeout p present eyes) s = .next t ∧ t.portState p = portFailed ∧ (s.ports[p]).attemptAt + sec ≤ t.ticks ∧
        (s.portState p = portModule → t.fget (F.RING_PSTAT_FAIL p) =
          if present = false then failAbsent else if (s.ports[p]).moduleBad = 0 then failNotReady else (s.ports[p]).moduleBad % 16) ∧
        (s.portState p = portTxup ∨ s.portState p = portRxwait → t.fget (F.RING_PSTAT_FAIL p) = failNoClock) ∧
        (s.portState p = portScan ∨ s.portState p = portAlign → t.fget (F.RING_PSTAT_FAIL p) =
          if (s.ports[p]).allLocked p then failSkew
          else if ∃ l ∈ dataLanes, usesLane p l = true ∧ (s.ports[p]).lock l = false ∧ eyes.getD (laneIx l).val 0 < 20 then failEye
          else failLock)) ∧
    (s.portState p = portFailed →
      ∃ t, exec (.trainingRetry p) s = .next t ∧ t.portState p = portModule ∧ (s.ports[p]).failedAt + sec ≤ (t.ports[p]).attemptAt) ∧
    (∀ ppb : Int, -100000 ≤ ppb - s.clk.steer → ppb - s.clk.steer ≤ 100000 →
      ∃ t, exec (.rxClockPresent p ppb) s = .next t ∧ (t.ports[p]).rxClock = true ∧
        t.portState p = (if s.portState p = portRxwait then portScan else s.portState p) ∧
        t.clk.peerPpb = if p = 7 then ppb else s.clk.peerPpb) ∧
    ((s.ports[p]).rxClock = true →
      (∃ t, exec (.rxclkLost p) s = .next t ∧ (t.ports[p]).rxClock = false ∧ ∀ l, (t.ports[p]).lock l = false) ∧
      (∀ lane phase eye, usesLane p lane = true → 20 ≤ eye → (s.portState p = portScan ∨ s.portState p = portAlign ∨ s.portState p = portTrained) →
        ∃ t, exec (.blockLockGained p lane phase eye) s = .next t ∧ (t.ports[p]).lock lane = true ∧
          t.portState p = (if s.portState p = portScan then portAlign else s.portState p) ∧
          t.fget (eyeField p lane) = eye % 2 ^ (eyeField p lane).width ∧ t.fget (posField p lane) = phase % 64)) ∧
    (∀ lane, usesLane p lane = true → (s.ports[p]).lock lane = true →
      ∃ t, exec (.blklockLost p lane) s = .next t ∧ (t.ports[p]).lock lane = false ∧
        t.fget (hdrField p lane) = min (s.fget (hdrField p lane) + 16) 65535) ∧
    (∀ skew, s.portState p = portAlign → (∀ l, usesLane p l = true → (s.ports[p]).lock l = true) → skew ≤ 40 →
      ∃ t, exec (.portTrained p skew) s = .next t ∧ t.portState p = portTrained ∧ t.fget (F.RING_PSTAT_FAIL p) = failNone) ∧
    (s.portState p = portTrained →
      (∃ t, exec (.portFailed p .moduleLost) s = .next t ∧ t.portState p = portFailed ∧ t.fget (F.RING_PSTAT_FAIL p) = failAbsent) ∧
      ((s.ports[p]).rxClock = false →
        ∃ t, exec (.portFailed p .clockLost) s = .next t ∧ t.portState p = portFailed ∧ t.fget (F.RING_PSTAT_FAIL p) = failNoClock ∧
          ∀ i, (s.ports[p]).clkLostAt = some i → i + ms < t.ticks) ∧
      ((s.ports[p]).rxClock = true → (∃ l, usesLane p l = true ∧ (s.ports[p]).lock l = false) →
        ∃ t, exec (.portFailed p .blockLockLost) s = .next t ∧ t.portState p = portFailed ∧ t.fget (F.RING_PSTAT_FAIL p) = failLock ∧
          ∀ i, (s.ports[p]).lockOut = some i → i + 300 * us ≤ t.ticks)) ∧
    (∀ req, s.flag (F.RING_LCTRL_EN p) = true → (s.portState p ≠ portOff ∨ (s.ports[p]).resetReleased = true) → s.pwr = pwrStopped → s.nextWord (A.RING_LCTRL p) = s.word (A.RING_LCTRL p) →
      writeFree s (A.RING_LCTRL p) (s.bitWord (A.RING_LCTRL p) 0x100) →
      ∃ t, exec (.retrain req p) s = .next t ∧ t.portState p = portModule ∧ (t.ports[p]).attemptAt = s.ticks)

/-- R208 to R221: the delay-locked lines, the oscillators, the 10 MHz input and the trackers. -/
def Obligations.ClockEvents : Prop :=
  ∀ (s : State) (p : LaneId), s.powered domAon = true →
    ((s.ports[p]).dllGated = true →
      (∀ delay, (s.ports[p]).dllWait = 0 → 2 ≤ s.portState p →
        ∃ t, exec (.dllLock p delay) s = .next t ∧ (t.ports[p]).dllWait = 1 ∧ t.fget (F.CLK_DLLPOS_BAND p) = min 7 ((delay - 100) / 800) ∧
          t.fget (F.CLK_DLLPOS_FINE p) = min 79 (2 * (delay - 800 * min 7 ((delay - 100) / 800)) / 25)) ∧
      (∀ err, (s.ports[p]).dllWait = 1 → -25 ≤ err → err ≤ 25 →
        ∃ t, exec (.dllGateOpen p err) s = .next t ∧ (t.ports[p]).dllGated = false ∧ (t.fget F.CLK_DLLSTAT_LOCK).testBit p.val = true ∧
          s.ticks + 2 * epochTicks ≤ t.ticks) ∧
      (∀ err, (s.ports[p]).dllWait = 1 → err < -25 ∨ 25 < err →
        ∃ t, exec (.dllGateOpen p err) s = .next t ∧ (t.ports[p]).dllGated = true ∧ (t.ports[p]).dllWait = 0)) ∧
    (∀ err, (s.ports[p]).dllGated = false → err < -100 ∨ 100 < err →
      ∃ t, exec (.dllLossOfLock p err) s = .next t ∧ (t.ports[p]).dllGated = true ∧ (t.fget F.CLK_DLLSTAT_LOL).testBit p.val = true ∧
        (t.fget F.CLK_DLLSTAT_LOCK).testBit p.val = false) ∧
    (∀ lasts, s.mainUp = true → s.fget F.CLK_STAT_ACTIVE = 0 →
      (s.flag F.CLK_CTRL_AUTOSW = true →
        ∃ t, exec (.mainOscillatorFail lasts) s = .next t ∧ t.mainUp = false ∧ t.clk.mainBack = s.ticks + max 1 lasts ∧
          t.fget F.CLK_STAT_MAINFAIL = 1 ∧ t.fget F.CLK_STAT_SWITCHED = 1 ∧
          t.fget F.CLK_STAT_ACTIVE = 1 ∧ t.fget F.CLK_CTRL_REFSEL = 1 ∧ t.fget F.CLK_STAT_SPARELOCK = 0) ∧
      (s.flag F.CLK_CTRL_AUTOSW = false →
        ∃ t, exec (.mainOscillatorFail lasts) s = .next t ∧ t.mainUp = false ∧ t.fget F.CLK_STAT_MAINFAIL = 1 ∧
          (s.powered domPlan = true → t.sup.islandStop = true))) ∧
    (∀ lasts, s.spareUp = true →
      ∃ t, exec (.spareOscillatorFail lasts) s = .next t ∧ t.spareUp = false ∧ t.clk.spareBack = s.ticks + max 1 lasts ∧ t.fget F.CLK_STAT_SPAREFAIL = 1 ∧ t.fget F.CLK_STAT_SPARELOCK = 0) ∧
    (s.clk.extOk = true →
      ∃ t, exec .extReferenceLost s = .next t ∧ t.clk.extOk = false ∧ t.fget F.CLK_STAT_EXTPRES = 0 ∧ t.fget F.CLK_STAT_EXTLOCK = 0 ∧
        t.fget F.CLK_STAT_EXTLOST = 1 ∧ t.fget F.CLK_STEER_PPB = s.fget F.CLK_STEER_PPB) ∧
    (∀ ppb, -10000 ≤ ppb - s.clk.steer → ppb - s.clk.steer ≤ 10000 →
      ∃ t, exec (.extReferenceReturn ppb) s = .next t ∧ t.clk.extOk = true ∧ t.clk.extPpb = ppb ∧ t.fget F.CLK_STAT_EXTPRES = 1 ∧
      t.fget F.CLK_STAT_EXTLOCK = if s.flag F.CLK_CTRL_EXTEN = true ∧ s.fget F.TIME_PEER_ROLE ≠ 2 then 1 else 0) ∧
    (s.portActive p = true → ∀ lane, usesLane p lane = true →
      (∃ t, exec (.trkFreeze p lane) s = .next t ∧ t.fget (frzField p lane) = 1 ∧
        (p.val < 6 → (t.fget F.RING_STAT_TRK_FREEZE).testBit p.val = true)) ∧
      (∀ centre, ∃ t, exec (.trackerResume p lane centre) s = .next t ∧ t.fget (frzField p lane) = 0 ∧
        (t.ports[p]).centre[laneIx lane] = centre ∧
        t.word A.RING_STAT = s.word A.RING_STAT))

/-- R198, R203, R204, R211, R215, R230: the register commands on ports and clocks, and the end of a management transfer. -/
def Obligations.PortRegisters : Prop :=
  ∀ (s : State) (req : Requester) (p : LaneId) (v : Word),
    (writeFree s A.CLK_DLLCMD v →
      ∃ t, exec (.dllRelock req v) s = .next t ∧
        ∀ q : LaneId, (t.ports[q]).dllGated = ((s.ports[q]).dllGated || v.getLsbD q.val)) ∧
    (writeFree s A.CLK_CTRL v → v.getLsbD 0 ≠ (s.word A.CLK_CTRL).getLsbD 0 →
      ∃ t, exec (.refselWrite req v) s = .next t ∧ (t.fget F.CLK_STAT_ACTIVE = if v.getLsbD 0 then 1 else 0) ∧
        ∀ q : LaneId, (t.ports[q]).dllGated = true) ∧
    (writeFree s (A.RING_MGMT p) (v ||| 0x80000000) → s.flag (F.RING_MGMT_BUSY p) = false →
      let w := v.getLsbD 30
      let byte := v.toNat % 256
      (w = true → byte < 128 ∨ v.toNat / 256 % 256 ≠ 2 →
        ∃ t, exec (.mgmtTransfer req p v) s = .next t ∧ t.fget (F.RING_MGMT_REFUSED p) = 1 ∧ t.fget (F.RING_MGMT_BUSY p) = 0) ∧
      (w = false ∨ 128 ≤ byte ∧ v.toNat / 256 % 256 = 2 →
        ∃ t, exec (.mgmtTransfer req p v) s = .next t ∧ t.fget (F.RING_MGMT_BUSY p) = 1 ∧
          Out.mgmt p w (BitVec.ofNat 8 byte) (if w then BitVec.ofNat 8 (v.toNat / 65536 % 256) else 0) ∈ t.out)) ∧
    (∀ data, s.flag (F.RING_MGMT_BUSY p) = true →
      ∃ t, exec (.mgmtTransferDone p data) s = .next t ∧ t.fget (F.RING_MGMT_BUSY p) = 0 ∧
        t.fget (F.RING_MGMT_DATA p) =
          if s.ringCycle.flag (F.RING_MGMT_WRITE p) then s.ringCycle.fget (F.RING_MGMT_DATA p) else data.toNat) ∧
    (writeFree s (A.RING_TAPS p) v →
      ∃ t, exec (.tapsWrite req p v) s = .next t ∧ t.fget (F.RING_TAPS_AMP p) = v.toNat / 65536 % 8 ∧
        t.fget (F.RING_TAPS_PRE p) = v.toNat / 256 % 8 ∧ t.fget (F.RING_TAPS_POST p) = v.toNat % 16 ∧
        (t.ports[p]).taps = (s.ports[p]).taps) ∧
    (s.portPowered p = true → (s.epochStart.ports[p]).taps = s.word (A.RING_TAPS p))

/-- R241, R242, R245, R246, R248, R254: what RING does with returned summaries and with clapper reports. -/
def Obligations.SummariesAndClappers : Prop :=
  ∀ (s : State) (x : RingId) (k : CellId), s.powered domRing = true →
    (∀ cw ccw : List (BitVec 8), k.val < s.found x →
      let a := cw.getD k.val 0xFF
      let b := ccw.getD k.val 0xFF
      ∃ t, exec (.summaryReturn x cw ccw) s = .next t ∧
        (slotOk a = true → slotOk b = false → (t.view x k).combined = a ∧ (t.view x k).misses = 0) ∧
        (slotOk a = false → slotOk b = true → (t.view x k).combined = b ∧ (t.view x k).misses = 0) ∧
        (slotOk a = true → slotOk b = true →
          (t.view x k).combined.toNat % 32 = (a ||| b).toNat % 32 ∧ slotOk (t.view x k).combined = true ∧
            (t.view x k).combined.toNat / 32 % 4 =
              if a.toNat / 32 % 4 = 3 ∨ b.toNat / 32 % 4 = 3 then 3 else if a.toNat / 32 % 4 = 1 ∨ b.toNat / 32 % 4 = 1 then 1
              else if a.toNat / 32 % 4 = 0 ∨ b.toNat / 32 % 4 = 0 then 0 else 2) ∧
        (slotOk a = false → slotOk b = false →
          (t.view x k).combined = (s.view x k).combined ∧ (t.view x k).misses = (s.view x k).misses + 1) ∧
        (a = b → slotOk a = true → a.toNat / 32 % 4 = 0 → (t.admitted x).getLsbD k.val = false)) ∧
    (4 ≤ (s.view x k).misses → (s.admitted x).getLsbD k.val = true →
      ∃ t, exec (.summarySlotTimeout x k) s = .next t ∧ (t.admitted x).getLsbD k.val = false ∧
        ∀ j : CellId, j ≠ k → (t.admitted x).getLsbD j.val = (s.admitted x).getLsbD j.val) ∧
    (∃ t, exec (.clapperLaunch x) s = .next t ∧
      t.fget (F.RING_RSTAT_CLAPNUM x) = (s.fget (F.RING_RSTAT_CLAPNUM x) + 1) % 256 ∧
      t.out = [Out.l0 x (.clap (BitVec.ofNat 8 ((s.fget (F.RING_RSTAT_CLAPNUM x) + 1) % 256)))] ∧ t.rtime.toNat % 8192 = 256 ∧
      (t.rings[x]).tL = t.rtime ∧ ∀ j : CellId, (t.view x j).lastNum = none) ∧
    (∀ (p : LaneId) (bs : List LineBlock) (a b : BitVec 48) (loopCw loopCcw : Nat), s.ringBroken x = false →
      (s.view x k).lastNum = none →
      let num := BitVec.ofNat 8 (s.fget (F.RING_RSTAT_CLAPNUM x))
      heard s x p bs (CellMsg.frame x k (.clapr num a b)) →
      let l := roundUpTies (2 * (loopCw + loopCcw : Nat)) 4
      let d := roundUpTies (2 * (a - b).toInt + (loopCw + loopCcw : Nat)) 4
      let c := roundUpTies (2 * (a - b).toInt + (loopCw + loopCcw : Nat) - 4 * (a - (s.rings[x]).tL).toInt) 4
      ∃ t, exec (.claprHeard p bs loopCw loopCcw) s = .next t ∧
        t.fget (F.RING_LTOT_L x) = (max 0 (min 524287 l)).toNat ∧ (t.view x k).corr = c ∧
        (t.view x k).dist = (max 0 (min 320000 d)).toNat ∧ (t.view x k).lastNum = some num ∧
        ((s.admitted x).getLsbD k.val = true → c.natAbs ≤ 8 → Out.l0 x (.tset (k.val + 1) false c) ∈ t.out ∧
          (t.admitted x).getLsbD k.val = true) ∧
        ((s.admitted x).getLsbD k.val = true → 8 < c.natAbs → (t.admitted x).getLsbD k.val = false ∧ (t.view x k).stage = 1) ∧
        ((s.admitted x).getLsbD k.val = false → 320000 < l → (s.view x k).stage ≠ 0 →
          t.fget (F.RING_RSTAT_ENUMERR x) = 1 ∧ (t.view x k).stage = 0))

/-- R201, R234, R251 to R255: enumeration, with what its blocks bring back, and admission. -/
def Obligations.RingAdmission : Prop :=
  ∀ (s : State) (x : RingId) (k : CellId), s.powered domRing = true →
    ((s.rings[x]).enumerating = false →
      ∃ t, exec (.enumStart x) s = .next t ∧ (t.rings[x]).enumerating = true ∧ t.out = [Out.l0 x (.enum 0)]) ∧
    (∀ cw ccw : BitVec 8, (s.rings[x]).enumerating = true →
      (cw = ccw → 1 ≤ cw.toNat → cw.toNat ≤ 40 →
        (∀ j : CellId, (s.admitted x).getLsbD j.val = true → j.val < cw.toNat ∧ (s.cell x j).posNew = j.val + 1) →
        ∃ t, exec (.enumReturn x cw ccw) s = .next t ∧ (t.rings[x]).enumerating = false ∧ t.found x = cw.toNat ∧
          t.fget (F.RING_RSTAT_N x) = cw.toNat ∧ (t.cell x k).pos = (s.cell x k).posNew ∧
          (k.val < cw.toNat → (s.admitted x).getLsbD k.val = false → (s.view x k).stage = 0 → (t.view x k).stage = 4)) ∧
      (cw ≠ ccw ∨ cw.toNat = 0 ∨ 40 < cw.toNat ∨
          ((s.admitted x).getLsbD k.val = true ∧ (cw.toNat ≤ k.val ∨ (s.cell x k).posNew ≠ k.val + 1)) →
        ∃ t, exec (.enumReturn x cw ccw) s = .next t ∧ (t.rings[x]).enumerating = false ∧ t.found x = s.found x ∧
          (t.cell x k).pos = (s.cell x k).pos ∧ t.fget (F.RING_RSTAT_ENUMERR x) = 1) ∧
      ∀ lines : List LineBlock × List LineBlock, (s.fresh.l0Return x (.enum cw) (.enum ccw) lines).2 ≠ (true, true) →
        ∃ t, exec (.enumReturn x cw ccw lines) s = .next t ∧ (t.rings[x]).enumerating = false ∧ t.found x = s.found x ∧
          t.fget (F.RING_RSTAT_ENUMERR x) = 1) ∧
    ((s.view x k).stage = 4 → (∀ j : CellId, j < k → (s.view x j).stage ≠ 4) → s.ringBroken x = false →
      (320000 < s.fget (F.RING_LTOT_L x) →
        ∃ t, exec (.admission x k) s = .next t ∧ (t.view x k).stage = 0 ∧ t.fget (F.RING_RSTAT_ENUMERR x) = 1) ∧
      (s.fget (F.RING_LTOT_L x) ≤ 320000 →
        ∃ t, exec (.admission x k) s = .next t ∧
          ((s.cell x k).clock.isSome = true ∧ descOk (s.descWords x k) = true →
            (t.view x k).stage = 1 ∧ (t.view x k).desc = s.descWords x k) ∧
          (¬ ((s.cell x k).clock.isSome = true ∧ descOk (s.descWords x k) = true) → (t.view x k).stage = 0))) ∧
    (1 ≤ (s.view x k).stage → (s.view x k).stage ≤ 3 → (s.rings[x]).awaited.getLsbD k.val = true →
      ∃ t, exec (.admissionClaprTimeout x k) s = .next t ∧ (t.view x k).stage = 0 ∧ t.word A.RING_STAT = s.word A.RING_STAT ∧
        (s.rings[x]).launchAt + 128 * 8192 ≤ t.ticks)

/-- R266, R269, R274: events from cells, their telemetry, and register access to them. -/
def Obligations.RingTraffic : Prop :=
  ∀ (s : State) (req : Requester) (x : RingId) (k : CellId), s.powered domRing = true →
    (∀ (p : LaneId) (bs : List LineBlock) (code : BitVec 8) (seq : BitVec 16) (time : BitVec 48) (data : Word),
      heard s x p bs (CellMsg.frame x k (.evt code seq time data)) →
      (∀ l, (s.view x k).lastSeq = some l → 0 < (seq - l).toInt) →
      (∃ t, exec (.evtHeard p bs true) s = .next t ∧ t.evq = s.evq ∧ (t.view x k).lastSeq = (s.view x k).lastSeq ∧
        (t.ports[p]).drops = (s.ports[p]).drops + 1) ∧
      ∃ t, exec (.evtHeard p bs false) s = .next t ∧ (t.view x k).lastSeq = some seq ∧
        (code.toNat / 64 < s.evtMin x → t.evq = s.evq) ∧
        (s.evtMin x ≤ code.toNat / 64 → s.evq.length < 1024 →
          t.evq = s.evq ++ [⟨x, k, code, seq, time, data⟩] ∧ t.fget F.RING_EVTLVL_LEVEL = s.evq.length + 1) ∧
        (s.evtMin x ≤ code.toNat / 64 → 1024 ≤ s.evq.length →
          t.evq = s.evq ∧ t.fget (evtDropField x) = min (s.fget (evtDropField x) + 1) 1023)) ∧
    (∃ t, exec (.evtqRead req) s = .next t ∧ t.evq = s.evq.drop 1 ∧ Out.value req (some (s.word A.RING_EVTQ3)) ∈ t.out) ∧
    (∀ (p : LaneId) (bs : List LineBlock) (u : Tlm) (tick : BitVec 40) (q : List (BitVec 16)) (status : Word),
      heard s x p bs (CellMsg.frame x k (.tlm tick.toNat q status)) →
      (s.rings[x]).tlm = [u] → (s.rtimeAt u.tick).toNat / 256 = tick.toNat → u.mask.getLsbD k.val = false →
      (s.admitted x).getLsbD k.val = true →
      ∃ t, exec (.tlmHeard p bs false) s = .next t ∧
        (s.admitted x &&& ~~~(u.mask ||| BitVec.twoPow 40 k.val) ≠ 0 →
          ∃ v, (t.rings[x]).tlm = [v] ∧ v.period = u.period ∧ v.mask = u.mask ||| BitVec.twoPow 40 k.val) ∧
        (s.admitted x &&& ~~~(u.mask ||| BitVec.twoPow 40 k.val) = 0 → (t.rings[x]).tlm = [])) ∧
    (∀ (u : Tlm), (s.rings[x]).tlm = [u] →
      ∃ t, exec (.tlmWaitExpiry x) s = .next t ∧ (t.rings[x]).tlm = [] ∧ u.tick + s.fget F.RING_CFG_TLMWAIT * 64 ≤ t.ticks) ∧
    (∀ v : Word, writeFree s A.RING_CACMD (v ||| 0x80000000) → s.flag F.RING_CASTAT_BUSY = false →
      v.toNat / 2 ^ 28 % 4 = x.val → v.toNat / 2 ^ 16 % 64 = k.val + 1 →
      ∃ t tag, exec (.cellAccessGo req v) s = .next t ∧ t.flag F.RING_CASTAT_BUSY = true ∧
        t.access = some ⟨s.ticks, x, k.val, tag, v.getLsbD 30⟩ ∧
        Out.l0 x (.regrq (k.val + 1) tag (v.getLsbD 30) (v.setWidth 16) (if v.getLsbD 30 then s.nextWord A.RING_CADATA else 0)) ∈ t.out) ∧
    (∀ (p : LaneId) (bs : List LineBlock) (goAt : Nat) (tag : BitVec 8) (write : Bool) (status : BitVec 2) (data : Word) (addr : BitVec 16),
      s.access = some ⟨goAt, x, k.val, tag, write⟩ → heard s x p bs (CellMsg.frame x k (.regrsp tag status data addr)) →
      ∃ t, exec (.regrspHeard p bs) s = .next t ∧ t.access = none ∧ t.flag F.RING_CASTAT_BUSY = false ∧
        t.fget F.RING_CASTAT_STATUS = status.toNat ∧ t.word A.RING_CADATA = if write then s.nextWord A.RING_CADATA else data) ∧
    (∀ a, s.access = some a →
      ∃ t, exec .cellAccessTimeout s = .next t ∧ t.access = none ∧ a.goAt + 60 * us ≤ t.ticks ∧ t.flag F.RING_CASTAT_BUSY = false ∧ t.fget F.RING_CASTAT_TIMEOUT = 1)

/-- R243 to R247, R535, R537, R239, R240, R270: a cell's clock, its count, clappers and corrections. Commands that reach a cell act
on it as its own epoch starts and a stop instant that have come due leave it, `s.cellWake x k`. -/
def Obligations.CellClockAndCount : Prop :=
  ∀ (s : State) (x : RingId) (k : CellId) (dir : Dir),
    ((s.cell x k).clock = none → (s.cell x k).counting = false →
      ∃ t, exec (.cellFirstClock x k dir) s = .next t ∧ (t.cell x k).clock = some dir ∧ t.out = [Out.cell x k .clockOut]) ∧
    (∀ epoch : BitVec 35,
      ∃ t, exec (.cellEpoch x k dir epoch) s = .next t ∧ (t.cell x k).framingLost = false ∧
        passedOn s t x k dir (fun d => .fwd x k d (.epoch epoch)) ∧
        (t.cell x k).good dir = (if (s.cell x k).lost dir then (s.cell x k).good dir + 1 else 0) ∧
        ((s.cell x k).counting = false → (s.cell x k).clock = some dir →
          (t.cell x k).counting = true ∧ t.cellCount x k = BitVec.ofNat 48 (epoch.toNat * 8192)) ∧
        ((s.cell x k).counting = false → (s.cell x k).clock ≠ some dir → (t.cell x k).counting = false)) ∧
    (∀ (epoch : BitVec 35) (n : Nat), (s.cell x k).counting = true → (s.cell x k).stopAt = none →
      s.cellEpochIx x k = (s.cell x k).epochIx + n → 0 < n →
      ∃ t, exec (.cellEpoch x k dir epoch) s = .next t ∧
        (∀ v, (s.cell x k).tset = some v → (s.cell x k).mode = .notAdm ∨ (s.cell x k).mode = .blocked →
          (t.cell x k).offset = (s.cell x k).offset + v ∧ (t.cell x k).tset = none) ∧
        (∀ v, (s.cell x k).tset = some v → (s.cell x k).mode = .run ∨ (s.cell x k).mode = .fault →
          (t.cell x k).offset = (s.cell x k).offset ∧ (t.cell x k).tset = none) ∧
        ((s.cell x k).tset = none →
          (t.cell x k).offset + (t.cell x k).slew = (s.cell x k).offset + (s.cell x k).slew ∧
          ((t.cell x k).offset - (s.cell x k).offset).natAbs ≤ n - (s.cell x k).slewHeld ∧
          (t.cell x k).slewHeld = (s.cell x k).slewHeld - n ∧
          ((s.cell x k).slew.natAbs + (s.cell x k).slewHeld ≤ n → (t.cell x k).slew = 0))) ∧
    (∀ present : Bool,
      ∃ t, exec (.cellClockChangeover x k present) s = .next t ∧ (t.cell x k).offset = (s.cell x k).offset ∧
        ((s.cell x k).clock = some .cw → present = true → (t.cell x k).clock = some .ccw) ∧
        ((s.cell x k).clock ≠ some .cw ∨ present = false → (t.cell x k).clock = none)) ∧
    (∀ diff : Nat, (s.cell x k).counting = true →
      (diff ≤ 1000 → (s.cell x k).clock = none ∨ ((s.cell x k).clock = some .ccw ∧ dir = .cw) →
        ∃ t, exec (.clkJump x k diff dir) s = .next t ∧ (t.cell x k).clock = some dir ∧ (t.cell x k).mode = (s.cell x k).mode) ∧
      (diff > 1000 → (s.cell x k).clock = some .ccw → dir = .cw →
        ∃ t, exec (.clkJump x k diff dir) s = .next t ∧ (t.cell x k).clock = some .ccw ∧ (t.cell x k).mode = (s.cell x k).mode ∧
          (t.cell x k).evUnsent.getLast? = some (s.cell x k).evSeq) ∧
      (diff > 1000 → (s.cell x k).clock = none → (s.cell x k).mode = .run →
        ∃ t, exec (.clkJump x k diff dir) s = .next t ∧ (t.cell x k).mode = .notAdm ∧ (t.cell x k).gates = 0)) ∧
    (∀ num : BitVec 8, (s.cell x k).counting = true →
      let w := s.cellWake x k
      ∃ t, exec (.cellClap x k dir num) s = .next t ∧ (t.cell x k).slewHeld = 128 ∧ passedOn s t x k dir (fun d => .fwd x k d (.clap num)) ∧
        (dir = .cw → (s.cell x k).clapCcw = none →
          (t.cell x k).clapCw = some (num, w.cellCount x k + BitVec.ofNat 48 ((s.cell x k).descHi 8 / 2))) ∧
        (∀ a, dir = .ccw → (s.cell x k).clapCw = some (num, a) →
          Out.cell x k (.clapr num a (w.cellCount x k + BitVec.ofNat 48 ((s.cell x k).descLo 8 / 2))) ∈ t.out) ∧
        (∀ b, dir = .cw → (s.cell x k).clapCcw = some (num, b) →
          Out.cell x k (.clapr num (w.cellCount x k + BitVec.ofNat 48 ((s.cell x k).descHi 8 / 2)) b) ∈ t.out)) ∧
    (∀ (step : Bool) (corr : BitVec 40),
      ∃ t, exec (.cellTset x k step corr dir) s = .next t ∧ (t.cell x k).offset = ((s.cellWake x k).cell x k).offset ∧
        passedOn s t x k dir (fun d => .fwd x k d (.tset (k.val + 1) step corr.toInt)) ∧
        ((s.cell x k).tsetSeen = false → step = true → (t.cell x k).tset = some corr.toInt ∧ (t.cell x k).slew = 0) ∧
        ((s.cell x k).tsetSeen = false → step = false →
          (t.cell x k).tset = none ∧ (t.cell x k).slew = corr.toInt ∧ (t.cell x k).slewHeld = 0) ∧
        ((s.cell x k).tsetSeen = true → t.cell x k = (s.cellWake x k).cell x k))

/-- R239, R240, R251, R253, R256 to R260, R270, R271: the orders that a cell receives, what blocks it in RUN, and its loops. -/
def Obligations.CellOrdersAndCauses : Prop :=
  ∀ (s : State) (x : RingId) (k : CellId) (dir : Dir),
    (∀ count : BitVec 8,
      ∃ t, exec (.cellEnum x k dir count) s = .next t ∧ passedOn s t x k dir (fun d => .fwd x k d (.enum (count + 1))) ∧
        (t.cell x k).posNew = (if dir = .cw then count.toNat + 1 else (s.cell x k).posNew) ∧ (t.cell x k).pos = (s.cell x k).pos) ∧
    (∃ t, exec (.cellAdmit x k dir) s = .next t ∧
      (((s.cellWake x k).cell x k).mode = .notAdm → (t.cell x k).mode = .blocked ∧ (t.cell x k).admitted = true) ∧
      (((s.cellWake x k).cell x k).mode ≠ .notAdm → t.cell x k = (s.cellWake x k).cell x k)) ∧
    (∃ t, exec (.cellUnadmit x k dir) s = .next t ∧ (t.cell x k).mode = .notAdm ∧ (t.cell x k).admitted = false ∧
      (t.cell x k).gates = 0 ∧ (t.cell x k).bypass = false ∧ (t.cell x k).slewHeld = 0) ∧
    (∀ epoch : Word,
      let w := s.cellWake x k
      let a := epochNear (w.cellCount x k) epoch
      a.toNat % 8192 = 0 ∧ a.toNat / 8192 % 2 ^ 32 = epoch.toNat ∧
      ∃ t, exec (.cellArm x k epoch dir) s = .next t ∧
        ((w.cell x k).admitted = true → (w.cell x k).lastArm ≠ some a →
          (t.cell x k).arm = some a ∧ (t.cell x k).held = (w.cell x k).held.filter (fun h => decide (0 ≤ (h.time - a).toInt)) ∧
          (t.cell x k).evUnsent.getLast? = some (w.cell x k).evSeq) ∧
        ((w.cell x k).admitted = false ∨ (w.cell x k).lastArm = some a → t.cell x k = w.cell x k)) ∧
    (∀ (reason : BitVec 8) (epoch : BitVec 35),
      let w := s.cellWake x k
      let a := BitVec.ofNat 48 (epoch.toNat * 8192)
      ∃ t, exec (.cellStop x k reason epoch dir) s = .next t ∧ passedOn s t x k dir (fun d => .fwd x k d (.stop reason epoch)) ∧
        ((w.cell x k).lastStop ≠ some a → (w.cellCount x k - a).toInt < 0 →
          (t.cell x k).stopAt = some a ∧ (t.cell x k).mode = (w.cell x k).mode ∧ (t.cell x k).held = (w.cell x k).held) ∧
        ((w.cell x k).lastStop ≠ some a → 0 ≤ (w.cellCount x k - a).toInt → (w.cell x k).mode = .run →
          (t.cell x k).mode = .blocked ∧ (t.cell x k).gates = 0 ∧ (t.cell x k).held = []) ∧
        ((w.cell x k).lastStop = some a → t.cell x k = w.cell x k)) ∧
    (∃ t, exec (.hbLost x k) s = .next t ∧ (t.cell x k).hbSilent = true ∧
      (((s.cellWake x k).cell x k).mode = .run →
        (t.cell x k).mode = .blocked ∧ (t.cell x k).gates = 0 ∧ (t.cell x k).bypass = false)) ∧
    (∃ t, exec (.framingLost x k) s = .next t ∧ (t.cell x k).framingLost = true ∧
      (((s.cellWake x k).cell x k).mode = .run →
        (t.cell x k).mode = .blocked ∧ (t.cell x k).gates = 0 ∧ (t.cell x k).bypass = false)) ∧
    (∀ low : BitVec 6, ∃ t, exec (.cellInternalFault x k low) s = .next t ∧ (t.cell x k).evUnsent.getLast? = some ((s.cellWake x k).cell x k).evSeq ∧
      (((s.cellWake x k).cell x k).mode ≠ .fault → (t.cell x k).mode = .fault ∧ (t.cell x k).gates = 0)) ∧
    (∀ p, ((s.cellWake x k).cell x k).mode = .run → ((s.cellWake x k).cell x k).lastPstart = some p →
      (∀ h ∈ ((s.cellWake x k).cell x k).held, h.time = p + BitVec.ofNat 48 (s.cell x k).perTicks → h.flags.getLsbD 6 = false) →
      ∃ t, exec (.noPstart x k) s = .next t ∧ (t.cell x k).mode = .blocked ∧ (t.cell x k).gates = 0) ∧
    (∃ t, exec (.linkLost x k dir) s = .next t ∧ (t.cell x k).lost dir = true ∧ (t.cell x k).good dir = 0 ∧
      (t.cell x k).mode = ((s.cellWake x k).cell x k).mode ∧ (t.cell x k).gates = ((s.cellWake x k).cell x k).gates ∧
      ((s.cell x k).lost dir = false → (t.cell x k).evUnsent.getLast? = some ((s.cellWake x k).cell x k).evSeq)) ∧
    (∃ t, exec (.cellLoopRemove x k dir) s = .next t ∧
      ((s.cell x k).lost dir = true → 1024 ≤ (s.cell x k).good dir → (t.cell x k).lost dir = false ∧ (t.cell x k).good dir = 0 ∧
        ((s.cell x k).slew = 0 → (s.cell x k).tset = none → (t.cellCount x k).toNat % 8192 = 0)) ∧
      ((s.cell x k).lost dir = false ∨ (s.cell x k).good dir < 1024 → t.cell x k = s.cell x k))

/-- R258, R260 to R264: records that a cell receives and executes. -/
def Obligations.CellRecords : Prop :=
  ∀ (s : State) (x : RingId) (k : CellId) (dir : Dir),
    let w := s.cellWake x k
    (∀ h rest, (w.cell x k).held = h :: rest → (w.cell x k).stopAt = none →
      ((w.cell x k).mode = .run ∨ (w.cell x k).mayRun h = true →
        ∃ t, exec (.cellRecordExecute x k) s = .next t ∧ (t.cell x k).held = rest ∧ (t.cell x k).mode = .run ∧
          (t.cell x k).gates = h.gates ∧ (t.cell x k).bypass = h.flags.getLsbD 5 ∧
          (0 < (w.cell x k).descHi 3 → (t.cell x k).switches h.time = h.gates &&& (w.cell x k).switches h.time) ∧
          (∀ n, ((w.cell x k).descHi 3 * 8 : Nat) ≤ (n - h.time).toInt → (t.cell x k).switches n = h.gates) ∧
          ((w.cell x k).slew = 0 → (w.cell x k).tset = none → 0 ≤ (h.time - w.cellCount x k).toInt → t.cellCount x k = h.time)) ∧
      ((w.cell x k).mode = .blocked → (w.cell x k).mayRun h = false →
        ∃ t, exec (.cellRecordExecute x k) s = .next t ∧ (t.cell x k).held = rest ∧ (t.cell x k).gates = (w.cell x k).gates ∧
          (t.cell x k).mode = .blocked)) ∧
    (∀ r : BitVec 128,
      ∃ t, exec (.cellRecordAccept x k r dir) s = .next t ∧ passedOn s t x k dir (fun d => .fwd x k d (.sched r)) ∧
        (recordOk r = false →
          (t.cell x k).schedCw = true ∧ (t.cell x k).schedCcw = true ∧ (t.cell x k).held = (w.cell x k).held) ∧
        (recordOk r = true → (recRing r).toNat = x.val → (recPos r).toNat = k.val + 1 → (w.cell x k).admitted = true → recKind r = 0 →
          (w.cell x k).recent.contains (false, recSeq r) = true → t.cell x k = w.cell x k) ∧
        (recordOk r = true → (recRing r).toNat = x.val → (recPos r).toNat = k.val + 1 → (w.cell x k).admitted = true → recKind r = 0 →
          (w.cell x k).recent.contains (false, recSeq r) = false → (∀ h ∈ (w.cell x k).held, h.orphan = true → h.seq ≠ recSeq r) →
          0 ≤ (recTime r - w.cellCount x k).toInt → (w.cell x k).beforeArm (recTime r) = false → (w.cell x k).held.length < 64 →
          (t.cell x k).held.length = (w.cell x k).held.length + 1 ∧
          ⟨recTime r, recGates r, recFlags r, recSeq r, false⟩ ∈ (t.cell x k).held ∧ ∀ h ∈ (w.cell x k).held, h ∈ (t.cell x k).held))

/-- R232, R234, R239, R241, R257, R265, R267, R274, R365: a cell's registers, telemetry, captures, summary slots and events. -/
def Obligations.CellMessages : Prop :=
  ∀ (s : State) (x : RingId) (k : CellId) (dir : Dir),
    let w := s.cellWake x k
    (∀ ctl data : BitVec 64, ctlOk blockData ctl = false ∨ frameOk [ctl, data] = false →
      ∃ t, exec (.cellRegrqHeard x k dir ctl data) s = .next t ∧ passedOn s t x k dir (fun d => .fwdBlocks x k d [ctl, data]) ∧
        t.cell x k = w.cell x k) ∧
    (∀ (reason : BitVec 8) (epoch : BitVec 35) (bs : List LaneBlock), cellHeard x dir (.stop reason epoch) bs = false →
      ∃ t, exec (.cellStop x k reason epoch dir bs) s = .next t ∧ t.cell x k = w.cell x k ∧
        passedOn s t x k dir (fun d => .fwdBlocks x k d (bs.map (·.bits)))) ∧
    (∀ (ctl d : BitVec 64) (tag : BitVec 8) (addr : BitVec 16) (data : Word), (s.cell x k).clock ≠ none →
      (∀ e ∈ (s.cell x k).tags, e.1 ≠ tag) →
      (L0Msg.frame x dir (.regrq (k.val + 1) tag false addr data) = [ctl, d] →
        ∃ t, exec (.cellRegrqHeard x k dir ctl d) s = .next t ∧ (t.cell x k).regs = (w.cell x k).regs ∧
          Out.cell x k (.regrsp tag ((w.cell x k).readReg (w.slotByte x k .cw) addr.toNat).1
            ((w.cell x k).readReg (w.slotByte x k .cw) addr.toNat).2 addr) ∈ t.out) ∧
      (L0Msg.frame x dir (.regrq (k.val + 1) tag true addr data) = [ctl, d] → 0x11 ≤ addr.toNat → addr.toNat ≤ 0x13 →
        ∃ t, exec (.cellRegrqHeard x k dir ctl d) s = .next t ∧
          ((w.cell x k).mode = .run → Out.cell x k (.regrsp tag 2 0 addr) ∈ t.out ∧ (t.cell x k).regs = (w.cell x k).regs) ∧
          ((w.cell x k).mode ≠ .run → Out.cell x k (.regrsp tag 0 0 addr) ∈ t.out ∧
            sparseGet 0 (t.cell x k).regs addr.toNat = data &&& cellRegMask addr.toNat))) ∧
    ((s.cell x k).counting = true → (s.cell x k).perTicks ≠ 0 →
      (w.cellCount x k - (s.cell x k).lastTick (w.cellCount x k)).toNat < (s.cell x k).perTicks ∧
      ∃ t status, exec (.cellTelemetrySend x k) s = .next t ∧
        sentBy w t x k (.tlm (((s.cell x k).lastTick (w.cellCount x k)).toNat / 256) (s.cell x k).quant status)) ∧
    (∀ ctl : Word, sparseGet 0 (s.cell x k).regs 0x200 = ctl → (s.cell x k).counting = true → ctl.getLsbD 31 = true →
      ctl.toNat % 256 ≠ 0 → (s.cell x k).capBuf = [] →
      ∃ t, exec (.cellCaptureSample x k) s = .next t ∧ t.rtime.toNat % (8192 * 2 ^ (ctl.toNat / 2 ^ 16 % 16)) = 0 ∧
        (t.cell x k).capBuf = capCodes (s.cell x k) (ctl.toNat % 256) ∧
        (t.cell x k).capEpoch = BitVec.ofNat 35 (t.rtime.toNat / 8192)) ∧
    (∀ slots : List (BitVec 8),
      ∃ t b, exec (.cellSummSlot x k dir slots) s = .next t ∧ Out.cell x k (.slot dir b) ∈ t.out ∧
        passedOn s t x k dir (fun d => .fwd x k d (.summ (slots.set k.val b))) ∧ slotOk b = true ∧
        b.getLsbD 0 = ((w.cell x k).hbSilent || !w.l3In x k .cw || !w.l3In x k .ccw) ∧
        b.getLsbD 1 = (if dir = .cw then (w.cell x k).schedCw else (w.cell x k).schedCcw) ∧
        b.getLsbD 2 = ((s.cell x k).linkCw || (s.cell x k).linkCcw) ∧ b.getLsbD 4 = (w.cell x k).bypass ∧
        b.toNat / 32 % 4 = (match (w.cell x k).mode with | .notAdm => 0 | .blocked => 1 | .run => 2 | .fault => 3) ∧
        (if dir = .cw then (t.cell x k).schedCw else (t.cell x k).schedCcw) = false) ∧
    (∀ seq rest, (s.cell x k).evUnsent = seq :: rest →
      let r := fun i => (sparseGet 0 (s.cell x k).regs (0x100 + 4 * (seq.toNat % 32) + i) : Word)
      ∃ t, exec (.cellEventSend x k) s = .next t ∧
        sentBy s t x k (.evt ((r 0).extractLsb' 16 8) seq ((r 2).setWidth 16 ++ r 1) (r 3)) ∧ (t.cell x k).evUnsent = rest)

/-- R277 to R283, R290 to R297: the time bases, PTP stamps, the servo and the time-source axis. -/
def Obligations.TimeKeeping : Prop :=
  ∀ s : State, s.powered domPlan = true →
    (∃ t, exec .gtimeReanchor s = .next t ∧ t.mapR = s.mapR + BitVec.ofNat 48 s.anchorSpan ∧ s.ticks ≤ t.ticks ∧
      (s.anchorSpan < s.toSecond → t.tim.newK = s.tim.newK ∧ t.tim.kFreq = s.tim.kFreq) ∧
      (∀ k theta, s.toSecond ≤ s.anchorSpan → s.tim.newK = some (k, theta) →
        t.tim.kFreq = (if s.tsrc = tsrcLocked then k else s.tim.kFreq) ∧ t.tim.newK = none) ∧
      (s.tim.newK = none → t.tim.kFreq = s.tim.kFreq)) ∧
    (∀ (port : EthId) (kind : BitVec 4) (seq : BitVec 16), (s.ptpOn port true kind = true →
      (s.oneStep kind = false → (s.tim.txq[port]).length < 16 →
        ∃ t, exec (.ptpEventMessage port true kind seq) s = .next t ∧
          t.tim.txq[port] = s.tim.txq[port] ++ [⟨kind, seq, s.ptpStamp, s.gtimeNs s.ptpStamp⟩] ∧ t.fget (txLevel port) = (s.tim.txq[port]).length + 1) ∧
      (s.oneStep kind = false → 16 ≤ (s.tim.txq[port]).length →
        ∃ t, exec (.ptpEventMessage port true kind seq) s = .next t ∧ t.tim.txq[port] = s.tim.txq[port] ∧
          (t.fget F.TIME_STAT_TXTS_OVF).testBit port.val = true) ∧
      (s.oneStep kind = true → kind = 0 →
        ∃ t, exec (.ptpEventMessage port true kind seq) s = .next t ∧ t.tim.txq = s.tim.txq ∧
          t.out = [Out.ptp port kind seq (s.gtimeNs s.ptpStamp) (s.flag F.TIME_PTPCFG_UDP)])) ∧
      (s.ptpOn port false kind = true → ∃ t, exec (.ptpEventMessage port false kind seq) s = .next t ∧ t.rxStamp port kind seq = some s.ptpStamp ∧ t.tim.txq = s.tim.txq)) ∧
    (∀ theta kFreq utc : Int, s.powered domHost = true → s.tim.stepDue = none →
      (theta.natAbs ≤ 1000 →
        ∃ t, exec (.syncMeasurement theta kFreq utc) s = .next t ∧ t.tim.count = s.tim.count + 1 ∧
          t.tim.newK = some (max (-kFreqMax) (min kFreqMax kFreq), theta) ∧ t.tim.stepDue = none ∧
          (15 ≤ s.tim.count → t.tsrc = tsrcLocked)) ∧
      (1000 < theta.natAbs →
        ∃ t, exec (.syncMeasurement theta kFreq utc) s = .next t ∧ t.tim.count = 0 ∧ t.tsrc ≠ tsrcLocked ∧
          (theta.natAbs ≤ 2000 → t.tim.newK = some (max (-kFreqMax) (min kFreqMax kFreq), theta) ∧ t.tim.stepDue = none))) ∧
    (∀ (theta : Int) (g : Nat), s.tim.stepDue = some (theta, g) →
      ∃ t, exec .gtimeStep s = .next t ∧ t.tim.stepDue = none ∧ t.tim.kSlew = 0 ∧ t.fget F.TIME_STAT_STEPPED = 1 ∧
        s.secondAt g ≤ t.ticks ∧ t.mapR = t.rtime) ∧
    (s.tsrc = tsrcLocked →
      (∃ t, exec .holdover s = .next t ∧ t.tsrc = tsrcHoldover ∧ t.tim.holdAt = s.ticks) ∧
      (∃ t g m, exec .timePairSend s = .next t ∧ t.out = [Out.toMtr g m] ∧ s.tim.pairAt + 60 * sec ≤ t.ticks ∧ t.tim.pairAt = t.ticks)) ∧
    (s.tsrc = tsrcHoldover →
      ∃ t, exec .holdmaxExpiry s = .next t ∧ t.tsrc = tsrcFree ∧ s.tim.holdAt + s.fget F.TIME_GCFG_HOLDMAX * 60 * sec ≤ t.ticks)

/-- R284 to R287, R299 to R304, R504: compare units and the peer modules. -/
def Obligations.ComparesAndPeers : Prop :=
  ∀ (s : State) (req : Requester) (u : UnitId), s.powered domPlan = true →
    (s.flag (F.TIME_CMPCTL_ARMED u) = true →
      (s.fget (F.TIME_CMPCTL_PER u) = 0 →
        ∃ t, exec (.compareFire u) s = .next t ∧ t.flag (F.TIME_CMPCTL_ARMED u) = false ∧
          (t.fget F.TIME_STAT_CMPHIT).testBit u.val = true ∧ s.ticks + (s.cmp u - s.rtime).toInt.toNat ≤ t.ticks) ∧
      (s.fget (F.TIME_CMPCTL_PER u) ≠ 0 →
        ∃ t, exec (.compareFire u) s = .next t ∧ t.flag (F.TIME_CMPCTL_ARMED u) = true ∧
          (t.fget F.TIME_STAT_CMPHIT).testBit u.val = true ∧
          t.cmp u = s.cmp u + BitVec.ofNat 48 (64 * s.fget (F.TIME_CMPCTL_PER u)))) ∧
    (writeFree s (A.TIME_CMPCTL u) (s.bitWord (A.TIME_CMPCTL u) 0x80000000) →
      ∃ t, exec (.cmpDisarm req u) s = .next t ∧ t.flag (F.TIME_CMPCTL_ARMED u) = false) ∧
    (∀ loopTime fwdSum followers : Nat, s.peerUp = true → s.peerRole = roleLeader →
      ∃ t, exec (.peerClapperLaunch loopTime fwdSum followers) s = .next t ∧ t.tim.peerNum = s.tim.peerNum + 1 ∧
        t.out = [Out.peer [pclapBlock (s.tim.peerNum + 1) 0 0],
          Out.peer (ptimeFrame (t.rtime - 8192) (roundUpTies ((loopTime : Int) - fwdSum) (followers + 1)).toNat followers
            (s.tim.peerNum + 1))] ∧
        t.rtime.toNat % 8192 = 256 ∧ s.tim.peerEpoch + 1025 ≤ t.tim.peerEpoch + 1 ∧
        t.fget F.TIME_PEEROFF_LOOP = min (loopTime / 8) 65535) ∧
    (∀ (bs : List LineBlock) (num : BitVec 8) (count : BitVec 4) (acc : BitVec 32) (fwd : Nat), s.peerUp = true →
      s.peerRole = roleFollower → (s.laneIn 7 .l0 bs).2 = [[pclapBlock num count.toNat acc.toNat]] →
      ∃ t, exec (.pclapHeard bs fwd) s = .next t ∧ t.tim.peerAt = some (num, s.rtime) ∧ t.tim.peerAcc = acc.toNat ∧
        t.out = [Out.peer [pclapBlock num (count.toNat + 1) (acc.toNat + fwd)]]) ∧
    (∀ (bs : List LineBlock) (tL : BitVec 48) (h : BitVec 32) (followers : BitVec 4) (num : BitVec 8) (a : BitVec 48),
      s.peerUp = true → s.peerRole = roleFollower → s.tim.peerAt = some (num, a) →
      (s.laneIn 7 .l0 bs).2 = [ptimeFrame tL h.toNat followers.toNat num] →
      let o : Int := (a - tL).toInt - ((s.fget F.TIME_PEER_POS * h.toNat + s.tim.peerAcc : Nat) : Int)
      ∃ t, exec (.ptimeHeard bs) s = .next t ∧ t.out = [Out.peer (ptimeFrame tL h.toNat followers.toNat num)] ∧ t.tim.peerAt = none ∧
        (s.pwr = pwrStopped → t.fget F.TIME_PEER_STATE = peerAligned ∧
          t.rtime = BitVec.ofInt 48 ((t.ticks : Int) + s.rtAdj - o) ∧
          ∀ (x : RingId) (k : CellId), (s.cell x k).counting = true →
            t.cellCount x k = BitVec.ofInt 48 ((t.ticks : Int) + s.rtAdj + (s.cell x k).offset)) ∧
        (s.pwr ≠ pwrStopped → o.natAbs ≤ 8 → t.fget F.TIME_PEER_STATE = peerAligned ∧ t.tim.rtSlew = -o ∧ t.rtime = s.rtime) ∧
        (s.pwr ≠ pwrStopped → 8 < o.natAbs → t.fget F.TIME_PEER_STATE = peerMisaligned ∧ t.tim.rtSlew = 0 ∧ t.rtime = s.rtime)) ∧
    (s.peerRole ≠ 0 → s.fget F.TIME_PEER_STATE ≠ peerLost →
      ∃ t, exec .peerLost s = .next t ∧ t.fget F.TIME_PEER_STATE = peerLost ∧ t.fget F.TIME_STAT_PEER_LOST = 1 ∧ t.rtime = s.rtime) ∧
    (s.fget F.TIME_PEER_STATE = peerLost → ∃ t, exec .peerReturn s = .next t ∧ t.fget F.TIME_PEER_STATE = peerIdle)

/-- R140, R306 to R314, R317 to R321, R325, R326, R329 to R332, R334, R335: periods, trips, gate supplies and gate faults of a leg. -/
def Obligations.BridgeAndGates : Prop :=
  ∀ (s : State) (x : LegId), s.powered domAnlg = true → s.powered domGate = true →
    (s.brg.running = true → s.oscStopped = false →
      let u := s.fresh.takesUpTo s.nextPwm
      ∃ t, exec .pwmPeriodStart s = .next t ∧ t.brg.start = s.nextPwm ∧ t.brg.lastStart = s.rtimeAt s.nextPwm ∧ s.nextPwm ≤ t.ticks ∧
        t.mem = u.mem ∧ t.brg.length = t.fget F.BRG_PER_PER * 32 ∧
        (u.running = false → t.legState x = legOff) ∧
        (u.live = [] → u.flag F.BRG_CTRL_SRC = false → u.running = true → u.stopReached = false →
          (u.fget F.BRG_CTRL_LEGEN).testBit x.val = true →
          u.flag (F.GATE_STAT_FAULT x) = false → u.legLatchedBit x = false → u.fget F.BRG_TSTAT_ACTIVE = 0 → (u.brg.legs[x]).charge = 0 →
          (u.brg.legs[x]).restart = false → u.forceMode x = 0 → u.flag F.BRG_REFCTL_REFEN = false →
          (∀ high, u.gateUsable x high = true) →
          let T := u.fget F.BRG_PER_PER * 32
          let dt := u.fget (F.BRG_DEAD_DEAD x) * 32
          let minp := u.fget F.BRG_MINP_MINP * 32
          let d := min (u.fget (F.BRG_DUTY_DUTY x)) (T - dt)
          t.legState x = legRun ∧
          (dt < d → minp ≤ d - dt → Out.gate x true true (s.nextPwm + dt) ∈ t.out ∧ Out.gate x true false (s.nextPwm + d) ∈ t.out) ∧
          (d + dt < T → minp ≤ T - d - dt → Out.gate x false true (s.nextPwm + (d + dt)) ∈ t.out) ∧
          (T - dt < u.fget (F.BRG_DUTY_DUTY x) → (t.fget F.BRG_STAT_CLAMP).testBit x.val = true))) ∧
    (∀ e : BitVec 128,
      (recordOk e = true → ∃ t, exec (.brgEntryReceived e) s = .next t ∧ t.brg.entries = s.brg.entries ++ [e]) ∧
      (recordOk e = false →
        ∃ t, exec (.brgEntryReceived e) s = .next t ∧ t.brg.entries = s.brg.entries ∧ (s.powered domSafa = true → t.sticky srcBrgCrc = true))) ∧
    (∀ n : TripId,
      (s.tripActive n.val = false →
        ∃ t, exec (.trip n) s = .next t ∧ t.tripActive n.val = true ∧ (t.fget F.BRG_TSTAT_HIT).testBit n.val = true ∧ t.mem = s.mem ∧
          (s.tripActs n.val x = true → s.legIdle x = false → s.legState x ≠ legOff → s.legState x ≠ legFault →
            (t.fget F.BRG_TSTAT_CUT).testBit x.val = true ∧
            t.legState x = (if s.tripLatch n.val || s.legLatchedBit x then legLatched else legTripped) ∧
            ∀ high, (s.brg.legs[x]).isOn high s.ticks = true → Out.gate x high false s.ticks ∈ t.out) ∧
          (s.tripActs n.val x = true → s.legIdle x = false → s.legState x = legOff → s.tripLatch n.val = true →
            s.flag (F.GATE_STAT_FAULT x) = false → t.legState x = legLatched) ∧
          (s.tripActs n.val x = false ∨ s.legIdle x = true → t.legState x = s.legState x)) ∧
      (∀ (level : Bool) (ticks : Nat), level ≠ s.tripHigh n.val ∨ ticks < s.tripFilter n.val →
        exec (.trip n (some (level, ticks))) s = .next s.fresh) ∧
      (∃ t, exec (.tripInactive n) s = .next t ∧ t.tripActive n.val = false ∧ t.legState x = s.legState x)) ∧
    (∀ (req : Requester) (legs : BitVec 4), writeFree s A.BRG_TSTAT (legs.setWidth 32 <<< 4) → legs.getLsbD x.val = true →
      s.legLatchedBit x = true →
      ∃ t, exec (.latchedClear req legs) s = .next t ∧
        (s.tripHolds x true = true → t.legLatchedBit x = true ∧ t.fget F.BRG_STAT_CLRREF = 1) ∧
        (s.tripHolds x true = false → t.legLatchedBit x = false)) ∧
    (∀ high negative : Bool,
      let ok := if negative then F.GATE_MON_NEGOK else F.GATE_MON_POSOK
      (∃ t, exec (.gateSupplyLockout x high negative) s = .next t ∧ (t.fget ok).testBit (2 * x.val + high.toNat) = false ∧
        (s.legState x = legOff ∨ s.legState x = legCharge → t.legState x = s.legState x) ∧
        (s.legState x ≠ legOff → s.legState x ≠ legCharge →
          t.flag (F.GATE_STAT_FAULT x) = true ∧
          t.flag (if negative then F.GATE_STAT_UVLO_NEG x else if high then F.GATE_STAT_UVLO_HS x else F.GATE_STAT_UVLO_LS x) = true ∧
          (s.legIdle x = false → t.legState x = legFault) ∧
          ((s.brg.legs[x]).softWait = false → ∀ h, (s.brg.legs[x]).isOn h s.ticks = true → Out.gate x h false s.ticks ∈ t.out))) ∧
      (∀ mv ticks, s.lockoutMv x negative ≤ mv ∨ ticks < us →
        exec (.gateSupplyLockout x high negative (some (mv, ticks))) s = .next s.fresh) ∧
      (∃ t, exec (.gateSupplyRelease x high negative) s = .next t ∧ (t.fget ok).testBit (2 * x.val + high.toNat) = true)) ∧
    (∀ high, s.shortHeld x = false →
      (s.unblanked x high = true →
        ∃ t, exec (.desaturationFault x high) s = .next t ∧ t.flag (F.GATE_STAT_FAULT x) = true ∧
          t.flag (if high then F.GATE_STAT_DESAT_H x else F.GATE_STAT_DESAT_L x) = true ∧
          (t.brg.legs[x]).softWait = true ∧ (t.brg.legs[x]).softAt = s.ticks) ∧
      (∀ mv, s.unblanked x high = false ∨ mv ≤ s.desatMv x → exec (.desaturationFault x high (some mv)) s = .next s.fresh)) ∧
    (∃ t, exec (.overcurrentFault x) s = .next t ∧ (t.fget F.GATE_MON_OCACT).testBit x.val = true ∧
      t.flag (F.GATE_STAT_FAULT x) = true ∧ t.flag (F.GATE_STAT_OC x) = true ∧
      (s.inSoft x = true → t.brg = s.brg) ∧
      (s.inSoft x = false → (t.brg.legs[x]).softWait = true ∧ (t.brg.legs[x]).softAt = s.ticks)) ∧
    (∃ t, exec (.overcurrentEnd x) s = .next t ∧ (t.fget F.GATE_MON_OCACT).testBit x.val = false) ∧
    ((s.brg.legs[x]).softWait = true → s.softFirst x = true →
      ∃ t, exec (.softTurnoffStart x) s = .next t ∧ (t.brg.legs[x]).softWait = false ∧ (t.brg.legs[x]).softOff = true ∧
        t.brg.lastSoft = some t.ticks ∧
        modCycle (s.brg.legs[x]).softAt < modCycle t.ticks ∧ ∀ l, s.brg.lastSoft = some l → l + 1600 ≤ t.ticks) ∧
    ((s.brg.legs[x]).softOff = true →
      ∃ t, exec (.softTurnoffEnd x) s = .next t ∧ (t.brg.legs[x]).softOff = false ∧ (s.brg.legs[x]).softAt + 16000 ≤ t.ticks) ∧
    (∀ req : Requester, writeFree s (A.GATE_STAT x) 0x80 → s.flag (F.GATE_STAT_FAULT x) = true →
      let bad := !s.posOk x false || !s.negOk x true || !s.negOk x false || (s.fget F.GATE_MON_OCACT).testBit x.val
      ∃ t, exec (.gateFaultClear req x) s = .next t ∧
        (bad = true → t.flag (F.GATE_STAT_FAULT x) = true ∧ t.fget (F.GATE_STAT_CLRREF x) = 1) ∧
        (bad = false → t.flag (F.GATE_STAT_FAULT x) = false ∧ (t.brg.legs[x]).charge = s.fget F.BRG_REFCTL_NCHG)) ∧
    (∀ high : Bool,
      ∃ t, exec (.gateCommandLoss x high) s = .next t ∧ t.brg.noCmd.getLsbD (2 * x.val + high.toNat) = true ∧
        (t.brg.legs[x]).isOn high s.ticks = false ∧
        ((s.brg.legs[x]).isOn high s.ticks = true → Out.gate x high false s.ticks ∈ t.out) ∧
      ∃ t, exec (.gateCommandLoss x high (some true)) s = .next t ∧ t.gateUsable x high = false ∧ (t.brg.legs[x]).isOn high s.ticks = false)

/-- R337, R339 to R341, R345, R346, R349, R352 to R356: conversions, group frames, references and calibration. -/
def Obligations.ConversionsAndReferences : Prop :=
  ∀ s : State, s.powered domAnlg = true → s.powered domPlan = true →
    (∀ (codes : List Int) (full : Word), s.adc.slot < s.slotCount → s.oscStopped = false →
      ∃ t, exec (.conversionSlot codes full) s = .next t ∧ t.adc.slot = s.adc.slot + 1 ∧ s.slotInstant s.adc.slot ≤ t.ticks ∧
        (s.adc.slot = 0 → ∀ c, s.fget F.PLAN_DAB_VBUS = c → c < 32 →
          t.adc.vbus.head? = some (s.adc.period, if s.converterOk (c / 4) then (s.convert (c / 4) (codes.getD c 0)).1 else 0x8000)) ∧
        (∀ c < 32, s.converterOk (c / 4) = true → (s.convert (c / 4) (codes.getD c 0)).2 = true →
          (t.fget F.ADC_STAT_OVR).testBit (c / 4) = true) ∧
        ((∀ g : UnitId, s.groupOnAt g s.adc.period = false) → (∀ u : CaptId, s.captBusy u = false) → t.mem = s.mem)) ∧
    (∀ (codes nv : List Int) (full : Word),
      exec (.conversionSlot codes full nv) s =
        exec (.conversionSlot ((List.range 32).map fun c => ((nv[c]?).map (s.rawCode (c / 4))).getD (codes.getD c 0)) full) s) ∧
    (∀ (k : Nat) (nv : Int), s.fget F.ADC_REF_SEL / 4 ^ k % 4 ≠ 2 →
      2 * (s.rawCode k nv * 10240000000 - nv * 32768).natAbs ≤ 10240000000) ∧
    (∀ (g : UnitId) (e : UnitId × Nat × Nat), s.adc.due.find? (fun e => e.1 == g) = some e →
      let a := s.frameBase g e.2.1 + 0x3FC
      ∃ t, exec (.groupStampWrite g) s = .next t ∧ t.adc.due = s.adc.due.erase e ∧ e.2.2 + 2400 ≤ t.ticks ∧
        (s.groupOnAt g e.2.1 = true → s.memReadable a 4 = true → (∀ w ∈ s.checkWords a 4, eccAt s.ecc w = none) →
          t.peek a 4 = e.2.1 % 2 ^ 32 ∧ ∀ b, b < a ∨ a + 4 ≤ b → t.byte b = s.byte b)) ∧
    (∀ (req : Requester) (g : UnitId) (v : Word), writeFree s (A.ADC_GBUF g) v → s.adc.halted.getLsbD g.val = true →
      ∃ t, exec (.gbufWrite req g v) s = .next t ∧ t.adc.halted.getLsbD g.val = false ∧ t.groupOn g = false ∧
        t.fget (F.ADC_GBUF_BASE g) = (F.ADC_GBUF_BASE g).get v) ∧
    (∀ k : UnitId,
      (∀ n, s.adc.settle[k] = some n →
        ∃ t, exec (.referenceSettled k) s = .next t ∧ (t.fget F.ADC_REF_SETTLED).testBit k.val = true ∧ n ≤ t.ticks) ∧
      (∀ gain offs : BitVec 16, (s.fget F.ADC_REF_CALBUSY).testBit k.val = true →
        ∃ t, exec (.calibrationDone k gain offs) s = .next t ∧ (t.fget F.ADC_REF_CALBUSY).testBit k.val = false ∧
          t.fget (F.ADC_CAL_GAIN k) = gain.toNat ∧ t.fget (F.ADC_CAL_OFFS k) = offs.toNat ∧ s.adc.calAt[k] ≤ t.ticks) ∧
      (∀ (req : Requester) (m : BitVec 8), writeFree s A.ADC_CALCMD (m.setWidth 32) → m.getLsbD k.val = true →
        ∃ t, exec (.calibrate req m) s = .next t ∧
          (s.converterOk k = true → (t.fget F.ADC_REF_CALBUSY).testBit k.val = true ∧ t.adc.calAt[k] = s.ticks + 18 * ms) ∧
          (s.converterOk k = false → t.fget F.ADC_STAT_CALREF = 1 ∧
            (t.fget F.ADC_REF_CALBUSY).testBit k.val = (s.fget F.ADC_REF_CALBUSY).testBit k.val)) ∧
      (∀ r : RefSource, s.refSel k = refCode r →
        (∃ t, exec (.referenceLost r) s = .next t ∧ (t.fget F.ADC_REF_SETTLED).testBit k.val = false ∧ t.fget F.ADC_STAT_REFLOST = 1 ∧
          t.adc.settle[k] = none) ∧
        (s.refOk (refCode r) = false →
          ∃ t, exec (.referenceReturn r) s = .next t ∧ t.adc.settle[k] = some (s.ticks + 200 * us))))

/-- R361 to R363, R366, R367: capture units. -/
def Obligations.CaptureUnits : Prop :=
  ∀ (s : State) (req : Requester) (u : CaptId), s.powered domAnlg = true → s.powered domPlan = true → s.powered domDram = true →
      (writeFree s (A.CAPT_CMD u) 1 →
        let bad := s.captBusy u || decide (s.fget (F.CAPT_MASK_MASK u) = 0) || decide (s.captSize u < s.fget (F.CAPT_POST_COUNT u))
        (s.fget F.SUP_MODE_THERM = 2 →
          ∃ t, exec (.arm req u) s = .next t ∧ Out.refusal req (BitVec.ofNat 8 refThermal) ∈ t.out ∧ t.captState u = s.captState u) ∧
        (s.fget F.SUP_MODE_THERM ≠ 2 → bad = true →
          ∃ t, exec (.arm req u) s = .next t ∧ t.fget (F.CAPT_STAT_CFGERR u) = 1 ∧ t.captState u = s.captState u) ∧
        (s.fget F.SUP_MODE_THERM ≠ 2 → bad = false →
          ∃ t, exec (.arm req u) s = .next t ∧ t.captState u = captArmed ∧ t.fget F.SUP_MODE_CAPT ≠ 0 ∧ t.word (A.CAPT_NPRE u) = 0)) ∧
      (writeFree s (A.CAPT_CMD u) 2 → s.captState u = captArmed →
        ∃ t, exec (.force req u) s = .next t ∧ t.captState u = captTriggered ∧ (t.capt[u]).force = true) ∧
      (writeFree s (A.CAPT_CMD u) 3 → s.captBusy u = true →
        ∃ t, exec (.abort req u) s = .next t ∧ t.captState u = captAborted ∧ t.word (A.CAPT_TTIMEL u) = 0) ∧
      (∀ (x : RingId) (k : CellId) (p : LaneId) (bs : List LineBlock) (qmask : BitVec 8) (epoch : BitVec 35) (fseq : BitVec 16)
          (codes : List (BitVec 16)),
        heard s x p bs (CellMsg.frame x k (.capd qmask epoch fseq codes)) → s.captBusy u = true → s.flag (F.CAPT_CTRL_KIND u) = true →
        s.fget (F.CAPT_CTRL_RING u) = x.val → s.fget (F.CAPT_CTRL_POS u) = k.val + 1 →
        ∃ t, exec (.capdHeard p bs) s = .next t ∧
          (s.fget (F.CAPT_MASK_MASK u) ≠ qmask.toNat → t.fget (F.CAPT_STAT_CFGERR u) = 1 ∧ t.capt[u] = s.capt[u]) ∧
          (s.fget (F.CAPT_MASK_MASK u) = qmask.toNat → (s.capt[u]).fseq = none → (t.capt[u]).fseq = some fseq))

/-- R371, R372, R377 to R380, R393: samples, energy, the legal clock and its adjustments while the island measures. -/
def Obligations.EnergyAndClock : Prop :=
  ∀ s : State, s.mtrOn = true →
    (∀ codes : List Int,
      ∃ t, exec (.mtrSample codes) s = .next t ∧ t.mtr.sums = List.zipWith (· + ·) s.mtr.sums (s.mtr.products codes) ∧
        t.mtr.energy = s.mtr.energy ∧ (s.mtr.mtime / 86400 = s.mtr.dayNo → t.mtr.log = s.mtr.log) ∧
        t.mtr.count = s.mtr.count + 20000 ∧ (s.mtr.slewLeft = 0 → t.mtr.sub = s.mtr.sub + 20000) ∧
        (0 < s.mtr.slewLeft → s.mtr.dayUsed < dayBudget → t.mtr.sub = s.mtr.sub + 20001 ∧ t.mtr.slewLeft = s.mtr.slewLeft - 1)) ∧
    (let e := fun k => secondEnergy (s.mtr.sums.getD k 0)
     ∃ t, exec .energySecond s = .next t ∧ t.mtr.mtime = (s.mtr.mtime + 1) % 2 ^ 32 ∧ t.mtr.sums = List.replicate 9 0 ∧
      t.mtr.energy[0] = s.mtr.energy[0] + max 0 (e 0) ∧ t.mtr.energy[1] = s.mtr.energy[1] + max 0 (-e 0) ∧
      (∀ n : Fin 8, t.mtr.energy[delIdx n] = s.mtr.energy[delIdx n] + max 0 (e (n.val + 1)) ∧
        t.mtr.energy[retIdx n] = s.mtr.energy[retIdx n] + max 0 (-e (n.val + 1))) ∧
      t.mtr.energy[2] = resOf t.mtr.energy ∧ (∀ j : EnergyId, t.fget (F.MTR_EL_E j) = unsignedOf 32 (t.wh j)) ∧ t.mem = s.mem ∧
      t.mtr.params = s.mtr.nextP.getD s.mtr.params ∧ t.mtr.nextP = none) ∧
    (∀ (g : Nat) (target : Int),
      let ns := g % 1000000000
      let d := truncDiv (target * 1000000000 + ns - s.mtr.nowNs) 1000000
      ∃ t, exec (.timePairReceived g target) s = .next t ∧ t.mtr.slewLeft = d * 160000 ∧ t.mtr.lastPair = some (target, ns) ∧
        t.mtr.pairAt = s.mtr.count ∧ t.mtr.tunsync = decide (1000 < d.natAbs) ∧ t.mtr.mtime = s.mtr.mtime) ∧
    (∃ t, exec .unsyncTimeout s = .next t ∧ t.mtr.tunsync = true ∧ t.fget F.MTR_STAT_TUNSYNC = 1) ∧
    (s.mtr.mtime % 86400 = 0 → s.mtr.mtime / 86400 ≠ s.mtr.dayNo → s.mtr.dayUsed = 0 →
      ∃ t, exec .mtimeDayEnd s = .next t ∧ t.mtr.dayUsed = 0 ∧ t.mtr.dayTotal = 0 ∧ t.mtr.log = s.mtr.log ∧ t.fget F.MTR_TADJ_USED = 0)

/-- R375, R376, R380, R384, R394: the records that the island writes by itself, its self-tests, its supply and its time backup. -/
def Obligations.IslandRecordsAndSupply : Prop :=
  ∀ s : State,
    (s.mtrOn = true → s.mtr.queue = [] → s.mtr.snap = [] → s.mtr.signBad = false → s.flag F.MTR_STAT_FLOG = false → s.mtr.log.length + 9 ≤ 65536 →
      (s.mtr.mtime % (60 * s.mtr.par parInterval) = 0 → s.mtr.lastSnap ≠ some s.mtr.mtime →
        ∃ t recs, exec .intervalSnapshot s = .next t ∧ t.mtr.log = s.mtr.log ++ recs ∧
          recs.map (fun r => (r.kind, r.ch)) = (List.range 9).map (fun c => (1, BitVec.ofNat 8 c)) ∧
          t.mtr.rseq = s.mtr.rseq + 9 ∧ t.mtr.lastSnap = some s.mtr.mtime ∧ t.mtr.energy = s.mtr.energy) ∧
      (∀ (theta : Int) (g : Nat),
        ∃ t r, exec (.stepSeen theta g) s = .next t ∧ t.mtr.log = s.mtr.log ++ [r] ∧ r.kind = 5 ∧ r.e1 = theta ∧ r.e2 = (g : Int) ∧
          t.mtr.mtime = s.mtr.mtime) ∧
      (s.mtr.mtime % 86400 = 0 → s.mtr.mtime / 86400 ≠ s.mtr.dayNo → s.mtr.dayUsed ≠ 0 →
        ∃ t r, exec .mtimeDayEnd s = .next t ∧ t.mtr.dayUsed = 0 ∧ t.mtr.dayTotal = 0 ∧ t.mtr.log = s.mtr.log ++ [r] ∧ r.kind = 4 ∧
          r.e1 = truncDiv s.mtr.dayTotal 160000) ∧
      (∃ t r, exec .mtrSupplyLoss s = .next t ∧ t.mtr.log = s.mtr.log ++ [r] ∧ r.kind = 0x20)) ∧
    (s.mtrOn = true →
      (s.mtr.snap ≠ [] → s.snapDue = false → ∃ t, exec .intervalSnapshot s = .next t ∧ t.mtr.snap = []) ∧
      (∀ failing : BitVec 16,
        ∃ t, exec (.mtrSelfTest failing) s = .next t ∧
          (∀ c : Fin 16,
            (failing.getLsbD c.val = true → t.mtr.passes[c] = 0 ∧ (t.fget F.MTR_FCHAN_FAIL).testBit c.val = true) ∧
            (failing.getLsbD c.val = false → t.mtr.passes[c] = s.mtr.passes[c] + 1 ∧
              (t.fget F.MTR_FCHAN_FAIL).testBit c.val = ((s.fget F.MTR_FCHAN_FAIL).testBit c.val && decide (s.mtr.passes[c] + 1 < 10)))) ∧
          t.fget F.MTR_STAT_FMEAS = if t.fget F.MTR_FCHAN_FAIL = 0 then 0 else 1) ∧
      (∀ ppm : Nat,
        ∃ t, exec (.crystalCheck ppm) s = .next t ∧ t.mtr.crystalOk = (if 100 < ppm then 0 else s.mtr.crystalOk + 1) ∧
          (100 < ppm → t.fget F.MTR_STAT_FTIME = 1) ∧
          (ppm ≤ 100 → t.fget F.MTR_STAT_FTIME = if 6 ≤ s.mtr.crystalOk + 1 then 0 else s.fget F.MTR_STAT_FTIME)) ∧
      (∃ t, exec .mtrSupplyLoss s = .next t ∧ t.mtr.measuring = false ∧ t.mtr.downMtime = s.mtr.mtime ∧
        ∀ c ∈ t.mtr.queue, c ∈ s.mtr.queue ∧ c.logs = true)) ∧
    (s.powered domMtr = true → s.mtrState = mtrInit →
      (s.mtr.invalid = true → ∃ t, exec .mtrPowerUp s = .next t ∧ t.mtrState = mtrInvalid ∧ t.mtr = s.mtr ∧ t.fget F.MTR_RSEQ_SEQ = s.mtr.rseq % 2 ^ 32) ∧
      (s.mtr.invalid = false → s.mtr.signBad = false → (∀ r ∈ s.mtr.snap, r.seal = false) →
        (∀ c ∈ s.mtr.queue, ∀ r, c.recd = some r → r.seal = false) →
        ∃ t, exec .mtrPowerUp s = .next t ∧ t.mtrState = mtrRun ∧ t.mtr.measuring = true ∧ t.mtr.sessOpen = 0 ∧
          t.mtr.mtime = (if s.mtr.backupOut then s.mtr.lossMtime else s.mtr.mtime) ∧
          t.mtr.tinvalid = (s.mtr.tinvalid || s.mtr.backupOut) ∧ t.mtr.energy = s.mtr.energy)) ∧
    (s.powered domMtr = false →
      (∃ t, exec .backupExhausted s = .next t ∧ t.mtr.backupOut = true ∧ t.mtr.mtime = s.mtr.mtime) ∧
      (s.mtr.backupOut = false → ∃ t, exec .energySecond s = .next t ∧ t.mtr.mtime = (s.mtr.mtime + 1) % 2 ^ 32 ∧ t.mtr.energy = s.mtr.energy))

/-- R8, R379, R381 to R384, R388, R391, R392, R395, R398: the mailbox, its service, the seals and the billing port. A mailbox command
meets the island as its service leaves it, `s.fresh.mtrService`. -/
def Obligations.MailboxAndBilling : Prop :=
  (∀ (s : State) (req : Requester),
    let u := s.fresh.mtrService
    u.powered domMtr = true → u.mtr.invalid = false → u.mtr.measuring = true →
    let room := u.mtr.queue.length < 16
    let result := fun (t : State) (code res : Nat) => t.fget F.MTR_CMDRES_CODE = code ∧ t.fget F.MTR_CMDRES_RESULT = res ∧
      t.fget F.MTR_CMDRES_REQ = reqCode req ∧ t.mtr = u.mtr
    (∀ n : Fin 8,
      let arg := BitVec.ofNat 8 (n.val + 1)
      (u.mtr.sessOpen.getLsbD n.val = true → ∃ t, exec (.sessStart req arg) s = .next t ∧ result t 1 resOrder) ∧
      (u.mtr.sessOpen.getLsbD n.val = false → ¬room → ∃ t, exec (.sessStart req arg) s = .next t ∧ result t 1 resQueue) ∧
      (u.mtr.sessOpen.getLsbD n.val = false → room →
        ∃ t r, exec (.sessStart req arg) s = .next t ∧ t.mtr.sessOpen.getLsbD n.val = true ∧ t.mtr.sessNum[n] = u.mtr.sessNum[n] + 1 ∧
          t.mtr.queue = u.mtr.queue ++ [⟨req, 1, some r⟩] ∧ r.kind = 2 ∧ r.ch = arg ∧ r.e1 = u.wh (delIdx n) ∧ r.e2 = u.wh (retIdx n)) ∧
      (u.mtr.sessOpen.getLsbD n.val = false → ∃ t, exec (.sessEnd req arg) s = .next t ∧ result t 2 resOrder) ∧
      (u.mtr.sessOpen.getLsbD n.val = true → room →
        ∃ t r, exec (.sessEnd req arg) s = .next t ∧ t.mtr.sessOpen.getLsbD n.val = false ∧
          t.mtr.queue = u.mtr.queue ++ [⟨req, 2, some r⟩] ∧ r.kind = 3 ∧ r.e1 = u.wh (delIdx n) ∧
          r.e3 = u.wh (delIdx n) - (u.mtr.sessE.getD n.val (0, 0)).1)) ∧
    (∀ arg : BitVec 8, arg = 0 ∨ 8 < arg → ∃ t, exec (.sessStart req arg) s = .next t ∧ result t 1 resRange) ∧
    (∀ arg : BitVec 8,
      (8 < arg → ∃ t, exec (.mtrReadout req arg) s = .next t ∧ result t 3 resRange) ∧
      (arg ≤ 8 → room →
        ∃ t r, exec (.mtrReadout req arg) s = .next t ∧ t.mtr.queue = u.mtr.queue ++ [⟨req, 3, some r⟩] ∧ r.kind = 8 ∧ r.ch = arg ∧
          t.mtr.log = u.mtr.log)) ∧
    (u.mtrState = mtrRun →
      (req = .host 2 → u.mtr.coverOpen = true → room →
        ∃ t, exec (.paramEnter req) s = .next t ∧ t.mtrState = mtrParam ∧ t.mtr.pendingP = u.mtr.nextP.getD u.mtr.params) ∧
      (req ≠ .host 2 → ∃ t, exec (.paramEnter req) s = .next t ∧ result t 0x10 resRequester) ∧
      (req = .host 2 → u.mtr.coverOpen = false → ∃ t, exec (.paramEnter req) s = .next t ∧ result t 0x10 resCover) ∧
      (∃ t, exec (.paramExit req) s = .next t ∧ result t 0x11 resState) ∧
      (∃ t, exec (.timeSet req) s = .next t ∧ result t 0x12 resState)) ∧
    (u.mtrState = mtrParam →
      (room → u.mtr.pendingP = u.mtr.nextP.getD u.mtr.params →
        ∃ t, exec (.paramExit req) s = .next t ∧ t.mtrState = mtrRun ∧ t.mtr.psetNum = u.mtr.psetNum) ∧
      (room → u.mtr.pendingP ≠ u.mtr.nextP.getD u.mtr.params →
        ∃ t r, exec (.paramExit req) s = .next t ∧ t.mtrState = mtrRun ∧ t.mtr.psetNum = (u.mtr.psetNum + 1) % 2 ^ 16 ∧
          t.mtr.nextP = some u.mtr.pendingP ∧ t.mtr.params = u.mtr.params ∧
          t.mtr.queue = u.mtr.queue ++ [⟨req, 0x11, some r⟩] ∧ r.kind = 0x12) ∧
      (∀ (target : Int) (ns : Nat), u.mtr.lastPair = some (target, ns) → room → u.mtr.count < u.mtr.pairAt + 120 * 160000000 →
        ∃ t, exec (.timeSet req) s = .next t ∧ t.mtr.mtime = target.toNat % 2 ^ 32 ∧ t.mtr.tinvalid = false) ∧
      (u.mtr.lastPair = none ∨ u.mtr.pairAt + 120 * 160000000 ≤ u.mtr.count →
        ∃ t, exec (.timeSet req) s = .next t ∧ result t 0x12 resTime)) ∧
    (∀ code : BitVec 8, code ∉ [1, 2, 3, 0x10, 0x11, 0x12] →
      ∃ t, exec (.mtrCmdUndefined req code) s = .next t ∧ result t code.toNat resOrder) ∧
    (∀ c rest, u.mtr.queue = c :: rest → s.mtrOn = true → u.mtr.snap = [] → u.mtr.signBad = false → u.mtr.fkey = false →
      ∃ t, exec .mtrCommandExecute s = .next t ∧ t.mtr.queue = rest ∧ t.fget F.MTR_CMDRES_CODE = c.code.toNat ∧
        t.fget F.MTR_CMDRES_RESULT = resOk ∧ (c.code = 3 → t.mtr.log = u.mtr.log) ∧
        ∀ r, c.recd = some r → c.code ≠ 3 → r.seal = false → u.flag F.MTR_STAT_FLOG = false → u.mtr.log.length < 65536 →
          t.mtr.log = u.mtr.log ++ [{ r with rseq := u.mtr.rseq + 1, prev := u.mtr.prevDigest, commit := true }])) ∧
  (∀ (s : State) (req : Requester) (v : Word), s.powered domMtr = true →
    let u := s.fresh.mtrDue
    (∃ t, exec (.pdataWrite req v) s = .next t ∧ t.mtr = { u.mtr with pdata := some (req, v.toNat) } ∧ t.regs = u.regs) ∧
    ∃ t, exec (.lselWrite req v) s = .next t ∧ t.fnext F.MTR_LSEL_SEQ = v.toNat ∧ t.mtr = u.mtr ∧
      (∀ r, u.mtr.log.find? (fun r => r.rseq == v.toNat) = some r → r.corrupt = false →
        (∀ w ∈ recWords v.toNat, eccAt u.ecc w = none) →
        t.mtrService.fget F.MTR_LSTAT_READY = 1 ∧ t.mtrService.fget F.MTR_LSTAT_ABSENT = 0 ∧
          t.mtrService.word (A.MTR_LREC 0) = BitVec.ofNat 32 (ofBytesBE (r.bytes.take 4))) ∧
      (u.mtr.log.find? (fun r => r.rseq == v.toNat) = none →
        t.mtrService.fget F.MTR_LSTAT_READY = 0 ∧ t.mtrService.fget F.MTR_LSTAT_ABSENT = 1)) ∧
  (∀ (s : State) (req : Requester) (v : Nat), s.powered domMtr = true → s.mtr.invalid = false → s.mtr.pdata = some (req, v) →
    (s.live.all fun e => e.1 != A.MTR_LSEL) = true →
    let w := s.mtrService
    let result := fun (res : Nat) => w.fget F.MTR_CMDRES_CODE = 0 ∧ w.fget F.MTR_CMDRES_RESULT = res ∧
      w.fget F.MTR_CMDRES_REQ = reqCode req ∧ w.mtr.pendingP = s.mtr.pendingP
    w.mtr.pdata = none ∧ w.mtr.served = s.ticks / ms ∧
    (s.mtrState ≠ mtrParam → result resState) ∧
    (s.mtrState = mtrParam →
      (req ≠ .host 2 → result resRequester) ∧
      ∀ a : Fin 16, s.fnext F.MTR_PADDR_ADDR = a.val → req = .host 2 →
        (paramOk a.val v = true → w.mtr.pendingP = s.mtr.pendingP.set a v) ∧
        (paramOk a.val v = false → result resRange ∧ (s.powered domSafa = true → w.sticky srcParamRange = true)))) ∧
  ∀ s : State,
    (let quiet := s.mtrOn = true ∧ s.mtr.queue = [] ∧ s.mtr.snap = [] ∧ s.mtr.signBad = false ∧ s.flag F.MTR_STAT_FLOG = false ∧
       s.mtr.log.length < 65535 ∧ s.mtr.seals < 4000
     (s.mtr.coverOpen = false →
       ∃ t, exec .coverOpen s = .next t ∧ t.mtr.coverOpen = true ∧ (s.powered domMtr = true → t.fget F.MTR_STAT_COVER = 1) ∧
         (quiet → ∃ r, t.mtr.log = s.mtr.log ++ [r] ∧ r.kind = 0x10)) ∧
     (s.mtr.coverOpen = true →
       ∃ t, exec .coverClose s = .next t ∧ t.mtr.coverOpen = false ∧ (s.powered domMtr = true → t.fget F.MTR_STAT_COVER = 0) ∧
         (quiet → s.mtrState = mtrParam → t.mtrState = mtrRun) ∧
         (quiet → s.mtrState = mtrRun → ∃ r, t.mtr.log = s.mtr.log ++ [r] ∧ r.kind = 0x11))) ∧
    let reply := fun (fn : BitVec 8) (p : List Byte) => [Out.billing fn p (billFrame s.mtr.busAddr fn p)]
    (s.powered domMtr = true → s.mtr.invalid = false → s.mtr.measuring = true →
      (∃ t p, exec .status s = .next t ∧ t.out = reply 1 p ∧ p.length = 16 ∧ (p.drop 4).take 4 = bytesBE 4 s.mtr.rseq ∧
        (p.drop 8).take 4 = bytesBE 4 s.mtr.mtime ∧ t.mtr = s.mtr) ∧
      (∀ v : Word,
        (s.mtr.log.find? (fun r => r.rseq == v.toNat) = none →
          ∃ t, exec (.readRec v) s = .next t ∧ t.out = reply 0x82 [2] ∧ t.mtr = s.mtr) ∧
        (∀ r, s.mtr.log.find? (fun r => r.rseq == v.toNat) = some r → (∀ w ∈ recWords v.toNat, eccAt s.ecc w = none) →
          ∃ t, exec (.readRec v) s = .next t ∧ t.out = (if r.corrupt then reply 0x82 [3] else reply 2 r.bytes) ∧ t.mtr = s.mtr)) ∧
      (∀ arg : BitVec 8,
        (8 < arg → ∃ t, exec (.billingReadout arg) s = .next t ∧ t.out = reply 0x83 [6]) ∧
        (arg ≤ 8 → 16 ≤ s.mtr.queue.length → ∃ t, exec (.billingReadout arg) s = .next t ∧ t.out = reply 0x83 [4]) ∧
        (arg ≤ 8 → s.mtr.queue.length < 16 → ∃ (t : State) (r : MtrRec), exec (.billingReadout arg) s = .next t ∧ t.out = reply 3 r.bytes ∧
          r.kind = 8 ∧ r.ch = arg ∧ r.rseq = s.mtr.rseq ∧ t.mtr = s.mtr) ∧
        (7 < arg → ∃ t, exec (.readCert arg) s = .next t ∧ t.out = reply 0x84 [6]) ∧
        (arg ≤ 7 → ∃ t, exec (.readCert arg) s = .next t ∧
          t.out = reply 4 (bytesBE 2 Config.certificate.length ++ (Config.certificate.drop (126 * arg.toNat)).take 126))) ∧
      (∀ fn : BitVec 8, ∃ t, exec (.billingUnknownFn fn) s = .next t ∧ t.out = reply (fn ||| 0x80) [1] ∧ t.mtr = s.mtr) ∧
      ∀ f : List Byte, billIn s.mtr.busAddr f = none → exec (.status (some f)) s = .next s.fresh)

/-- R400, R403 to R407, R409 to R417, R420 to R422: demands, lockouts, the reset, output tests, heartbeats and the parameter set. -/
def Obligations.SafeDisconnect : Prop :=
  ∀ s : State,
    let locked := fun (t : State) (code : BitVec 8) => t.safe.a.lockout = true ∧ t.safe.b.lockout = true ∧ t.safe.a.hold = 0x1F ∧
      t.safe.b.hold = 0x1F ∧ t.safe.cause = code ∧ code ∈ t.safe.held ∧ (s.running = true → ∃ q, t.sup.stop = some q ∧ q.safe = true)
    (∀ (si : SafetyInputId) (level : Bool),
      let now := if level then s.safe.si ||| BitVec.twoPow 16 si.val else s.safe.si &&& ~~~BitVec.twoPow 16 si.val
      ∃ t, exec (.safetyInputChange si level) s = .next t ∧ t.safe.si = now ∧
        (s.bOn = true → ∀ f : FuncId,
          (demandOf s.safe.b.rules now f.val = true → t.safe.b.demand.getLsbD f.val = true ∧
            (s.safe.b.demand.getLsbD f.val = false → t.safe.b.lockout = true ∧
              ∀ i < 5, (setAct s.safe.b.rules f.val).testBit i = true → t.safe.b.hold.getLsbD i = true)) ∧
          (demandOf s.safe.b.rules now f.val = false → t.safe.b.demand.getLsbD f.val = false))) ∧
    (∀ (f : FuncId) (n : Nat), s.safe.discAt[f] = some n → discrepantOf s.anyRules s.safe.si f.val = true → (s.aOn = true ∨ s.bOn = true) →
      ∃ t, exec (.discrepancyTimeout f) s = .next t ∧ locked t (if setMode s.anyRules f.val = 3 then causeEdm else causeDisc) ∧
        n + 80000000 * setDisc s.anyRules f.val ≤ t.ticks) ∧
    (s.aOn = true →
      ∃ t, exec .channelACycle s = .next t ∧ t.safe.aSeen = s.safe.si ∧ s.safe.aNext ≤ t.ticks ∧ t.safe.aNext = t.ticks + 2 * ms ∧
        t.safe.req = s.reqMask ∧
        (∀ n < 4, t.safe.hsCmd.getLsbD n = true → t.safe.req.getLsbD n = true ∧ t.safe.a.hold.getLsbD n = false) ∧
        ∀ f : FuncId,
          (demandOf s.safe.a.rules s.safe.si f.val = true → demandOf s.safe.a.rules s.safe.aSeen f.val = true →
            t.safe.a.demand.getLsbD f.val = true) ∧
          (demandOf s.safe.a.rules s.safe.si f.val = false → t.safe.a.demand.getLsbD f.val = false)) ∧
    (∀ liveA liveB : Bool, s.aOn = true → s.bOn = true →
      ∃ t, exec (.channelExchange liveA liveB) s = .next t ∧ t.safe.missA = (if liveA then 0 else s.safe.missA + 1) ∧
        t.safe.missB = (if liveB then 0 else s.safe.missB + 1) ∧
        t.safe.disagree = (if s.safe.a.demand = s.safe.b.demand then 0 else s.safe.disagree + 1) ∧
        (liveB = true → t.safe.a.demand.getLsbD 8 = s.safe.b.demand.getLsbD 8)) ∧
    (∀ c : Channel, s.chanBad c = true → causeChan ∉ s.safe.held →
      ∃ t, exec (.channelFault c) s = .next t ∧ t.safe.cause = causeChan ∧ causeChan ∈ t.safe.held ∧
        (c = .a ∨ 6 ≤ s.safe.disagree → t.safe.a.lockout = true ∧ t.safe.a.hold = 0x1F) ∧
        (c = .b ∨ 6 ≤ s.safe.disagree → t.safe.b.lockout = true ∧ t.safe.b.hold = 0x1F) ∧
        (c = .a → s.safe.disagree < 6 → t.safe.b = s.safe.b) ∧ (c = .b → s.safe.disagree < 6 → t.safe.a = s.safe.a)) ∧
    (∀ a b : Nat,
      let okA := s.aOn && decide (500000 ≤ a ∧ a ≤ 5000000)
      let okB := s.bOn && decide (500000 ≤ b ∧ b ≤ 5000000)
      let clear := decide (s.safe.a.demand ||| s.safe.b.demand = 0) && s.safe.held.all s.causeCleared
      (okA = true → okB = true → clear = true →
        ∃ t, exec (.safeResetEdge a b) s = .next t ∧ t.safe.a.lockout = false ∧ t.safe.b.lockout = false ∧ t.safe.a.hold = 0 ∧ t.safe.b.hold = 0 ∧
          t.safe.cause = 0 ∧ t.safe.held = [] ∧ t.fget F.SUP_MODE_LOCKOUT = (if s.powered domSafa && s.powered domSafb then 0 else 1)) ∧
      (okA = true → okB = true → clear = false →
        ∃ t, exec (.safeResetEdge a b) s = .next t ∧ t.safe = { s.safe with resetSince := none } ∧ t.regs = s.regs) ∧
      (okA = true → okB = true → ∀ gap, 10000 < gap →
        ∃ t, exec (.safeResetEdge a b gap) s = .next t ∧ t.safe = { s.safe with resetSince := none } ∧ t.fget F.SAFE_STAT_RSTDISC = 1) ∧
      (okA ≠ okB → ∃ t, exec (.safeResetEdge a b) s = .next t ∧ t.safe = { s.safe with resetSince := none } ∧ t.fget F.SAFE_STAT_RSTDISC = 1) ∧
      (okA = false → okB = false →
        ∃ t, exec (.safeResetEdge a b) s = .next t ∧ t.safe = { s.safe with resetSince := none } ∧ t.regs = s.regs)) ∧
    (s.aOn = true → s.bOn = true → s.safe.testing = none →
      ∃ t, exec .outputTestSlot s = .next t ∧ t.safe.testing.map (·.val) = some (s.fget F.SAFE_TEST_NEXT % 8) ∧ s.safe.testAt ≤ t.ticks ∧
        t.safe.testAt = t.ticks + 1000 * ms) ∧
    (∀ (i : Fin 8) (nodeOpen : Bool), s.safe.testing = some i →
      ∃ t, exec (.outputTestCheck nodeOpen) s = .next t ∧ t.safe.testing = none ∧
        (s.safe.testVoid = true → t.fget F.SAFE_STAT_VOID = 1 ∧ t.fget F.SAFE_TEST_NEXT = s.fget F.SAFE_TEST_NEXT) ∧
        (s.safe.testVoid = false → t.fget F.SAFE_TEST_NEXT = (i.val + 1) % 8 ∧ t.fget F.SAFE_TEST_LASTPASS = nodeOpen.toNat ∧
          t.safe.testFail.getLsbD i.val = !nodeOpen ∧ (nodeOpen = false → locked t causeTest))) ∧
    (∀ p : LaneId, p.val < 6 → s.hbOn = true →
      (∃ t, exec (.returnedHbLost p) s = .next t ∧ (t.fget F.SAFE_LANE_RETLOST).testBit p.val = true ∧
        (t.fget F.SAFE_LANE_RETOK).testBit p.val = false ∧ t.safe = s.safe) ∧
      (∃ t, exec (.returnedHeartbeat p) s = .next t ∧ (t.fget F.SAFE_LANE_RETOK).testBit p.val = true ∧ t.safe = s.safe)) ∧
    (∀ p : LaneId, p.val ≠ 6 → s.bOn = true → s.hbOn = false →
      ∃ t, exec (.laneLive p) s = .next t ∧ t.safe.liveAt = some s.ticks ∧ (t.fget F.SAFE_LANE_RETOK).testBit p.val = true ∧
        (causeLaneLive ∉ s.safe.held → locked t causeLaneLive)) ∧
    (s.bOn = true →
      (∃ t, exec .peerHeartbeatLost s = .next t ∧ (t.fget F.SAFE_LANE_RETLOST).testBit 7 = true ∧
        (setPeerHb s.safe.b.rules = 1 → t.safe.b.demand.getLsbD 8 = true) ∧ (setPeerHb s.safe.b.rules ≠ 1 → t.safe = s.safe)) ∧
      (∃ t, exec (.returnedHeartbeat 7) s = .next t ∧ (t.fget F.SAFE_LANE_RETOK).testBit 7 = true ∧ t.safe.b.demand.getLsbD 8 = false)) ∧
    (∀ (c : Channel) (passed : Bool),
      let k := match c with | .a => s.safe.a | .b => s.safe.b
      s.powered (match c with | .a => domSafa | .b => domSafb) = true → k.started = false →
      ∃ t, exec (.safeStartupDone c passed) s = .next t ∧ (match c with | .a => t.safe.a | .b => t.safe.b).started = true ∧
        (passed = false → causeSelftest ∈ t.safe.held) ∧ (passed = true → s.setBad k = true → causePset ∈ t.safe.held)) ∧
    (∀ q : Dgram, hostReady s q → q.port = 2 →
      (∀ set : List Byte, set.length = 512 → s.pwr = pwrStopped → s.flag F.SUP_MODE_UPD = false → s.powered domSafa = true →
        s.powered domSafb = true →
        (setValid set = true →
          ∃ t, exec (.safeLoad q set) s = .next t ∧ answered t q 0x50 stOk [] ∧ t.safe.a.set = some set ∧ t.safe.b.set = some set ∧
            t.safe.sealed = false ∧ t.safe.a.lockout = true ∧ t.safe.b.lockout = true ∧ t.safe.a.hold = 0x1F ∧ t.safe.b.hold = 0x1F ∧
            causePset ∈ t.safe.held ∧
            ((∀ f : FuncId, demandOf t.safe.b.rules s.safe.si f.val = false) → t.safe.cause = causePset) ∧
            (s.bOn = true → ∀ f : FuncId, t.safe.b.demand.getLsbD f.val = demandOf t.safe.b.rules s.safe.si f.val)) ∧
        (setValid set = false → ∃ t, exec (.safeLoad q set) s = .next t ∧ answered t q 0x50 stRefused [] ∧ t.safe = s.safe)) ∧
      (∀ set : List Byte, set.length = 512 → s.pwr ≠ pwrStopped →
        ∃ t, exec (.safeLoad q set) s = .next t ∧ answered t q 0x50 stState [] ∧ t.safe = s.safe) ∧
      (∀ (set : List Byte) (check : Word), s.safe.a.set = some set → s.powered domSafa = true → s.powered domSafb = true →
        (check = setCrcField set → s.word A.SAFE_CRCA = check → s.word A.SAFE_CRCB = check →
          ∃ t, exec (.safeConfirm q check) s = .next t ∧ answered t q 0x51 stOk [] ∧ t.safe = { s.safe with sealed := true }) ∧
        (s.word A.SAFE_CRCB ≠ check →
          ∃ t, exec (.safeConfirm q check) s = .next t ∧ answered t q 0x51 stRefused [] ∧ t.safe = s.safe)))

/-- R425 to R433, R439, R440, R443, R444, R446 to R448, R450 to R453, R455 to R457: the collector, memory upkeep, the log and the
thermal supervisor. -/
def Obligations.FaultsMemoryThermal : Prop :=
  ∀ s : State, s.powered domSafa = true →
    (∀ src : SourceId, connected src.val = true →
      (s.sticky src.val = true → ∃ t, exec (.faultEvent src) s = .next t ∧ t.regs = s.regs ∧ t.sup = s.sup ∧ t.memory = s.memory) ∧
      (s.sticky src.val = false →
        ∃ t, exec (.faultEvent src) s = .next t ∧ t.sticky src.val = true ∧ t.flag F.FLT_FIRST_VALID = true ∧ t.mem = s.mem ∧
          (s.flag F.FLT_FIRST_VALID = false → t.fget F.FLT_FIRST_SRC = src.val) ∧
          (s.flag F.FLT_FIRST_VALID = true → t.fget F.FLT_FIRST_SRC = s.fget F.FLT_FIRST_SRC) ∧
          ((s.reaction src.val).getLsbD 0 = true → t.fget F.FLT_PIN_LEVEL = 0 ∧ t.fget F.FLT_PIN_PULSE = 1 ∧ t.flt.pulseEnd = s.ticks + 40000) ∧
          ((s.reaction src.val).getLsbD 1 = true → s.running = true → ∃ q, t.sup.stop = some q ∧ q.safe = true))) ∧
    (s.flag F.FLT_PIN_PULSE = true →
      ∃ t, exec .pinPulseEnd s = .next t ∧ t.fget F.FLT_PIN_PULSE = 0 ∧ s.flt.pulseEnd ≤ t.ticks ∧
        t.fget F.FLT_PIN_LEVEL = (if s.flag F.FLT_PIN_HOLD || s.flag F.FLT_SELF_FAULT then 0 else 1)) ∧
    (∀ (req : Requester) (v : Word),
      (writeFree s A.FLT_PIN v →
        ∃ t, exec (.pinHoldWrite req v) s = .next t ∧ t.fget F.FLT_PIN_HOLD = v.toNat % 2 ∧
          t.fget F.FLT_PIN_LEVEL = (if s.flag F.FLT_PIN_PULSE then s.fget F.FLT_PIN_LEVEL
            else if v.toNat % 2 = 1 ∨ s.flag F.FLT_SELF_FAULT = true then 0 else 1)) ∧
      (writeFree s A.FLT_SWSET v → ∃ t, exec (.swset req v) s = .next t ∧ ∀ k < 8, v.getLsbD k = true → t.sticky (376 + k) = true) ∧
      (writeFree s A.FLT_SELF 0x80000000 →
        ∃ t, exec (.selfFaultClear req) s = .next t ∧
          t.fget F.FLT_SELF_FAULT = (if (s.pwr = pwrStopped ∨ s.pwr = pwrSafeStop) ∧ s.mismatch = false then 0 else s.fget F.FLT_SELF_FAULT)) ∧
      (writeFree s A.MEM_CTRL v →
        (s.flag F.MEM_STAT_INIT = true →
          ∃ t, exec (.memModeWrite req v) s = .next t ∧ Out.refusal req (BitVec.ofNat 8 refOrder) ∈ t.out ∧ t.mem = s.mem) ∧
        (s.flag F.MEM_STAT_INIT = false → s.powered domCore = true → s.fget F.MEM_CTRL_MODE ≠ v.toNat % 2 →
          ∃ t, exec (.memModeWrite req v) s = .next t ∧ t.fget F.MEM_CTRL_MODE = v.toNat % 2 ∧ t.fget F.MEM_STAT_INIT = 1 ∧
            ∀ a, t.byte a = if a < 0x800000 then 0 else s.byte a)) ∧
      (writeFree s A.THERM_LIMIT v →
        ∃ t, exec (.thermLimitWrite req v) s = .next t ∧ t.nextWord A.THERM_LIMIT &&& 0xFFFFFF = v &&& 0xFFFFFF ∧
          t.word A.THERM_LIMIT = s.word A.THERM_LIMIT) ∧
      (s.powered (regDomain A.THERM_LIMIT) = true → limitBad (s.word A.THERM_LIMIT) v = true →
        ∃ t, exec (.thermLimitWrite req v) s = .next t ∧ t.live = s.live ∧ t.word A.THERM_LIMIT = s.word A.THERM_LIMIT ∧
          t.sticky srcParamRange = true)) ∧
    (∀ item : BitVec 8, selfItem item.toNat = true →
      ∃ t, exec (.collectorSelfFault item) s = .next t ∧ t.fget F.FLT_SELF_FAULT = 1 ∧ t.fget F.FLT_SELF_WORD = item.toNat ∧
        t.fget F.FLT_PIN_LEVEL = 0 ∧ t.sticky srcFltSelf = true ∧ (s.running = true → ∃ q, t.sup.stop = some q ∧ q.safe = true)) ∧
    (∀ addr, addr ∈ s.memory.wb →
      ∃ t, exec (.ceWriteback addr) s = .next t ∧ addr ∉ t.memory.wb ∧ t.mem = s.mem ∧
        (eccAt s.ecc addr = some .ce → eccAt t.ecc addr = none) ∧ (eccAt s.ecc addr ≠ some .ce → t.ecc = s.ecc)) ∧
    (∀ (m : MemKind) (addr : Nat), s.memAlive m = true → memOf addr = some m → (m = .sram → addr < s.sramSize) →
      let w := s.checkWord addr
      ∃ t, exec (.scrubRead m addr) s = .next t ∧ t.mem = s.mem ∧
        (eccAt s.ecc w ≠ some .ue ∨ w < 0x11600000 ∨ 0x12000000 ≤ w → t.ecc = s.ecc) ∧
        (eccAt s.ecc w = none → t.memory = s.memory) ∧
        (eccAt s.ecc w = some .ce → w ∈ t.memory.wb) ∧
        (eccAt s.ecc w = some .ue → t.fget F.MEM_UEADDR_ADDR = w ∧ t.fget F.MEM_UESRC_REQ = 0x26 ∧ t.fget F.MEM_UESRC_MEM = memCode m)) ∧
    (∀ m : MemKind, s.memAlive m = true →
      ∃ t, exec (.scrubSlow m) s = .next t ∧ (t.fget F.MEM_STAT_SLOW).testBit (memCode m) = true ∧ t.sticky srcScrubSlow = true) ∧
    (∀ byte, s.memory.initTo = some byte →
      ∃ t, exec .memInitDone s = .next t ∧ t.fget F.MEM_STAT_INIT = 0 ∧ t.fget F.SUP_MODE_MEM = byte.toNat ∧ t.memory.initTo = none) ∧
    (∀ e : LogEntry,
      (s.memory.buf.length < 1024 →
        ∃ t, exec (.logEnqueue e) s = .next t ∧ t.memory.buf = s.memory.buf ++ [e] ∧ t.fget F.MEM_LOG_LEVEL = s.memory.buf.length + 1) ∧
      (s.memory.buf.length = 1024 → ∃ t, exec (.logEnqueue e) s = .next t ∧ t.memory.buf.length = 1024)) ∧
    (∀ (e : LogEntry) (rest : List LogEntry), s.memory.buf = e :: rest → s.sup.shutdown = false → s.memory.pos < 65536 →
      let a := 0x11000000 + 64 * s.memory.pos
      let n := (s.fget F.MEM_LSEQ_SEQ + 1) % 2 ^ 32
      ∃ t, exec .logRecordWrite s = .next t ∧ t.memory.buf = rest ∧ t.fget F.MEM_LSEQ_SEQ = n ∧ t.memory.pos = (s.memory.pos + 1) % 65536 ∧
        ((∀ w ∈ s.checkWords a 64, eccAt s.ecc w = none) →
          ∀ b, t.byte b = if a ≤ b ∧ b < a + 64 then (logBytes e n).getD (b - a) 0 else s.byte b)) ∧
    ((s.logWritten = [] → ∃ t, exec .logScan s = .next t ∧ t.memory.pos = 0 ∧ t.fget F.MEM_LSEQ_SEQ = 0 ∧ t.mem = s.mem) ∧
      ∀ p q, s.logWritten = [p] → s.logValid p = some q → (∀ w ∈ s.checkWords (logAddr p) 64, eccAt s.ecc w ≠ some .ue) →
        ∃ t, exec .logScan s = .next t ∧ t.memory.pos = (p + 1) % 65536 ∧ t.fget F.MEM_LSEQ_SEQ = q ∧ t.mem = s.mem) ∧
    (∀ (n : SensorId) (reading : Option Int), s.sup.shutdown = false → s.live = [] →
      ∃ t, exec (.thermalSample n reading) s = .next t ∧
        (usable reading = none → t.fget (F.THERM_T_TEMP n) = 0x8000 ∧ (t.fget F.THERM_STAT_FAILED).testBit n.val = true) ∧
        (∀ v, usable reading = some v → t.fgetI (F.THERM_T_TEMP n) = v ∧ (t.fget F.THERM_STAT_FAILED).testBit n.val = false ∧
          (16 * (s.fget F.THERM_LIMIT_SHUT : Int) ≤ v → t.sup.shutdown = true)) ∧
        (t.sup.shutdown = false → t.fget F.THERM_STAT_STATE = t.fget F.SUP_MODE_THERM))

/-- R464 to R483, R505: authentication, counters, sessions, and the commands that read and write registers, memory and core stores. -/
def Obligations.HostProtocol : Prop :=
  ∀ (s : State) (q : Dgram),
    (∀ h : HostPort, s.portUp h = true →
      ∃ t, exec (.authFailure h) s = .next t ∧ t.fget (F.HOST_PCNT_AUTH h) = min (s.fget (F.HOST_PCNT_AUTH h) + 1) (2 ^ (F.HOST_PCNT_AUTH h).width - 1) ∧
        (t.fget F.HOST_STAT_AUTHF).testBit h.val = true ∧ t.mem = s.mem ∧ (t.host[h]).session = (s.host[h]).session) ∧
    (∀ h : HostPort, ∃ t, exec (.malformedDatagram h) s = .next t ∧ t = { s with out := [] }) ∧
    (s.portUp q.port = true → (s.host[q.port]).key.isSome = true → q.ctr ≤ (s.host[q.port]).ctr → ∀ same : Bool,
      (∀ r, (s.host[q.port]).reply = some r → same = true → q.ctr = (s.host[q.port]).ctr →
        ∃ t, exec (.replayReject q same) s = .next t ∧ (∃ d, Out.reply q.port q.ip q.udp r d ∈ t.out) ∧ t.regs = s.regs) ∧
      (same = false ∨ q.ctr ≠ (s.host[q.port]).ctr →
        ∃ t, exec (.replayReject q same) s = .next t ∧
          t.fget (F.HOST_PCNT_REPLAY q.port) = min (s.fget (F.HOST_PCNT_REPLAY q.port) + 1) (2 ^ (F.HOST_PCNT_REPLAY q.port).width - 1) ∧
          (s.powered domSafa = true → t.sticky srcHostReplay = true))) ∧
    (s.portUp q.port = true → (s.host[q.port]).key.isSome = true → (s.host[q.port]).ctr < q.ctr → s.inLoader = false →
      (∀ id, (s.host[q.port]).session = some id → id ≠ (q.ip, q.udp) →
        ∃ t, exec (.hello q) s = .next t ∧ answered t q 0x01 stBusy [] ∧ (t.host[q.port]).session = some id) ∧
      ((∀ id, (s.host[q.port]).session = some id → id = (q.ip, q.udp)) →
        ∃ t, exec (.hello q) s = .next t ∧ answered t q 0x01 stOk [0x18640, s.word A.UPD_RUNVER, BitVec.ofNat 32 q.port.val] ∧
          (t.host[q.port]).session = some (q.ip, q.udp) ∧ (t.host[q.port]).ctr = q.ctr ∧ (t.host[q.port]).lastReq = s.ticks ∧
          (t.fget F.HOST_STAT_SESS).testBit q.port.val = true)) ∧
    (hostReady s q →
      (∃ t, exec (.bye q) s = .next t ∧ answered t q 0x02 stOk [] ∧ (t.host[q.port]).session = none ∧
        (t.fget F.HOST_STAT_SESS).testBit q.port.val = false) ∧
      (∀ cmd, ∃ t, exec (.unknownCommand q cmd) s = .next t ∧ answered t q cmd stBadCmd [] ∧ t.mem = s.mem ∧ t.cores = s.cores ∧ (t.host[q.port]).ctr = q.ctr) ∧
      (∀ a n, n = 0 ∨ 256 < n → ∃ t, exec (.regRead q a n) s = .next t ∧ answered t q 0x10 stBadLen []) ∧
      (∀ a, findReg a = none → ∃ t, exec (.regRead q a 1) s = .next t ∧ answered t q 0x10 stBusErr [BitVec.ofNat 32 a]) ∧
      (∀ a, readable (accepted s q) a → (accepted s q).readEffect a = none → (accepted s q).computed (.host q.port) a = none →
        ∃ t, exec (.regRead q a 1) s = .next t ∧ answered t q 0x10 stOk [(accepted s q).word a]) ∧
      (∀ a v, findReg a = none → ∃ t, exec (.regWrite q [(a, v)]) s = .next t ∧ answered t q 0x11 stBusErr [BitVec.ofNat 32 a] ∧ t.mem = s.mem) ∧
      (∀ a v r i, findReg a = some (r, i) → writeFree (accepted s q) a v → (accepted s q).writeEffect (.host q.port) false a r v = none →
        ∃ t, exec (.regWrite q [(a, v)]) s = .next t ∧ answered t q 0x11 stOk [1, 0] ∧ t.mem = s.mem ∧
          ∀ j < 32, (r.mask (· == .rw)).getLsbD j = true → (t.nextWord a).getLsbD j = v.getLsbD j) ∧
      (∀ a, a % 4 = 0 →
        (s.memReadable a 4 = true → (∀ w ∈ s.checkWords a 4, eccAt s.ecc w = none) →
          ∃ t, exec (.memRead q a 4) s = .next t ∧ answered t q 0x12 stOk [BitVec.ofNat 32 (s.peek a 4)] ∧ t.mem = s.mem) ∧
        (memOf a = none → ∃ t, exec (.memRead q a 4) s = .next t ∧ answered t q 0x12 stBusErr [BitVec.ofNat 32 a])) ∧
      (∀ (a : Nat) (data : List Byte), a % 4 = 0 → data.length = 4 →
        (inScriptStore a 4 = true → s.pwr ≠ pwrStopped →
          ∃ t, exec (.memWrite q a data) s = .next t ∧ answered t q 0x13 stState [] ∧ t.mem = s.mem) ∧
        (0x10000000 ≤ a → a < 0x10800000 →
          ∃ t, exec (.memWrite q a data) s = .next t ∧ answered t q 0x13 stBusErr [BitVec.ofNat 32 a] ∧ t.mem = s.mem) ∧
        (inScriptStore a 4 = false ∨ s.pwr = pwrStopped → s.memWritable a 4 = true → (∀ w ∈ s.checkWords a 4, eccAt s.ecc w = none) →
          ∃ t, exec (.memWrite q a data) s = .next t ∧ answered t q 0x13 stOk [] ∧
            ∀ b, t.byte b = if a ≤ b ∧ b < a + 4 then data.getD (b - a) 0 else s.byte b)) ∧
      (∀ (n : CoreId) (word : Nat) (v : Word), word ≤ 16383 → s.powered domCore = true →
        (s.coreState n = coreHalted →
          ∃ t, exec (.coreLoad q (BitVec.ofNat 8 n.val) 0 word [v]) s = .next t ∧ answered t q 0x18 stOk [] ∧ (t.cores[n]).iword (4 * word) = v) ∧
        (s.coreState n ≠ coreHalted →
          ∃ t, exec (.coreLoad q (BitVec.ofNat 8 n.val) 0 word [v]) s = .next t ∧
            answered t q 0x18 stBusErr [BitVec.ofNat 32 (A.CORE_LDATA n)] ∧ t.cores = s.cores))) ∧
    (∀ h : HostPort, s.powered domHost = true →
      (∀ id, (s.host[h]).session = some id →
        ∃ t, exec (.sessionTimeout h) s = .next t ∧ (t.host[h]).session = none ∧ (t.fget F.HOST_STAT_SESS).testBit h.val = false ∧
          (s.host[h]).lastReq + s.fget F.HOST_CTRL_SESSTMO * sec ≤ t.ticks) ∧
      ((s.fget F.HOST_STAT_LINK).testBit h.val = true →
        ∃ t, exec (.hostLinkDown h) s = .next t ∧ (t.fget F.HOST_STAT_LINK).testBit h.val = false ∧ (t.host[h]).session = none) ∧
      (∃ t, exec (.hostLinkUp h) s = .next t ∧ (t.fget F.HOST_STAT_LINK).testBit h.val = true)) ∧
    (∀ key : List Byte, key.length = 32 → s.inLoader = false →
      (s.portUp 2 = true → q.port = 2 → (s.host[(2 : Fin 3)]).ctr < q.ctr → s.pwr = pwrStopped → ∀ n, s.safe.resetSince = some n →
        n + 6000 * ms ≤ s.ticks →
        ∃ t, exec (.keyInit q key) s = .next t ∧ answered t q 0x60 stOk [] ∧ (t.host[(2 : Fin 3)]).key = some key ∧
          (t.host[(0 : Fin 3)]).key = none ∧ (t.host[(1 : Fin 3)]).key = none) ∧
      (hostReady s q → q.port = 2 → ∀ k : HostPort, k.val < 2 →
        (s.pwr = pwrStopped →
          ∃ t, exec (.keySet q (BitVec.ofNat 8 k.val) key) s = .next t ∧ answered t q 0x61 stOk [] ∧ (t.host[k]).key = some key ∧ (t.host[k]).ctr = 0) ∧
        (s.pwr ≠ pwrStopped →
          ∃ t, exec (.keySet q (BitVec.ofNat 8 k.val) key) s = .next t ∧ answered t q 0x61 stState [] ∧ (t.host[k]).key = (s.host[k]).key)))

/-- R484, R485, R488 to R496, R499 to R503: field update, the loader, the resident configuration, and streaming on P6. -/
def Obligations.UpdateAndStreaming : Prop :=
  ∀ s : State,
    (∀ q : Dgram, hostReady s q →
      (∀ slate : List Byte, slate.length = 128 →
        (s.pwr ≠ pwrStopped → ∃ t, exec (.updOpen q slate) s = .next t ∧ answered t q 0x40 stState [] ∧ t.upd = s.upd) ∧
        (∀ h, s.pwr = pwrStopped → s.upd.lock = some h → h ≠ q.port →
          ∃ t, exec (.updOpen q slate) s = .next t ∧ answered t q 0x40 stBusy [BitVec.ofNat 32 h.val] ∧ t.upd = s.upd) ∧
        (s.pwr = pwrStopped → s.upd.lock = none →
          ∃ t, exec (.updOpen q slate) s = .next t ∧
            (slateOk slate = true → answered t q 0x40 stOk [BitVec.ofNat 32 q.port.val] ∧ t.upd.lock = some q.port ∧
              t.fget F.SUP_MODE_UPD = 1 ∧ t.upd.slate = slate) ∧
            (slateOk slate = false → answered t q 0x40 stSignature [] ∧ t.upd = s.upd))) ∧
      (s.holdsLock q = false → ∀ offset data, 8 ≤ data.length → data.length ≤ 1024 → data.length % 8 = 0 →
        ∃ t, exec (.updBlock q offset data) s = .next t ∧ answered t q 0x41 stState [] ∧ t.mem = s.mem) ∧
      (s.holdsLock q = true →
        (∀ offset data, 8 ≤ data.length → data.length ≤ 1024 → data.length % 8 = 0 → offset % 8 = 0 → s.upd.wrote = true →
          offset + data.length ≤ slateLength s.upd.slate → s.memReadable (bodyAddr + offset) data.length = true →
          ∃ t, exec (.updBlock q offset data) s = .next t ∧ answered t q 0x41 stOk [] ∧ t.fget F.UPD_STAT_VERIFIED = 0 ∧
            t.upd.bytes = s.upd.bytes + data.length ∧ t.upd.since = s.ticks ∧
            ∀ b, t.byte b = if bodyAddr + offset ≤ b ∧ b < bodyAddr + offset + data.length then data.getD (b - (bodyAddr + offset)) 0 else s.byte b) ∧
        (∃ t, exec (.updVerify q) s = .next t ∧ t.mem = s.mem ∧
          (((accepted s q).bodyDigestOk s.upd.slate).1 = true → t.fget F.UPD_STAT_VERIFIED = 1 ∧ answered t q 0x42 stOk []) ∧
          (((accepted s q).bodyDigestOk s.upd.slate).1 = false → t.fget F.UPD_STAT_VERIFIED = 0 ∧ answered t q 0x42 stVerify [])) ∧
        (s.flag F.UPD_STAT_VERIFIED = true →
          ∃ t, exec (.updActivate q) s = .next t ∧ answered t q 0x43 stOk [] ∧ t.upd.lock = none ∧ t.upd.restart = true ∧
            t.fget F.UPD_STAT_STATE = slValid ∧ t.fget F.UPD_STAT_BOOTS = 0) ∧
        (s.flag F.UPD_STAT_VERIFIED = false → ∃ t, exec (.updActivate q) s = .next t ∧ answered t q 0x43 stState [] ∧ t.upd = s.upd) ∧
        (∃ t, exec (.updClose q) s = .next t ∧ answered t q 0x45 stOk [] ∧ t.upd.lock = none ∧
          t.fget F.SUP_MODE_UPD = if s.upd.validAt.isSome then 1 else 0)) ∧
      (∀ n, s.upd.validAt = some n → s.ticks ≤ n + 120 * sec →
        ∃ t, exec (.updConfirm q) s = .next t ∧ answered t q 0x44 stOk [] ∧ t.upd.validAt = none ∧ t.fget F.UPD_STAT_STATE = slConfirmed) ∧
      (s.upd.validAt = none → ∃ t, exec (.updConfirm q) s = .next t ∧ answered t q 0x44 stState [] ∧ t.upd = s.upd)) ∧
    (s.powered domHost = true →
      (∀ h, s.upd.lock = some h →
        ∃ t, exec .updLapse s = .next t ∧ t.upd.lock = none ∧ s.upd.since + 60 * sec < t.ticks ∧ t.fget F.UPD_STAT_LOCK = 0) ∧
      (s.powered domAon = true → s.upd.restart = true → ∃ t, exec .activationRestart s = .next t ∧ t.fget F.SUP_STAT_LASTRST = 2) ∧
      (∀ n, s.powered domAon = true → s.upd.validAt = some n →
        ∃ t, exec .updUnconf s = .next t ∧ n + 120 * sec < t.ticks ∧ t.fget F.SUP_STAT_LASTRST = 2) ∧
      (∀ st boots, s.inLoader = true → s.sup.loaderHold = false → (s.fresh.slState).1 = (st, boots) →
        (st = slValid → 3 ≤ boots →
          ∃ t, exec .loaderStart s = .next t ∧ t.fget F.UPD_STAT_STATE = slRejected ∧ t.sup.loaderHold = true ∧ t.inLoader = true) ∧
        (st ≠ slValid → st ≠ slConfirmed →
          ∃ t, exec .loaderStart s = .next t ∧ t.fget F.UPD_STAT_STATE = st ∧ t.sup.loaderHold = true ∧ t.inLoader = true ∧ t.mem = s.mem)) ∧
      (s.inLoader = false → s.sup.configDone = false → s.pwr = pwrStopped → (∀ n : CoreId, s.coreState n = coreHalted) →
        ∃ t, exec .residentConfigApply s = .next t ∧ t.sup.configDone = true ∧
          (s.memReadable storeAddr 16 = true → (∀ w ∈ s.checkWords storeAddr 16, eccAt s.ecc w = none) → s.peek storeAddr 4 ≠ 0x54534E5A →
            t.mem = s.mem ∧ t.cores = s.cores ∧ t.live = s.live))) ∧
    (∀ src : StreamSrc, s.powered domHost = true → s.powered domStrm = true → s.powered domDram = true → s.oscStopped = false → s.liveOn src = true →
      (s.strmUsed + 1024 ≤ 0x8000000 →
        ∃ t, exec (.streamLivePacket src) s = .next t ∧ t.pseqOf (srcCode src) = s.pseqOf (srcCode src) + 1 ∧
          t.strm.buf = s.strm.buf ++ [⟨BitVec.ofNat 8 (srcCode src), 4, s.pseqOf (srcCode src) % 2 ^ 24⟩]) ∧
      (0x8000000 < s.strmUsed + 1024 →
        ∃ t, exec (.streamLivePacket src) s = .next t ∧ t.strm = s.strm ∧ t.fget F.HOST_SSTAT_OVF = 1)) ∧
    (s.isTrained 6 = true →
      (∀ p rest, s.strm.buf = p :: rest → s.oscStopped = false →
        (s.mayStream p.lenc = true →
          ∃ t, exec .streamPacketSend s = .next t ∧ t.out = [Out.packet p] ∧ t.strm.buf = rest ∧ t.strm.sent = (s.strm.sent + p.lenc) % 2 ^ 32) ∧
        (s.mayStream p.lenc = false → ∃ t, exec .streamPacketSend s = .next t ∧ t.out = [] ∧ t.strm = s.strm)) ∧
      (∀ (bs : List LineBlock) (cum : Word), (s.laneIn 6 .l0 bs).2 = [[ctlBlock typCredit (fieldsOf [(8, cum.toNat)])]] →
        let d := (cum - BitVec.ofNat 32 s.strm.sent).toInt
        (d ≤ 2 ^ 20 → ∃ t, exec (.credit bs) s = .next t ∧ t.strm = { s.strm with cum := cum.toNat } ∧
          (s.powered domHost = true → t.fget F.HOST_SCRED_AVAIL = d.toNat)) ∧
        (2 ^ 20 < d → s.powered domHost = true → ∃ t, exec (.credit bs) s = .next t ∧ t.strm = s.strm ∧ t.fget F.HOST_SSTAT_CREDERR = 1))) ∧
    (∀ (req : Requester) (u : CaptId), s.powered domHost = true →
      (s.captState u = captDone → s.fget F.HOST_SSTAT_RDSTATE ≠ rdRun → s.powered domDram = true →
        ∃ t, exec (.rushesReadoutGo req u) s = .next t ∧ t.fget F.HOST_SSTAT_RDSTATE = rdRun ∧ t.strm.unit = u ∧
          t.strm.left = (s.fget (F.CAPT_NPRE_COUNT u) + s.fget (F.CAPT_POST_COUNT u)) * (4 * (s.captChans u).length)) ∧
      (s.captState u ≠ captDone → ∃ t, exec (.rushesReadoutGo req u) s = .next t ∧ t.fget F.HOST_SSTAT_CFGERR = 1 ∧ t.strm = s.strm) ∧
      (s.fget F.HOST_SSTAT_RDSTATE = rdRun →
        (∃ t, exec (.rushesReadoutAbort req) s = .next t ∧ t.fget F.HOST_SSTAT_RDSTATE = rdHalted ∧ t.strm.left = 0) ∧
        (s.strm.left = 0 → ∃ t, exec .readoutDone s = .next t ∧ t.fget F.HOST_SSTAT_RDSTATE = rdDone)))

/-- A step takes the command at the front of the queue and runs it on the state with the queue's rest; with nothing waiting, one
cycle of 32 ticks passes and the queue stays empty (the model's choice, log entry 18). -/
def Obligations.StepRunsFront : Prop :=
  (∀ (s : State) (c : Instr) (rest : List Instr), step { s with pending := c :: rest } = exec c { s with pending := rest }) ∧
  ∀ s : State, s.pending = [] → ∃ t, step s = .next t ∧ t.pending = [] ∧ t.ticks = s.ticks + 32 ∧ t.mem = s.mem ∧ t.cores = s.cores

/-- What reset leaves: only AON is powered, the power stage is STOPPED, memory protection is BYTE, no time reference has been found,
the update axis shows no session, both safety channels are in lockout; memory and register file are in canonical form. -/
def Obligations.ResetValues : Prop :=
  State.reset.pending = [] ∧ (∀ d < 12, State.reset.powered d = decide (d = domAon)) ∧ State.reset.pwr = pwrStopped ∧
  State.reset.fget F.SUP_MODE_MEM = 1 ∧ State.reset.tsrc = tsrcFree ∧ State.reset.fget F.SUP_MODE_UPD = 0 ∧ State.reset.lockout = true ∧
  State.reset.fget F.CORE_PERIOD_PERIOD = 3125 ∧ State.reset.fget F.BRG_PER_PER = 12500 ∧ State.reset.fget F.SUP_MODE_LOCKOUT = 1 ∧
  (∀ n : CoreId, State.reset.coreState n = coreHalted) ∧ Memory.wf State.reset.mem = true ∧ regsWf State.reset.regs = true

/-- Every step keeps memory and the register file in canonical form, never turns time back, and takes from the queue the one command
that it runs. -/
def Obligations.StepKeepsForm : Prop :=
  ∀ s t : State, step s = .next t → Memory.wf s.mem = true → regsWf s.regs = true →
    Memory.wf t.mem = true ∧ regsWf t.regs = true ∧ s.ticks ≤ t.ticks ∧ t.pending = s.pending.tail

/-- R423, R372: of all commands, only SAFE_LOAD and SAFE_CONFIRM change the safety parameter set, and only the end of a second of
measurement changes an energy register. -/
def Obligations.SealedState : Prop :=
  ∀ (c : Instr) (s t : State), exec c s = .next t →
    ((∀ q set, c ≠ .safeLoad q set) → (∀ q check, c ≠ .safeConfirm q check) →
      t.safe.a.set = s.safe.a.set ∧ t.safe.b.set = s.safe.b.set ∧ t.safe.sealed = s.safe.sealed) ∧
    (c ≠ .energySecond → t.mtr.energy = s.mtr.energy)

/-- What the units' own events and commands leave: every register outside the blocks named, all of memory, the script cores and the
takes, but for the boundary that a take waits for. The start of a PWM period leaves the same of what the takes due by it have made. -/
def Obligations.UnitFrame : Prop :=
  (∀ (c : Instr) (bs : List Nat) (s t : State), ownBlocks c = some bs → exec c s = .next t →
    (∀ a, blockOf a ∉ bs → t.word a = s.word a) ∧ (∀ a, t.byte a = s.byte a) ∧ t.cores = s.cores ∧
    ∀ h : HandleId, { t.takes[h] with instant := (s.takes[h]).instant } = s.takes[h]) ∧
  ∀ s t : State, (s.powered domAnlg && s.brg.running && !s.oscStopped) = true → exec .pwmPeriodStart s = .next t →
    let u := s.fresh.takesUpTo s.nextPwm
    (∀ a, blockOf a ∉ [7, 8, 11, 12, 13] → t.word a = u.word a) ∧ (∀ a, t.byte a = u.byte a) ∧ t.cores = u.cores ∧ t.takes = u.takes

/-- R199 to R202, R231 to R236, R366: what a transmitter puts on a lane comes out of the receiver's descrambler as it was; a control
block carries its fields under a good CRC-8, and a CRC-8 that differs is found; a cell's frame, sent at any positions of L1 but 0,
is the one frame received, passes its CRC-16, and names its cell and what it carries. -/
def Obligations.FrameRoundTrip : Prop :=
  (∀ (h : BitVec 58) (bs : List LaneBlock), unline h (lineBlocks h bs).1 = (bs, 0, (lineBlocks h bs).2)) ∧
  (∀ typ fields : Nat, typ < 256 → fields < 2 ^ 48 →
    blockType (ctlBlock typ fields) = typ ∧ bitsOf (ctlBlock typ fields) 8 48 = fields ∧
    (∀ lists, ctlOk lists (ctlBlock typ fields) = (lists (ctlBlock typ fields)).isSome) ∧
    ∀ lists (e : BitVec 8), e ≠ 0 → ctlOk lists (ctlBlock typ fields ^^^ e.setWidth 64 <<< 56) = false) ∧
  ∀ (x : RingId) (k : CellId) (h : BitVec 58) (pos : Nat) (m : CellMsg), 0 < pos →
    let f := CellMsg.frame x k m
    let laid : List LaneBlock := f.zipIdx.map fun b => ⟨pos + b.2, b.2 == 0, b.1⟩
    f ≠ [] →
    frameOk f = true ∧ laneFrames blockData .l1 (unline h (lineBlocks h laid).1).1 = ([f], false) ∧
    carries x k f m
end

