-- ==== Sys2Proof/Laws/Sparse.lean ====
section
/-!
SUPPORT. Laws of sparse maps: a value set is the value read, another address reads as before, and every operation keeps
the canonical form.
-/

namespace Sys2Proof.Machine

set_option linter.all false

variable {α : Type} [DecidableEq α]

omit [DecidableEq α] in
/-- Entries at addresses up to `a` do not show at an address above it. -/
theorem sparseGet_filter_gt (d : α) (l : List (Nat × α)) (a b : Nat) (h : a < b) :
    sparseGet d (l.filter fun e => decide (a < e.1)) b = sparseGet d l b := by
  induction l with
  | nil => rfl
  | cons e t ih =>
    obtain ⟨k, v⟩ := e
    by_cases hk : a < k
    · simp [sparseGet, hk, ih]
    · have hb : k ≠ b := by omega
      have hb' : k < b := by omega
      simp [sparseGet, hk, ih, hb, hb']

omit [DecidableEq α] in
/-- A list whose addresses all lie above `a` gives the default at `a` and below. -/
theorem sparseGet_of_gt (d : α) (l : List (Nat × α)) (a b : Nat) (h : b ≤ a) :
    sparseGet d (l.filter fun e => decide (a < e.1)) b = d := by
  induction l with
  | nil => rfl
  | cons e t ih =>
    obtain ⟨k, v⟩ := e
    by_cases hk : a < k
    · have h1 : k ≠ b := by omega
      have h2 : ¬ k < b := by omega
      simp [sparseGet, hk, h1, h2]
    · simp [hk, ih]

/-- The value set is the value read. -/
@[simp] theorem sparseGet_set_same (d : α) (l : List (Nat × α)) (a : Nat) (v : α) :
    sparseGet d (sparseSet d l a v) a = v := by
  induction l with
  | nil => by_cases h : v = d <;> simp [sparseSet, sparseGet, h]
  | cons e t ih =>
    obtain ⟨k, w⟩ := e
    by_cases h1 : k < a
    · have : k ≠ a := by omega
      simp [sparseSet, sparseGet, h1, this, ih]
    · by_cases h2 : k = a
      · subst h2
        by_cases hv : v = d
        · simpa [sparseSet, hv] using sparseGet_of_gt d t k k (Nat.le_refl k)
        · simp [sparseSet, sparseGet, hv]
      · by_cases hv : v = d <;> simp [sparseSet, sparseGet, h1, h2, hv]

/-- Another address reads as before, whatever an unlisted one reads as. -/
theorem sparseGet_set_ne (d d' : α) (l : List (Nat × α)) (a b : Nat) (v : α) (h : b ≠ a) :
    sparseGet d' (sparseSet d l a v) b = sparseGet d' l b := by
  induction l with
  | nil =>
    by_cases hv : v = d
    · simp [sparseSet, hv]
    · have : a ≠ b := fun e => h e.symm
      simp [sparseSet, sparseGet, hv, this]
  | cons e t ih =>
    obtain ⟨k, w⟩ := e
    by_cases h1 : k < a
    · simp [sparseSet, sparseGet, h1, ih]
    · by_cases h2 : k = a
      · subst h2
        by_cases hv : v = d
        · have hb : k ≠ b := fun e => h e.symm
          rcases Nat.lt_or_gt_of_ne h with hlt | hgt
          · have h3 : ¬ k < b := by omega
            simpa [sparseSet, sparseGet, hv, hb, h3] using sparseGet_of_gt d' t k b (by omega)
          · simpa [sparseSet, sparseGet, hv, hb, hgt] using sparseGet_filter_gt d' t k b hgt
        · have hb : k ≠ b := fun e => h e.symm
          simp [sparseSet, sparseGet, hv, hb]
      · by_cases hv : v = d
        · simp [sparseSet, h1, h2, hv]
        · have ha : a ≠ b := fun e => h e.symm
          by_cases h3 : a < b
          · simp [sparseSet, sparseGet, h1, h2, hv, ha, h3]
          · have h4 : k ≠ b := by omega
            have h5 : ¬ k < b := by omega
            simp [sparseSet, sparseGet, h1, h2, hv, ha, h3, h4, h5]

omit [DecidableEq α] in
/-- Filtering keeps addresses rising. -/
theorem sparseSorted_filter (l : List (Nat × α)) (p : Nat × α → Bool) (h : sparseSorted l = true) :
    sparseSorted (l.filter p) = true := by
  induction l with
  | nil => rfl
  | cons e t ih =>
    obtain ⟨k, v⟩ := e
    simp only [sparseSorted, Bool.and_eq_true, List.all_eq_true, decide_eq_true_eq] at h
    by_cases hp : p (k, v) = true
    · simp only [List.filter_cons_of_pos hp, sparseSorted, Bool.and_eq_true, List.all_eq_true, decide_eq_true_eq]
      exact ⟨fun x hx => h.1 x ((List.mem_filter.mp hx).1), ih h.2⟩
    · simp only [List.filter_cons_of_neg hp]
      exact ih h.2

/-- Filtering keeps the canonical form. -/
theorem sparseWf_filter (d : Nat → α) (l : List (Nat × α)) (p : Nat × α → Bool) (h : sparseWf d l = true) :
    sparseWf d (l.filter p) = true := by
  simp only [sparseWf, Bool.and_eq_true, List.all_eq_true] at h ⊢
  exact ⟨sparseSorted_filter l p h.1, fun x hx => h.2 x ((List.mem_filter.mp hx).1)⟩

/-- Dropping a range keeps the canonical form. -/
theorem sparseWf_drop (d : Nat → α) (l : List (Nat × α)) (lo hi : Nat) (h : sparseWf d l = true) :
    sparseWf d (sparseDrop l lo hi) = true := sparseWf_filter d l _ h

/-- An address that no entry has reads as the default. -/
theorem sparseGet_not_mem (d : α) (l : List (Nat × α)) (a : Nat) (h : ∀ e ∈ l, e.1 ≠ a) : sparseGet d l a = d := by
  induction l with
  | nil => rfl
  | cons e t ih =>
    obtain ⟨k, v⟩ := e
    unfold sparseGet
    rw [if_neg (h (k, v) List.mem_cons_self), ih (fun x hx => h x (List.mem_cons_of_mem _ hx))]
    split <;> rfl

theorem sparseGet_drop_in (d : α) (l : List (Nat × α)) (lo hi a : Nat) (h1 : lo ≤ a) (h2 : a < hi) :
    sparseGet d (sparseDrop l lo hi) a = d := by
  refine sparseGet_not_mem d _ a fun e he => ?_
  have := (List.mem_filter.mp he).2
  rw [decide_eq_true_iff] at this
  omega

/-- In a map whose addresses rise, an address outside a dropped range reads as before. -/
theorem sparseGet_drop_out (d : α) (l : List (Nat × α)) (lo hi a : Nat) (hs : sparseSorted l = true) (h : a < lo ∨ hi ≤ a) :
    sparseGet d (sparseDrop l lo hi) a = sparseGet d l a := by
  induction l with
  | nil => rfl
  | cons e t ih =>
    obtain ⟨k, v⟩ := e
    unfold sparseSorted at hs
    rw [Bool.and_eq_true, List.all_eq_true] at hs
    have ih := ih hs.2
    unfold sparseDrop at ih ⊢
    by_cases hk : k < lo ∨ hi ≤ k
    · rw [List.filter_cons_of_pos (by rw [decide_eq_true_iff]; exact hk)]
      unfold sparseGet
      rw [ih]
    · rw [List.filter_cons_of_neg (by rw [decide_eq_true_iff]; exact hk), ih]
      have hne : k ≠ a := by omega
      conv => rhs; unfold sparseGet
      rw [if_neg hne]
      split
      · rfl
      · refine sparseGet_not_mem d t a fun e he => ?_
        have := hs.1 e he
        rw [decide_eq_true_iff] at this
        omega

/-- Addresses of a map after a value is set: the one set, or one that was listed. -/
theorem mem_sparseSet (d : α) (l : List (Nat × α)) (a : Nat) (v : α) (x : Nat × α) (h : x ∈ sparseSet d l a v) :
    x = (a, v) ∧ v ≠ d ∨ x ∈ l := by
  induction l with
  | nil =>
    by_cases hv : v = d
    · simp [sparseSet, hv] at h
    · simp [sparseSet, hv] at h; exact .inl ⟨h, hv⟩
  | cons e t ih =>
    obtain ⟨k, w⟩ := e
    by_cases h1 : k < a
    · simp only [sparseSet, h1, if_true, List.mem_cons] at h
      rcases h with h | h
      · exact .inr (by simp [h])
      · rcases ih h with h | h
        · exact .inl h
        · exact .inr (List.mem_cons_of_mem _ h)
    · by_cases h2 : k = a
      · by_cases hv : v = d
        · simp only [sparseSet, h2, hv, Nat.lt_irrefl, if_true, if_false] at h
          exact .inr (List.mem_cons_of_mem _ ((List.mem_filter.mp h).1))
        · subst h2
          simp only [sparseSet, hv, Nat.lt_irrefl, if_true, if_false, List.mem_cons] at h
          rcases h with h | h
          · exact .inl ⟨h, hv⟩
          · exact .inr (List.mem_cons_of_mem _ h)
      · by_cases hv : v = d
        · simp only [sparseSet, h1, h2, hv, if_true, if_false] at h
          exact .inr h
        · simp only [sparseSet, h1, h2, hv, if_false, List.mem_cons] at h
          rcases h with h | h
          · exact .inl ⟨h, hv⟩
          · exact .inr (List.mem_cons.mpr h)

/-- Setting a value keeps addresses rising. -/
theorem sparseSorted_set (d : α) (l : List (Nat × α)) (a : Nat) (v : α) (h : sparseSorted l = true) :
    sparseSorted (sparseSet d l a v) = true := by
  induction l with
  | nil => by_cases hv : v = d <;> simp [sparseSet, sparseSorted, hv]
  | cons e t ih =>
    obtain ⟨k, w⟩ := e
    have hc := h
    simp only [sparseSorted, Bool.and_eq_true, List.all_eq_true, decide_eq_true_eq] at h
    by_cases h1 : k < a
    · simp only [sparseSet, h1, if_true, sparseSorted, Bool.and_eq_true, List.all_eq_true, decide_eq_true_eq]
      refine ⟨fun x hx => ?_, ih h.2⟩
      rcases mem_sparseSet d t a v x hx with ⟨hx, -⟩ | hx
      · simpa [hx] using h1
      · exact h.1 x hx
    · by_cases h2 : k = a
      · subst h2
        by_cases hv : v = d
        · simpa [sparseSet, hv] using sparseSorted_filter t _ h.2
        · simpa [sparseSet, hv, sparseSorted] using h
      · by_cases hv : v = d
        · simpa [sparseSet, h1, h2, hv] using hc
        · simp only [sparseSet, h1, h2, hv, if_false, sparseSorted, Bool.and_eq_true, List.all_eq_true,
            decide_eq_true_eq, List.mem_cons, forall_eq_or_imp]
          exact ⟨⟨by omega, fun x hx => by have := h.1 x hx; omega⟩, h.1, h.2⟩

/-- Setting a value keeps the canonical form. -/
theorem sparseWf_set (d : Nat → α) (l : List (Nat × α)) (a : Nat) (v : α) (h : sparseWf d l = true) :
    sparseWf d (sparseSet (d a) l a v) = true := by
  simp only [sparseWf, Bool.and_eq_true, List.all_eq_true, decide_eq_true_eq] at h ⊢
  refine ⟨sparseSorted_set (d a) l a v h.1, fun x hx => ?_⟩
  rcases mem_sparseSet (d a) l a v x hx with ⟨hx, hv⟩ | hx
  · simpa [hx] using hv
  · exact h.2 x hx

end Sys2Proof.Machine
end

