-- ==== Sys2Proof/Laws/State.lean ====
section
/-!
SUPPORT. What each update of the state leaves and sets, field by field, so that no proof unfolds a record update.
-/

namespace Sys2Proof.Machine

set_option linter.all false

variable (s : State)

@[simp] theorem State.setWord_pending (a : Nat) (v : Word) : (s.setWord a v).pending = s.pending := rfl
@[simp] theorem State.setWord_free (a : Nat) (v : Word) : (s.setWord a v).free = s.free := rfl
@[simp] theorem State.setWord_ticks (a : Nat) (v : Word) : (s.setWord a v).ticks = s.ticks := rfl
@[simp] theorem State.setWord_rtAdj (a : Nat) (v : Word) : (s.setWord a v).rtAdj = s.rtAdj := rfl
@[simp] theorem State.setWord_ringAt (a : Nat) (v : Word) : (s.setWord a v).ringAt = s.ringAt := rfl
@[simp] theorem State.setWord_lineAt (a : Nat) (v : Word) : (s.setWord a v).lineAt = s.lineAt := rfl
@[simp] theorem State.setWord_tx (a : Nat) (v : Word) : (s.setWord a v).tx = s.tx := rfl
@[simp] theorem State.setWord_ltBase (a : Nat) (v : Word) : (s.setWord a v).ltBase = s.ltBase := rfl
@[simp] theorem State.setWord_live (a : Nat) (v : Word) : (s.setWord a v).live = s.live := rfl
@[simp] theorem State.setWord_vers (a : Nat) (v : Word) : (s.setWord a v).vers = s.vers := rfl
@[simp] theorem State.setWord_mem (a : Nat) (v : Word) : (s.setWord a v).mem = s.mem := rfl
@[simp] theorem State.setWord_ecc (a : Nat) (v : Word) : (s.setWord a v).ecc = s.ecc := rfl
@[simp] theorem State.setWord_timer (a : Nat) (v : Word) : (s.setWord a v).timer = s.timer := rfl
@[simp] theorem State.setWord_sup (a : Nat) (v : Word) : (s.setWord a v).sup = s.sup := rfl
@[simp] theorem State.setWord_clk (a : Nat) (v : Word) : (s.setWord a v).clk = s.clk := rfl
@[simp] theorem State.setWord_tim (a : Nat) (v : Word) : (s.setWord a v).tim = s.tim := rfl
@[simp] theorem State.setWord_cores (a : Nat) (v : Word) : (s.setWord a v).cores = s.cores := rfl
@[simp] theorem State.setWord_takes (a : Nat) (v : Word) : (s.setWord a v).takes = s.takes := rfl
@[simp] theorem State.setWord_plan (a : Nat) (v : Word) : (s.setWord a v).plan = s.plan := rfl
@[simp] theorem State.setWord_rings (a : Nat) (v : Word) : (s.setWord a v).rings = s.rings := rfl
@[simp] theorem State.setWord_ports (a : Nat) (v : Word) : (s.setWord a v).ports = s.ports := rfl
@[simp] theorem State.setWord_evq (a : Nat) (v : Word) : (s.setWord a v).evq = s.evq := rfl
@[simp] theorem State.setWord_access (a : Nat) (v : Word) : (s.setWord a v).access = s.access := rfl
@[simp] theorem State.setWord_caTag (a : Nat) (v : Word) : (s.setWord a v).caTag = s.caTag := rfl
@[simp] theorem State.setWord_cells (a : Nat) (v : Word) : (s.setWord a v).cells = s.cells := rfl
@[simp] theorem State.setWord_brg (a : Nat) (v : Word) : (s.setWord a v).brg = s.brg := rfl
@[simp] theorem State.setWord_adc (a : Nat) (v : Word) : (s.setWord a v).adc = s.adc := rfl
@[simp] theorem State.setWord_capt (a : Nat) (v : Word) : (s.setWord a v).capt = s.capt := rfl
@[simp] theorem State.setWord_mtr (a : Nat) (v : Word) : (s.setWord a v).mtr = s.mtr := rfl
@[simp] theorem State.setWord_safe (a : Nat) (v : Word) : (s.setWord a v).safe = s.safe := rfl
@[simp] theorem State.setWord_flt (a : Nat) (v : Word) : (s.setWord a v).flt = s.flt := rfl
@[simp] theorem State.setWord_memory (a : Nat) (v : Word) : (s.setWord a v).memory = s.memory := rfl
@[simp] theorem State.setWord_host (a : Nat) (v : Word) : (s.setWord a v).host = s.host := rfl
@[simp] theorem State.setWord_upd (a : Nat) (v : Word) : (s.setWord a v).upd = s.upd := rfl
@[simp] theorem State.setWord_strm (a : Nat) (v : Word) : (s.setWord a v).strm = s.strm := rfl
@[simp] theorem State.setWord_out (a : Nat) (v : Word) : (s.setWord a v).out = s.out := rfl

@[simp] theorem State.fset_pending (f : Fld) (v : Nat) : (s.fset f v).pending = s.pending := rfl
@[simp] theorem State.fset_free (f : Fld) (v : Nat) : (s.fset f v).free = s.free := rfl
@[simp] theorem State.fset_ticks (f : Fld) (v : Nat) : (s.fset f v).ticks = s.ticks := rfl
@[simp] theorem State.fset_rtAdj (f : Fld) (v : Nat) : (s.fset f v).rtAdj = s.rtAdj := rfl
@[simp] theorem State.fset_ringAt (f : Fld) (v : Nat) : (s.fset f v).ringAt = s.ringAt := rfl
@[simp] theorem State.fset_lineAt (f : Fld) (v : Nat) : (s.fset f v).lineAt = s.lineAt := rfl
@[simp] theorem State.fset_tx (f : Fld) (v : Nat) : (s.fset f v).tx = s.tx := rfl
@[simp] theorem State.fset_ltBase (f : Fld) (v : Nat) : (s.fset f v).ltBase = s.ltBase := rfl
@[simp] theorem State.fset_live (f : Fld) (v : Nat) : (s.fset f v).live = s.live := rfl
@[simp] theorem State.fset_vers (f : Fld) (v : Nat) : (s.fset f v).vers = s.vers := rfl
@[simp] theorem State.fset_mem (f : Fld) (v : Nat) : (s.fset f v).mem = s.mem := rfl
@[simp] theorem State.fset_ecc (f : Fld) (v : Nat) : (s.fset f v).ecc = s.ecc := rfl
@[simp] theorem State.fset_timer (f : Fld) (v : Nat) : (s.fset f v).timer = s.timer := rfl
@[simp] theorem State.fset_sup (f : Fld) (v : Nat) : (s.fset f v).sup = s.sup := rfl
@[simp] theorem State.fset_clk (f : Fld) (v : Nat) : (s.fset f v).clk = s.clk := rfl
@[simp] theorem State.fset_tim (f : Fld) (v : Nat) : (s.fset f v).tim = s.tim := rfl
@[simp] theorem State.fset_cores (f : Fld) (v : Nat) : (s.fset f v).cores = s.cores := rfl
@[simp] theorem State.fset_takes (f : Fld) (v : Nat) : (s.fset f v).takes = s.takes := rfl
@[simp] theorem State.fset_plan (f : Fld) (v : Nat) : (s.fset f v).plan = s.plan := rfl
@[simp] theorem State.fset_rings (f : Fld) (v : Nat) : (s.fset f v).rings = s.rings := rfl
@[simp] theorem State.fset_ports (f : Fld) (v : Nat) : (s.fset f v).ports = s.ports := rfl
@[simp] theorem State.fset_evq (f : Fld) (v : Nat) : (s.fset f v).evq = s.evq := rfl
@[simp] theorem State.fset_access (f : Fld) (v : Nat) : (s.fset f v).access = s.access := rfl
@[simp] theorem State.fset_caTag (f : Fld) (v : Nat) : (s.fset f v).caTag = s.caTag := rfl
@[simp] theorem State.fset_cells (f : Fld) (v : Nat) : (s.fset f v).cells = s.cells := rfl
@[simp] theorem State.fset_brg (f : Fld) (v : Nat) : (s.fset f v).brg = s.brg := rfl
@[simp] theorem State.fset_adc (f : Fld) (v : Nat) : (s.fset f v).adc = s.adc := rfl
@[simp] theorem State.fset_capt (f : Fld) (v : Nat) : (s.fset f v).capt = s.capt := rfl
@[simp] theorem State.fset_mtr (f : Fld) (v : Nat) : (s.fset f v).mtr = s.mtr := rfl
@[simp] theorem State.fset_safe (f : Fld) (v : Nat) : (s.fset f v).safe = s.safe := rfl
@[simp] theorem State.fset_flt (f : Fld) (v : Nat) : (s.fset f v).flt = s.flt := rfl
@[simp] theorem State.fset_memory (f : Fld) (v : Nat) : (s.fset f v).memory = s.memory := rfl
@[simp] theorem State.fset_host (f : Fld) (v : Nat) : (s.fset f v).host = s.host := rfl
@[simp] theorem State.fset_upd (f : Fld) (v : Nat) : (s.fset f v).upd = s.upd := rfl
@[simp] theorem State.fset_strm (f : Fld) (v : Nat) : (s.fset f v).strm = s.strm := rfl
@[simp] theorem State.fset_out (f : Fld) (v : Nat) : (s.fset f v).out = s.out := rfl

@[simp] theorem State.fsetI_pending (f : Fld) (v : Int) : (s.fsetI f v).pending = s.pending := rfl
@[simp] theorem State.fsetI_free (f : Fld) (v : Int) : (s.fsetI f v).free = s.free := rfl
@[simp] theorem State.fsetI_ticks (f : Fld) (v : Int) : (s.fsetI f v).ticks = s.ticks := rfl
@[simp] theorem State.fsetI_rtAdj (f : Fld) (v : Int) : (s.fsetI f v).rtAdj = s.rtAdj := rfl
@[simp] theorem State.fsetI_ringAt (f : Fld) (v : Int) : (s.fsetI f v).ringAt = s.ringAt := rfl
@[simp] theorem State.fsetI_lineAt (f : Fld) (v : Int) : (s.fsetI f v).lineAt = s.lineAt := rfl
@[simp] theorem State.fsetI_tx (f : Fld) (v : Int) : (s.fsetI f v).tx = s.tx := rfl
@[simp] theorem State.fsetI_ltBase (f : Fld) (v : Int) : (s.fsetI f v).ltBase = s.ltBase := rfl
@[simp] theorem State.fsetI_live (f : Fld) (v : Int) : (s.fsetI f v).live = s.live := rfl
@[simp] theorem State.fsetI_vers (f : Fld) (v : Int) : (s.fsetI f v).vers = s.vers := rfl
@[simp] theorem State.fsetI_mem (f : Fld) (v : Int) : (s.fsetI f v).mem = s.mem := rfl
@[simp] theorem State.fsetI_ecc (f : Fld) (v : Int) : (s.fsetI f v).ecc = s.ecc := rfl
@[simp] theorem State.fsetI_timer (f : Fld) (v : Int) : (s.fsetI f v).timer = s.timer := rfl
@[simp] theorem State.fsetI_sup (f : Fld) (v : Int) : (s.fsetI f v).sup = s.sup := rfl
@[simp] theorem State.fsetI_clk (f : Fld) (v : Int) : (s.fsetI f v).clk = s.clk := rfl
@[simp] theorem State.fsetI_tim (f : Fld) (v : Int) : (s.fsetI f v).tim = s.tim := rfl
@[simp] theorem State.fsetI_cores (f : Fld) (v : Int) : (s.fsetI f v).cores = s.cores := rfl
@[simp] theorem State.fsetI_takes (f : Fld) (v : Int) : (s.fsetI f v).takes = s.takes := rfl
@[simp] theorem State.fsetI_plan (f : Fld) (v : Int) : (s.fsetI f v).plan = s.plan := rfl
@[simp] theorem State.fsetI_rings (f : Fld) (v : Int) : (s.fsetI f v).rings = s.rings := rfl
@[simp] theorem State.fsetI_ports (f : Fld) (v : Int) : (s.fsetI f v).ports = s.ports := rfl
@[simp] theorem State.fsetI_evq (f : Fld) (v : Int) : (s.fsetI f v).evq = s.evq := rfl
@[simp] theorem State.fsetI_access (f : Fld) (v : Int) : (s.fsetI f v).access = s.access := rfl
@[simp] theorem State.fsetI_caTag (f : Fld) (v : Int) : (s.fsetI f v).caTag = s.caTag := rfl
@[simp] theorem State.fsetI_cells (f : Fld) (v : Int) : (s.fsetI f v).cells = s.cells := rfl
@[simp] theorem State.fsetI_brg (f : Fld) (v : Int) : (s.fsetI f v).brg = s.brg := rfl
@[simp] theorem State.fsetI_adc (f : Fld) (v : Int) : (s.fsetI f v).adc = s.adc := rfl
@[simp] theorem State.fsetI_capt (f : Fld) (v : Int) : (s.fsetI f v).capt = s.capt := rfl
@[simp] theorem State.fsetI_mtr (f : Fld) (v : Int) : (s.fsetI f v).mtr = s.mtr := rfl
@[simp] theorem State.fsetI_safe (f : Fld) (v : Int) : (s.fsetI f v).safe = s.safe := rfl
@[simp] theorem State.fsetI_flt (f : Fld) (v : Int) : (s.fsetI f v).flt = s.flt := rfl
@[simp] theorem State.fsetI_memory (f : Fld) (v : Int) : (s.fsetI f v).memory = s.memory := rfl
@[simp] theorem State.fsetI_host (f : Fld) (v : Int) : (s.fsetI f v).host = s.host := rfl
@[simp] theorem State.fsetI_upd (f : Fld) (v : Int) : (s.fsetI f v).upd = s.upd := rfl
@[simp] theorem State.fsetI_strm (f : Fld) (v : Int) : (s.fsetI f v).strm = s.strm := rfl
@[simp] theorem State.fsetI_out (f : Fld) (v : Int) : (s.fsetI f v).out = s.out := rfl

@[simp] theorem State.finc_pending (f : Fld) : (s.finc f).pending = s.pending := rfl
@[simp] theorem State.finc_free (f : Fld) : (s.finc f).free = s.free := rfl
@[simp] theorem State.finc_ticks (f : Fld) : (s.finc f).ticks = s.ticks := rfl
@[simp] theorem State.finc_rtAdj (f : Fld) : (s.finc f).rtAdj = s.rtAdj := rfl
@[simp] theorem State.finc_ringAt (f : Fld) : (s.finc f).ringAt = s.ringAt := rfl
@[simp] theorem State.finc_lineAt (f : Fld) : (s.finc f).lineAt = s.lineAt := rfl
@[simp] theorem State.finc_tx (f : Fld) : (s.finc f).tx = s.tx := rfl
@[simp] theorem State.finc_ltBase (f : Fld) : (s.finc f).ltBase = s.ltBase := rfl
@[simp] theorem State.finc_live (f : Fld) : (s.finc f).live = s.live := rfl
@[simp] theorem State.finc_vers (f : Fld) : (s.finc f).vers = s.vers := rfl
@[simp] theorem State.finc_mem (f : Fld) : (s.finc f).mem = s.mem := rfl
@[simp] theorem State.finc_ecc (f : Fld) : (s.finc f).ecc = s.ecc := rfl
@[simp] theorem State.finc_timer (f : Fld) : (s.finc f).timer = s.timer := rfl
@[simp] theorem State.finc_sup (f : Fld) : (s.finc f).sup = s.sup := rfl
@[simp] theorem State.finc_clk (f : Fld) : (s.finc f).clk = s.clk := rfl
@[simp] theorem State.finc_tim (f : Fld) : (s.finc f).tim = s.tim := rfl
@[simp] theorem State.finc_cores (f : Fld) : (s.finc f).cores = s.cores := rfl
@[simp] theorem State.finc_takes (f : Fld) : (s.finc f).takes = s.takes := rfl
@[simp] theorem State.finc_plan (f : Fld) : (s.finc f).plan = s.plan := rfl
@[simp] theorem State.finc_rings (f : Fld) : (s.finc f).rings = s.rings := rfl
@[simp] theorem State.finc_ports (f : Fld) : (s.finc f).ports = s.ports := rfl
@[simp] theorem State.finc_evq (f : Fld) : (s.finc f).evq = s.evq := rfl
@[simp] theorem State.finc_access (f : Fld) : (s.finc f).access = s.access := rfl
@[simp] theorem State.finc_caTag (f : Fld) : (s.finc f).caTag = s.caTag := rfl
@[simp] theorem State.finc_cells (f : Fld) : (s.finc f).cells = s.cells := rfl
@[simp] theorem State.finc_brg (f : Fld) : (s.finc f).brg = s.brg := rfl
@[simp] theorem State.finc_adc (f : Fld) : (s.finc f).adc = s.adc := rfl
@[simp] theorem State.finc_capt (f : Fld) : (s.finc f).capt = s.capt := rfl
@[simp] theorem State.finc_mtr (f : Fld) : (s.finc f).mtr = s.mtr := rfl
@[simp] theorem State.finc_safe (f : Fld) : (s.finc f).safe = s.safe := rfl
@[simp] theorem State.finc_flt (f : Fld) : (s.finc f).flt = s.flt := rfl
@[simp] theorem State.finc_memory (f : Fld) : (s.finc f).memory = s.memory := rfl
@[simp] theorem State.finc_host (f : Fld) : (s.finc f).host = s.host := rfl
@[simp] theorem State.finc_upd (f : Fld) : (s.finc f).upd = s.upd := rfl
@[simp] theorem State.finc_strm (f : Fld) : (s.finc f).strm = s.strm := rfl
@[simp] theorem State.finc_out (f : Fld) : (s.finc f).out = s.out := rfl

@[simp] theorem State.setMask40_pending (l h : Fld) (m : BitVec 40) : (s.setMask40 l h m).pending = s.pending := rfl
@[simp] theorem State.setMask40_free (l h : Fld) (m : BitVec 40) : (s.setMask40 l h m).free = s.free := rfl
@[simp] theorem State.setMask40_ticks (l h : Fld) (m : BitVec 40) : (s.setMask40 l h m).ticks = s.ticks := rfl
@[simp] theorem State.setMask40_rtAdj (l h : Fld) (m : BitVec 40) : (s.setMask40 l h m).rtAdj = s.rtAdj := rfl
@[simp] theorem State.setMask40_ringAt (l h : Fld) (m : BitVec 40) : (s.setMask40 l h m).ringAt = s.ringAt := rfl
@[simp] theorem State.setMask40_lineAt (l h : Fld) (m : BitVec 40) : (s.setMask40 l h m).lineAt = s.lineAt := rfl
@[simp] theorem State.setMask40_tx (l h : Fld) (m : BitVec 40) : (s.setMask40 l h m).tx = s.tx := rfl
@[simp] theorem State.setMask40_ltBase (l h : Fld) (m : BitVec 40) : (s.setMask40 l h m).ltBase = s.ltBase := rfl
@[simp] theorem State.setMask40_live (l h : Fld) (m : BitVec 40) : (s.setMask40 l h m).live = s.live := rfl
@[simp] theorem State.setMask40_vers (l h : Fld) (m : BitVec 40) : (s.setMask40 l h m).vers = s.vers := rfl
@[simp] theorem State.setMask40_mem (l h : Fld) (m : BitVec 40) : (s.setMask40 l h m).mem = s.mem := rfl
@[simp] theorem State.setMask40_ecc (l h : Fld) (m : BitVec 40) : (s.setMask40 l h m).ecc = s.ecc := rfl
@[simp] theorem State.setMask40_timer (l h : Fld) (m : BitVec 40) : (s.setMask40 l h m).timer = s.timer := rfl
@[simp] theorem State.setMask40_sup (l h : Fld) (m : BitVec 40) : (s.setMask40 l h m).sup = s.sup := rfl
@[simp] theorem State.setMask40_clk (l h : Fld) (m : BitVec 40) : (s.setMask40 l h m).clk = s.clk := rfl
@[simp] theorem State.setMask40_tim (l h : Fld) (m : BitVec 40) : (s.setMask40 l h m).tim = s.tim := rfl
@[simp] theorem State.setMask40_cores (l h : Fld) (m : BitVec 40) : (s.setMask40 l h m).cores = s.cores := rfl
@[simp] theorem State.setMask40_takes (l h : Fld) (m : BitVec 40) : (s.setMask40 l h m).takes = s.takes := rfl
@[simp] theorem State.setMask40_plan (l h : Fld) (m : BitVec 40) : (s.setMask40 l h m).plan = s.plan := rfl
@[simp] theorem State.setMask40_rings (l h : Fld) (m : BitVec 40) : (s.setMask40 l h m).rings = s.rings := rfl
@[simp] theorem State.setMask40_ports (l h : Fld) (m : BitVec 40) : (s.setMask40 l h m).ports = s.ports := rfl
@[simp] theorem State.setMask40_evq (l h : Fld) (m : BitVec 40) : (s.setMask40 l h m).evq = s.evq := rfl
@[simp] theorem State.setMask40_access (l h : Fld) (m : BitVec 40) : (s.setMask40 l h m).access = s.access := rfl
@[simp] theorem State.setMask40_caTag (l h : Fld) (m : BitVec 40) : (s.setMask40 l h m).caTag = s.caTag := rfl
@[simp] theorem State.setMask40_cells (l h : Fld) (m : BitVec 40) : (s.setMask40 l h m).cells = s.cells := rfl
@[simp] theorem State.setMask40_brg (l h : Fld) (m : BitVec 40) : (s.setMask40 l h m).brg = s.brg := rfl
@[simp] theorem State.setMask40_adc (l h : Fld) (m : BitVec 40) : (s.setMask40 l h m).adc = s.adc := rfl
@[simp] theorem State.setMask40_capt (l h : Fld) (m : BitVec 40) : (s.setMask40 l h m).capt = s.capt := rfl
@[simp] theorem State.setMask40_mtr (l h : Fld) (m : BitVec 40) : (s.setMask40 l h m).mtr = s.mtr := rfl
@[simp] theorem State.setMask40_safe (l h : Fld) (m : BitVec 40) : (s.setMask40 l h m).safe = s.safe := rfl
@[simp] theorem State.setMask40_flt (l h : Fld) (m : BitVec 40) : (s.setMask40 l h m).flt = s.flt := rfl
@[simp] theorem State.setMask40_memory (l h : Fld) (m : BitVec 40) : (s.setMask40 l h m).memory = s.memory := rfl
@[simp] theorem State.setMask40_host (l h : Fld) (m : BitVec 40) : (s.setMask40 l h m).host = s.host := rfl
@[simp] theorem State.setMask40_upd (l h : Fld) (m : BitVec 40) : (s.setMask40 l h m).upd = s.upd := rfl
@[simp] theorem State.setMask40_strm (l h : Fld) (m : BitVec 40) : (s.setMask40 l h m).strm = s.strm := rfl
@[simp] theorem State.setMask40_out (l h : Fld) (m : BitVec 40) : (s.setMask40 l h m).out = s.out := rfl

@[simp] theorem State.setTime48_pending (l h : Fld) (t : BitVec 48) : (s.setTime48 l h t).pending = s.pending := rfl
@[simp] theorem State.setTime48_free (l h : Fld) (t : BitVec 48) : (s.setTime48 l h t).free = s.free := rfl
@[simp] theorem State.setTime48_ticks (l h : Fld) (t : BitVec 48) : (s.setTime48 l h t).ticks = s.ticks := rfl
@[simp] theorem State.setTime48_rtAdj (l h : Fld) (t : BitVec 48) : (s.setTime48 l h t).rtAdj = s.rtAdj := rfl
@[simp] theorem State.setTime48_ringAt (l h : Fld) (t : BitVec 48) : (s.setTime48 l h t).ringAt = s.ringAt := rfl
@[simp] theorem State.setTime48_lineAt (l h : Fld) (t : BitVec 48) : (s.setTime48 l h t).lineAt = s.lineAt := rfl
@[simp] theorem State.setTime48_tx (l h : Fld) (t : BitVec 48) : (s.setTime48 l h t).tx = s.tx := rfl
@[simp] theorem State.setTime48_ltBase (l h : Fld) (t : BitVec 48) : (s.setTime48 l h t).ltBase = s.ltBase := rfl
@[simp] theorem State.setTime48_live (l h : Fld) (t : BitVec 48) : (s.setTime48 l h t).live = s.live := rfl
@[simp] theorem State.setTime48_vers (l h : Fld) (t : BitVec 48) : (s.setTime48 l h t).vers = s.vers := rfl
@[simp] theorem State.setTime48_mem (l h : Fld) (t : BitVec 48) : (s.setTime48 l h t).mem = s.mem := rfl
@[simp] theorem State.setTime48_ecc (l h : Fld) (t : BitVec 48) : (s.setTime48 l h t).ecc = s.ecc := rfl
@[simp] theorem State.setTime48_timer (l h : Fld) (t : BitVec 48) : (s.setTime48 l h t).timer = s.timer := rfl
@[simp] theorem State.setTime48_sup (l h : Fld) (t : BitVec 48) : (s.setTime48 l h t).sup = s.sup := rfl
@[simp] theorem State.setTime48_clk (l h : Fld) (t : BitVec 48) : (s.setTime48 l h t).clk = s.clk := rfl
@[simp] theorem State.setTime48_tim (l h : Fld) (t : BitVec 48) : (s.setTime48 l h t).tim = s.tim := rfl
@[simp] theorem State.setTime48_cores (l h : Fld) (t : BitVec 48) : (s.setTime48 l h t).cores = s.cores := rfl
@[simp] theorem State.setTime48_takes (l h : Fld) (t : BitVec 48) : (s.setTime48 l h t).takes = s.takes := rfl
@[simp] theorem State.setTime48_plan (l h : Fld) (t : BitVec 48) : (s.setTime48 l h t).plan = s.plan := rfl
@[simp] theorem State.setTime48_rings (l h : Fld) (t : BitVec 48) : (s.setTime48 l h t).rings = s.rings := rfl
@[simp] theorem State.setTime48_ports (l h : Fld) (t : BitVec 48) : (s.setTime48 l h t).ports = s.ports := rfl
@[simp] theorem State.setTime48_evq (l h : Fld) (t : BitVec 48) : (s.setTime48 l h t).evq = s.evq := rfl
@[simp] theorem State.setTime48_access (l h : Fld) (t : BitVec 48) : (s.setTime48 l h t).access = s.access := rfl
@[simp] theorem State.setTime48_caTag (l h : Fld) (t : BitVec 48) : (s.setTime48 l h t).caTag = s.caTag := rfl
@[simp] theorem State.setTime48_cells (l h : Fld) (t : BitVec 48) : (s.setTime48 l h t).cells = s.cells := rfl
@[simp] theorem State.setTime48_brg (l h : Fld) (t : BitVec 48) : (s.setTime48 l h t).brg = s.brg := rfl
@[simp] theorem State.setTime48_adc (l h : Fld) (t : BitVec 48) : (s.setTime48 l h t).adc = s.adc := rfl
@[simp] theorem State.setTime48_capt (l h : Fld) (t : BitVec 48) : (s.setTime48 l h t).capt = s.capt := rfl
@[simp] theorem State.setTime48_mtr (l h : Fld) (t : BitVec 48) : (s.setTime48 l h t).mtr = s.mtr := rfl
@[simp] theorem State.setTime48_safe (l h : Fld) (t : BitVec 48) : (s.setTime48 l h t).safe = s.safe := rfl
@[simp] theorem State.setTime48_flt (l h : Fld) (t : BitVec 48) : (s.setTime48 l h t).flt = s.flt := rfl
@[simp] theorem State.setTime48_memory (l h : Fld) (t : BitVec 48) : (s.setTime48 l h t).memory = s.memory := rfl
@[simp] theorem State.setTime48_host (l h : Fld) (t : BitVec 48) : (s.setTime48 l h t).host = s.host := rfl
@[simp] theorem State.setTime48_upd (l h : Fld) (t : BitVec 48) : (s.setTime48 l h t).upd = s.upd := rfl
@[simp] theorem State.setTime48_strm (l h : Fld) (t : BitVec 48) : (s.setTime48 l h t).strm = s.strm := rfl
@[simp] theorem State.setTime48_out (l h : Fld) (t : BitVec 48) : (s.setTime48 l h t).out = s.out := rfl

@[simp] theorem State.setByte_pending (a : Nat) (v : Byte) : (s.setByte a v).pending = s.pending := rfl
@[simp] theorem State.setByte_free (a : Nat) (v : Byte) : (s.setByte a v).free = s.free := rfl
@[simp] theorem State.setByte_ticks (a : Nat) (v : Byte) : (s.setByte a v).ticks = s.ticks := rfl
@[simp] theorem State.setByte_rtAdj (a : Nat) (v : Byte) : (s.setByte a v).rtAdj = s.rtAdj := rfl
@[simp] theorem State.setByte_ringAt (a : Nat) (v : Byte) : (s.setByte a v).ringAt = s.ringAt := rfl
@[simp] theorem State.setByte_lineAt (a : Nat) (v : Byte) : (s.setByte a v).lineAt = s.lineAt := rfl
@[simp] theorem State.setByte_tx (a : Nat) (v : Byte) : (s.setByte a v).tx = s.tx := rfl
@[simp] theorem State.setByte_ltBase (a : Nat) (v : Byte) : (s.setByte a v).ltBase = s.ltBase := rfl
@[simp] theorem State.setByte_regs (a : Nat) (v : Byte) : (s.setByte a v).regs = s.regs := rfl
@[simp] theorem State.setByte_live (a : Nat) (v : Byte) : (s.setByte a v).live = s.live := rfl
@[simp] theorem State.setByte_vers (a : Nat) (v : Byte) : (s.setByte a v).vers = s.vers := rfl
@[simp] theorem State.setByte_ecc (a : Nat) (v : Byte) : (s.setByte a v).ecc = s.ecc := rfl
@[simp] theorem State.setByte_timer (a : Nat) (v : Byte) : (s.setByte a v).timer = s.timer := rfl
@[simp] theorem State.setByte_sup (a : Nat) (v : Byte) : (s.setByte a v).sup = s.sup := rfl
@[simp] theorem State.setByte_clk (a : Nat) (v : Byte) : (s.setByte a v).clk = s.clk := rfl
@[simp] theorem State.setByte_tim (a : Nat) (v : Byte) : (s.setByte a v).tim = s.tim := rfl
@[simp] theorem State.setByte_cores (a : Nat) (v : Byte) : (s.setByte a v).cores = s.cores := rfl
@[simp] theorem State.setByte_takes (a : Nat) (v : Byte) : (s.setByte a v).takes = s.takes := rfl
@[simp] theorem State.setByte_plan (a : Nat) (v : Byte) : (s.setByte a v).plan = s.plan := rfl
@[simp] theorem State.setByte_rings (a : Nat) (v : Byte) : (s.setByte a v).rings = s.rings := rfl
@[simp] theorem State.setByte_ports (a : Nat) (v : Byte) : (s.setByte a v).ports = s.ports := rfl
@[simp] theorem State.setByte_evq (a : Nat) (v : Byte) : (s.setByte a v).evq = s.evq := rfl
@[simp] theorem State.setByte_access (a : Nat) (v : Byte) : (s.setByte a v).access = s.access := rfl
@[simp] theorem State.setByte_caTag (a : Nat) (v : Byte) : (s.setByte a v).caTag = s.caTag := rfl
@[simp] theorem State.setByte_cells (a : Nat) (v : Byte) : (s.setByte a v).cells = s.cells := rfl
@[simp] theorem State.setByte_brg (a : Nat) (v : Byte) : (s.setByte a v).brg = s.brg := rfl
@[simp] theorem State.setByte_adc (a : Nat) (v : Byte) : (s.setByte a v).adc = s.adc := rfl
@[simp] theorem State.setByte_capt (a : Nat) (v : Byte) : (s.setByte a v).capt = s.capt := rfl
@[simp] theorem State.setByte_mtr (a : Nat) (v : Byte) : (s.setByte a v).mtr = s.mtr := rfl
@[simp] theorem State.setByte_safe (a : Nat) (v : Byte) : (s.setByte a v).safe = s.safe := rfl
@[simp] theorem State.setByte_flt (a : Nat) (v : Byte) : (s.setByte a v).flt = s.flt := rfl
@[simp] theorem State.setByte_memory (a : Nat) (v : Byte) : (s.setByte a v).memory = s.memory := rfl
@[simp] theorem State.setByte_host (a : Nat) (v : Byte) : (s.setByte a v).host = s.host := rfl
@[simp] theorem State.setByte_upd (a : Nat) (v : Byte) : (s.setByte a v).upd = s.upd := rfl
@[simp] theorem State.setByte_strm (a : Nat) (v : Byte) : (s.setByte a v).strm = s.strm := rfl
@[simp] theorem State.setByte_out (a : Nat) (v : Byte) : (s.setByte a v).out = s.out := rfl

@[simp] theorem State.resetBlock_pending (n : Nat) : (s.resetBlock n).pending = s.pending := rfl
@[simp] theorem State.resetBlock_free (n : Nat) : (s.resetBlock n).free = s.free := rfl
@[simp] theorem State.resetBlock_ticks (n : Nat) : (s.resetBlock n).ticks = s.ticks := rfl
@[simp] theorem State.resetBlock_rtAdj (n : Nat) : (s.resetBlock n).rtAdj = s.rtAdj := rfl
@[simp] theorem State.resetBlock_ringAt (n : Nat) : (s.resetBlock n).ringAt = s.ringAt := rfl
@[simp] theorem State.resetBlock_lineAt (n : Nat) : (s.resetBlock n).lineAt = s.lineAt := rfl
@[simp] theorem State.resetBlock_tx (n : Nat) : (s.resetBlock n).tx = s.tx := rfl
@[simp] theorem State.resetBlock_ltBase (n : Nat) : (s.resetBlock n).ltBase = s.ltBase := rfl
@[simp] theorem State.resetBlock_vers (n : Nat) : (s.resetBlock n).vers = s.vers := rfl
@[simp] theorem State.resetBlock_mem (n : Nat) : (s.resetBlock n).mem = s.mem := rfl
@[simp] theorem State.resetBlock_ecc (n : Nat) : (s.resetBlock n).ecc = s.ecc := rfl
@[simp] theorem State.resetBlock_timer (n : Nat) : (s.resetBlock n).timer = s.timer := rfl
@[simp] theorem State.resetBlock_sup (n : Nat) : (s.resetBlock n).sup = s.sup := rfl
@[simp] theorem State.resetBlock_clk (n : Nat) : (s.resetBlock n).clk = s.clk := rfl
@[simp] theorem State.resetBlock_tim (n : Nat) : (s.resetBlock n).tim = s.tim := rfl
@[simp] theorem State.resetBlock_cores (n : Nat) : (s.resetBlock n).cores = s.cores := rfl
@[simp] theorem State.resetBlock_takes (n : Nat) : (s.resetBlock n).takes = s.takes := rfl
@[simp] theorem State.resetBlock_plan (n : Nat) : (s.resetBlock n).plan = s.plan := rfl
@[simp] theorem State.resetBlock_rings (n : Nat) : (s.resetBlock n).rings = s.rings := rfl
@[simp] theorem State.resetBlock_ports (n : Nat) : (s.resetBlock n).ports = s.ports := rfl
@[simp] theorem State.resetBlock_evq (n : Nat) : (s.resetBlock n).evq = s.evq := rfl
@[simp] theorem State.resetBlock_access (n : Nat) : (s.resetBlock n).access = s.access := rfl
@[simp] theorem State.resetBlock_caTag (n : Nat) : (s.resetBlock n).caTag = s.caTag := rfl
@[simp] theorem State.resetBlock_cells (n : Nat) : (s.resetBlock n).cells = s.cells := rfl
@[simp] theorem State.resetBlock_brg (n : Nat) : (s.resetBlock n).brg = s.brg := rfl
@[simp] theorem State.resetBlock_adc (n : Nat) : (s.resetBlock n).adc = s.adc := rfl
@[simp] theorem State.resetBlock_capt (n : Nat) : (s.resetBlock n).capt = s.capt := rfl
@[simp] theorem State.resetBlock_mtr (n : Nat) : (s.resetBlock n).mtr = s.mtr := rfl
@[simp] theorem State.resetBlock_safe (n : Nat) : (s.resetBlock n).safe = s.safe := rfl
@[simp] theorem State.resetBlock_flt (n : Nat) : (s.resetBlock n).flt = s.flt := rfl
@[simp] theorem State.resetBlock_memory (n : Nat) : (s.resetBlock n).memory = s.memory := rfl
@[simp] theorem State.resetBlock_host (n : Nat) : (s.resetBlock n).host = s.host := rfl
@[simp] theorem State.resetBlock_upd (n : Nat) : (s.resetBlock n).upd = s.upd := rfl
@[simp] theorem State.resetBlock_strm (n : Nat) : (s.resetBlock n).strm = s.strm := rfl
@[simp] theorem State.resetBlock_out (n : Nat) : (s.resetBlock n).out = s.out := rfl

@[simp] theorem State.modCore_pending (n : CoreId) (f : Core → Core) : (s.modCore n f).pending = s.pending := rfl
@[simp] theorem State.modCore_free (n : CoreId) (f : Core → Core) : (s.modCore n f).free = s.free := rfl
@[simp] theorem State.modCore_ticks (n : CoreId) (f : Core → Core) : (s.modCore n f).ticks = s.ticks := rfl
@[simp] theorem State.modCore_rtAdj (n : CoreId) (f : Core → Core) : (s.modCore n f).rtAdj = s.rtAdj := rfl
@[simp] theorem State.modCore_ringAt (n : CoreId) (f : Core → Core) : (s.modCore n f).ringAt = s.ringAt := rfl
@[simp] theorem State.modCore_lineAt (n : CoreId) (f : Core → Core) : (s.modCore n f).lineAt = s.lineAt := rfl
@[simp] theorem State.modCore_tx (n : CoreId) (f : Core → Core) : (s.modCore n f).tx = s.tx := rfl
@[simp] theorem State.modCore_ltBase (n : CoreId) (f : Core → Core) : (s.modCore n f).ltBase = s.ltBase := rfl
@[simp] theorem State.modCore_regs (n : CoreId) (f : Core → Core) : (s.modCore n f).regs = s.regs := rfl
@[simp] theorem State.modCore_live (n : CoreId) (f : Core → Core) : (s.modCore n f).live = s.live := rfl
@[simp] theorem State.modCore_vers (n : CoreId) (f : Core → Core) : (s.modCore n f).vers = s.vers := rfl
@[simp] theorem State.modCore_mem (n : CoreId) (f : Core → Core) : (s.modCore n f).mem = s.mem := rfl
@[simp] theorem State.modCore_ecc (n : CoreId) (f : Core → Core) : (s.modCore n f).ecc = s.ecc := rfl
@[simp] theorem State.modCore_timer (n : CoreId) (f : Core → Core) : (s.modCore n f).timer = s.timer := rfl
@[simp] theorem State.modCore_sup (n : CoreId) (f : Core → Core) : (s.modCore n f).sup = s.sup := rfl
@[simp] theorem State.modCore_clk (n : CoreId) (f : Core → Core) : (s.modCore n f).clk = s.clk := rfl
@[simp] theorem State.modCore_tim (n : CoreId) (f : Core → Core) : (s.modCore n f).tim = s.tim := rfl
@[simp] theorem State.modCore_cores (n : CoreId) (f : Core → Core) : (s.modCore n f).cores = s.cores.set n (f s.cores[n]) := rfl
@[simp] theorem State.modCore_takes (n : CoreId) (f : Core → Core) : (s.modCore n f).takes = s.takes := rfl
@[simp] theorem State.modCore_plan (n : CoreId) (f : Core → Core) : (s.modCore n f).plan = s.plan := rfl
@[simp] theorem State.modCore_rings (n : CoreId) (f : Core → Core) : (s.modCore n f).rings = s.rings := rfl
@[simp] theorem State.modCore_ports (n : CoreId) (f : Core → Core) : (s.modCore n f).ports = s.ports := rfl
@[simp] theorem State.modCore_evq (n : CoreId) (f : Core → Core) : (s.modCore n f).evq = s.evq := rfl
@[simp] theorem State.modCore_access (n : CoreId) (f : Core → Core) : (s.modCore n f).access = s.access := rfl
@[simp] theorem State.modCore_caTag (n : CoreId) (f : Core → Core) : (s.modCore n f).caTag = s.caTag := rfl
@[simp] theorem State.modCore_cells (n : CoreId) (f : Core → Core) : (s.modCore n f).cells = s.cells := rfl
@[simp] theorem State.modCore_brg (n : CoreId) (f : Core → Core) : (s.modCore n f).brg = s.brg := rfl
@[simp] theorem State.modCore_adc (n : CoreId) (f : Core → Core) : (s.modCore n f).adc = s.adc := rfl
@[simp] theorem State.modCore_capt (n : CoreId) (f : Core → Core) : (s.modCore n f).capt = s.capt := rfl
@[simp] theorem State.modCore_mtr (n : CoreId) (f : Core → Core) : (s.modCore n f).mtr = s.mtr := rfl
@[simp] theorem State.modCore_safe (n : CoreId) (f : Core → Core) : (s.modCore n f).safe = s.safe := rfl
@[simp] theorem State.modCore_flt (n : CoreId) (f : Core → Core) : (s.modCore n f).flt = s.flt := rfl
@[simp] theorem State.modCore_memory (n : CoreId) (f : Core → Core) : (s.modCore n f).memory = s.memory := rfl
@[simp] theorem State.modCore_host (n : CoreId) (f : Core → Core) : (s.modCore n f).host = s.host := rfl
@[simp] theorem State.modCore_upd (n : CoreId) (f : Core → Core) : (s.modCore n f).upd = s.upd := rfl
@[simp] theorem State.modCore_strm (n : CoreId) (f : Core → Core) : (s.modCore n f).strm = s.strm := rfl
@[simp] theorem State.modCore_out (n : CoreId) (f : Core → Core) : (s.modCore n f).out = s.out := rfl

@[simp] theorem State.modTake_pending (h : HandleId) (f : Take → Take) : (s.modTake h f).pending = s.pending := rfl
@[simp] theorem State.modTake_free (h : HandleId) (f : Take → Take) : (s.modTake h f).free = s.free := rfl
@[simp] theorem State.modTake_ticks (h : HandleId) (f : Take → Take) : (s.modTake h f).ticks = s.ticks := rfl
@[simp] theorem State.modTake_rtAdj (h : HandleId) (f : Take → Take) : (s.modTake h f).rtAdj = s.rtAdj := rfl
@[simp] theorem State.modTake_ringAt (h : HandleId) (f : Take → Take) : (s.modTake h f).ringAt = s.ringAt := rfl
@[simp] theorem State.modTake_lineAt (h : HandleId) (f : Take → Take) : (s.modTake h f).lineAt = s.lineAt := rfl
@[simp] theorem State.modTake_tx (h : HandleId) (f : Take → Take) : (s.modTake h f).tx = s.tx := rfl
@[simp] theorem State.modTake_ltBase (h : HandleId) (f : Take → Take) : (s.modTake h f).ltBase = s.ltBase := rfl
@[simp] theorem State.modTake_regs (h : HandleId) (f : Take → Take) : (s.modTake h f).regs = s.regs := rfl
@[simp] theorem State.modTake_live (h : HandleId) (f : Take → Take) : (s.modTake h f).live = s.live := rfl
@[simp] theorem State.modTake_vers (h : HandleId) (f : Take → Take) : (s.modTake h f).vers = s.vers := rfl
@[simp] theorem State.modTake_mem (h : HandleId) (f : Take → Take) : (s.modTake h f).mem = s.mem := rfl
@[simp] theorem State.modTake_ecc (h : HandleId) (f : Take → Take) : (s.modTake h f).ecc = s.ecc := rfl
@[simp] theorem State.modTake_timer (h : HandleId) (f : Take → Take) : (s.modTake h f).timer = s.timer := rfl
@[simp] theorem State.modTake_sup (h : HandleId) (f : Take → Take) : (s.modTake h f).sup = s.sup := rfl
@[simp] theorem State.modTake_clk (h : HandleId) (f : Take → Take) : (s.modTake h f).clk = s.clk := rfl
@[simp] theorem State.modTake_tim (h : HandleId) (f : Take → Take) : (s.modTake h f).tim = s.tim := rfl
@[simp] theorem State.modTake_cores (h : HandleId) (f : Take → Take) : (s.modTake h f).cores = s.cores := rfl
@[simp] theorem State.modTake_takes (h : HandleId) (f : Take → Take) : (s.modTake h f).takes = s.takes.set h (f s.takes[h]) := rfl
@[simp] theorem State.modTake_plan (h : HandleId) (f : Take → Take) : (s.modTake h f).plan = s.plan := rfl
@[simp] theorem State.modTake_rings (h : HandleId) (f : Take → Take) : (s.modTake h f).rings = s.rings := rfl
@[simp] theorem State.modTake_ports (h : HandleId) (f : Take → Take) : (s.modTake h f).ports = s.ports := rfl
@[simp] theorem State.modTake_evq (h : HandleId) (f : Take → Take) : (s.modTake h f).evq = s.evq := rfl
@[simp] theorem State.modTake_access (h : HandleId) (f : Take → Take) : (s.modTake h f).access = s.access := rfl
@[simp] theorem State.modTake_caTag (h : HandleId) (f : Take → Take) : (s.modTake h f).caTag = s.caTag := rfl
@[simp] theorem State.modTake_cells (h : HandleId) (f : Take → Take) : (s.modTake h f).cells = s.cells := rfl
@[simp] theorem State.modTake_brg (h : HandleId) (f : Take → Take) : (s.modTake h f).brg = s.brg := rfl
@[simp] theorem State.modTake_adc (h : HandleId) (f : Take → Take) : (s.modTake h f).adc = s.adc := rfl
@[simp] theorem State.modTake_capt (h : HandleId) (f : Take → Take) : (s.modTake h f).capt = s.capt := rfl
@[simp] theorem State.modTake_mtr (h : HandleId) (f : Take → Take) : (s.modTake h f).mtr = s.mtr := rfl
@[simp] theorem State.modTake_safe (h : HandleId) (f : Take → Take) : (s.modTake h f).safe = s.safe := rfl
@[simp] theorem State.modTake_flt (h : HandleId) (f : Take → Take) : (s.modTake h f).flt = s.flt := rfl
@[simp] theorem State.modTake_memory (h : HandleId) (f : Take → Take) : (s.modTake h f).memory = s.memory := rfl
@[simp] theorem State.modTake_host (h : HandleId) (f : Take → Take) : (s.modTake h f).host = s.host := rfl
@[simp] theorem State.modTake_upd (h : HandleId) (f : Take → Take) : (s.modTake h f).upd = s.upd := rfl
@[simp] theorem State.modTake_strm (h : HandleId) (f : Take → Take) : (s.modTake h f).strm = s.strm := rfl
@[simp] theorem State.modTake_out (h : HandleId) (f : Take → Take) : (s.modTake h f).out = s.out := rfl

@[simp] theorem State.modDest_pending (d : DestId) (f : Dest → Dest) : (s.modDest d f).pending = s.pending := rfl
@[simp] theorem State.modDest_free (d : DestId) (f : Dest → Dest) : (s.modDest d f).free = s.free := rfl
@[simp] theorem State.modDest_ticks (d : DestId) (f : Dest → Dest) : (s.modDest d f).ticks = s.ticks := rfl
@[simp] theorem State.modDest_rtAdj (d : DestId) (f : Dest → Dest) : (s.modDest d f).rtAdj = s.rtAdj := rfl
@[simp] theorem State.modDest_ringAt (d : DestId) (f : Dest → Dest) : (s.modDest d f).ringAt = s.ringAt := rfl
@[simp] theorem State.modDest_lineAt (d : DestId) (f : Dest → Dest) : (s.modDest d f).lineAt = s.lineAt := rfl
@[simp] theorem State.modDest_tx (d : DestId) (f : Dest → Dest) : (s.modDest d f).tx = s.tx := rfl
@[simp] theorem State.modDest_ltBase (d : DestId) (f : Dest → Dest) : (s.modDest d f).ltBase = s.ltBase := rfl
@[simp] theorem State.modDest_regs (d : DestId) (f : Dest → Dest) : (s.modDest d f).regs = s.regs := rfl
@[simp] theorem State.modDest_live (d : DestId) (f : Dest → Dest) : (s.modDest d f).live = s.live := rfl
@[simp] theorem State.modDest_vers (d : DestId) (f : Dest → Dest) : (s.modDest d f).vers = s.vers := rfl
@[simp] theorem State.modDest_mem (d : DestId) (f : Dest → Dest) : (s.modDest d f).mem = s.mem := rfl
@[simp] theorem State.modDest_ecc (d : DestId) (f : Dest → Dest) : (s.modDest d f).ecc = s.ecc := rfl
@[simp] theorem State.modDest_timer (d : DestId) (f : Dest → Dest) : (s.modDest d f).timer = s.timer := rfl
@[simp] theorem State.modDest_sup (d : DestId) (f : Dest → Dest) : (s.modDest d f).sup = s.sup := rfl
@[simp] theorem State.modDest_clk (d : DestId) (f : Dest → Dest) : (s.modDest d f).clk = s.clk := rfl
@[simp] theorem State.modDest_tim (d : DestId) (f : Dest → Dest) : (s.modDest d f).tim = s.tim := rfl
@[simp] theorem State.modDest_cores (d : DestId) (f : Dest → Dest) : (s.modDest d f).cores = s.cores := rfl
@[simp] theorem State.modDest_takes (d : DestId) (f : Dest → Dest) : (s.modDest d f).takes = s.takes := rfl
@[simp] theorem State.modDest_plan (d : DestId) (f : Dest → Dest) : (s.modDest d f).plan = s.plan.set d (f s.plan[d]) := rfl
@[simp] theorem State.modDest_rings (d : DestId) (f : Dest → Dest) : (s.modDest d f).rings = s.rings := rfl
@[simp] theorem State.modDest_ports (d : DestId) (f : Dest → Dest) : (s.modDest d f).ports = s.ports := rfl
@[simp] theorem State.modDest_evq (d : DestId) (f : Dest → Dest) : (s.modDest d f).evq = s.evq := rfl
@[simp] theorem State.modDest_access (d : DestId) (f : Dest → Dest) : (s.modDest d f).access = s.access := rfl
@[simp] theorem State.modDest_caTag (d : DestId) (f : Dest → Dest) : (s.modDest d f).caTag = s.caTag := rfl
@[simp] theorem State.modDest_cells (d : DestId) (f : Dest → Dest) : (s.modDest d f).cells = s.cells := rfl
@[simp] theorem State.modDest_brg (d : DestId) (f : Dest → Dest) : (s.modDest d f).brg = s.brg := rfl
@[simp] theorem State.modDest_adc (d : DestId) (f : Dest → Dest) : (s.modDest d f).adc = s.adc := rfl
@[simp] theorem State.modDest_capt (d : DestId) (f : Dest → Dest) : (s.modDest d f).capt = s.capt := rfl
@[simp] theorem State.modDest_mtr (d : DestId) (f : Dest → Dest) : (s.modDest d f).mtr = s.mtr := rfl
@[simp] theorem State.modDest_safe (d : DestId) (f : Dest → Dest) : (s.modDest d f).safe = s.safe := rfl
@[simp] theorem State.modDest_flt (d : DestId) (f : Dest → Dest) : (s.modDest d f).flt = s.flt := rfl
@[simp] theorem State.modDest_memory (d : DestId) (f : Dest → Dest) : (s.modDest d f).memory = s.memory := rfl
@[simp] theorem State.modDest_host (d : DestId) (f : Dest → Dest) : (s.modDest d f).host = s.host := rfl
@[simp] theorem State.modDest_upd (d : DestId) (f : Dest → Dest) : (s.modDest d f).upd = s.upd := rfl
@[simp] theorem State.modDest_strm (d : DestId) (f : Dest → Dest) : (s.modDest d f).strm = s.strm := rfl
@[simp] theorem State.modDest_out (d : DestId) (f : Dest → Dest) : (s.modDest d f).out = s.out := rfl

@[simp] theorem State.modRing_pending (x : RingId) (f : Ring → Ring) : (s.modRing x f).pending = s.pending := rfl
@[simp] theorem State.modRing_free (x : RingId) (f : Ring → Ring) : (s.modRing x f).free = s.free := rfl
@[simp] theorem State.modRing_ticks (x : RingId) (f : Ring → Ring) : (s.modRing x f).ticks = s.ticks := rfl
@[simp] theorem State.modRing_rtAdj (x : RingId) (f : Ring → Ring) : (s.modRing x f).rtAdj = s.rtAdj := rfl
@[simp] theorem State.modRing_ringAt (x : RingId) (f : Ring → Ring) : (s.modRing x f).ringAt = s.ringAt := rfl
@[simp] theorem State.modRing_lineAt (x : RingId) (f : Ring → Ring) : (s.modRing x f).lineAt = s.lineAt := rfl
@[simp] theorem State.modRing_tx (x : RingId) (f : Ring → Ring) : (s.modRing x f).tx = s.tx := rfl
@[simp] theorem State.modRing_ltBase (x : RingId) (f : Ring → Ring) : (s.modRing x f).ltBase = s.ltBase := rfl
@[simp] theorem State.modRing_regs (x : RingId) (f : Ring → Ring) : (s.modRing x f).regs = s.regs := rfl
@[simp] theorem State.modRing_live (x : RingId) (f : Ring → Ring) : (s.modRing x f).live = s.live := rfl
@[simp] theorem State.modRing_vers (x : RingId) (f : Ring → Ring) : (s.modRing x f).vers = s.vers := rfl
@[simp] theorem State.modRing_mem (x : RingId) (f : Ring → Ring) : (s.modRing x f).mem = s.mem := rfl
@[simp] theorem State.modRing_ecc (x : RingId) (f : Ring → Ring) : (s.modRing x f).ecc = s.ecc := rfl
@[simp] theorem State.modRing_timer (x : RingId) (f : Ring → Ring) : (s.modRing x f).timer = s.timer := rfl
@[simp] theorem State.modRing_sup (x : RingId) (f : Ring → Ring) : (s.modRing x f).sup = s.sup := rfl
@[simp] theorem State.modRing_clk (x : RingId) (f : Ring → Ring) : (s.modRing x f).clk = s.clk := rfl
@[simp] theorem State.modRing_tim (x : RingId) (f : Ring → Ring) : (s.modRing x f).tim = s.tim := rfl
@[simp] theorem State.modRing_cores (x : RingId) (f : Ring → Ring) : (s.modRing x f).cores = s.cores := rfl
@[simp] theorem State.modRing_takes (x : RingId) (f : Ring → Ring) : (s.modRing x f).takes = s.takes := rfl
@[simp] theorem State.modRing_plan (x : RingId) (f : Ring → Ring) : (s.modRing x f).plan = s.plan := rfl
@[simp] theorem State.modRing_rings (x : RingId) (f : Ring → Ring) : (s.modRing x f).rings = s.rings.set x (f s.rings[x]) := rfl
@[simp] theorem State.modRing_ports (x : RingId) (f : Ring → Ring) : (s.modRing x f).ports = s.ports := rfl
@[simp] theorem State.modRing_evq (x : RingId) (f : Ring → Ring) : (s.modRing x f).evq = s.evq := rfl
@[simp] theorem State.modRing_access (x : RingId) (f : Ring → Ring) : (s.modRing x f).access = s.access := rfl
@[simp] theorem State.modRing_caTag (x : RingId) (f : Ring → Ring) : (s.modRing x f).caTag = s.caTag := rfl
@[simp] theorem State.modRing_cells (x : RingId) (f : Ring → Ring) : (s.modRing x f).cells = s.cells := rfl
@[simp] theorem State.modRing_brg (x : RingId) (f : Ring → Ring) : (s.modRing x f).brg = s.brg := rfl
@[simp] theorem State.modRing_adc (x : RingId) (f : Ring → Ring) : (s.modRing x f).adc = s.adc := rfl
@[simp] theorem State.modRing_capt (x : RingId) (f : Ring → Ring) : (s.modRing x f).capt = s.capt := rfl
@[simp] theorem State.modRing_mtr (x : RingId) (f : Ring → Ring) : (s.modRing x f).mtr = s.mtr := rfl
@[simp] theorem State.modRing_safe (x : RingId) (f : Ring → Ring) : (s.modRing x f).safe = s.safe := rfl
@[simp] theorem State.modRing_flt (x : RingId) (f : Ring → Ring) : (s.modRing x f).flt = s.flt := rfl
@[simp] theorem State.modRing_memory (x : RingId) (f : Ring → Ring) : (s.modRing x f).memory = s.memory := rfl
@[simp] theorem State.modRing_host (x : RingId) (f : Ring → Ring) : (s.modRing x f).host = s.host := rfl
@[simp] theorem State.modRing_upd (x : RingId) (f : Ring → Ring) : (s.modRing x f).upd = s.upd := rfl
@[simp] theorem State.modRing_strm (x : RingId) (f : Ring → Ring) : (s.modRing x f).strm = s.strm := rfl
@[simp] theorem State.modRing_out (x : RingId) (f : Ring → Ring) : (s.modRing x f).out = s.out := rfl

@[simp] theorem State.modView_pending (x : RingId) (k : CellId) (f : CellView → CellView) : (s.modView x k f).pending = s.pending := rfl
@[simp] theorem State.modView_free (x : RingId) (k : CellId) (f : CellView → CellView) : (s.modView x k f).free = s.free := rfl
@[simp] theorem State.modView_ticks (x : RingId) (k : CellId) (f : CellView → CellView) : (s.modView x k f).ticks = s.ticks := rfl
@[simp] theorem State.modView_rtAdj (x : RingId) (k : CellId) (f : CellView → CellView) : (s.modView x k f).rtAdj = s.rtAdj := rfl
@[simp] theorem State.modView_ringAt (x : RingId) (k : CellId) (f : CellView → CellView) : (s.modView x k f).ringAt = s.ringAt := rfl
@[simp] theorem State.modView_lineAt (x : RingId) (k : CellId) (f : CellView → CellView) : (s.modView x k f).lineAt = s.lineAt := rfl
@[simp] theorem State.modView_tx (x : RingId) (k : CellId) (f : CellView → CellView) : (s.modView x k f).tx = s.tx := rfl
@[simp] theorem State.modView_ltBase (x : RingId) (k : CellId) (f : CellView → CellView) : (s.modView x k f).ltBase = s.ltBase := rfl
@[simp] theorem State.modView_regs (x : RingId) (k : CellId) (f : CellView → CellView) : (s.modView x k f).regs = s.regs := rfl
@[simp] theorem State.modView_live (x : RingId) (k : CellId) (f : CellView → CellView) : (s.modView x k f).live = s.live := rfl
@[simp] theorem State.modView_vers (x : RingId) (k : CellId) (f : CellView → CellView) : (s.modView x k f).vers = s.vers := rfl
@[simp] theorem State.modView_mem (x : RingId) (k : CellId) (f : CellView → CellView) : (s.modView x k f).mem = s.mem := rfl
@[simp] theorem State.modView_ecc (x : RingId) (k : CellId) (f : CellView → CellView) : (s.modView x k f).ecc = s.ecc := rfl
@[simp] theorem State.modView_timer (x : RingId) (k : CellId) (f : CellView → CellView) : (s.modView x k f).timer = s.timer := rfl
@[simp] theorem State.modView_sup (x : RingId) (k : CellId) (f : CellView → CellView) : (s.modView x k f).sup = s.sup := rfl
@[simp] theorem State.modView_clk (x : RingId) (k : CellId) (f : CellView → CellView) : (s.modView x k f).clk = s.clk := rfl
@[simp] theorem State.modView_tim (x : RingId) (k : CellId) (f : CellView → CellView) : (s.modView x k f).tim = s.tim := rfl
@[simp] theorem State.modView_cores (x : RingId) (k : CellId) (f : CellView → CellView) : (s.modView x k f).cores = s.cores := rfl
@[simp] theorem State.modView_takes (x : RingId) (k : CellId) (f : CellView → CellView) : (s.modView x k f).takes = s.takes := rfl
@[simp] theorem State.modView_plan (x : RingId) (k : CellId) (f : CellView → CellView) : (s.modView x k f).plan = s.plan := rfl
@[simp] theorem State.modView_ports (x : RingId) (k : CellId) (f : CellView → CellView) : (s.modView x k f).ports = s.ports := rfl
@[simp] theorem State.modView_evq (x : RingId) (k : CellId) (f : CellView → CellView) : (s.modView x k f).evq = s.evq := rfl
@[simp] theorem State.modView_access (x : RingId) (k : CellId) (f : CellView → CellView) : (s.modView x k f).access = s.access := rfl
@[simp] theorem State.modView_caTag (x : RingId) (k : CellId) (f : CellView → CellView) : (s.modView x k f).caTag = s.caTag := rfl
@[simp] theorem State.modView_cells (x : RingId) (k : CellId) (f : CellView → CellView) : (s.modView x k f).cells = s.cells := rfl
@[simp] theorem State.modView_brg (x : RingId) (k : CellId) (f : CellView → CellView) : (s.modView x k f).brg = s.brg := rfl
@[simp] theorem State.modView_adc (x : RingId) (k : CellId) (f : CellView → CellView) : (s.modView x k f).adc = s.adc := rfl
@[simp] theorem State.modView_capt (x : RingId) (k : CellId) (f : CellView → CellView) : (s.modView x k f).capt = s.capt := rfl
@[simp] theorem State.modView_mtr (x : RingId) (k : CellId) (f : CellView → CellView) : (s.modView x k f).mtr = s.mtr := rfl
@[simp] theorem State.modView_safe (x : RingId) (k : CellId) (f : CellView → CellView) : (s.modView x k f).safe = s.safe := rfl
@[simp] theorem State.modView_flt (x : RingId) (k : CellId) (f : CellView → CellView) : (s.modView x k f).flt = s.flt := rfl
@[simp] theorem State.modView_memory (x : RingId) (k : CellId) (f : CellView → CellView) : (s.modView x k f).memory = s.memory := rfl
@[simp] theorem State.modView_host (x : RingId) (k : CellId) (f : CellView → CellView) : (s.modView x k f).host = s.host := rfl
@[simp] theorem State.modView_upd (x : RingId) (k : CellId) (f : CellView → CellView) : (s.modView x k f).upd = s.upd := rfl
@[simp] theorem State.modView_strm (x : RingId) (k : CellId) (f : CellView → CellView) : (s.modView x k f).strm = s.strm := rfl
@[simp] theorem State.modView_out (x : RingId) (k : CellId) (f : CellView → CellView) : (s.modView x k f).out = s.out := rfl

@[simp] theorem State.modPort_pending (p : LaneId) (f : Port → Port) : (s.modPort p f).pending = s.pending := rfl
@[simp] theorem State.modPort_free (p : LaneId) (f : Port → Port) : (s.modPort p f).free = s.free := rfl
@[simp] theorem State.modPort_ticks (p : LaneId) (f : Port → Port) : (s.modPort p f).ticks = s.ticks := rfl
@[simp] theorem State.modPort_rtAdj (p : LaneId) (f : Port → Port) : (s.modPort p f).rtAdj = s.rtAdj := rfl
@[simp] theorem State.modPort_ringAt (p : LaneId) (f : Port → Port) : (s.modPort p f).ringAt = s.ringAt := rfl
@[simp] theorem State.modPort_lineAt (p : LaneId) (f : Port → Port) : (s.modPort p f).lineAt = s.lineAt := rfl
@[simp] theorem State.modPort_tx (p : LaneId) (f : Port → Port) : (s.modPort p f).tx = s.tx := rfl
@[simp] theorem State.modPort_ltBase (p : LaneId) (f : Port → Port) : (s.modPort p f).ltBase = s.ltBase := rfl
@[simp] theorem State.modPort_regs (p : LaneId) (f : Port → Port) : (s.modPort p f).regs = s.regs := rfl
@[simp] theorem State.modPort_live (p : LaneId) (f : Port → Port) : (s.modPort p f).live = s.live := rfl
@[simp] theorem State.modPort_vers (p : LaneId) (f : Port → Port) : (s.modPort p f).vers = s.vers := rfl
@[simp] theorem State.modPort_mem (p : LaneId) (f : Port → Port) : (s.modPort p f).mem = s.mem := rfl
@[simp] theorem State.modPort_ecc (p : LaneId) (f : Port → Port) : (s.modPort p f).ecc = s.ecc := rfl
@[simp] theorem State.modPort_timer (p : LaneId) (f : Port → Port) : (s.modPort p f).timer = s.timer := rfl
@[simp] theorem State.modPort_sup (p : LaneId) (f : Port → Port) : (s.modPort p f).sup = s.sup := rfl
@[simp] theorem State.modPort_clk (p : LaneId) (f : Port → Port) : (s.modPort p f).clk = s.clk := rfl
@[simp] theorem State.modPort_tim (p : LaneId) (f : Port → Port) : (s.modPort p f).tim = s.tim := rfl
@[simp] theorem State.modPort_cores (p : LaneId) (f : Port → Port) : (s.modPort p f).cores = s.cores := rfl
@[simp] theorem State.modPort_takes (p : LaneId) (f : Port → Port) : (s.modPort p f).takes = s.takes := rfl
@[simp] theorem State.modPort_plan (p : LaneId) (f : Port → Port) : (s.modPort p f).plan = s.plan := rfl
@[simp] theorem State.modPort_rings (p : LaneId) (f : Port → Port) : (s.modPort p f).rings = s.rings := rfl
@[simp] theorem State.modPort_ports (p : LaneId) (f : Port → Port) : (s.modPort p f).ports = s.ports.set p (f s.ports[p]) := rfl
@[simp] theorem State.modPort_evq (p : LaneId) (f : Port → Port) : (s.modPort p f).evq = s.evq := rfl
@[simp] theorem State.modPort_access (p : LaneId) (f : Port → Port) : (s.modPort p f).access = s.access := rfl
@[simp] theorem State.modPort_caTag (p : LaneId) (f : Port → Port) : (s.modPort p f).caTag = s.caTag := rfl
@[simp] theorem State.modPort_cells (p : LaneId) (f : Port → Port) : (s.modPort p f).cells = s.cells := rfl
@[simp] theorem State.modPort_brg (p : LaneId) (f : Port → Port) : (s.modPort p f).brg = s.brg := rfl
@[simp] theorem State.modPort_adc (p : LaneId) (f : Port → Port) : (s.modPort p f).adc = s.adc := rfl
@[simp] theorem State.modPort_capt (p : LaneId) (f : Port → Port) : (s.modPort p f).capt = s.capt := rfl
@[simp] theorem State.modPort_mtr (p : LaneId) (f : Port → Port) : (s.modPort p f).mtr = s.mtr := rfl
@[simp] theorem State.modPort_safe (p : LaneId) (f : Port → Port) : (s.modPort p f).safe = s.safe := rfl
@[simp] theorem State.modPort_flt (p : LaneId) (f : Port → Port) : (s.modPort p f).flt = s.flt := rfl
@[simp] theorem State.modPort_memory (p : LaneId) (f : Port → Port) : (s.modPort p f).memory = s.memory := rfl
@[simp] theorem State.modPort_host (p : LaneId) (f : Port → Port) : (s.modPort p f).host = s.host := rfl
@[simp] theorem State.modPort_upd (p : LaneId) (f : Port → Port) : (s.modPort p f).upd = s.upd := rfl
@[simp] theorem State.modPort_strm (p : LaneId) (f : Port → Port) : (s.modPort p f).strm = s.strm := rfl
@[simp] theorem State.modPort_out (p : LaneId) (f : Port → Port) : (s.modPort p f).out = s.out := rfl

@[simp] theorem State.modCell_pending (x : RingId) (k : CellId) (f : Cell → Cell) : (s.modCell x k f).pending = s.pending := rfl
@[simp] theorem State.modCell_free (x : RingId) (k : CellId) (f : Cell → Cell) : (s.modCell x k f).free = s.free := rfl
@[simp] theorem State.modCell_ticks (x : RingId) (k : CellId) (f : Cell → Cell) : (s.modCell x k f).ticks = s.ticks := rfl
@[simp] theorem State.modCell_rtAdj (x : RingId) (k : CellId) (f : Cell → Cell) : (s.modCell x k f).rtAdj = s.rtAdj := rfl
@[simp] theorem State.modCell_ringAt (x : RingId) (k : CellId) (f : Cell → Cell) : (s.modCell x k f).ringAt = s.ringAt := rfl
@[simp] theorem State.modCell_lineAt (x : RingId) (k : CellId) (f : Cell → Cell) : (s.modCell x k f).lineAt = s.lineAt := rfl
@[simp] theorem State.modCell_tx (x : RingId) (k : CellId) (f : Cell → Cell) : (s.modCell x k f).tx = s.tx := rfl
@[simp] theorem State.modCell_ltBase (x : RingId) (k : CellId) (f : Cell → Cell) : (s.modCell x k f).ltBase = s.ltBase := rfl
@[simp] theorem State.modCell_regs (x : RingId) (k : CellId) (f : Cell → Cell) : (s.modCell x k f).regs = s.regs := rfl
@[simp] theorem State.modCell_live (x : RingId) (k : CellId) (f : Cell → Cell) : (s.modCell x k f).live = s.live := rfl
@[simp] theorem State.modCell_vers (x : RingId) (k : CellId) (f : Cell → Cell) : (s.modCell x k f).vers = s.vers := rfl
@[simp] theorem State.modCell_mem (x : RingId) (k : CellId) (f : Cell → Cell) : (s.modCell x k f).mem = s.mem := rfl
@[simp] theorem State.modCell_ecc (x : RingId) (k : CellId) (f : Cell → Cell) : (s.modCell x k f).ecc = s.ecc := rfl
@[simp] theorem State.modCell_timer (x : RingId) (k : CellId) (f : Cell → Cell) : (s.modCell x k f).timer = s.timer := rfl
@[simp] theorem State.modCell_sup (x : RingId) (k : CellId) (f : Cell → Cell) : (s.modCell x k f).sup = s.sup := rfl
@[simp] theorem State.modCell_clk (x : RingId) (k : CellId) (f : Cell → Cell) : (s.modCell x k f).clk = s.clk := rfl
@[simp] theorem State.modCell_tim (x : RingId) (k : CellId) (f : Cell → Cell) : (s.modCell x k f).tim = s.tim := rfl
@[simp] theorem State.modCell_cores (x : RingId) (k : CellId) (f : Cell → Cell) : (s.modCell x k f).cores = s.cores := rfl
@[simp] theorem State.modCell_takes (x : RingId) (k : CellId) (f : Cell → Cell) : (s.modCell x k f).takes = s.takes := rfl
@[simp] theorem State.modCell_plan (x : RingId) (k : CellId) (f : Cell → Cell) : (s.modCell x k f).plan = s.plan := rfl
@[simp] theorem State.modCell_rings (x : RingId) (k : CellId) (f : Cell → Cell) : (s.modCell x k f).rings = s.rings := rfl
@[simp] theorem State.modCell_ports (x : RingId) (k : CellId) (f : Cell → Cell) : (s.modCell x k f).ports = s.ports := rfl
@[simp] theorem State.modCell_evq (x : RingId) (k : CellId) (f : Cell → Cell) : (s.modCell x k f).evq = s.evq := rfl
@[simp] theorem State.modCell_access (x : RingId) (k : CellId) (f : Cell → Cell) : (s.modCell x k f).access = s.access := rfl
@[simp] theorem State.modCell_caTag (x : RingId) (k : CellId) (f : Cell → Cell) : (s.modCell x k f).caTag = s.caTag := rfl
@[simp] theorem State.modCell_brg (x : RingId) (k : CellId) (f : Cell → Cell) : (s.modCell x k f).brg = s.brg := rfl
@[simp] theorem State.modCell_adc (x : RingId) (k : CellId) (f : Cell → Cell) : (s.modCell x k f).adc = s.adc := rfl
@[simp] theorem State.modCell_capt (x : RingId) (k : CellId) (f : Cell → Cell) : (s.modCell x k f).capt = s.capt := rfl
@[simp] theorem State.modCell_mtr (x : RingId) (k : CellId) (f : Cell → Cell) : (s.modCell x k f).mtr = s.mtr := rfl
@[simp] theorem State.modCell_safe (x : RingId) (k : CellId) (f : Cell → Cell) : (s.modCell x k f).safe = s.safe := rfl
@[simp] theorem State.modCell_flt (x : RingId) (k : CellId) (f : Cell → Cell) : (s.modCell x k f).flt = s.flt := rfl
@[simp] theorem State.modCell_memory (x : RingId) (k : CellId) (f : Cell → Cell) : (s.modCell x k f).memory = s.memory := rfl
@[simp] theorem State.modCell_host (x : RingId) (k : CellId) (f : Cell → Cell) : (s.modCell x k f).host = s.host := rfl
@[simp] theorem State.modCell_upd (x : RingId) (k : CellId) (f : Cell → Cell) : (s.modCell x k f).upd = s.upd := rfl
@[simp] theorem State.modCell_strm (x : RingId) (k : CellId) (f : Cell → Cell) : (s.modCell x k f).strm = s.strm := rfl
@[simp] theorem State.modCell_out (x : RingId) (k : CellId) (f : Cell → Cell) : (s.modCell x k f).out = s.out := rfl

@[simp] theorem State.modLeg_pending (x : LegId) (f : Leg → Leg) : (s.modLeg x f).pending = s.pending := rfl
@[simp] theorem State.modLeg_free (x : LegId) (f : Leg → Leg) : (s.modLeg x f).free = s.free := rfl
@[simp] theorem State.modLeg_ticks (x : LegId) (f : Leg → Leg) : (s.modLeg x f).ticks = s.ticks := rfl
@[simp] theorem State.modLeg_rtAdj (x : LegId) (f : Leg → Leg) : (s.modLeg x f).rtAdj = s.rtAdj := rfl
@[simp] theorem State.modLeg_ringAt (x : LegId) (f : Leg → Leg) : (s.modLeg x f).ringAt = s.ringAt := rfl
@[simp] theorem State.modLeg_lineAt (x : LegId) (f : Leg → Leg) : (s.modLeg x f).lineAt = s.lineAt := rfl
@[simp] theorem State.modLeg_tx (x : LegId) (f : Leg → Leg) : (s.modLeg x f).tx = s.tx := rfl
@[simp] theorem State.modLeg_ltBase (x : LegId) (f : Leg → Leg) : (s.modLeg x f).ltBase = s.ltBase := rfl
@[simp] theorem State.modLeg_regs (x : LegId) (f : Leg → Leg) : (s.modLeg x f).regs = s.regs := rfl
@[simp] theorem State.modLeg_live (x : LegId) (f : Leg → Leg) : (s.modLeg x f).live = s.live := rfl
@[simp] theorem State.modLeg_vers (x : LegId) (f : Leg → Leg) : (s.modLeg x f).vers = s.vers := rfl
@[simp] theorem State.modLeg_mem (x : LegId) (f : Leg → Leg) : (s.modLeg x f).mem = s.mem := rfl
@[simp] theorem State.modLeg_ecc (x : LegId) (f : Leg → Leg) : (s.modLeg x f).ecc = s.ecc := rfl
@[simp] theorem State.modLeg_timer (x : LegId) (f : Leg → Leg) : (s.modLeg x f).timer = s.timer := rfl
@[simp] theorem State.modLeg_sup (x : LegId) (f : Leg → Leg) : (s.modLeg x f).sup = s.sup := rfl
@[simp] theorem State.modLeg_clk (x : LegId) (f : Leg → Leg) : (s.modLeg x f).clk = s.clk := rfl
@[simp] theorem State.modLeg_tim (x : LegId) (f : Leg → Leg) : (s.modLeg x f).tim = s.tim := rfl
@[simp] theorem State.modLeg_cores (x : LegId) (f : Leg → Leg) : (s.modLeg x f).cores = s.cores := rfl
@[simp] theorem State.modLeg_takes (x : LegId) (f : Leg → Leg) : (s.modLeg x f).takes = s.takes := rfl
@[simp] theorem State.modLeg_plan (x : LegId) (f : Leg → Leg) : (s.modLeg x f).plan = s.plan := rfl
@[simp] theorem State.modLeg_rings (x : LegId) (f : Leg → Leg) : (s.modLeg x f).rings = s.rings := rfl
@[simp] theorem State.modLeg_ports (x : LegId) (f : Leg → Leg) : (s.modLeg x f).ports = s.ports := rfl
@[simp] theorem State.modLeg_evq (x : LegId) (f : Leg → Leg) : (s.modLeg x f).evq = s.evq := rfl
@[simp] theorem State.modLeg_access (x : LegId) (f : Leg → Leg) : (s.modLeg x f).access = s.access := rfl
@[simp] theorem State.modLeg_caTag (x : LegId) (f : Leg → Leg) : (s.modLeg x f).caTag = s.caTag := rfl
@[simp] theorem State.modLeg_cells (x : LegId) (f : Leg → Leg) : (s.modLeg x f).cells = s.cells := rfl
@[simp] theorem State.modLeg_adc (x : LegId) (f : Leg → Leg) : (s.modLeg x f).adc = s.adc := rfl
@[simp] theorem State.modLeg_capt (x : LegId) (f : Leg → Leg) : (s.modLeg x f).capt = s.capt := rfl
@[simp] theorem State.modLeg_mtr (x : LegId) (f : Leg → Leg) : (s.modLeg x f).mtr = s.mtr := rfl
@[simp] theorem State.modLeg_safe (x : LegId) (f : Leg → Leg) : (s.modLeg x f).safe = s.safe := rfl
@[simp] theorem State.modLeg_flt (x : LegId) (f : Leg → Leg) : (s.modLeg x f).flt = s.flt := rfl
@[simp] theorem State.modLeg_memory (x : LegId) (f : Leg → Leg) : (s.modLeg x f).memory = s.memory := rfl
@[simp] theorem State.modLeg_host (x : LegId) (f : Leg → Leg) : (s.modLeg x f).host = s.host := rfl
@[simp] theorem State.modLeg_upd (x : LegId) (f : Leg → Leg) : (s.modLeg x f).upd = s.upd := rfl
@[simp] theorem State.modLeg_strm (x : LegId) (f : Leg → Leg) : (s.modLeg x f).strm = s.strm := rfl
@[simp] theorem State.modLeg_out (x : LegId) (f : Leg → Leg) : (s.modLeg x f).out = s.out := rfl

@[simp] theorem State.modCapt_pending (u : CaptId) (f : Capt → Capt) : (s.modCapt u f).pending = s.pending := rfl
@[simp] theorem State.modCapt_free (u : CaptId) (f : Capt → Capt) : (s.modCapt u f).free = s.free := rfl
@[simp] theorem State.modCapt_ticks (u : CaptId) (f : Capt → Capt) : (s.modCapt u f).ticks = s.ticks := rfl
@[simp] theorem State.modCapt_rtAdj (u : CaptId) (f : Capt → Capt) : (s.modCapt u f).rtAdj = s.rtAdj := rfl
@[simp] theorem State.modCapt_ringAt (u : CaptId) (f : Capt → Capt) : (s.modCapt u f).ringAt = s.ringAt := rfl
@[simp] theorem State.modCapt_lineAt (u : CaptId) (f : Capt → Capt) : (s.modCapt u f).lineAt = s.lineAt := rfl
@[simp] theorem State.modCapt_tx (u : CaptId) (f : Capt → Capt) : (s.modCapt u f).tx = s.tx := rfl
@[simp] theorem State.modCapt_ltBase (u : CaptId) (f : Capt → Capt) : (s.modCapt u f).ltBase = s.ltBase := rfl
@[simp] theorem State.modCapt_regs (u : CaptId) (f : Capt → Capt) : (s.modCapt u f).regs = s.regs := rfl
@[simp] theorem State.modCapt_live (u : CaptId) (f : Capt → Capt) : (s.modCapt u f).live = s.live := rfl
@[simp] theorem State.modCapt_vers (u : CaptId) (f : Capt → Capt) : (s.modCapt u f).vers = s.vers := rfl
@[simp] theorem State.modCapt_mem (u : CaptId) (f : Capt → Capt) : (s.modCapt u f).mem = s.mem := rfl
@[simp] theorem State.modCapt_ecc (u : CaptId) (f : Capt → Capt) : (s.modCapt u f).ecc = s.ecc := rfl
@[simp] theorem State.modCapt_timer (u : CaptId) (f : Capt → Capt) : (s.modCapt u f).timer = s.timer := rfl
@[simp] theorem State.modCapt_sup (u : CaptId) (f : Capt → Capt) : (s.modCapt u f).sup = s.sup := rfl
@[simp] theorem State.modCapt_clk (u : CaptId) (f : Capt → Capt) : (s.modCapt u f).clk = s.clk := rfl
@[simp] theorem State.modCapt_tim (u : CaptId) (f : Capt → Capt) : (s.modCapt u f).tim = s.tim := rfl
@[simp] theorem State.modCapt_cores (u : CaptId) (f : Capt → Capt) : (s.modCapt u f).cores = s.cores := rfl
@[simp] theorem State.modCapt_takes (u : CaptId) (f : Capt → Capt) : (s.modCapt u f).takes = s.takes := rfl
@[simp] theorem State.modCapt_plan (u : CaptId) (f : Capt → Capt) : (s.modCapt u f).plan = s.plan := rfl
@[simp] theorem State.modCapt_rings (u : CaptId) (f : Capt → Capt) : (s.modCapt u f).rings = s.rings := rfl
@[simp] theorem State.modCapt_ports (u : CaptId) (f : Capt → Capt) : (s.modCapt u f).ports = s.ports := rfl
@[simp] theorem State.modCapt_evq (u : CaptId) (f : Capt → Capt) : (s.modCapt u f).evq = s.evq := rfl
@[simp] theorem State.modCapt_access (u : CaptId) (f : Capt → Capt) : (s.modCapt u f).access = s.access := rfl
@[simp] theorem State.modCapt_caTag (u : CaptId) (f : Capt → Capt) : (s.modCapt u f).caTag = s.caTag := rfl
@[simp] theorem State.modCapt_cells (u : CaptId) (f : Capt → Capt) : (s.modCapt u f).cells = s.cells := rfl
@[simp] theorem State.modCapt_brg (u : CaptId) (f : Capt → Capt) : (s.modCapt u f).brg = s.brg := rfl
@[simp] theorem State.modCapt_adc (u : CaptId) (f : Capt → Capt) : (s.modCapt u f).adc = s.adc := rfl
@[simp] theorem State.modCapt_capt (u : CaptId) (f : Capt → Capt) : (s.modCapt u f).capt = s.capt.set u (f s.capt[u]) := rfl
@[simp] theorem State.modCapt_mtr (u : CaptId) (f : Capt → Capt) : (s.modCapt u f).mtr = s.mtr := rfl
@[simp] theorem State.modCapt_safe (u : CaptId) (f : Capt → Capt) : (s.modCapt u f).safe = s.safe := rfl
@[simp] theorem State.modCapt_flt (u : CaptId) (f : Capt → Capt) : (s.modCapt u f).flt = s.flt := rfl
@[simp] theorem State.modCapt_memory (u : CaptId) (f : Capt → Capt) : (s.modCapt u f).memory = s.memory := rfl
@[simp] theorem State.modCapt_host (u : CaptId) (f : Capt → Capt) : (s.modCapt u f).host = s.host := rfl
@[simp] theorem State.modCapt_upd (u : CaptId) (f : Capt → Capt) : (s.modCapt u f).upd = s.upd := rfl
@[simp] theorem State.modCapt_strm (u : CaptId) (f : Capt → Capt) : (s.modCapt u f).strm = s.strm := rfl
@[simp] theorem State.modCapt_out (u : CaptId) (f : Capt → Capt) : (s.modCapt u f).out = s.out := rfl

@[simp] theorem State.modHost_pending (h : HostPort) (f : HPort → HPort) : (s.modHost h f).pending = s.pending := rfl
@[simp] theorem State.modHost_free (h : HostPort) (f : HPort → HPort) : (s.modHost h f).free = s.free := rfl
@[simp] theorem State.modHost_ticks (h : HostPort) (f : HPort → HPort) : (s.modHost h f).ticks = s.ticks := rfl
@[simp] theorem State.modHost_rtAdj (h : HostPort) (f : HPort → HPort) : (s.modHost h f).rtAdj = s.rtAdj := rfl
@[simp] theorem State.modHost_ringAt (h : HostPort) (f : HPort → HPort) : (s.modHost h f).ringAt = s.ringAt := rfl
@[simp] theorem State.modHost_lineAt (h : HostPort) (f : HPort → HPort) : (s.modHost h f).lineAt = s.lineAt := rfl
@[simp] theorem State.modHost_tx (h : HostPort) (f : HPort → HPort) : (s.modHost h f).tx = s.tx := rfl
@[simp] theorem State.modHost_ltBase (h : HostPort) (f : HPort → HPort) : (s.modHost h f).ltBase = s.ltBase := rfl
@[simp] theorem State.modHost_regs (h : HostPort) (f : HPort → HPort) : (s.modHost h f).regs = s.regs := rfl
@[simp] theorem State.modHost_live (h : HostPort) (f : HPort → HPort) : (s.modHost h f).live = s.live := rfl
@[simp] theorem State.modHost_vers (h : HostPort) (f : HPort → HPort) : (s.modHost h f).vers = s.vers := rfl
@[simp] theorem State.modHost_mem (h : HostPort) (f : HPort → HPort) : (s.modHost h f).mem = s.mem := rfl
@[simp] theorem State.modHost_ecc (h : HostPort) (f : HPort → HPort) : (s.modHost h f).ecc = s.ecc := rfl
@[simp] theorem State.modHost_timer (h : HostPort) (f : HPort → HPort) : (s.modHost h f).timer = s.timer := rfl
@[simp] theorem State.modHost_sup (h : HostPort) (f : HPort → HPort) : (s.modHost h f).sup = s.sup := rfl
@[simp] theorem State.modHost_clk (h : HostPort) (f : HPort → HPort) : (s.modHost h f).clk = s.clk := rfl
@[simp] theorem State.modHost_tim (h : HostPort) (f : HPort → HPort) : (s.modHost h f).tim = s.tim := rfl
@[simp] theorem State.modHost_cores (h : HostPort) (f : HPort → HPort) : (s.modHost h f).cores = s.cores := rfl
@[simp] theorem State.modHost_takes (h : HostPort) (f : HPort → HPort) : (s.modHost h f).takes = s.takes := rfl
@[simp] theorem State.modHost_plan (h : HostPort) (f : HPort → HPort) : (s.modHost h f).plan = s.plan := rfl
@[simp] theorem State.modHost_rings (h : HostPort) (f : HPort → HPort) : (s.modHost h f).rings = s.rings := rfl
@[simp] theorem State.modHost_ports (h : HostPort) (f : HPort → HPort) : (s.modHost h f).ports = s.ports := rfl
@[simp] theorem State.modHost_evq (h : HostPort) (f : HPort → HPort) : (s.modHost h f).evq = s.evq := rfl
@[simp] theorem State.modHost_access (h : HostPort) (f : HPort → HPort) : (s.modHost h f).access = s.access := rfl
@[simp] theorem State.modHost_caTag (h : HostPort) (f : HPort → HPort) : (s.modHost h f).caTag = s.caTag := rfl
@[simp] theorem State.modHost_cells (h : HostPort) (f : HPort → HPort) : (s.modHost h f).cells = s.cells := rfl
@[simp] theorem State.modHost_brg (h : HostPort) (f : HPort → HPort) : (s.modHost h f).brg = s.brg := rfl
@[simp] theorem State.modHost_adc (h : HostPort) (f : HPort → HPort) : (s.modHost h f).adc = s.adc := rfl
@[simp] theorem State.modHost_capt (h : HostPort) (f : HPort → HPort) : (s.modHost h f).capt = s.capt := rfl
@[simp] theorem State.modHost_mtr (h : HostPort) (f : HPort → HPort) : (s.modHost h f).mtr = s.mtr := rfl
@[simp] theorem State.modHost_safe (h : HostPort) (f : HPort → HPort) : (s.modHost h f).safe = s.safe := rfl
@[simp] theorem State.modHost_flt (h : HostPort) (f : HPort → HPort) : (s.modHost h f).flt = s.flt := rfl
@[simp] theorem State.modHost_memory (h : HostPort) (f : HPort → HPort) : (s.modHost h f).memory = s.memory := rfl
@[simp] theorem State.modHost_host (h : HostPort) (f : HPort → HPort) : (s.modHost h f).host = s.host.set h (f s.host[h]) := rfl
@[simp] theorem State.modHost_upd (h : HostPort) (f : HPort → HPort) : (s.modHost h f).upd = s.upd := rfl
@[simp] theorem State.modHost_strm (h : HostPort) (f : HPort → HPort) : (s.modHost h f).strm = s.strm := rfl
@[simp] theorem State.modHost_out (h : HostPort) (f : HPort → HPort) : (s.modHost h f).out = s.out := rfl

@[simp] theorem State.modMtr_pending (f : Mtr → Mtr) : (s.modMtr f).pending = s.pending := rfl
@[simp] theorem State.modMtr_free (f : Mtr → Mtr) : (s.modMtr f).free = s.free := rfl
@[simp] theorem State.modMtr_ticks (f : Mtr → Mtr) : (s.modMtr f).ticks = s.ticks := rfl
@[simp] theorem State.modMtr_rtAdj (f : Mtr → Mtr) : (s.modMtr f).rtAdj = s.rtAdj := rfl
@[simp] theorem State.modMtr_ringAt (f : Mtr → Mtr) : (s.modMtr f).ringAt = s.ringAt := rfl
@[simp] theorem State.modMtr_lineAt (f : Mtr → Mtr) : (s.modMtr f).lineAt = s.lineAt := rfl
@[simp] theorem State.modMtr_tx (f : Mtr → Mtr) : (s.modMtr f).tx = s.tx := rfl
@[simp] theorem State.modMtr_ltBase (f : Mtr → Mtr) : (s.modMtr f).ltBase = s.ltBase := rfl
@[simp] theorem State.modMtr_regs (f : Mtr → Mtr) : (s.modMtr f).regs = s.regs := rfl
@[simp] theorem State.modMtr_live (f : Mtr → Mtr) : (s.modMtr f).live = s.live := rfl
@[simp] theorem State.modMtr_vers (f : Mtr → Mtr) : (s.modMtr f).vers = s.vers := rfl
@[simp] theorem State.modMtr_mem (f : Mtr → Mtr) : (s.modMtr f).mem = s.mem := rfl
@[simp] theorem State.modMtr_ecc (f : Mtr → Mtr) : (s.modMtr f).ecc = s.ecc := rfl
@[simp] theorem State.modMtr_timer (f : Mtr → Mtr) : (s.modMtr f).timer = s.timer := rfl
@[simp] theorem State.modMtr_sup (f : Mtr → Mtr) : (s.modMtr f).sup = s.sup := rfl
@[simp] theorem State.modMtr_clk (f : Mtr → Mtr) : (s.modMtr f).clk = s.clk := rfl
@[simp] theorem State.modMtr_tim (f : Mtr → Mtr) : (s.modMtr f).tim = s.tim := rfl
@[simp] theorem State.modMtr_cores (f : Mtr → Mtr) : (s.modMtr f).cores = s.cores := rfl
@[simp] theorem State.modMtr_takes (f : Mtr → Mtr) : (s.modMtr f).takes = s.takes := rfl
@[simp] theorem State.modMtr_plan (f : Mtr → Mtr) : (s.modMtr f).plan = s.plan := rfl
@[simp] theorem State.modMtr_rings (f : Mtr → Mtr) : (s.modMtr f).rings = s.rings := rfl
@[simp] theorem State.modMtr_ports (f : Mtr → Mtr) : (s.modMtr f).ports = s.ports := rfl
@[simp] theorem State.modMtr_evq (f : Mtr → Mtr) : (s.modMtr f).evq = s.evq := rfl
@[simp] theorem State.modMtr_access (f : Mtr → Mtr) : (s.modMtr f).access = s.access := rfl
@[simp] theorem State.modMtr_caTag (f : Mtr → Mtr) : (s.modMtr f).caTag = s.caTag := rfl
@[simp] theorem State.modMtr_cells (f : Mtr → Mtr) : (s.modMtr f).cells = s.cells := rfl
@[simp] theorem State.modMtr_brg (f : Mtr → Mtr) : (s.modMtr f).brg = s.brg := rfl
@[simp] theorem State.modMtr_adc (f : Mtr → Mtr) : (s.modMtr f).adc = s.adc := rfl
@[simp] theorem State.modMtr_capt (f : Mtr → Mtr) : (s.modMtr f).capt = s.capt := rfl
@[simp] theorem State.modMtr_mtr (f : Mtr → Mtr) : (s.modMtr f).mtr = f s.mtr := rfl
@[simp] theorem State.modMtr_safe (f : Mtr → Mtr) : (s.modMtr f).safe = s.safe := rfl
@[simp] theorem State.modMtr_flt (f : Mtr → Mtr) : (s.modMtr f).flt = s.flt := rfl
@[simp] theorem State.modMtr_memory (f : Mtr → Mtr) : (s.modMtr f).memory = s.memory := rfl
@[simp] theorem State.modMtr_host (f : Mtr → Mtr) : (s.modMtr f).host = s.host := rfl
@[simp] theorem State.modMtr_upd (f : Mtr → Mtr) : (s.modMtr f).upd = s.upd := rfl
@[simp] theorem State.modMtr_strm (f : Mtr → Mtr) : (s.modMtr f).strm = s.strm := rfl
@[simp] theorem State.modMtr_out (f : Mtr → Mtr) : (s.modMtr f).out = s.out := rfl

@[simp] theorem State.modSafe_pending (f : Safe → Safe) : (s.modSafe f).pending = s.pending := rfl
@[simp] theorem State.modSafe_free (f : Safe → Safe) : (s.modSafe f).free = s.free := rfl
@[simp] theorem State.modSafe_ticks (f : Safe → Safe) : (s.modSafe f).ticks = s.ticks := rfl
@[simp] theorem State.modSafe_rtAdj (f : Safe → Safe) : (s.modSafe f).rtAdj = s.rtAdj := rfl
@[simp] theorem State.modSafe_ringAt (f : Safe → Safe) : (s.modSafe f).ringAt = s.ringAt := rfl
@[simp] theorem State.modSafe_lineAt (f : Safe → Safe) : (s.modSafe f).lineAt = s.lineAt := rfl
@[simp] theorem State.modSafe_tx (f : Safe → Safe) : (s.modSafe f).tx = s.tx := rfl
@[simp] theorem State.modSafe_ltBase (f : Safe → Safe) : (s.modSafe f).ltBase = s.ltBase := rfl
@[simp] theorem State.modSafe_regs (f : Safe → Safe) : (s.modSafe f).regs = s.regs := rfl
@[simp] theorem State.modSafe_live (f : Safe → Safe) : (s.modSafe f).live = s.live := rfl
@[simp] theorem State.modSafe_vers (f : Safe → Safe) : (s.modSafe f).vers = s.vers := rfl
@[simp] theorem State.modSafe_mem (f : Safe → Safe) : (s.modSafe f).mem = s.mem := rfl
@[simp] theorem State.modSafe_ecc (f : Safe → Safe) : (s.modSafe f).ecc = s.ecc := rfl
@[simp] theorem State.modSafe_timer (f : Safe → Safe) : (s.modSafe f).timer = s.timer := rfl
@[simp] theorem State.modSafe_sup (f : Safe → Safe) : (s.modSafe f).sup = s.sup := rfl
@[simp] theorem State.modSafe_clk (f : Safe → Safe) : (s.modSafe f).clk = s.clk := rfl
@[simp] theorem State.modSafe_tim (f : Safe → Safe) : (s.modSafe f).tim = s.tim := rfl
@[simp] theorem State.modSafe_cores (f : Safe → Safe) : (s.modSafe f).cores = s.cores := rfl
@[simp] theorem State.modSafe_takes (f : Safe → Safe) : (s.modSafe f).takes = s.takes := rfl
@[simp] theorem State.modSafe_plan (f : Safe → Safe) : (s.modSafe f).plan = s.plan := rfl
@[simp] theorem State.modSafe_rings (f : Safe → Safe) : (s.modSafe f).rings = s.rings := rfl
@[simp] theorem State.modSafe_ports (f : Safe → Safe) : (s.modSafe f).ports = s.ports := rfl
@[simp] theorem State.modSafe_evq (f : Safe → Safe) : (s.modSafe f).evq = s.evq := rfl
@[simp] theorem State.modSafe_access (f : Safe → Safe) : (s.modSafe f).access = s.access := rfl
@[simp] theorem State.modSafe_caTag (f : Safe → Safe) : (s.modSafe f).caTag = s.caTag := rfl
@[simp] theorem State.modSafe_cells (f : Safe → Safe) : (s.modSafe f).cells = s.cells := rfl
@[simp] theorem State.modSafe_brg (f : Safe → Safe) : (s.modSafe f).brg = s.brg := rfl
@[simp] theorem State.modSafe_adc (f : Safe → Safe) : (s.modSafe f).adc = s.adc := rfl
@[simp] theorem State.modSafe_capt (f : Safe → Safe) : (s.modSafe f).capt = s.capt := rfl
@[simp] theorem State.modSafe_mtr (f : Safe → Safe) : (s.modSafe f).mtr = s.mtr := rfl
@[simp] theorem State.modSafe_safe (f : Safe → Safe) : (s.modSafe f).safe = f s.safe := rfl
@[simp] theorem State.modSafe_flt (f : Safe → Safe) : (s.modSafe f).flt = s.flt := rfl
@[simp] theorem State.modSafe_memory (f : Safe → Safe) : (s.modSafe f).memory = s.memory := rfl
@[simp] theorem State.modSafe_host (f : Safe → Safe) : (s.modSafe f).host = s.host := rfl
@[simp] theorem State.modSafe_upd (f : Safe → Safe) : (s.modSafe f).upd = s.upd := rfl
@[simp] theorem State.modSafe_strm (f : Safe → Safe) : (s.modSafe f).strm = s.strm := rfl
@[simp] theorem State.modSafe_out (f : Safe → Safe) : (s.modSafe f).out = s.out := rfl

@[simp] theorem State.fresh_pending : (s.fresh).pending = s.pending := rfl
@[simp] theorem State.fresh_free : (s.fresh).free = s.free := rfl
@[simp] theorem State.fresh_ticks : (s.fresh).ticks = s.ticks := rfl
@[simp] theorem State.fresh_rtAdj : (s.fresh).rtAdj = s.rtAdj := rfl
@[simp] theorem State.fresh_ringAt : (s.fresh).ringAt = s.ringAt := rfl
@[simp] theorem State.fresh_lineAt : (s.fresh).lineAt = s.lineAt := rfl
@[simp] theorem State.fresh_tx : (s.fresh).tx = s.tx := rfl
@[simp] theorem State.fresh_ltBase : (s.fresh).ltBase = s.ltBase := rfl
@[simp] theorem State.fresh_regs : (s.fresh).regs = s.regs := rfl
@[simp] theorem State.fresh_live : (s.fresh).live = s.live := rfl
@[simp] theorem State.fresh_vers : (s.fresh).vers = s.vers := rfl
@[simp] theorem State.fresh_mem : (s.fresh).mem = s.mem := rfl
@[simp] theorem State.fresh_ecc : (s.fresh).ecc = s.ecc := rfl
@[simp] theorem State.fresh_timer : (s.fresh).timer = s.timer := rfl
@[simp] theorem State.fresh_sup : (s.fresh).sup = s.sup := rfl
@[simp] theorem State.fresh_clk : (s.fresh).clk = s.clk := rfl
@[simp] theorem State.fresh_tim : (s.fresh).tim = s.tim := rfl
@[simp] theorem State.fresh_cores : (s.fresh).cores = s.cores := rfl
@[simp] theorem State.fresh_takes : (s.fresh).takes = s.takes := rfl
@[simp] theorem State.fresh_plan : (s.fresh).plan = s.plan := rfl
@[simp] theorem State.fresh_rings : (s.fresh).rings = s.rings := rfl
@[simp] theorem State.fresh_ports : (s.fresh).ports = s.ports := rfl
@[simp] theorem State.fresh_evq : (s.fresh).evq = s.evq := rfl
@[simp] theorem State.fresh_access : (s.fresh).access = s.access := rfl
@[simp] theorem State.fresh_caTag : (s.fresh).caTag = s.caTag := rfl
@[simp] theorem State.fresh_cells : (s.fresh).cells = s.cells := rfl
@[simp] theorem State.fresh_brg : (s.fresh).brg = s.brg := rfl
@[simp] theorem State.fresh_adc : (s.fresh).adc = s.adc := rfl
@[simp] theorem State.fresh_capt : (s.fresh).capt = s.capt := rfl
@[simp] theorem State.fresh_mtr : (s.fresh).mtr = s.mtr := rfl
@[simp] theorem State.fresh_safe : (s.fresh).safe = s.safe := rfl
@[simp] theorem State.fresh_flt : (s.fresh).flt = s.flt := rfl
@[simp] theorem State.fresh_memory : (s.fresh).memory = s.memory := rfl
@[simp] theorem State.fresh_host : (s.fresh).host = s.host := rfl
@[simp] theorem State.fresh_upd : (s.fresh).upd = s.upd := rfl
@[simp] theorem State.fresh_strm : (s.fresh).strm = s.strm := rfl
@[simp] theorem State.fresh_out : (s.fresh).out = [] := rfl

@[simp] theorem State.emit_pending (o : Out) : (s.emit o).pending = s.pending := rfl
@[simp] theorem State.emit_free (o : Out) : (s.emit o).free = s.free := rfl
@[simp] theorem State.emit_ticks (o : Out) : (s.emit o).ticks = s.ticks := rfl
@[simp] theorem State.emit_rtAdj (o : Out) : (s.emit o).rtAdj = s.rtAdj := rfl
@[simp] theorem State.emit_ringAt (o : Out) : (s.emit o).ringAt = s.ringAt := rfl
@[simp] theorem State.emit_lineAt (o : Out) : (s.emit o).lineAt = s.lineAt := rfl
@[simp] theorem State.emit_tx (o : Out) : (s.emit o).tx = s.tx := rfl
@[simp] theorem State.emit_ltBase (o : Out) : (s.emit o).ltBase = s.ltBase := rfl
@[simp] theorem State.emit_regs (o : Out) : (s.emit o).regs = s.regs := rfl
@[simp] theorem State.emit_live (o : Out) : (s.emit o).live = s.live := rfl
@[simp] theorem State.emit_vers (o : Out) : (s.emit o).vers = s.vers := rfl
@[simp] theorem State.emit_mem (o : Out) : (s.emit o).mem = s.mem := rfl
@[simp] theorem State.emit_ecc (o : Out) : (s.emit o).ecc = s.ecc := rfl
@[simp] theorem State.emit_timer (o : Out) : (s.emit o).timer = s.timer := rfl
@[simp] theorem State.emit_sup (o : Out) : (s.emit o).sup = s.sup := rfl
@[simp] theorem State.emit_clk (o : Out) : (s.emit o).clk = s.clk := rfl
@[simp] theorem State.emit_tim (o : Out) : (s.emit o).tim = s.tim := rfl
@[simp] theorem State.emit_cores (o : Out) : (s.emit o).cores = s.cores := rfl
@[simp] theorem State.emit_takes (o : Out) : (s.emit o).takes = s.takes := rfl
@[simp] theorem State.emit_plan (o : Out) : (s.emit o).plan = s.plan := rfl
@[simp] theorem State.emit_rings (o : Out) : (s.emit o).rings = s.rings := rfl
@[simp] theorem State.emit_ports (o : Out) : (s.emit o).ports = s.ports := rfl
@[simp] theorem State.emit_evq (o : Out) : (s.emit o).evq = s.evq := rfl
@[simp] theorem State.emit_access (o : Out) : (s.emit o).access = s.access := rfl
@[simp] theorem State.emit_caTag (o : Out) : (s.emit o).caTag = s.caTag := rfl
@[simp] theorem State.emit_cells (o : Out) : (s.emit o).cells = s.cells := rfl
@[simp] theorem State.emit_brg (o : Out) : (s.emit o).brg = s.brg := rfl
@[simp] theorem State.emit_adc (o : Out) : (s.emit o).adc = s.adc := rfl
@[simp] theorem State.emit_capt (o : Out) : (s.emit o).capt = s.capt := rfl
@[simp] theorem State.emit_mtr (o : Out) : (s.emit o).mtr = s.mtr := rfl
@[simp] theorem State.emit_safe (o : Out) : (s.emit o).safe = s.safe := rfl
@[simp] theorem State.emit_flt (o : Out) : (s.emit o).flt = s.flt := rfl
@[simp] theorem State.emit_memory (o : Out) : (s.emit o).memory = s.memory := rfl
@[simp] theorem State.emit_host (o : Out) : (s.emit o).host = s.host := rfl
@[simp] theorem State.emit_upd (o : Out) : (s.emit o).upd = s.upd := rfl
@[simp] theorem State.emit_strm (o : Out) : (s.emit o).strm = s.strm := rfl
@[simp] theorem State.emit_out (o : Out) : (s.emit o).out = s.out ++ [o] := rfl

@[simp] theorem State.advanceTo_pending (t : Nat) : (s.advanceTo t).pending = s.pending := rfl
@[simp] theorem State.advanceTo_free (t : Nat) : (s.advanceTo t).free = s.free := rfl
@[simp] theorem State.advanceTo_ticks (t : Nat) : (s.advanceTo t).ticks = max s.ticks t := rfl
@[simp] theorem State.advanceTo_rtAdj (t : Nat) : (s.advanceTo t).rtAdj = s.rtAdj := rfl
@[simp] theorem State.advanceTo_ringAt (t : Nat) : (s.advanceTo t).ringAt = s.ringAt := rfl
@[simp] theorem State.advanceTo_lineAt (t : Nat) : (s.advanceTo t).lineAt = s.lineAt := rfl
@[simp] theorem State.advanceTo_tx (t : Nat) : (s.advanceTo t).tx = s.tx := rfl
@[simp] theorem State.advanceTo_ltBase (t : Nat) : (s.advanceTo t).ltBase = s.ltBase := rfl
@[simp] theorem State.advanceTo_regs (t : Nat) : (s.advanceTo t).regs = s.regs := rfl
@[simp] theorem State.advanceTo_live (t : Nat) : (s.advanceTo t).live = s.live := rfl
@[simp] theorem State.advanceTo_vers (t : Nat) : (s.advanceTo t).vers = s.vers := rfl
@[simp] theorem State.advanceTo_mem (t : Nat) : (s.advanceTo t).mem = s.mem := rfl
@[simp] theorem State.advanceTo_ecc (t : Nat) : (s.advanceTo t).ecc = s.ecc := rfl
@[simp] theorem State.advanceTo_timer (t : Nat) : (s.advanceTo t).timer = s.timer := rfl
@[simp] theorem State.advanceTo_sup (t : Nat) : (s.advanceTo t).sup = s.sup := rfl
@[simp] theorem State.advanceTo_clk (t : Nat) : (s.advanceTo t).clk = s.clk := rfl
@[simp] theorem State.advanceTo_tim (t : Nat) : (s.advanceTo t).tim = s.tim := rfl
@[simp] theorem State.advanceTo_cores (t : Nat) : (s.advanceTo t).cores = s.cores := rfl
@[simp] theorem State.advanceTo_takes (t : Nat) : (s.advanceTo t).takes = s.takes := rfl
@[simp] theorem State.advanceTo_plan (t : Nat) : (s.advanceTo t).plan = s.plan := rfl
@[simp] theorem State.advanceTo_rings (t : Nat) : (s.advanceTo t).rings = s.rings := rfl
@[simp] theorem State.advanceTo_ports (t : Nat) : (s.advanceTo t).ports = s.ports := rfl
@[simp] theorem State.advanceTo_evq (t : Nat) : (s.advanceTo t).evq = s.evq := rfl
@[simp] theorem State.advanceTo_access (t : Nat) : (s.advanceTo t).access = s.access := rfl
@[simp] theorem State.advanceTo_caTag (t : Nat) : (s.advanceTo t).caTag = s.caTag := rfl
@[simp] theorem State.advanceTo_cells (t : Nat) : (s.advanceTo t).cells = s.cells := rfl
@[simp] theorem State.advanceTo_brg (t : Nat) : (s.advanceTo t).brg = s.brg := rfl
@[simp] theorem State.advanceTo_adc (t : Nat) : (s.advanceTo t).adc = s.adc := rfl
@[simp] theorem State.advanceTo_capt (t : Nat) : (s.advanceTo t).capt = s.capt := rfl
@[simp] theorem State.advanceTo_mtr (t : Nat) : (s.advanceTo t).mtr = s.mtr := rfl
@[simp] theorem State.advanceTo_safe (t : Nat) : (s.advanceTo t).safe = s.safe := rfl
@[simp] theorem State.advanceTo_flt (t : Nat) : (s.advanceTo t).flt = s.flt := rfl
@[simp] theorem State.advanceTo_memory (t : Nat) : (s.advanceTo t).memory = s.memory := rfl
@[simp] theorem State.advanceTo_host (t : Nat) : (s.advanceTo t).host = s.host := rfl
@[simp] theorem State.advanceTo_upd (t : Nat) : (s.advanceTo t).upd = s.upd := rfl
@[simp] theorem State.advanceTo_strm (t : Nat) : (s.advanceTo t).strm = s.strm := rfl
@[simp] theorem State.advanceTo_out (t : Nat) : (s.advanceTo t).out = s.out := rfl

@[simp] theorem State.retire_pending (n : CoreId) (len cyc : Nat) : (s.retire n len cyc).pending = s.pending := rfl
@[simp] theorem State.retire_free (n : CoreId) (len cyc : Nat) : (s.retire n len cyc).free = s.free := rfl
@[simp] theorem State.retire_ticks (n : CoreId) (len cyc : Nat) : (s.retire n len cyc).ticks = s.ticks := rfl
@[simp] theorem State.retire_rtAdj (n : CoreId) (len cyc : Nat) : (s.retire n len cyc).rtAdj = s.rtAdj := rfl
@[simp] theorem State.retire_ringAt (n : CoreId) (len cyc : Nat) : (s.retire n len cyc).ringAt = s.ringAt := rfl
@[simp] theorem State.retire_lineAt (n : CoreId) (len cyc : Nat) : (s.retire n len cyc).lineAt = s.lineAt := rfl
@[simp] theorem State.retire_tx (n : CoreId) (len cyc : Nat) : (s.retire n len cyc).tx = s.tx := rfl
@[simp] theorem State.retire_ltBase (n : CoreId) (len cyc : Nat) : (s.retire n len cyc).ltBase = s.ltBase := rfl
@[simp] theorem State.retire_regs (n : CoreId) (len cyc : Nat) : (s.retire n len cyc).regs = s.regs := rfl
@[simp] theorem State.retire_live (n : CoreId) (len cyc : Nat) : (s.retire n len cyc).live = s.live := rfl
@[simp] theorem State.retire_vers (n : CoreId) (len cyc : Nat) : (s.retire n len cyc).vers = s.vers := rfl
@[simp] theorem State.retire_mem (n : CoreId) (len cyc : Nat) : (s.retire n len cyc).mem = s.mem := rfl
@[simp] theorem State.retire_ecc (n : CoreId) (len cyc : Nat) : (s.retire n len cyc).ecc = s.ecc := rfl
@[simp] theorem State.retire_timer (n : CoreId) (len cyc : Nat) : (s.retire n len cyc).timer = s.timer := rfl
@[simp] theorem State.retire_sup (n : CoreId) (len cyc : Nat) : (s.retire n len cyc).sup = s.sup := rfl
@[simp] theorem State.retire_clk (n : CoreId) (len cyc : Nat) : (s.retire n len cyc).clk = s.clk := rfl
@[simp] theorem State.retire_tim (n : CoreId) (len cyc : Nat) : (s.retire n len cyc).tim = s.tim := rfl
@[simp] theorem State.retire_takes (n : CoreId) (len cyc : Nat) : (s.retire n len cyc).takes = s.takes := rfl
@[simp] theorem State.retire_plan (n : CoreId) (len cyc : Nat) : (s.retire n len cyc).plan = s.plan := rfl
@[simp] theorem State.retire_rings (n : CoreId) (len cyc : Nat) : (s.retire n len cyc).rings = s.rings := rfl
@[simp] theorem State.retire_ports (n : CoreId) (len cyc : Nat) : (s.retire n len cyc).ports = s.ports := rfl
@[simp] theorem State.retire_evq (n : CoreId) (len cyc : Nat) : (s.retire n len cyc).evq = s.evq := rfl
@[simp] theorem State.retire_access (n : CoreId) (len cyc : Nat) : (s.retire n len cyc).access = s.access := rfl
@[simp] theorem State.retire_caTag (n : CoreId) (len cyc : Nat) : (s.retire n len cyc).caTag = s.caTag := rfl
@[simp] theorem State.retire_cells (n : CoreId) (len cyc : Nat) : (s.retire n len cyc).cells = s.cells := rfl
@[simp] theorem State.retire_brg (n : CoreId) (len cyc : Nat) : (s.retire n len cyc).brg = s.brg := rfl
@[simp] theorem State.retire_adc (n : CoreId) (len cyc : Nat) : (s.retire n len cyc).adc = s.adc := rfl
@[simp] theorem State.retire_capt (n : CoreId) (len cyc : Nat) : (s.retire n len cyc).capt = s.capt := rfl
@[simp] theorem State.retire_mtr (n : CoreId) (len cyc : Nat) : (s.retire n len cyc).mtr = s.mtr := rfl
@[simp] theorem State.retire_safe (n : CoreId) (len cyc : Nat) : (s.retire n len cyc).safe = s.safe := rfl
@[simp] theorem State.retire_flt (n : CoreId) (len cyc : Nat) : (s.retire n len cyc).flt = s.flt := rfl
@[simp] theorem State.retire_memory (n : CoreId) (len cyc : Nat) : (s.retire n len cyc).memory = s.memory := rfl
@[simp] theorem State.retire_host (n : CoreId) (len cyc : Nat) : (s.retire n len cyc).host = s.host := rfl
@[simp] theorem State.retire_upd (n : CoreId) (len cyc : Nat) : (s.retire n len cyc).upd = s.upd := rfl
@[simp] theorem State.retire_strm (n : CoreId) (len cyc : Nat) : (s.retire n len cyc).strm = s.strm := rfl
@[simp] theorem State.retire_out (n : CoreId) (len cyc : Nat) : (s.retire n len cyc).out = s.out := rfl

@[simp] theorem State.writeV_pending (n : CoreId) (r : Vreg) (v : VReg) : (s.writeV n r v).pending = s.pending := rfl
@[simp] theorem State.writeV_free (n : CoreId) (r : Vreg) (v : VReg) : (s.writeV n r v).free = s.free := rfl
@[simp] theorem State.writeV_ticks (n : CoreId) (r : Vreg) (v : VReg) : (s.writeV n r v).ticks = s.ticks := rfl
@[simp] theorem State.writeV_rtAdj (n : CoreId) (r : Vreg) (v : VReg) : (s.writeV n r v).rtAdj = s.rtAdj := rfl
@[simp] theorem State.writeV_ringAt (n : CoreId) (r : Vreg) (v : VReg) : (s.writeV n r v).ringAt = s.ringAt := rfl
@[simp] theorem State.writeV_lineAt (n : CoreId) (r : Vreg) (v : VReg) : (s.writeV n r v).lineAt = s.lineAt := rfl
@[simp] theorem State.writeV_tx (n : CoreId) (r : Vreg) (v : VReg) : (s.writeV n r v).tx = s.tx := rfl
@[simp] theorem State.writeV_ltBase (n : CoreId) (r : Vreg) (v : VReg) : (s.writeV n r v).ltBase = s.ltBase := rfl
@[simp] theorem State.writeV_regs (n : CoreId) (r : Vreg) (v : VReg) : (s.writeV n r v).regs = s.regs := rfl
@[simp] theorem State.writeV_live (n : CoreId) (r : Vreg) (v : VReg) : (s.writeV n r v).live = s.live := rfl
@[simp] theorem State.writeV_vers (n : CoreId) (r : Vreg) (v : VReg) : (s.writeV n r v).vers = s.vers := rfl
@[simp] theorem State.writeV_mem (n : CoreId) (r : Vreg) (v : VReg) : (s.writeV n r v).mem = s.mem := rfl
@[simp] theorem State.writeV_ecc (n : CoreId) (r : Vreg) (v : VReg) : (s.writeV n r v).ecc = s.ecc := rfl
@[simp] theorem State.writeV_timer (n : CoreId) (r : Vreg) (v : VReg) : (s.writeV n r v).timer = s.timer := rfl
@[simp] theorem State.writeV_sup (n : CoreId) (r : Vreg) (v : VReg) : (s.writeV n r v).sup = s.sup := rfl
@[simp] theorem State.writeV_clk (n : CoreId) (r : Vreg) (v : VReg) : (s.writeV n r v).clk = s.clk := rfl
@[simp] theorem State.writeV_tim (n : CoreId) (r : Vreg) (v : VReg) : (s.writeV n r v).tim = s.tim := rfl
@[simp] theorem State.writeV_takes (n : CoreId) (r : Vreg) (v : VReg) : (s.writeV n r v).takes = s.takes := rfl
@[simp] theorem State.writeV_plan (n : CoreId) (r : Vreg) (v : VReg) : (s.writeV n r v).plan = s.plan := rfl
@[simp] theorem State.writeV_rings (n : CoreId) (r : Vreg) (v : VReg) : (s.writeV n r v).rings = s.rings := rfl
@[simp] theorem State.writeV_ports (n : CoreId) (r : Vreg) (v : VReg) : (s.writeV n r v).ports = s.ports := rfl
@[simp] theorem State.writeV_evq (n : CoreId) (r : Vreg) (v : VReg) : (s.writeV n r v).evq = s.evq := rfl
@[simp] theorem State.writeV_access (n : CoreId) (r : Vreg) (v : VReg) : (s.writeV n r v).access = s.access := rfl
@[simp] theorem State.writeV_caTag (n : CoreId) (r : Vreg) (v : VReg) : (s.writeV n r v).caTag = s.caTag := rfl
@[simp] theorem State.writeV_cells (n : CoreId) (r : Vreg) (v : VReg) : (s.writeV n r v).cells = s.cells := rfl
@[simp] theorem State.writeV_brg (n : CoreId) (r : Vreg) (v : VReg) : (s.writeV n r v).brg = s.brg := rfl
@[simp] theorem State.writeV_adc (n : CoreId) (r : Vreg) (v : VReg) : (s.writeV n r v).adc = s.adc := rfl
@[simp] theorem State.writeV_capt (n : CoreId) (r : Vreg) (v : VReg) : (s.writeV n r v).capt = s.capt := rfl
@[simp] theorem State.writeV_mtr (n : CoreId) (r : Vreg) (v : VReg) : (s.writeV n r v).mtr = s.mtr := rfl
@[simp] theorem State.writeV_safe (n : CoreId) (r : Vreg) (v : VReg) : (s.writeV n r v).safe = s.safe := rfl
@[simp] theorem State.writeV_flt (n : CoreId) (r : Vreg) (v : VReg) : (s.writeV n r v).flt = s.flt := rfl
@[simp] theorem State.writeV_memory (n : CoreId) (r : Vreg) (v : VReg) : (s.writeV n r v).memory = s.memory := rfl
@[simp] theorem State.writeV_host (n : CoreId) (r : Vreg) (v : VReg) : (s.writeV n r v).host = s.host := rfl
@[simp] theorem State.writeV_upd (n : CoreId) (r : Vreg) (v : VReg) : (s.writeV n r v).upd = s.upd := rfl
@[simp] theorem State.writeV_strm (n : CoreId) (r : Vreg) (v : VReg) : (s.writeV n r v).strm = s.strm := rfl
@[simp] theorem State.writeV_out (n : CoreId) (r : Vreg) (v : VReg) : (s.writeV n r v).out = s.out := rfl

@[simp] theorem State.setCoreState_pending (n : CoreId) (v : Nat) : (s.setCoreState n v).pending = s.pending := rfl
@[simp] theorem State.setCoreState_free (n : CoreId) (v : Nat) : (s.setCoreState n v).free = s.free := rfl
@[simp] theorem State.setCoreState_ticks (n : CoreId) (v : Nat) : (s.setCoreState n v).ticks = s.ticks := rfl
@[simp] theorem State.setCoreState_rtAdj (n : CoreId) (v : Nat) : (s.setCoreState n v).rtAdj = s.rtAdj := rfl
@[simp] theorem State.setCoreState_ringAt (n : CoreId) (v : Nat) : (s.setCoreState n v).ringAt = s.ringAt := rfl
@[simp] theorem State.setCoreState_lineAt (n : CoreId) (v : Nat) : (s.setCoreState n v).lineAt = s.lineAt := rfl
@[simp] theorem State.setCoreState_tx (n : CoreId) (v : Nat) : (s.setCoreState n v).tx = s.tx := rfl
@[simp] theorem State.setCoreState_ltBase (n : CoreId) (v : Nat) : (s.setCoreState n v).ltBase = s.ltBase := rfl
@[simp] theorem State.setCoreState_live (n : CoreId) (v : Nat) : (s.setCoreState n v).live = s.live := rfl
@[simp] theorem State.setCoreState_vers (n : CoreId) (v : Nat) : (s.setCoreState n v).vers = s.vers := rfl
@[simp] theorem State.setCoreState_mem (n : CoreId) (v : Nat) : (s.setCoreState n v).mem = s.mem := rfl
@[simp] theorem State.setCoreState_ecc (n : CoreId) (v : Nat) : (s.setCoreState n v).ecc = s.ecc := rfl
@[simp] theorem State.setCoreState_timer (n : CoreId) (v : Nat) : (s.setCoreState n v).timer = s.timer := rfl
@[simp] theorem State.setCoreState_sup (n : CoreId) (v : Nat) : (s.setCoreState n v).sup = s.sup := rfl
@[simp] theorem State.setCoreState_clk (n : CoreId) (v : Nat) : (s.setCoreState n v).clk = s.clk := rfl
@[simp] theorem State.setCoreState_tim (n : CoreId) (v : Nat) : (s.setCoreState n v).tim = s.tim := rfl
@[simp] theorem State.setCoreState_cores (n : CoreId) (v : Nat) : (s.setCoreState n v).cores = s.cores := rfl
@[simp] theorem State.setCoreState_takes (n : CoreId) (v : Nat) : (s.setCoreState n v).takes = s.takes := rfl
@[simp] theorem State.setCoreState_plan (n : CoreId) (v : Nat) : (s.setCoreState n v).plan = s.plan := rfl
@[simp] theorem State.setCoreState_rings (n : CoreId) (v : Nat) : (s.setCoreState n v).rings = s.rings := rfl
@[simp] theorem State.setCoreState_ports (n : CoreId) (v : Nat) : (s.setCoreState n v).ports = s.ports := rfl
@[simp] theorem State.setCoreState_evq (n : CoreId) (v : Nat) : (s.setCoreState n v).evq = s.evq := rfl
@[simp] theorem State.setCoreState_access (n : CoreId) (v : Nat) : (s.setCoreState n v).access = s.access := rfl
@[simp] theorem State.setCoreState_caTag (n : CoreId) (v : Nat) : (s.setCoreState n v).caTag = s.caTag := rfl
@[simp] theorem State.setCoreState_cells (n : CoreId) (v : Nat) : (s.setCoreState n v).cells = s.cells := rfl
@[simp] theorem State.setCoreState_brg (n : CoreId) (v : Nat) : (s.setCoreState n v).brg = s.brg := rfl
@[simp] theorem State.setCoreState_adc (n : CoreId) (v : Nat) : (s.setCoreState n v).adc = s.adc := rfl
@[simp] theorem State.setCoreState_capt (n : CoreId) (v : Nat) : (s.setCoreState n v).capt = s.capt := rfl
@[simp] theorem State.setCoreState_mtr (n : CoreId) (v : Nat) : (s.setCoreState n v).mtr = s.mtr := rfl
@[simp] theorem State.setCoreState_safe (n : CoreId) (v : Nat) : (s.setCoreState n v).safe = s.safe := rfl
@[simp] theorem State.setCoreState_flt (n : CoreId) (v : Nat) : (s.setCoreState n v).flt = s.flt := rfl
@[simp] theorem State.setCoreState_memory (n : CoreId) (v : Nat) : (s.setCoreState n v).memory = s.memory := rfl
@[simp] theorem State.setCoreState_host (n : CoreId) (v : Nat) : (s.setCoreState n v).host = s.host := rfl
@[simp] theorem State.setCoreState_upd (n : CoreId) (v : Nat) : (s.setCoreState n v).upd = s.upd := rfl
@[simp] theorem State.setCoreState_strm (n : CoreId) (v : Nat) : (s.setCoreState n v).strm = s.strm := rfl
@[simp] theorem State.setCoreState_out (n : CoreId) (v : Nat) : (s.setCoreState n v).out = s.out := rfl

@[simp] theorem State.stallOn_pending (n : CoreId) (w : Stall) : (s.stallOn n w).pending = s.pending := rfl
@[simp] theorem State.stallOn_free (n : CoreId) (w : Stall) : (s.stallOn n w).free = s.free := rfl
@[simp] theorem State.stallOn_ticks (n : CoreId) (w : Stall) : (s.stallOn n w).ticks = s.ticks := rfl
@[simp] theorem State.stallOn_rtAdj (n : CoreId) (w : Stall) : (s.stallOn n w).rtAdj = s.rtAdj := rfl
@[simp] theorem State.stallOn_ringAt (n : CoreId) (w : Stall) : (s.stallOn n w).ringAt = s.ringAt := rfl
@[simp] theorem State.stallOn_lineAt (n : CoreId) (w : Stall) : (s.stallOn n w).lineAt = s.lineAt := rfl
@[simp] theorem State.stallOn_tx (n : CoreId) (w : Stall) : (s.stallOn n w).tx = s.tx := rfl
@[simp] theorem State.stallOn_ltBase (n : CoreId) (w : Stall) : (s.stallOn n w).ltBase = s.ltBase := rfl
@[simp] theorem State.stallOn_regs (n : CoreId) (w : Stall) : (s.stallOn n w).regs = s.regs := rfl
@[simp] theorem State.stallOn_live (n : CoreId) (w : Stall) : (s.stallOn n w).live = s.live := rfl
@[simp] theorem State.stallOn_vers (n : CoreId) (w : Stall) : (s.stallOn n w).vers = s.vers := rfl
@[simp] theorem State.stallOn_mem (n : CoreId) (w : Stall) : (s.stallOn n w).mem = s.mem := rfl
@[simp] theorem State.stallOn_ecc (n : CoreId) (w : Stall) : (s.stallOn n w).ecc = s.ecc := rfl
@[simp] theorem State.stallOn_timer (n : CoreId) (w : Stall) : (s.stallOn n w).timer = s.timer := rfl
@[simp] theorem State.stallOn_sup (n : CoreId) (w : Stall) : (s.stallOn n w).sup = s.sup := rfl
@[simp] theorem State.stallOn_clk (n : CoreId) (w : Stall) : (s.stallOn n w).clk = s.clk := rfl
@[simp] theorem State.stallOn_tim (n : CoreId) (w : Stall) : (s.stallOn n w).tim = s.tim := rfl
@[simp] theorem State.stallOn_takes (n : CoreId) (w : Stall) : (s.stallOn n w).takes = s.takes := rfl
@[simp] theorem State.stallOn_plan (n : CoreId) (w : Stall) : (s.stallOn n w).plan = s.plan := rfl
@[simp] theorem State.stallOn_rings (n : CoreId) (w : Stall) : (s.stallOn n w).rings = s.rings := rfl
@[simp] theorem State.stallOn_ports (n : CoreId) (w : Stall) : (s.stallOn n w).ports = s.ports := rfl
@[simp] theorem State.stallOn_evq (n : CoreId) (w : Stall) : (s.stallOn n w).evq = s.evq := rfl
@[simp] theorem State.stallOn_access (n : CoreId) (w : Stall) : (s.stallOn n w).access = s.access := rfl
@[simp] theorem State.stallOn_caTag (n : CoreId) (w : Stall) : (s.stallOn n w).caTag = s.caTag := rfl
@[simp] theorem State.stallOn_cells (n : CoreId) (w : Stall) : (s.stallOn n w).cells = s.cells := rfl
@[simp] theorem State.stallOn_brg (n : CoreId) (w : Stall) : (s.stallOn n w).brg = s.brg := rfl
@[simp] theorem State.stallOn_adc (n : CoreId) (w : Stall) : (s.stallOn n w).adc = s.adc := rfl
@[simp] theorem State.stallOn_capt (n : CoreId) (w : Stall) : (s.stallOn n w).capt = s.capt := rfl
@[simp] theorem State.stallOn_mtr (n : CoreId) (w : Stall) : (s.stallOn n w).mtr = s.mtr := rfl
@[simp] theorem State.stallOn_safe (n : CoreId) (w : Stall) : (s.stallOn n w).safe = s.safe := rfl
@[simp] theorem State.stallOn_flt (n : CoreId) (w : Stall) : (s.stallOn n w).flt = s.flt := rfl
@[simp] theorem State.stallOn_memory (n : CoreId) (w : Stall) : (s.stallOn n w).memory = s.memory := rfl
@[simp] theorem State.stallOn_host (n : CoreId) (w : Stall) : (s.stallOn n w).host = s.host := rfl
@[simp] theorem State.stallOn_upd (n : CoreId) (w : Stall) : (s.stallOn n w).upd = s.upd := rfl
@[simp] theorem State.stallOn_strm (n : CoreId) (w : Stall) : (s.stallOn n w).strm = s.strm := rfl
@[simp] theorem State.stallOn_out (n : CoreId) (w : Stall) : (s.stallOn n w).out = s.out := rfl

@[simp] theorem State.fclrBit_pending (f : Fld) (i : Nat) : (s.fclrBit f i).pending = s.pending := by unfold State.fclrBit; repeat' first | rfl | split
@[simp] theorem State.fclrBit_free (f : Fld) (i : Nat) : (s.fclrBit f i).free = s.free := by unfold State.fclrBit; repeat' first | rfl | split
@[simp] theorem State.fclrBit_ticks (f : Fld) (i : Nat) : (s.fclrBit f i).ticks = s.ticks := by unfold State.fclrBit; repeat' first | rfl | split
@[simp] theorem State.fclrBit_rtAdj (f : Fld) (i : Nat) : (s.fclrBit f i).rtAdj = s.rtAdj := by unfold State.fclrBit; repeat' first | rfl | split
@[simp] theorem State.fclrBit_ltBase (f : Fld) (i : Nat) : (s.fclrBit f i).ltBase = s.ltBase := by unfold State.fclrBit; repeat' first | rfl | split
@[simp] theorem State.fclrBit_live (f : Fld) (i : Nat) : (s.fclrBit f i).live = s.live := by unfold State.fclrBit; repeat' first | rfl | split
@[simp] theorem State.fclrBit_vers (f : Fld) (i : Nat) : (s.fclrBit f i).vers = s.vers := by unfold State.fclrBit; repeat' first | rfl | split
@[simp] theorem State.fclrBit_mem (f : Fld) (i : Nat) : (s.fclrBit f i).mem = s.mem := by unfold State.fclrBit; repeat' first | rfl | split
@[simp] theorem State.fclrBit_ecc (f : Fld) (i : Nat) : (s.fclrBit f i).ecc = s.ecc := by unfold State.fclrBit; repeat' first | rfl | split
@[simp] theorem State.fclrBit_timer (f : Fld) (i : Nat) : (s.fclrBit f i).timer = s.timer := by unfold State.fclrBit; repeat' first | rfl | split
@[simp] theorem State.fclrBit_sup (f : Fld) (i : Nat) : (s.fclrBit f i).sup = s.sup := by unfold State.fclrBit; repeat' first | rfl | split
@[simp] theorem State.fclrBit_clk (f : Fld) (i : Nat) : (s.fclrBit f i).clk = s.clk := by unfold State.fclrBit; repeat' first | rfl | split
@[simp] theorem State.fclrBit_tim (f : Fld) (i : Nat) : (s.fclrBit f i).tim = s.tim := by unfold State.fclrBit; repeat' first | rfl | split
@[simp] theorem State.fclrBit_cores (f : Fld) (i : Nat) : (s.fclrBit f i).cores = s.cores := by unfold State.fclrBit; repeat' first | rfl | split
@[simp] theorem State.fclrBit_takes (f : Fld) (i : Nat) : (s.fclrBit f i).takes = s.takes := by unfold State.fclrBit; repeat' first | rfl | split
@[simp] theorem State.fclrBit_plan (f : Fld) (i : Nat) : (s.fclrBit f i).plan = s.plan := by unfold State.fclrBit; repeat' first | rfl | split
@[simp] theorem State.fclrBit_rings (f : Fld) (i : Nat) : (s.fclrBit f i).rings = s.rings := by unfold State.fclrBit; repeat' first | rfl | split
@[simp] theorem State.fclrBit_ports (f : Fld) (i : Nat) : (s.fclrBit f i).ports = s.ports := by unfold State.fclrBit; repeat' first | rfl | split
@[simp] theorem State.fclrBit_evq (f : Fld) (i : Nat) : (s.fclrBit f i).evq = s.evq := by unfold State.fclrBit; repeat' first | rfl | split
@[simp] theorem State.fclrBit_access (f : Fld) (i : Nat) : (s.fclrBit f i).access = s.access := by unfold State.fclrBit; repeat' first | rfl | split
@[simp] theorem State.fclrBit_caTag (f : Fld) (i : Nat) : (s.fclrBit f i).caTag = s.caTag := by unfold State.fclrBit; repeat' first | rfl | split
@[simp] theorem State.fclrBit_cells (f : Fld) (i : Nat) : (s.fclrBit f i).cells = s.cells := by unfold State.fclrBit; repeat' first | rfl | split
@[simp] theorem State.fclrBit_brg (f : Fld) (i : Nat) : (s.fclrBit f i).brg = s.brg := by unfold State.fclrBit; repeat' first | rfl | split
@[simp] theorem State.fclrBit_adc (f : Fld) (i : Nat) : (s.fclrBit f i).adc = s.adc := by unfold State.fclrBit; repeat' first | rfl | split
@[simp] theorem State.fclrBit_capt (f : Fld) (i : Nat) : (s.fclrBit f i).capt = s.capt := by unfold State.fclrBit; repeat' first | rfl | split
@[simp] theorem State.fclrBit_mtr (f : Fld) (i : Nat) : (s.fclrBit f i).mtr = s.mtr := by unfold State.fclrBit; repeat' first | rfl | split
@[simp] theorem State.fclrBit_safe (f : Fld) (i : Nat) : (s.fclrBit f i).safe = s.safe := by unfold State.fclrBit; repeat' first | rfl | split
@[simp] theorem State.fclrBit_flt (f : Fld) (i : Nat) : (s.fclrBit f i).flt = s.flt := by unfold State.fclrBit; repeat' first | rfl | split
@[simp] theorem State.fclrBit_memory (f : Fld) (i : Nat) : (s.fclrBit f i).memory = s.memory := by unfold State.fclrBit; repeat' first | rfl | split
@[simp] theorem State.fclrBit_host (f : Fld) (i : Nat) : (s.fclrBit f i).host = s.host := by unfold State.fclrBit; repeat' first | rfl | split
@[simp] theorem State.fclrBit_upd (f : Fld) (i : Nat) : (s.fclrBit f i).upd = s.upd := by unfold State.fclrBit; repeat' first | rfl | split
@[simp] theorem State.fclrBit_strm (f : Fld) (i : Nat) : (s.fclrBit f i).strm = s.strm := by unfold State.fclrBit; repeat' first | rfl | split
@[simp] theorem State.fclrBit_out (f : Fld) (i : Nat) : (s.fclrBit f i).out = s.out := by unfold State.fclrBit; repeat' first | rfl | split

@[simp] theorem State.fsetBit_pending (f : Fld) (i : Nat) : (s.fsetBit f i).pending = s.pending := by unfold State.fsetBit; repeat' first | rfl | split
@[simp] theorem State.fsetBit_free (f : Fld) (i : Nat) : (s.fsetBit f i).free = s.free := by unfold State.fsetBit; repeat' first | rfl | split
@[simp] theorem State.fsetBit_ticks (f : Fld) (i : Nat) : (s.fsetBit f i).ticks = s.ticks := by unfold State.fsetBit; repeat' first | rfl | split
@[simp] theorem State.fsetBit_rtAdj (f : Fld) (i : Nat) : (s.fsetBit f i).rtAdj = s.rtAdj := by unfold State.fsetBit; repeat' first | rfl | split
@[simp] theorem State.fsetBit_ltBase (f : Fld) (i : Nat) : (s.fsetBit f i).ltBase = s.ltBase := by unfold State.fsetBit; repeat' first | rfl | split
@[simp] theorem State.fsetBit_live (f : Fld) (i : Nat) : (s.fsetBit f i).live = s.live := by unfold State.fsetBit; repeat' first | rfl | split
@[simp] theorem State.fsetBit_vers (f : Fld) (i : Nat) : (s.fsetBit f i).vers = s.vers := by unfold State.fsetBit; repeat' first | rfl | split
@[simp] theorem State.fsetBit_mem (f : Fld) (i : Nat) : (s.fsetBit f i).mem = s.mem := by unfold State.fsetBit; repeat' first | rfl | split
@[simp] theorem State.fsetBit_ecc (f : Fld) (i : Nat) : (s.fsetBit f i).ecc = s.ecc := by unfold State.fsetBit; repeat' first | rfl | split
@[simp] theorem State.fsetBit_timer (f : Fld) (i : Nat) : (s.fsetBit f i).timer = s.timer := by unfold State.fsetBit; repeat' first | rfl | split
@[simp] theorem State.fsetBit_sup (f : Fld) (i : Nat) : (s.fsetBit f i).sup = s.sup := by unfold State.fsetBit; repeat' first | rfl | split
@[simp] theorem State.fsetBit_clk (f : Fld) (i : Nat) : (s.fsetBit f i).clk = s.clk := by unfold State.fsetBit; repeat' first | rfl | split
@[simp] theorem State.fsetBit_tim (f : Fld) (i : Nat) : (s.fsetBit f i).tim = s.tim := by unfold State.fsetBit; repeat' first | rfl | split
@[simp] theorem State.fsetBit_cores (f : Fld) (i : Nat) : (s.fsetBit f i).cores = s.cores := by unfold State.fsetBit; repeat' first | rfl | split
@[simp] theorem State.fsetBit_takes (f : Fld) (i : Nat) : (s.fsetBit f i).takes = s.takes := by unfold State.fsetBit; repeat' first | rfl | split
@[simp] theorem State.fsetBit_plan (f : Fld) (i : Nat) : (s.fsetBit f i).plan = s.plan := by unfold State.fsetBit; repeat' first | rfl | split
@[simp] theorem State.fsetBit_rings (f : Fld) (i : Nat) : (s.fsetBit f i).rings = s.rings := by unfold State.fsetBit; repeat' first | rfl | split
@[simp] theorem State.fsetBit_ports (f : Fld) (i : Nat) : (s.fsetBit f i).ports = s.ports := by unfold State.fsetBit; repeat' first | rfl | split
@[simp] theorem State.fsetBit_evq (f : Fld) (i : Nat) : (s.fsetBit f i).evq = s.evq := by unfold State.fsetBit; repeat' first | rfl | split
@[simp] theorem State.fsetBit_access (f : Fld) (i : Nat) : (s.fsetBit f i).access = s.access := by unfold State.fsetBit; repeat' first | rfl | split
@[simp] theorem State.fsetBit_caTag (f : Fld) (i : Nat) : (s.fsetBit f i).caTag = s.caTag := by unfold State.fsetBit; repeat' first | rfl | split
@[simp] theorem State.fsetBit_cells (f : Fld) (i : Nat) : (s.fsetBit f i).cells = s.cells := by unfold State.fsetBit; repeat' first | rfl | split
@[simp] theorem State.fsetBit_brg (f : Fld) (i : Nat) : (s.fsetBit f i).brg = s.brg := by unfold State.fsetBit; repeat' first | rfl | split
@[simp] theorem State.fsetBit_adc (f : Fld) (i : Nat) : (s.fsetBit f i).adc = s.adc := by unfold State.fsetBit; repeat' first | rfl | split
@[simp] theorem State.fsetBit_capt (f : Fld) (i : Nat) : (s.fsetBit f i).capt = s.capt := by unfold State.fsetBit; repeat' first | rfl | split
@[simp] theorem State.fsetBit_mtr (f : Fld) (i : Nat) : (s.fsetBit f i).mtr = s.mtr := by unfold State.fsetBit; repeat' first | rfl | split
@[simp] theorem State.fsetBit_safe (f : Fld) (i : Nat) : (s.fsetBit f i).safe = s.safe := by unfold State.fsetBit; repeat' first | rfl | split
@[simp] theorem State.fsetBit_flt (f : Fld) (i : Nat) : (s.fsetBit f i).flt = s.flt := by unfold State.fsetBit; repeat' first | rfl | split
@[simp] theorem State.fsetBit_memory (f : Fld) (i : Nat) : (s.fsetBit f i).memory = s.memory := by unfold State.fsetBit; repeat' first | rfl | split
@[simp] theorem State.fsetBit_host (f : Fld) (i : Nat) : (s.fsetBit f i).host = s.host := by unfold State.fsetBit; repeat' first | rfl | split
@[simp] theorem State.fsetBit_upd (f : Fld) (i : Nat) : (s.fsetBit f i).upd = s.upd := by unfold State.fsetBit; repeat' first | rfl | split
@[simp] theorem State.fsetBit_strm (f : Fld) (i : Nat) : (s.fsetBit f i).strm = s.strm := by unfold State.fsetBit; repeat' first | rfl | split
@[simp] theorem State.fsetBit_out (f : Fld) (i : Nat) : (s.fsetBit f i).out = s.out := by unfold State.fsetBit; repeat' first | rfl | split

@[simp] theorem State.writeS_pending (n : CoreId) (r : Sreg) (v : Word) : (s.writeS n r v).pending = s.pending := by unfold State.writeS; repeat' first | rfl | split
@[simp] theorem State.writeS_free (n : CoreId) (r : Sreg) (v : Word) : (s.writeS n r v).free = s.free := by unfold State.writeS; repeat' first | rfl | split
@[simp] theorem State.writeS_ticks (n : CoreId) (r : Sreg) (v : Word) : (s.writeS n r v).ticks = s.ticks := by unfold State.writeS; repeat' first | rfl | split
@[simp] theorem State.writeS_rtAdj (n : CoreId) (r : Sreg) (v : Word) : (s.writeS n r v).rtAdj = s.rtAdj := by unfold State.writeS; repeat' first | rfl | split
@[simp] theorem State.writeS_ltBase (n : CoreId) (r : Sreg) (v : Word) : (s.writeS n r v).ltBase = s.ltBase := by unfold State.writeS; repeat' first | rfl | split
@[simp] theorem State.writeS_regs (n : CoreId) (r : Sreg) (v : Word) : (s.writeS n r v).regs = s.regs := by unfold State.writeS; repeat' first | rfl | split
@[simp] theorem State.writeS_live (n : CoreId) (r : Sreg) (v : Word) : (s.writeS n r v).live = s.live := by unfold State.writeS; repeat' first | rfl | split
@[simp] theorem State.writeS_vers (n : CoreId) (r : Sreg) (v : Word) : (s.writeS n r v).vers = s.vers := by unfold State.writeS; repeat' first | rfl | split
@[simp] theorem State.writeS_mem (n : CoreId) (r : Sreg) (v : Word) : (s.writeS n r v).mem = s.mem := by unfold State.writeS; repeat' first | rfl | split
@[simp] theorem State.writeS_ecc (n : CoreId) (r : Sreg) (v : Word) : (s.writeS n r v).ecc = s.ecc := by unfold State.writeS; repeat' first | rfl | split
@[simp] theorem State.writeS_timer (n : CoreId) (r : Sreg) (v : Word) : (s.writeS n r v).timer = s.timer := by unfold State.writeS; repeat' first | rfl | split
@[simp] theorem State.writeS_sup (n : CoreId) (r : Sreg) (v : Word) : (s.writeS n r v).sup = s.sup := by unfold State.writeS; repeat' first | rfl | split
@[simp] theorem State.writeS_clk (n : CoreId) (r : Sreg) (v : Word) : (s.writeS n r v).clk = s.clk := by unfold State.writeS; repeat' first | rfl | split
@[simp] theorem State.writeS_tim (n : CoreId) (r : Sreg) (v : Word) : (s.writeS n r v).tim = s.tim := by unfold State.writeS; repeat' first | rfl | split
@[simp] theorem State.writeS_takes (n : CoreId) (r : Sreg) (v : Word) : (s.writeS n r v).takes = s.takes := by unfold State.writeS; repeat' first | rfl | split
@[simp] theorem State.writeS_plan (n : CoreId) (r : Sreg) (v : Word) : (s.writeS n r v).plan = s.plan := by unfold State.writeS; repeat' first | rfl | split
@[simp] theorem State.writeS_rings (n : CoreId) (r : Sreg) (v : Word) : (s.writeS n r v).rings = s.rings := by unfold State.writeS; repeat' first | rfl | split
@[simp] theorem State.writeS_ports (n : CoreId) (r : Sreg) (v : Word) : (s.writeS n r v).ports = s.ports := by unfold State.writeS; repeat' first | rfl | split
@[simp] theorem State.writeS_evq (n : CoreId) (r : Sreg) (v : Word) : (s.writeS n r v).evq = s.evq := by unfold State.writeS; repeat' first | rfl | split
@[simp] theorem State.writeS_access (n : CoreId) (r : Sreg) (v : Word) : (s.writeS n r v).access = s.access := by unfold State.writeS; repeat' first | rfl | split
@[simp] theorem State.writeS_caTag (n : CoreId) (r : Sreg) (v : Word) : (s.writeS n r v).caTag = s.caTag := by unfold State.writeS; repeat' first | rfl | split
@[simp] theorem State.writeS_cells (n : CoreId) (r : Sreg) (v : Word) : (s.writeS n r v).cells = s.cells := by unfold State.writeS; repeat' first | rfl | split
@[simp] theorem State.writeS_brg (n : CoreId) (r : Sreg) (v : Word) : (s.writeS n r v).brg = s.brg := by unfold State.writeS; repeat' first | rfl | split
@[simp] theorem State.writeS_adc (n : CoreId) (r : Sreg) (v : Word) : (s.writeS n r v).adc = s.adc := by unfold State.writeS; repeat' first | rfl | split
@[simp] theorem State.writeS_capt (n : CoreId) (r : Sreg) (v : Word) : (s.writeS n r v).capt = s.capt := by unfold State.writeS; repeat' first | rfl | split
@[simp] theorem State.writeS_mtr (n : CoreId) (r : Sreg) (v : Word) : (s.writeS n r v).mtr = s.mtr := by unfold State.writeS; repeat' first | rfl | split
@[simp] theorem State.writeS_safe (n : CoreId) (r : Sreg) (v : Word) : (s.writeS n r v).safe = s.safe := by unfold State.writeS; repeat' first | rfl | split
@[simp] theorem State.writeS_flt (n : CoreId) (r : Sreg) (v : Word) : (s.writeS n r v).flt = s.flt := by unfold State.writeS; repeat' first | rfl | split
@[simp] theorem State.writeS_memory (n : CoreId) (r : Sreg) (v : Word) : (s.writeS n r v).memory = s.memory := by unfold State.writeS; repeat' first | rfl | split
@[simp] theorem State.writeS_host (n : CoreId) (r : Sreg) (v : Word) : (s.writeS n r v).host = s.host := by unfold State.writeS; repeat' first | rfl | split
@[simp] theorem State.writeS_upd (n : CoreId) (r : Sreg) (v : Word) : (s.writeS n r v).upd = s.upd := by unfold State.writeS; repeat' first | rfl | split
@[simp] theorem State.writeS_strm (n : CoreId) (r : Sreg) (v : Word) : (s.writeS n r v).strm = s.strm := by unfold State.writeS; repeat' first | rfl | split
@[simp] theorem State.writeS_out (n : CoreId) (r : Sreg) (v : Word) : (s.writeS n r v).out = s.out := by unfold State.writeS; repeat' first | rfl | split

@[simp] theorem State.writeP_pending (n : CoreId) (r : Preg) (v : BitVec 48) : (s.writeP n r v).pending = s.pending := by unfold State.writeP; repeat' first | rfl | split
@[simp] theorem State.writeP_free (n : CoreId) (r : Preg) (v : BitVec 48) : (s.writeP n r v).free = s.free := by unfold State.writeP; repeat' first | rfl | split
@[simp] theorem State.writeP_ticks (n : CoreId) (r : Preg) (v : BitVec 48) : (s.writeP n r v).ticks = s.ticks := by unfold State.writeP; repeat' first | rfl | split
@[simp] theorem State.writeP_rtAdj (n : CoreId) (r : Preg) (v : BitVec 48) : (s.writeP n r v).rtAdj = s.rtAdj := by unfold State.writeP; repeat' first | rfl | split
@[simp] theorem State.writeP_ltBase (n : CoreId) (r : Preg) (v : BitVec 48) : (s.writeP n r v).ltBase = s.ltBase := by unfold State.writeP; repeat' first | rfl | split
@[simp] theorem State.writeP_regs (n : CoreId) (r : Preg) (v : BitVec 48) : (s.writeP n r v).regs = s.regs := by unfold State.writeP; repeat' first | rfl | split
@[simp] theorem State.writeP_live (n : CoreId) (r : Preg) (v : BitVec 48) : (s.writeP n r v).live = s.live := by unfold State.writeP; repeat' first | rfl | split
@[simp] theorem State.writeP_vers (n : CoreId) (r : Preg) (v : BitVec 48) : (s.writeP n r v).vers = s.vers := by unfold State.writeP; repeat' first | rfl | split
@[simp] theorem State.writeP_mem (n : CoreId) (r : Preg) (v : BitVec 48) : (s.writeP n r v).mem = s.mem := by unfold State.writeP; repeat' first | rfl | split
@[simp] theorem State.writeP_ecc (n : CoreId) (r : Preg) (v : BitVec 48) : (s.writeP n r v).ecc = s.ecc := by unfold State.writeP; repeat' first | rfl | split
@[simp] theorem State.writeP_timer (n : CoreId) (r : Preg) (v : BitVec 48) : (s.writeP n r v).timer = s.timer := by unfold State.writeP; repeat' first | rfl | split
@[simp] theorem State.writeP_sup (n : CoreId) (r : Preg) (v : BitVec 48) : (s.writeP n r v).sup = s.sup := by unfold State.writeP; repeat' first | rfl | split
@[simp] theorem State.writeP_clk (n : CoreId) (r : Preg) (v : BitVec 48) : (s.writeP n r v).clk = s.clk := by unfold State.writeP; repeat' first | rfl | split
@[simp] theorem State.writeP_tim (n : CoreId) (r : Preg) (v : BitVec 48) : (s.writeP n r v).tim = s.tim := by unfold State.writeP; repeat' first | rfl | split
@[simp] theorem State.writeP_takes (n : CoreId) (r : Preg) (v : BitVec 48) : (s.writeP n r v).takes = s.takes := by unfold State.writeP; repeat' first | rfl | split
@[simp] theorem State.writeP_plan (n : CoreId) (r : Preg) (v : BitVec 48) : (s.writeP n r v).plan = s.plan := by unfold State.writeP; repeat' first | rfl | split
@[simp] theorem State.writeP_rings (n : CoreId) (r : Preg) (v : BitVec 48) : (s.writeP n r v).rings = s.rings := by unfold State.writeP; repeat' first | rfl | split
@[simp] theorem State.writeP_ports (n : CoreId) (r : Preg) (v : BitVec 48) : (s.writeP n r v).ports = s.ports := by unfold State.writeP; repeat' first | rfl | split
@[simp] theorem State.writeP_evq (n : CoreId) (r : Preg) (v : BitVec 48) : (s.writeP n r v).evq = s.evq := by unfold State.writeP; repeat' first | rfl | split
@[simp] theorem State.writeP_access (n : CoreId) (r : Preg) (v : BitVec 48) : (s.writeP n r v).access = s.access := by unfold State.writeP; repeat' first | rfl | split
@[simp] theorem State.writeP_caTag (n : CoreId) (r : Preg) (v : BitVec 48) : (s.writeP n r v).caTag = s.caTag := by unfold State.writeP; repeat' first | rfl | split
@[simp] theorem State.writeP_cells (n : CoreId) (r : Preg) (v : BitVec 48) : (s.writeP n r v).cells = s.cells := by unfold State.writeP; repeat' first | rfl | split
@[simp] theorem State.writeP_brg (n : CoreId) (r : Preg) (v : BitVec 48) : (s.writeP n r v).brg = s.brg := by unfold State.writeP; repeat' first | rfl | split
@[simp] theorem State.writeP_adc (n : CoreId) (r : Preg) (v : BitVec 48) : (s.writeP n r v).adc = s.adc := by unfold State.writeP; repeat' first | rfl | split
@[simp] theorem State.writeP_capt (n : CoreId) (r : Preg) (v : BitVec 48) : (s.writeP n r v).capt = s.capt := by unfold State.writeP; repeat' first | rfl | split
@[simp] theorem State.writeP_mtr (n : CoreId) (r : Preg) (v : BitVec 48) : (s.writeP n r v).mtr = s.mtr := by unfold State.writeP; repeat' first | rfl | split
@[simp] theorem State.writeP_safe (n : CoreId) (r : Preg) (v : BitVec 48) : (s.writeP n r v).safe = s.safe := by unfold State.writeP; repeat' first | rfl | split
@[simp] theorem State.writeP_flt (n : CoreId) (r : Preg) (v : BitVec 48) : (s.writeP n r v).flt = s.flt := by unfold State.writeP; repeat' first | rfl | split
@[simp] theorem State.writeP_memory (n : CoreId) (r : Preg) (v : BitVec 48) : (s.writeP n r v).memory = s.memory := by unfold State.writeP; repeat' first | rfl | split
@[simp] theorem State.writeP_host (n : CoreId) (r : Preg) (v : BitVec 48) : (s.writeP n r v).host = s.host := by unfold State.writeP; repeat' first | rfl | split
@[simp] theorem State.writeP_upd (n : CoreId) (r : Preg) (v : BitVec 48) : (s.writeP n r v).upd = s.upd := by unfold State.writeP; repeat' first | rfl | split
@[simp] theorem State.writeP_strm (n : CoreId) (r : Preg) (v : BitVec 48) : (s.writeP n r v).strm = s.strm := by unfold State.writeP; repeat' first | rfl | split
@[simp] theorem State.writeP_out (n : CoreId) (r : Preg) (v : BitVec 48) : (s.writeP n r v).out = s.out := by unfold State.writeP; repeat' first | rfl | split

@[simp] theorem State.setSat_pending (n : CoreId) (b : Bool) : (s.setSat n b).pending = s.pending := by unfold State.setSat; repeat' first | rfl | split
@[simp] theorem State.setSat_free (n : CoreId) (b : Bool) : (s.setSat n b).free = s.free := by unfold State.setSat; repeat' first | rfl | split
@[simp] theorem State.setSat_ticks (n : CoreId) (b : Bool) : (s.setSat n b).ticks = s.ticks := by unfold State.setSat; repeat' first | rfl | split
@[simp] theorem State.setSat_rtAdj (n : CoreId) (b : Bool) : (s.setSat n b).rtAdj = s.rtAdj := by unfold State.setSat; repeat' first | rfl | split
@[simp] theorem State.setSat_ltBase (n : CoreId) (b : Bool) : (s.setSat n b).ltBase = s.ltBase := by unfold State.setSat; repeat' first | rfl | split
@[simp] theorem State.setSat_live (n : CoreId) (b : Bool) : (s.setSat n b).live = s.live := by unfold State.setSat; repeat' first | rfl | split
@[simp] theorem State.setSat_vers (n : CoreId) (b : Bool) : (s.setSat n b).vers = s.vers := by unfold State.setSat; repeat' first | rfl | split
@[simp] theorem State.setSat_mem (n : CoreId) (b : Bool) : (s.setSat n b).mem = s.mem := by unfold State.setSat; repeat' first | rfl | split
@[simp] theorem State.setSat_ecc (n : CoreId) (b : Bool) : (s.setSat n b).ecc = s.ecc := by unfold State.setSat; repeat' first | rfl | split
@[simp] theorem State.setSat_timer (n : CoreId) (b : Bool) : (s.setSat n b).timer = s.timer := by unfold State.setSat; repeat' first | rfl | split
@[simp] theorem State.setSat_sup (n : CoreId) (b : Bool) : (s.setSat n b).sup = s.sup := by unfold State.setSat; repeat' first | rfl | split
@[simp] theorem State.setSat_clk (n : CoreId) (b : Bool) : (s.setSat n b).clk = s.clk := by unfold State.setSat; repeat' first | rfl | split
@[simp] theorem State.setSat_tim (n : CoreId) (b : Bool) : (s.setSat n b).tim = s.tim := by unfold State.setSat; repeat' first | rfl | split
@[simp] theorem State.setSat_cores (n : CoreId) (b : Bool) : (s.setSat n b).cores = s.cores := by unfold State.setSat; repeat' first | rfl | split
@[simp] theorem State.setSat_takes (n : CoreId) (b : Bool) : (s.setSat n b).takes = s.takes := by unfold State.setSat; repeat' first | rfl | split
@[simp] theorem State.setSat_plan (n : CoreId) (b : Bool) : (s.setSat n b).plan = s.plan := by unfold State.setSat; repeat' first | rfl | split
@[simp] theorem State.setSat_rings (n : CoreId) (b : Bool) : (s.setSat n b).rings = s.rings := by unfold State.setSat; repeat' first | rfl | split
@[simp] theorem State.setSat_ports (n : CoreId) (b : Bool) : (s.setSat n b).ports = s.ports := by unfold State.setSat; repeat' first | rfl | split
@[simp] theorem State.setSat_evq (n : CoreId) (b : Bool) : (s.setSat n b).evq = s.evq := by unfold State.setSat; repeat' first | rfl | split
@[simp] theorem State.setSat_access (n : CoreId) (b : Bool) : (s.setSat n b).access = s.access := by unfold State.setSat; repeat' first | rfl | split
@[simp] theorem State.setSat_caTag (n : CoreId) (b : Bool) : (s.setSat n b).caTag = s.caTag := by unfold State.setSat; repeat' first | rfl | split
@[simp] theorem State.setSat_cells (n : CoreId) (b : Bool) : (s.setSat n b).cells = s.cells := by unfold State.setSat; repeat' first | rfl | split
@[simp] theorem State.setSat_brg (n : CoreId) (b : Bool) : (s.setSat n b).brg = s.brg := by unfold State.setSat; repeat' first | rfl | split
@[simp] theorem State.setSat_adc (n : CoreId) (b : Bool) : (s.setSat n b).adc = s.adc := by unfold State.setSat; repeat' first | rfl | split
@[simp] theorem State.setSat_capt (n : CoreId) (b : Bool) : (s.setSat n b).capt = s.capt := by unfold State.setSat; repeat' first | rfl | split
@[simp] theorem State.setSat_mtr (n : CoreId) (b : Bool) : (s.setSat n b).mtr = s.mtr := by unfold State.setSat; repeat' first | rfl | split
@[simp] theorem State.setSat_safe (n : CoreId) (b : Bool) : (s.setSat n b).safe = s.safe := by unfold State.setSat; repeat' first | rfl | split
@[simp] theorem State.setSat_flt (n : CoreId) (b : Bool) : (s.setSat n b).flt = s.flt := by unfold State.setSat; repeat' first | rfl | split
@[simp] theorem State.setSat_memory (n : CoreId) (b : Bool) : (s.setSat n b).memory = s.memory := by unfold State.setSat; repeat' first | rfl | split
@[simp] theorem State.setSat_host (n : CoreId) (b : Bool) : (s.setSat n b).host = s.host := by unfold State.setSat; repeat' first | rfl | split
@[simp] theorem State.setSat_upd (n : CoreId) (b : Bool) : (s.setSat n b).upd = s.upd := by unfold State.setSat; repeat' first | rfl | split
@[simp] theorem State.setSat_strm (n : CoreId) (b : Bool) : (s.setSat n b).strm = s.strm := by unfold State.setSat; repeat' first | rfl | split
@[simp] theorem State.setSat_out (n : CoreId) (b : Bool) : (s.setSat n b).out = s.out := by unfold State.setSat; repeat' first | rfl | split

end Sys2Proof.Machine
end

