-- ==== Sys2Proof/Laws/Regs.lean ====
section
/-!
SUPPORT. Laws of registers and their fields: a word set is the word read, other words read as before, and a field set
holds the low bits of its value while fields that share no bit with it keep theirs.
-/

namespace Sys2Proof.Machine

set_option linter.all false

variable (s : State)

@[simp] theorem State.word_setWord_same (a : Nat) (v : Word) : (s.setWord a v).word a = v := by
  simp [State.word, State.setWord]

theorem State.word_setWord_ne (a b : Nat) (v : Word) (h : b ≠ a) : (s.setWord a v).word b = s.word b := by
  simp [State.word, State.setWord, sparseGet_set_ne _ _ _ _ _ _ h]

/-- A register's word depends on the register file alone. -/
theorem State.word_congr {s t : State} (h : t.regs = s.regs) (a : Nat) : t.word a = s.word a := by
  simp [State.word, h]

theorem State.fget_congr {s t : State} (h : t.regs = s.regs) (f : Fld) : t.fget f = s.fget f := by
  simp [State.fget, State.word_congr h]

/-- Bit i of a word with a field put. -/
theorem Fld.put_getLsbD (f : Fld) (w : Word) (v i : Nat) (hi : i < 32) :
    (f.put w v).getLsbD i = if f.lo ≤ i ∧ i - f.lo < f.hi - f.lo + 1 then v.testBit (i - f.lo) else w.getLsbD i := by
  unfold Fld.put
  generalize f.hi - f.lo + 1 = n
  by_cases h1 : i < f.lo
  · have h2 : ¬ f.lo ≤ i := by omega
    simp [hi, h1, h2]
  · have h2 : f.lo ≤ i := by omega
    by_cases h3 : i - f.lo < n <;> simp [hi, h1, h2, h3]
    · rw [← BitVec.getLsbD_eq_getElem h3, BitVec.getLsbD_ofNat]
      simp [h3]
    · rw [BitVec.getLsbD_ofNat]
      simp [h3]

/-- A field put holds the low bits of its value. -/
theorem Fld.get_put_same (f : Fld) (w : Word) (v : Nat) (h : f.hi < 32) (hl : f.lo ≤ f.hi) : f.get (f.put w v) = v % 2 ^ f.width := by
  have e : (f.put w v).extractLsb' f.lo (f.hi - f.lo + 1) = BitVec.ofNat (f.hi - f.lo + 1) v := by
    apply BitVec.eq_of_getLsbD_eq
    intro i hi
    rw [BitVec.getLsbD_extractLsb', Fld.put_getLsbD f w v (f.lo + i) (by omega)]
    simp [hi]
    rw [← BitVec.getLsbD_eq_getElem hi, BitVec.getLsbD_ofNat]
    simp [hi]
  unfold Fld.get Fld.width
  rw [e]
  simp

/-- A field that shares no bit with the one put reads as before. -/
theorem Fld.get_put_disjoint (f g : Fld) (w : Word) (v : Nat) (hg : g.hi < 32) (hl : g.lo ≤ g.hi) (h : f.hi < g.lo ∨ g.hi < f.lo)
    (hf : f.lo ≤ f.hi) : g.get (f.put w v) = g.get w := by
  have e : (f.put w v).extractLsb' g.lo (g.hi - g.lo + 1) = w.extractLsb' g.lo (g.hi - g.lo + 1) := by
    apply BitVec.eq_of_getLsbD_eq
    intro i hi
    rw [BitVec.getLsbD_extractLsb', BitVec.getLsbD_extractLsb', Fld.put_getLsbD f w v (g.lo + i) (by omega)]
    have : ¬ (f.lo ≤ g.lo + i ∧ g.lo + i - f.lo < f.hi - f.lo + 1) := by omega
    simp only [if_neg this]
  unfold Fld.get
  rw [e]

/-- A field set holds the low bits of its value. -/
theorem State.fget_fset_same (f : Fld) (v : Nat) (h : f.hi < 32) (hl : f.lo ≤ f.hi) : (s.fset f v).fget f = v % 2 ^ f.width := by
  simp [State.fget, State.fset, Fld.get_put_same f _ v h hl]

/-- A field of another register reads as before. -/
theorem State.fget_fset_ne (f g : Fld) (v : Nat) (h : g.addr ≠ f.addr) : (s.fset f v).fget g = s.fget g := by
  simp [State.fget, State.fset, State.word_setWord_ne _ _ _ _ h]

/-- A field that shares no bit with the one set reads as before. -/
theorem State.fget_fset_disjoint (f g : Fld) (v : Nat) (hg : g.hi < 32) (hl : g.lo ≤ g.hi) (hf : f.lo ≤ f.hi)
    (h : f.hi < g.lo ∨ g.hi < f.lo) : (s.fset f v).fget g = s.fget g := by
  by_cases ha : g.addr = f.addr
  · simp [State.fget, State.fset, ha, Fld.get_put_disjoint f g _ v hg hl h hf]
  · exact s.fget_fset_ne f g v ha

/-- Another register's word reads as before. -/
theorem State.word_fset_ne (f : Fld) (v a : Nat) (h : a ≠ f.addr) : (s.fset f v).word a = s.word a := by
  simp [State.fset, State.word_setWord_ne _ _ _ _ h]

theorem State.fget_setWord_ne (g : Fld) (a : Nat) (v : Word) (h : g.addr ≠ a) : (s.setWord a v).fget g = s.fget g := by
  simp [State.fget, State.word_setWord_ne _ _ _ _ h]

/-- A field's value is below two to its width. -/
theorem Fld.get_lt (f : Fld) (w : Word) : f.get w < 2 ^ f.width := by
  unfold Fld.get Fld.width
  exact BitVec.isLt _

theorem State.fget_lt (f : Fld) : s.fget f < 2 ^ f.width := Fld.get_lt f _

/-- Bits of a number from which one of its bits has been taken. -/
theorem testBit_sub_two_pow (x d k : Nat) (h : x.testBit d = true) : (x - 2 ^ d).testBit k = (x.testBit k && k != d) := by
  have hr : x % 2 ^ d < 2 ^ d := Nat.mod_lt _ (Nat.two_pow_pos d)
  have hq : x / 2 ^ d % 2 = 1 := by
    rw [Nat.testBit_eq_decide_div_mod_eq, decide_eq_true_iff] at h
    exact h
  have e1 : x = 2 ^ d * (2 * (x / 2 ^ d / 2) + 1) + x % 2 ^ d := by
    have h1 := Nat.div_add_mod x (2 ^ d)
    have h2 : 2 * (x / 2 ^ d / 2) + 1 = x / 2 ^ d := by omega
    rw [h2]
    exact h1.symm
  have e2 : x - 2 ^ d = 2 ^ d * (2 * (x / 2 ^ d / 2)) + x % 2 ^ d := by
    rw [Nat.mul_add, Nat.mul_one] at e1
    omega
  rw [e2]
  conv => rhs; rw [e1]
  rw [Nat.testBit_two_pow_mul_add _ hr, Nat.testBit_two_pow_mul_add _ hr]
  by_cases h1 : k < d
  · rw [if_pos h1, if_pos h1]
    have : (k != d) = true := by simp; omega
    rw [this, Bool.and_true]
  · rw [if_neg h1, if_neg h1]
    by_cases h2 : k = d
    · subst h2
      simp [Nat.testBit_zero]
    · obtain ⟨j, hj⟩ : ∃ j, k - d = j + 1 := ⟨k - d - 1, by omega⟩
      have : (k != d) = true := by simp [h2]
      rw [this, Bool.and_true, hj, Nat.testBit_succ, Nat.testBit_succ]
      congr 1
      omega

/-- Setting a bit of a field. -/
theorem State.fget_fsetBit (s : State) (f : Fld) (i : Nat) (h : f.hi < 32) (hl : f.lo ≤ f.hi) (hi : i < f.width) :
    (s.fsetBit f i).fget f = s.fget f ||| 2 ^ i := by
  unfold State.fsetBit
  rw [State.fget_fset_same _ _ _ h hl, Nat.mod_eq_of_lt]
  exact Nat.or_lt_two_pow (s.fget_lt f) (Nat.pow_lt_pow_right (by decide) hi)

theorem State.testBit_fsetBit (s : State) (f : Fld) (i k : Nat) (h : f.hi < 32) (hl : f.lo ≤ f.hi) (hi : i < f.width) :
    ((s.fsetBit f i).fget f).testBit k = ((s.fget f).testBit k || k == i) := by
  rw [State.fget_fsetBit s f i h hl hi, Nat.testBit_or, Nat.testBit_two_pow]
  congr 1
  by_cases e : i = k <;> simp [e]
  exact fun e' => e e'.symm

/-- Clearing a bit of a field. -/
theorem State.testBit_fclrBit (s : State) (f : Fld) (i k : Nat) (h : f.hi < 32) (hl : f.lo ≤ f.hi) :
    ((s.fclrBit f i).fget f).testBit k = ((s.fget f).testBit k && k != i) := by
  unfold State.fclrBit
  by_cases hb : (s.fget f).testBit i = true
  · rw [if_pos hb, State.fget_fset_same _ _ _ h hl, Nat.mod_eq_of_lt (Nat.lt_of_le_of_lt (Nat.sub_le _ _) (s.fget_lt f))]
    exact testBit_sub_two_pow _ _ _ hb
  · rw [if_neg hb]
    by_cases e : k = i
    · subst e
      simp at hb
      simp [hb]
    · simp [e]

end Sys2Proof.Machine
end

