-- ==== Sys2Proof/Laws/Collect.lean ====
section
/-!
SUPPORT. What reporting an event can change: registers of FLT, MEM and HOST, the stop in progress, the collector's and the
log's own state, the ports' event queues and the outputs; nothing else.
-/

namespace Sys2Proof.Machine

set_option linter.all false

/-- From `s`, reports of events lead to `t`. -/
structure Reports (s t : State) : Prop where
  word : ∀ a, a < 0x400B0000 ∨ 0x400D0000 < a → t.word a = s.word a
  rest : t = { s with regs := t.regs, sup := { s.sup with stop := t.sup.stop }, flt := t.flt, memory := t.memory, host := t.host, tx := t.tx, out := t.out }
  /-- A stop in progress goes on; it may become one that ends in SAFE_STOP (R530). -/
  stop : ∀ q, s.sup.stop = some q → ∃ b, t.sup.stop = some { q with safe := q.safe || b }

namespace Reports

variable {u s t : State}

/-- A stop that no report changes. -/
theorem stopSame {s t : State} (h : t.sup.stop = s.sup.stop) (q : StopSeq) (hq : s.sup.stop = some q) :
    ∃ b, t.sup.stop = some { q with safe := q.safe || b } := ⟨false, by rw [h, hq, Bool.or_false]⟩

theorem refl (s : State) : Reports s s := ⟨fun _ _ => rfl, rfl, stopSame rfl⟩

theorem trans (h : Reports u s) (k : Reports s t) : Reports u t where
  word := fun a ha => (k.word a ha).trans (h.word a ha)
  rest := by have h2 := h.rest; rw [h2] at k; exact k.rest
  stop := by
    intro q hq
    obtain ⟨b, hb⟩ := h.stop q hq
    obtain ⟨c, hc⟩ := k.stop _ hb
    exact ⟨b || c, by rw [hc, ← Bool.or_assoc]⟩

theorem fget (h : Reports s t) (f : Fld) (hf : f.addr < 0x400B0000 ∨ 0x400D0000 < f.addr) : t.fget f = s.fget f := by
  unfold State.fget
  rw [h.word f.addr hf]

/-! The fields that no report changes. -/

theorem pending (h : Reports s t) : t.pending = s.pending := by rw [h.rest]
theorem free (h : Reports s t) : t.free = s.free := by rw [h.rest]
theorem ticks (h : Reports s t) : t.ticks = s.ticks := by rw [h.rest]
theorem rtAdj (h : Reports s t) : t.rtAdj = s.rtAdj := by rw [h.rest]
theorem live (h : Reports s t) : t.live = s.live := by rw [h.rest]
theorem vers (h : Reports s t) : t.vers = s.vers := by rw [h.rest]
theorem mem (h : Reports s t) : t.mem = s.mem := by rw [h.rest]
theorem ecc (h : Reports s t) : t.ecc = s.ecc := by rw [h.rest]
theorem timer (h : Reports s t) : t.timer = s.timer := by rw [h.rest]
theorem clk (h : Reports s t) : t.clk = s.clk := by rw [h.rest]
theorem tim (h : Reports s t) : t.tim = s.tim := by rw [h.rest]
theorem cores (h : Reports s t) : t.cores = s.cores := by rw [h.rest]
theorem takes (h : Reports s t) : t.takes = s.takes := by rw [h.rest]
theorem plan (h : Reports s t) : t.plan = s.plan := by rw [h.rest]
theorem rings (h : Reports s t) : t.rings = s.rings := by rw [h.rest]
theorem ports (h : Reports s t) : t.ports = s.ports := by rw [h.rest]
theorem evq (h : Reports s t) : t.evq = s.evq := by rw [h.rest]
theorem cells (h : Reports s t) : t.cells = s.cells := by rw [h.rest]
theorem brg (h : Reports s t) : t.brg = s.brg := by rw [h.rest]
theorem adc (h : Reports s t) : t.adc = s.adc := by rw [h.rest]
theorem capt (h : Reports s t) : t.capt = s.capt := by rw [h.rest]
theorem mtr (h : Reports s t) : t.mtr = s.mtr := by rw [h.rest]
theorem safe (h : Reports s t) : t.safe = s.safe := by rw [h.rest]
theorem upd (h : Reports s t) : t.upd = s.upd := by rw [h.rest]
theorem strm (h : Reports s t) : t.strm = s.strm := by rw [h.rest]

/-- A word set within FLT, MEM or HOST. -/
theorem setWord (h : Reports u s) (a : Nat) (v : Word) (ha : 0x400B0000 ≤ a) (hb : a ≤ 0x400D0000) : Reports u (s.setWord a v) :=
  h.trans ⟨fun b hb' => s.word_setWord_ne a b v (by omega), rfl, stopSame rfl⟩

theorem fset (h : Reports u s) (f : Fld) (v : Nat) (ha : 0x400B0000 ≤ f.addr) (hb : f.addr ≤ 0x400D0000) : Reports u (s.fset f v) :=
  h.setWord _ _ ha hb

theorem finc (h : Reports u s) (f : Fld) (ha : 0x400B0000 ≤ f.addr) (hb : f.addr ≤ 0x400D0000) : Reports u (s.finc f) :=
  h.fset _ _ ha hb

/-- The parts that a report may change. -/
theorem upd' (h : Reports u s) (f : Flt) (m : Mem) (p : Vector HPort 3) (o : List Out) :
    Reports u { s with flt := f, memory := m, host := p, out := o } :=
  h.trans ⟨fun _ _ => rfl, rfl, stopSame rfl⟩

/-- What waits to leave on the lanes may change. -/
theorem updTx (h : Reports u s) (x : Vector TxQueue 8) : Reports u { s with tx := x } := h.trans ⟨fun _ _ => rfl, rfl, stopSame rfl⟩

/-- The stop may begin, or become one that ends in SAFE_STOP. -/
theorem updStop (h : Reports u s) (x : Option StopSeq) (hx : ∀ q, s.sup.stop = some q → ∃ b, x = some { q with safe := q.safe || b }) :
    Reports u { s with sup := { s.sup with stop := x } } :=
  h.trans ⟨fun _ _ => rfl, rfl, hx⟩

end Reports

variable {u s : State}

theorem State.emit_reports (h : Reports u s) (o : Out) : Reports u (s.emit o) := h.upd' _ _ _ _

theorem State.modTx_reports (h : Reports u s) (p : LaneId) (f : TxQueue → TxQueue) : Reports u (s.modTx p f) := by
  unfold State.modTx
  split
  · exact h
  · exact h.updTx _

theorem State.stopL0_reports (h : Reports u s) (x : RingId) (m : L0Msg) : Reports u (s.stopL0 x m) :=
  State.modTx_reports (State.modTx_reports (h.upd' _ _ _ _) _ _) _ _

theorem State.sendL0_reports (h : Reports u s) (x : RingId) (m : L0Msg) : Reports u (s.sendL0 x m) :=
  State.modTx_reports (State.modTx_reports (State.emit_reports h _) _ _) _ _

theorem State.sendPeer_reports (h : Reports u s) (f : Frame) : Reports u (s.sendPeer f) :=
  State.modTx_reports (State.emit_reports h _) _ _

theorem Reports.each {α : Type} (l : List α) (f : α → State → State) (k : ∀ x t, Reports u t → Reports u (f x t)) (h : Reports u s) :
    Reports u (s.each l f) := by
  unfold State.each
  induction l generalizing s with
  | nil => exact h
  | cons x t ih => exact ih (k x s h)

theorem State.sendStop_reports (h : Reports u s) (r : BitVec 8) (t : Nat) : Reports u (s.sendStop r t) := by
  unfold State.sendStop
  split
  · exact Reports.each _ _ (fun x q hq => State.stopL0_reports hq x _) h
  · exact h

theorem State.beginStop_reports (h : Reports u s) (b : Bool) : Reports u (s.beginStop b) := by
  unfold State.beginStop
  split
  · rename_i q hq
    exact h.updStop _ (fun q' hq' => ⟨b, by rw [hq] at hq'; cases hq'; rfl⟩)
  · rename_i hn
    split
    · exact State.sendStop_reports (h.updStop _ (fun q' hq' => by rw [hn] at hq'; cases hq')) _ _
    · exact h

theorem State.setLogBuf_reports (h : Reports u s) (l : List LogEntry) : Reports u (s.setLogBuf l) :=
  (h.upd' s.flt { s.memory with buf := l } s.host s.out).fset F.MEM_LOG_LEVEL _ (by decide) (by decide)

theorem State.logPush_reports (h : Reports u s) (e : LogEntry) : Reports u (s.logPush e).1 := by
  have hc : Reports u (s.finc F.MEM_LOGCNT_DROP) := h.finc _ (by decide) (by decide)
  unfold State.logPush
  split
  · exact State.setLogBuf_reports h _
  · split
    · split
      · exact (State.setLogBuf_reports h _).finc _ (by decide) (by decide)
      · exact hc
    · split
      · exact (State.setLogBuf_reports h _).finc _ (by decide) (by decide)
      · exact hc

theorem State.pushHist_reports (h : Reports u s) (n : Nat) : Reports u (s.pushHist n) := by
  unfold State.pushHist
  split
  · exact h
  · dsimp only; split <;> exact h.upd' _ _ _ _

theorem State.pinReact_reports (h : Reports u s) : Reports u s.pinReact :=
  ((h.upd' { s.flt with pulseEnd := s.ticks + 5 * us } s.memory s.host s.out).fset F.FLT_PIN_PULSE 1 (by decide) (by decide)).fset F.FLT_PIN_LEVEL 0
    (by decide) (by decide)

theorem State.setSticky_reports (h : Reports u s) (n : Nat) (hn : n < 384) : Reports u (s.setSticky n) := by
  unfold State.setSticky A.FLT_STICKY
  exact h.setWord _ _ (by omega) (by omega)

theorem Reports.foldlFst {α β : Type} (l : List α) (f : State × β → α → State × β) (p : State × β)
    (k : ∀ x q, Reports u q.1 → Reports u (f q x).1) (h : Reports u p.1) : Reports u (l.foldl f p).1 := by
  induction l generalizing p with
  | nil => exact h
  | cons x t ih => exact ih (f p x) (k x p h)

theorem State.hostEvent_reports (h : Reports u s) (n : Nat) : Reports u (s.hostEvent n).1 := by
  refine Reports.foldlFst _ _ _ (fun x q hq => ?_) h
  dsimp only
  split
  · exact hq
  · split
    · exact State.emit_reports (hq.upd' _ _ _ _) _
    · exact hq.fset _ _ (by decide) (by decide)

theorem State.reactWith_reports (h : Reports u s) (n : Nat) (r : BitVec 4) (hn : n < 384) : Reports u (s.reactWith n r).1 := by
  unfold State.reactWith
  have h1 := State.setSticky_reports h n hn
  generalize s.setSticky n = s1 at h1
  have h2 : Reports u (if s1.flag F.FLT_FIRST_VALID then s1 else (s1.fset F.FLT_FIRST_SRC n).fset F.FLT_FIRST_VALID 1) := by
    split
    · exact h1
    · exact (h1.fset _ _ (by decide) (by decide)).fset _ _ (by decide) (by decide)
  dsimp only
  generalize (if s1.flag F.FLT_FIRST_VALID then s1 else (s1.fset F.FLT_FIRST_SRC n).fset F.FLT_FIRST_VALID 1) = s2 at h2
  have h3 : Reports u (if r.getLsbD 0 then s2.pinReact else s2) := by split <;> first | exact State.pinReact_reports h2 | exact h2
  generalize (if r.getLsbD 0 then s2.pinReact else s2) = s3 at h3
  have h4 : Reports u (if r.getLsbD 1 then s3.beginStop true else s3) := by split <;> first | exact State.beginStop_reports h3 _ | exact h3
  generalize (if r.getLsbD 1 then s3.beginStop true else s3) = s4 at h4
  have h5 : Reports u (if r.getLsbD 2 then s4.hostEvent n else (s4, false)).1 := by
    split
    · exact State.hostEvent_reports h4 n
    · exact h4
  generalize (if r.getLsbD 2 then s4.hostEvent n else (s4, false)) = p at h5
  split
  · exact State.logPush_reports h5 _
  · exact h5

theorem connected_lt (n : Nat) (h : connected n = true) : n < 384 := by
  simp [connected] at h
  omega

theorem State.raiseN_reports (k n : Nat) {s : State} (h : Reports u s) : Reports u (State.raiseN k n s) := by
  induction k generalizing n s with
  | zero => exact h
  | succ k ih =>
    unfold State.raiseN
    split
    · rename_i hc
      have hn : n < 384 := connected_lt n (by simp at hc; exact hc.1)
      have h1 := State.pushHist_reports h n
      dsimp only
      split
      · exact h1
      · have h2 := State.reactWith_reports h1 n ((s.pushHist n).reaction n) hn
        unfold State.react
        generalize (s.pushHist n).reactWith n ((s.pushHist n).reaction n) = p at h2
        generalize p.2 = l
        have h3 : ∀ (l : List Nat) (x : State), Reports u x → Reports u (l.foldl (fun s m => State.raiseN k m s) x) := by
          intro l
          induction l with
          | nil => exact fun _ hx => hx
          | cons m t iht => exact fun x hx => iht _ (ih m hx)
        exact h3 l _ h2
    · exact h

/-- What an event can change. -/
theorem State.raise_reports (s : State) (n : Nat) : Reports s (s.raise n) := State.raiseN_reports 4 n (Reports.refl s)

theorem State.raise_reports_of (h : Reports u s) (n : Nat) : Reports u (s.raise n) := h.trans (s.raise_reports n)

theorem State.setCond_reports (h : Reports u s) (n : Nat) (on : Bool) : Reports u (s.setCond n on) := by
  unfold State.setCond
  split
  · split
    · exact h
    · exact State.raise_reports_of (h.upd' { s.flt with cond := s.flt.cond ||| (1 : BitVec 384) <<< n } s.memory s.host s.out) n
  · exact h.upd' { s.flt with cond := s.flt.cond &&& ~~~((1 : BitVec 384) <<< n) } s.memory s.host s.out

theorem State.log_reports (h : Reports u s) (e : LogEntry) : Reports u (s.log e) := by
  unfold State.log
  split
  · have h1 := State.logPush_reports h e
    generalize s.logPush e = p at h1
    dsimp only
    split
    · exact State.raise_reports_of h1 _
    · exact h1
  · exact h

theorem State.logHigh_reports (h : Reports u s) (k : BitVec 8) (a b : Nat) : Reports u (s.logHigh k a b) := State.log_reports h _

end Sys2Proof.Machine
end

