-- ==== Sys2Proof/Laws/Core.lean ====
section
/-!
SUPPORT. Laws of a core that carries no error: the datapath predicts the residue of every exact result, so every check
passes and an instruction completes with its own effect.
-/

namespace Sys2Proof.Machine

set_option linter.all false

/-! Residues modulo 7. -/

theorem residue_lt (v : Int) : residue v < 7 := by unfold residue; omega

theorem residue_cast (v : Int) : (residue v : Int) = v % 7 := by unfold residue; omega

theorem residue_add (a b : Int) : residue (a + b) = (residue a + residue b) % 7 := by
  have := residue_cast a; have := residue_cast b; have := residue_cast (a + b); omega

theorem residue_sub (a b : Int) : residue (a - b) = (residue a + (7 - residue b % 7)) % 7 := by
  have := residue_cast a; have := residue_cast b; have := residue_cast (a - b); have := residue_lt b; omega

theorem residue_neg (a : Int) : residue (-a) = (7 - residue a % 7) % 7 := by
  have := residue_cast a; have := residue_cast (-a); have := residue_lt a; omega

theorem residue_mul (a b : Int) : residue (a * b) = residue a * residue b % 7 := by
  have h : ((residue (a * b) : Nat) : Int) = ((residue a * residue b % 7 : Nat) : Int) := by
    rw [residue_cast, Int.natCast_emod, Int.natCast_mul, residue_cast, residue_cast]
    exact Int.mul_emod a b 7
  exact Int.ofNat_inj.mp h

theorem residue_mod (v : Int) : residue v % 7 = residue v := Nat.mod_eq_of_lt (residue_lt v)

theorem wordResidue_toNat (w : Word) : (wordResidue w).toNat = residue w.toInt := by
  have := residue_lt w.toInt
  simp [wordResidue]
  omega

theorem wordResidue_ne (w : Word) : wordResidue w ≠ 7 := by
  intro h
  have h1 := wordResidue_toNat w
  have h2 := residue_lt w.toInt
  rw [h] at h1
  simp at h1
  omega

theorem mantResidue_toNat (m : BitVec 24) : (mantResidue m).toNat = residue m.toInt := by
  have := residue_lt m.toInt
  simp [mantResidue]
  omega

theorem mantResidue_ne (m : BitVec 24) : mantResidue m ≠ 7 := by
  intro h
  have h1 := mantResidue_toNat m
  have h2 := residue_lt m.toInt
  rw [h] at h1
  simp at h1
  omega

/-! Exact values whose predicted residue is right. -/

theorem Ev.ok_iff (x : Ev) : x.ok = true ↔ residue x.m = x.r % 7 := by simp [Ev.ok]

theorem two_pow_mod7 (k : Nat) : 2 ^ k % 7 = pow2Mod7 k % 7 := by
  unfold pow2Mod7
  conv => lhs; rw [← Nat.div_add_mod k 3, Nat.pow_add, Nat.pow_mul]
  rw [Nat.mul_mod, Nat.pow_mod]
  simp

theorem Ev.alignTo_ok (x : Ev) (e : Int) (h : x.ok = true) : (x.alignTo e).ok = true := by
  rw [Ev.ok_iff] at *
  simp only [Ev.alignTo]
  have h2 : residue ((2 ^ (x.e - e).toNat : Nat) : Int) = 2 ^ (x.e - e).toNat % 7 := by unfold residue; omega
  rw [residue_mul, h, h2, two_pow_mod7]
  simp [Nat.mul_mod]

theorem Ev.add_ok (x y : Ev) (hx : x.ok = true) (hy : y.ok = true) : (x.add y).ok = true := by
  have h1 := (Ev.ok_iff _).mp (x.alignTo_ok (Min.min x.e y.e) hx)
  have h2 := (Ev.ok_iff _).mp (y.alignTo_ok (Min.min x.e y.e) hy)
  rw [Ev.ok_iff]
  simp only [Ev.add]
  rw [residue_add, h1, h2]
  omega

theorem Ev.neg_ok (x : Ev) (h : x.ok = true) : x.neg.ok = true := by
  rw [Ev.ok_iff] at *
  simp only [Ev.neg]
  rw [residue_neg, h]
  omega

theorem Ev.sub_ok (x y : Ev) (hx : x.ok = true) (hy : y.ok = true) : (x.sub y).ok = true := x.add_ok _ hx (y.neg_ok hy)

theorem Ev.mul_ok (x y : Ev) (hx : x.ok = true) (hy : y.ok = true) : (x.mul y).ok = true := by
  rw [Ev.ok_iff] at *
  simp only [Ev.mul]
  rw [residue_mul, hx, hy, ← Nat.mul_mod]
  simp

theorem Ev.abs_ok (x : Ev) (h : x.ok = true) : x.abs.ok = true := by
  unfold Ev.abs; split
  · exact x.neg_ok h
  · exact h

theorem Ev.scale_ok (x : Ev) (k : Int) (h : x.ok = true) : (x.scale k).ok = true := by
  rw [Ev.ok_iff] at *; exact h

theorem Ev.min_ok (x y : Ev) (hx : x.ok = true) (hy : y.ok = true) : (x.min y).ok = true := by
  unfold Ev.min; split <;> assumption

theorem Ev.max_ok (x y : Ev) (hx : x.ok = true) (hy : y.ok = true) : (x.max y).ok = true := by
  unfold Ev.max; split <;> assumption

theorem Ev.clamp_ok (x y z : Ev) (hx : x.ok = true) (hy : y.ok = true) (hz : z.ok = true) : (x.clamp y z).ok = true :=
  Ev.min_ok _ _ (Ev.max_ok _ _ hx hy) hz

theorem Ev.foldl_add_ok (l : List Ev) (x : Ev) (hx : x.ok = true) (h : ∀ y ∈ l, y.ok = true) : (l.foldl Ev.add x).ok = true := by
  induction l generalizing x with
  | nil => exact hx
  | cons y t ih => exact ih _ (x.add_ok y hx (h y (by simp))) (fun z hz => h z (by simp [hz]))

theorem sumEv_ok (l : List Ev) (h : ∀ y ∈ l, y.ok = true) : (sumEv l).ok = true := Ev.foldl_add_ok l _ (by decide) h

/-- A word read as signed is 256 times its mantissa plus its exponent byte. -/
theorem sfWord_split (w : Word) : w.toInt = 256 * signedOf 24 (w.toNat / 256) + (w.toNat % 256 : Nat) := by
  have hw := w.isLt
  rw [BitVec.toInt_eq_toNat_cond]
  unfold signedOf
  split <;> split <;> omega

/-- An SF word read with its own residue is predicted right. -/
theorem sfValue_ok (w : Word) : (sfValue w (wordResidue w)).ok = true := by
  rw [Ev.ok_iff]
  simp only [sfValue, wordResidue_toNat]
  have hr := residue_cast w.toInt
  have hm := residue_cast (signedOf 24 (w.toNat / 256))
  have := residue_lt w.toInt
  have := residue_lt (signedOf 24 (w.toNat / 256))
  rw [sfWord_split w] at hr
  have he : w.toNat % 256 < 256 := Nat.mod_lt _ (by decide)
  rw [sfWord_split w] at *
  generalize residue (256 * signedOf 24 (w.toNat / 256) + (w.toNat % 256 : Nat)) = y at *
  generalize signedOf 24 (w.toNat / 256) = m at *
  generalize w.toNat % 256 = c at *
  generalize residue m = x at *
  omega

variable {s : State} {n : CoreId}

theorem CoreSound.sRes (h : CoreSound s n) (r : Sreg) : s.sRes n r = wordResidue (s.sVal n r) := by
  unfold State.sRes State.sVal
  split
  · rfl
  · exact h.scal r

theorem CoreSound.withS (h : CoreSound s n) (r : Sreg) (k : Word → Nat → Run) :
    s.withS n r k = k (s.sVal n r) (residue (s.sVal n r).toInt) := by
  have h1 : s.sRes n r ≠ 7 := by rw [h.sRes r]; exact wordResidue_ne _
  unfold State.withS
  rw [if_neg h1, h.sRes r, wordResidue_toNat]

theorem CoreSound.withSS (h : CoreSound s n) (ra rb : Sreg) (k : Word → Nat → Word → Nat → Run) :
    s.withSS n ra rb k = k (s.sVal n ra) (residue (s.sVal n ra).toInt) (s.sVal n rb) (residue (s.sVal n rb).toInt) := by
  unfold State.withSS
  rw [h.withS, h.withS]

theorem CoreSound.withV (h : CoreSound s n) (r : Vreg) (k : VReg → Run) : s.withV n r k = k (s.cores[n]).r.v[r] := by
  have h1 : ¬ (((s.cores[n]).r.v[r]).res.toList.any (· == 7)) = true := by
    intro h2
    rw [List.any_eq_true] at h2
    obtain ⟨x, hx, h3⟩ := h2
    rw [Vector.mem_toList_iff] at hx
    obtain ⟨i, hi, rfl⟩ := Vector.getElem_of_mem hx
    have h4 := h.vec r ⟨i, hi⟩
    rw [beq_iff_eq] at h3
    exact mantResidue_ne _ (h4.symm.trans h3)
  unfold State.withV
  rw [if_neg h1]

theorem CoreSound.lane_ok (h : CoreSound s n) (r : Vreg) (i : Fin 48) : (((s.cores[n]).r.v[r]).lane i).ok = true := by
  rw [Ev.ok_iff]
  simp only [VReg.lane]
  rw [h.vec r i, mantResidue_toNat, residue_mod]

/-- Content of a predicate register; p0 reads as all ones (R58). -/
theorem CoreSound.withP (h : CoreSound s n) (r : Preg) (k : BitVec 48 → Run) :
    s.withP n r k = k (if r = 0 then allLanes else (s.cores[n]).r.p[r]) := by
  unfold State.withP
  split
  · rfl
  · rw [if_pos (h.pred r)]

theorem CoreSound.checked (h : CoreSound s n) (e ok : Bool) (k : State → Run) (ho : ok = true) : s.checked n e ok k = k s := by
  unfold State.checked
  rw [h.upset]
  simp [ho]

/-- An instruction whose body completes answers that state. -/
theorem CoreSound.run (h : CoreSound s n) (len cyc : Nat) (body : State → Run) {t : State} (hb : body s.fresh = .ok t) :
    s.coreRun n len cyc body = .next t := by
  have h1 : s.fresh.coreReady n = true := h.ready
  have h2 : s.fresh.fetchCheck n (s.fresh.cores[n]).pc.toNat = .ok s.fresh := by
    unfold State.fetchCheck
    rw [show (s.fresh.cores[n]) = s.cores[n] from rfl, h.fetch]
  unfold State.coreRun
  simp only [h1, h2, if_true, hb]
  rfl

/-- What the core reads is the same at the beginning of a command. -/
theorem CoreSound.fresh (h : CoreSound s n) : CoreSound s.fresh n := ⟨h.ready, h.upset, h.fetch, h.scal, h.vec, h.pred⟩

/-! Bodies that check a result complete. -/

theorem CoreSound.intA (h : CoreSound s n) (rd : Sreg) (cyc : Nat) (exact : Int) (pred : Nat) (v : Word)
    (hp : residue exact = pred % 7) : s.intA n rd cyc exact pred v = .ok ((s.writeS n rd v).retire n 4 cyc) := by
  unfold State.intA
  rw [h.checked _ _ _ (by simp [hp])]

theorem CoreSound.intD (h : CoreSound s n) (rd : Sreg) (cyc : Nat) (v : Word) :
    s.intD n rd cyc v = .ok ((s.writeS n rd v).retire n 4 cyc) := by
  unfold State.intD
  rw [h.checked _ _ _ rfl]

theorem CoreSound.sfDone (h : CoreSound s n) (rd : Sreg) (cyc : Nat) (x : Ev) (hx : x.ok = true) :
    s.sfDone n rd cyc x = .ok (((s.writeS n rd (sfResult x).1).setSat n (sfResult x).2).retire n 4 cyc) := by
  unfold State.sfDone
  rw [h.checked _ _ _ hx]

theorem CoreSound.vecDone (h : CoreSound s n) (vd : Vreg) (cyc : Nat) (xs : List Ev) (hx : ∀ x ∈ xs, x.ok = true) :
    s.vecDone n vd cyc xs = .ok (((s.writeV n vd (VReg.ofStage xs).1).setSat n (VReg.ofStage xs).2).retire n 4 cyc) := by
  unfold State.vecDone
  rw [h.checked _ _ _ (List.all_eq_true.mpr hx)]

theorem CoreSound.predDone (h : CoreSound s n) (pd : Preg) (cyc : Nat) (v : BitVec 48) :
    s.predDone n pd cyc v = .ok ((s.writeP n pd v).retire n 4 cyc) := by
  unfold State.predDone
  rw [h.checked _ _ _ rfl]

/-- Every lane of a stage is predicted right where the old lanes and the new values are. -/
theorem stageLanes_ok (old : VReg) (pg : BitVec 48) (f : Fin 48 → Ev) (ho : ∀ i, (old.lane i).ok = true) (hf : ∀ i, (f i).ok = true) :
    ∀ x ∈ stageLanes old pg f, x.ok = true := by
  intro x hx
  simp only [stageLanes, List.mem_map] at hx
  obtain ⟨i, -, rfl⟩ := hx
  split
  · exact hf i
  · exact ho i

theorem CoreSound.sfVal_ok (h : CoreSound s n) (r : Sreg) : (s.sfVal n r).ok = true := by
  unfold State.sfVal
  rw [h.sRes r]
  exact sfValue_ok _

theorem CoreSound.withSf (h : CoreSound s n) (ra rb : Sreg) (k : Ev → Ev → Run) : s.withSf n ra rb k = k (s.sfVal n ra) (s.sfVal n rb) := by
  unfold State.withSf
  rw [h.withSS]
  rfl

theorem CoreSound.withVVP (h : CoreSound s n) (vd va vb : Vreg) (pg : Preg) (k : VReg → VReg → VReg → BitVec 48 → Run) :
    s.withVVP n vd va vb pg k = k (s.vVal n vd) (s.vVal n va) (s.vVal n vb) (s.pVal n pg) := by
  unfold State.withVVP
  rw [h.withV, h.withV, h.withV, h.withP]
  rfl

theorem CoreSound.withVP (h : CoreSound s n) (vd va : Vreg) (pg : Preg) (k : VReg → VReg → BitVec 48 → Run) :
    s.withVP n vd va pg k = k (s.vVal n vd) (s.vVal n va) (s.pVal n pg) := by
  unfold State.withVP
  rw [h.withV, h.withV, h.withP]
  rfl

theorem CoreSound.vVal_ok (h : CoreSound s n) (r : Vreg) (i : Fin 48) : ((s.vVal n r).lane i).ok = true := h.lane_ok r i

/-- A jump to a word of IMEM is taken. -/
theorem State.jumpTo_ok (s : State) (n : CoreId) (target : Int) (cyc : Nat) (before : State → State) (h : imemAddr target) :
    s.jumpTo n target cyc before =
      .ok ((before s).modCore n fun c => { c with pc := BitVec.ofInt 16 target, cycles := c.cycles + s.coreCycles n cyc }) := by
  unfold State.jumpTo
  exact if_pos h

theorem State.dmemCheck_ok (s : State) (n : CoreId) (a : Nat) (h : eccAt (s.cores[n]).dmemErr (wordOf (dmemOff a)) = none) :
    s.dmemCheck n a = .ok s := by
  unfold State.dmemCheck
  rw [h]

theorem State.dmemChecks_ok (s : State) (n : CoreId) (a k : Nat) (h : dmemClean s n a k) : s.dmemChecks n a k = .ok s := by
  induction k with
  | zero => rfl
  | succ k ih =>
    unfold State.dmemChecks
    rw [ih (fun i hi => h i (by omega))]
    exact s.dmemCheck_ok n _ (h k (by omega))

theorem State.withDmem_ok (s : State) (n : CoreId) (a words : Nat) (k : List Nat → State → Run) (h : dmemClean s n a words) :
    s.withDmem n a words k = k ((List.range words).map (fun i => (s.cores[n]).dpeek (a + 4 * i) 4)) s := by
  unfold State.withDmem
  rw [s.dmemChecks_ok n a words h]

theorem satWord_eq (x : Int) : satWord x = BitVec.ofInt 32 (max (-2 ^ 31) (min (2 ^ 31 - 1) x)) := by
  unfold satWord clampInt
  congr 1
  split
  · omega
  · split <;> omega

/-! What the steps of an instruction leave in a core's own state. -/

theorem State.core_mod_same (s : State) (n : CoreId) (f : Core → Core) : (s.modCore n f).cores[n] = f (s.cores[n]) := by
  simp

theorem State.core_mod_ne (s : State) (n m : CoreId) (f : Core → Core) (h : m ≠ n) : (s.modCore n f).cores[m] = s.cores[m] := by
  have : ¬ n.val = m.val := fun e => h (Fin.ext e.symm)
  simp [Vector.getElem_set_ne, this]

theorem State.core_retire (s : State) (n : CoreId) (len cyc : Nat) :
    (s.retire n len cyc).cores[n] =
      { s.cores[n] with pc := (s.cores[n]).pc + BitVec.ofNat 16 len, cycles := (s.cores[n]).cycles + s.coreCycles n cyc } :=
  s.core_mod_same n _

theorem State.core_retire_ne (s : State) (n m : CoreId) (len cyc : Nat) (h : m ≠ n) : (s.retire n len cyc).cores[m] = s.cores[m] :=
  s.core_mod_ne n m _ h

theorem State.core_setSat (s : State) (n m : CoreId) (b : Bool) : (s.setSat n b).cores[m] = s.cores[m] := by
  rw [State.setSat_cores]

theorem State.core_writeS_ne (s : State) (n m : CoreId) (r : Sreg) (v : Word) (h : m ≠ n) : (s.writeS n r v).cores[m] = s.cores[m] := by
  unfold State.writeS
  split
  · rfl
  · exact s.core_mod_ne n m _ h

/-- A scalar register written, read back: s0 discards writes (R55). -/
theorem State.sVal_writeS (s : State) (n : CoreId) (r q : Sreg) (v : Word) :
    (s.writeS n r v).sVal n q = if r ≠ 0 ∧ q = r then v else s.sVal n q := by
  unfold State.sVal State.writeS
  by_cases hr : r = 0
  · by_cases hq : q = 0 <;> simp [hr, hq]
  · rw [if_neg hr, State.core_mod_same]
    by_cases hq : q = 0
    · simp [hq]; intro h1 h2; exact absurd h2.symm hr
    · by_cases he : q = r
      · subst he; simp [hq]
      · have : ¬ r.val = q.val := fun e => he (Fin.ext e.symm)
        simp [hq, hr, he, Vector.getElem_set_ne, this]

/-- Parts of a core that writing a scalar register leaves. -/
theorem State.writeS_core (s : State) (n : CoreId) (r : Sreg) (v : Word) :
    ∃ q, (s.writeS n r v).cores[n] = { s.cores[n] with r := q } ∧ q.v = (s.cores[n]).r.v ∧ q.p = (s.cores[n]).r.p ∧
      q.ppar = (s.cores[n]).r.ppar := by
  unfold State.writeS
  split
  · exact ⟨_, rfl, rfl, rfl, rfl⟩
  · rw [State.core_mod_same]
    exact ⟨_, rfl, rfl, rfl, rfl⟩

theorem State.writeP_core (s : State) (n : CoreId) (r : Preg) (v : BitVec 48) :
    ∃ q, (s.writeP n r v).cores[n] = { s.cores[n] with r := q } ∧ q.v = (s.cores[n]).r.v ∧ q.s = (s.cores[n]).r.s ∧
      q.sres = (s.cores[n]).r.sres := by
  unfold State.writeP
  split
  · exact ⟨_, rfl, rfl, rfl, rfl⟩
  · rw [State.core_mod_same]
    exact ⟨_, rfl, rfl, rfl, rfl⟩

/-- A predicate register written, read back: p0 discards writes (R58). -/
theorem State.pVal_writeP (s : State) (n : CoreId) (r q : Preg) (v : BitVec 48) :
    (s.writeP n r v).pVal n q = if r ≠ 0 ∧ q = r then v else s.pVal n q := by
  unfold State.pVal State.writeP
  by_cases hr : r = 0
  · by_cases hq : q = 0 <;> simp [hr, hq]
  · rw [if_neg hr, State.core_mod_same]
    by_cases hq : q = 0
    · simp [hq]; intro h1 h2; exact absurd h2.symm hr
    · by_cases he : q = r
      · subst he; simp [hq]
      · have : ¬ r.val = q.val := fun e => he (Fin.ext e.symm)
        simp [hq, hr, he, Vector.getElem_set_ne, this]

/-- A vector register written, read back. -/
theorem State.vVal_writeV (s : State) (n : CoreId) (r q : Vreg) (v : VReg) :
    (s.writeV n r v).vVal n q = if q = r then v else s.vVal n q := by
  unfold State.vVal State.writeV
  rw [State.core_mod_same]
  by_cases he : q = r
  · subst he; simp
  · have : ¬ r.val = q.val := fun e => he (Fin.ext e.symm)
    simp [he, Vector.getElem_set_ne, this]

/-- What a core reads of a register depends on the core alone. -/
theorem State.sVal_congr {s t : State} {n : CoreId} (h : (t.cores[n]).r = (s.cores[n]).r) (q : Sreg) : t.sVal n q = s.sVal n q := by
  unfold State.sVal; rw [h]

theorem State.pVal_congr {s t : State} {n : CoreId} (h : (t.cores[n]).r = (s.cores[n]).r) (q : Preg) : t.pVal n q = s.pVal n q := by
  unfold State.pVal; rw [h]

theorem State.vVal_congr {s t : State} {n : CoreId} (h : (t.cores[n]).r = (s.cores[n]).r) (q : Vreg) : t.vVal n q = s.vVal n q := by
  unfold State.vVal; rw [h]

theorem State.sVal_retire (s : State) (n : CoreId) (len cyc : Nat) (q : Sreg) : (s.retire n len cyc).sVal n q = s.sVal n q :=
  State.sVal_congr (by rw [State.core_retire]) q

theorem State.pVal_retire (s : State) (n : CoreId) (len cyc : Nat) (q : Preg) : (s.retire n len cyc).pVal n q = s.pVal n q :=
  State.pVal_congr (by rw [State.core_retire]) q

theorem State.vVal_retire (s : State) (n : CoreId) (len cyc : Nat) (q : Vreg) : (s.retire n len cyc).vVal n q = s.vVal n q :=
  State.vVal_congr (by rw [State.core_retire]) q

end Sys2Proof.Machine
end

