-- ==== Sys2Proof/Laws/Lanes.lean ====
section
/-!
SUPPORT. Laws of lanes, predicates and parameter blocks, and of an instruction that traps.
-/

namespace Sys2Proof.Machine

set_option linter.all false

/-- An instruction whose body traps outside a speculative run takes that trap, and its listed cycles (R90, R99). -/
theorem CoreSound.coreRun_trap {s : State} {n : CoreId} (h : CoreSound s n) (hs : s.inSpec n = false) (len cyc : Nat)
    (body : State → Run) (c : Nat) (a : Option Nat) (hc : c ≠ causeDrain) (hb : body s.fresh = .error (s.fresh, .trap c a)) :
    s.coreRun n len cyc body = .next ((s.fresh.takeTrap n len c a).spend n cyc) := by
  have h1 : s.fresh.coreReady n = true := h.ready
  have h2 : s.fresh.fetchCheck n (s.fresh.cores[n]).pc.toNat = .ok s.fresh := by
    unfold State.fetchCheck
    rw [show (s.fresh.cores[n]) = s.cores[n] from rfl, h.fetch]
  have h3 : s.fresh.inSpec n = false := hs
  unfold State.coreRun
  simp only [h1, h2, if_true, hb]
  simp [Run.finish, State.settle, h3, hc]

/-! Lanes (R113). -/

/-- The lane that beats every later lane and is beaten by no lane is the one found (R113). -/
theorem bestLane_eq (f : Ev → Ev → Bool) (v : VReg) (j : Fin 48) : ∀ l : List (Fin 48), l.Pairwise (· < ·) → j ∈ l →
   (∀ i ∈ l, f (v.lane i) (v.lane j) = false) → (∀ i ∈ l, i < j → f (v.lane j) (v.lane i) = true) → bestLane f v l = some j := by
  intro l hp hj h1 h2
  induction l with
  | nil => simp at hj
  | cons i t ih =>
    rw [List.pairwise_cons] at hp
    rcases List.mem_cons.mp hj with rfl | hj'
    · unfold bestLane
      cases hb : bestLane f v t with
      | none => rfl
      | some k =>
        have hk : k ∈ t := by
          clear ih hp hj h1 h2
          induction t generalizing k with
          | nil => simp [bestLane] at hb
          | cons i t ih =>
            unfold bestLane at hb
            split at hb
            · simp at hb; simp [hb]
            · rename_i k' hk'
              split at hb <;> simp at hb
              · subst hb; right; exact ih _ hk'
              · simp [hb]
        simp only
        rw [if_neg (by rw [h1 k (List.mem_cons_of_mem _ hk)]; simp)]
    · unfold bestLane
      rw [ih hp.2 hj' (fun i hi => h1 i (List.mem_cons_of_mem _ hi)) (fun i hi => h2 i (List.mem_cons_of_mem _ hi))]
      simp only
      rw [if_pos (h2 i (List.mem_cons_self) (hp.1 j hj'))]

theorem lanesOf_sorted (p : BitVec 48) : (lanesOf p).Pairwise (· < ·) := (List.pairwise_lt_finRange 48).filter _

theorem mem_lanesOf (p : BitVec 48) (i : Fin 48) : i ∈ lanesOf p ↔ p.getLsbD i.val = true := by simp [lanesOf]

/-! Predicates (R58). -/

theorem getLsbD_predOf (f : Fin 48 → Bool) (i : Fin 48) : (predOf f).getLsbD i.val = f i := by
  unfold predOf
  have : ∀ (l : List (Fin 48)) (m : BitVec 48), (l.foldl (fun m i => if f i then m ||| BitVec.twoPow 48 i.val else m) m).getLsbD i.val = (m.getLsbD i.val || (decide (i ∈ l) && f i)) := by
    intro l
    induction l with
    | nil => intro m; simp
    | cons j t ih =>
      intro m
      rw [List.foldl_cons, ih]
      by_cases hj : f j
      · simp only [hj, if_true, BitVec.getLsbD_or, BitVec.getLsbD_twoPow]
        by_cases hij : i = j
        · subst hij; simp [hj]
        · have : ¬ (j.val = i.val) := fun h => hij (Fin.ext h.symm)
          simp [hij, this]
      · simp only [hj]
        by_cases hij : i = j
        · subst hij; simp [hj]
        · simp [hij]
  rw [this]; simp

/-! Parameter blocks (R114). -/

theorem CoreSound.withParams {s : State} {n : CoreId} (h : CoreSound s n) (rp : Sreg) (words : Nat) (k : List Ev → Nat → State → Run)
   (hi : inDmem (s.sVal n rp).toNat (4 * words) = true) (ha : (s.sVal n rp).toNat % 4 = 0) (hc : dmemClean s n (s.sVal n rp).toNat words) :
   s.withParams n rp words k = k ((List.range words).map fun i => sfOfWord (BitVec.ofNat 32 ((s.cores[n]).dpeek ((s.sVal n rp).toNat + 4 * i) 4))) (s.sVal n rp).toNat s := by
  unfold State.withParams
  rw [h.withS, if_pos ⟨hi, ha⟩, State.withDmem_ok _ _ _ _ _ hc, List.map_map]
  rfl

theorem paramAt_range (f : Nat → Ev) (w i : Nat) (h : i < w) : paramAt ((List.range w).map f) i = f i := by
  simp [paramAt, List.getD, h]

theorem sfOfWord_ok (w : Word) : (sfOfWord w).ok = true := sfValue_ok w

theorem VReg.ofStage_ok (xs : List Ev) (i : Fin 48) : ((VReg.ofStage xs).1.lane i).ok = true := by
  rw [Ev.ok_iff]
  simp only [VReg.ofStage, VReg.ofMants, VReg.lane]
  simp [mantResidue_toNat, residue_mod]

end Sys2Proof.Machine
end

