-- ==== Sys2Proof/Laws/CoreLocal.lean ====
section
/-!
SUPPORT. What the instructions of a core that only compute can change, traps and halts included: the core itself, the registers
of TAKE and CORE, takes, and what a report of an event changes.
-/

namespace Sys2Proof.Machine

set_option linter.all false

/-- Registers that an instruction of a core, or an event that it reports, may change: TAKE, CORE, FLT, MEM and HOST. -/
def localWord (a : Nat) : Prop := 0x40030000 ≤ a ∧ a < 0x40050000 ∨ 0x400B0000 ≤ a ∧ a < 0x400E0000

/-- From `s`, core n alone leads to `t`. -/
structure CoreLocal (n : CoreId) (s t : State) : Prop where
  word  : ∀ a, ¬ localWord a → t.word a = s.word a
  other : ∀ m : CoreId, m ≠ n → t.cores[m] = s.cores[m]
  rest  : t =
    { s with regs := t.regs, cores := t.cores, takes := t.takes, sup := { s.sup with stop := t.sup.stop }, flt := t.flt, memory := t.memory, host := t.host, tx := t.tx, out := t.out }

/-- Both outcomes of an instruction's body are local. -/
def RunLocal (n : CoreId) (u : State) (r : Run) : Prop :=
  match r with
  | .ok t => CoreLocal n u t
  | .error x => CoreLocal n u x.1

variable {n : CoreId} {u s t : State}

theorem CoreLocal.refl (n : CoreId) (s : State) : CoreLocal n s s := ⟨fun _ _ => rfl, fun _ _ => rfl, rfl⟩

theorem CoreLocal.trans (h : CoreLocal n u s) (k : CoreLocal n s t) : CoreLocal n u t where
  word := fun a ha => (k.word a ha).trans (h.word a ha)
  other := fun m hm => (k.other m hm).trans (h.other m hm)
  rest := by have h2 := h.rest; rw [h2] at k; exact k.rest

theorem Reports.coreLocal (h : Reports s t) (n : CoreId) : CoreLocal n s t where
  word := fun a ha => h.word a (by unfold localWord at ha; omega)
  other := fun m _ => by rw [h.cores]
  rest := by rw [h.rest]

theorem State.modCore_local (h : CoreLocal n u s) (f : Core → Core) : CoreLocal n u (s.modCore n f) :=
  h.trans ⟨fun _ _ => rfl, fun m hm => s.core_mod_ne n m f hm, rfl⟩

theorem State.modTake_local (h : CoreLocal n u s) (k : HandleId) (f : Take → Take) : CoreLocal n u (s.modTake k f) :=
  h.trans ⟨fun _ _ => rfl, fun _ _ => rfl, rfl⟩

theorem State.fresh_local (h : CoreLocal n u s) : CoreLocal n u s.fresh := h.trans ⟨fun _ _ => rfl, fun _ _ => rfl, rfl⟩

theorem State.setWord_local (h : CoreLocal n u s) (a : Nat) (v : Word) (ha : localWord a) : CoreLocal n u (s.setWord a v) :=
  h.trans ⟨fun b hb => s.word_setWord_ne a b v (fun e => hb (e ▸ ha)), fun _ _ => rfl, rfl⟩

theorem State.fset_local (h : CoreLocal n u s) (f : Fld) (v : Nat) (ha : localWord f.addr) : CoreLocal n u (s.fset f v) :=
  State.setWord_local h _ _ ha

theorem State.finc_local (h : CoreLocal n u s) (f : Fld) (ha : localWord f.addr) : CoreLocal n u (s.finc f) :=
  State.fset_local h f _ ha

theorem State.raise_local (h : CoreLocal n u s) (k : Nat) : CoreLocal n u (s.raise k) := h.trans ((s.raise_reports k).coreLocal n)

/-- A register of core m, at an offset of its own registers. -/
theorem localWord_core (m : CoreId) (k : Nat) (hk : k < 0x40) : localWord (0x40040100 + k + 0x40 * m.val) := by
  have := m.isLt
  unfold localWord; omega

theorem localWord_take (h : HandleId) (k : Nat) (hk : k < 0x10) : localWord (0x40030040 + k + 0x10 * h.val) := by
  have := h.isLt
  unfold localWord; omega

theorem State.setCoreState_local (h : CoreLocal n u s) (v : Nat) : CoreLocal n u (s.setCoreState n v) :=
  State.fset_local h _ _ (localWord_core n 4 (by decide))

theorem State.retire_local (h : CoreLocal n u s) (len cyc : Nat) : CoreLocal n u (s.retire n len cyc) := State.modCore_local h _

theorem State.setSat_local (h : CoreLocal n u s) (b : Bool) : CoreLocal n u (s.setSat n b) := by
  unfold State.setSat
  split
  · exact State.fset_local h _ _ (localWord_core n 4 (by decide))
  · exact h

theorem State.writeS_local (h : CoreLocal n u s) (r : Sreg) (v : Word) : CoreLocal n u (s.writeS n r v) := by
  unfold State.writeS
  split
  · exact h
  · exact State.modCore_local h _

theorem State.writeV_local (h : CoreLocal n u s) (r : Vreg) (v : VReg) : CoreLocal n u (s.writeV n r v) := State.modCore_local h _

theorem State.writeP_local (h : CoreLocal n u s) (r : Preg) (v : BitVec 48) : CoreLocal n u (s.writeP n r v) := by
  unfold State.writeP
  split
  · exact h
  · exact State.modCore_local h _

/-! Takes of a core that halts. -/

theorem State.cutTake_local (h : CoreLocal n u s) (k : HandleId) (reason : Nat) : CoreLocal n u (s.cutTake k reason) := by
  unfold State.cutTake
  split
  · have h1 := State.modTake_local h k fun t => { t with writes := [], instant := none }
    have h2 := State.fset_local h1 (F.TAKE_STAT_STATE k) takeCut (localWord_take k 0 (by decide))
    have h3 := State.fset_local h2 (F.TAKE_STAT_REASON k) reason (localWord_take k 0 (by decide))
    have h4 : localWord (cutField reason).addr := by unfold cutField; split <;> exact Or.inl (by decide)
    have h5 := State.finc_local h3 (cutField reason) h4
    have h6 := State.setWord_local h5 (A.TAKE_BNDL k) 0 (localWord_take k 4 (by decide))
    have h7 := State.setWord_local h6 (A.TAKE_BNDH k) 0 (localWord_take k 8 (by decide))
    dsimp only
    split
    · exact h7
    · exact State.raise_local h7 _
  · exact h

theorem CoreLocal.each {α : Type} (l : List α) (f : α → State → State) (k : ∀ x t, CoreLocal n u t → CoreLocal n u (f x t))
    (h : CoreLocal n u s) : CoreLocal n u (s.each l f) := by
  unfold State.each
  induction l generalizing s with
  | nil => exact h
  | cons x t ih => exact ih (k x s h)

theorem State.abandonTakes_local (h : CoreLocal n u s) (owner : Nat) : CoreLocal n u (s.abandonTakes owner) := by
  refine CoreLocal.each _ _ (fun x t ht => ?_) h
  split
  · exact State.cutTake_local ht _ _
  · exact ht

theorem State.haltCore_local (h : CoreLocal n u s) : CoreLocal n u (s.haltCore n) :=
  State.abandonTakes_local (State.setCoreState_local (State.modCore_local h _) _) _

theorem State.trapRegs_local (h : CoreLocal n u s) (cause : Nat) (addr : Option Nat) : CoreLocal n u (s.trapRegs n cause addr) := by
  have h1 := State.fset_local h (F.CORE_TPC_ADDR n) ((s.cores[n]).pc.toNat / 4) (localWord_core n 0x10 (by decide))
  have h2 := State.fset_local h1 (F.CORE_TCAUSE_CAUSE n) cause (localWord_core n 0x14 (by decide))
  unfold State.trapRegs
  split
  · exact State.fset_local h2 _ _ (localWord_core n 0x18 (by decide))
  · exact h2

theorem State.takeTrap_local (h : CoreLocal n u s) (next cause : Nat) (addr : Option Nat) :
    CoreLocal n u (s.takeTrap n next cause addr) := by
  have h1 := State.trapRegs_local h cause addr
  have fin : ∀ s2 : State, CoreLocal n u s2 → ∀ (twice : Bool) (f : Core → Core),
      CoreLocal n u (if twice then ((s2.fset (F.CORE_TCAUSE_DOUBLE n) 1).haltCore n).raise srcCoreHalt
        else if s2.flag (F.CORE_CTRL_TRAPHALT n) then (s2.haltCore n).raise srcCoreHalt
        else (s2.modCore n f).setCoreState n coreTrap) := by
    intro s2 h2 twice f
    split
    · exact State.raise_local (State.haltCore_local (State.fset_local h2 _ _ (localWord_core n 0x14 (by decide)))) _
    · split
      · exact State.raise_local (State.haltCore_local h2) _
      · exact State.setCoreState_local (State.modCore_local h2 _) _
  unfold State.takeTrap
  dsimp only
  cases trapSource cause with
  | none => exact fin _ h1 _ _
  | some k => exact fin _ (State.raise_local h1 k) _ _

theorem State.parkCore_local (h : CoreLocal n u s) (b : Bool) : CoreLocal n u (s.parkCore n b) :=
  State.setCoreState_local (State.modCore_local h _) _

theorem State.spend_local (h : CoreLocal n u s) (cyc : Nat) : CoreLocal n u (s.spend n cyc) := State.modCore_local h _

theorem State.settle_local (h : CoreLocal n u s) (len cyc : Nat) (stop : CoreStop) : CoreLocal n u (s.settle n len cyc stop) := by
  have h1 := State.fset_local h (F.CORE_STAT_RESERR n) 1 (localWord_core n 4 (by decide))
  unfold State.settle
  split
  · split
    · exact State.parkCore_local (State.raise_local h1 _) _
    · exact State.spend_local (State.takeTrap_local h1 _ _ _) _
  · split
    · exact State.parkCore_local h _
    · split
      · exact State.takeTrap_local h _ _ _
      · exact State.spend_local (State.takeTrap_local h _ _ _) _
  · exact State.parkCore_local h _

theorem RunLocal.finish {r : Run} (h : RunLocal n u r) (len cyc : Nat) : CoreLocal n u (r.finish n len cyc) := by
  unfold Run.finish
  split
  · exact h
  · exact State.settle_local h _ _ _

theorem State.fetchCheck_local (h : CoreLocal n u s) (a : Nat) : RunLocal n u (s.fetchCheck n a) := by
  unfold State.fetchCheck
  split
  · exact h
  · exact State.finc_local (State.modCore_local h _) _ (localWord_core n 0x2C (by decide))
  · exact State.fset_local h _ _ (localWord_core n 0x2C (by decide))

theorem State.dmemCheck_local (h : CoreLocal n u s) (a : Nat) : RunLocal n u (s.dmemCheck n a) := by
  unfold State.dmemCheck
  split
  · exact h
  · exact State.finc_local (State.modCore_local h _) _ (localWord_core n 0x2C (by decide))
  · exact State.fset_local h _ _ (localWord_core n 0x2C (by decide))

theorem State.dmemChecks_local (h : CoreLocal n u s) (a k : Nat) : RunLocal n u (s.dmemChecks n a k) := by
  induction k with
  | zero => exact h
  | succ k ih =>
    unfold State.dmemChecks
    cases hr : s.dmemChecks n a k with
    | ok t => rw [hr] at ih; exact State.dmemCheck_local ih _
    | error e => rw [hr] at ih; exact ih

/-- An instruction whose body is local. -/
theorem State.coreRun_local (len cyc : Nat) (body : State → Run) (hb : ∀ s, CoreLocal n u s → RunLocal n u (body s)) (h : CoreLocal n u s)
    (ht : s.coreRun n len cyc body = .next t) : CoreLocal n u t := by
  unfold State.coreRun at ht
  have h1 := State.fresh_local h
  dsimp only at ht
  split at ht
  · have h2 := State.fetchCheck_local h1 (s.fresh.cores[n]).pc.toNat
    split at ht
    · rename_i s' hs
      rw [hs] at h2
      cases ht
      exact (hb _ h2).finish len cyc
    · rename_i e he
      rw [he] at h2
      cases ht
      exact RunLocal.finish (r := .error e) h2 len 0
  · cases ht; exact h1

/-! The combinators of instruction bodies. -/

theorem RunLocal.ok (h : CoreLocal n u s) : RunLocal n u (.ok s) := h

theorem RunLocal.error {c : CoreStop} (h : CoreLocal n u s) : RunLocal n u (.error (s, c)) := h

theorem State.trapWith_local (h : CoreLocal n u s) (c : Nat) (a : Option Nat) : RunLocal n u (s.trapWith c a) := h

theorem State.withS_local (h : CoreLocal n u s) (r : Sreg) (k : Word → Nat → Run) (hk : ∀ a b, RunLocal n u (k a b)) :
    RunLocal n u (s.withS n r k) := by
  unfold State.withS; split
  · exact h
  · exact hk _ _

theorem State.withSS_local (h : CoreLocal n u s) (r q : Sreg) (k : Word → Nat → Word → Nat → Run)
    (hk : ∀ a b c d, RunLocal n u (k a b c d)) : RunLocal n u (s.withSS n r q k) :=
  State.withS_local h _ _ fun _ _ => State.withS_local h _ _ fun _ _ => hk _ _ _ _

theorem State.withV_local (h : CoreLocal n u s) (r : Vreg) (k : VReg → Run) (hk : ∀ a, RunLocal n u (k a)) :
    RunLocal n u (s.withV n r k) := by
  unfold State.withV; split
  · exact h
  · exact hk _

theorem State.withP_local (h : CoreLocal n u s) (r : Preg) (k : BitVec 48 → Run) (hk : ∀ a, RunLocal n u (k a)) :
    RunLocal n u (s.withP n r k) := by
  unfold State.withP; split
  · exact hk _
  · split
    · exact hk _
    · exact h

theorem State.checked_local (h : CoreLocal n u s) (e ok : Bool) (k : State → Run) (hk : ∀ s, CoreLocal n u s → RunLocal n u (k s)) :
    RunLocal n u (s.checked n e ok k) := by
  unfold State.checked
  split
  · exact RunLocal.error (State.modCore_local h _)
  · split
    · exact RunLocal.error (State.modCore_local h _)
    · split
      · exact hk _ h
      · exact h
  · split
    · exact hk _ h
    · exact h

theorem State.withDmem_local (h : CoreLocal n u s) (a words : Nat) (k : List Nat → State → Run)
    (hk : ∀ l s, CoreLocal n u s → RunLocal n u (k l s)) : RunLocal n u (s.withDmem n a words k) := by
  have h1 := State.dmemChecks_local h a words
  unfold State.withDmem
  split
  · rename_i e he; rw [he] at h1; exact h1
  · rename_i s' hs; rw [hs] at h1; exact hk _ _ h1

theorem State.withParams_local (h : CoreLocal n u s) (r : Sreg) (words : Nat) (k : List Ev → Nat → State → Run)
    (hk : ∀ l a s, CoreLocal n u s → RunLocal n u (k l a s)) : RunLocal n u (s.withParams n r words k) := by
  refine State.withS_local h _ _ fun a _ => ?_
  split
  · exact State.withDmem_local h _ _ _ fun _ _ hs => hk _ _ _ hs
  · exact h

theorem State.withVs_local (h : CoreLocal n u s) (va : Vreg) (m : Nat) (k : List VReg → Run) (hk : ∀ l, RunLocal n u (k l)) :
    RunLocal n u (s.withVs n va m k) := by
  induction m generalizing k with
  | zero => exact hk _
  | succ m ih =>
    refine ih _ fun l => ?_
    split
    · exact State.withV_local h _ _ fun _ => hk _
    · exact h

theorem State.jumpTo_local (h : CoreLocal n u s) (target : Int) (cyc : Nat) (f : State → State)
    (hf : ∀ s, CoreLocal n u s → CoreLocal n u (f s)) : RunLocal n u (s.jumpTo n target cyc f) := by
  unfold State.jumpTo
  split
  · exact State.modCore_local (hf _ h) _
  · exact h

theorem RunLocal.ite {c : Prop} [Decidable c] {x y : Run} (hx : RunLocal n u x) (hy : RunLocal n u y) :
    RunLocal n u (if c then x else y) := by split <;> assumption

theorem RunLocal.dite {c : Prop} [Decidable c] {x : c → Run} {y : ¬c → Run} (hx : ∀ h, RunLocal n u (x h)) (hy : ∀ h, RunLocal n u (y h)) :
    RunLocal n u (if h : c then x h else y h) := by split <;> simp_all

end Sys2Proof.Machine
end

