-- ==== Sys2Proof/Laws/Keeps.lean ====
section
/-!
SUPPORT. What every operation of the module keeps: the queue, the order of time, the canonical form of memory and of the
register file, and, for all but a named few, the safety parameter set and the energy registers. The relation is
reflexive and transitive, so that a lemma about each operation gives one about every command.
-/

namespace Sys2Proof.Machine

set_option linter.all false

/-- From `s` the module may go to `t`: `b` says that the safety parameter set stays, `e` that the energy registers do. -/
structure Keeps (b e : Bool) (s t : State) : Prop where
  queue  : t.pending = s.pending
  time   : s.ticks ≤ t.ticks
  mem    : Memory.wf s.mem = true → Memory.wf t.mem = true
  regs   : regsWf s.regs = true → regsWf t.regs = true
  set    : b = true → t.safe.a.set = s.safe.a.set ∧ t.safe.b.set = s.safe.b.set ∧ t.safe.sealed = s.safe.sealed
  energy : e = true → t.mtr.energy = s.mtr.energy

/-- The body of an instruction keeps this in both of its outcomes. -/
def RunKeeps (b e : Bool) (s : State) (r : Run) : Prop :=
  match r with
  | .ok t => Keeps b e s t
  | .error x => Keeps b e s x.1

/-- A meaning keeps this when it answers a next state. -/
def ResKeeps (b e : Bool) (s : State) (r : Res) : Prop := ∀ t, r = .next t → Keeps b e s t

/-- The effect of a register access keeps this where there is one. -/
def OptKeeps {β : Type} (b e : Bool) (s : State) (o : Option (State × β)) : Prop := ∀ p, o = some p → Keeps b e s p.1

/-- A read of several words keeps this whether or not it completes. -/
def ExceptKeeps {β : Type} (b e : Bool) (s : State) (r : Except (State × Nat) (β × State)) : Prop :=
  match r with
  | .ok p => Keeps b e s p.2
  | .error p => Keeps b e s p.1

variable {b e : Bool} {u s t : State}

theorem Keeps.refl (b e : Bool) (s : State) : Keeps b e s s :=
  ⟨rfl, Nat.le_refl _, id, id, fun _ => ⟨rfl, rfl, rfl⟩, fun _ => rfl⟩

theorem Keeps.trans (h : Keeps b e u s) (k : Keeps b e s t) : Keeps b e u t where
  queue := k.queue.trans h.queue
  time := Nat.le_trans h.time k.time
  mem := fun w => k.mem (h.mem w)
  regs := fun w => k.regs (h.regs w)
  set := fun w => ⟨(k.set w).1.trans (h.set w).1, (k.set w).2.1.trans (h.set w).2.1, (k.set w).2.2.trans (h.set w).2.2⟩
  energy := fun w => (k.energy w).trans (h.energy w)

/-- A change of other parts of the state. -/
theorem Keeps.upd
    {x_free : Nat} {x_rtAdj : Nat} {x_ringAt : Nat} {x_lineAt : Nat} {x_tx : Vector TxQueue 8} {x_ltBase : Nat} {x_live : List (Nat × Word)} {x_vers : List (Nat × Nat)}
    {x_ecc : List (Nat × Ecc)} {x_timer : Timer} {x_sup : Sup} {x_clk : Clk} {x_tim : Tim} {x_cores : Vector
    Core 12} {x_takes : Vector Take 8} {x_plan : Vector Dest 4} {x_rings : Vector Ring 3} {x_ports : Vector
    Port 8} {x_evq : List EvtRec} {x_access : Option CellAccess} {x_caTag : BitVec 8} {x_cells : Vector
    (Vector Cell 40) 3} {x_brg : Brg} {x_adc : Adc} {x_capt : Vector Capt 4} {x_flt : Flt} {x_memory : Mem}
    {x_host : Vector HPort 3} {x_upd : Upd} {x_strm : Strm} {x_out : List Out}
    (h : Keeps b e u s) :
    Keeps b e u {
      pending := s.pending
      free := x_free
      ticks := s.ticks
      rtAdj := x_rtAdj
      ringAt := x_ringAt
      lineAt := x_lineAt
      tx := x_tx
      ltBase := x_ltBase
      regs := s.regs
      live := x_live
      vers := x_vers
      mem := s.mem
      ecc := x_ecc
      timer := x_timer
      sup := x_sup
      clk := x_clk
      tim := x_tim
      cores := x_cores
      takes := x_takes
      plan := x_plan
      rings := x_rings
      ports := x_ports
      evq := x_evq
      access := x_access
      caTag := x_caTag
      cells := x_cells
      brg := x_brg
      adc := x_adc
      capt := x_capt
      mtr := s.mtr
      safe := s.safe
      flt := x_flt
      memory := x_memory
      host := x_host
      upd := x_upd
      strm := x_strm
      out := x_out } :=
  h.trans ⟨rfl, Nat.le_refl _, id, id, fun _ => ⟨rfl, rfl, rfl⟩, fun _ => rfl⟩

theorem Keeps.ofFst {β : Type} {p : State × β} {y : β} (g : p = (t, y)) (h : Keeps b e u p.1) : Keeps b e u t := by
  cases g; exact h

theorem Keeps.ofSnd {β : Type} {p : β × State} {y : β} (g : p = (y, t)) (h : Keeps b e u p.2) : Keeps b e u t := by
  cases g; exact h

theorem ResKeeps.next (h : Keeps b e s t) : ResKeeps b e s (.next t) := fun _ hx => by cases hx; exact h

theorem RunKeeps.ok (h : Keeps b e s t) : RunKeeps b e s (.ok t) := h

theorem RunKeeps.error {x : State × CoreStop} (h : Keeps b e s x.1) : RunKeeps b e s (.error x) := h

theorem RunKeeps.ofOk {r : Run} (g : r = .ok t) (h : RunKeeps b e u r) : Keeps b e u t := by cases g; exact h

theorem RunKeeps.ofError {r : Run} {x : State × CoreStop} (g : r = .error x) (h : RunKeeps b e u r) : Keeps b e u x.1 := by
  cases g; exact h

theorem RunKeeps.ofErrorPair {r : Run} {c : CoreStop} (g : r = .error (t, c)) (h : RunKeeps b e u r) : Keeps b e u t := by
  cases g; exact h

theorem OptKeeps.some {β : Type} {p : State × β} (h : Keeps b e u p.1) : OptKeeps b e u (some p) := fun _ hx => by cases hx; exact h

theorem OptKeeps.none {β : Type} : OptKeeps (β := β) b e u none := fun _ hx => by cases hx

theorem Keeps.ite {c : Prop} [Decidable c] {x y : State} (h : c → Keeps b e u x) (k : ¬c → Keeps b e u y) :
    Keeps b e u (if c then x else y) := by split <;> simp_all

theorem Keeps.iteFst {β : Type} {c : Prop} [Decidable c] {x y : State × β} (h : c → Keeps b e u x.1) (k : ¬c → Keeps b e u y.1) :
    Keeps b e u (if c then x else y).1 := by split <;> simp_all

theorem RunKeeps.ite {c : Prop} [Decidable c] {x y : Run} (h : c → RunKeeps b e u x) (k : ¬c → RunKeeps b e u y) :
    RunKeeps b e u (if c then x else y) := by split <;> simp_all

theorem ResKeeps.ite {c : Prop} [Decidable c] {x y : Res} (h : c → ResKeeps b e u x) (k : ¬c → ResKeeps b e u y) :
    ResKeeps b e u (if c then x else y) := by split <;> simp_all

theorem State.setWord_keeps (h : Keeps b e u s) (a : Nat) (v : Word) : Keeps b e u (s.setWord a v) :=
  h.trans ⟨rfl, Nat.le_refl _, id, sparseWf_set resetValue s.regs a v, fun _ => ⟨rfl, rfl, rfl⟩, fun _ => rfl⟩

theorem State.resetBlock_keeps (h : Keeps b e u s) (n : Nat) : Keeps b e u (s.resetBlock n) :=
  h.trans ⟨rfl, Nat.le_refl _, id, sparseWf_drop resetValue s.regs _ _, fun _ => ⟨rfl, rfl, rfl⟩, fun _ => rfl⟩

theorem State.resetRange_keeps (h : Keeps b e u s) (lo hi : Nat) : Keeps b e u (s.resetRange lo hi) :=
  h.trans ⟨rfl, Nat.le_refl _, id, sparseWf_drop resetValue s.regs _ _, fun _ => ⟨rfl, rfl, rfl⟩, fun _ => rfl⟩

theorem State.setByte_keeps (h : Keeps b e u s) (a : Nat) (v : Byte) : Keeps b e u (s.setByte a v) :=
  h.trans ⟨rfl, Nat.le_refl _, sparseWf_set (fun _ => memDefault) s.mem a v, id, fun _ => ⟨rfl, rfl, rfl⟩, fun _ => rfl⟩

theorem State.poke_keeps (h : Keeps b e u s) (a : Nat) (l : List Byte) : Keeps b e u (s.poke a l) := by
  induction l generalizing s a with
  | nil => exact h
  | cons x t ih => exact ih (State.setByte_keeps h a x) (a + 1)

theorem State.dropMem_keeps (h : Keeps b e u s) (lo hi : Nat) : Keeps b e u (s.dropMem lo hi) :=
  h.trans ⟨rfl, Nat.le_refl _, sparseWf_drop _ s.mem _ _, id, fun _ => ⟨rfl, rfl, rfl⟩, fun _ => rfl⟩

theorem State.clearSram_keeps (h : Keeps b e u s) : Keeps b e u s.clearSram :=
  h.trans ⟨rfl, Nat.le_refl _, sparseWf_drop _ s.mem _ _, id, fun _ => ⟨rfl, rfl, rfl⟩, fun _ => rfl⟩

theorem State.advanceTo_keeps (h : Keeps b e u s) (n : Nat) : Keeps b e u (s.advanceTo n) :=
  h.trans ⟨rfl, Nat.le_max_left _ _, id, id, fun _ => ⟨rfl, rfl, rfl⟩, fun _ => rfl⟩

theorem State.modSafe_keeps (h : Keeps b e u s) (f : Safe → Safe)
    (k : b = true → (f s.safe).a.set = s.safe.a.set ∧ (f s.safe).b.set = s.safe.b.set ∧ (f s.safe).sealed = s.safe.sealed) :
    Keeps b e u (s.modSafe f) :=
  h.trans ⟨rfl, Nat.le_refl _, id, id, k, fun _ => rfl⟩

theorem State.each_keeps {α : Type} (l : List α) (f : α → State → State)
    (k : ∀ x t, Keeps b e u t → Keeps b e u (f x t)) (h : Keeps b e u s) : Keeps b e u (s.each l f) := by
  unfold State.each
  induction l generalizing s with
  | nil => exact h
  | cons x t ih => exact ih (k x s h)

theorem Keeps.foldl {α : Type} (l : List α) (f : State → α → State)
    (k : ∀ x t, Keeps b e u t → Keeps b e u (f t x)) (h : Keeps b e u s) : Keeps b e u (l.foldl f s) := by
  induction l generalizing s with
  | nil => exact h
  | cons x t ih => exact ih (k x s h)

theorem Keeps.foldlFst {α β : Type} (l : List α) (f : State × β → α → State × β) (p : State × β)
    (k : ∀ x q, Keeps b e u q.1 → Keeps b e u (f q x).1) (h : Keeps b e u p.1) : Keeps b e u (l.foldl f p).1 := by
  induction l generalizing p with
  | nil => exact h
  | cons x t ih => exact ih (f p x) (k x p h)

end Sys2Proof.Machine
end

