-- ==== Sys2Proof/Laws/KeepsOps.lean ====
section
/-!
SUPPORT. What every operation keeps (`Keeps`): the shared operations: registers, events, memory, takes, operands of a core, the planner.
-/

namespace Sys2Proof.Machine

set_option linter.unusedVariables false

variable {kb ke : Bool} {u0 s : State}

theorem State.fset_keeps (h : Keeps kb ke u0 s) (f : Fld) (v : Nat) : Keeps kb ke u0 (State.fset s f v) := by
  unfold State.fset
  with_reducible repeat' first
    | assumption | apply State.setWord_keeps

theorem State.fsetI_keeps (h : Keeps kb ke u0 s) (f : Fld) (v : Int) : Keeps kb ke u0 (State.fsetI s f v) := by
  unfold State.fsetI
  with_reducible repeat' first
    | assumption | apply State.fset_keeps

theorem State.finc_keeps (h : Keeps kb ke u0 s) (f : Fld) : Keeps kb ke u0 (State.finc s f) := by
  unfold State.finc
  with_reducible repeat' first
    | assumption | apply State.fset_keeps

theorem State.fsetBit_keeps (h : Keeps kb ke u0 s) (f : Fld) (i : Nat) : Keeps kb ke u0 (State.fsetBit s f i) := by
  unfold State.fsetBit
  with_reducible repeat' first
    | assumption | apply State.fset_keeps

theorem State.fclrBit_keeps (h : Keeps kb ke u0 s) (f : Fld) (i : Nat) : Keeps kb ke u0 (State.fclrBit s f i) := by
  unfold State.fclrBit
  with_reducible repeat' first
    | assumption | apply State.fset_keeps | refine Keeps.ite (fun _ => ?_) (fun _ => ?_) | split

theorem State.fputBit_keeps (h : Keeps kb ke u0 s) (f : Fld) (i : Nat) (b : Bool) : Keeps kb ke u0 (State.fputBit s f i b) := by
  unfold State.fputBit
  with_reducible repeat' first
    | assumption | apply State.fsetBit_keeps | apply State.fclrBit_keeps
    | refine Keeps.ite (fun _ => ?_) (fun _ => ?_) | split

theorem State.modCore_keeps (h : Keeps kb ke u0 s) (n : CoreId) (f : Core → Core) : Keeps kb ke u0 (State.modCore s n f) := by
  unfold State.modCore
  with_reducible repeat' first
    | assumption | exact Keeps.upd (by assumption)

theorem State.modTake_keeps (h : Keeps kb ke u0 s) (h : HandleId) (f : Take → Take) : Keeps kb ke u0 (State.modTake s h f) := by
  unfold State.modTake
  with_reducible repeat' first
    | assumption | exact Keeps.upd (by assumption)

theorem State.modDest_keeps (h : Keeps kb ke u0 s) (d : DestId) (f : Dest → Dest) : Keeps kb ke u0 (State.modDest s d f) := by
  unfold State.modDest
  with_reducible repeat' first
    | assumption | exact Keeps.upd (by assumption)

theorem State.modRing_keeps (h : Keeps kb ke u0 s) (x : RingId) (f : Ring → Ring) : Keeps kb ke u0 (State.modRing s x f) := by
  unfold State.modRing
  with_reducible repeat' first
    | assumption | exact Keeps.upd (by assumption)

theorem State.modView_keeps (h : Keeps kb ke u0 s) (x : RingId) (k : CellId) (f : CellView → CellView) : Keeps kb ke u0 (State.modView s x k f) := by
  unfold State.modView
  with_reducible repeat' first
    | assumption | apply State.modRing_keeps | (intro _; skip) | exact Keeps.upd (by assumption)

theorem State.modPort_keeps (h : Keeps kb ke u0 s) (p : LaneId) (f : Port → Port) : Keeps kb ke u0 (State.modPort s p f) := by
  unfold State.modPort
  with_reducible repeat' first
    | assumption | exact Keeps.upd (by assumption)

theorem State.modCell_keeps (h : Keeps kb ke u0 s) (x : RingId) (k : CellId) (f : Cell → Cell) : Keeps kb ke u0 (State.modCell s x k f) := by
  unfold State.modCell
  with_reducible repeat' first
    | assumption | exact Keeps.upd (by assumption)

theorem State.modLeg_keeps (h : Keeps kb ke u0 s) (x : LegId) (f : Leg → Leg) : Keeps kb ke u0 (State.modLeg s x f) := by
  unfold State.modLeg
  with_reducible repeat' first
    | assumption | exact Keeps.upd (by assumption)

theorem State.modCapt_keeps (h : Keeps kb ke u0 s) (u : CaptId) (f : Capt → Capt) : Keeps kb ke u0 (State.modCapt s u f) := by
  unfold State.modCapt
  with_reducible repeat' first
    | assumption | exact Keeps.upd (by assumption)

theorem State.modHost_keeps (h : Keeps kb ke u0 s) (h : HostPort) (f : HPort → HPort) : Keeps kb ke u0 (State.modHost s h f) := by
  unfold State.modHost
  with_reducible repeat' first
    | assumption | exact Keeps.upd (by assumption)

theorem State.fresh_keeps (h : Keeps kb ke u0 s) : Keeps kb ke u0 (State.fresh s) := by
  unfold State.fresh
  with_reducible repeat' first
    | assumption | exact Keeps.upd (by assumption)

theorem State.emit_keeps (h : Keeps kb ke u0 s) (o : Out) : Keeps kb ke u0 (State.emit s o) := by
  unfold State.emit
  with_reducible repeat' first
    | assumption | exact Keeps.upd (by assumption)

theorem State.freshValue_keeps (h : Keeps kb ke u0 s) : Keeps kb ke u0 (State.freshValue s).2 := by
  unfold State.freshValue
  with_reducible repeat' first
    | assumption | refine Keeps.ofFst (by assumption) ?_ | refine Keeps.ofSnd (by assumption) ?_ | dsimp only
    | exact Keeps.upd (by assumption)

theorem State.setRtAdj_keeps (h : Keeps kb ke u0 s) (a : Nat) : Keeps kb ke u0 (State.setRtAdj s a) := by
  unfold State.setRtAdj
  with_reducible repeat' first
    | assumption | (intro _; skip) | refine Keeps.ite (fun _ => ?_) (fun _ => ?_) | split
    | exact Keeps.upd (by assumption)

theorem State.setMask40_keeps (h : Keeps kb ke u0 s) (l : Fld) (h : Fld) (m : BitVec 40) : Keeps kb ke u0 (State.setMask40 s l h m) := by
  unfold State.setMask40
  with_reducible repeat' first
    | assumption | apply State.fset_keeps

theorem State.setTime48_keeps (h : Keeps kb ke u0 s) (l : Fld) (h : Fld) (t : BitVec 48) : Keeps kb ke u0 (State.setTime48 s l h t) := by
  unfold State.setTime48
  with_reducible repeat' first
    | assumption | apply State.fset_keeps

theorem State.modTx_keeps (h : Keeps kb ke u0 s) (p : LaneId) (f : TxQueue → TxQueue) : Keeps kb ke u0 (State.modTx s p f) := by
  unfold State.modTx
  with_reducible repeat' first
    | assumption | refine Keeps.ite (fun _ => ?_) (fun _ => ?_) | split | exact Keeps.upd (by assumption)

theorem State.sendL0_keeps (h : Keeps kb ke u0 s) (x : RingId) (m : L0Msg) : Keeps kb ke u0 (State.sendL0 s x m) := by
  unfold State.sendL0
  with_reducible repeat' first
    | assumption | apply State.emit_keeps | apply State.modTx_keeps
    | (extract_lets +onlyGivenNames xq; refine (fun (hx : Keeps kb ke u0 xq) => ?_) ?_; rotate_left; dsimp -zeta only [xq]; rotate_left; clear_value xq)
    | (extract_lets +onlyGivenNames xq; (have hq : xq = xq := by (dsimp -zeta only [xq])); clear hq; clear_value xq)

theorem State.stopL0_keeps (h : Keeps kb ke u0 s) (x : RingId) (m : L0Msg) : Keeps kb ke u0 (State.stopL0 s x m) := by
  unfold State.stopL0
  with_reducible repeat' first
    | assumption | apply State.modTx_keeps
    | (extract_lets +onlyGivenNames xq; refine (fun (hx : Keeps kb ke u0 xq) => ?_) ?_; rotate_left; dsimp -zeta only [xq]; rotate_left; clear_value xq)
    | (extract_lets +onlyGivenNames xq; (have hq : xq = xq := by (dsimp -zeta only [xq])); clear hq; clear_value xq)
    | exact Keeps.upd (by assumption)

theorem State.sendPeer_keeps (h : Keeps kb ke u0 s) (f : Frame) : Keeps kb ke u0 (State.sendPeer s f) := by
  unfold State.sendPeer
  with_reducible repeat' first
    | assumption | apply State.emit_keeps | apply State.modTx_keeps

theorem State.sendStop_keeps (h : Keeps kb ke u0 s) (reason : BitVec 8) (t : Nat) : Keeps kb ke u0 (State.sendStop s reason t) := by
  unfold State.sendStop
  with_reducible repeat' first
    | assumption | apply State.each_keeps | apply State.stopL0_keeps | apply State.each_keeps | (intro _; skip)
    | refine Keeps.ite (fun _ => ?_) (fun _ => ?_) | split

theorem State.beginStop_keeps (h : Keeps kb ke u0 s) (safe : Bool) : Keeps kb ke u0 (State.beginStop s safe) := by
  unfold State.beginStop
  with_reducible repeat' first
    | assumption | apply State.sendStop_keeps | refine Keeps.ite (fun _ => ?_) (fun _ => ?_) | split
    | exact Keeps.upd (by assumption)

theorem State.setLogBuf_keeps (h : Keeps kb ke u0 s) (l : List LogEntry) : Keeps kb ke u0 (State.setLogBuf s l) := by
  unfold State.setLogBuf
  with_reducible repeat' first
    | assumption | apply State.fset_keeps | exact Keeps.upd (by assumption)

theorem State.logPush_keeps (h : Keeps kb ke u0 s) (e : LogEntry) : Keeps kb ke u0 (State.logPush s e).1 := by
  unfold State.logPush
  with_reducible repeat' first
    | assumption | apply State.finc_keeps | apply State.setLogBuf_keeps | refine Keeps.ofFst (by assumption) ?_
    | refine Keeps.ofSnd (by assumption) ?_ | dsimp only | (intro _; skip)
    | refine Keeps.iteFst (fun _ => ?_) (fun _ => ?_) | refine Keeps.ite (fun _ => ?_) (fun _ => ?_) | split

theorem State.setSticky_keeps (h : Keeps kb ke u0 s) (n : Nat) : Keeps kb ke u0 (State.setSticky s n) := by
  unfold State.setSticky
  with_reducible repeat' first
    | assumption | apply State.setWord_keeps

theorem State.pushHist_keeps (h : Keeps kb ke u0 s) (n : Nat) : Keeps kb ke u0 (State.pushHist s n) := by
  unfold State.pushHist
  with_reducible repeat' first
    | assumption
    | (extract_lets +onlyGivenNames xq; refine (fun (hx : Keeps kb ke u0 xq) => ?_) ?_; rotate_left; dsimp -zeta only [xq]; rotate_left; clear_value xq)
    | (extract_lets +onlyGivenNames xq; (have hq : xq = xq := by (dsimp -zeta only [xq])); clear hq; clear_value xq)
    | refine Keeps.ite (fun _ => ?_) (fun _ => ?_) | split | exact Keeps.upd (by assumption)

theorem State.pinReact_keeps (h : Keeps kb ke u0 s) : Keeps kb ke u0 (State.pinReact s) := by
  unfold State.pinReact
  with_reducible repeat' first
    | assumption | apply State.fset_keeps | exact Keeps.upd (by assumption)

theorem State.hostEvent_keeps (h : Keeps kb ke u0 s) (n : Nat) : Keeps kb ke u0 (s.hostEvent n).1 := by
  unfold State.hostEvent
  refine Keeps.foldlFst _ _ _ (fun x q hq => ?_) h
  obtain ⟨t, l⟩ := q
  dsimp only
  split
  · exact hq
  · split
    · exact State.emit_keeps (State.modHost_keeps hq _ _) _
    · exact State.fset_keeps hq _ _

theorem State.reactWith_keeps (h : Keeps kb ke u0 s) (n : Nat) (r : BitVec 4) : Keeps kb ke u0 (State.reactWith s n r).1 := by
  unfold State.reactWith
  with_reducible repeat' first
    | assumption | apply State.fset_keeps | apply State.beginStop_keeps | apply State.logPush_keeps
    | apply State.setSticky_keeps | apply State.pinReact_keeps | apply State.hostEvent_keeps
    | refine Keeps.ofFst (by assumption) ?_ | refine Keeps.ofSnd (by assumption) ?_ | dsimp only
    | (extract_lets +onlyGivenNames xq; refine (fun (hx : Keeps kb ke u0 xq) => ?_) ?_; rotate_left; dsimp -zeta only [xq]; rotate_left; clear_value xq)
    | (extract_lets +onlyGivenNames xq; (have hq : xq = xq := by (dsimp -zeta only [xq])); clear hq; clear_value xq)
    | refine Keeps.iteFst (fun _ => ?_) (fun _ => ?_) | refine Keeps.ite (fun _ => ?_) (fun _ => ?_) | split

theorem State.react_keeps (h : Keeps kb ke u0 s) (n : Nat) : Keeps kb ke u0 (State.react s n).1 := by
  unfold State.react
  with_reducible repeat' first
    | assumption | apply State.reactWith_keeps | refine Keeps.ofFst (by assumption) ?_
    | refine Keeps.ofSnd (by assumption) ?_ | dsimp only

theorem State.raiseN_keeps (k n : Nat) {s : State} (h : Keeps kb ke u0 s) : Keeps kb ke u0 (State.raiseN k n s) := by
  induction k generalizing n s with
  | zero => exact h
  | succ k ih =>
    unfold State.raiseN
    split
    · extract_lets s1
      have h1 : Keeps kb ke u0 s1 := State.pushHist_keeps h n
      split
      · exact h1
      · exact Keeps.foldl _ _ (fun x t ht => ih x ht) (State.react_keeps h1 n)
    · exact h

theorem State.raise_keeps (h : Keeps kb ke u0 s) (n : Nat) : Keeps kb ke u0 (State.raise s n) := by
  unfold State.raise
  with_reducible repeat' first
    | assumption | apply State.raiseN_keeps

theorem State.setCond_keeps (h : Keeps kb ke u0 s) (n : Nat) (on : Bool) : Keeps kb ke u0 (State.setCond s n on) := by
  unfold State.setCond
  with_reducible repeat' first
    | assumption | apply State.raise_keeps | refine Keeps.ite (fun _ => ?_) (fun _ => ?_) | split
    | exact Keeps.upd (by assumption)

theorem State.log_keeps (h : Keeps kb ke u0 s) (e : LogEntry) : Keeps kb ke u0 (State.log s e) := by
  unfold State.log
  with_reducible repeat' first
    | assumption | apply State.logPush_keeps | apply State.raise_keeps | refine Keeps.ofFst (by assumption) ?_
    | refine Keeps.ofSnd (by assumption) ?_ | dsimp only
    | (extract_lets +onlyGivenNames xq; refine (fun (hx : Keeps kb ke u0 xq) => ?_) ?_; rotate_left; dsimp -zeta only [xq]; rotate_left; clear_value xq)
    | (extract_lets +onlyGivenNames xq; (have hq : xq = xq := by (dsimp -zeta only [xq])); clear hq; clear_value xq)
    | refine Keeps.ite (fun _ => ?_) (fun _ => ?_) | split | exact Keeps.upd (by assumption)

theorem State.logHigh_keeps (h : Keeps kb ke u0 s) (kind : BitVec 8) (w2 : Nat) (w3 : Nat) : Keeps kb ke u0 (State.logHigh s kind w2 w3) := by
  unfold State.logHigh
  with_reducible repeat' first
    | assumption | apply State.log_keeps

theorem State.refuse_keeps (h : Keeps kb ke u0 s) (req : Requester) (who : Nat) (axis : Nat) (value : Nat) (code : Nat) : Keeps kb ke u0 (State.refuse s req who axis value code) := by
  unfold State.refuse
  with_reducible repeat' first
    | assumption | apply State.fset_keeps | apply State.finc_keeps | apply State.emit_keeps
    | apply State.raise_keeps

theorem State.recordCe_keeps (h : Keeps kb ke u0 s) (m : MemKind) : Keeps kb ke u0 (State.recordCe s m) := by
  unfold State.recordCe
  with_reducible repeat' first
    | assumption | apply State.finc_keeps | apply State.raise_keeps | split | exact Keeps.upd (by assumption)

theorem State.recordUe_keeps (h : Keeps kb ke u0 s) (m : MemKind) (a : Nat) (who : Nat) : Keeps kb ke u0 (State.recordUe s m a who) := by
  unfold State.recordUe
  with_reducible repeat' first
    | assumption | apply State.fset_keeps | apply State.finc_keeps | apply State.fsetBit_keeps
    | apply State.raise_keeps | apply State.logHigh_keeps
    | (extract_lets +onlyGivenNames xq; refine (fun (hx : Keeps kb ke u0 xq) => ?_) ?_; rotate_left; dsimp -zeta only [xq]; rotate_left; clear_value xq)
    | (extract_lets +onlyGivenNames xq; (have hq : xq = xq := by (dsimp -zeta only [xq])); clear hq; clear_value xq)
    | split | exact Keeps.upd (by assumption)

theorem State.checkRead_keeps (h : Keeps kb ke u0 s) (m : MemKind) (who : Nat) (w : Nat) : Keeps kb ke u0 (State.checkRead s m who w).1 := by
  unfold State.checkRead
  with_reducible repeat' first
    | assumption | apply State.recordCe_keeps | apply State.recordUe_keeps | refine Keeps.ofFst (by assumption) ?_
    | refine Keeps.ofSnd (by assumption) ?_ | dsimp only | refine Keeps.iteFst (fun _ => ?_) (fun _ => ?_)
    | refine Keeps.ite (fun _ => ?_) (fun _ => ?_) | split | exact Keeps.upd (by assumption)

theorem State.checkReads_keeps (h : Keeps kb ke u0 s) (m : MemKind) (who : Nat) (ws : List Nat) : Keeps kb ke u0 (State.checkReads s m who ws).1 := by
  unfold State.checkReads
  with_reducible repeat' first
    | assumption | apply State.checkRead_keeps | refine Keeps.ofFst (by assumption) ?_
    | refine Keeps.ofSnd (by assumption) ?_ | dsimp only | apply Keeps.foldlFst | apply Keeps.foldl
    | (intro _; skip)
    | (extract_lets +onlyGivenNames xq; refine (fun (hx : Keeps kb ke u0 xq) => ?_) ?_; rotate_left; dsimp -zeta only [xq]; rotate_left; clear_value xq)
    | (extract_lets +onlyGivenNames xq; (have hq : xq = xq := by (dsimp -zeta only [xq])); clear hq; clear_value xq)
    | split

theorem State.memRead_keeps (h : Keeps kb ke u0 s) (who : Nat) (a : Nat) (n : Nat) : Keeps kb ke u0 (State.memRead s who a n).2 := by
  unfold State.memRead
  with_reducible repeat' first
    | assumption | apply State.checkReads_keeps | refine Keeps.ofFst (by assumption) ?_
    | refine Keeps.ofSnd (by assumption) ?_ | dsimp only
    | (extract_lets +onlyGivenNames xq; refine (fun (hx : Keeps kb ke u0 xq) => ?_) ?_; rotate_left; dsimp -zeta only [xq]; rotate_left; clear_value xq)
    | (extract_lets +onlyGivenNames xq; (have hq : xq = xq := by (dsimp -zeta only [xq])); clear hq; clear_value xq)
    | refine Keeps.iteFst (fun _ => ?_) (fun _ => ?_) | refine Keeps.ite (fun _ => ?_) (fun _ => ?_) | split
    | exact Keeps.upd (by assumption)

theorem State.checkWrite_keeps (h : Keeps kb ke u0 s) (m : MemKind) (who : Nat) (a : Nat) (n : Nat) (w : Nat) : Keeps kb ke u0 (State.checkWrite s m who a n w).1 := by
  unfold State.checkWrite
  with_reducible repeat' first
    | assumption | apply State.recordCe_keeps | apply State.recordUe_keeps | refine Keeps.ofFst (by assumption) ?_
    | refine Keeps.ofSnd (by assumption) ?_ | dsimp only
    | (extract_lets +onlyGivenNames xq; refine (fun (hx : Keeps kb ke u0 xq) => ?_) ?_; rotate_left; dsimp -zeta only [xq]; rotate_left; clear_value xq)
    | (extract_lets +onlyGivenNames xq; (have hq : xq = xq := by (dsimp -zeta only [xq])); clear hq; clear_value xq)
    | refine Keeps.iteFst (fun _ => ?_) (fun _ => ?_) | refine Keeps.ite (fun _ => ?_) (fun _ => ?_) | split
    | apply Keeps.upd

theorem State.pokeWord_keeps (h : Keeps kb ke u0 s) (a : Nat) (bytes : List Byte) (w : Nat) : Keeps kb ke u0 (State.pokeWord s a bytes w) := by
  unfold State.pokeWord
  with_reducible repeat' first
    | assumption | apply State.poke_keeps

theorem State.storeWord_keeps (m : MemKind) (who a : Nat) (bytes : List Byte) (acc : State × Bool) (w : Nat)
    (h : Keeps kb ke u0 acc.1) : Keeps kb ke u0 (State.storeWord m who a bytes acc w).1 := by
  have hc := State.checkWrite_keeps h m who a bytes.length w
  unfold State.storeWord
  split
  · split
    rename_i t ok e
    have ht : Keeps kb ke u0 t := by rw [e] at hc; exact hc
    split
    · exact State.pokeWord_keeps ht a bytes w
    · exact ht
  · exact h

theorem State.memStore_keeps (h : Keeps kb ke u0 s) (who : Nat) (a : Nat) (bytes : List Byte) :
    Keeps kb ke u0 (State.memStore s who a bytes).1 := by
  unfold State.memStore
  split
  · exact h
  · split
    · exact Keeps.foldlFst _ _ _ (fun w acc ha => State.storeWord_keeps _ who a bytes acc w ha) h
    · exact h

theorem State.memWrite_keeps (h : Keeps kb ke u0 s) (who : Nat) (a : Nat) (bytes : List Byte) : Keeps kb ke u0 (State.memWrite s who a bytes).1 := by
  unfold State.memWrite
  with_reducible repeat' first
    | assumption | apply State.memStore_keeps | refine Keeps.ofFst (by assumption) ?_
    | refine Keeps.ofSnd (by assumption) ?_ | dsimp only | refine Keeps.iteFst (fun _ => ?_) (fun _ => ?_)
    | refine Keeps.ite (fun _ => ?_) (fun _ => ?_) | split

theorem State.pendLive_keeps (h : Keeps kb ke u0 s) (a : Nat) (v : Word) : Keeps kb ke u0 (State.pendLive s a v) := by
  unfold State.pendLive
  with_reducible repeat' first
    | assumption | (intro _; skip) | exact Keeps.upd (by assumption)

theorem State.applyLive_keeps (h : Keeps kb ke u0 s) (lo : Nat) (hi : Nat) : Keeps kb ke u0 (State.applyLive s lo hi) := by
  unfold State.applyLive
  with_reducible repeat' first
    | assumption | apply State.setWord_keeps | apply Keeps.foldl | (intro _; skip)
    | (extract_lets +onlyGivenNames xq; refine (fun (hx : Keeps kb ke u0 xq) => ?_) ?_; rotate_left; dsimp -zeta only [xq]; rotate_left; clear_value xq)
    | (extract_lets +onlyGivenNames xq; (have hq : xq = xq := by (dsimp -zeta only [xq])); clear hq; clear_value xq)
    | exact Keeps.upd (by assumption)

theorem State.applyLiveBlock_keeps (h : Keeps kb ke u0 s) (n : Nat) : Keeps kb ke u0 (State.applyLiveBlock s n) := by
  unfold State.applyLiveBlock
  with_reducible repeat' first
    | assumption | apply State.applyLive_keeps

theorem State.setWseq_keeps (h : Keeps kb ke u0 s) (v : Nat) : Keeps kb ke u0 (State.setWseq s v) := by
  unfold State.setWseq
  with_reducible repeat' first
    | assumption | apply State.fset_keeps

theorem State.newVersion_keeps (h : Keeps kb ke u0 s) (a : Nat) : Keeps kb ke u0 (State.newVersion s a) := by
  unfold State.newVersion
  with_reducible repeat' first
    | assumption | apply State.setWseq_keeps
    | (extract_lets +onlyGivenNames xq; refine (fun (hx : Keeps kb ke u0 xq) => ?_) ?_; rotate_left; dsimp -zeta only [xq]; rotate_left; clear_value xq)
    | (extract_lets +onlyGivenNames xq; (have hq : xq = xq := by (dsimp -zeta only [xq])); clear hq; clear_value xq)
    | refine Keeps.ite (fun _ => ?_) (fun _ => ?_) | split | exact Keeps.upd (by assumption)

theorem State.cutTake_keeps (h : Keeps kb ke u0 s) (h : HandleId) (reason : Nat) : Keeps kb ke u0 (State.cutTake s h reason) := by
  unfold State.cutTake
  with_reducible repeat' first
    | assumption | apply State.setWord_keeps | apply State.fset_keeps | apply State.finc_keeps
    | apply State.modTake_keeps | apply State.raise_keeps | (intro _; skip)
    | (extract_lets +onlyGivenNames xq; refine (fun (hx : Keeps kb ke u0 xq) => ?_) ?_; rotate_left; dsimp -zeta only [xq]; rotate_left; clear_value xq)
    | (extract_lets +onlyGivenNames xq; (have hq : xq = xq := by (dsimp -zeta only [xq])); clear hq; clear_value xq)
    | refine Keeps.ite (fun _ => ?_) (fun _ => ?_) | split | exact Keeps.upd (by assumption)

theorem State.abandonTakes_keeps (h : Keeps kb ke u0 s) (owner : Nat) : Keeps kb ke u0 (State.abandonTakes s owner) := by
  unfold State.abandonTakes
  with_reducible repeat' first
    | assumption | apply State.each_keeps | apply State.cutTake_keeps | apply State.each_keeps | (intro _; skip)
    | refine Keeps.ite (fun _ => ?_) (fun _ => ?_) | split

theorem State.discardTakes_keeps (h : Keeps kb ke u0 s) : Keeps kb ke u0 (State.discardTakes s) := by
  unfold State.discardTakes
  with_reducible repeat' first
    | assumption | apply State.each_keeps | apply State.setWord_keeps | apply State.each_keeps | (intro _; skip)
    | (extract_lets +onlyGivenNames xq; refine (fun (hx : Keeps kb ke u0 xq) => ?_) ?_; rotate_left; dsimp -zeta only [xq]; rotate_left; clear_value xq)
    | (extract_lets +onlyGivenNames xq; (have hq : xq = xq := by (dsimp -zeta only [xq])); clear hq; clear_value xq)
    | exact Keeps.upd (by assumption)

theorem State.openTake_keeps (h : Keeps kb ke u0 s) (owner : Nat) : Keeps kb ke u0 (State.openTake s owner).2 := by
  unfold State.openTake
  with_reducible repeat' first
    | assumption | apply State.setWord_keeps | apply State.fset_keeps | apply State.modTake_keeps
    | apply State.applyLive_keeps | refine Keeps.ofFst (by assumption) ?_ | refine Keeps.ofSnd (by assumption) ?_
    | dsimp only | (intro _; skip)
    | (extract_lets +onlyGivenNames xq; refine (fun (hx : Keeps kb ke u0 xq) => ?_) ?_; rotate_left; dsimp -zeta only [xq]; rotate_left; clear_value xq)
    | (extract_lets +onlyGivenNames xq; (have hq : xq = xq := by (dsimp -zeta only [xq])); clear hq; clear_value xq)
    | split | exact Keeps.upd (by assumption)

theorem State.writeTake_keeps (h : Keeps kb ke u0 s) (h : HandleId) (a : Nat) (v : Word) : Keeps kb ke u0 (State.writeTake s h a v).1 := by
  unfold State.writeTake
  with_reducible repeat' first
    | assumption | apply State.fset_keeps | apply State.modTake_keeps | apply State.raise_keeps
    | apply State.cutTake_keeps | refine Keeps.ofFst (by assumption) ?_ | refine Keeps.ofSnd (by assumption) ?_
    | dsimp only | (intro _; skip) | refine Keeps.iteFst (fun _ => ?_) (fun _ => ?_)
    | refine Keeps.ite (fun _ => ?_) (fun _ => ?_) | split | exact Keeps.upd (by assumption)

theorem State.printTake_keeps (h : Keeps kb ke u0 s) (h : HandleId) (bnd : Nat) (instant : BitVec 48) : Keeps kb ke u0 (State.printTake s h bnd instant) := by
  unfold State.printTake
  with_reducible repeat' first
    | assumption | apply State.fset_keeps | apply State.modTake_keeps | apply State.cutTake_keeps
    | apply Keeps.foldl | (intro _; skip)
    | (extract_lets +onlyGivenNames xq; refine (fun (hx : Keeps kb ke u0 xq) => ?_) ?_; rotate_left; dsimp -zeta only [xq]; rotate_left; clear_value xq)
    | (extract_lets +onlyGivenNames xq; (have hq : xq = xq := by (dsimp -zeta only [xq])); clear hq; clear_value xq)
    | refine Keeps.ite (fun _ => ?_) (fun _ => ?_) | split | exact Keeps.upd (by assumption)

theorem State.takesReach_keeps (h : Keeps kb ke u0 s) (bnd : Nat) (t : Nat) : Keeps kb ke u0 (State.takesReach s bnd t) := by
  unfold State.takesReach
  with_reducible repeat' first
    | assumption | apply State.each_keeps | apply State.modTake_keeps | apply State.each_keeps | (intro _; skip)
    | (extract_lets +onlyGivenNames xq; refine (fun (hx : Keeps kb ke u0 xq) => ?_) ?_; rotate_left; dsimp -zeta only [xq]; rotate_left; clear_value xq)
    | (extract_lets +onlyGivenNames xq; (have hq : xq = xq := by (dsimp -zeta only [xq])); clear hq; clear_value xq)
    | refine Keeps.ite (fun _ => ?_) (fun _ => ?_) | split | exact Keeps.upd (by assumption)

theorem State.setCoreState_keeps (h : Keeps kb ke u0 s) (n : CoreId) (v : Nat) : Keeps kb ke u0 (State.setCoreState s n v) := by
  unfold State.setCoreState
  with_reducible repeat' first
    | assumption | apply State.fset_keeps

theorem State.withS_keeps (h : Keeps kb ke u0 s) (n : CoreId) (r : Sreg) (k : Word → Nat → Run) (h_k : ∀ x0 x1, RunKeeps kb ke u0 (k x0 x1)) : RunKeeps kb ke u0 (State.withS s n r k) := by
  unfold State.withS
  with_reducible repeat' first
    | assumption | apply h_k | apply RunKeeps.ok | apply RunKeeps.error | dsimp only
    | refine RunKeeps.ite (fun _ => ?_) (fun _ => ?_) | refine Keeps.ite (fun _ => ?_) (fun _ => ?_) | split

theorem State.writeS_keeps (h : Keeps kb ke u0 s) (n : CoreId) (r : Sreg) (v : Word) : Keeps kb ke u0 (State.writeS s n r v) := by
  unfold State.writeS
  with_reducible repeat' first
    | assumption | apply State.modCore_keeps | (intro _; skip) | refine Keeps.ite (fun _ => ?_) (fun _ => ?_)
    | split | exact Keeps.upd (by assumption)

theorem State.withV_keeps (h : Keeps kb ke u0 s) (n : CoreId) (r : Vreg) (k : VReg → Run) (h_k : ∀ x0, RunKeeps kb ke u0 (k x0)) : RunKeeps kb ke u0 (State.withV s n r k) := by
  unfold State.withV
  with_reducible repeat' first
    | assumption | apply h_k | apply RunKeeps.ok | apply RunKeeps.error | dsimp only
    | refine RunKeeps.ite (fun _ => ?_) (fun _ => ?_) | refine Keeps.ite (fun _ => ?_) (fun _ => ?_) | split

theorem State.writeV_keeps (h : Keeps kb ke u0 s) (n : CoreId) (r : Vreg) (v : VReg) : Keeps kb ke u0 (State.writeV s n r v) := by
  unfold State.writeV
  with_reducible repeat' first
    | assumption | apply State.modCore_keeps | (intro _; skip) | exact Keeps.upd (by assumption)

theorem State.withP_keeps (h : Keeps kb ke u0 s) (n : CoreId) (r : Preg) (k : BitVec 48 → Run) (h_k : ∀ x0, RunKeeps kb ke u0 (k x0)) : RunKeeps kb ke u0 (State.withP s n r k) := by
  unfold State.withP
  with_reducible repeat' first
    | assumption | apply h_k | apply RunKeeps.ok | apply RunKeeps.error | dsimp only
    | refine RunKeeps.ite (fun _ => ?_) (fun _ => ?_) | refine Keeps.ite (fun _ => ?_) (fun _ => ?_) | split

theorem State.writeP_keeps (h : Keeps kb ke u0 s) (n : CoreId) (r : Preg) (v : BitVec 48) : Keeps kb ke u0 (State.writeP s n r v) := by
  unfold State.writeP
  with_reducible repeat' first
    | assumption | apply State.modCore_keeps | (intro _; skip) | refine Keeps.ite (fun _ => ?_) (fun _ => ?_)
    | split | exact Keeps.upd (by assumption)

theorem State.checked_keeps (h : Keeps kb ke u0 s) (n : CoreId) (exp : Bool) (ok : Bool) (k : State → Run) (h_k : ∀ x0, Keeps kb ke u0 x0 → RunKeeps kb ke u0 (k x0)) : RunKeeps kb ke u0 (State.checked s n exp ok k) := by
  unfold State.checked
  with_reducible repeat' first
    | assumption | apply h_k | apply State.modCore_keeps | apply RunKeeps.ok | apply RunKeeps.error | dsimp only
    | (intro _; skip) | refine RunKeeps.ite (fun _ => ?_) (fun _ => ?_)
    | refine Keeps.ite (fun _ => ?_) (fun _ => ?_) | split | exact Keeps.upd (by assumption)

theorem State.spend_keeps (h : Keeps kb ke u0 s) (n : CoreId) (cyc : Nat) : Keeps kb ke u0 (State.spend s n cyc) := by
  unfold State.spend
  with_reducible repeat' first
    | assumption | apply State.modCore_keeps | (intro _; skip) | exact Keeps.upd (by assumption)

theorem State.retire_keeps (h : Keeps kb ke u0 s) (n : CoreId) (len : Nat) (cyc : Nat) : Keeps kb ke u0 (State.retire s n len cyc) := by
  unfold State.retire
  with_reducible repeat' first
    | assumption | apply State.modCore_keeps | (intro _; skip) | exact Keeps.upd (by assumption)

theorem State.setSat_keeps (h : Keeps kb ke u0 s) (n : CoreId) (sat : Bool) : Keeps kb ke u0 (State.setSat s n sat) := by
  unfold State.setSat
  with_reducible repeat' first
    | assumption | apply State.fset_keeps | refine Keeps.ite (fun _ => ?_) (fun _ => ?_) | split

theorem State.dmemCheck_keeps (h : Keeps kb ke u0 s) (n : CoreId) (a : Nat) : RunKeeps kb ke u0 (State.dmemCheck s n a) := by
  unfold State.dmemCheck
  with_reducible repeat' first
    | assumption | apply State.fset_keeps | apply State.finc_keeps | apply State.modCore_keeps | apply RunKeeps.ok
    | apply RunKeeps.error | refine RunKeeps.ofOk (by assumption) ?_ | refine RunKeeps.ofError (by assumption) ?_
    | refine RunKeeps.ofErrorPair (by assumption) ?_ | dsimp only | (intro _; skip) | split
    | exact Keeps.upd (by assumption)

theorem State.dmemChecks_keeps (h : Keeps kb ke u0 s) (n : CoreId) (a k : Nat) :
    RunKeeps kb ke u0 (s.dmemChecks n a k) := by
  induction k with
  | zero => exact h
  | succ k ih =>
    unfold State.dmemChecks
    split
    · rename_i t hg
      exact State.dmemCheck_keeps (RunKeeps.ofOk hg ih) n _
    · exact ih

theorem State.withDmem_keeps (h : Keeps kb ke u0 s) (n : CoreId) (a : Nat) (words : Nat) (k : List Nat → State → Run) (h_k : ∀ x0 x1, Keeps kb ke u0 x1 → RunKeeps kb ke u0 (k x0 x1)) : RunKeeps kb ke u0 (State.withDmem s n a words k) := by
  unfold State.withDmem
  with_reducible repeat' first
    | assumption | apply h_k | apply State.dmemChecks_keeps | apply RunKeeps.ok | apply RunKeeps.error
    | refine RunKeeps.ofOk (by assumption) ?_ | refine RunKeeps.ofError (by assumption) ?_
    | refine RunKeeps.ofErrorPair (by assumption) ?_ | dsimp only | (intro _; skip) | split
    | exact Keeps.upd (by assumption)

theorem State.dmemStore_keeps (h : Keeps kb ke u0 s) (n : CoreId) (a : Nat) (bytes : List Byte) :
    RunKeeps kb ke u0 (s.dmemStore n a bytes) := by
  unfold State.dmemStore
  extract_lets go
  have hgo : ∀ t, Keeps kb ke u0 t → RunKeeps kb ke u0 (go t) := fun t ht => State.modCore_keeps ht n _
  have hc := State.dmemCheck_keeps h n a
  split
  · split
    · rename_i t hg
      exact hgo t (RunKeeps.ofOk hg hc)
    · rename_i x hg
      exact RunKeeps.ofError hg hc
  · exact hgo s h

theorem State.performStore_keeps (h : Keeps kb ke u0 s) (n : CoreId) (e : BufStore) : Keeps kb ke u0 (State.performStore s n e).1 := by
  unfold State.performStore
  with_reducible repeat' first
    | assumption | apply State.modCore_keeps | apply State.memWrite_keeps | apply State.dmemStore_keeps
    | refine RunKeeps.ofOk (by assumption) ?_ | refine RunKeeps.ofError (by assumption) ?_
    | refine RunKeeps.ofErrorPair (by assumption) ?_ | dsimp only | refine Keeps.ofFst (by assumption) ?_
    | refine Keeps.ofSnd (by assumption) ?_ | dsimp only | apply Keeps.foldlFst | apply Keeps.foldl
    | (intro _; skip)
    | (extract_lets +onlyGivenNames xq; refine (fun (hx : Keeps kb ke u0 xq) => ?_) ?_; rotate_left; dsimp -zeta only [xq]; rotate_left; clear_value xq)
    | (extract_lets +onlyGivenNames xq; (have hq : xq = xq := by (dsimp -zeta only [xq])); clear hq; clear_value xq)
    | refine Keeps.iteFst (fun _ => ?_) (fun _ => ?_) | refine Keeps.ite (fun _ => ?_) (fun _ => ?_) | split
    | exact Keeps.upd (by assumption)

theorem State.drainUntil_keeps (h : Keeps kb ke u0 s) (n : CoreId) (l : List BufStore) : Keeps kb ke u0 (s.drainUntil n l).1 := by
  induction l generalizing s with
  | nil => exact h
  | cons x t ih =>
    have hw := State.performStore_keeps h n x
    unfold State.drainUntil
    generalize s.performStore n x = y at hw
    obtain ⟨r, ok⟩ := y
    cases ok with
    | true => exact ih hw
    | false => exact hw

theorem State.afterDrain_keeps (h : Keeps kb ke u0 s) (n : CoreId) (k : State → Run) (h_k : ∀ x0, Keeps kb ke u0 x0 → RunKeeps kb ke u0 (k x0)) : RunKeeps kb ke u0 (State.afterDrain s n k) := by
  unfold State.afterDrain
  with_reducible repeat' first
    | assumption | apply h_k | apply State.modCore_keeps | apply State.drainUntil_keeps | apply RunKeeps.ok
    | apply RunKeeps.error | dsimp only | refine Keeps.ofFst (by assumption) ?_
    | refine Keeps.ofSnd (by assumption) ?_ | dsimp only | (intro _; skip) | split | exact Keeps.upd (by assumption)

theorem State.fetchCheck_keeps (h : Keeps kb ke u0 s) (n : CoreId) (a : Nat) : RunKeeps kb ke u0 (State.fetchCheck s n a) := by
  unfold State.fetchCheck
  with_reducible repeat' first
    | assumption | apply State.fset_keeps | apply State.finc_keeps | apply State.modCore_keeps | apply RunKeeps.ok
    | apply RunKeeps.error | refine RunKeeps.ofOk (by assumption) ?_ | refine RunKeeps.ofError (by assumption) ?_
    | refine RunKeeps.ofErrorPair (by assumption) ?_ | dsimp only | (intro _; skip) | split
    | exact Keeps.upd (by assumption)

theorem State.haltCore_keeps (h : Keeps kb ke u0 s) (n : CoreId) : Keeps kb ke u0 (State.haltCore s n) := by
  unfold State.haltCore
  with_reducible repeat' first
    | assumption | apply State.modCore_keeps | apply State.abandonTakes_keeps | apply State.setCoreState_keeps
    | (intro _; skip) | exact Keeps.upd (by assumption)

theorem State.trapRegs_keeps (h : Keeps kb ke u0 s) (n : CoreId) (cause : Nat) (addr : Option Nat) : Keeps kb ke u0 (State.trapRegs s n cause addr) := by
  unfold State.trapRegs
  with_reducible repeat' first
    | assumption | apply State.fset_keeps
    | (extract_lets +onlyGivenNames xq; refine (fun (hx : Keeps kb ke u0 xq) => ?_) ?_; rotate_left; dsimp -zeta only [xq]; rotate_left; clear_value xq)
    | (extract_lets +onlyGivenNames xq; (have hq : xq = xq := by (dsimp -zeta only [xq])); clear hq; clear_value xq)
    | split | exact Keeps.upd (by assumption)

theorem State.takeTrap_keeps (h : Keeps kb ke u0 s) (n : CoreId) (next : Nat) (cause : Nat) (addr : Option Nat) : Keeps kb ke u0 (State.takeTrap s n next cause addr) := by
  unfold State.takeTrap
  with_reducible repeat' first
    | assumption | apply State.fset_keeps | apply State.modCore_keeps | apply State.raise_keeps
    | apply State.setCoreState_keeps | apply State.haltCore_keeps | apply State.trapRegs_keeps | (intro _; skip)
    | (extract_lets +onlyGivenNames xq; refine (fun (hx : Keeps kb ke u0 xq) => ?_) ?_; rotate_left; dsimp -zeta only [xq]; rotate_left; clear_value xq)
    | (extract_lets +onlyGivenNames xq; (have hq : xq = xq := by (dsimp -zeta only [xq])); clear hq; clear_value xq)
    | refine Keeps.ite (fun _ => ?_) (fun _ => ?_) | split | exact Keeps.upd (by assumption)

theorem State.parkCore_keeps (h : Keeps kb ke u0 s) (n : CoreId) (bad : Bool) : Keeps kb ke u0 (State.parkCore s n bad) := by
  unfold State.parkCore
  with_reducible repeat' first
    | assumption | apply State.modCore_keeps | apply State.setCoreState_keeps | (intro _; skip)
    | exact Keeps.upd (by assumption)

theorem State.settle_keeps (h : Keeps kb ke u0 s) (n : CoreId) (len : Nat) (cyc : Nat) (stop : CoreStop) : Keeps kb ke u0 (State.settle s n len cyc stop) := by
  unfold State.settle
  with_reducible repeat' first
    | assumption | apply State.fset_keeps | apply State.raise_keeps | apply State.spend_keeps
    | apply State.takeTrap_keeps | apply State.parkCore_keeps | refine Keeps.ite (fun _ => ?_) (fun _ => ?_) | split
    | exact Keeps.upd (by assumption)

theorem Run.finish_keeps {r : Run} (h : RunKeeps kb ke u0 r) (n : CoreId) (len cyc : Nat) :
    Keeps kb ke u0 (r.finish n len cyc) := by
  unfold Run.finish
  split
  · exact h
  · exact State.settle_keeps h n len cyc _

theorem State.coreRun_keeps (s : State) (n : CoreId) (len cyc : Nat) (body : State → Run)
    (h_body : ∀ x0, Keeps kb ke s x0 → RunKeeps kb ke s (body x0)) : ResKeeps kb ke s (State.coreRun s n len cyc body) := by
  have h := State.fresh_keeps (Keeps.refl kb ke s)
  unfold State.coreRun
  extract_lets t
  have hc := State.fetchCheck_keeps h n ((t.cores[n]).pc.toNat)
  refine ResKeeps.ite (fun _ => ?_) (fun _ => ResKeeps.next h)
  split
  · rename_i x hx
    exact ResKeeps.next (Run.finish_keeps (h_body _ (RunKeeps.ofOk hx hc)) _ _ _)
  · rename_i x hx
    exact ResKeeps.next (Run.finish_keeps (RunKeeps.error (RunKeeps.ofError hx hc)) _ _ _)

theorem State.trapWith_keeps (h : Keeps kb ke u0 s) (cause : Nat) (addr : Option Nat) : RunKeeps kb ke u0 (State.trapWith s cause addr) := by
  unfold State.trapWith
  with_reducible repeat' first
    | assumption | apply RunKeeps.ok | apply RunKeeps.error | dsimp only

theorem State.jumpTo_keeps (h : Keeps kb ke u0 s) (n : CoreId) (target : Int) (cyc : Nat) (before : State → State) (h_before : ∀ x0, Keeps kb ke u0 x0 → Keeps kb ke u0 (before x0)) : RunKeeps kb ke u0 (State.jumpTo s n target cyc before) := by
  unfold State.jumpTo
  with_reducible repeat' first
    | assumption | apply h_before | apply State.modCore_keeps | apply RunKeeps.ok | apply RunKeeps.error
    | refine RunKeeps.ofOk (by assumption) ?_ | refine RunKeeps.ofError (by assumption) ?_
    | refine RunKeeps.ofErrorPair (by assumption) ?_ | dsimp only | (intro _; skip)
    | refine RunKeeps.ite (fun _ => ?_) (fun _ => ?_) | refine Keeps.ite (fun _ => ?_) (fun _ => ?_) | split
    | exact Keeps.upd (by assumption)

theorem State.stallOn_keeps (h : Keeps kb ke u0 s) (n : CoreId) (w : Stall) : Keeps kb ke u0 (State.stallOn s n w) := by
  unfold State.stallOn
  with_reducible repeat' first
    | assumption | apply State.modCore_keeps | (intro _; skip) | exact Keeps.upd (by assumption)

theorem State.startRun_keeps (h : Keeps kb ke u0 s) (n : CoreId) (period : Nat) (tick : Nat) (replay : Bool) (lost : Bool) (pwr : Nat) (spec : Bool) : Keeps kb ke u0 (State.startRun s n period tick replay lost pwr spec) := by
  unfold State.startRun
  with_reducible repeat' first
    | assumption | apply State.modCore_keeps | apply State.setCoreState_keeps | apply State.writeS_keeps
    | (intro _; skip)
    | (extract_lets +onlyGivenNames xq; refine (fun (hx : Keeps kb ke u0 xq) => ?_) ?_; rotate_left; dsimp -zeta only [xq]; rotate_left; clear_value xq)
    | (extract_lets +onlyGivenNames xq; (have hq : xq = xq := by (dsimp -zeta only [xq])); clear hq; clear_value xq)
    | refine Keeps.ite (fun _ => ?_) (fun _ => ?_) | split | exact Keeps.upd (by assumption)

theorem State.showTick_keeps (h : Keeps kb ke u0 s) : Keeps kb ke u0 (State.showTick s) := by
  unfold State.showTick
  with_reducible repeat' first
    | assumption | apply State.fset_keeps | refine Keeps.ite (fun _ => ?_) (fun _ => ?_) | split

theorem State.skipHistory_keeps (h : Keeps kb ke u0 s) (n : CoreId) (lost : Bool) : Keeps kb ke u0 (State.skipHistory s n lost) := by
  unfold State.skipHistory
  with_reducible repeat' first
    | assumption | apply State.modCore_keeps | (intro _; skip) | refine Keeps.ite (fun _ => ?_) (fun _ => ?_)
    | split | exact Keeps.upd (by assumption)

theorem State.startPending_keeps (h : Keeps kb ke u0 s) (n : CoreId) (spec : Bool) : Keeps kb ke u0 (State.startPending s n spec) := by
  unfold State.startPending
  with_reducible repeat' first
    | assumption | apply State.modCore_keeps | apply State.startRun_keeps | apply State.skipHistory_keeps
    | (intro _; skip)
    | (extract_lets +onlyGivenNames xq; refine (fun (hx : Keeps kb ke u0 xq) => ?_) ?_; rotate_left; dsimp -zeta only [xq]; rotate_left; clear_value xq)
    | (extract_lets +onlyGivenNames xq; (have hq : xq = xq := by (dsimp -zeta only [xq])); clear hq; clear_value xq)
    | exact Keeps.upd (by assumption)

theorem State.startSpec_keeps (h : Keeps kb ke u0 s) (n : CoreId) : Keeps kb ke u0 (State.startSpec s n) := by
  unfold State.startSpec
  with_reducible repeat' first
    | assumption | apply State.modCore_keeps | apply State.startRun_keeps | apply State.startPending_keeps
    | (intro _; skip)
    | (extract_lets +onlyGivenNames xq; refine (fun (hx : Keeps kb ke u0 xq) => ?_) ?_; rotate_left; dsimp -zeta only [xq]; rotate_left; clear_value xq)
    | (extract_lets +onlyGivenNames xq; (have hq : xq = xq := by (dsimp -zeta only [xq])); clear hq; clear_value xq)
    | refine Keeps.ite (fun _ => ?_) (fun _ => ?_) | split | exact Keeps.upd (by assumption)

theorem State.endRun_keeps (h : Keeps kb ke u0 s) (n : CoreId) : Keeps kb ke u0 (State.endRun s n) := by
  unfold State.endRun
  with_reducible repeat' first
    | assumption | apply State.modCore_keeps | apply State.setCoreState_keeps | apply State.startPending_keeps
    | apply State.startSpec_keeps | (intro _; skip) | refine Keeps.ite (fun _ => ?_) (fun _ => ?_) | split
    | exact Keeps.upd (by assumption)

theorem State.noteMargin_keeps (h : Keeps kb ke u0 s) (n : CoreId) : Keeps kb ke u0 (State.noteMargin s n) := by
  unfold State.noteMargin
  with_reducible repeat' first
    | assumption | apply State.fsetI_keeps
    | (extract_lets +onlyGivenNames xq; refine (fun (hx : Keeps kb ke u0 xq) => ?_) ?_; rotate_left; dsimp -zeta only [xq]; rotate_left; clear_value xq)
    | (extract_lets +onlyGivenNames xq; (have hq : xq = xq := by (dsimp -zeta only [xq])); clear hq; clear_value xq)

theorem State.pushEmit_keeps (h : Keeps kb ke u0 s) (n : CoreId) (m : EmitMsg) : Keeps kb ke u0 (State.pushEmit s n m) := by
  unfold State.pushEmit
  with_reducible repeat' first
    | assumption | apply State.modCore_keeps | apply State.noteMargin_keeps | (intro _; skip)
    | exact Keeps.upd (by assumption)

theorem State.readBurst_keeps (h : Keeps kb ke u0 s) (who : Nat) (l : List (Nat × Nat)) :
    Keeps kb ke u0 (s.readBurst who l).1 := by
  induction l generalizing s with
  | nil => exact h
  | cons p t ih =>
    have hm := State.memRead_keeps h who p.1 p.2
    unfold State.readBurst
    split
    · rename_i e
      rw [e] at hm
      exact ih hm
    · rename_i e
      rw [e] at hm
      exact hm

theorem State.predIntake_keeps (h : Keeps kb ke u0 s) (n : CoreId) (period : Nat) (mine : SlotDesc → Bool) : Keeps kb ke u0 (State.predIntake s n period mine) := by
  unfold State.predIntake
  with_reducible repeat' first
    | assumption | apply State.modCore_keeps | apply Keeps.foldl | (intro _; skip)
    | (extract_lets +onlyGivenNames xq; refine (fun (hx : Keeps kb ke u0 xq) => ?_) ?_; rotate_left; dsimp -zeta only [xq]; rotate_left; clear_value xq)
    | (extract_lets +onlyGivenNames xq; (have hq : xq = xq := by (dsimp -zeta only [xq])); clear hq; clear_value xq)
    | refine Keeps.ite (fun _ => ?_) (fun _ => ?_) | split | exact Keeps.upd (by assumption)

theorem State.stampIntake_keeps (h : Keeps kb ke u0 s) (period : Nat) (mine : SlotDesc → Bool) : Keeps kb ke u0 (State.stampIntake s period mine) := by
  unfold State.stampIntake
  with_reducible repeat' first
    | assumption | apply State.each_keeps | apply State.predIntake_keeps | apply State.each_keeps | (intro _; skip)

theorem State.latency_keeps (h : Keeps kb ke u0 s) (worst : Nat) : Keeps kb ke u0 (State.latency s worst).2 := by
  unfold State.latency
  with_reducible repeat' first
    | assumption | apply State.freshValue_keeps | refine Keeps.ofFst (by assumption) ?_
    | refine Keeps.ofSnd (by assumption) ?_ | dsimp only
    | (extract_lets +onlyGivenNames xq; refine (fun (hx : Keeps kb ke u0 xq) => ?_) ?_; rotate_left; dsimp -zeta only [xq]; rotate_left; clear_value xq)
    | (extract_lets +onlyGivenNames xq; (have hq : xq = xq := by (dsimp -zeta only [xq])); clear hq; clear_value xq)
    | split

theorem State.ldInWrite_keeps (h : Keeps kb ke u0 s) (n : CoreId) (reg : Sreg) (pv : Preg) (slot : Nat) (reads : List LaneRead) (cyc : Nat) : Keeps kb ke u0 (State.ldInWrite s n reg pv slot reads cyc) := by
  unfold State.ldInWrite
  with_reducible repeat' first
    | assumption | apply State.fset_keeps | apply State.raise_keeps | apply State.writeS_keeps
    | apply State.writeV_keeps | apply State.writeP_keeps | apply State.retire_keeps | apply State.setSat_keeps
    | apply Keeps.foldl | (intro _; skip)
    | (extract_lets +onlyGivenNames xq; refine (fun (hx : Keeps kb ke u0 xq) => ?_) ?_; rotate_left; dsimp -zeta only [xq]; rotate_left; clear_value xq)
    | (extract_lets +onlyGivenNames xq; (have hq : xq = xq := by (dsimp -zeta only [xq])); clear hq; clear_value xq)
    | refine Keeps.ite (fun _ => ?_) (fun _ => ?_) | split | exact Keeps.upd (by assumption)

theorem State.ldInFinish_keeps (h : Keeps kb ke u0 s) (n : CoreId) (reg : Sreg) (pv : Preg) (slot : Nat) (wait : Nat) : RunKeeps kb ke u0 (State.ldInFinish s n reg pv slot wait) := by
  unfold State.ldInFinish
  extract_lets c d present reads
  have hl := State.latency_keeps h 48
  split
  rename_i lat t e
  rw [e] at hl
  have hb := State.readBurst_keeps hl (0x10 + n.val) (t.slotBurst d c.period)
  split
  · rename_i v a g
    rw [g] at hb
    exact RunKeeps.error (State.spend_keeps hb n lat)
  · rename_i v g
    rw [g] at hb
    exact RunKeeps.ok (State.ldInWrite_keeps hb n reg pv slot reads _)

theorem State.planAccept_keeps (h : Keeps kb ke u0 s) (m : EmitMsg) : Keeps kb ke u0 (State.planAccept s m) := by
  unfold State.planAccept
  with_reducible repeat' first
    | assumption | apply State.modDest_keeps | apply State.raise_keeps | (intro _; skip)
    | (extract_lets +onlyGivenNames xq; refine (fun (hx : Keeps kb ke u0 xq) => ?_) ?_; rotate_left; dsimp -zeta only [xq]; rotate_left; clear_value xq)
    | (extract_lets +onlyGivenNames xq; (have hq : xq = xq := by (dsimp -zeta only [xq])); clear hq; clear_value xq)
    | refine Keeps.ite (fun _ => ?_) (fun _ => ?_) | split | exact Keeps.upd (by assumption)

theorem State.planIntake_keeps (h : Keeps kb ke u0 s) (m : EmitMsg) : Keeps kb ke u0 (State.planIntake s m) := by
  unfold State.planIntake
  with_reducible repeat' first
    | assumption | apply State.fset_keeps | apply State.finc_keeps | apply State.raise_keeps
    | apply State.planAccept_keeps
    | (extract_lets +onlyGivenNames xq; refine (fun (hx : Keeps kb ke u0 xq) => ?_) ?_; rotate_left; dsimp -zeta only [xq]; rotate_left; clear_value xq)
    | (extract_lets +onlyGivenNames xq; (have hq : xq = xq := by (dsimp -zeta only [xq])); clear hq; clear_value xq)
    | refine Keeps.ite (fun _ => ?_) (fun _ => ?_) | split

theorem State.setFail_keeps (h : Keeps kb ke u0 s) (x : RingId) (k : CellId) : Keeps kb ke u0 (State.setFail s x k) := by
  unfold State.setFail
  with_reducible repeat' first
    | assumption | apply State.setMask40_keeps | apply State.raise_keeps
    | refine Keeps.ite (fun _ => ?_) (fun _ => ?_) | split

theorem State.cutFails_keeps (h : Keeps kb ke u0 s) (x : RingId) : Keeps kb ke u0 (State.cutFails s x) := by
  unfold State.cutFails
  with_reducible repeat' first
    | assumption | apply State.each_keeps | apply State.setFail_keeps | apply State.each_keeps | (intro _; skip)
    | refine Keeps.ite (fun _ => ?_) (fun _ => ?_) | split

theorem State.planFails_keeps (h : Keeps kb ke u0 s) : Keeps kb ke u0 (State.planFails s) := by
  unfold State.planFails
  with_reducible repeat' first
    | assumption | apply State.each_keeps | apply State.cutFails_keeps | apply State.each_keeps | (intro _; skip)
    | refine Keeps.ite (fun _ => ?_) (fun _ => ?_) | split

theorem State.horizonShort_keeps (h : Keeps kb ke u0 s) : Keeps kb ke u0 (State.horizonShort s) := by
  unfold State.horizonShort
  with_reducible repeat' first
    | assumption | apply State.fset_keeps | apply State.raise_keeps | refine Keeps.ite (fun _ => ?_) (fun _ => ?_)
    | split

theorem State.atCut_keeps (h : Keeps kb ke u0 s) (v : CutView) : Keeps kb ke u0 (State.atCut s v) := by
  unfold State.atCut
  with_reducible repeat' first
    | assumption | apply State.setWord_keeps | apply Keeps.foldl | (intro _; skip)

theorem State.planCut_keeps (h : Keeps kb ke u0 s) (d : DestId) : Keeps kb ke u0 (State.planCut s d) := by
  unfold State.planCut
  with_reducible repeat' first
    | assumption | apply State.advanceTo_keeps | apply State.fset_keeps | apply State.modDest_keeps
    | apply State.applyLiveBlock_keeps | apply State.cutFails_keeps | apply State.horizonShort_keeps
    | (intro _; skip)
    | (extract_lets +onlyGivenNames xq; refine (fun (hx : Keeps kb ke u0 xq) => ?_) ?_; rotate_left; dsimp -zeta only [xq]; rotate_left; clear_value xq)
    | (extract_lets +onlyGivenNames xq; (have hq : xq = xq := by (dsimp -zeta only [xq])); clear hq; clear_value xq)
    | refine Keeps.ite (fun _ => ?_) (fun _ => ?_) | split | exact Keeps.upd (by assumption)

theorem State.deadlineMiss_keeps (h : Keeps kb ke u0 s) (d : DestId) : Keeps kb ke u0 (State.deadlineMiss s d) := by
  unfold State.deadlineMiss
  with_reducible repeat' first
    | assumption | apply State.fset_keeps | apply State.finc_keeps | apply State.modDest_keeps
    | apply State.beginStop_keeps | apply State.raise_keeps | (intro _; skip)
    | (extract_lets +onlyGivenNames xq; refine (fun (hx : Keeps kb ke u0 xq) => ?_) ?_; rotate_left; dsimp -zeta only [xq]; rotate_left; clear_value xq)
    | (extract_lets +onlyGivenNames xq; (have hq : xq = xq := by (dsimp -zeta only [xq])); clear hq; clear_value xq)
    | refine Keeps.ite (fun _ => ?_) (fun _ => ?_) | split | exact Keeps.upd (by assumption)

theorem State.planStopped_keeps (h : Keeps kb ke u0 s) : Keeps kb ke u0 (State.planStopped s) := by
  unfold State.planStopped
  with_reducible repeat' first
    | assumption | exact Keeps.upd (by assumption)

theorem State.clampBits_keeps (h : Keeps kb ke u0 s) (b : Bool × Bool × Bool) : Keeps kb ke u0 (State.clampBits s b) := by
  unfold State.clampBits
  with_reducible repeat' first
    | assumption | apply State.fset_keeps
    | (extract_lets +onlyGivenNames xq; refine (fun (hx : Keeps kb ke u0 xq) => ?_) ?_; rotate_left; dsimp -zeta only [xq]; rotate_left; clear_value xq)
    | (extract_lets +onlyGivenNames xq; (have hq : xq = xq := by (dsimp -zeta only [xq])); clear hq; clear_value xq)
    | refine Keeps.ite (fun _ => ?_) (fun _ => ?_) | split

theorem State.planCommit_keeps (h : Keeps kb ke u0 s) (d : DestId) : Keeps kb ke u0 (s.planCommit d) := by
  unfold State.planCommit
  extract_lets +onlyGivenNames s1
  have h1 : Keeps kb ke u0 s1 := Keeps.ite (fun _ => State.planCut_keeps h d) (fun _ => h)
  clear_value s1
  split
  · exact h1
  · extract_lets +onlyGivenNames s2 s3
    have h3 : Keeps kb ke u0 s3 := State.modDest_keeps (State.advanceTo_keeps h1 _) d _
    clear_value s3
    refine Keeps.ite (fun _ => State.modDest_keeps h3 d _) (fun _ => ?_)
    extract_lets +onlyGivenNames qs
    refine Keeps.ite (fun _ => h3) (fun _ => ?_)
    extract_lets +onlyGivenNames br s4
    have h4 : Keeps kb ke u0 s4 := Keeps.ite (fun _ => h3) (fun _ => Keeps.upd h3)
    clear_value s4
    extract_lets q sets complete eff count parts q1 real ext b s5 s6 q2 s7 w s8
    have h5 : Keeps kb ke u0 s5 := Keeps.ite (fun _ => State.raise_keeps (State.fset_keeps h4 _ _) _) (fun _ => h4)
    have h6 : Keeps kb ke u0 s6 := State.clampBits_keeps h5 _
    have h7 : Keeps kb ke u0 s7 := State.modDest_keeps h6 d _
    clear_value s7
    have h8 : Keeps kb ke u0 s8 := by
      unfold s8
      split
      · exact State.setMask40_keeps h7 _ _ _
      · exact h7
    exact Keeps.ite (fun _ => h8) (fun _ => State.deadlineMiss_keeps h8 d)

theorem State.sendRecord_keeps (h : Keeps kb ke u0 s) (d : DestId) (r : BitVec 128) : Keeps kb ke u0 (State.sendRecord s d r) := by
  unfold State.sendRecord
  with_reducible repeat' first
    | assumption | apply State.emit_keeps | apply State.sendL0_keeps | refine Keeps.ite (fun _ => ?_) (fun _ => ?_)
    | split

theorem State.sendSpare_keeps (h : Keeps kb ke u0 s) (d : DestId) (es : List (BitVec 128)) : Keeps kb ke u0 (State.sendSpare s d es) := by
  unfold State.sendSpare
  with_reducible repeat' first
    | assumption | apply State.fset_keeps | apply State.beginStop_keeps | apply State.raise_keeps
    | apply State.sendRecord_keeps | apply Keeps.foldl | (intro _; skip)
    | refine Keeps.ite (fun _ => ?_) (fun _ => ?_) | split

theorem State.dispatchAll_keeps (h : Keeps kb ke u0 s) (d : DestId) (held : Bool) (spare l : List (BitVec 128)) :
    Keeps kb ke u0 (s.dispatchAll d held spare l) := by
  induction l generalizing s with
  | nil => exact h
  | cons r rest ih =>
    unfold State.dispatchAll
    refine Keeps.ite (fun _ => State.sendSpare_keeps h d _) (fun _ => Keeps.ite (fun _ => ih (State.sendRecord_keeps h d r)) (fun _ => ?_))
    exact State.sendSpare_keeps (State.modDest_keeps (State.clampBits_keeps (State.deadlineMiss_keeps
      (State.raise_keeps (State.fset_keeps h _ _) _) d) _) d _) d _

theorem State.planBypass_keeps (h : Keeps kb ke u0 s) (x : RingId) (k : CellId) : Keeps kb ke u0 (State.planBypass s x k) := by
  unfold State.planBypass
  with_reducible repeat' first
    | assumption | apply State.fset_keeps | apply State.finc_keeps | apply State.sendL0_keeps
    | apply State.setFail_keeps | apply Keeps.foldl | (intro _; skip)
    | (extract_lets +onlyGivenNames xq; refine (fun (hx : Keeps kb ke u0 xq) => ?_) ?_; rotate_left; dsimp -zeta only [xq]; rotate_left; clear_value xq)
    | (extract_lets +onlyGivenNames xq; (have hq : xq = xq := by (dsimp -zeta only [xq])); clear hq; clear_value xq)
    | refine Keeps.ite (fun _ => ?_) (fun _ => ?_) | split

theorem State.failClear_keeps (h : Keeps kb ke u0 s) (x : RingId) (m : BitVec 40) : Keeps kb ke u0 (State.failClear s x m) := by
  unfold State.failClear
  with_reducible repeat' first
    | assumption | apply State.setMask40_keeps | apply Keeps.foldl | (intro _; skip)
    | (extract_lets +onlyGivenNames xq; refine (fun (hx : Keeps kb ke u0 xq) => ?_) ?_; rotate_left; dsimp -zeta only [xq]; rotate_left; clear_value xq)
    | (extract_lets +onlyGivenNames xq; (have hq : xq = xq := by (dsimp -zeta only [xq])); clear hq; clear_value xq)
    | refine Keeps.ite (fun _ => ?_) (fun _ => ?_) | split

theorem execEmitReceived_keeps (n : CoreId) (s : State) : ResKeeps kb ke s (execEmitReceived n s) := by
  have h := State.fresh_keeps (Keeps.refl kb ke s)
  unfold execEmitReceived
  with_reducible repeat' first
    | assumption | apply State.modCore_keeps | apply State.fresh_keeps | apply State.planIntake_keeps
    | apply RunKeeps.ok | apply RunKeeps.error | apply ResKeeps.next | (intro _; skip)
    | (extract_lets +onlyGivenNames xq; refine (fun (hx : Keeps kb ke s xq) => ?_) ?_; rotate_left; dsimp -zeta only [xq]; rotate_left; clear_value xq)
    | (extract_lets +onlyGivenNames xq; (have hq : xq = xq := by (dsimp -zeta only [xq])); clear hq; clear_value xq)
    | refine ResKeeps.ite (fun _ => ?_) (fun _ => ?_) | refine Keeps.ite (fun _ => ?_) (fun _ => ?_) | split
    | exact Keeps.upd (by assumption)

theorem execBuildCut_keeps (d : DestId) (s : State) : ResKeeps kb ke s (execBuildCut d s) := by
  have h := State.fresh_keeps (Keeps.refl kb ke s)
  unfold execBuildCut
  with_reducible repeat' first
    | assumption | apply State.fresh_keeps | apply State.planCut_keeps | apply RunKeeps.ok | apply RunKeeps.error
    | apply ResKeeps.next | refine ResKeeps.ite (fun _ => ?_) (fun _ => ?_)
    | refine Keeps.ite (fun _ => ?_) (fun _ => ?_) | split

theorem execCommit_keeps (d : DestId) (s : State) : ResKeeps kb ke s (execCommit d s) := by
  have h := State.fresh_keeps (Keeps.refl kb ke s)
  unfold execCommit
  with_reducible repeat' first
    | assumption | apply State.fresh_keeps | apply State.planCommit_keeps | apply RunKeeps.ok | apply RunKeeps.error
    | apply ResKeeps.next | refine ResKeeps.ite (fun _ => ?_) (fun _ => ?_)
    | refine Keeps.ite (fun _ => ?_) (fun _ => ?_) | split

theorem execDispatch_keeps (d : DestId) (s : State) : ResKeeps kb ke s (execDispatch d s) := by
  have h := State.fresh_keeps (Keeps.refl kb ke s)
  unfold execDispatch
  with_reducible repeat' first
    | assumption | apply State.modDest_keeps | apply State.fresh_keeps | apply State.dispatchAll_keeps
    | apply RunKeeps.ok | apply RunKeeps.error | apply ResKeeps.next | (intro _; skip)
    | (extract_lets +onlyGivenNames xq; refine (fun (hx : Keeps kb ke s xq) => ?_) ?_; rotate_left; dsimp -zeta only [xq]; rotate_left; clear_value xq)
    | (extract_lets +onlyGivenNames xq; (have hq : xq = xq := by (dsimp -zeta only [xq])); clear hq; clear_value xq)
    | refine ResKeeps.ite (fun _ => ?_) (fun _ => ?_) | refine Keeps.ite (fun _ => ?_) (fun _ => ?_) | split
    | exact Keeps.upd (by assumption)

end Sys2Proof.Machine
end

