-- ==== Sys2Proof/Laws/KeepsCore.lean ====
section
/-!
SUPPORT. What every operation keeps (`Keeps`): the script instructions.
-/

namespace Sys2Proof.Machine

set_option linter.unusedVariables false

variable {kb ke : Bool} {u0 s : State}

theorem State.intA_keeps (h : Keeps kb ke u0 s) (n : CoreId) (rd : Sreg) (cyc : Nat) (exact : Int) (pred : Nat) (v : Word) : RunKeeps kb ke u0 (State.intA s n rd cyc exact pred v) := by
  unfold State.intA
  with_reducible repeat' first
    | assumption | apply State.writeS_keeps | apply State.checked_keeps | apply State.retire_keeps
    | apply RunKeeps.ok | apply RunKeeps.error | refine RunKeeps.ofOk (by assumption) ?_
    | refine RunKeeps.ofError (by assumption) ?_ | refine RunKeeps.ofErrorPair (by assumption) ?_ | (intro _; skip)

theorem State.intD_keeps (h : Keeps kb ke u0 s) (n : CoreId) (rd : Sreg) (cyc : Nat) (v : Word) : RunKeeps kb ke u0 (State.intD s n rd cyc v) := by
  unfold State.intD
  with_reducible repeat' first
    | assumption | apply State.writeS_keeps | apply State.checked_keeps | apply State.retire_keeps
    | apply RunKeeps.ok | apply RunKeeps.error | refine RunKeeps.ofOk (by assumption) ?_
    | refine RunKeeps.ofError (by assumption) ?_ | refine RunKeeps.ofErrorPair (by assumption) ?_ | (intro _; skip)

theorem State.withSS_keeps (h : Keeps kb ke u0 s) (n : CoreId) (ra : Sreg) (rb : Sreg) (k : Word → Nat → Word → Nat → Run) (h_k : ∀ x0 x1 x2 x3, RunKeeps kb ke u0 (k x0 x1 x2 x3)) : RunKeeps kb ke u0 (State.withSS s n ra rb k) := by
  unfold State.withSS
  with_reducible repeat' first
    | assumption | apply h_k | apply State.withS_keeps | apply RunKeeps.ok | apply RunKeeps.error | (intro _; skip)

theorem State.divide_keeps (h : Keeps kb ke u0 s) (n : CoreId) (rd : Sreg) (zero : Bool) (q : Int) (r : Int) (bRes : Nat) (aRes : Nat) (v : Word) : RunKeeps kb ke u0 (State.divide s n rd zero q r bRes aRes v) := by
  unfold State.divide
  with_reducible repeat' first
    | assumption | apply State.writeS_keeps | apply State.checked_keeps | apply State.retire_keeps
    | apply State.trapWith_keeps | apply RunKeeps.ok | apply RunKeeps.error
    | refine RunKeeps.ofOk (by assumption) ?_ | refine RunKeeps.ofError (by assumption) ?_
    | refine RunKeeps.ofErrorPair (by assumption) ?_ | (intro _; skip)
    | refine RunKeeps.ite (fun _ => ?_) (fun _ => ?_) | refine Keeps.ite (fun _ => ?_) (fun _ => ?_) | split

theorem execAdd_keeps (n : CoreId) (rd : Sreg) (ra : Sreg) (rb : Sreg) (s : State) : ResKeeps kb ke s (execAdd n rd ra rb s) := by
  have h := State.fresh_keeps (Keeps.refl kb ke s)
  unfold execAdd
  with_reducible repeat' first
    | assumption | apply State.coreRun_keeps | apply State.intA_keeps | apply State.withSS_keeps | apply RunKeeps.ok
    | apply RunKeeps.error | apply ResKeeps.next | (intro _; skip)

theorem execSub_keeps (n : CoreId) (rd : Sreg) (ra : Sreg) (rb : Sreg) (s : State) : ResKeeps kb ke s (execSub n rd ra rb s) := by
  have h := State.fresh_keeps (Keeps.refl kb ke s)
  unfold execSub
  with_reducible repeat' first
    | assumption | apply State.coreRun_keeps | apply State.intA_keeps | apply State.withSS_keeps | apply RunKeeps.ok
    | apply RunKeeps.error | apply ResKeeps.next | (intro _; skip)

theorem execAnd_keeps (n : CoreId) (rd : Sreg) (ra : Sreg) (rb : Sreg) (s : State) : ResKeeps kb ke s (execAnd n rd ra rb s) := by
  have h := State.fresh_keeps (Keeps.refl kb ke s)
  unfold execAnd
  with_reducible repeat' first
    | assumption | apply State.coreRun_keeps | apply State.intD_keeps | apply State.withSS_keeps | apply RunKeeps.ok
    | apply RunKeeps.error | apply ResKeeps.next | (intro _; skip)

theorem execOr_keeps (n : CoreId) (rd : Sreg) (ra : Sreg) (rb : Sreg) (s : State) : ResKeeps kb ke s (execOr n rd ra rb s) := by
  have h := State.fresh_keeps (Keeps.refl kb ke s)
  unfold execOr
  with_reducible repeat' first
    | assumption | apply State.coreRun_keeps | apply State.intD_keeps | apply State.withSS_keeps | apply RunKeeps.ok
    | apply RunKeeps.error | apply ResKeeps.next | (intro _; skip)

theorem execXor_keeps (n : CoreId) (rd : Sreg) (ra : Sreg) (rb : Sreg) (s : State) : ResKeeps kb ke s (execXor n rd ra rb s) := by
  have h := State.fresh_keeps (Keeps.refl kb ke s)
  unfold execXor
  with_reducible repeat' first
    | assumption | apply State.coreRun_keeps | apply State.intD_keeps | apply State.withSS_keeps | apply RunKeeps.ok
    | apply RunKeeps.error | apply ResKeeps.next | (intro _; skip)

theorem execSll_keeps (n : CoreId) (rd : Sreg) (ra : Sreg) (rb : Sreg) (s : State) : ResKeeps kb ke s (execSll n rd ra rb s) := by
  have h := State.fresh_keeps (Keeps.refl kb ke s)
  unfold execSll
  with_reducible repeat' first
    | assumption | apply State.coreRun_keeps | apply State.intD_keeps | apply State.withSS_keeps | apply RunKeeps.ok
    | apply RunKeeps.error | apply ResKeeps.next | (intro _; skip)

theorem execSrl_keeps (n : CoreId) (rd : Sreg) (ra : Sreg) (rb : Sreg) (s : State) : ResKeeps kb ke s (execSrl n rd ra rb s) := by
  have h := State.fresh_keeps (Keeps.refl kb ke s)
  unfold execSrl
  with_reducible repeat' first
    | assumption | apply State.coreRun_keeps | apply State.intD_keeps | apply State.withSS_keeps | apply RunKeeps.ok
    | apply RunKeeps.error | apply ResKeeps.next | (intro _; skip)

theorem execSra_keeps (n : CoreId) (rd : Sreg) (ra : Sreg) (rb : Sreg) (s : State) : ResKeeps kb ke s (execSra n rd ra rb s) := by
  have h := State.fresh_keeps (Keeps.refl kb ke s)
  unfold execSra
  with_reducible repeat' first
    | assumption | apply State.coreRun_keeps | apply State.intD_keeps | apply State.withSS_keeps | apply RunKeeps.ok
    | apply RunKeeps.error | apply ResKeeps.next | (intro _; skip)

theorem execSlt_keeps (n : CoreId) (rd : Sreg) (ra : Sreg) (rb : Sreg) (s : State) : ResKeeps kb ke s (execSlt n rd ra rb s) := by
  have h := State.fresh_keeps (Keeps.refl kb ke s)
  unfold execSlt
  with_reducible repeat' first
    | assumption | apply State.coreRun_keeps | apply State.intD_keeps | apply State.withSS_keeps | apply RunKeeps.ok
    | apply RunKeeps.error | apply ResKeeps.next | (intro _; skip)

theorem execSltu_keeps (n : CoreId) (rd : Sreg) (ra : Sreg) (rb : Sreg) (s : State) : ResKeeps kb ke s (execSltu n rd ra rb s) := by
  have h := State.fresh_keeps (Keeps.refl kb ke s)
  unfold execSltu
  with_reducible repeat' first
    | assumption | apply State.coreRun_keeps | apply State.intD_keeps | apply State.withSS_keeps | apply RunKeeps.ok
    | apply RunKeeps.error | apply ResKeeps.next | (intro _; skip)

theorem execMul_keeps (n : CoreId) (rd : Sreg) (ra : Sreg) (rb : Sreg) (s : State) : ResKeeps kb ke s (execMul n rd ra rb s) := by
  have h := State.fresh_keeps (Keeps.refl kb ke s)
  unfold execMul
  with_reducible repeat' first
    | assumption | apply State.coreRun_keeps | apply State.intA_keeps | apply State.withSS_keeps | apply RunKeeps.ok
    | apply RunKeeps.error | apply ResKeeps.next | (intro _; skip)

theorem execMulh_keeps (n : CoreId) (rd : Sreg) (ra : Sreg) (rb : Sreg) (s : State) : ResKeeps kb ke s (execMulh n rd ra rb s) := by
  have h := State.fresh_keeps (Keeps.refl kb ke s)
  unfold execMulh
  with_reducible repeat' first
    | assumption | apply State.coreRun_keeps | apply State.intA_keeps | apply State.withSS_keeps | apply RunKeeps.ok
    | apply RunKeeps.error | apply ResKeeps.next | (intro _; skip)

theorem execDiv_keeps (n : CoreId) (rd : Sreg) (ra : Sreg) (rb : Sreg) (s : State) : ResKeeps kb ke s (execDiv n rd ra rb s) := by
  have h := State.fresh_keeps (Keeps.refl kb ke s)
  unfold execDiv
  with_reducible repeat' first
    | assumption | apply State.coreRun_keeps | apply State.withSS_keeps | apply State.divide_keeps
    | apply RunKeeps.ok | apply RunKeeps.error | apply ResKeeps.next | (intro _; skip)

theorem execDivu_keeps (n : CoreId) (rd : Sreg) (ra : Sreg) (rb : Sreg) (s : State) : ResKeeps kb ke s (execDivu n rd ra rb s) := by
  have h := State.fresh_keeps (Keeps.refl kb ke s)
  unfold execDivu
  with_reducible repeat' first
    | assumption | apply State.coreRun_keeps | apply State.withSS_keeps | apply State.divide_keeps
    | apply RunKeeps.ok | apply RunKeeps.error | apply ResKeeps.next | (intro _; skip)

theorem execRem_keeps (n : CoreId) (rd : Sreg) (ra : Sreg) (rb : Sreg) (s : State) : ResKeeps kb ke s (execRem n rd ra rb s) := by
  have h := State.fresh_keeps (Keeps.refl kb ke s)
  unfold execRem
  with_reducible repeat' first
    | assumption | apply State.coreRun_keeps | apply State.withSS_keeps | apply State.divide_keeps
    | apply RunKeeps.ok | apply RunKeeps.error | apply ResKeeps.next | (intro _; skip)

theorem execAdds_keeps (n : CoreId) (rd : Sreg) (ra : Sreg) (rb : Sreg) (s : State) : ResKeeps kb ke s (execAdds n rd ra rb s) := by
  have h := State.fresh_keeps (Keeps.refl kb ke s)
  unfold execAdds
  with_reducible repeat' first
    | assumption | apply State.coreRun_keeps | apply State.intA_keeps | apply State.withSS_keeps | apply RunKeeps.ok
    | apply RunKeeps.error | apply ResKeeps.next | (intro _; skip)

theorem execSubs_keeps (n : CoreId) (rd : Sreg) (ra : Sreg) (rb : Sreg) (s : State) : ResKeeps kb ke s (execSubs n rd ra rb s) := by
  have h := State.fresh_keeps (Keeps.refl kb ke s)
  unfold execSubs
  with_reducible repeat' first
    | assumption | apply State.coreRun_keeps | apply State.intA_keeps | apply State.withSS_keeps | apply RunKeeps.ok
    | apply RunKeeps.error | apply ResKeeps.next | (intro _; skip)

theorem execAddi_keeps (n : CoreId) (rd : Sreg) (ra : Sreg) (imm : BitVec 16) (s : State) : ResKeeps kb ke s (execAddi n rd ra imm s) := by
  have h := State.fresh_keeps (Keeps.refl kb ke s)
  unfold execAddi
  with_reducible repeat' first
    | assumption | apply State.withS_keeps | apply State.coreRun_keeps | apply State.intA_keeps | apply RunKeeps.ok
    | apply RunKeeps.error | apply ResKeeps.next | (intro _; skip)

theorem execAndi_keeps (n : CoreId) (rd : Sreg) (ra : Sreg) (imm : BitVec 16) (s : State) : ResKeeps kb ke s (execAndi n rd ra imm s) := by
  have h := State.fresh_keeps (Keeps.refl kb ke s)
  unfold execAndi
  with_reducible repeat' first
    | assumption | apply State.withS_keeps | apply State.coreRun_keeps | apply State.intD_keeps | apply RunKeeps.ok
    | apply RunKeeps.error | apply ResKeeps.next | (intro _; skip)

theorem execOri_keeps (n : CoreId) (rd : Sreg) (ra : Sreg) (imm : BitVec 16) (s : State) : ResKeeps kb ke s (execOri n rd ra imm s) := by
  have h := State.fresh_keeps (Keeps.refl kb ke s)
  unfold execOri
  with_reducible repeat' first
    | assumption | apply State.withS_keeps | apply State.coreRun_keeps | apply State.intD_keeps | apply RunKeeps.ok
    | apply RunKeeps.error | apply ResKeeps.next | (intro _; skip)

theorem execSlti_keeps (n : CoreId) (rd : Sreg) (ra : Sreg) (imm : BitVec 16) (s : State) : ResKeeps kb ke s (execSlti n rd ra imm s) := by
  have h := State.fresh_keeps (Keeps.refl kb ke s)
  unfold execSlti
  with_reducible repeat' first
    | assumption | apply State.withS_keeps | apply State.coreRun_keeps | apply State.intD_keeps | apply RunKeeps.ok
    | apply RunKeeps.error | apply ResKeeps.next | (intro _; skip)

theorem execSlli_keeps (n : CoreId) (rd : Sreg) (ra : Sreg) (imm : BitVec 16) (s : State) : ResKeeps kb ke s (execSlli n rd ra imm s) := by
  have h := State.fresh_keeps (Keeps.refl kb ke s)
  unfold execSlli
  with_reducible repeat' first
    | assumption | apply State.withS_keeps | apply State.coreRun_keeps | apply State.trapWith_keeps
    | apply State.intD_keeps | apply RunKeeps.ok | apply RunKeeps.error | apply ResKeeps.next | (intro _; skip)
    | refine ResKeeps.ite (fun _ => ?_) (fun _ => ?_) | refine Keeps.ite (fun _ => ?_) (fun _ => ?_) | split

theorem execSrli_keeps (n : CoreId) (rd : Sreg) (ra : Sreg) (imm : BitVec 16) (s : State) : ResKeeps kb ke s (execSrli n rd ra imm s) := by
  have h := State.fresh_keeps (Keeps.refl kb ke s)
  unfold execSrli
  with_reducible repeat' first
    | assumption | apply State.withS_keeps | apply State.coreRun_keeps | apply State.trapWith_keeps
    | apply State.intD_keeps | apply RunKeeps.ok | apply RunKeeps.error | apply ResKeeps.next | (intro _; skip)
    | refine ResKeeps.ite (fun _ => ?_) (fun _ => ?_) | refine Keeps.ite (fun _ => ?_) (fun _ => ?_) | split

theorem execSrai_keeps (n : CoreId) (rd : Sreg) (ra : Sreg) (imm : BitVec 16) (s : State) : ResKeeps kb ke s (execSrai n rd ra imm s) := by
  have h := State.fresh_keeps (Keeps.refl kb ke s)
  unfold execSrai
  with_reducible repeat' first
    | assumption | apply State.withS_keeps | apply State.coreRun_keeps | apply State.trapWith_keeps
    | apply State.intD_keeps | apply RunKeeps.ok | apply RunKeeps.error | apply ResKeeps.next | (intro _; skip)
    | refine ResKeeps.ite (fun _ => ?_) (fun _ => ?_) | refine Keeps.ite (fun _ => ?_) (fun _ => ?_) | split

theorem execLui_keeps (n : CoreId) (rd : Sreg) (imm : BitVec 16) (s : State) : ResKeeps kb ke s (execLui n rd imm s) := by
  have h := State.fresh_keeps (Keeps.refl kb ke s)
  unfold execLui
  with_reducible repeat' first
    | assumption | apply State.coreRun_keeps | apply State.intD_keeps | apply RunKeeps.ok | apply RunKeeps.error
    | apply ResKeeps.next | (intro _; skip)

theorem execLi_keeps (n : CoreId) (rd : Sreg) (s : State) : ResKeeps kb ke s (execLi n rd s) := by
  have h := State.fresh_keeps (Keeps.refl kb ke s)
  unfold execLi
  with_reducible repeat' first
    | assumption | apply State.writeS_keeps | apply State.retire_keeps | apply State.fetchCheck_keeps
    | apply State.coreRun_keeps | apply RunKeeps.ok | apply RunKeeps.error | refine RunKeeps.ofOk (by assumption) ?_
    | refine RunKeeps.ofError (by assumption) ?_ | refine RunKeeps.ofErrorPair (by assumption) ?_
    | apply ResKeeps.next | (intro _; skip)
    | (extract_lets +onlyGivenNames xq; refine (fun (hx : Keeps kb ke s xq) => ?_) ?_; rotate_left; dsimp -zeta only [xq]; rotate_left; clear_value xq)
    | (extract_lets +onlyGivenNames xq; (have hq : xq = xq := by (dsimp -zeta only [xq])); clear hq; clear_value xq)
    | split | exact Keeps.upd (by assumption)

theorem State.branch_keeps (h : Keeps kb ke u0 s) (n : CoreId) (ra : Sreg) (rd : Sreg) (imm : BitVec 16) (cond : Word → Word → Bool) : RunKeeps kb ke u0 (State.branch s n ra rd imm cond) := by
  unfold State.branch
  with_reducible repeat' first
    | assumption | apply State.retire_keeps | apply State.jumpTo_keeps | apply State.withSS_keeps
    | apply RunKeeps.ok | apply RunKeeps.error | refine RunKeeps.ofOk (by assumption) ?_
    | refine RunKeeps.ofError (by assumption) ?_ | refine RunKeeps.ofErrorPair (by assumption) ?_ | dsimp only [id]
    | (intro _; skip) | refine RunKeeps.ite (fun _ => ?_) (fun _ => ?_)
    | refine Keeps.ite (fun _ => ?_) (fun _ => ?_) | split

theorem execBeq_keeps (n : CoreId) (ra : Sreg) (rd : Sreg) (imm : BitVec 16) (s : State) : ResKeeps kb ke s (execBeq n ra rd imm s) := by
  have h := State.fresh_keeps (Keeps.refl kb ke s)
  unfold execBeq
  with_reducible repeat' first
    | assumption | apply State.coreRun_keeps | apply State.branch_keeps | apply RunKeeps.ok | apply RunKeeps.error
    | apply ResKeeps.next | (intro _; skip)

theorem execBne_keeps (n : CoreId) (ra : Sreg) (rd : Sreg) (imm : BitVec 16) (s : State) : ResKeeps kb ke s (execBne n ra rd imm s) := by
  have h := State.fresh_keeps (Keeps.refl kb ke s)
  unfold execBne
  with_reducible repeat' first
    | assumption | apply State.coreRun_keeps | apply State.branch_keeps | apply RunKeeps.ok | apply RunKeeps.error
    | apply ResKeeps.next | (intro _; skip)

theorem execBlt_keeps (n : CoreId) (ra : Sreg) (rd : Sreg) (imm : BitVec 16) (s : State) : ResKeeps kb ke s (execBlt n ra rd imm s) := by
  have h := State.fresh_keeps (Keeps.refl kb ke s)
  unfold execBlt
  with_reducible repeat' first
    | assumption | apply State.coreRun_keeps | apply State.branch_keeps | apply RunKeeps.ok | apply RunKeeps.error
    | apply ResKeeps.next | (intro _; skip)

theorem execBge_keeps (n : CoreId) (ra : Sreg) (rd : Sreg) (imm : BitVec 16) (s : State) : ResKeeps kb ke s (execBge n ra rd imm s) := by
  have h := State.fresh_keeps (Keeps.refl kb ke s)
  unfold execBge
  with_reducible repeat' first
    | assumption | apply State.coreRun_keeps | apply State.branch_keeps | apply RunKeeps.ok | apply RunKeeps.error
    | apply ResKeeps.next | (intro _; skip)

theorem execBltu_keeps (n : CoreId) (ra : Sreg) (rd : Sreg) (imm : BitVec 16) (s : State) : ResKeeps kb ke s (execBltu n ra rd imm s) := by
  have h := State.fresh_keeps (Keeps.refl kb ke s)
  unfold execBltu
  with_reducible repeat' first
    | assumption | apply State.coreRun_keeps | apply State.branch_keeps | apply RunKeeps.ok | apply RunKeeps.error
    | apply ResKeeps.next | (intro _; skip)

theorem execBgeu_keeps (n : CoreId) (ra : Sreg) (rd : Sreg) (imm : BitVec 16) (s : State) : ResKeeps kb ke s (execBgeu n ra rd imm s) := by
  have h := State.fresh_keeps (Keeps.refl kb ke s)
  unfold execBgeu
  with_reducible repeat' first
    | assumption | apply State.coreRun_keeps | apply State.branch_keeps | apply RunKeeps.ok | apply RunKeeps.error
    | apply ResKeeps.next | (intro _; skip)

theorem execJ_keeps (n : CoreId) (imm : BitVec 16) (s : State) : ResKeeps kb ke s (execJ n imm s) := by
  have h := State.fresh_keeps (Keeps.refl kb ke s)
  unfold execJ
  with_reducible repeat' first
    | assumption | apply State.coreRun_keeps | apply State.jumpTo_keeps | apply RunKeeps.ok | apply RunKeeps.error
    | apply ResKeeps.next | dsimp only [id] | (intro _; skip)

theorem execCall_keeps (n : CoreId) (imm : BitVec 16) (s : State) : ResKeeps kb ke s (execCall n imm s) := by
  have h := State.fresh_keeps (Keeps.refl kb ke s)
  unfold execCall
  with_reducible repeat' first
    | assumption | apply State.writeS_keeps | apply State.checked_keeps | apply State.coreRun_keeps
    | apply State.jumpTo_keeps | apply RunKeeps.ok | apply RunKeeps.error | apply ResKeeps.next | (intro _; skip)
    | (extract_lets +onlyGivenNames xq; refine (fun (hx : Keeps kb ke s xq) => ?_) ?_; rotate_left; dsimp -zeta only [xq]; rotate_left; clear_value xq)
    | (extract_lets +onlyGivenNames xq; (have hq : xq = xq := by (dsimp -zeta only [xq])); clear hq; clear_value xq)

theorem execJr_keeps (n : CoreId) (ra : Sreg) (s : State) : ResKeeps kb ke s (execJr n ra s) := by
  have h := State.fresh_keeps (Keeps.refl kb ke s)
  unfold execJr
  with_reducible repeat' first
    | assumption | apply State.withS_keeps | apply State.coreRun_keeps | apply State.jumpTo_keeps
    | apply RunKeeps.ok | apply RunKeeps.error | apply ResKeeps.next | dsimp only [id] | (intro _; skip)

theorem execIllegalInstruction_keeps (n : CoreId) (word : Word) (s : State) : ResKeeps kb ke s (execIllegalInstruction n word s) := by
  have h := State.fresh_keeps (Keeps.refl kb ke s)
  unfold execIllegalInstruction
  with_reducible repeat' first
    | assumption | apply State.fresh_keeps | apply State.coreRun_keeps | apply State.trapWith_keeps
    | apply RunKeeps.ok | apply RunKeeps.error | apply ResKeeps.next | (intro _; skip) | split
    | exact Keeps.upd (by assumption)

theorem State.withSf_keeps (h : Keeps kb ke u0 s) (n : CoreId) (ra : Sreg) (rb : Sreg) (k : Ev → Ev → Run) (h_k : ∀ x0 x1, RunKeeps kb ke u0 (k x0 x1)) : RunKeeps kb ke u0 (State.withSf s n ra rb k) := by
  unfold State.withSf
  with_reducible repeat' first
    | assumption | apply h_k | apply State.withSS_keeps | apply RunKeeps.ok | apply RunKeeps.error | (intro _; skip)

theorem State.sfDone_keeps (h : Keeps kb ke u0 s) (n : CoreId) (rd : Sreg) (cyc : Nat) (x : Ev) : RunKeeps kb ke u0 (State.sfDone s n rd cyc x) := by
  unfold State.sfDone
  with_reducible repeat' first
    | assumption | apply State.writeS_keeps | apply State.checked_keeps | apply State.retire_keeps
    | apply State.setSat_keeps | apply RunKeeps.ok | apply RunKeeps.error | refine RunKeeps.ofOk (by assumption) ?_
    | refine RunKeeps.ofError (by assumption) ?_ | refine RunKeeps.ofErrorPair (by assumption) ?_ | (intro _; skip)

theorem execSfAdd_keeps (n : CoreId) (rd : Sreg) (ra : Sreg) (rb : Sreg) (s : State) : ResKeeps kb ke s (execSfAdd n rd ra rb s) := by
  have h := State.fresh_keeps (Keeps.refl kb ke s)
  unfold execSfAdd
  with_reducible repeat' first
    | assumption | apply State.coreRun_keeps | apply State.withSf_keeps | apply State.sfDone_keeps
    | apply RunKeeps.ok | apply RunKeeps.error | apply ResKeeps.next | (intro _; skip)

theorem execSfSub_keeps (n : CoreId) (rd : Sreg) (ra : Sreg) (rb : Sreg) (s : State) : ResKeeps kb ke s (execSfSub n rd ra rb s) := by
  have h := State.fresh_keeps (Keeps.refl kb ke s)
  unfold execSfSub
  with_reducible repeat' first
    | assumption | apply State.coreRun_keeps | apply State.withSf_keeps | apply State.sfDone_keeps
    | apply RunKeeps.ok | apply RunKeeps.error | apply ResKeeps.next | (intro _; skip)

theorem execSfMul_keeps (n : CoreId) (rd : Sreg) (ra : Sreg) (rb : Sreg) (s : State) : ResKeeps kb ke s (execSfMul n rd ra rb s) := by
  have h := State.fresh_keeps (Keeps.refl kb ke s)
  unfold execSfMul
  with_reducible repeat' first
    | assumption | apply State.coreRun_keeps | apply State.withSf_keeps | apply State.sfDone_keeps
    | apply RunKeeps.ok | apply RunKeeps.error | apply ResKeeps.next | (intro _; skip)

theorem execSfAbs_keeps (n : CoreId) (rd : Sreg) (ra : Sreg) (s : State) : ResKeeps kb ke s (execSfAbs n rd ra s) := by
  have h := State.fresh_keeps (Keeps.refl kb ke s)
  unfold execSfAbs
  with_reducible repeat' first
    | assumption | apply State.withS_keeps | apply State.coreRun_keeps | apply State.sfDone_keeps
    | apply RunKeeps.ok | apply RunKeeps.error | apply ResKeeps.next | (intro _; skip)

theorem execSfSlt_keeps (n : CoreId) (rd : Sreg) (ra : Sreg) (rb : Sreg) (s : State) : ResKeeps kb ke s (execSfSlt n rd ra rb s) := by
  have h := State.fresh_keeps (Keeps.refl kb ke s)
  unfold execSfSlt
  with_reducible repeat' first
    | assumption | apply State.coreRun_keeps | apply State.intD_keeps | apply State.withSf_keeps | apply RunKeeps.ok
    | apply RunKeeps.error | apply ResKeeps.next | (intro _; skip)

theorem execSfSle_keeps (n : CoreId) (rd : Sreg) (ra : Sreg) (rb : Sreg) (s : State) : ResKeeps kb ke s (execSfSle n rd ra rb s) := by
  have h := State.fresh_keeps (Keeps.refl kb ke s)
  unfold execSfSle
  with_reducible repeat' first
    | assumption | apply State.coreRun_keeps | apply State.intD_keeps | apply State.withSf_keeps | apply RunKeeps.ok
    | apply RunKeeps.error | apply ResKeeps.next | (intro _; skip)

theorem execSfFromi_keeps (n : CoreId) (rd : Sreg) (ra : Sreg) (s : State) : ResKeeps kb ke s (execSfFromi n rd ra s) := by
  have h := State.fresh_keeps (Keeps.refl kb ke s)
  unfold execSfFromi
  with_reducible repeat' first
    | assumption | apply State.withS_keeps | apply State.coreRun_keeps | apply State.sfDone_keeps
    | apply RunKeeps.ok | apply RunKeeps.error | apply ResKeeps.next | (intro _; skip)

theorem execSfToi_keeps (n : CoreId) (rd : Sreg) (ra : Sreg) (s : State) : ResKeeps kb ke s (execSfToi n rd ra s) := by
  have h := State.fresh_keeps (Keeps.refl kb ke s)
  unfold execSfToi
  with_reducible repeat' first
    | assumption | apply State.withS_keeps | apply State.writeS_keeps | apply State.checked_keeps
    | apply State.retire_keeps | apply State.setSat_keeps | apply State.coreRun_keeps | apply RunKeeps.ok
    | apply RunKeeps.error | refine RunKeeps.ofOk (by assumption) ?_ | refine RunKeeps.ofError (by assumption) ?_
    | refine RunKeeps.ofErrorPair (by assumption) ?_ | apply ResKeeps.next | (intro _; skip)
    | (extract_lets +onlyGivenNames xq; refine (fun (hx : Keeps kb ke s xq) => ?_) ?_; rotate_left; dsimp -zeta only [xq]; rotate_left; clear_value xq)
    | (extract_lets +onlyGivenNames xq; (have hq : xq = xq := by (dsimp -zeta only [xq])); clear hq; clear_value xq)

theorem execSfScale_keeps (n : CoreId) (rd : Sreg) (ra : Sreg) (rb : Sreg) (s : State) : ResKeeps kb ke s (execSfScale n rd ra rb s) := by
  have h := State.fresh_keeps (Keeps.refl kb ke s)
  unfold execSfScale
  with_reducible repeat' first
    | assumption | apply State.coreRun_keeps | apply State.withSS_keeps | apply State.sfDone_keeps
    | apply RunKeeps.ok | apply RunKeeps.error | apply ResKeeps.next | (intro _; skip)

theorem State.vecDone_keeps (h : Keeps kb ke u0 s) (n : CoreId) (vd : Vreg) (cyc : Nat) (xs : List Ev) : RunKeeps kb ke u0 (State.vecDone s n vd cyc xs) := by
  unfold State.vecDone
  with_reducible repeat' first
    | assumption | apply State.writeV_keeps | apply State.checked_keeps | apply State.retire_keeps
    | apply State.setSat_keeps | apply RunKeeps.ok | apply RunKeeps.error | refine RunKeeps.ofOk (by assumption) ?_
    | refine RunKeeps.ofError (by assumption) ?_ | refine RunKeeps.ofErrorPair (by assumption) ?_ | (intro _; skip)

theorem State.withVVP_keeps (h : Keeps kb ke u0 s) (n : CoreId) (vd : Vreg) (va : Vreg) (vb : Vreg) (pg : Preg) (k : VReg → VReg → VReg → BitVec 48 → Run) (h_k : ∀ x0 x1 x2 x3, RunKeeps kb ke u0 (k x0 x1 x2 x3)) : RunKeeps kb ke u0 (State.withVVP s n vd va vb pg k) := by
  unfold State.withVVP
  with_reducible repeat' first
    | assumption | apply h_k | apply State.withV_keeps | apply State.withP_keeps | apply RunKeeps.ok
    | apply RunKeeps.error | (intro _; skip)

theorem State.withVP_keeps (h : Keeps kb ke u0 s) (n : CoreId) (vd : Vreg) (va : Vreg) (pg : Preg) (k : VReg → VReg → BitVec 48 → Run) (h_k : ∀ x0 x1 x2, RunKeeps kb ke u0 (k x0 x1 x2)) : RunKeeps kb ke u0 (State.withVP s n vd va pg k) := by
  unfold State.withVP
  with_reducible repeat' first
    | assumption | apply h_k | apply State.withV_keeps | apply State.withP_keeps | apply RunKeeps.ok
    | apply RunKeeps.error | (intro _; skip)

theorem execVadd_keeps (n : CoreId) (vd : Vreg) (va : Vreg) (vb : Vreg) (pg : Preg) (s : State) : ResKeeps kb ke s (execVadd n vd va vb pg s) := by
  have h := State.fresh_keeps (Keeps.refl kb ke s)
  unfold execVadd
  with_reducible repeat' first
    | assumption | apply State.coreRun_keeps | apply State.vecDone_keeps | apply State.withVVP_keeps
    | apply RunKeeps.ok | apply RunKeeps.error | apply ResKeeps.next | (intro _; skip)

theorem execVsub_keeps (n : CoreId) (vd : Vreg) (va : Vreg) (vb : Vreg) (pg : Preg) (s : State) : ResKeeps kb ke s (execVsub n vd va vb pg s) := by
  have h := State.fresh_keeps (Keeps.refl kb ke s)
  unfold execVsub
  with_reducible repeat' first
    | assumption | apply State.coreRun_keeps | apply State.vecDone_keeps | apply State.withVVP_keeps
    | apply RunKeeps.ok | apply RunKeeps.error | apply ResKeeps.next | (intro _; skip)

theorem execVmul_keeps (n : CoreId) (vd : Vreg) (va : Vreg) (vb : Vreg) (pg : Preg) (s : State) : ResKeeps kb ke s (execVmul n vd va vb pg s) := by
  have h := State.fresh_keeps (Keeps.refl kb ke s)
  unfold execVmul
  with_reducible repeat' first
    | assumption | apply State.coreRun_keeps | apply State.vecDone_keeps | apply State.withVVP_keeps
    | apply RunKeeps.ok | apply RunKeeps.error | apply ResKeeps.next | (intro _; skip)

theorem execVmac_keeps (n : CoreId) (vd : Vreg) (va : Vreg) (vb : Vreg) (pg : Preg) (s : State) : ResKeeps kb ke s (execVmac n vd va vb pg s) := by
  have h := State.fresh_keeps (Keeps.refl kb ke s)
  unfold execVmac
  with_reducible repeat' first
    | assumption | apply State.coreRun_keeps | apply State.vecDone_keeps | apply State.withVVP_keeps
    | apply RunKeeps.ok | apply RunKeeps.error | apply ResKeeps.next | (intro _; skip)

theorem execVmin_keeps (n : CoreId) (vd : Vreg) (va : Vreg) (vb : Vreg) (pg : Preg) (s : State) : ResKeeps kb ke s (execVmin n vd va vb pg s) := by
  have h := State.fresh_keeps (Keeps.refl kb ke s)
  unfold execVmin
  with_reducible repeat' first
    | assumption | apply State.coreRun_keeps | apply State.vecDone_keeps | apply State.withVVP_keeps
    | apply RunKeeps.ok | apply RunKeeps.error | apply ResKeeps.next | (intro _; skip)

theorem execVmax_keeps (n : CoreId) (vd : Vreg) (va : Vreg) (vb : Vreg) (pg : Preg) (s : State) : ResKeeps kb ke s (execVmax n vd va vb pg s) := by
  have h := State.fresh_keeps (Keeps.refl kb ke s)
  unfold execVmax
  with_reducible repeat' first
    | assumption | apply State.coreRun_keeps | apply State.vecDone_keeps | apply State.withVVP_keeps
    | apply RunKeeps.ok | apply RunKeeps.error | apply ResKeeps.next | (intro _; skip)

theorem execVneg_keeps (n : CoreId) (vd : Vreg) (va : Vreg) (pg : Preg) (s : State) : ResKeeps kb ke s (execVneg n vd va pg s) := by
  have h := State.fresh_keeps (Keeps.refl kb ke s)
  unfold execVneg
  with_reducible repeat' first
    | assumption | apply State.coreRun_keeps | apply State.vecDone_keeps | apply State.withVP_keeps
    | apply RunKeeps.ok | apply RunKeeps.error | apply ResKeeps.next | (intro _; skip)

theorem execVabs_keeps (n : CoreId) (vd : Vreg) (va : Vreg) (pg : Preg) (s : State) : ResKeeps kb ke s (execVabs n vd va pg s) := by
  have h := State.fresh_keeps (Keeps.refl kb ke s)
  unfold execVabs
  with_reducible repeat' first
    | assumption | apply State.coreRun_keeps | apply State.vecDone_keeps | apply State.withVP_keeps
    | apply RunKeeps.ok | apply RunKeeps.error | apply ResKeeps.next | (intro _; skip)

theorem execVmov_keeps (n : CoreId) (vd : Vreg) (va : Vreg) (pg : Preg) (s : State) : ResKeeps kb ke s (execVmov n vd va pg s) := by
  have h := State.fresh_keeps (Keeps.refl kb ke s)
  unfold execVmov
  with_reducible repeat' first
    | assumption | apply State.coreRun_keeps | apply State.vecDone_keeps | apply State.withVP_keeps
    | apply RunKeeps.ok | apply RunKeeps.error | apply ResKeeps.next | (intro _; skip)

theorem execVclamp_keeps (n : CoreId) (vd : Vreg) (va : Vreg) (vb : Vreg) (vc : Vreg) (pg : Preg) (s : State) : ResKeeps kb ke s (execVclamp n vd va vb vc pg s) := by
  have h := State.fresh_keeps (Keeps.refl kb ke s)
  unfold execVclamp
  with_reducible repeat' first
    | assumption | apply State.withV_keeps | apply State.coreRun_keeps | apply State.vecDone_keeps
    | apply State.withVVP_keeps | apply RunKeeps.ok | apply RunKeeps.error | apply ResKeeps.next | (intro _; skip)

theorem execVscale_keeps (n : CoreId) (vd : Vreg) (va : Vreg) (rs : Sreg) (pg : Preg) (s : State) : ResKeeps kb ke s (execVscale n vd va rs pg s) := by
  have h := State.fresh_keeps (Keeps.refl kb ke s)
  unfold execVscale
  with_reducible repeat' first
    | assumption | apply State.withS_keeps | apply State.coreRun_keeps | apply State.vecDone_keeps
    | apply State.withVP_keeps | apply RunKeeps.ok | apply RunKeeps.error | apply ResKeeps.next | (intro _; skip)

theorem execVbcast_keeps (n : CoreId) (vd : Vreg) (rs : Sreg) (pg : Preg) (s : State) : ResKeeps kb ke s (execVbcast n vd rs pg s) := by
  have h := State.fresh_keeps (Keeps.refl kb ke s)
  unfold execVbcast
  with_reducible repeat' first
    | assumption | apply State.withS_keeps | apply State.withV_keeps | apply State.withP_keeps
    | apply State.coreRun_keeps | apply State.vecDone_keeps | apply RunKeeps.ok | apply RunKeeps.error
    | apply ResKeeps.next | (intro _; skip)

theorem execVsel_keeps (n : CoreId) (vd : Vreg) (va : Vreg) (vb : Vreg) (pg : Preg) (s : State) : ResKeeps kb ke s (execVsel n vd va vb pg s) := by
  have h := State.fresh_keeps (Keeps.refl kb ke s)
  unfold execVsel
  with_reducible repeat' first
    | assumption | apply State.withV_keeps | apply State.withP_keeps | apply State.coreRun_keeps
    | apply State.vecDone_keeps | apply RunKeeps.ok | apply RunKeeps.error | apply ResKeeps.next | (intro _; skip)

theorem execVget_keeps (n : CoreId) (rs : Sreg) (va : Vreg) (idx : BitVec 6) (s : State) : ResKeeps kb ke s (execVget n rs va idx s) := by
  have h := State.fresh_keeps (Keeps.refl kb ke s)
  unfold execVget
  with_reducible repeat' first
    | assumption | apply State.withV_keeps | apply State.coreRun_keeps | apply State.trapWith_keeps
    | apply State.sfDone_keeps | apply RunKeeps.ok | apply RunKeeps.error | apply ResKeeps.next | (intro _; skip)
    | refine ResKeeps.ite (fun _ => ?_) (fun _ => ?_) | refine Keeps.ite (fun _ => ?_) (fun _ => ?_) | split

theorem execVset_keeps (n : CoreId) (vd : Vreg) (rs : Sreg) (idx : BitVec 6) (s : State) : ResKeeps kb ke s (execVset n vd rs idx s) := by
  have h := State.fresh_keeps (Keeps.refl kb ke s)
  unfold execVset
  with_reducible repeat' first
    | assumption | apply State.withS_keeps | apply State.withV_keeps | apply State.coreRun_keeps
    | apply State.trapWith_keeps | apply State.vecDone_keeps | apply RunKeeps.ok | apply RunKeeps.error
    | apply ResKeeps.next | (intro _; skip) | refine ResKeeps.ite (fun _ => ?_) (fun _ => ?_)
    | refine Keeps.ite (fun _ => ?_) (fun _ => ?_) | split

theorem execVsum_keeps (n : CoreId) (rs : Sreg) (va : Vreg) (pg : Preg) (s : State) : ResKeeps kb ke s (execVsum n rs va pg s) := by
  have h := State.fresh_keeps (Keeps.refl kb ke s)
  unfold execVsum
  with_reducible repeat' first
    | assumption | apply State.withV_keeps | apply State.withP_keeps | apply State.coreRun_keeps
    | apply State.sfDone_keeps | apply RunKeeps.ok | apply RunKeeps.error | apply ResKeeps.next | (intro _; skip)

theorem execVdot_keeps (n : CoreId) (rs : Sreg) (va : Vreg) (vb : Vreg) (pg : Preg) (s : State) : ResKeeps kb ke s (execVdot n rs va vb pg s) := by
  have h := State.fresh_keeps (Keeps.refl kb ke s)
  unfold execVdot
  with_reducible repeat' first
    | assumption | apply State.withV_keeps | apply State.withP_keeps | apply State.coreRun_keeps
    | apply State.sfDone_keeps | apply RunKeeps.ok | apply RunKeeps.error | apply ResKeeps.next | (intro _; skip)

theorem execVmaxr_keeps (n : CoreId) (rs : Sreg) (va : Vreg) (pg : Preg) (s : State) : ResKeeps kb ke s (execVmaxr n rs va pg s) := by
  have h := State.fresh_keeps (Keeps.refl kb ke s)
  unfold execVmaxr
  with_reducible repeat' first
    | assumption | apply State.withV_keeps | apply State.withP_keeps | apply State.coreRun_keeps
    | apply State.intD_keeps | apply RunKeeps.ok | apply RunKeeps.error | apply ResKeeps.next | (intro _; skip)

theorem execVminr_keeps (n : CoreId) (rs : Sreg) (va : Vreg) (pg : Preg) (s : State) : ResKeeps kb ke s (execVminr n rs va pg s) := by
  have h := State.fresh_keeps (Keeps.refl kb ke s)
  unfold execVminr
  with_reducible repeat' first
    | assumption | apply State.withV_keeps | apply State.withP_keeps | apply State.coreRun_keeps
    | apply State.intD_keeps | apply RunKeeps.ok | apply RunKeeps.error | apply ResKeeps.next | (intro _; skip)

theorem State.predDone_keeps (h : Keeps kb ke u0 s) (n : CoreId) (pd : Preg) (cyc : Nat) (v : BitVec 48) : RunKeeps kb ke u0 (State.predDone s n pd cyc v) := by
  unfold State.predDone
  with_reducible repeat' first
    | assumption | apply State.writeP_keeps | apply State.checked_keeps | apply State.retire_keeps
    | apply RunKeeps.ok | apply RunKeeps.error | refine RunKeeps.ofOk (by assumption) ?_
    | refine RunKeeps.ofError (by assumption) ?_ | refine RunKeeps.ofErrorPair (by assumption) ?_ | (intro _; skip)

theorem execVcmplt_keeps (n : CoreId) (pd : Preg) (va : Vreg) (vb : Vreg) (pg : Preg) (s : State) : ResKeeps kb ke s (execVcmplt n pd va vb pg s) := by
  have h := State.fresh_keeps (Keeps.refl kb ke s)
  unfold execVcmplt
  with_reducible repeat' first
    | assumption | apply State.withV_keeps | apply State.withP_keeps | apply State.coreRun_keeps
    | apply State.predDone_keeps | apply RunKeeps.ok | apply RunKeeps.error | apply ResKeeps.next | (intro _; skip)

theorem execVcmple_keeps (n : CoreId) (pd : Preg) (va : Vreg) (vb : Vreg) (pg : Preg) (s : State) : ResKeeps kb ke s (execVcmple n pd va vb pg s) := by
  have h := State.fresh_keeps (Keeps.refl kb ke s)
  unfold execVcmple
  with_reducible repeat' first
    | assumption | apply State.withV_keeps | apply State.withP_keeps | apply State.coreRun_keeps
    | apply State.predDone_keeps | apply RunKeeps.ok | apply RunKeeps.error | apply ResKeeps.next | (intro _; skip)

theorem execPand_keeps (n : CoreId) (pd : Preg) (pa : Preg) (pb : Preg) (s : State) : ResKeeps kb ke s (execPand n pd pa pb s) := by
  have h := State.fresh_keeps (Keeps.refl kb ke s)
  unfold execPand
  with_reducible repeat' first
    | assumption | apply State.withP_keeps | apply State.coreRun_keeps | apply State.predDone_keeps
    | apply RunKeeps.ok | apply RunKeeps.error | apply ResKeeps.next | (intro _; skip)

theorem execPor_keeps (n : CoreId) (pd : Preg) (pa : Preg) (pb : Preg) (s : State) : ResKeeps kb ke s (execPor n pd pa pb s) := by
  have h := State.fresh_keeps (Keeps.refl kb ke s)
  unfold execPor
  with_reducible repeat' first
    | assumption | apply State.withP_keeps | apply State.coreRun_keeps | apply State.predDone_keeps
    | apply RunKeeps.ok | apply RunKeeps.error | apply ResKeeps.next | (intro _; skip)

theorem execPnot_keeps (n : CoreId) (pd : Preg) (pa : Preg) (s : State) : ResKeeps kb ke s (execPnot n pd pa s) := by
  have h := State.fresh_keeps (Keeps.refl kb ke s)
  unfold execPnot
  with_reducible repeat' first
    | assumption | apply State.withP_keeps | apply State.coreRun_keeps | apply State.predDone_keeps
    | apply RunKeeps.ok | apply RunKeeps.error | apply ResKeeps.next | (intro _; skip)

theorem execPsetl_keeps (n : CoreId) (pd : Preg) (rs : Sreg) (s : State) : ResKeeps kb ke s (execPsetl n pd rs s) := by
  have h := State.fresh_keeps (Keeps.refl kb ke s)
  unfold execPsetl
  with_reducible repeat' first
    | assumption | apply State.withS_keeps | apply State.withP_keeps | apply State.coreRun_keeps
    | apply State.predDone_keeps | apply RunKeeps.ok | apply RunKeeps.error | apply ResKeeps.next | (intro _; skip)

theorem execPseth_keeps (n : CoreId) (pd : Preg) (rs : Sreg) (s : State) : ResKeeps kb ke s (execPseth n pd rs s) := by
  have h := State.fresh_keeps (Keeps.refl kb ke s)
  unfold execPseth
  with_reducible repeat' first
    | assumption | apply State.withS_keeps | apply State.withP_keeps | apply State.coreRun_keeps
    | apply State.predDone_keeps | apply RunKeeps.ok | apply RunKeeps.error | apply ResKeeps.next | (intro _; skip)

theorem execPget_keeps (n : CoreId) (rs : Sreg) (pa : Preg) (h : BitVec 3) (s : State) : ResKeeps kb ke s (execPget n rs pa h s) := by
  have h := State.fresh_keeps (Keeps.refl kb ke s)
  unfold execPget
  with_reducible repeat' first
    | assumption | apply State.withP_keeps | apply State.coreRun_keeps | apply State.trapWith_keeps
    | apply State.intD_keeps | apply RunKeeps.ok | apply RunKeeps.error | apply ResKeeps.next | (intro _; skip)
    | refine ResKeeps.ite (fun _ => ?_) (fun _ => ?_) | refine Keeps.ite (fun _ => ?_) (fun _ => ?_) | split

theorem execPcnt_keeps (n : CoreId) (rs : Sreg) (pa : Preg) (pg : Preg) (s : State) : ResKeeps kb ke s (execPcnt n rs pa pg s) := by
  have h := State.fresh_keeps (Keeps.refl kb ke s)
  unfold execPcnt
  with_reducible repeat' first
    | assumption | apply State.withP_keeps | apply State.coreRun_keeps | apply State.intD_keeps | apply RunKeeps.ok
    | apply RunKeeps.error | apply ResKeeps.next | (intro _; skip)

theorem State.withParams_keeps (h : Keeps kb ke u0 s) (n : CoreId) (rp : Sreg) (words : Nat) (k : List Ev → Nat → State → Run) (h_k : ∀ x0 x1 x2, Keeps kb ke u0 x2 → RunKeeps kb ke u0 (k x0 x1 x2)) : RunKeeps kb ke u0 (State.withParams s n rp words k) := by
  unfold State.withParams
  with_reducible repeat' first
    | assumption | apply h_k | apply State.withS_keeps | apply State.withDmem_keeps | apply State.trapWith_keeps
    | apply RunKeeps.ok | apply RunKeeps.error | (intro _; skip) | refine RunKeeps.ite (fun _ => ?_) (fun _ => ?_)
    | refine Keeps.ite (fun _ => ?_) (fun _ => ?_) | split

theorem execPiStep_keeps (n : CoreId) (vd : Vreg) (va : Vreg) (vb : Vreg) (pg : Preg) (rp : Sreg) (s : State) : ResKeeps kb ke s (execPiStep n vd va vb pg rp s) := by
  have h := State.fresh_keeps (Keeps.refl kb ke s)
  unfold execPiStep
  with_reducible repeat' first
    | assumption | apply State.writeV_keeps | apply State.checked_keeps | apply State.retire_keeps
    | apply State.setSat_keeps | apply State.coreRun_keeps | apply State.trapWith_keeps | apply State.withVVP_keeps
    | apply State.withParams_keeps | apply RunKeeps.ok | apply RunKeeps.error
    | refine RunKeeps.ofOk (by assumption) ?_ | refine RunKeeps.ofError (by assumption) ?_
    | refine RunKeeps.ofErrorPair (by assumption) ?_ | apply ResKeeps.next | (intro _; skip)
    | (extract_lets +onlyGivenNames xq; refine (fun (hx : Keeps kb ke s xq) => ?_) ?_; rotate_left; dsimp -zeta only [xq]; rotate_left; clear_value xq)
    | (extract_lets +onlyGivenNames xq; (have hq : xq = xq := by (dsimp -zeta only [xq])); clear hq; clear_value xq)
    | refine ResKeeps.ite (fun _ => ?_) (fun _ => ?_) | refine Keeps.ite (fun _ => ?_) (fun _ => ?_) | split

theorem execHyst_keeps (n : CoreId) (pd : Preg) (va : Vreg) (pg : Preg) (rp : Sreg) (s : State) : ResKeeps kb ke s (execHyst n pd va pg rp s) := by
  have h := State.fresh_keeps (Keeps.refl kb ke s)
  unfold execHyst
  with_reducible repeat' first
    | assumption | apply State.withV_keeps | apply State.withP_keeps | apply State.coreRun_keeps
    | apply State.trapWith_keeps | apply State.predDone_keeps | apply State.withParams_keeps | apply RunKeeps.ok
    | apply RunKeeps.error | apply ResKeeps.next | (intro _; skip)
    | (extract_lets +onlyGivenNames xq; refine (fun (hx : Keeps kb ke s xq) => ?_) ?_; rotate_left; dsimp -zeta only [xq]; rotate_left; clear_value xq)
    | (extract_lets +onlyGivenNames xq; (have hq : xq = xq := by (dsimp -zeta only [xq])); clear hq; clear_value xq)
    | refine ResKeeps.ite (fun _ => ?_) (fun _ => ?_) | refine Keeps.ite (fun _ => ?_) (fun _ => ?_) | split

theorem State.withVs_keeps (h : Keeps kb ke u0 s) (n : CoreId) (va : Vreg) (m : Nat) (k : List VReg → Run)
    (h_k : ∀ x, RunKeeps kb ke u0 (k x)) : RunKeeps kb ke u0 (s.withVs n va m k) := by
  induction m generalizing k with
  | zero => exact h_k []
  | succ m ih =>
    unfold State.withVs
    refine ih _ (fun vs => ?_)
    split
    · exact State.withV_keeps h n _ _ (fun v => h_k _)
    · exact State.trapWith_keeps h _ _

theorem execMinsel_keeps (n : CoreId) (vd : Vreg) (va : Vreg) (cnt : BitVec 2) (pg : Preg) (pw : Preg) (s : State) : ResKeeps kb ke s (execMinsel n vd va cnt pg pw s) := by
  have h := State.fresh_keeps (Keeps.refl kb ke s)
  unfold execMinsel
  with_reducible repeat' first
    | assumption | apply State.withV_keeps | apply State.writeV_keeps | apply State.withP_keeps
    | apply State.writeP_keeps | apply State.checked_keeps | apply State.retire_keeps | apply State.setSat_keeps
    | apply State.coreRun_keeps | apply State.trapWith_keeps | apply State.withVs_keeps | apply RunKeeps.ok
    | apply RunKeeps.error | refine RunKeeps.ofOk (by assumption) ?_ | refine RunKeeps.ofError (by assumption) ?_
    | refine RunKeeps.ofErrorPair (by assumption) ?_ | apply ResKeeps.next | (intro _; skip)
    | (extract_lets +onlyGivenNames xq; refine (fun (hx : Keeps kb ke s xq) => ?_) ?_; rotate_left; dsimp -zeta only [xq]; rotate_left; clear_value xq)
    | (extract_lets +onlyGivenNames xq; (have hq : xq = xq := by (dsimp -zeta only [xq])); clear hq; clear_value xq)
    | refine ResKeeps.ite (fun _ => ?_) (fun _ => ?_) | refine Keeps.ite (fun _ => ?_) (fun _ => ?_) | split
    | exact Keeps.upd (by assumption)

theorem execSetp_keeps (n : CoreId) (vd : Vreg) (va : Vreg) (pg : Preg) (rp : Sreg) (s : State) : ResKeeps kb ke s (execSetp n vd va pg rp s) := by
  have h := State.fresh_keeps (Keeps.refl kb ke s)
  unfold execSetp
  with_reducible repeat' first
    | assumption | apply State.coreRun_keeps | apply State.trapWith_keeps | apply State.vecDone_keeps
    | apply State.withVP_keeps | apply State.withParams_keeps | apply RunKeeps.ok | apply RunKeeps.error
    | apply ResKeeps.next | (intro _; skip)
    | (extract_lets +onlyGivenNames xq; refine (fun (hx : Keeps kb ke s xq) => ?_) ?_; rotate_left; dsimp -zeta only [xq]; rotate_left; clear_value xq)
    | (extract_lets +onlyGivenNames xq; (have hq : xq = xq := by (dsimp -zeta only [xq])); clear hq; clear_value xq)
    | refine ResKeeps.ite (fun _ => ?_) (fun _ => ?_) | refine Keeps.ite (fun _ => ?_) (fun _ => ?_) | split

theorem State.loadDone_keeps (h : Keeps kb ke u0 s) (n : CoreId) (k : LoadKind) (rt : Sreg) (addr : Nat) (raw : Nat) (cyc : Nat) : RunKeeps kb ke u0 (State.loadDone s n k rt addr raw cyc) := by
  unfold State.loadDone
  with_reducible repeat' first
    | assumption | apply State.raise_keeps | apply State.writeS_keeps | apply State.retire_keeps
    | apply State.trapWith_keeps | apply RunKeeps.ok | apply RunKeeps.error
    | refine RunKeeps.ofOk (by assumption) ?_ | refine RunKeeps.ofError (by assumption) ?_
    | refine RunKeeps.ofErrorPair (by assumption) ?_ | refine RunKeeps.ite (fun _ => ?_) (fun _ => ?_)
    | refine Keeps.ite (fun _ => ?_) (fun _ => ?_) | split

theorem State.outsideDmem_keeps (h : Keeps kb ke u0 s) (n : CoreId) (addr : Nat) (w : Stall) : RunKeeps kb ke u0 (State.outsideDmem s n addr w) := by
  unfold State.outsideDmem
  with_reducible repeat' first
    | assumption | apply State.trapWith_keeps | apply State.stallOn_keeps | apply RunKeeps.ok | apply RunKeeps.error
    | refine RunKeeps.ofOk (by assumption) ?_ | refine RunKeeps.ofError (by assumption) ?_
    | refine RunKeeps.ofErrorPair (by assumption) ?_ | dsimp only | refine RunKeeps.ite (fun _ => ?_) (fun _ => ?_)
    | refine Keeps.ite (fun _ => ?_) (fun _ => ?_) | split | exact Keeps.upd (by assumption)

theorem Run.late_keeps {r : Run} (h : RunKeeps kb ke u0 r) (n : CoreId) : RunKeeps kb ke u0 (r.late n) := by
  unfold Run.late
  split
  · exact h
  · exact RunKeeps.error (State.spend_keeps h n 1)

theorem State.loadOp_keeps (h : Keeps kb ke u0 s) (n : CoreId) (k : LoadKind) (rt : Sreg) (ra : Sreg) (off : BitVec 16) : RunKeeps kb ke u0 (State.loadOp s n k rt ra off) := by
  unfold State.loadOp
  with_reducible repeat' first
    | assumption | apply State.withS_keeps | apply State.spend_keeps | apply State.dmemCheck_keeps
    | apply State.trapWith_keeps | apply State.loadDone_keeps | apply State.outsideDmem_keeps | apply Run.late_keeps
    | apply RunKeeps.ok | apply RunKeeps.error | refine RunKeeps.ofOk (by assumption) ?_
    | refine RunKeeps.ofError (by assumption) ?_ | refine RunKeeps.ofErrorPair (by assumption) ?_ | dsimp only
    | (intro _; skip)
    | (extract_lets +onlyGivenNames xq; refine (fun (hx : Keeps kb ke u0 xq) => ?_) ?_; rotate_left; dsimp -zeta only [xq]; rotate_left; clear_value xq)
    | (extract_lets +onlyGivenNames xq; (have hq : xq = xq := by (dsimp -zeta only [xq])); clear hq; clear_value xq)
    | refine RunKeeps.ite (fun _ => ?_) (fun _ => ?_) | refine Keeps.ite (fun _ => ?_) (fun _ => ?_) | split
    | exact Keeps.upd (by assumption)

theorem State.bufferStores_keeps (h : Keeps kb ke u0 s) (n : CoreId) (l : List BufStore) (cyc : Nat) : RunKeeps kb ke u0 (State.bufferStores s n l cyc) := by
  unfold State.bufferStores
  with_reducible repeat' first
    | assumption | apply State.modCore_keeps | apply State.retire_keeps | apply RunKeeps.ok | apply RunKeeps.error
    | refine RunKeeps.ofOk (by assumption) ?_ | refine RunKeeps.ofError (by assumption) ?_
    | refine RunKeeps.ofErrorPair (by assumption) ?_ | dsimp only | (intro _; skip)
    | refine RunKeeps.ite (fun _ => ?_) (fun _ => ?_) | refine Keeps.ite (fun _ => ?_) (fun _ => ?_) | split
    | exact Keeps.upd (by assumption)

theorem State.storeOp_keeps (h : Keeps kb ke u0 s) (n : CoreId) (size : Nat) (rt : Sreg) (ra : Sreg) (off : BitVec 16) : RunKeeps kb ke u0 (State.storeOp s n size rt ra off) := by
  unfold State.storeOp
  with_reducible repeat' first
    | assumption | apply State.spend_keeps | apply State.retire_keeps | apply State.dmemStore_keeps
    | apply State.afterDrain_keeps | apply State.trapWith_keeps | apply State.withSS_keeps
    | apply State.outsideDmem_keeps | apply State.bufferStores_keeps | apply RunKeeps.ok | apply RunKeeps.error
    | refine RunKeeps.ofOk (by assumption) ?_ | refine RunKeeps.ofError (by assumption) ?_
    | refine RunKeeps.ofErrorPair (by assumption) ?_ | dsimp only | (intro _; skip)
    | (extract_lets +onlyGivenNames xq; refine (fun (hx : Keeps kb ke u0 xq) => ?_) ?_; rotate_left; dsimp -zeta only [xq]; rotate_left; clear_value xq)
    | (extract_lets +onlyGivenNames xq; (have hq : xq = xq := by (dsimp -zeta only [xq])); clear hq; clear_value xq)
    | refine RunKeeps.ite (fun _ => ?_) (fun _ => ?_) | refine Keeps.ite (fun _ => ?_) (fun _ => ?_) | split
    | exact Keeps.upd (by assumption)

theorem execLw_keeps (n : CoreId) (rt : Sreg) (ra : Sreg) (off : BitVec 16) (s : State) : ResKeeps kb ke s (execLw n rt ra off s) := by
  have h := State.fresh_keeps (Keeps.refl kb ke s)
  unfold execLw
  with_reducible repeat' first
    | assumption | apply State.coreRun_keeps | apply State.loadOp_keeps | apply RunKeeps.ok | apply RunKeeps.error
    | apply ResKeeps.next | (intro _; skip)

theorem execLh_keeps (n : CoreId) (rt : Sreg) (ra : Sreg) (off : BitVec 16) (s : State) : ResKeeps kb ke s (execLh n rt ra off s) := by
  have h := State.fresh_keeps (Keeps.refl kb ke s)
  unfold execLh
  with_reducible repeat' first
    | assumption | apply State.coreRun_keeps | apply State.loadOp_keeps | apply RunKeeps.ok | apply RunKeeps.error
    | apply ResKeeps.next | (intro _; skip)

theorem execLhu_keeps (n : CoreId) (rt : Sreg) (ra : Sreg) (off : BitVec 16) (s : State) : ResKeeps kb ke s (execLhu n rt ra off s) := by
  have h := State.fresh_keeps (Keeps.refl kb ke s)
  unfold execLhu
  with_reducible repeat' first
    | assumption | apply State.coreRun_keeps | apply State.loadOp_keeps | apply RunKeeps.ok | apply RunKeeps.error
    | apply ResKeeps.next | (intro _; skip)

theorem execLb_keeps (n : CoreId) (rt : Sreg) (ra : Sreg) (off : BitVec 16) (s : State) : ResKeeps kb ke s (execLb n rt ra off s) := by
  have h := State.fresh_keeps (Keeps.refl kb ke s)
  unfold execLb
  with_reducible repeat' first
    | assumption | apply State.coreRun_keeps | apply State.loadOp_keeps | apply RunKeeps.ok | apply RunKeeps.error
    | apply ResKeeps.next | (intro _; skip)

theorem execLbu_keeps (n : CoreId) (rt : Sreg) (ra : Sreg) (off : BitVec 16) (s : State) : ResKeeps kb ke s (execLbu n rt ra off s) := by
  have h := State.fresh_keeps (Keeps.refl kb ke s)
  unfold execLbu
  with_reducible repeat' first
    | assumption | apply State.coreRun_keeps | apply State.loadOp_keeps | apply RunKeeps.ok | apply RunKeeps.error
    | apply ResKeeps.next | (intro _; skip)

theorem execSw_keeps (n : CoreId) (rt : Sreg) (ra : Sreg) (off : BitVec 16) (s : State) : ResKeeps kb ke s (execSw n rt ra off s) := by
  have h := State.fresh_keeps (Keeps.refl kb ke s)
  unfold execSw
  with_reducible repeat' first
    | assumption | apply State.coreRun_keeps | apply State.storeOp_keeps | apply RunKeeps.ok | apply RunKeeps.error
    | apply ResKeeps.next | (intro _; skip)

theorem execSh_keeps (n : CoreId) (rt : Sreg) (ra : Sreg) (off : BitVec 16) (s : State) : ResKeeps kb ke s (execSh n rt ra off s) := by
  have h := State.fresh_keeps (Keeps.refl kb ke s)
  unfold execSh
  with_reducible repeat' first
    | assumption | apply State.coreRun_keeps | apply State.storeOp_keeps | apply RunKeeps.ok | apply RunKeeps.error
    | apply ResKeeps.next | (intro _; skip)

theorem execSb_keeps (n : CoreId) (rt : Sreg) (ra : Sreg) (off : BitVec 16) (s : State) : ResKeeps kb ke s (execSb n rt ra off s) := by
  have h := State.fresh_keeps (Keeps.refl kb ke s)
  unfold execSb
  with_reducible repeat' first
    | assumption | apply State.coreRun_keeps | apply State.storeOp_keeps | apply RunKeeps.ok | apply RunKeeps.error
    | apply ResKeeps.next | (intro _; skip)

theorem execLdSmp_keeps (n : CoreId) (rt : Sreg) (ra : Sreg) (off : BitVec 16) (s : State) : ResKeeps kb ke s (execLdSmp n rt ra off s) := by
  have h := State.fresh_keeps (Keeps.refl kb ke s)
  unfold execLdSmp
  with_reducible repeat' first
    | assumption | apply State.coreRun_keeps | apply State.loadOp_keeps | apply RunKeeps.ok | apply RunKeeps.error
    | apply ResKeeps.next | (intro _; skip)

theorem execVld_keeps (n : CoreId) (vd : Vreg) (ra : Sreg) (off : BitVec 16) (s : State) : ResKeeps kb ke s (execVld n vd ra off s) := by
  have h := State.fresh_keeps (Keeps.refl kb ke s)
  unfold execVld
  with_reducible repeat' first
    | assumption | apply State.withS_keeps | apply State.writeV_keeps | apply State.retire_keeps
    | apply State.withDmem_keeps | apply State.coreRun_keeps | apply State.trapWith_keeps
    | apply State.outsideDmem_keeps | apply Run.late_keeps | apply RunKeeps.ok | apply RunKeeps.error
    | refine RunKeeps.ofOk (by assumption) ?_ | refine RunKeeps.ofError (by assumption) ?_
    | refine RunKeeps.ofErrorPair (by assumption) ?_ | apply ResKeeps.next | (intro _; skip)
    | (extract_lets +onlyGivenNames xq; refine (fun (hx : Keeps kb ke s xq) => ?_) ?_; rotate_left; dsimp -zeta only [xq]; rotate_left; clear_value xq)
    | (extract_lets +onlyGivenNames xq; (have hq : xq = xq := by (dsimp -zeta only [xq])); clear hq; clear_value xq)
    | refine ResKeeps.ite (fun _ => ?_) (fun _ => ?_) | refine Keeps.ite (fun _ => ?_) (fun _ => ?_) | split

theorem execVst_keeps (n : CoreId) (vd : Vreg) (ra : Sreg) (off : BitVec 16) (s : State) : ResKeeps kb ke s (execVst n vd ra off s) := by
  have h := State.fresh_keeps (Keeps.refl kb ke s)
  unfold execVst
  with_reducible repeat' first
    | assumption | apply State.withS_keeps | apply State.withV_keeps | apply State.spend_keeps
    | apply State.retire_keeps | apply State.dmemStore_keeps | apply State.afterDrain_keeps
    | apply State.coreRun_keeps | apply State.trapWith_keeps | apply State.outsideDmem_keeps
    | apply State.bufferStores_keeps | apply RunKeeps.ok | apply RunKeeps.error
    | refine RunKeeps.ofOk (by assumption) ?_ | refine RunKeeps.ofError (by assumption) ?_
    | refine RunKeeps.ofErrorPair (by assumption) ?_ | dsimp only | apply ResKeeps.next | (intro _; skip)
    | (extract_lets +onlyGivenNames xq; refine (fun (hx : Keeps kb ke s xq) => ?_) ?_; rotate_left; dsimp -zeta only [xq]; rotate_left; clear_value xq)
    | (extract_lets +onlyGivenNames xq; (have hq : xq = xq := by (dsimp -zeta only [xq])); clear hq; clear_value xq)
    | refine ResKeeps.ite (fun _ => ?_) (fun _ => ?_) | refine Keeps.ite (fun _ => ?_) (fun _ => ?_) | split
    | exact Keeps.upd (by assumption)

theorem State.withSlot_keeps (h : Keeps kb ke u0 s) (n : CoreId) (slot : Nat) (reg : Sreg) (k : SlotDesc → State → Run) (h_k : ∀ x0 x1, Keeps kb ke u0 x1 → RunKeeps kb ke u0 (k x0 x1)) : RunKeeps kb ke u0 (State.withSlot s n slot reg k) := by
  unfold State.withSlot
  with_reducible repeat' first
    | assumption | apply h_k | apply State.dmemChecks_keeps | apply State.trapWith_keeps | apply RunKeeps.ok
    | apply RunKeeps.error | refine RunKeeps.ofOk (by assumption) ?_ | refine RunKeeps.ofError (by assumption) ?_
    | refine RunKeeps.ofErrorPair (by assumption) ?_ | dsimp only
    | (extract_lets +onlyGivenNames xq; refine (fun (hx : Keeps kb ke u0 xq) => ?_) ?_; rotate_left; dsimp -zeta only [xq]; rotate_left; clear_value xq)
    | (extract_lets +onlyGivenNames xq; (have hq : xq = xq := by (dsimp -zeta only [xq])); clear hq; clear_value xq)
    | refine RunKeeps.ite (fun _ => ?_) (fun _ => ?_) | refine Keeps.ite (fun _ => ?_) (fun _ => ?_) | split
    | exact Keeps.upd (by assumption)

theorem State.ldInSpec_keeps (h : Keeps kb ke u0 s) (n : CoreId) (reg : Sreg) (pv : Preg) (slot : BitVec 8) (d : SlotDesc) : RunKeeps kb ke u0 (State.ldInSpec s n reg pv slot d) := by
  unfold State.ldInSpec
  with_reducible repeat' first
    | assumption | apply State.modCore_keeps | apply State.writeS_keeps | apply State.writeV_keeps
    | apply State.writeP_keeps | apply State.retire_keeps | apply State.setSat_keeps | apply RunKeeps.ok
    | apply RunKeeps.error | refine RunKeeps.ofOk (by assumption) ?_ | refine RunKeeps.ofError (by assumption) ?_
    | refine RunKeeps.ofErrorPair (by assumption) ?_ | dsimp only | (intro _; skip)
    | (extract_lets +onlyGivenNames xq; refine (fun (hx : Keeps kb ke u0 xq) => ?_) ?_; rotate_left; dsimp -zeta only [xq]; rotate_left; clear_value xq)
    | (extract_lets +onlyGivenNames xq; (have hq : xq = xq := by (dsimp -zeta only [xq])); clear hq; clear_value xq)
    | refine RunKeeps.ite (fun _ => ?_) (fun _ => ?_) | refine Keeps.ite (fun _ => ?_) (fun _ => ?_) | split
    | exact Keeps.upd (by assumption)

theorem execLdIn_keeps (n : CoreId) (reg : Sreg) (pv : Preg) (slot : BitVec 8) (s : State) : ResKeeps kb ke s (execLdIn n reg pv slot s) := by
  have h := State.fresh_keeps (Keeps.refl kb ke s)
  unfold execLdIn
  with_reducible repeat' first
    | assumption | apply State.coreRun_keeps | apply State.trapWith_keeps | apply State.stallOn_keeps
    | apply State.ldInFinish_keeps | apply State.withSlot_keeps | apply State.ldInSpec_keeps | apply RunKeeps.ok
    | apply RunKeeps.error | refine RunKeeps.ofOk (by assumption) ?_ | refine RunKeeps.ofError (by assumption) ?_
    | refine RunKeeps.ofErrorPair (by assumption) ?_ | apply ResKeeps.next | (intro _; skip)
    | refine ResKeeps.ite (fun _ => ?_) (fun _ => ?_) | refine Keeps.ite (fun _ => ?_) (fun _ => ?_) | split

theorem execPredSet_keeps (n : CoreId) (slot : BitVec 8) (reg : Sreg) (s : State) : ResKeeps kb ke s (execPredSet n slot reg s) := by
  have h := State.fresh_keeps (Keeps.refl kb ke s)
  unfold execPredSet
  with_reducible repeat' first
    | assumption | apply State.withS_keeps | apply State.withV_keeps | apply State.retire_keeps
    | apply State.setSat_keeps | apply State.performStore_keeps | apply State.afterDrain_keeps
    | apply State.coreRun_keeps | apply State.bufferStores_keeps | apply State.withSlot_keeps | apply RunKeeps.ok
    | apply RunKeeps.error | refine RunKeeps.ofOk (by assumption) ?_ | refine RunKeeps.ofError (by assumption) ?_
    | refine RunKeeps.ofErrorPair (by assumption) ?_ | apply ResKeeps.next | refine Keeps.ofFst (by assumption) ?_
    | refine Keeps.ofSnd (by assumption) ?_ | dsimp only | (intro _; skip)
    | (extract_lets +onlyGivenNames xq; refine (fun (hx : Keeps kb ke s xq) => ?_) ?_; rotate_left; dsimp -zeta only [xq]; rotate_left; clear_value xq)
    | (extract_lets +onlyGivenNames xq; (have hq : xq = xq := by (dsimp -zeta only [xq])); clear hq; clear_value xq)
    | refine ResKeeps.ite (fun _ => ?_) (fun _ => ?_) | refine Keeps.ite (fun _ => ?_) (fun _ => ?_) | split

theorem execEmit_keeps (n : CoreId) (va : Vreg) (pg : Preg) (dest : BitVec 4) (qty : BitVec 4) (s : State) : ResKeeps kb ke s (execEmit n va pg dest qty s) := by
  have h := State.fresh_keeps (Keeps.refl kb ke s)
  unfold execEmit
  with_reducible repeat' first
    | assumption | apply State.modCore_keeps | apply State.emit_keeps | apply State.withV_keeps
    | apply State.withP_keeps | apply State.checked_keeps | apply State.retire_keeps | apply State.coreRun_keeps
    | apply State.trapWith_keeps | apply State.stallOn_keeps | apply State.pushEmit_keeps | apply RunKeeps.ok
    | apply RunKeeps.error | refine RunKeeps.ofOk (by assumption) ?_ | refine RunKeeps.ofError (by assumption) ?_
    | refine RunKeeps.ofErrorPair (by assumption) ?_ | dsimp only | apply ResKeeps.next | (intro _; skip)
    | (extract_lets +onlyGivenNames xq; refine (fun (hx : Keeps kb ke s xq) => ?_) ?_; rotate_left; dsimp -zeta only [xq]; rotate_left; clear_value xq)
    | (extract_lets +onlyGivenNames xq; (have hq : xq = xq := by (dsimp -zeta only [xq])); clear hq; clear_value xq)
    | refine ResKeeps.ite (fun _ => ?_) (fun _ => ?_) | refine Keeps.ite (fun _ => ?_) (fun _ => ?_) | split
    | exact Keeps.upd (by assumption)

theorem execNop_keeps (n : CoreId) (s : State) : ResKeeps kb ke s (execNop n s) := by
  have h := State.fresh_keeps (Keeps.refl kb ke s)
  unfold execNop
  with_reducible repeat' first
    | assumption | apply State.retire_keeps | apply State.coreRun_keeps | apply RunKeeps.ok | apply RunKeeps.error
    | refine RunKeeps.ofOk (by assumption) ?_ | refine RunKeeps.ofError (by assumption) ?_
    | refine RunKeeps.ofErrorPair (by assumption) ?_ | apply ResKeeps.next | (intro _; skip)

theorem execWaitp_keeps (n : CoreId) (s : State) : ResKeeps kb ke s (execWaitp n s) := by
  have h := State.fresh_keeps (Keeps.refl kb ke s)
  unfold execWaitp
  with_reducible repeat' first
    | assumption | apply State.modCore_keeps | apply State.coreRun_keeps | apply State.endRun_keeps
    | apply RunKeeps.ok | apply RunKeeps.error | refine RunKeeps.ofOk (by assumption) ?_
    | refine RunKeeps.ofError (by assumption) ?_ | refine RunKeeps.ofErrorPair (by assumption) ?_ | dsimp only
    | apply ResKeeps.next | (intro _; skip) | refine ResKeeps.ite (fun _ => ?_) (fun _ => ?_)
    | refine Keeps.ite (fun _ => ?_) (fun _ => ?_) | split | exact Keeps.upd (by assumption)

theorem execRett_keeps (n : CoreId) (s : State) : ResKeeps kb ke s (execRett n s) := by
  have h := State.fresh_keeps (Keeps.refl kb ke s)
  unfold execRett
  with_reducible repeat' first
    | assumption | apply State.modCore_keeps | apply State.setCoreState_keeps | apply State.coreRun_keeps
    | apply State.trapWith_keeps | apply RunKeeps.ok | apply RunKeeps.error
    | refine RunKeeps.ofOk (by assumption) ?_ | refine RunKeeps.ofError (by assumption) ?_
    | refine RunKeeps.ofErrorPair (by assumption) ?_ | apply ResKeeps.next | (intro _; skip)
    | refine ResKeeps.ite (fun _ => ?_) (fun _ => ?_) | refine Keeps.ite (fun _ => ?_) (fun _ => ?_) | split
    | exact Keeps.upd (by assumption)

theorem execBrk_keeps (n : CoreId) (s : State) : ResKeeps kb ke s (execBrk n s) := by
  have h := State.fresh_keeps (Keeps.refl kb ke s)
  unfold execBrk
  with_reducible repeat' first
    | assumption | apply State.coreRun_keeps | apply State.trapWith_keeps | apply RunKeeps.ok | apply RunKeeps.error
    | apply ResKeeps.next | (intro _; skip)

theorem execRdsys_keeps (n : CoreId) (rd : Sreg) (sel : BitVec 5) (s : State) : ResKeeps kb ke s (execRdsys n rd sel s) := by
  have h := State.fresh_keeps (Keeps.refl kb ke s)
  unfold execRdsys
  with_reducible repeat' first
    | assumption | apply State.coreRun_keeps | apply State.trapWith_keeps | apply State.intD_keeps
    | apply RunKeeps.ok | apply RunKeeps.error | apply ResKeeps.next | (intro _; skip) | split
    | exact Keeps.upd (by assumption)

theorem State.takeOp_keeps (h : Keeps kb ke u0 s) (n : CoreId) (k : Unit → Run) (h_k : ∀ x0, RunKeeps kb ke u0 (k x0)) : RunKeeps kb ke u0 (State.takeOp s n k) := by
  unfold State.takeOp
  with_reducible repeat' first
    | assumption | apply h_k | apply RunKeeps.ok | apply RunKeeps.error | dsimp only
    | refine RunKeeps.ite (fun _ => ?_) (fun _ => ?_) | refine Keeps.ite (fun _ => ?_) (fun _ => ?_) | split

theorem State.withTake_keeps (h : Keeps kb ke u0 s) (n : CoreId) (v : Word) (ok : Nat → Bool) (k : HandleId → Run) (h_k : ∀ x0, RunKeeps kb ke u0 (k x0)) : RunKeeps kb ke u0 (State.withTake s n v ok k) := by
  unfold State.withTake
  with_reducible repeat' first
    | assumption | apply h_k | apply State.trapWith_keeps | apply RunKeeps.ok | apply RunKeeps.error
    | (extract_lets +onlyGivenNames xq; refine (fun (hx : Keeps kb ke u0 xq) => ?_) ?_; rotate_left; dsimp -zeta only [xq]; rotate_left; clear_value xq)
    | (extract_lets +onlyGivenNames xq; (have hq : xq = xq := by (dsimp -zeta only [xq])); clear hq; clear_value xq)
    | refine RunKeeps.ite (fun _ => ?_) (fun _ => ?_) | refine Keeps.ite (fun _ => ?_) (fun _ => ?_) | split

theorem execTkOpen_keeps (n : CoreId) (rd : Sreg) (s : State) : ResKeeps kb ke s (execTkOpen n rd s) := by
  have h := State.fresh_keeps (Keeps.refl kb ke s)
  unfold execTkOpen
  with_reducible repeat' first
    | assumption | apply State.openTake_keeps | apply State.writeS_keeps | apply State.checked_keeps
    | apply State.retire_keeps | apply State.coreRun_keeps | apply State.takeOp_keeps | apply RunKeeps.ok
    | apply RunKeeps.error | refine RunKeeps.ofOk (by assumption) ?_ | refine RunKeeps.ofError (by assumption) ?_
    | refine RunKeeps.ofErrorPair (by assumption) ?_ | apply ResKeeps.next | refine Keeps.ofFst (by assumption) ?_
    | refine Keeps.ofSnd (by assumption) ?_ | dsimp only | (intro _; skip) | split | exact Keeps.upd (by assumption)

theorem execTkWr_keeps (n : CoreId) (rd : Sreg) (ra : Sreg) (rb : Sreg) (s : State) : ResKeeps kb ke s (execTkWr n rd ra rb s) := by
  have h := State.fresh_keeps (Keeps.refl kb ke s)
  unfold execTkWr
  with_reducible repeat' first
    | assumption | apply State.writeTake_keeps | apply State.withS_keeps | apply State.retire_keeps
    | apply State.coreRun_keeps | apply State.withSS_keeps | apply State.takeOp_keeps | apply State.withTake_keeps
    | apply RunKeeps.ok | apply RunKeeps.error | refine RunKeeps.ofOk (by assumption) ?_
    | refine RunKeeps.ofError (by assumption) ?_ | refine RunKeeps.ofErrorPair (by assumption) ?_
    | apply ResKeeps.next | refine Keeps.ofFst (by assumption) ?_ | refine Keeps.ofSnd (by assumption) ?_
    | dsimp only | (intro _; skip)

theorem execTkPrint_keeps (n : CoreId) (ra : Sreg) (rb : Sreg) (bnd : BitVec 5) (s : State) : ResKeeps kb ke s (execTkPrint n ra rb bnd s) := by
  have h := State.fresh_keeps (Keeps.refl kb ke s)
  unfold execTkPrint
  with_reducible repeat' first
    | assumption | apply State.printTake_keeps | apply State.retire_keeps | apply State.coreRun_keeps
    | apply State.trapWith_keeps | apply State.withSS_keeps | apply State.takeOp_keeps | apply State.withTake_keeps
    | apply RunKeeps.ok | apply RunKeeps.error | refine RunKeeps.ofOk (by assumption) ?_
    | refine RunKeeps.ofError (by assumption) ?_ | refine RunKeeps.ofErrorPair (by assumption) ?_
    | apply ResKeeps.next | (intro _; skip) | refine ResKeeps.ite (fun _ => ?_) (fun _ => ?_)
    | refine Keeps.ite (fun _ => ?_) (fun _ => ?_) | split

theorem execTkCut_keeps (n : CoreId) (ra : Sreg) (s : State) : ResKeeps kb ke s (execTkCut n ra s) := by
  have h := State.fresh_keeps (Keeps.refl kb ke s)
  unfold execTkCut
  with_reducible repeat' first
    | assumption | apply State.cutTake_keeps | apply State.withS_keeps | apply State.retire_keeps
    | apply State.coreRun_keeps | apply State.takeOp_keeps | apply State.withTake_keeps | apply RunKeeps.ok
    | apply RunKeeps.error | refine RunKeeps.ofOk (by assumption) ?_ | refine RunKeeps.ofError (by assumption) ?_
    | refine RunKeeps.ofErrorPair (by assumption) ?_ | apply ResKeeps.next | (intro _; skip)

theorem execTkStat_keeps (n : CoreId) (rd : Sreg) (ra : Sreg) (s : State) : ResKeeps kb ke s (execTkStat n rd ra s) := by
  have h := State.fresh_keeps (Keeps.refl kb ke s)
  unfold execTkStat
  with_reducible repeat' first
    | assumption | apply State.withS_keeps | apply State.coreRun_keeps | apply State.trapWith_keeps
    | apply State.intD_keeps | apply State.takeOp_keeps | apply RunKeeps.ok | apply RunKeeps.error
    | apply ResKeeps.next | (intro _; skip) | refine ResKeeps.ite (fun _ => ?_) (fun _ => ?_)
    | refine Keeps.ite (fun _ => ?_) (fun _ => ?_) | split

end Sys2Proof.Machine
end

