-- ==== Sys2Proof/Laws/KeepsRing.lean ====
section
/-!
SUPPORT. What every operation keeps (`Keeps`): the rings, the cells, time and the local bridge.
-/

namespace Sys2Proof.Machine

set_option linter.unusedVariables false

variable {kb ke : Bool} {u0 s : State}

theorem State.setPortState_keeps (h : Keeps kb ke u0 s) (p : LaneId) (v : Nat) : Keeps kb ke u0 (State.setPortState s p v) := by
  unfold State.setPortState
  with_reducible repeat' first
    | assumption | apply State.fset_keeps

theorem State.refreshRing_keeps (h : Keeps kb ke u0 s) (x : RingId) : Keeps kb ke u0 (State.refreshRing s x) := by
  unfold State.refreshRing
  with_reducible repeat' first
    | assumption | apply State.fset_keeps | apply State.horizonShort_keeps
    | (extract_lets +onlyGivenNames xq; refine (fun (hx : Keeps kb ke u0 xq) => ?_) ?_; rotate_left; dsimp -zeta only [xq]; rotate_left; clear_value xq)
    | (extract_lets +onlyGivenNames xq; (have hq : xq = xq := by (dsimp -zeta only [xq])); clear hq; clear_value xq)
    | refine Keeps.ite (fun _ => ?_) (fun _ => ?_) | split

theorem State.startEnum_keeps (h : Keeps kb ke u0 s) (x : RingId) : Keeps kb ke u0 (State.startEnum s x) := by
  unfold State.startEnum
  with_reducible repeat' first
    | assumption | apply State.modRing_keeps | apply State.sendL0_keeps | (intro _; skip)
    | exact Keeps.upd (by assumption)

theorem State.withdraw_keeps (h : Keeps kb ke u0 s) (x : RingId) (k : CellId) : Keeps kb ke u0 (State.withdraw s x k) := by
  unfold State.withdraw
  with_reducible repeat' first
    | assumption | apply State.modView_keeps | apply State.setMask40_keeps | apply State.setFail_keeps
    | apply State.refreshRing_keeps | (intro _; skip) | exact Keeps.upd (by assumption)

theorem State.sendArm_keeps (h : Keeps kb ke u0 s) (x : RingId) (pos : Nat) : Keeps kb ke u0 (State.sendArm s x pos) := by
  unfold State.sendArm
  with_reducible repeat' first
    | assumption | apply State.sendL0_keeps

theorem State.armRings_keeps (h : Keeps kb ke u0 s) : Keeps kb ke u0 (State.armRings s) := by
  unfold State.armRings
  with_reducible repeat' first
    | assumption | apply State.each_keeps | apply State.modRing_keeps | apply State.sendArm_keeps
    | apply State.each_keeps | (intro _; skip) | refine Keeps.ite (fun _ => ?_) (fun _ => ?_) | split
    | exact Keeps.upd (by assumption)

theorem State.haltReadout_keeps (h : Keeps kb ke u0 s) : Keeps kb ke u0 (State.haltReadout s) := by
  unfold State.haltReadout
  with_reducible repeat' first
    | assumption | apply State.fset_keeps | apply State.raise_keeps | refine Keeps.ite (fun _ => ?_) (fun _ => ?_)
    | split | exact Keeps.upd (by assumption)

theorem State.losePeer_keeps (h : Keeps kb ke u0 s) : Keeps kb ke u0 (State.losePeer s) := by
  unfold State.losePeer
  with_reducible repeat' first
    | assumption | apply State.fset_keeps | apply State.raise_keeps | refine Keeps.ite (fun _ => ?_) (fun _ => ?_)
    | split | exact Keeps.upd (by assumption)

theorem State.peerDown_keeps (h : Keeps kb ke u0 s) (p : LaneId) : Keeps kb ke u0 (State.peerDown s p) := by
  unfold State.peerDown
  with_reducible repeat' first
    | assumption | apply State.losePeer_keeps | refine Keeps.ite (fun _ => ?_) (fun _ => ?_) | split

theorem State.strmLink_keeps (h : Keeps kb ke u0 s) : Keeps kb ke u0 (State.strmLink s) := by
  unfold State.strmLink
  with_reducible repeat' first
    | assumption | apply State.setCond_keeps

theorem State.stopRtime_keeps (h : Keeps kb ke u0 s) : Keeps kb ke u0 (State.stopRtime s) := by
  unfold State.stopRtime
  with_reducible repeat' first
    | assumption | apply State.beginStop_keeps | apply State.setCond_keeps | exact Keeps.upd (by assumption)

theorem State.countHeaders_keeps (h : Keeps kb ke u0 s) (p : LaneId) (l : DataLane) (n : Nat) : Keeps kb ke u0 (State.countHeaders s p l n) := by
  unfold State.countHeaders
  with_reducible repeat' first
    | assumption | apply State.fset_keeps

theorem State.portSticky_keeps (h : Keeps kb ke u0 s) (f : Fld) (p : LaneId) : Keeps kb ke u0 (State.portSticky s f p) := by
  unfold State.portSticky
  with_reducible repeat' first
    | assumption | apply State.fsetBit_keeps | refine Keeps.ite (fun _ => ?_) (fun _ => ?_) | split

theorem State.afterPort_keeps (h : Keeps kb ke u0 s) (p : LaneId) : Keeps kb ke u0 (State.afterPort s p) := by
  unfold State.afterPort
  with_reducible repeat' first
    | assumption | apply State.refreshRing_keeps | apply State.strmLink_keeps
    | refine Keeps.ite (fun _ => ?_) (fun _ => ?_) | split

theorem State.mgmtByte_keeps (h : Keeps kb ke u0 s) (p : LaneId) (byte : BitVec 8) (data : BitVec 8) : Keeps kb ke u0 (State.mgmtByte s p byte data) := by
  unfold State.mgmtByte
  with_reducible repeat' first
    | assumption | apply State.emit_keeps

theorem State.relockDll_keeps (h : Keeps kb ke u0 s) (p : LaneId) : Keeps kb ke u0 (State.relockDll s p) := by
  unfold State.relockDll
  with_reducible repeat' first
    | assumption | apply State.fclrBit_keeps | apply State.modPort_keeps | (intro _; skip)
    | refine Keeps.ite (fun _ => ?_) (fun _ => ?_) | split | exact Keeps.upd (by assumption)

theorem State.startAttempt_keeps (h : Keeps kb ke u0 s) (p : LaneId) : Keeps kb ke u0 (State.startAttempt s p) := by
  unfold State.startAttempt
  with_reducible repeat' first
    | assumption | apply State.each_keeps | apply State.fset_keeps | apply State.modPort_keeps
    | apply State.setPortState_keeps | apply State.afterPort_keeps | apply State.relockDll_keeps
    | apply State.each_keeps | (intro _; skip)
    | (extract_lets +onlyGivenNames xq; refine (fun (hx : Keeps kb ke u0 xq) => ?_) ?_; rotate_left; dsimp -zeta only [xq]; rotate_left; clear_value xq)
    | (extract_lets +onlyGivenNames xq; (have hq : xq = xq := by (dsimp -zeta only [xq])); clear hq; clear_value xq)
    | exact Keeps.upd (by assumption)

theorem State.failPort_keeps (h : Keeps kb ke u0 s) (p : LaneId) (code : Nat) : Keeps kb ke u0 (State.failPort s p code) := by
  unfold State.failPort
  with_reducible repeat' first
    | assumption | apply State.fset_keeps | apply State.modPort_keeps | apply State.setPortState_keeps
    | apply State.haltReadout_keeps | apply State.portSticky_keeps | apply State.afterPort_keeps | (intro _; skip)
    | (extract_lets +onlyGivenNames xq; refine (fun (hx : Keeps kb ke u0 xq) => ?_) ?_; rotate_left; dsimp -zeta only [xq]; rotate_left; clear_value xq)
    | (extract_lets +onlyGivenNames xq; (have hq : xq = xq := by (dsimp -zeta only [xq])); clear hq; clear_value xq)
    | refine Keeps.ite (fun _ => ?_) (fun _ => ?_) | split | exact Keeps.upd (by assumption)

theorem State.enablePort_keeps (h : Keeps kb ke u0 s) (p : LaneId) : Keeps kb ke u0 (State.enablePort s p) := by
  unfold State.enablePort
  with_reducible repeat' first
    | assumption | apply State.fsetBit_keeps | apply State.modPort_keeps | apply State.afterPort_keeps
    | (intro _; skip)
    | (extract_lets +onlyGivenNames xq; refine (fun (hx : Keeps kb ke u0 xq) => ?_) ?_; rotate_left; dsimp -zeta only [xq]; rotate_left; clear_value xq)
    | (extract_lets +onlyGivenNames xq; (have hq : xq = xq := by (dsimp -zeta only [xq])); clear hq; clear_value xq)
    | refine Keeps.ite (fun _ => ?_) (fun _ => ?_) | split | exact Keeps.upd (by assumption)

theorem State.disablePort_keeps (h : Keeps kb ke u0 s) (p : LaneId) : Keeps kb ke u0 (State.disablePort s p) := by
  unfold State.disablePort
  with_reducible repeat' first
    | assumption | apply State.fclrBit_keeps | apply State.modPort_keeps | apply State.setPortState_keeps
    | apply State.haltReadout_keeps | apply State.peerDown_keeps | apply State.afterPort_keeps
    | apply State.mgmtByte_keeps | (intro _; skip)
    | (extract_lets +onlyGivenNames xq; refine (fun (hx : Keeps kb ke u0 xq) => ?_) ?_; rotate_left; dsimp -zeta only [xq]; rotate_left; clear_value xq)
    | (extract_lets +onlyGivenNames xq; (have hq : xq = xq := by (dsimp -zeta only [xq])); clear hq; clear_value xq)
    | refine Keeps.ite (fun _ => ?_) (fun _ => ?_) | split

theorem State.retrainPort_keeps (h : Keeps kb ke u0 s) (p : LaneId) : Keeps kb ke u0 (State.retrainPort s p) := by
  unfold State.retrainPort
  with_reducible repeat' first
    | assumption | apply State.raise_keeps | apply State.haltReadout_keeps | apply State.peerDown_keeps
    | apply State.startAttempt_keeps | (intro _; skip) | refine Keeps.ite (fun _ => ?_) (fun _ => ?_) | split

theorem State.txUp_keeps (h : Keeps kb ke u0 s) (p : LaneId) : Keeps kb ke u0 (State.txUp s p) := by
  unfold State.txUp
  with_reducible repeat' first
    | assumption | apply State.modPort_keeps | apply State.setPortState_keeps | apply State.mgmtByte_keeps
    | (intro _; skip)
    | (extract_lets +onlyGivenNames xq; refine (fun (hx : Keeps kb ke u0 xq) => ?_) ?_; rotate_left; dsimp -zeta only [xq]; rotate_left; clear_value xq)
    | (extract_lets +onlyGivenNames xq; (have hq : xq = xq := by (dsimp -zeta only [xq])); clear hq; clear_value xq)
    | refine Keeps.ite (fun _ => ?_) (fun _ => ?_) | split | exact Keeps.upd (by assumption)

theorem State.moduleReady_keeps (h : Keeps kb ke u0 s) (p : LaneId) (identifier : BitVec 8) (powerClass : BitVec 8) (cdr : Bool) : Keeps kb ke u0 (State.moduleReady s p identifier powerClass cdr) := by
  unfold State.moduleReady
  with_reducible repeat' first
    | assumption | apply State.fset_keeps | apply State.fsetBit_keeps | apply State.modPort_keeps
    | apply State.setPortState_keeps | apply State.mgmtByte_keeps | apply State.txUp_keeps | (intro _; skip)
    | (extract_lets +onlyGivenNames xq; refine (fun (hx : Keeps kb ke u0 xq) => ?_) ?_; rotate_left; dsimp -zeta only [xq]; rotate_left; clear_value xq)
    | (extract_lets +onlyGivenNames xq; (have hq : xq = xq := by (dsimp -zeta only [xq])); clear hq; clear_value xq)
    | refine Keeps.ite (fun _ => ?_) (fun _ => ?_) | split | exact Keeps.upd (by assumption)

theorem State.dllSearch_keeps (h : Keeps kb ke u0 s) (p : LaneId) (delay : Nat) : Keeps kb ke u0 (State.dllSearch s p delay) := by
  unfold State.dllSearch
  with_reducible repeat' first
    | assumption | apply State.advanceTo_keeps | apply State.fset_keeps | apply State.fsetI_keeps
    | apply State.modPort_keeps | (intro _; skip)
    | (extract_lets +onlyGivenNames xq; refine (fun (hx : Keeps kb ke u0 xq) => ?_) ?_; rotate_left; dsimp -zeta only [xq]; rotate_left; clear_value xq)
    | (extract_lets +onlyGivenNames xq; (have hq : xq = xq := by (dsimp -zeta only [xq])); clear hq; clear_value xq)
    | exact Keeps.upd (by assumption)

theorem State.dllMeasure_keeps (h : Keeps kb ke u0 s) (p : LaneId) (err : Int) : Keeps kb ke u0 (State.dllMeasure s p err) := by
  unfold State.dllMeasure
  with_reducible repeat' first
    | assumption | apply State.fsetI_keeps | apply State.modPort_keeps | (intro _; skip)
    | (extract_lets +onlyGivenNames xq; refine (fun (hx : Keeps kb ke u0 xq) => ?_) ?_; rotate_left; dsimp -zeta only [xq]; rotate_left; clear_value xq)
    | (extract_lets +onlyGivenNames xq; (have hq : xq = xq := by (dsimp -zeta only [xq])); clear hq; clear_value xq)
    | exact Keeps.upd (by assumption)

theorem State.dllStep_keeps (h : Keeps kb ke u0 s) (p : LaneId) : Keeps kb ke u0 (State.dllStep s p) := by
  unfold State.dllStep
  with_reducible repeat' first
    | assumption | apply State.fset_keeps | apply State.fsetI_keeps
    | (extract_lets +onlyGivenNames xq; refine (fun (hx : Keeps kb ke u0 xq) => ?_) ?_; rotate_left; dsimp -zeta only [xq]; rotate_left; clear_value xq)
    | (extract_lets +onlyGivenNames xq; (have hq : xq = xq := by (dsimp -zeta only [xq])); clear hq; clear_value xq)
    | refine Keeps.ite (fun _ => ?_) (fun _ => ?_) | split | exact Keeps.upd (by assumption)

theorem State.dllCheck_keeps (h : Keeps kb ke u0 s) (p : LaneId) (err : Int) : Keeps kb ke u0 (State.dllCheck s p err) := by
  unfold State.dllCheck
  with_reducible repeat' first
    | assumption | apply State.advanceTo_keeps | apply State.fsetBit_keeps | apply State.modPort_keeps
    | apply State.txUp_keeps | apply State.dllMeasure_keeps | (intro _; skip)
    | (extract_lets +onlyGivenNames xq; refine (fun (hx : Keeps kb ke u0 xq) => ?_) ?_; rotate_left; dsimp -zeta only [xq]; rotate_left; clear_value xq)
    | (extract_lets +onlyGivenNames xq; (have hq : xq = xq := by (dsimp -zeta only [xq])); clear hq; clear_value xq)
    | refine Keeps.ite (fun _ => ?_) (fun _ => ?_) | split | exact Keeps.upd (by assumption)

theorem State.noteLocks_keeps (h : Keeps kb ke u0 s) (p : LaneId) : Keeps kb ke u0 (State.noteLocks s p) := by
  unfold State.noteLocks
  with_reducible repeat' first
    | assumption | apply State.modPort_keeps | (intro _; skip)
    | (extract_lets +onlyGivenNames xq; refine (fun (hx : Keeps kb ke u0 xq) => ?_) ?_; rotate_left; dsimp -zeta only [xq]; rotate_left; clear_value xq)
    | (extract_lets +onlyGivenNames xq; (have hq : xq = xq := by (dsimp -zeta only [xq])); clear hq; clear_value xq)
    | refine Keeps.ite (fun _ => ?_) (fun _ => ?_) | split | exact Keeps.upd (by assumption)

theorem State.loseRxClock_keeps (h : Keeps kb ke u0 s) (p : LaneId) : Keeps kb ke u0 (State.loseRxClock s p) := by
  unfold State.loseRxClock
  with_reducible repeat' first
    | assumption | apply State.modPort_keeps | apply State.raise_keeps | apply State.peerDown_keeps
    | apply State.portSticky_keeps | (intro _; skip)
    | (extract_lets +onlyGivenNames xq; refine (fun (hx : Keeps kb ke u0 xq) => ?_) ?_; rotate_left; dsimp -zeta only [xq]; rotate_left; clear_value xq)
    | (extract_lets +onlyGivenNames xq; (have hq : xq = xq := by (dsimp -zeta only [xq])); clear hq; clear_value xq)
    | exact Keeps.upd (by assumption)

theorem State.setEye_keeps (h : Keeps kb ke u0 s) (p : LaneId) (lane : DataLane) (phase : Nat) (eye : Nat) : Keeps kb ke u0 (State.setEye s p lane phase eye) := by
  unfold State.setEye
  with_reducible repeat' first
    | assumption | apply State.fset_keeps | apply State.modPort_keeps | (intro _; skip)
    | exact Keeps.upd (by assumption)

theorem State.gainLock_keeps (h : Keeps kb ke u0 s) (p : LaneId) (lane : DataLane) (phase : Nat) (eye : Nat) : Keeps kb ke u0 (State.gainLock s p lane phase eye) := by
  unfold State.gainLock
  with_reducible repeat' first
    | assumption | apply State.fset_keeps | apply State.modPort_keeps | apply State.setPortState_keeps
    | apply State.noteLocks_keeps | apply State.setEye_keeps | (intro _; skip)
    | (extract_lets +onlyGivenNames xq; refine (fun (hx : Keeps kb ke u0 xq) => ?_) ?_; rotate_left; dsimp -zeta only [xq]; rotate_left; clear_value xq)
    | (extract_lets +onlyGivenNames xq; (have hq : xq = xq := by (dsimp -zeta only [xq])); clear hq; clear_value xq)
    | refine Keeps.ite (fun _ => ?_) (fun _ => ?_) | split

theorem State.loseLock_keeps (h : Keeps kb ke u0 s) (p : LaneId) (lane : DataLane) : Keeps kb ke u0 (State.loseLock s p lane) := by
  unfold State.loseLock
  with_reducible repeat' first
    | assumption | apply State.modPort_keeps | apply State.raise_keeps | apply State.peerDown_keeps
    | apply State.countHeaders_keeps | apply State.portSticky_keeps | apply State.noteLocks_keeps | (intro _; skip)
    | (extract_lets +onlyGivenNames xq; refine (fun (hx : Keeps kb ke u0 xq) => ?_) ?_; rotate_left; dsimp -zeta only [xq]; rotate_left; clear_value xq)
    | (extract_lets +onlyGivenNames xq; (have hq : xq = xq := by (dsimp -zeta only [xq])); clear hq; clear_value xq)

theorem State.trackLow_keeps (h : Keeps kb ke u0 s) (p : LaneId) (l : DataLane) (n : Nat) : Keeps kb ke u0 (State.trackLow s p l n) := by
  unfold State.trackLow
  with_reducible repeat' first
    | assumption | apply State.fset_keeps | apply State.modPort_keeps | apply State.portSticky_keeps
    | (intro _; skip)
    | (extract_lets +onlyGivenNames xq; refine (fun (hx : Keeps kb ke u0 xq) => ?_) ?_; rotate_left; dsimp -zeta only [xq]; rotate_left; clear_value xq)
    | (extract_lets +onlyGivenNames xq; (have hq : xq = xq := by (dsimp -zeta only [xq])); clear hq; clear_value xq)
    | refine Keeps.ite (fun _ => ?_) (fun _ => ?_) | split | exact Keeps.upd (by assumption)

theorem State.trackStep_keeps (h : Keeps kb ke u0 s) (p : LaneId) : Keeps kb ke u0 (State.trackStep s p) := by
  unfold State.trackStep
  with_reducible repeat' first
    | assumption | apply State.each_keeps | apply State.fset_keeps | apply State.modPort_keeps
    | apply State.each_keeps | (intro _; skip)
    | (extract_lets +onlyGivenNames xq; refine (fun (hx : Keeps kb ke u0 xq) => ?_) ?_; rotate_left; dsimp -zeta only [xq]; rotate_left; clear_value xq)
    | (extract_lets +onlyGivenNames xq; (have hq : xq = xq := by (dsimp -zeta only [xq])); clear hq; clear_value xq)
    | refine Keeps.ite (fun _ => ?_) (fun _ => ?_) | split | exact Keeps.upd (by assumption)

theorem State.laneIn_keeps (h : Keeps kb ke u0 s) (p : LaneId) (lane : DataLane) (bs : List LineBlock) : Keeps kb ke u0 (State.laneIn s p lane bs).1 := by
  unfold State.laneIn
  with_reducible repeat' first
    | assumption | apply State.modPort_keeps | apply State.raise_keeps | apply State.countHeaders_keeps
    | refine Keeps.ofFst (by assumption) ?_ | refine Keeps.ofSnd (by assumption) ?_ | dsimp only | (intro _; skip)
    | (extract_lets +onlyGivenNames xq; refine (fun (hx : Keeps kb ke u0 xq) => ?_) ?_; rotate_left; dsimp -zeta only [xq]; rotate_left; clear_value xq)
    | (extract_lets +onlyGivenNames xq; (have hq : xq = xq := by (dsimp -zeta only [xq])); clear hq; clear_value xq)
    | refine Keeps.iteFst (fun _ => ?_) (fun _ => ?_) | refine Keeps.ite (fun _ => ?_) (fun _ => ?_) | split
    | exact Keeps.upd (by assumption)

theorem State.framesOf_keeps (h : Keeps kb ke u0 s) (p : LaneId) (typ : Nat) (bs : List LineBlock) (full : Bool) (take : RingId → Frame → State → State) (h_take : ∀ x0 x1 x2, Keeps kb ke u0 x2 → Keeps kb ke u0 (take x0 x1 x2)) : Keeps kb ke u0 (State.framesOf s p typ bs full take) := by
  unfold State.framesOf
  with_reducible repeat' first
    | assumption | apply h_take | apply State.modPort_keeps | apply State.raise_keeps | apply State.laneIn_keeps
    | refine Keeps.ofFst (by assumption) ?_ | refine Keeps.ofSnd (by assumption) ?_ | dsimp only
    | apply Keeps.foldlFst | apply Keeps.foldl | (intro _; skip)
    | (extract_lets +onlyGivenNames xq; refine (fun (hx : Keeps kb ke u0 xq) => ?_) ?_; rotate_left; dsimp -zeta only [xq]; rotate_left; clear_value xq)
    | (extract_lets +onlyGivenNames xq; (have hq : xq = xq := by (dsimp -zeta only [xq])); clear hq; clear_value xq)
    | refine Keeps.ite (fun _ => ?_) (fun _ => ?_) | split | exact Keeps.upd (by assumption)

theorem State.enterTrained_keeps (h : Keeps kb ke u0 s) (p : LaneId) : Keeps kb ke u0 (s.enterTrained p) := by
  unfold State.enterTrained
  extract_lets s1 q s2
  have h1 : Keeps kb ke u0 s1 := State.afterPort_keeps (State.fset_keeps (State.setPortState_keeps h p _) _ _) p
  have h2 : Keeps kb ke u0 s2 := Keeps.ite (fun _ => State.fset_keeps (Keeps.upd h1) _ _) (fun _ => h1)
  split
  · exact Keeps.ite (fun _ => State.startEnum_keeps h2 _) (fun _ => h2)
  · exact h2

theorem execTrainingAttempt_keeps (p : LaneId) (s : State) : ResKeeps kb ke s (execTrainingAttempt p s) := by
  have h := State.fresh_keeps (Keeps.refl kb ke s)
  unfold execTrainingAttempt
  with_reducible repeat' first
    | assumption | apply State.advanceTo_keeps | apply State.fresh_keeps | apply State.startAttempt_keeps
    | apply RunKeeps.ok | apply RunKeeps.error | apply ResKeeps.next
    | (extract_lets +onlyGivenNames xq; refine (fun (hx : Keeps kb ke s xq) => ?_) ?_; rotate_left; dsimp -zeta only [xq]; rotate_left; clear_value xq)
    | (extract_lets +onlyGivenNames xq; (have hq : xq = xq := by (dsimp -zeta only [xq])); clear hq; clear_value xq)
    | refine ResKeeps.ite (fun _ => ?_) (fun _ => ?_) | refine Keeps.ite (fun _ => ?_) (fun _ => ?_) | split

theorem execModuleReady_keeps (p : LaneId) (identifier : BitVec 8) (powerClass : BitVec 8) (cdrControl : Bool) (s : State) : ResKeeps kb ke s (execModuleReady p identifier powerClass cdrControl s) := by
  have h := State.fresh_keeps (Keeps.refl kb ke s)
  unfold execModuleReady
  with_reducible repeat' first
    | assumption | apply State.fresh_keeps | apply State.moduleReady_keeps | apply RunKeeps.ok
    | apply RunKeeps.error | apply ResKeeps.next
    | (extract_lets +onlyGivenNames xq; refine (fun (hx : Keeps kb ke s xq) => ?_) ?_; rotate_left; dsimp -zeta only [xq]; rotate_left; clear_value xq)
    | (extract_lets +onlyGivenNames xq; (have hq : xq = xq := by (dsimp -zeta only [xq])); clear hq; clear_value xq)
    | refine ResKeeps.ite (fun _ => ?_) (fun _ => ?_) | refine Keeps.ite (fun _ => ?_) (fun _ => ?_) | split

theorem execTrainingTimeout_keeps (p : LaneId) (s : State) (present : Bool := true) (eyes : List Nat := [0, 0, 0]) : ResKeeps kb ke s (execTrainingTimeout p s present eyes) := by
  have h := State.fresh_keeps (Keeps.refl kb ke s)
  unfold execTrainingTimeout
  with_reducible repeat' first
    | assumption | apply State.advanceTo_keeps | apply State.each_keeps | apply State.fset_keeps
    | apply State.fputBit_keeps | apply State.fresh_keeps | apply State.failPort_keeps | apply RunKeeps.ok
    | apply RunKeeps.error | apply ResKeeps.next | apply State.each_keeps | (intro _; skip)
    | (extract_lets +onlyGivenNames xq; refine (fun (hx : Keeps kb ke s xq) => ?_) ?_; rotate_left; dsimp -zeta only [xq]; rotate_left; clear_value xq)
    | (extract_lets +onlyGivenNames xq; (have hq : xq = xq := by (dsimp -zeta only [xq])); clear hq; clear_value xq)
    | refine ResKeeps.ite (fun _ => ?_) (fun _ => ?_) | refine Keeps.ite (fun _ => ?_) (fun _ => ?_) | split

theorem execTrainingRetry_keeps (p : LaneId) (s : State) : ResKeeps kb ke s (execTrainingRetry p s) := by
  have h := State.fresh_keeps (Keeps.refl kb ke s)
  unfold execTrainingRetry
  with_reducible repeat' first
    | assumption | apply State.advanceTo_keeps | apply State.fresh_keeps | apply State.startAttempt_keeps
    | apply RunKeeps.ok | apply RunKeeps.error | apply ResKeeps.next
    | (extract_lets +onlyGivenNames xq; refine (fun (hx : Keeps kb ke s xq) => ?_) ?_; rotate_left; dsimp -zeta only [xq]; rotate_left; clear_value xq)
    | (extract_lets +onlyGivenNames xq; (have hq : xq = xq := by (dsimp -zeta only [xq])); clear hq; clear_value xq)
    | refine ResKeeps.ite (fun _ => ?_) (fun _ => ?_) | refine Keeps.ite (fun _ => ?_) (fun _ => ?_) | split

theorem execPortTrained_keeps (p : LaneId) (skew : Nat) (s : State) : ResKeeps kb ke s (execPortTrained p skew s) := by
  have h := State.fresh_keeps (Keeps.refl kb ke s)
  exact ResKeeps.next (Keeps.ite (fun _ => State.enterTrained_keeps h p) (fun _ => h))

theorem execRxClockPresent_keeps (p : LaneId) (s : State) (ppb : Int := 0) : ResKeeps kb ke s (execRxClockPresent p s ppb) := by
  have h := State.fresh_keeps (Keeps.refl kb ke s)
  unfold execRxClockPresent
  with_reducible repeat' first
    | assumption | apply State.modPort_keeps | apply State.fresh_keeps | apply State.setPortState_keeps
    | apply State.noteLocks_keeps | apply RunKeeps.ok | apply RunKeeps.error | apply ResKeeps.next | (intro _; skip)
    | refine ResKeeps.ite (fun _ => ?_) (fun _ => ?_) | refine Keeps.ite (fun _ => ?_) (fun _ => ?_)
    | (extract_lets +onlyGivenNames xq; refine (fun (hx : Keeps kb ke s xq) => ?_) ?_; rotate_left; dsimp -zeta only [xq]; rotate_left; clear_value xq)
    | (extract_lets +onlyGivenNames xq; (have hq : xq = xq := by (dsimp -zeta only [xq])); clear hq; clear_value xq)
    | split | apply Keeps.upd

theorem execRxclkLost_keeps (p : LaneId) (s : State) : ResKeeps kb ke s (execRxclkLost p s) := by
  have h := State.fresh_keeps (Keeps.refl kb ke s)
  unfold execRxclkLost
  with_reducible repeat' first
    | assumption | apply State.fresh_keeps | apply State.afterPort_keeps | apply State.loseRxClock_keeps
    | apply RunKeeps.ok | apply RunKeeps.error | apply ResKeeps.next
    | (extract_lets +onlyGivenNames xq; refine (fun (hx : Keeps kb ke s xq) => ?_) ?_; rotate_left; dsimp -zeta only [xq]; rotate_left; clear_value xq)
    | (extract_lets +onlyGivenNames xq; (have hq : xq = xq := by (dsimp -zeta only [xq])); clear hq; clear_value xq)
    | refine ResKeeps.ite (fun _ => ?_) (fun _ => ?_) | refine Keeps.ite (fun _ => ?_) (fun _ => ?_) | split

theorem execBlockLockGained_keeps (p : LaneId) (lane : DataLane) (phase : Nat) (eye : Nat) (s : State) : ResKeeps kb ke s (execBlockLockGained p lane phase eye s) := by
  have h := State.fresh_keeps (Keeps.refl kb ke s)
  unfold execBlockLockGained
  with_reducible repeat' first
    | assumption | apply State.fresh_keeps | apply State.gainLock_keeps | apply RunKeeps.ok | apply RunKeeps.error
    | apply ResKeeps.next
    | (extract_lets +onlyGivenNames xq; refine (fun (hx : Keeps kb ke s xq) => ?_) ?_; rotate_left; dsimp -zeta only [xq]; rotate_left; clear_value xq)
    | (extract_lets +onlyGivenNames xq; (have hq : xq = xq := by (dsimp -zeta only [xq])); clear hq; clear_value xq)
    | refine ResKeeps.ite (fun _ => ?_) (fun _ => ?_) | refine Keeps.ite (fun _ => ?_) (fun _ => ?_) | split

theorem execBlklockLost_keeps (p : LaneId) (lane : DataLane) (s : State) : ResKeeps kb ke s (execBlklockLost p lane s) := by
  have h := State.fresh_keeps (Keeps.refl kb ke s)
  unfold execBlklockLost
  with_reducible repeat' first
    | assumption | apply State.fresh_keeps | apply State.afterPort_keeps | apply State.loseLock_keeps
    | apply RunKeeps.ok | apply RunKeeps.error | apply ResKeeps.next
    | (extract_lets +onlyGivenNames xq; refine (fun (hx : Keeps kb ke s xq) => ?_) ?_; rotate_left; dsimp -zeta only [xq]; rotate_left; clear_value xq)
    | (extract_lets +onlyGivenNames xq; (have hq : xq = xq := by (dsimp -zeta only [xq])); clear hq; clear_value xq)
    | refine ResKeeps.ite (fun _ => ?_) (fun _ => ?_) | refine Keeps.ite (fun _ => ?_) (fun _ => ?_) | split

theorem State.loseTrained_keeps (h : Keeps kb ke u0 s) (p : LaneId) (code : Nat) : Keeps kb ke u0 (State.loseTrained s p code) := by
  unfold State.loseTrained
  with_reducible repeat' first
    | assumption | apply State.raise_keeps | apply State.peerDown_keeps | apply State.failPort_keeps

theorem execPortFailed_keeps (p : LaneId) (cause : PortFault) (s : State) : ResKeeps kb ke s (execPortFailed p cause s) := by
  have h := State.fresh_keeps (Keeps.refl kb ke s)
  unfold execPortFailed
  with_reducible repeat' first
    | assumption | apply State.advanceTo_keeps | apply State.fclrBit_keeps | apply State.fresh_keeps
    | apply State.loseTrained_keeps | apply RunKeeps.ok | apply RunKeeps.error | apply ResKeeps.next
    | (extract_lets +onlyGivenNames xq; refine (fun (hx : Keeps kb ke s xq) => ?_) ?_; rotate_left; dsimp -zeta only [xq]; rotate_left; clear_value xq)
    | (extract_lets +onlyGivenNames xq; (have hq : xq = xq := by (dsimp -zeta only [xq])); clear hq; clear_value xq)
    | refine ResKeeps.ite (fun _ => ?_) (fun _ => ?_) | refine Keeps.ite (fun _ => ?_) (fun _ => ?_) | split
    | exact Keeps.upd (by assumption)

theorem execDllLock_keeps (p : LaneId) (delayPs : Nat) (s : State) : ResKeeps kb ke s (execDllLock p delayPs s) := by
  have h := State.fresh_keeps (Keeps.refl kb ke s)
  unfold execDllLock
  with_reducible repeat' first
    | assumption | apply State.fresh_keeps | apply State.dllSearch_keeps | apply RunKeeps.ok | apply RunKeeps.error
    | apply ResKeeps.next
    | (extract_lets +onlyGivenNames xq; refine (fun (hx : Keeps kb ke s xq) => ?_) ?_; rotate_left; dsimp -zeta only [xq]; rotate_left; clear_value xq)
    | (extract_lets +onlyGivenNames xq; (have hq : xq = xq := by (dsimp -zeta only [xq])); clear hq; clear_value xq)
    | refine ResKeeps.ite (fun _ => ?_) (fun _ => ?_) | refine Keeps.ite (fun _ => ?_) (fun _ => ?_) | split

theorem execDllGateOpen_keeps (p : LaneId) (errorPs : Int) (s : State) : ResKeeps kb ke s (execDllGateOpen p errorPs s) := by
  have h := State.fresh_keeps (Keeps.refl kb ke s)
  unfold execDllGateOpen
  with_reducible repeat' first
    | assumption | apply State.fresh_keeps | apply State.dllCheck_keeps | apply RunKeeps.ok | apply RunKeeps.error
    | apply ResKeeps.next
    | (extract_lets +onlyGivenNames xq; refine (fun (hx : Keeps kb ke s xq) => ?_) ?_; rotate_left; dsimp -zeta only [xq]; rotate_left; clear_value xq)
    | (extract_lets +onlyGivenNames xq; (have hq : xq = xq := by (dsimp -zeta only [xq])); clear hq; clear_value xq)
    | refine ResKeeps.ite (fun _ => ?_) (fun _ => ?_) | refine Keeps.ite (fun _ => ?_) (fun _ => ?_) | split

theorem execDllLossOfLock_keeps (p : LaneId) (errorPs : Int) (s : State) : ResKeeps kb ke s (execDllLossOfLock p errorPs s) := by
  have h := State.fresh_keeps (Keeps.refl kb ke s)
  unfold execDllLossOfLock
  with_reducible repeat' first
    | assumption | apply State.fsetBit_keeps | apply State.fresh_keeps | apply State.raise_keeps
    | apply State.relockDll_keeps | apply State.dllMeasure_keeps | apply RunKeeps.ok | apply RunKeeps.error
    | apply ResKeeps.next
    | (extract_lets +onlyGivenNames xq; refine (fun (hx : Keeps kb ke s xq) => ?_) ?_; rotate_left; dsimp -zeta only [xq]; rotate_left; clear_value xq)
    | (extract_lets +onlyGivenNames xq; (have hq : xq = xq := by (dsimp -zeta only [xq])); clear hq; clear_value xq)
    | refine ResKeeps.ite (fun _ => ?_) (fun _ => ?_) | refine Keeps.ite (fun _ => ?_) (fun _ => ?_) | split

theorem State.showSpare_keeps (h : Keeps kb ke u0 s) : Keeps kb ke u0 (State.showSpare s) := by
  unfold State.showSpare
  with_reducible repeat' first
    | assumption | apply State.fset_keeps | refine Keeps.ite (fun _ => ?_) (fun _ => ?_) | split

theorem State.switchReference_keeps (h : Keeps kb ke u0 s) : Keeps kb ke u0 (State.switchReference s) := by
  unfold State.switchReference
  with_reducible repeat' first
    | assumption | apply State.each_keeps | apply State.fset_keeps | apply State.relockDll_keeps
    | apply State.showSpare_keeps | apply State.each_keeps | (intro _; skip)

theorem execMainOscillatorFail_keeps (s : State) (lasts : Nat := 0) : ResKeeps kb ke s (execMainOscillatorFail s lasts) := by
  have h := State.fresh_keeps (Keeps.refl kb ke s)
  unfold execMainOscillatorFail
  with_reducible repeat' first
    | assumption | apply State.fset_keeps | apply State.fresh_keeps | apply State.raise_keeps
    | apply State.stopRtime_keeps | apply State.showSpare_keeps | apply RunKeeps.ok | apply RunKeeps.error
    | apply ResKeeps.next | refine ResKeeps.ite (fun _ => ?_) (fun _ => ?_)
    | refine Keeps.ite (fun _ => ?_) (fun _ => ?_)
    | (extract_lets +onlyGivenNames xq; refine (fun (hx : Keeps kb ke s xq) => ?_) ?_; rotate_left; dsimp -zeta only [xq]; rotate_left; clear_value xq)
    | (extract_lets +onlyGivenNames xq; (have hq : xq = xq := by (dsimp -zeta only [xq])); clear hq; clear_value xq)
    | split | exact Keeps.upd (by assumption)

theorem execSpareOscillatorFail_keeps (s : State) (lasts : Nat := 0) : ResKeeps kb ke s (execSpareOscillatorFail s lasts) := by
  have h := State.fresh_keeps (Keeps.refl kb ke s)
  unfold execSpareOscillatorFail
  with_reducible repeat' first
    | assumption | apply State.fset_keeps | apply State.fresh_keeps | apply State.raise_keeps
    | apply State.showSpare_keeps | apply RunKeeps.ok | apply RunKeeps.error | apply ResKeeps.next
    | (extract_lets +onlyGivenNames xq; refine (fun (hx : Keeps kb ke s xq) => ?_) ?_; rotate_left; dsimp -zeta only [xq]; rotate_left; clear_value xq)
    | (extract_lets +onlyGivenNames xq; (have hq : xq = xq := by (dsimp -zeta only [xq])); clear hq; clear_value xq)
    | refine ResKeeps.ite (fun _ => ?_) (fun _ => ?_) | refine Keeps.ite (fun _ => ?_) (fun _ => ?_) | split
    | exact Keeps.upd (by assumption)

theorem State.refreshExtLock_keeps (h : Keeps kb ke u0 s) : Keeps kb ke u0 (State.refreshExtLock s) := by
  unfold State.refreshExtLock
  with_reducible repeat' first
    | assumption | apply State.fset_keeps | refine Keeps.ite (fun _ => ?_) (fun _ => ?_) | split

theorem State.setSteer_keeps (h : Keeps kb ke u0 s) (v : Int) : Keeps kb ke u0 (State.setSteer s v) := by
  unfold State.setSteer
  with_reducible repeat' first
    | assumption | apply State.fsetI_keeps | exact Keeps.upd (by assumption)

theorem State.steerStep_keeps (h : Keeps kb ke u0 s) : Keeps kb ke u0 (State.steerStep s) := by
  unfold State.steerStep
  with_reducible repeat' first
    | assumption | apply State.setSteer_keeps
    | (extract_lets +onlyGivenNames xq; refine (fun (hx : Keeps kb ke u0 xq) => ?_) ?_; rotate_left; dsimp -zeta only [xq]; rotate_left; clear_value xq)
    | (extract_lets +onlyGivenNames xq; (have hq : xq = xq := by (dsimp -zeta only [xq])); clear hq; clear_value xq)
    | refine Keeps.ite (fun _ => ?_) (fun _ => ?_) | split

theorem State.followPeer_keeps (h : Keeps kb ke u0 s) : Keeps kb ke u0 (State.followPeer s) := by
  unfold State.followPeer
  with_reducible repeat' first
    | assumption | apply State.setSteer_keeps | refine Keeps.ite (fun _ => ?_) (fun _ => ?_) | split

theorem execExtReferenceLost_keeps (s : State) : ResKeeps kb ke s (execExtReferenceLost s) := by
  have h := State.fresh_keeps (Keeps.refl kb ke s)
  unfold execExtReferenceLost
  with_reducible repeat' first
    | assumption | apply State.fset_keeps | apply State.fresh_keeps | apply State.raise_keeps
    | apply State.refreshExtLock_keeps | apply RunKeeps.ok | apply RunKeeps.error | apply ResKeeps.next
    | refine ResKeeps.ite (fun _ => ?_) (fun _ => ?_) | refine Keeps.ite (fun _ => ?_) (fun _ => ?_)
    | (extract_lets +onlyGivenNames xq; refine (fun (hx : Keeps kb ke s xq) => ?_) ?_; rotate_left; dsimp -zeta only [xq]; rotate_left; clear_value xq)
    | (extract_lets +onlyGivenNames xq; (have hq : xq = xq := by (dsimp -zeta only [xq])); clear hq; clear_value xq)
    | split | exact Keeps.upd (by assumption)

theorem execExtReferenceReturn_keeps (s : State) (ppb : Int := 0) : ResKeeps kb ke s (execExtReferenceReturn s ppb) := by
  have h := State.fresh_keeps (Keeps.refl kb ke s)
  unfold execExtReferenceReturn
  with_reducible repeat' first
    | assumption | apply State.fset_keeps | apply State.fresh_keeps | apply State.refreshExtLock_keeps
    | apply RunKeeps.ok | apply RunKeeps.error | apply ResKeeps.next
    | (extract_lets +onlyGivenNames xq; refine (fun (hx : Keeps kb ke s xq) => ?_) ?_; rotate_left; dsimp -zeta only [xq]; rotate_left; clear_value xq)
    | (extract_lets +onlyGivenNames xq; (have hq : xq = xq := by (dsimp -zeta only [xq])); clear hq; clear_value xq)
    | refine ResKeeps.ite (fun _ => ?_) (fun _ => ?_) | refine Keeps.ite (fun _ => ?_) (fun _ => ?_) | split
    | exact Keeps.upd (by assumption)

theorem execTrkFreeze_keeps (p : LaneId) (lane : DataLane) (s : State) (windows : Option Nat := none) : ResKeeps kb ke s (execTrkFreeze p lane s windows) := by
  have h := State.fresh_keeps (Keeps.refl kb ke s)
  unfold execTrkFreeze
  with_reducible repeat' first
    | assumption | apply State.advanceTo_keeps | apply State.fresh_keeps | apply State.trackLow_keeps
    | apply RunKeeps.ok | apply RunKeeps.error | apply ResKeeps.next
    | (extract_lets +onlyGivenNames xq; refine (fun (hx : Keeps kb ke s xq) => ?_) ?_; rotate_left; dsimp -zeta only [xq]; rotate_left; clear_value xq)
    | (extract_lets +onlyGivenNames xq; (have hq : xq = xq := by (dsimp -zeta only [xq])); clear hq; clear_value xq)
    | refine ResKeeps.ite (fun _ => ?_) (fun _ => ?_) | refine Keeps.ite (fun _ => ?_) (fun _ => ?_) | split
    | exact Keeps.upd (by assumption)

theorem execTrackerResume_keeps (p : LaneId) (lane : DataLane) (s : State) (centre : BitVec 6 := 0) : ResKeeps kb ke s (execTrackerResume p lane s centre) := by
  have h := State.fresh_keeps (Keeps.refl kb ke s)
  unfold execTrackerResume
  with_reducible repeat' first
    | assumption | apply State.fset_keeps | apply State.modPort_keeps | apply State.fresh_keeps | apply RunKeeps.ok
    | apply RunKeeps.error | apply ResKeeps.next | (intro _; skip)
    | (extract_lets +onlyGivenNames xq; refine (fun (hx : Keeps kb ke s xq) => ?_) ?_; rotate_left; dsimp -zeta only [xq]; rotate_left; clear_value xq)
    | (extract_lets +onlyGivenNames xq; (have hq : xq = xq := by (dsimp -zeta only [xq])); clear hq; clear_value xq)
    | refine ResKeeps.ite (fun _ => ?_) (fun _ => ?_) | refine Keeps.ite (fun _ => ?_) (fun _ => ?_) | split
    | exact Keeps.upd (by assumption)

theorem State.ringCycle_keeps (h : Keeps kb ke u0 s) : Keeps kb ke u0 (State.ringCycle s) := by
  unfold State.ringCycle
  with_reducible repeat' first
    | assumption | apply State.applyLiveBlock_keeps | exact Keeps.upd (by assumption)

theorem State.ringDue_keeps (h : Keeps kb ke u0 s) : Keeps kb ke u0 (State.ringDue s) := by
  unfold State.ringDue
  with_reducible repeat' first
    | assumption | apply State.ringCycle_keeps | refine Keeps.ite (fun _ => ?_) (fun _ => ?_) | split

theorem State.mgmtGo_keeps (h : Keeps kb ke u0 s) (p : LaneId) : Keeps kb ke u0 (State.mgmtGo s p) := by
  unfold State.mgmtGo
  with_reducible repeat' first
    | assumption | apply State.fset_keeps | apply State.emit_keeps
    | (extract_lets +onlyGivenNames xq; refine (fun (hx : Keeps kb ke u0 xq) => ?_) ?_; rotate_left; dsimp -zeta only [xq]; rotate_left; clear_value xq)
    | (extract_lets +onlyGivenNames xq; (have hq : xq = xq := by (dsimp -zeta only [xq])); clear hq; clear_value xq)
    | refine Keeps.ite (fun _ => ?_) (fun _ => ?_) | split

theorem execMgmtTransferDone_keeps (p : LaneId) (data : BitVec 8) (s : State) : ResKeeps kb ke s (execMgmtTransferDone p data s) := by
  have h := State.fresh_keeps (Keeps.refl kb ke s)
  unfold execMgmtTransferDone
  with_reducible repeat' first
    | assumption | apply State.fset_keeps | apply State.fresh_keeps | apply State.ringCycle_keeps
    | apply RunKeeps.ok | apply RunKeeps.error | apply ResKeeps.next
    | (extract_lets +onlyGivenNames xq; refine (fun (hx : Keeps kb ke s xq) => ?_) ?_; rotate_left; dsimp -zeta only [xq]; rotate_left; clear_value xq)
    | (extract_lets +onlyGivenNames xq; (have hq : xq = xq := by (dsimp -zeta only [xq])); clear hq; clear_value xq)
    | refine ResKeeps.ite (fun _ => ?_) (fun _ => ?_) | refine Keeps.ite (fun _ => ?_) (fun _ => ?_) | split

theorem State.setCellReg_keeps (h : Keeps kb ke u0 s) (x : RingId) (k : CellId) (a : Nat) (v : Word) : Keeps kb ke u0 (State.setCellReg s x k a v) := by
  unfold State.setCellReg
  with_reducible repeat' first
    | assumption | apply State.modCell_keeps | (intro _; skip) | exact Keeps.upd (by assumption)

theorem State.cellEvent_keeps (h : Keeps kb ke u0 s) (x : RingId) (k : CellId) (code : BitVec 8) : Keeps kb ke u0 (State.cellEvent s x k code) := by
  unfold State.cellEvent
  with_reducible repeat' first
    | assumption | apply State.modCell_keeps | apply State.freshValue_keeps | apply State.setCellReg_keeps
    | refine Keeps.ofFst (by assumption) ?_ | refine Keeps.ofSnd (by assumption) ?_ | dsimp only | (intro _; skip)
    | (extract_lets +onlyGivenNames xq; refine (fun (hx : Keeps kb ke u0 xq) => ?_) ?_; rotate_left; dsimp -zeta only [xq]; rotate_left; clear_value xq)
    | (extract_lets +onlyGivenNames xq; (have hq : xq = xq := by (dsimp -zeta only [xq])); clear hq; clear_value xq)
    | split | exact Keeps.upd (by assumption)

theorem State.cellStatus_keeps (h : Keeps kb ke u0 s) (x : RingId) (k : CellId) (code : BitVec 8) : Keeps kb ke u0 (State.cellStatus s x k code) := by
  unfold State.cellStatus
  with_reducible repeat' first
    | assumption | apply State.setCellReg_keeps

theorem State.cellOut_keeps (h : Keeps kb ke u0 s) (x : RingId) (k : CellId) (dir : Dir) (m : Dir → Out) : Keeps kb ke u0 (State.cellOut s x k dir m) := by
  unfold State.cellOut
  with_reducible repeat' first
    | assumption | apply State.emit_keeps
    | (extract_lets +onlyGivenNames xq; refine (fun (hx : Keeps kb ke u0 xq) => ?_) ?_; rotate_left; dsimp -zeta only [xq]; rotate_left; clear_value xq)
    | (extract_lets +onlyGivenNames xq; (have hq : xq = xq := by (dsimp -zeta only [xq])); clear hq; clear_value xq)
    | refine Keeps.ite (fun _ => ?_) (fun _ => ?_) | split

theorem State.cellForward_keeps (h : Keeps kb ke u0 s) (x : RingId) (k : CellId) (dir : Dir) (m : L0Msg) : Keeps kb ke u0 (State.cellForward s x k dir m) := by
  unfold State.cellForward
  with_reducible repeat' first
    | assumption | apply State.cellOut_keeps | (intro _; skip)

theorem State.onL0_keeps (h : Keeps kb ke u0 s) (x : RingId) (k : CellId) (dir : Dir) (m : L0Msg) (heard : List LaneBlock) (on : L0Msg) (act : State → State) (h_act : ∀ x0, Keeps kb ke u0 x0 → Keeps kb ke u0 (act x0)) : Keeps kb ke u0 (State.onL0 s x k dir m heard on act) := by
  unfold State.onL0
  with_reducible repeat' first
    | assumption | apply h_act | apply State.cellOut_keeps | apply State.cellForward_keeps | (intro _; skip)
    | refine Keeps.ite (fun _ => ?_) (fun _ => ?_) | split

theorem State.heartbeatBack_keeps (h : Keeps kb ke u0 s) (x : RingId) (k : CellId) : Keeps kb ke u0 (State.heartbeatBack s x k) := by
  unfold State.heartbeatBack
  with_reducible repeat' first
    | assumption | apply State.modCell_keeps | (intro _; skip)
    | (extract_lets +onlyGivenNames xq; refine (fun (hx : Keeps kb ke u0 xq) => ?_) ?_; rotate_left; dsimp -zeta only [xq]; rotate_left; clear_value xq)
    | (extract_lets +onlyGivenNames xq; (have hq : xq = xq := by (dsimp -zeta only [xq])); clear hq; clear_value xq)
    | exact Keeps.upd (by assumption)

theorem State.cellBlock_keeps (h : Keeps kb ke u0 s) (x : RingId) (k : CellId) (code : BitVec 8) (after : CellMode) : Keeps kb ke u0 (State.cellBlock s x k code after) := by
  unfold State.cellBlock
  with_reducible repeat' first
    | assumption | apply State.modCell_keeps | apply State.cellEvent_keeps | apply State.cellStatus_keeps
    | (intro _; skip)
    | (extract_lets +onlyGivenNames xq; refine (fun (hx : Keeps kb ke u0 xq) => ?_) ?_; rotate_left; dsimp -zeta only [xq]; rotate_left; clear_value xq)
    | (extract_lets +onlyGivenNames xq; (have hq : xq = xq := by (dsimp -zeta only [xq])); clear hq; clear_value xq)
    | refine Keeps.ite (fun _ => ?_) (fun _ => ?_) | split | exact Keeps.upd (by assumption)

theorem State.cellSend_keeps (h : Keeps kb ke u0 s) (x : RingId) (k : CellId) (m : CellMsg) : Keeps kb ke u0 (State.cellSend s x k m) := by
  unfold State.cellSend
  with_reducible repeat' first
    | assumption | apply State.each_keeps | apply State.emit_keeps | apply State.each_keeps | (intro _; skip)
    | (extract_lets +onlyGivenNames xq; refine (fun (hx : Keeps kb ke u0 xq) => ?_) ?_; rotate_left; dsimp -zeta only [xq]; rotate_left; clear_value xq)
    | (extract_lets +onlyGivenNames xq; (have hq : xq = xq := by (dsimp -zeta only [xq])); clear hq; clear_value xq)
    | refine Keeps.ite (fun _ => ?_) (fun _ => ?_) | split

theorem execCellFirstClock_keeps (x : RingId) (k : CellId) (dir : Dir) (s : State) (desc : List Word := []) : ResKeeps kb ke s (execCellFirstClock x k dir s desc) := by
  have h := State.fresh_keeps (Keeps.refl kb ke s)
  unfold execCellFirstClock
  with_reducible repeat' first
    | assumption | apply State.modCell_keeps | apply State.fresh_keeps | apply State.cellSend_keeps
    | apply RunKeeps.ok | apply RunKeeps.error | apply ResKeeps.next | (intro _; skip)
    | (extract_lets +onlyGivenNames xq; refine (fun (hx : Keeps kb ke s xq) => ?_) ?_; rotate_left; dsimp -zeta only [xq]; rotate_left; clear_value xq)
    | (extract_lets +onlyGivenNames xq; (have hq : xq = xq := by (dsimp -zeta only [xq])); clear hq; clear_value xq)
    | refine ResKeeps.ite (fun _ => ?_) (fun _ => ?_) | refine Keeps.ite (fun _ => ?_) (fun _ => ?_) | split
    | exact Keeps.upd (by assumption)

theorem State.cellStopDue_keeps (h : Keeps kb ke u0 s) (x : RingId) (k : CellId) : Keeps kb ke u0 (State.cellStopDue s x k) := by
  unfold State.cellStopDue
  with_reducible repeat' first
    | assumption | apply State.modCell_keeps | apply State.cellBlock_keeps | (intro _; skip)
    | refine Keeps.ite (fun _ => ?_) (fun _ => ?_) | split | exact Keeps.upd (by assumption)

theorem State.cellWake_keeps (h : Keeps kb ke u0 s) (x : RingId) (k : CellId) : Keeps kb ke u0 (State.cellWake s x k) := by
  unfold State.cellWake
  with_reducible repeat' first
    | assumption | apply State.modCell_keeps | apply State.cellStopDue_keeps | (intro _; skip)
    | (extract_lets +onlyGivenNames xq; refine (fun (hx : Keeps kb ke u0 xq) => ?_) ?_; rotate_left; dsimp -zeta only [xq]; rotate_left; clear_value xq)
    | (extract_lets +onlyGivenNames xq; (have hq : xq = xq := by (dsimp -zeta only [xq])); clear hq; clear_value xq)
    | refine Keeps.ite (fun _ => ?_) (fun _ => ?_) | split | exact Keeps.upd (by assumption)

theorem State.cellEpoch_keeps (h : Keeps kb ke u0 s) (x : RingId) (k : CellId) (dir : Dir) (epoch : BitVec 35) : Keeps kb ke u0 (State.cellEpoch s x k dir epoch) := by
  unfold State.cellEpoch
  with_reducible repeat' first
    | assumption | apply State.modCell_keeps | (intro _; skip)
    | (extract_lets +onlyGivenNames xq; refine (fun (hx : Keeps kb ke u0 xq) => ?_) ?_; rotate_left; dsimp -zeta only [xq]; rotate_left; clear_value xq)
    | (extract_lets +onlyGivenNames xq; (have hq : xq = xq := by (dsimp -zeta only [xq])); clear hq; clear_value xq)
    | refine Keeps.ite (fun _ => ?_) (fun _ => ?_) | split | exact Keeps.upd (by assumption)

theorem execCellEpoch_keeps (x : RingId) (k : CellId) (dir : Dir) (epoch : BitVec 35) (s : State) (heard : List LaneBlock := []) : ResKeeps kb ke s (execCellEpoch x k dir epoch s heard) := by
  have h := State.fresh_keeps (Keeps.refl kb ke s)
  unfold execCellEpoch
  with_reducible repeat' first
    | assumption | apply State.fresh_keeps | apply State.onL0_keeps | apply State.cellWake_keeps
    | apply State.cellEpoch_keeps | apply RunKeeps.ok | apply RunKeeps.error | apply ResKeeps.next | (intro _; skip)

theorem execCellClockChangeover_keeps (x : RingId) (k : CellId) (s : State) (otherPresent : Bool := true) : ResKeeps kb ke s (execCellClockChangeover x k s otherPresent) := by
  have h := State.fresh_keeps (Keeps.refl kb ke s)
  unfold execCellClockChangeover
  with_reducible repeat' first
    | assumption | apply State.modCell_keeps | apply State.fresh_keeps | apply RunKeeps.ok | apply RunKeeps.error
    | apply ResKeeps.next | (intro _; skip)
    | (extract_lets +onlyGivenNames xq; refine (fun (hx : Keeps kb ke s xq) => ?_) ?_; rotate_left; dsimp -zeta only [xq]; rotate_left; clear_value xq)
    | (extract_lets +onlyGivenNames xq; (have hq : xq = xq := by (dsimp -zeta only [xq])); clear hq; clear_value xq)
    | refine ResKeeps.ite (fun _ => ?_) (fun _ => ?_) | refine Keeps.ite (fun _ => ?_) (fun _ => ?_) | split
    | exact Keeps.upd (by assumption)

theorem execClkJump_keeps (x : RingId) (k : CellId) (diffPs : Nat) (s : State) (dir : Dir := .cw) : ResKeeps kb ke s (execClkJump x k diffPs s dir) := by
  have h := State.fresh_keeps (Keeps.refl kb ke s)
  unfold execClkJump
  with_reducible repeat' first
    | assumption | apply State.modCell_keeps | apply State.fresh_keeps | apply State.cellEvent_keeps
    | apply State.cellBlock_keeps | apply RunKeeps.ok | apply RunKeeps.error | apply ResKeeps.next | (intro _; skip)
    | (extract_lets +onlyGivenNames xq; refine (fun (hx : Keeps kb ke s xq) => ?_) ?_; rotate_left; dsimp -zeta only [xq]; rotate_left; clear_value xq)
    | (extract_lets +onlyGivenNames xq; (have hq : xq = xq := by (dsimp -zeta only [xq])); clear hq; clear_value xq)
    | refine ResKeeps.ite (fun _ => ?_) (fun _ => ?_) | refine Keeps.ite (fun _ => ?_) (fun _ => ?_) | split
    | exact Keeps.upd (by assumption)

theorem State.cellClap_keeps (h : Keeps kb ke u0 s) (x : RingId) (k : CellId) (dir : Dir) (num : BitVec 8) : Keeps kb ke u0 (State.cellClap s x k dir num) := by
  unfold State.cellClap
  with_reducible repeat' first
    | assumption | apply State.modCell_keeps | apply State.cellSend_keeps | (intro _; skip)
    | (extract_lets +onlyGivenNames xq; refine (fun (hx : Keeps kb ke u0 xq) => ?_) ?_; rotate_left; dsimp -zeta only [xq]; rotate_left; clear_value xq)
    | (extract_lets +onlyGivenNames xq; (have hq : xq = xq := by (dsimp -zeta only [xq])); clear hq; clear_value xq)
    | refine Keeps.ite (fun _ => ?_) (fun _ => ?_) | split | exact Keeps.upd (by assumption)

theorem execCellClap_keeps (x : RingId) (k : CellId) (dir : Dir) (num : BitVec 8) (s : State) (heard : List LaneBlock := []) : ResKeeps kb ke s (execCellClap x k dir num s heard) := by
  have h := State.fresh_keeps (Keeps.refl kb ke s)
  unfold execCellClap
  with_reducible repeat' first
    | assumption | apply State.fresh_keeps | apply State.onL0_keeps | apply State.cellWake_keeps
    | apply State.cellClap_keeps | apply RunKeeps.ok | apply RunKeeps.error | apply ResKeeps.next | (intro _; skip)

theorem execCellTset_keeps (x : RingId) (k : CellId) (step : Bool) (corr : BitVec 40) (s : State) (dir : Dir := .cw) (heard : List LaneBlock := []) : ResKeeps kb ke s (execCellTset x k step corr s dir heard) := by
  have h := State.fresh_keeps (Keeps.refl kb ke s)
  unfold execCellTset
  with_reducible repeat' first
    | assumption | apply State.modCell_keeps | apply State.fresh_keeps | apply State.onL0_keeps
    | apply State.cellWake_keeps | apply RunKeeps.ok | apply RunKeeps.error | apply ResKeeps.next | (intro _; skip)
    | (extract_lets +onlyGivenNames xq; refine (fun (hx : Keeps kb ke s xq) => ?_) ?_; rotate_left; dsimp -zeta only [xq]; rotate_left; clear_value xq)
    | (extract_lets +onlyGivenNames xq; (have hq : xq = xq := by (dsimp -zeta only [xq])); clear hq; clear_value xq)
    | refine ResKeeps.ite (fun _ => ?_) (fun _ => ?_) | refine Keeps.ite (fun _ => ?_) (fun _ => ?_) | split
    | exact Keeps.upd (by assumption)

theorem execCellEnum_keeps (x : RingId) (k : CellId) (dir : Dir) (count : BitVec 8) (s : State) (heard : List LaneBlock := []) : ResKeeps kb ke s (execCellEnum x k dir count s heard) := by
  have h := State.fresh_keeps (Keeps.refl kb ke s)
  unfold execCellEnum
  with_reducible repeat' first
    | assumption | apply State.modCell_keeps | apply State.fresh_keeps | apply State.onL0_keeps | apply RunKeeps.ok
    | apply RunKeeps.error | apply ResKeeps.next | (intro _; skip) | split | exact Keeps.upd (by assumption)

theorem execCellAdmit_keeps (x : RingId) (k : CellId) (s : State) (dir : Dir := .cw) (heard : List LaneBlock := []) : ResKeeps kb ke s (execCellAdmit x k s dir heard) := by
  have h := State.fresh_keeps (Keeps.refl kb ke s)
  unfold execCellAdmit
  with_reducible repeat' first
    | assumption | apply State.modCell_keeps | apply State.fresh_keeps | apply State.onL0_keeps
    | apply State.cellWake_keeps | apply RunKeeps.ok | apply RunKeeps.error | apply ResKeeps.next | (intro _; skip)
    | (extract_lets +onlyGivenNames xq; refine (fun (hx : Keeps kb ke s xq) => ?_) ?_; rotate_left; dsimp -zeta only [xq]; rotate_left; clear_value xq)
    | (extract_lets +onlyGivenNames xq; (have hq : xq = xq := by (dsimp -zeta only [xq])); clear hq; clear_value xq)
    | refine ResKeeps.ite (fun _ => ?_) (fun _ => ?_) | refine Keeps.ite (fun _ => ?_) (fun _ => ?_) | split
    | exact Keeps.upd (by assumption)

theorem execCellUnadmit_keeps (x : RingId) (k : CellId) (s : State) (dir : Dir := .cw) (heard : List LaneBlock := []) : ResKeeps kb ke s (execCellUnadmit x k s dir heard) := by
  have h := State.fresh_keeps (Keeps.refl kb ke s)
  unfold execCellUnadmit
  with_reducible repeat' first
    | assumption | apply State.modCell_keeps | apply State.fresh_keeps | apply State.onL0_keeps
    | apply State.cellWake_keeps | apply RunKeeps.ok | apply RunKeeps.error | apply ResKeeps.next | (intro _; skip)
    | (extract_lets +onlyGivenNames xq; refine (fun (hx : Keeps kb ke s xq) => ?_) ?_; rotate_left; dsimp -zeta only [xq]; rotate_left; clear_value xq)
    | (extract_lets +onlyGivenNames xq; (have hq : xq = xq := by (dsimp -zeta only [xq])); clear hq; clear_value xq)
    | exact Keeps.upd (by assumption)

theorem State.cellArm_keeps (h : Keeps kb ke u0 s) (x : RingId) (k : CellId) (epoch : Word) : Keeps kb ke u0 (State.cellArm s x k epoch) := by
  unfold State.cellArm
  with_reducible repeat' first
    | assumption | apply State.modCell_keeps | apply State.cellEvent_keeps | (intro _; skip)
    | (extract_lets +onlyGivenNames xq; refine (fun (hx : Keeps kb ke u0 xq) => ?_) ?_; rotate_left; dsimp -zeta only [xq]; rotate_left; clear_value xq)
    | (extract_lets +onlyGivenNames xq; (have hq : xq = xq := by (dsimp -zeta only [xq])); clear hq; clear_value xq)
    | refine Keeps.ite (fun _ => ?_) (fun _ => ?_) | split | exact Keeps.upd (by assumption)

theorem execCellArm_keeps (x : RingId) (k : CellId) (epoch : Word) (s : State) (dir : Dir := .cw) (heard : List LaneBlock := []) (pos : Nat := 0) : ResKeeps kb ke s (execCellArm x k epoch s dir heard pos) := by
  have h := State.fresh_keeps (Keeps.refl kb ke s)
  unfold execCellArm
  with_reducible repeat' first
    | assumption | apply State.fresh_keeps | apply State.onL0_keeps | apply State.cellWake_keeps
    | apply State.cellArm_keeps | apply RunKeeps.ok | apply RunKeeps.error | apply ResKeeps.next | (intro _; skip)
    | (extract_lets +onlyGivenNames xq; refine (fun (hx : Keeps kb ke s xq) => ?_) ?_; rotate_left; dsimp -zeta only [xq]; rotate_left; clear_value xq)
    | (extract_lets +onlyGivenNames xq; (have hq : xq = xq := by (dsimp -zeta only [xq])); clear hq; clear_value xq)
    | refine ResKeeps.ite (fun _ => ?_) (fun _ => ?_) | refine Keeps.ite (fun _ => ?_) (fun _ => ?_) | split

theorem execCellStop_keeps (x : RingId) (k : CellId) (reason : BitVec 8) (epoch : BitVec 35) (s : State) (dir : Dir := .cw) (heard : List LaneBlock := []) : ResKeeps kb ke s (execCellStop x k reason epoch s dir heard) := by
  have h := State.fresh_keeps (Keeps.refl kb ke s)
  unfold execCellStop
  with_reducible repeat' first
    | assumption | apply State.modCell_keeps | apply State.fresh_keeps | apply State.onL0_keeps
    | apply State.cellStopDue_keeps | apply State.cellWake_keeps | apply RunKeeps.ok | apply RunKeeps.error
    | apply ResKeeps.next | (intro _; skip)
    | (extract_lets +onlyGivenNames xq; refine (fun (hx : Keeps kb ke s xq) => ?_) ?_; rotate_left; dsimp -zeta only [xq]; rotate_left; clear_value xq)
    | (extract_lets +onlyGivenNames xq; (have hq : xq = xq := by (dsimp -zeta only [xq])); clear hq; clear_value xq)
    | refine ResKeeps.ite (fun _ => ?_) (fun _ => ?_) | refine Keeps.ite (fun _ => ?_) (fun _ => ?_) | split
    | exact Keeps.upd (by assumption)

theorem execHbLost_keeps (x : RingId) (k : CellId) (s : State) : ResKeeps kb ke s (execHbLost x k s) := by
  have h := State.fresh_keeps (Keeps.refl kb ke s)
  unfold execHbLost
  with_reducible repeat' first
    | assumption | apply State.modCell_keeps | apply State.fresh_keeps | apply State.cellBlock_keeps
    | apply State.cellWake_keeps | apply RunKeeps.ok | apply RunKeeps.error | apply ResKeeps.next | (intro _; skip)
    | exact Keeps.upd (by assumption)

theorem execFramingLost_keeps (x : RingId) (k : CellId) (s : State) : ResKeeps kb ke s (execFramingLost x k s) := by
  have h := State.fresh_keeps (Keeps.refl kb ke s)
  unfold execFramingLost
  with_reducible repeat' first
    | assumption | apply State.modCell_keeps | apply State.fresh_keeps | apply State.cellBlock_keeps
    | apply State.cellWake_keeps | apply RunKeeps.ok | apply RunKeeps.error | apply ResKeeps.next | (intro _; skip)
    | exact Keeps.upd (by assumption)

theorem execNoPstart_keeps (x : RingId) (k : CellId) (s : State) : ResKeeps kb ke s (execNoPstart x k s) := by
  have h := State.fresh_keeps (Keeps.refl kb ke s)
  unfold execNoPstart
  with_reducible repeat' first
    | assumption | apply State.advanceTo_keeps | apply State.fresh_keeps | apply State.cellBlock_keeps
    | apply State.cellWake_keeps | apply RunKeeps.ok | apply RunKeeps.error | apply ResKeeps.next | (intro _; skip)
    | (extract_lets +onlyGivenNames xq; refine (fun (hx : Keeps kb ke s xq) => ?_) ?_; rotate_left; dsimp -zeta only [xq]; rotate_left; clear_value xq)
    | (extract_lets +onlyGivenNames xq; (have hq : xq = xq := by (dsimp -zeta only [xq])); clear hq; clear_value xq)
    | refine ResKeeps.ite (fun _ => ?_) (fun _ => ?_) | refine Keeps.ite (fun _ => ?_) (fun _ => ?_) | split
    | exact Keeps.upd (by assumption)

theorem execCellInternalFault_keeps (x : RingId) (k : CellId) (low : BitVec 6) (s : State) : ResKeeps kb ke s (execCellInternalFault x k low s) := by
  have h := State.fresh_keeps (Keeps.refl kb ke s)
  unfold execCellInternalFault
  with_reducible repeat' first
    | assumption | apply State.fresh_keeps | apply State.cellBlock_keeps | apply State.cellWake_keeps
    | apply RunKeeps.ok | apply RunKeeps.error | apply ResKeeps.next

theorem State.schedBad_keeps (h : Keeps kb ke u0 s) (x : RingId) (k : CellId) (code : BitVec 8) : Keeps kb ke u0 (State.schedBad s x k code) := by
  unfold State.schedBad
  with_reducible repeat' first
    | assumption | apply State.modCell_keeps | apply State.cellEvent_keeps | (intro _; skip)
    | exact Keeps.upd (by assumption)

theorem State.cellEntry_keeps (h : Keeps kb ke u0 s) (x : RingId) (k : CellId) (r : BitVec 128) : Keeps kb ke u0 (State.cellEntry s x k r) := by
  unfold State.cellEntry
  with_reducible repeat' first
    | assumption | apply State.modCell_keeps | apply State.schedBad_keeps | (intro _; skip)
    | (extract_lets +onlyGivenNames xq; refine (fun (hx : Keeps kb ke u0 xq) => ?_) ?_; rotate_left; dsimp -zeta only [xq]; rotate_left; clear_value xq)
    | (extract_lets +onlyGivenNames xq; (have hq : xq = xq := by (dsimp -zeta only [xq])); clear hq; clear_value xq)
    | refine Keeps.ite (fun _ => ?_) (fun _ => ?_) | split | exact Keeps.upd (by assumption)

theorem State.cellAmend_keeps (h : Keeps kb ke u0 s) (x : RingId) (k : CellId) (r : BitVec 128) : Keeps kb ke u0 (State.cellAmend s x k r) := by
  unfold State.cellAmend
  with_reducible repeat' first
    | assumption | apply State.modCell_keeps | apply State.schedBad_keeps | (intro _; skip)
    | (extract_lets +onlyGivenNames xq; refine (fun (hx : Keeps kb ke u0 xq) => ?_) ?_; rotate_left; dsimp -zeta only [xq]; rotate_left; clear_value xq)
    | (extract_lets +onlyGivenNames xq; (have hq : xq = xq := by (dsimp -zeta only [xq])); clear hq; clear_value xq)
    | refine Keeps.ite (fun _ => ?_) (fun _ => ?_) | split | exact Keeps.upd (by assumption)

theorem State.cellRecord_keeps (h : Keeps kb ke u0 s) (x : RingId) (k : CellId) (record : BitVec 128) : Keeps kb ke u0 (State.cellRecord s x k record) := by
  unfold State.cellRecord
  with_reducible repeat' first
    | assumption | apply State.schedBad_keeps | apply State.cellEntry_keeps | apply State.cellAmend_keeps
    | (extract_lets +onlyGivenNames xq; refine (fun (hx : Keeps kb ke u0 xq) => ?_) ?_; rotate_left; dsimp -zeta only [xq]; rotate_left; clear_value xq)
    | (extract_lets +onlyGivenNames xq; (have hq : xq = xq := by (dsimp -zeta only [xq])); clear hq; clear_value xq)
    | refine Keeps.ite (fun _ => ?_) (fun _ => ?_) | split

theorem execCellRecordAccept_keeps (x : RingId) (k : CellId) (record : BitVec 128) (s : State) (dir : Dir := .cw) (heard : List LaneBlock := []) : ResKeeps kb ke s (execCellRecordAccept x k record s dir heard) := by
  have h := State.fresh_keeps (Keeps.refl kb ke s)
  unfold execCellRecordAccept
  with_reducible repeat' first
    | assumption | apply State.fresh_keeps | apply State.onL0_keeps | apply State.cellWake_keeps
    | apply State.cellRecord_keeps | apply RunKeeps.ok | apply RunKeeps.error | apply ResKeeps.next
    | (intro _; skip)

theorem execCellRecordExecute_keeps (x : RingId) (k : CellId) (s : State) : ResKeeps kb ke s (execCellRecordExecute x k s) := by
  have h := State.fresh_keeps (Keeps.refl kb ke s)
  unfold execCellRecordExecute
  with_reducible repeat' first
    | assumption | apply State.advanceTo_keeps | apply State.modCell_keeps | apply State.fresh_keeps
    | apply State.cellWake_keeps | apply State.schedBad_keeps | apply RunKeeps.ok | apply RunKeeps.error
    | apply ResKeeps.next | (intro _; skip)
    | (extract_lets +onlyGivenNames xq; refine (fun (hx : Keeps kb ke s xq) => ?_) ?_; rotate_left; dsimp -zeta only [xq]; rotate_left; clear_value xq)
    | (extract_lets +onlyGivenNames xq; (have hq : xq = xq := by (dsimp -zeta only [xq])); clear hq; clear_value xq)
    | refine ResKeeps.ite (fun _ => ?_) (fun _ => ?_) | refine Keeps.ite (fun _ => ?_) (fun _ => ?_) | split
    | exact Keeps.upd (by assumption)

theorem execCellSummSlot_keeps (x : RingId) (k : CellId) (dir : Dir) (s : State) (slots : List (BitVec 8) := List.replicate 40 0xFF) (heard : List LaneBlock := []) : ResKeeps kb ke s (execCellSummSlot x k dir s slots heard) := by
  have h := State.fresh_keeps (Keeps.refl kb ke s)
  unfold execCellSummSlot
  with_reducible repeat' first
    | assumption | apply State.modCell_keeps | apply State.fresh_keeps | apply State.cellOut_keeps
    | apply State.cellForward_keeps | apply State.cellSend_keeps | apply State.cellWake_keeps | apply RunKeeps.ok
    | apply RunKeeps.error | apply ResKeeps.next | (intro _; skip)
    | (extract_lets +onlyGivenNames xq; refine (fun (hx : Keeps kb ke s xq) => ?_) ?_; rotate_left; dsimp -zeta only [xq]; rotate_left; clear_value xq)
    | (extract_lets +onlyGivenNames xq; (have hq : xq = xq := by (dsimp -zeta only [xq])); clear hq; clear_value xq)
    | refine ResKeeps.ite (fun _ => ?_) (fun _ => ?_) | refine Keeps.ite (fun _ => ?_) (fun _ => ?_) | split
    | exact Keeps.upd (by assumption)

theorem execCellEventSend_keeps (x : RingId) (k : CellId) (s : State) : ResKeeps kb ke s (execCellEventSend x k s) := by
  have h := State.fresh_keeps (Keeps.refl kb ke s)
  unfold execCellEventSend
  with_reducible repeat' first
    | assumption | apply State.modCell_keeps | apply State.fresh_keeps | apply State.cellSend_keeps
    | apply RunKeeps.ok | apply RunKeeps.error | apply ResKeeps.next | (intro _; skip)
    | (extract_lets +onlyGivenNames xq; refine (fun (hx : Keeps kb ke s xq) => ?_) ?_; rotate_left; dsimp -zeta only [xq]; rotate_left; clear_value xq)
    | (extract_lets +onlyGivenNames xq; (have hq : xq = xq := by (dsimp -zeta only [xq])); clear hq; clear_value xq)
    | split | exact Keeps.upd (by assumption)

theorem State.cellAnswer_keeps (h : Keeps kb ke u0 s) (x : RingId) (k : CellId) (tag : BitVec 8) (write : Bool) (addr : BitVec 16) (data : Word) : Keeps kb ke u0 (State.cellAnswer s x k tag write addr data) := by
  unfold State.cellAnswer
  with_reducible repeat' first
    | assumption | apply State.modCell_keeps | apply State.cellSend_keeps | (intro _; skip)
    | (extract_lets +onlyGivenNames xq; refine (fun (hx : Keeps kb ke u0 xq) => ?_) ?_; rotate_left; dsimp -zeta only [xq]; rotate_left; clear_value xq)
    | (extract_lets +onlyGivenNames xq; (have hq : xq = xq := by (dsimp -zeta only [xq])); clear hq; clear_value xq)
    | refine Keeps.ite (fun _ => ?_) (fun _ => ?_) | split | exact Keeps.upd (by assumption)

theorem execCellRegrqHeard_keeps (x : RingId) (k : CellId) (dir : Dir) (ctl : BitVec 64) (data : BitVec 64) (s : State) : ResKeeps kb ke s (execCellRegrqHeard x k dir ctl data s) := by
  have h := State.fresh_keeps (Keeps.refl kb ke s)
  unfold execCellRegrqHeard
  with_reducible repeat' first
    | assumption | apply State.fresh_keeps | apply State.cellOut_keeps | apply State.cellForward_keeps
    | apply State.cellWake_keeps | apply State.cellAnswer_keeps | apply RunKeeps.ok | apply RunKeeps.error
    | apply ResKeeps.next | (intro _; skip)
    | (extract_lets +onlyGivenNames xq; refine (fun (hx : Keeps kb ke s xq) => ?_) ?_; rotate_left; dsimp -zeta only [xq]; rotate_left; clear_value xq)
    | (extract_lets +onlyGivenNames xq; (have hq : xq = xq := by (dsimp -zeta only [xq])); clear hq; clear_value xq)
    | refine ResKeeps.ite (fun _ => ?_) (fun _ => ?_) | refine Keeps.ite (fun _ => ?_) (fun _ => ?_) | split

theorem execLinkLost_keeps (x : RingId) (k : CellId) (dir : Dir) (s : State) (l3 : Option Bool := none) : ResKeeps kb ke s (execLinkLost x k dir s l3) := by
  have h := State.fresh_keeps (Keeps.refl kb ke s)
  unfold execLinkLost
  with_reducible repeat' first
    | assumption | apply State.modCell_keeps | apply State.fresh_keeps | apply State.cellEvent_keeps
    | apply State.cellWake_keeps | apply RunKeeps.ok | apply RunKeeps.error | apply ResKeeps.next | (intro _; skip)
    | (extract_lets +onlyGivenNames xq; refine (fun (hx : Keeps kb ke s xq) => ?_) ?_; rotate_left; dsimp -zeta only [xq]; rotate_left; clear_value xq)
    | (extract_lets +onlyGivenNames xq; (have hq : xq = xq := by (dsimp -zeta only [xq])); clear hq; clear_value xq)
    | refine ResKeeps.ite (fun _ => ?_) (fun _ => ?_) | refine Keeps.ite (fun _ => ?_) (fun _ => ?_) | split
    | exact Keeps.upd (by assumption)

theorem execCellLoopRemove_keeps (x : RingId) (k : CellId) (dir : Dir) (s : State) : ResKeeps kb ke s (execCellLoopRemove x k dir s) := by
  have h := State.fresh_keeps (Keeps.refl kb ke s)
  unfold execCellLoopRemove
  with_reducible repeat' first
    | assumption | apply State.advanceTo_keeps | apply State.each_keeps | apply State.modCell_keeps
    | apply State.fresh_keeps | apply State.heartbeatBack_keeps | apply State.cellWake_keeps | apply RunKeeps.ok
    | apply RunKeeps.error | apply ResKeeps.next | apply State.each_keeps | (intro _; skip)
    | (extract_lets +onlyGivenNames xq; refine (fun (hx : Keeps kb ke s xq) => ?_) ?_; rotate_left; dsimp -zeta only [xq]; rotate_left; clear_value xq)
    | (extract_lets +onlyGivenNames xq; (have hq : xq = xq := by (dsimp -zeta only [xq])); clear hq; clear_value xq)
    | refine ResKeeps.ite (fun _ => ?_) (fun _ => ?_) | refine Keeps.ite (fun _ => ?_) (fun _ => ?_) | split
    | exact Keeps.upd (by assumption)

theorem execCellTelemetrySend_keeps (x : RingId) (k : CellId) (s : State) (quant : List (BitVec 16) := []) : ResKeeps kb ke s (execCellTelemetrySend x k s quant) := by
  have h := State.fresh_keeps (Keeps.refl kb ke s)
  unfold execCellTelemetrySend
  with_reducible repeat' first
    | assumption | apply State.modCell_keeps | apply State.fresh_keeps | apply State.freshValue_keeps
    | apply State.cellSend_keeps | apply State.cellWake_keeps | apply RunKeeps.ok | apply RunKeeps.error
    | apply ResKeeps.next | refine Keeps.ofFst (by assumption) ?_ | refine Keeps.ofSnd (by assumption) ?_
    | dsimp only
    | (extract_lets +onlyGivenNames xq; refine (fun (hx : Keeps kb ke s xq) => ?_) ?_; rotate_left; dsimp -zeta only [xq]; rotate_left; clear_value xq)
    | (extract_lets +onlyGivenNames xq; (have hq : xq = xq := by (dsimp -zeta only [xq])); clear hq; clear_value xq)
    | refine ResKeeps.ite (fun _ => ?_) (fun _ => ?_) | refine Keeps.ite (fun _ => ?_) (fun _ => ?_) | split

theorem execCellCaptureSample_keeps (x : RingId) (k : CellId) (s : State) (quant : List (BitVec 16) := []) : ResKeeps kb ke s (execCellCaptureSample x k s quant) := by
  have h := State.fresh_keeps (Keeps.refl kb ke s)
  unfold execCellCaptureSample
  with_reducible repeat' first
    | assumption | apply State.advanceTo_keeps | apply State.modCell_keeps | apply State.fresh_keeps
    | apply State.cellSend_keeps | apply RunKeeps.ok | apply RunKeeps.error | apply ResKeeps.next | (intro _; skip)
    | (extract_lets +onlyGivenNames xq; refine (fun (hx : Keeps kb ke s xq) => ?_) ?_; rotate_left; dsimp -zeta only [xq]; rotate_left; clear_value xq)
    | (extract_lets +onlyGivenNames xq; (have hq : xq = xq := by (dsimp -zeta only [xq])); clear hq; clear_value xq)
    | refine ResKeeps.ite (fun _ => ?_) (fun _ => ?_) | refine Keeps.ite (fun _ => ?_) (fun _ => ?_) | split
    | exact Keeps.upd (by assumption)

theorem State.showCsel_keeps (h : Keeps kb ke u0 s) : Keeps kb ke u0 (State.showCsel s) := by
  unfold State.showCsel
  extract_lets x k
  split
  · exact State.fset_keeps (State.fsetI_keeps h _ _) _ _
  · exact h

theorem State.tlmStore_keeps (h : Keeps kb ke u0 s) (x : RingId) (period : Nat) (a : Nat) (bytes : List Byte) : Keeps kb ke u0 (State.tlmStore s x period a bytes) := by
  unfold State.tlmStore
  with_reducible repeat' first
    | assumption | apply State.modRing_keeps | apply State.memStore_keeps | refine Keeps.ofFst (by assumption) ?_
    | refine Keeps.ofSnd (by assumption) ?_ | dsimp only | (intro _; skip)
    | (extract_lets +onlyGivenNames xq; refine (fun (hx : Keeps kb ke u0 xq) => ?_) ?_; rotate_left; dsimp -zeta only [xq]; rotate_left; clear_value xq)
    | (extract_lets +onlyGivenNames xq; (have hq : xq = xq := by (dsimp -zeta only [xq])); clear hq; clear_value xq)
    | refine Keeps.ite (fun _ => ?_) (fun _ => ?_) | split | exact Keeps.upd (by assumption)

theorem State.writeStamp_keeps (h : Keeps kb ke u0 s) (x : RingId) (t : Tlm) : Keeps kb ke u0 (State.writeStamp s x t) := by
  unfold State.writeStamp
  with_reducible repeat' first
    | assumption | apply State.each_keeps | apply State.modRing_keeps | apply State.stampIntake_keeps
    | apply State.tlmStore_keeps | apply State.each_keeps | (intro _; skip)
    | (extract_lets +onlyGivenNames xq; refine (fun (hx : Keeps kb ke u0 xq) => ?_) ?_; rotate_left; dsimp -zeta only [xq]; rotate_left; clear_value xq)
    | (extract_lets +onlyGivenNames xq; (have hq : xq = xq := by (dsimp -zeta only [xq])); clear hq; clear_value xq)
    | refine Keeps.ite (fun _ => ?_) (fun _ => ?_) | split | exact Keeps.upd (by assumption)

theorem State.tlmSettle_keeps (h : Keeps kb ke u0 s) (x : RingId) : Keeps kb ke u0 (State.tlmSettle s x) := by
  unfold State.tlmSettle
  with_reducible repeat' first
    | assumption | apply State.writeStamp_keeps | apply Keeps.foldl | (intro _; skip)

theorem State.tlmOpen_keeps (h : Keeps kb ke u0 s) (x : RingId) (period : Nat) (tick : Nat) : Keeps kb ke u0 (State.tlmOpen s x period tick) := by
  unfold State.tlmOpen
  with_reducible repeat' first
    | assumption | apply State.modRing_keeps | apply State.tlmStore_keeps | apply State.tlmSettle_keeps
    | (intro _; skip)
    | (extract_lets +onlyGivenNames xq; refine (fun (hx : Keeps kb ke u0 xq) => ?_) ?_; rotate_left; dsimp -zeta only [xq]; rotate_left; clear_value xq)
    | (extract_lets +onlyGivenNames xq; (have hq : xq = xq := by (dsimp -zeta only [xq])); clear hq; clear_value xq)
    | refine Keeps.ite (fun _ => ?_) (fun _ => ?_) | split | exact Keeps.upd (by assumption)

theorem State.tlmIn_keeps (h : Keeps kb ke u0 s) (x : RingId) (k : CellId) (tick : BitVec 40) (q : List (BitVec 16)) : Keeps kb ke u0 (State.tlmIn s x k tick q) := by
  unfold State.tlmIn
  with_reducible repeat' first
    | assumption | apply State.each_keeps | apply State.modRing_keeps | apply State.tlmStore_keeps
    | apply State.tlmSettle_keeps | apply State.each_keeps | (intro _; skip)
    | (extract_lets +onlyGivenNames xq; refine (fun (hx : Keeps kb ke u0 xq) => ?_) ?_; rotate_left; dsimp -zeta only [xq]; rotate_left; clear_value xq)
    | (extract_lets +onlyGivenNames xq; (have hq : xq = xq := by (dsimp -zeta only [xq])); clear hq; clear_value xq)
    | refine Keeps.ite (fun _ => ?_) (fun _ => ?_) | split | exact Keeps.upd (by assumption)

theorem execTlmHeard_keeps (p : LaneId) (blocks : List LineBlock) (full : Bool) (s : State) : ResKeeps kb ke s (execTlmHeard p blocks full s) := by
  have h := State.fresh_keeps (Keeps.refl kb ke s)
  unfold execTlmHeard
  with_reducible repeat' first
    | assumption | apply State.fresh_keeps | apply State.framesOf_keeps | apply State.tlmIn_keeps
    | apply RunKeeps.ok | apply RunKeeps.error | apply ResKeeps.next | (intro _; skip) | split
    | exact Keeps.upd (by assumption)

theorem execTlmWaitExpiry_keeps (x : RingId) (s : State) : ResKeeps kb ke s (execTlmWaitExpiry x s) := by
  have h := State.fresh_keeps (Keeps.refl kb ke s)
  unfold execTlmWaitExpiry
  with_reducible repeat' first
    | assumption | apply State.advanceTo_keeps | apply State.fresh_keeps | apply State.writeStamp_keeps
    | apply RunKeeps.ok | apply RunKeeps.error | apply ResKeeps.next
    | (extract_lets +onlyGivenNames xq; refine (fun (hx : Keeps kb ke s xq) => ?_) ?_; rotate_left; dsimp -zeta only [xq]; rotate_left; clear_value xq)
    | (extract_lets +onlyGivenNames xq; (have hq : xq = xq := by (dsimp -zeta only [xq])); clear hq; clear_value xq)
    | refine ResKeeps.ite (fun _ => ?_) (fun _ => ?_) | refine Keeps.ite (fun _ => ?_) (fun _ => ?_) | split
    | exact Keeps.upd (by assumption)

theorem State.slotReact_keeps (h : Keeps kb ke u0 s) (x : RingId) (k : CellId) (b : BitVec 8) : Keeps kb ke u0 (State.slotReact s x k b) := by
  unfold State.slotReact
  with_reducible repeat' first
    | assumption | apply State.modView_keeps | apply State.setFail_keeps | apply State.withdraw_keeps
    | (intro _; skip)
    | (extract_lets +onlyGivenNames xq; refine (fun (hx : Keeps kb ke u0 xq) => ?_) ?_; rotate_left; dsimp -zeta only [xq]; rotate_left; clear_value xq)
    | (extract_lets +onlyGivenNames xq; (have hq : xq = xq := by (dsimp -zeta only [xq])); clear hq; clear_value xq)
    | refine Keeps.ite (fun _ => ?_) (fun _ => ?_) | split | exact Keeps.upd (by assumption)

theorem State.slotIn_keeps (h : Keeps kb ke u0 s) (x : RingId) (k : CellId) (a : BitVec 8) (b : BitVec 8) : Keeps kb ke u0 (State.slotIn s x k a b) := by
  unfold State.slotIn
  with_reducible repeat' first
    | assumption | apply State.modView_keeps | apply State.slotReact_keeps | (intro _; skip) | split
    | exact Keeps.upd (by assumption)

theorem State.showSummary_keeps (h : Keeps kb ke u0 s) (x : RingId) : Keeps kb ke u0 (State.showSummary s x) := by
  unfold State.showSummary
  with_reducible repeat' first
    | assumption | apply State.each_keeps | apply State.setWord_keeps | apply State.each_keeps | (intro _; skip)
    | refine Keeps.ite (fun _ => ?_) (fun _ => ?_) | split

theorem State.l0Return_keeps (h : Keeps kb ke u0 s) (x : RingId) (cw : L0Msg) (ccw : L0Msg) (lines : List LineBlock × List LineBlock) : Keeps kb ke u0 (State.l0Return s x cw ccw lines).1 := by
  unfold State.l0Return
  with_reducible repeat' first
    | assumption | apply State.laneIn_keeps | refine Keeps.ofFst (by assumption) ?_
    | refine Keeps.ofSnd (by assumption) ?_ | dsimp only
    | (extract_lets +onlyGivenNames xq; refine (fun (hx : Keeps kb ke u0 xq) => ?_) ?_; rotate_left; dsimp -zeta only [xq]; rotate_left; clear_value xq)
    | (extract_lets +onlyGivenNames xq; (have hq : xq = xq := by (dsimp -zeta only [xq])); clear hq; clear_value xq)
    | refine Keeps.iteFst (fun _ => ?_) (fun _ => ?_) | refine Keeps.ite (fun _ => ?_) (fun _ => ?_) | split

theorem execSummaryReturn_keeps (x : RingId) (cw : List (BitVec 8)) (ccw : List (BitVec 8)) (s : State) (lines : List LineBlock × List LineBlock := ([], [])) : ResKeeps kb ke s (execSummaryReturn x cw ccw s lines) := by
  have h := State.fresh_keeps (Keeps.refl kb ke s)
  unfold execSummaryReturn
  with_reducible repeat' first
    | assumption | apply State.each_keeps | apply State.modRing_keeps | apply State.fresh_keeps
    | apply State.refreshRing_keeps | apply State.ringCycle_keeps | apply State.showCsel_keeps
    | apply State.tlmSettle_keeps | apply State.slotIn_keeps | apply State.showSummary_keeps
    | apply State.l0Return_keeps | apply RunKeeps.ok | apply RunKeeps.error | apply ResKeeps.next
    | refine Keeps.ofFst (by assumption) ?_ | refine Keeps.ofSnd (by assumption) ?_ | dsimp only
    | apply State.each_keeps | (intro _; skip)
    | (extract_lets +onlyGivenNames xq; refine (fun (hx : Keeps kb ke s xq) => ?_) ?_; rotate_left; dsimp -zeta only [xq]; rotate_left; clear_value xq)
    | (extract_lets +onlyGivenNames xq; (have hq : xq = xq := by (dsimp -zeta only [xq])); clear hq; clear_value xq)
    | refine ResKeeps.ite (fun _ => ?_) (fun _ => ?_) | refine Keeps.ite (fun _ => ?_) (fun _ => ?_) | split
    | exact Keeps.upd (by assumption)

theorem execSummarySlotTimeout_keeps (x : RingId) (k : CellId) (s : State) : ResKeeps kb ke s (execSummarySlotTimeout x k s) := by
  have h := State.fresh_keeps (Keeps.refl kb ke s)
  unfold execSummarySlotTimeout
  with_reducible repeat' first
    | assumption | apply State.fresh_keeps | apply State.withdraw_keeps | apply State.tlmSettle_keeps
    | apply RunKeeps.ok | apply RunKeeps.error | apply ResKeeps.next
    | (extract_lets +onlyGivenNames xq; refine (fun (hx : Keeps kb ke s xq) => ?_) ?_; rotate_left; dsimp -zeta only [xq]; rotate_left; clear_value xq)
    | (extract_lets +onlyGivenNames xq; (have hq : xq = xq := by (dsimp -zeta only [xq])); clear hq; clear_value xq)
    | refine ResKeeps.ite (fun _ => ?_) (fun _ => ?_) | refine Keeps.ite (fun _ => ?_) (fun _ => ?_) | split

theorem execClapperLaunch_keeps (x : RingId) (s : State) : ResKeeps kb ke s (execClapperLaunch x s) := by
  have h := State.fresh_keeps (Keeps.refl kb ke s)
  unfold execClapperLaunch
  with_reducible repeat' first
    | assumption | apply State.advanceTo_keeps | apply State.fset_keeps | apply State.modRing_keeps
    | apply State.fresh_keeps | apply State.sendL0_keeps | apply RunKeeps.ok | apply RunKeeps.error
    | apply ResKeeps.next | apply Keeps.foldl | (intro _; skip)
    | (extract_lets +onlyGivenNames xq; refine (fun (hx : Keeps kb ke s xq) => ?_) ?_; rotate_left; dsimp -zeta only [xq]; rotate_left; clear_value xq)
    | (extract_lets +onlyGivenNames xq; (have hq : xq = xq := by (dsimp -zeta only [xq])); clear hq; clear_value xq)
    | refine ResKeeps.ite (fun _ => ?_) (fun _ => ?_) | refine Keeps.ite (fun _ => ?_) (fun _ => ?_) | split
    | exact Keeps.upd (by assumption)

theorem State.sendTset_keeps (h : Keeps kb ke u0 s) (x : RingId) (k : CellId) (step : Bool) (c : Int) : Keeps kb ke u0 (State.sendTset s x k step c) := by
  unfold State.sendTset
  with_reducible repeat' first
    | assumption | apply State.sendL0_keeps

theorem State.sendCmd_keeps (h : Keeps kb ke u0 s) (x : RingId) (k : CellId) (cmd : BitVec 8) : Keeps kb ke u0 (State.sendCmd s x k cmd) := by
  unfold State.sendCmd
  with_reducible repeat' first
    | assumption | apply State.sendL0_keeps

theorem State.admitCell_keeps (h : Keeps kb ke u0 s) (x : RingId) (k : CellId) : Keeps kb ke u0 (State.admitCell s x k) := by
  unfold State.admitCell
  with_reducible repeat' first
    | assumption | apply State.modView_keeps | apply State.setMask40_keeps | apply State.planFails_keeps
    | apply State.refreshRing_keeps | apply State.sendArm_keeps | apply State.sendCmd_keeps | (intro _; skip)
    | (extract_lets +onlyGivenNames xq; refine (fun (hx : Keeps kb ke u0 xq) => ?_) ?_; rotate_left; dsimp -zeta only [xq]; rotate_left; clear_value xq)
    | (extract_lets +onlyGivenNames xq; (have hq : xq = xq := by (dsimp -zeta only [xq])); clear hq; clear_value xq)
    | refine Keeps.ite (fun _ => ?_) (fun _ => ?_) | split | exact Keeps.upd (by assumption)

theorem State.admissionFails_keeps (h : Keeps kb ke u0 s) (x : RingId) (k : CellId) : Keeps kb ke u0 (State.admissionFails s x k) := by
  unfold State.admissionFails
  with_reducible repeat' first
    | assumption | apply State.modView_keeps | (intro _; skip) | exact Keeps.upd (by assumption)

theorem State.ringTooLong_keeps (h : Keeps kb ke u0 s) (x : RingId) : Keeps kb ke u0 (State.ringTooLong s x) := by
  unfold State.ringTooLong
  with_reducible repeat' first
    | assumption | apply State.fset_keeps | apply State.raise_keeps

theorem State.applyCorrection_keeps (h : Keeps kb ke u0 s) (x : RingId) (k : CellId) (c : Int) : Keeps kb ke u0 (State.applyCorrection s x k c) := by
  unfold State.applyCorrection
  with_reducible repeat' first
    | assumption | apply State.modView_keeps | apply State.raise_keeps | apply State.withdraw_keeps
    | apply State.sendTset_keeps | apply State.sendCmd_keeps | apply State.admitCell_keeps
    | apply State.admissionFails_keeps | (intro _; skip) | refine Keeps.ite (fun _ => ?_) (fun _ => ?_) | split
    | exact Keeps.upd (by assumption)

theorem State.claprIn_keeps (h : Keeps kb ke u0 s) (x : RingId) (k : CellId) (num : BitVec 8) (a : BitVec 48) (b : BitVec 48) (loopCw : Nat) (loopCcw : Nat) : Keeps kb ke u0 (State.claprIn s x k num a b loopCw loopCcw) := by
  unfold State.claprIn
  with_reducible repeat' first
    | assumption | apply State.fset_keeps | apply State.fsetI_keeps | apply State.modRing_keeps
    | apply State.modView_keeps | apply State.fresh_keeps | apply State.refreshRing_keeps
    | apply State.showCsel_keeps | apply State.tlmSettle_keeps | apply State.admissionFails_keeps
    | apply State.ringTooLong_keeps | apply State.applyCorrection_keeps | (intro _; skip)
    | (extract_lets +onlyGivenNames xq; refine (fun (hx : Keeps kb ke u0 xq) => ?_) ?_; rotate_left; dsimp -zeta only [xq]; rotate_left; clear_value xq)
    | (extract_lets +onlyGivenNames xq; (have hq : xq = xq := by (dsimp -zeta only [xq])); clear hq; clear_value xq)
    | refine Keeps.ite (fun _ => ?_) (fun _ => ?_) | split | exact Keeps.upd (by assumption)

theorem execClaprHeard_keeps (p : LaneId) (blocks : List LineBlock) (loopCw : Nat) (loopCcw : Nat) (s : State) : ResKeeps kb ke s (execClaprHeard p blocks loopCw loopCcw s) := by
  have h := State.fresh_keeps (Keeps.refl kb ke s)
  unfold execClaprHeard
  with_reducible repeat' first
    | assumption | apply State.fresh_keeps | apply State.framesOf_keeps | apply State.claprIn_keeps
    | apply RunKeeps.ok | apply RunKeeps.error | apply ResKeeps.next | (intro _; skip) | split
    | exact Keeps.upd (by assumption)

theorem execEnumStart_keeps (x : RingId) (s : State) : ResKeeps kb ke s (execEnumStart x s) := by
  have h := State.fresh_keeps (Keeps.refl kb ke s)
  unfold execEnumStart
  with_reducible repeat' first
    | assumption | apply State.fresh_keeps | apply State.startEnum_keeps | apply RunKeeps.ok | apply RunKeeps.error
    | apply ResKeeps.next
    | (extract_lets +onlyGivenNames xq; refine (fun (hx : Keeps kb ke s xq) => ?_) ?_; rotate_left; dsimp -zeta only [xq]; rotate_left; clear_value xq)
    | (extract_lets +onlyGivenNames xq; (have hq : xq = xq := by (dsimp -zeta only [xq])); clear hq; clear_value xq)
    | refine ResKeeps.ite (fun _ => ?_) (fun _ => ?_) | refine Keeps.ite (fun _ => ?_) (fun _ => ?_) | split

theorem execEnumReturn_keeps (x : RingId) (countCw : BitVec 8) (countCcw : BitVec 8) (s : State) (lines : List LineBlock × List LineBlock := ([], [])) : ResKeeps kb ke s (execEnumReturn x countCw countCcw s lines) := by
  have h := State.fresh_keeps (Keeps.refl kb ke s)
  unfold execEnumReturn
  with_reducible repeat' first
    | assumption | apply State.each_keeps | apply State.fset_keeps | apply State.modRing_keeps
    | apply State.modView_keeps | apply State.fresh_keeps | apply State.raise_keeps | apply State.refreshRing_keeps
    | apply State.l0Return_keeps | apply RunKeeps.ok | apply RunKeeps.error | apply ResKeeps.next
    | refine Keeps.ofFst (by assumption) ?_ | refine Keeps.ofSnd (by assumption) ?_ | dsimp only
    | apply State.each_keeps | (intro _; skip)
    | (extract_lets +onlyGivenNames xq; refine (fun (hx : Keeps kb ke s xq) => ?_) ?_; rotate_left; dsimp -zeta only [xq]; rotate_left; clear_value xq)
    | (extract_lets +onlyGivenNames xq; (have hq : xq = xq := by (dsimp -zeta only [xq])); clear hq; clear_value xq)
    | refine ResKeeps.ite (fun _ => ?_) (fun _ => ?_) | refine Keeps.ite (fun _ => ?_) (fun _ => ?_) | split
    | apply Keeps.upd

theorem State.nextTag_keeps (h : Keeps kb ke u0 s) : Keeps kb ke u0 (State.nextTag s) := by
  unfold State.nextTag
  with_reducible repeat' first
    | assumption | exact Keeps.upd (by assumption)

theorem State.ownAccess_keeps (h : Keeps kb ke u0 s) (x : RingId) (k : CellId) (write : Bool) (addr : BitVec 16) (data : Word) : Keeps kb ke u0 (State.ownAccess s x k write addr data) := by
  unfold State.ownAccess
  with_reducible repeat' first
    | assumption | apply State.sendL0_keeps | apply State.cellAnswer_keeps | apply State.nextTag_keeps
    | (extract_lets +onlyGivenNames xq; refine (fun (hx : Keeps kb ke u0 xq) => ?_) ?_; rotate_left; dsimp -zeta only [xq]; rotate_left; clear_value xq)
    | (extract_lets +onlyGivenNames xq; (have hq : xq = xq := by (dsimp -zeta only [xq])); clear hq; clear_value xq)

theorem State.writeCfg_keeps (h : Keeps kb ke u0 s) (x : RingId) (k : CellId) : Keeps kb ke u0 (State.writeCfg s x k) := by
  unfold State.writeCfg
  with_reducible repeat' first
    | assumption | apply State.ownAccess_keeps | apply Keeps.foldl | (intro _; skip)

theorem execAdmission_keeps (x : RingId) (k : CellId) (s : State) : ResKeeps kb ke s (execAdmission x k s) := by
  have h := State.fresh_keeps (Keeps.refl kb ke s)
  unfold execAdmission
  with_reducible repeat' first
    | assumption | apply State.each_keeps | apply State.modView_keeps | apply State.fresh_keeps
    | apply State.admissionFails_keeps | apply State.ringTooLong_keeps | apply State.ownAccess_keeps
    | apply State.writeCfg_keeps | apply RunKeeps.ok | apply RunKeeps.error | apply ResKeeps.next
    | apply State.each_keeps | (intro _; skip)
    | (extract_lets +onlyGivenNames xq; refine (fun (hx : Keeps kb ke s xq) => ?_) ?_; rotate_left; dsimp -zeta only [xq]; rotate_left; clear_value xq)
    | (extract_lets +onlyGivenNames xq; (have hq : xq = xq := by (dsimp -zeta only [xq])); clear hq; clear_value xq)
    | refine ResKeeps.ite (fun _ => ?_) (fun _ => ?_) | refine Keeps.ite (fun _ => ?_) (fun _ => ?_) | split
    | exact Keeps.upd (by assumption)

theorem execAdmissionClaprTimeout_keeps (x : RingId) (k : CellId) (s : State) : ResKeeps kb ke s (execAdmissionClaprTimeout x k s) := by
  have h := State.fresh_keeps (Keeps.refl kb ke s)
  unfold execAdmissionClaprTimeout
  with_reducible repeat' first
    | assumption | apply State.advanceTo_keeps | apply State.modRing_keeps | apply State.fresh_keeps
    | apply State.admissionFails_keeps | apply RunKeeps.ok | apply RunKeeps.error | apply ResKeeps.next
    | (intro _; skip)
    | (extract_lets +onlyGivenNames xq; refine (fun (hx : Keeps kb ke s xq) => ?_) ?_; rotate_left; dsimp -zeta only [xq]; rotate_left; clear_value xq)
    | (extract_lets +onlyGivenNames xq; (have hq : xq = xq := by (dsimp -zeta only [xq])); clear hq; clear_value xq)
    | refine ResKeeps.ite (fun _ => ?_) (fun _ => ?_) | refine Keeps.ite (fun _ => ?_) (fun _ => ?_) | split
    | exact Keeps.upd (by assumption)

theorem State.showEvtq_keeps (h : Keeps kb ke u0 s) : Keeps kb ke u0 (State.showEvtq s) := by
  unfold State.showEvtq
  with_reducible repeat' first
    | assumption | apply State.setWord_keeps | apply State.fset_keeps
    | (extract_lets +onlyGivenNames xq; refine (fun (hx : Keeps kb ke u0 xq) => ?_) ?_; rotate_left; dsimp -zeta only [xq]; rotate_left; clear_value xq)
    | (extract_lets +onlyGivenNames xq; (have hq : xq = xq := by (dsimp -zeta only [xq])); clear hq; clear_value xq)
    | split | exact Keeps.upd (by assumption)

theorem State.evtIn_keeps (h : Keeps kb ke u0 s) (x : RingId) (k : CellId) (code : BitVec 8) (seq : BitVec 16) (time : BitVec 48) (data : Word) : Keeps kb ke u0 (State.evtIn s x k code seq time data) := by
  unfold State.evtIn
  with_reducible repeat' first
    | assumption | apply State.finc_keeps | apply State.modView_keeps | apply State.raise_keeps
    | apply State.ringDue_keeps | apply State.showEvtq_keeps | (intro _; skip)
    | (extract_lets +onlyGivenNames xq; refine (fun (hx : Keeps kb ke u0 xq) => ?_) ?_; rotate_left; dsimp -zeta only [xq]; rotate_left; clear_value xq)
    | (extract_lets +onlyGivenNames xq; (have hq : xq = xq := by (dsimp -zeta only [xq])); clear hq; clear_value xq)
    | refine Keeps.ite (fun _ => ?_) (fun _ => ?_) | split | exact Keeps.upd (by assumption)

theorem execEvtHeard_keeps (p : LaneId) (blocks : List LineBlock) (full : Bool) (s : State) : ResKeeps kb ke s (execEvtHeard p blocks full s) := by
  have h := State.fresh_keeps (Keeps.refl kb ke s)
  unfold execEvtHeard
  with_reducible repeat' first
    | assumption | apply State.fresh_keeps | apply State.framesOf_keeps | apply State.evtIn_keeps
    | apply RunKeeps.ok | apply RunKeeps.error | apply ResKeeps.next | (intro _; skip) | split
    | exact Keeps.upd (by assumption)

theorem State.popEvtq_keeps (h : Keeps kb ke u0 s) : Keeps kb ke u0 (State.popEvtq s) := by
  unfold State.popEvtq
  with_reducible repeat' first
    | assumption | apply State.showEvtq_keeps | exact Keeps.upd (by assumption)

theorem State.cellGo_keeps (h : Keeps kb ke u0 s) : Keeps kb ke u0 (State.cellGo s) := by
  unfold State.cellGo
  with_reducible repeat' first
    | assumption | apply State.fset_keeps | apply State.sendL0_keeps | apply State.nextTag_keeps
    | refine Keeps.ite (fun _ => ?_) (fun _ => ?_)
    | (extract_lets +onlyGivenNames xq; refine (fun (hx : Keeps kb ke u0 xq) => ?_) ?_; rotate_left; dsimp -zeta only [xq]; rotate_left; clear_value xq)
    | (extract_lets +onlyGivenNames xq; (have hq : xq = xq := by (dsimp -zeta only [xq])); clear hq; clear_value xq)
    | split | exact Keeps.upd (by assumption)

theorem State.regrspIn_keeps (h : Keeps kb ke u0 s) (x : RingId) (k : CellId) (tag : BitVec 8) (status : BitVec 2) (data : Word) :
    Keeps kb ke u0 (s.regrspIn x k tag status data) := by
  unfold State.regrspIn
  split
  · refine Keeps.ite (fun _ => ?_) (fun _ => h)
    extract_lets t
    have ht : Keeps kb ke u0 t := State.fset_keeps (State.fset_keeps (State.ringCycle_keeps (Keeps.upd h)) _ _) _ _
    exact Keeps.ite (fun _ => ht) (fun _ => State.setWord_keeps ht _ _)
  · exact h

theorem execRegrspHeard_keeps (p : LaneId) (blocks : List LineBlock) (s : State) : ResKeeps kb ke s (execRegrspHeard p blocks s) := by
  have h := State.fresh_keeps (Keeps.refl kb ke s)
  unfold execRegrspHeard
  with_reducible repeat' first
    | assumption | apply State.fresh_keeps | apply State.framesOf_keeps | apply State.regrspIn_keeps
    | apply RunKeeps.ok | apply RunKeeps.error | apply ResKeeps.next | (intro _; skip) | split
    | exact Keeps.upd (by assumption)

theorem execCellAccessTimeout_keeps (s : State) : ResKeeps kb ke s (execCellAccessTimeout s) := by
  have h := State.fresh_keeps (Keeps.refl kb ke s)
  unfold execCellAccessTimeout
  with_reducible repeat' first
    | assumption | apply State.advanceTo_keeps | apply State.fset_keeps | apply State.fresh_keeps
    | apply State.ringCycle_keeps | apply RunKeeps.ok | apply RunKeeps.error | apply ResKeeps.next
    | (extract_lets +onlyGivenNames xq; refine (fun (hx : Keeps kb ke s xq) => ?_) ?_; rotate_left; dsimp -zeta only [xq]; rotate_left; clear_value xq)
    | (extract_lets +onlyGivenNames xq; (have hq : xq = xq := by (dsimp -zeta only [xq])); clear hq; clear_value xq)
    | refine ResKeeps.ite (fun _ => ?_) (fun _ => ?_) | refine Keeps.ite (fun _ => ?_) (fun _ => ?_) | split
    | exact Keeps.upd (by assumption)

theorem State.setAnchor_keeps (h : Keeps kb ke u0 s) (t : BitVec 48) (g : Nat) : Keeps kb ke u0 (State.setAnchor s t g) := by
  unfold State.setAnchor
  with_reducible repeat' first
    | assumption | apply State.fset_keeps | apply State.setTime48_keeps
    | (extract_lets +onlyGivenNames xq; refine (fun (hx : Keeps kb ke u0 xq) => ?_) ?_; rotate_left; dsimp -zeta only [xq]; rotate_left; clear_value xq)
    | (extract_lets +onlyGivenNames xq; (have hq : xq = xq := by (dsimp -zeta only [xq])); clear hq; clear_value xq)
    | exact Keeps.upd (by assumption)

theorem State.showK_keeps (h : Keeps kb ke u0 s) : Keeps kb ke u0 (State.showK s) := by
  unfold State.showK
  with_reducible repeat' first
    | assumption | apply State.fsetI_keeps

theorem State.takeRate_keeps (h : Keeps kb ke u0 s) : Keeps kb ke u0 (State.takeRate s) := by
  unfold State.takeRate
  with_reducible repeat' first
    | assumption | apply State.showK_keeps
    | (extract_lets +onlyGivenNames xq; refine (fun (hx : Keeps kb ke u0 xq) => ?_) ?_; rotate_left; dsimp -zeta only [xq]; rotate_left; clear_value xq)
    | (extract_lets +onlyGivenNames xq; (have hq : xq = xq := by (dsimp -zeta only [xq])); clear hq; clear_value xq)
    | refine Keeps.ite (fun _ => ?_) (fun _ => ?_) | split | exact Keeps.upd (by assumption)

theorem execGtimeReanchor_keeps (s : State) : ResKeeps kb ke s (execGtimeReanchor s) := by
  have h := State.fresh_keeps (Keeps.refl kb ke s)
  unfold execGtimeReanchor
  with_reducible repeat' first
    | assumption | apply State.advanceTo_keeps | apply State.fresh_keeps | apply State.setAnchor_keeps
    | apply State.showK_keeps | apply State.takeRate_keeps | apply RunKeeps.ok | apply RunKeeps.error
    | apply ResKeeps.next | refine ResKeeps.ite (fun _ => ?_) (fun _ => ?_)
    | refine Keeps.ite (fun _ => ?_) (fun _ => ?_)
    | (extract_lets +onlyGivenNames xq; refine (fun (hx : Keeps kb ke s xq) => ?_) ?_; rotate_left; dsimp -zeta only [xq]; rotate_left; clear_value xq)
    | (extract_lets +onlyGivenNames xq; (have hq : xq = xq := by (dsimp -zeta only [xq])); clear hq; clear_value xq)
    | split | apply Keeps.upd

theorem State.toHoldover_keeps (h : Keeps kb ke u0 s) : Keeps kb ke u0 (State.toHoldover s) := by
  unfold State.toHoldover
  with_reducible repeat' first
    | assumption | apply State.fset_keeps | refine Keeps.ite (fun _ => ?_) (fun _ => ?_) | split
    | exact Keeps.upd (by assumption)

theorem State.countMeasurement_keeps (h : Keeps kb ke u0 s) (theta : Int) : Keeps kb ke u0 (State.countMeasurement s theta) := by
  unfold State.countMeasurement
  with_reducible repeat' first
    | assumption | apply State.fset_keeps | apply State.toHoldover_keeps
    | refine Keeps.ite (fun _ => ?_) (fun _ => ?_)
    | (extract_lets +onlyGivenNames xq; refine (fun (hx : Keeps kb ke u0 xq) => ?_) ?_; rotate_left; dsimp -zeta only [xq]; rotate_left; clear_value xq)
    | (extract_lets +onlyGivenNames xq; (have hq : xq = xq := by (dsimp -zeta only [xq])); clear hq; clear_value xq)
    | split | apply Keeps.upd

theorem execSyncMeasurement_keeps (theta : Int) (kFreq : Int) (utcOffset : Int) (s : State) : ResKeeps kb ke s (execSyncMeasurement theta kFreq utcOffset s) := by
  have h := State.fresh_keeps (Keeps.refl kb ke s)
  unfold execSyncMeasurement
  with_reducible repeat' first
    | assumption | apply State.fsetI_keeps | apply State.fresh_keeps | apply State.applyLiveBlock_keeps
    | apply State.countMeasurement_keeps | apply RunKeeps.ok | apply RunKeeps.error | apply ResKeeps.next
    | refine ResKeeps.ite (fun _ => ?_) (fun _ => ?_) | refine Keeps.ite (fun _ => ?_) (fun _ => ?_)
    | (extract_lets +onlyGivenNames xq; refine (fun (hx : Keeps kb ke s xq) => ?_) ?_; rotate_left; dsimp -zeta only [xq]; rotate_left; clear_value xq)
    | (extract_lets +onlyGivenNames xq; (have hq : xq = xq := by (dsimp -zeta only [xq])); clear hq; clear_value xq)
    | split | exact Keeps.upd (by assumption)

theorem execGtimeStep_keeps (s : State) : ResKeeps kb ke s (execGtimeStep s) := by
  have h := State.fresh_keeps (Keeps.refl kb ke s)
  unfold execGtimeStep
  with_reducible repeat' first
    | assumption | apply State.advanceTo_keeps | apply State.fset_keeps | apply State.finc_keeps
    | apply State.fresh_keeps | apply State.emit_keeps | apply State.log_keeps | apply State.setAnchor_keeps
    | apply State.showK_keeps | apply RunKeeps.ok | apply RunKeeps.error | apply ResKeeps.next | (intro _; skip)
    | refine ResKeeps.ite (fun _ => ?_) (fun _ => ?_) | refine Keeps.ite (fun _ => ?_) (fun _ => ?_)
    | (extract_lets +onlyGivenNames xq; refine (fun (hx : Keeps kb ke s xq) => ?_) ?_; rotate_left; dsimp -zeta only [xq]; rotate_left; clear_value xq)
    | (extract_lets +onlyGivenNames xq; (have hq : xq = xq := by (dsimp -zeta only [xq])); clear hq; clear_value xq)
    | split | apply Keeps.upd

theorem execHoldover_keeps (s : State) : ResKeeps kb ke s (execHoldover s) := by
  have h := State.fresh_keeps (Keeps.refl kb ke s)
  unfold execHoldover
  with_reducible repeat' first
    | assumption | apply State.fresh_keeps | apply State.toHoldover_keeps | apply RunKeeps.ok | apply RunKeeps.error
    | apply ResKeeps.next

theorem execHoldmaxExpiry_keeps (s : State) : ResKeeps kb ke s (execHoldmaxExpiry s) := by
  have h := State.fresh_keeps (Keeps.refl kb ke s)
  unfold execHoldmaxExpiry
  with_reducible repeat' first
    | assumption | apply State.advanceTo_keeps | apply State.fset_keeps | apply State.fresh_keeps
    | apply RunKeeps.ok | apply RunKeeps.error | apply ResKeeps.next
    | (extract_lets +onlyGivenNames xq; refine (fun (hx : Keeps kb ke s xq) => ?_) ?_; rotate_left; dsimp -zeta only [xq]; rotate_left; clear_value xq)
    | (extract_lets +onlyGivenNames xq; (have hq : xq = xq := by (dsimp -zeta only [xq])); clear hq; clear_value xq)
    | refine ResKeeps.ite (fun _ => ?_) (fun _ => ?_) | refine Keeps.ite (fun _ => ?_) (fun _ => ?_) | split

theorem execTimePairSend_keeps (s : State) : ResKeeps kb ke s (execTimePairSend s) := by
  have h := State.fresh_keeps (Keeps.refl kb ke s)
  unfold execTimePairSend
  with_reducible repeat' first
    | assumption | apply State.advanceTo_keeps | apply State.fresh_keeps | apply State.emit_keeps
    | apply RunKeeps.ok | apply RunKeeps.error | apply ResKeeps.next
    | (extract_lets +onlyGivenNames xq; refine (fun (hx : Keeps kb ke s xq) => ?_) ?_; rotate_left; dsimp -zeta only [xq]; rotate_left; clear_value xq)
    | (extract_lets +onlyGivenNames xq; (have hq : xq = xq := by (dsimp -zeta only [xq])); clear hq; clear_value xq)
    | refine ResKeeps.ite (fun _ => ?_) (fun _ => ?_) | refine Keeps.ite (fun _ => ?_) (fun _ => ?_) | split
    | exact Keeps.upd (by assumption)

theorem State.oneStepOut_keeps (h : Keeps kb ke u0 s) (port : EthId) (kind : BitVec 4) (seq : BitVec 16) : Keeps kb ke u0 (State.oneStepOut s port kind seq) := by
  unfold State.oneStepOut
  with_reducible repeat' first
    | assumption | apply State.emit_keeps
    | (extract_lets +onlyGivenNames xq; refine (fun (hx : Keeps kb ke u0 xq) => ?_) ?_; rotate_left; dsimp -zeta only [xq]; rotate_left; clear_value xq)
    | (extract_lets +onlyGivenNames xq; (have hq : xq = xq := by (dsimp -zeta only [xq])); clear hq; clear_value xq)
    | refine Keeps.ite (fun _ => ?_) (fun _ => ?_) | split | exact Keeps.upd (by assumption)

theorem execPtpEventMessage_keeps (port : EthId) (transmit : Bool) (messageType : BitVec 4) (sequenceId : BitVec 16) (s : State) : ResKeeps kb ke s (execPtpEventMessage port transmit messageType sequenceId s) := by
  have h := State.fresh_keeps (Keeps.refl kb ke s)
  unfold execPtpEventMessage
  with_reducible repeat' first
    | assumption | apply State.fset_keeps | apply State.finc_keeps | apply State.fsetBit_keeps
    | apply State.fresh_keeps | apply State.oneStepOut_keeps | apply RunKeeps.ok | apply RunKeeps.error
    | apply ResKeeps.next | (intro _; skip)
    | (extract_lets +onlyGivenNames xq; refine (fun (hx : Keeps kb ke s xq) => ?_) ?_; rotate_left; dsimp -zeta only [xq]; rotate_left; clear_value xq)
    | (extract_lets +onlyGivenNames xq; (have hq : xq = xq := by (dsimp -zeta only [xq])); clear hq; clear_value xq)
    | refine ResKeeps.ite (fun _ => ?_) (fun _ => ?_) | refine Keeps.ite (fun _ => ?_) (fun _ => ?_) | split
    | exact Keeps.upd (by assumption)

theorem State.useStamp_keeps (h : Keeps kb ke u0 s) (port : EthId) (x : TxStamp) : Keeps kb ke u0 (State.useStamp s port x) := by
  unfold State.useStamp
  with_reducible repeat' first
    | assumption | apply State.emit_keeps | refine Keeps.ite (fun _ => ?_) (fun _ => ?_) | split

theorem State.drainStamps_keeps (h : Keeps kb ke u0 s) : Keeps kb ke u0 (State.drainStamps s) := by
  unfold State.drainStamps
  with_reducible repeat' first
    | assumption | apply State.each_keeps | apply State.fset_keeps | apply State.useStamp_keeps
    | apply State.each_keeps | apply Keeps.foldl | (intro _; skip)
    | (extract_lets +onlyGivenNames xq; refine (fun (hx : Keeps kb ke u0 xq) => ?_) ?_; rotate_left; dsimp -zeta only [xq]; rotate_left; clear_value xq)
    | (extract_lets +onlyGivenNames xq; (have hq : xq = xq := by (dsimp -zeta only [xq])); clear hq; clear_value xq)
    | refine Keeps.ite (fun _ => ?_) (fun _ => ?_) | split | exact Keeps.upd (by assumption)

theorem State.armCompare_keeps (h : Keeps kb ke u0 s) (u : UnitId) : Keeps kb ke u0 (State.armCompare s u) := by
  unfold State.armCompare
  with_reducible repeat' first
    | assumption | apply State.fset_keeps | apply State.fsetBit_keeps
    | (extract_lets +onlyGivenNames xq; refine (fun (hx : Keeps kb ke u0 xq) => ?_) ?_; rotate_left; dsimp -zeta only [xq]; rotate_left; clear_value xq)
    | (extract_lets +onlyGivenNames xq; (have hq : xq = xq := by (dsimp -zeta only [xq])); clear hq; clear_value xq)
    | refine Keeps.ite (fun _ => ?_) (fun _ => ?_) | split

theorem State.disarmCompare_keeps (h : Keeps kb ke u0 s) (u : UnitId) : Keeps kb ke u0 (State.disarmCompare s u) := by
  unfold State.disarmCompare
  with_reducible repeat' first
    | assumption | apply State.fset_keeps

theorem State.fireCompare_keeps (h : Keeps kb ke u0 s) (u : UnitId) : Keeps kb ke u0 (State.fireCompare s u) := by
  unfold State.fireCompare
  with_reducible repeat' first
    | assumption | apply State.fsetBit_keeps | apply State.modCapt_keeps | apply State.setTime48_keeps
    | apply State.armCompare_keeps | apply State.disarmCompare_keeps | (intro _; skip)
    | (extract_lets +onlyGivenNames xq; refine (fun (hx : Keeps kb ke u0 xq) => ?_) ?_; rotate_left; dsimp -zeta only [xq]; rotate_left; clear_value xq)
    | (extract_lets +onlyGivenNames xq; (have hq : xq = xq := by (dsimp -zeta only [xq])); clear hq; clear_value xq)
    | refine Keeps.ite (fun _ => ?_) (fun _ => ?_) | split | exact Keeps.upd (by assumption)

theorem execCompareFire_keeps (u : UnitId) (s : State) : ResKeeps kb ke s (execCompareFire u s) := by
  have h := State.fresh_keeps (Keeps.refl kb ke s)
  unfold execCompareFire
  with_reducible repeat' first
    | assumption | apply State.advanceTo_keeps | apply State.fresh_keeps | apply State.fireCompare_keeps
    | apply RunKeeps.ok | apply RunKeeps.error | apply ResKeeps.next
    | (extract_lets +onlyGivenNames xq; refine (fun (hx : Keeps kb ke s xq) => ?_) ?_; rotate_left; dsimp -zeta only [xq]; rotate_left; clear_value xq)
    | (extract_lets +onlyGivenNames xq; (have hq : xq = xq := by (dsimp -zeta only [xq])); clear hq; clear_value xq)
    | refine ResKeeps.ite (fun _ => ?_) (fun _ => ?_) | refine Keeps.ite (fun _ => ?_) (fun _ => ?_) | split

theorem State.writeDisarm_keeps (h : Keeps kb ke u0 s) (u : UnitId) : Keeps kb ke u0 (State.writeDisarm s u) := by
  unfold State.writeDisarm
  with_reducible repeat' first
    | assumption | apply State.disarmCompare_keeps | apply State.fireCompare_keeps
    | refine Keeps.ite (fun _ => ?_) (fun _ => ?_) | split

theorem State.showLoop_keeps (h : Keeps kb ke u0 s) (t : Nat) : Keeps kb ke u0 (State.showLoop s t) := by
  unfold State.showLoop
  with_reducible repeat' first
    | assumption | apply State.fset_keeps

theorem State.roleWritten_keeps (h : Keeps kb ke u0 s) : Keeps kb ke u0 (State.roleWritten s) := by
  unfold State.roleWritten
  with_reducible repeat' first
    | assumption | apply State.fset_keeps | refine Keeps.ite (fun _ => ?_) (fun _ => ?_) | split

theorem execPeerClapperLaunch_keeps (loopTime : Nat) (fwdSum : Nat) (followers : Nat) (s : State) : ResKeeps kb ke s (execPeerClapperLaunch loopTime fwdSum followers s) := by
  have h := State.fresh_keeps (Keeps.refl kb ke s)
  unfold execPeerClapperLaunch
  with_reducible repeat' first
    | assumption | apply State.advanceTo_keeps | apply State.fresh_keeps | apply State.sendPeer_keeps
    | apply State.showLoop_keeps | apply State.roleWritten_keeps | apply RunKeeps.ok | apply RunKeeps.error
    | apply ResKeeps.next | refine ResKeeps.ite (fun _ => ?_) (fun _ => ?_)
    | refine Keeps.ite (fun _ => ?_) (fun _ => ?_)
    | (extract_lets +onlyGivenNames xq; refine (fun (hx : Keeps kb ke s xq) => ?_) ?_; rotate_left; dsimp -zeta only [xq]; rotate_left; clear_value xq)
    | (extract_lets +onlyGivenNames xq; (have hq : xq = xq := by (dsimp -zeta only [xq])); clear hq; clear_value xq)
    | split | apply Keeps.upd

theorem State.peerFrames_keeps (h : Keeps kb ke u0 s) (typ : Nat) (blocks : List LineBlock) (take : Frame → State → State) (h_take : ∀ x0 x1, Keeps kb ke u0 x1 → Keeps kb ke u0 (take x0 x1)) : Keeps kb ke u0 (State.peerFrames s typ blocks take) := by
  unfold State.peerFrames
  with_reducible repeat' first
    | assumption | apply h_take | apply State.sendPeer_keeps | apply State.laneIn_keeps
    | refine Keeps.ofFst (by assumption) ?_ | refine Keeps.ofSnd (by assumption) ?_ | dsimp only
    | apply Keeps.foldlFst | apply Keeps.foldl | (intro _; skip)
    | (extract_lets +onlyGivenNames xq; refine (fun (hx : Keeps kb ke u0 xq) => ?_) ?_; rotate_left; dsimp -zeta only [xq]; rotate_left; clear_value xq)
    | (extract_lets +onlyGivenNames xq; (have hq : xq = xq := by (dsimp -zeta only [xq])); clear hq; clear_value xq)
    | refine Keeps.ite (fun _ => ?_) (fun _ => ?_) | split

theorem State.pclapIn_keeps (h : Keeps kb ke u0 s) (fwd : Nat) (f : Frame) : Keeps kb ke u0 (State.pclapIn s fwd f) := by
  unfold State.pclapIn
  with_reducible repeat' first
    | assumption | apply State.fset_keeps | apply State.sendPeer_keeps
    | (extract_lets +onlyGivenNames xq; refine (fun (hx : Keeps kb ke u0 xq) => ?_) ?_; rotate_left; dsimp -zeta only [xq]; rotate_left; clear_value xq)
    | (extract_lets +onlyGivenNames xq; (have hq : xq = xq := by (dsimp -zeta only [xq])); clear hq; clear_value xq)
    | exact Keeps.upd (by assumption)

theorem execPclapHeard_keeps (blocks : List LineBlock) (fwd : Nat) (s : State) : ResKeeps kb ke s (execPclapHeard blocks fwd s) := by
  have h := State.fresh_keeps (Keeps.refl kb ke s)
  unfold execPclapHeard
  with_reducible repeat' first
    | assumption | apply State.fresh_keeps | apply State.peerFrames_keeps | apply State.pclapIn_keeps
    | apply RunKeeps.ok | apply RunKeeps.error | apply ResKeeps.next | (intro _; skip)

theorem State.shiftRtime_keeps (h : Keeps kb ke u0 s) (d : Int) : Keeps kb ke u0 (State.shiftRtime s d) := by
  unfold State.shiftRtime
  with_reducible repeat' first
    | assumption | apply State.setRtAdj_keeps | (intro _; skip)
    | (extract_lets +onlyGivenNames xq; refine (fun (hx : Keeps kb ke u0 xq) => ?_) ?_; rotate_left; dsimp -zeta only [xq]; rotate_left; clear_value xq)
    | (extract_lets +onlyGivenNames xq; (have hq : xq = xq := by (dsimp -zeta only [xq])); clear hq; clear_value xq)
    | refine Keeps.ite (fun _ => ?_) (fun _ => ?_) | split | exact Keeps.upd (by assumption)

theorem State.reclapper_keeps (h : Keeps kb ke u0 s) : Keeps kb ke u0 (State.reclapper s) := by
  unfold State.reclapper
  with_reducible repeat' first
    | assumption | apply State.each_keeps | apply State.modRing_keeps | apply State.each_keeps | (intro _; skip)
    | exact Keeps.upd (by assumption)

theorem State.correctRtime_keeps (h : Keeps kb ke u0 s) (o : Int) : Keeps kb ke u0 (State.correctRtime s o) := by
  unfold State.correctRtime
  with_reducible repeat' first
    | assumption | apply State.advanceTo_keeps | apply State.fset_keeps | apply State.raise_keeps
    | apply State.shiftRtime_keeps | apply State.reclapper_keeps
    | (extract_lets +onlyGivenNames xq; refine (fun (hx : Keeps kb ke u0 xq) => ?_) ?_; rotate_left; dsimp -zeta only [xq]; rotate_left; clear_value xq)
    | (extract_lets +onlyGivenNames xq; (have hq : xq = xq := by (dsimp -zeta only [xq])); clear hq; clear_value xq)
    | refine Keeps.ite (fun _ => ?_) (fun _ => ?_) | split | exact Keeps.upd (by assumption)

theorem State.slewBy_keeps (h : Keeps kb ke u0 s) (d : Int) : Keeps kb ke u0 (State.slewBy s d) :=
  Keeps.upd (State.shiftRtime_keeps h d)

theorem State.slewRtime_keeps (h : Keeps kb ke u0 s) : Keeps kb ke u0 (State.slewRtime s) := by
  unfold State.slewRtime
  with_reducible repeat' first
    | assumption | apply State.slewBy_keeps
    | (extract_lets +onlyGivenNames xq; refine (fun (hx : Keeps kb ke u0 xq) => ?_) ?_; rotate_left; dsimp -zeta only [xq]; rotate_left; clear_value xq)
    | (extract_lets +onlyGivenNames xq; (have hq : xq = xq := by (dsimp -zeta only [xq])); clear hq; clear_value xq)
    | refine Keeps.ite (fun _ => ?_) (fun _ => ?_) | split

theorem State.ptimeIn_keeps (h : Keeps kb ke u0 s) (f : Frame) : Keeps kb ke u0 (State.ptimeIn s f) := by
  unfold State.ptimeIn
  with_reducible repeat' first
    | assumption | apply State.fsetI_keeps | apply State.sendPeer_keeps | apply State.showLoop_keeps
    | apply State.correctRtime_keeps
    | (extract_lets +onlyGivenNames xq; refine (fun (hx : Keeps kb ke u0 xq) => ?_) ?_; rotate_left; dsimp -zeta only [xq]; rotate_left; clear_value xq)
    | (extract_lets +onlyGivenNames xq; (have hq : xq = xq := by (dsimp -zeta only [xq])); clear hq; clear_value xq)
    | refine Keeps.ite (fun _ => ?_) (fun _ => ?_) | split | exact Keeps.upd (by assumption)

theorem execPtimeHeard_keeps (blocks : List LineBlock) (s : State) : ResKeeps kb ke s (execPtimeHeard blocks s) := by
  have h := State.fresh_keeps (Keeps.refl kb ke s)
  unfold execPtimeHeard
  with_reducible repeat' first
    | assumption | apply State.fresh_keeps | apply State.peerFrames_keeps | apply State.ptimeIn_keeps
    | apply RunKeeps.ok | apply RunKeeps.error | apply ResKeeps.next | (intro _; skip)

theorem execPeerLost_keeps (s : State) : ResKeeps kb ke s (execPeerLost s) := by
  have h := State.fresh_keeps (Keeps.refl kb ke s)
  unfold execPeerLost
  with_reducible repeat' first
    | assumption | apply State.fresh_keeps | apply State.losePeer_keeps | apply RunKeeps.ok | apply RunKeeps.error
    | apply ResKeeps.next

theorem execPeerReturn_keeps (s : State) : ResKeeps kb ke s (execPeerReturn s) := by
  have h := State.fresh_keeps (Keeps.refl kb ke s)
  unfold execPeerReturn
  with_reducible repeat' first
    | assumption | apply State.fset_keeps | apply State.fresh_keeps | apply RunKeeps.ok | apply RunKeeps.error
    | apply ResKeeps.next
    | (extract_lets +onlyGivenNames xq; refine (fun (hx : Keeps kb ke s xq) => ?_) ?_; rotate_left; dsimp -zeta only [xq]; rotate_left; clear_value xq)
    | (extract_lets +onlyGivenNames xq; (have hq : xq = xq := by (dsimp -zeta only [xq])); clear hq; clear_value xq)
    | refine ResKeeps.ite (fun _ => ?_) (fun _ => ?_) | refine Keeps.ite (fun _ => ?_) (fun _ => ?_) | split

theorem State.setLegState_keeps (h : Keeps kb ke u0 s) (x : LegId) (v : Nat) : Keeps kb ke u0 (State.setLegState s x v) := by
  unfold State.setLegState
  with_reducible repeat' first
    | assumption | apply State.fset_keeps

theorem State.dropEdges_keeps (h : Keeps kb ke u0 s) (x : LegId) : Keeps kb ke u0 (State.dropEdges s x) := by
  unfold State.dropEdges
  with_reducible repeat' first
    | assumption | apply State.modLeg_keeps | (intro _; skip) | exact Keeps.upd (by assumption)

theorem State.cutLeg_keeps (h : Keeps kb ke u0 s) (x : LegId) : Keeps kb ke u0 (State.cutLeg s x) := by
  unfold State.cutLeg
  with_reducible repeat' first
    | assumption | apply State.each_keeps | apply State.modLeg_keeps | apply State.emit_keeps
    | apply State.dropEdges_keeps | apply State.each_keeps | (intro _; skip)
    | (extract_lets +onlyGivenNames xq; refine (fun (hx : Keeps kb ke u0 xq) => ?_) ?_; rotate_left; dsimp -zeta only [xq]; rotate_left; clear_value xq)
    | (extract_lets +onlyGivenNames xq; (have hq : xq = xq := by (dsimp -zeta only [xq])); clear hq; clear_value xq)
    | refine Keeps.ite (fun _ => ?_) (fun _ => ?_) | split | exact Keeps.upd (by assumption)

theorem State.bridgeOff_keeps (h : Keeps kb ke u0 s) : Keeps kb ke u0 (State.bridgeOff s) := by
  unfold State.bridgeOff
  with_reducible repeat' first
    | assumption | apply State.each_keeps | apply State.modLeg_keeps | apply State.setLegState_keeps
    | apply State.cutLeg_keeps | apply State.each_keeps | (intro _; skip)
    | (extract_lets +onlyGivenNames xq; refine (fun (hx : Keeps kb ke u0 xq) => ?_) ?_; rotate_left; dsimp -zeta only [xq]; rotate_left; clear_value xq)
    | (extract_lets +onlyGivenNames xq; (have hq : xq = xq := by (dsimp -zeta only [xq])); clear hq; clear_value xq)
    | refine Keeps.ite (fun _ => ?_) (fun _ => ?_) | split | exact Keeps.upd (by assumption)

theorem State.startCharge_keeps (h : Keeps kb ke u0 s) (x : LegId) : Keeps kb ke u0 (State.startCharge s x) := by
  unfold State.startCharge
  with_reducible repeat' first
    | assumption | apply State.modLeg_keeps | (intro _; skip) | exact Keeps.upd (by assumption)

theorem State.bridgeStart_keeps (h : Keeps kb ke u0 s) : Keeps kb ke u0 (State.bridgeStart s) := by
  unfold State.bridgeStart
  with_reducible repeat' first
    | assumption | apply State.each_keeps | apply State.modLeg_keeps | apply State.setLegState_keeps
    | apply State.startCharge_keeps | apply State.each_keeps | (intro _; skip)
    | (extract_lets +onlyGivenNames xq; refine (fun (hx : Keeps kb ke u0 xq) => ?_) ?_; rotate_left; dsimp -zeta only [xq]; rotate_left; clear_value xq)
    | (extract_lets +onlyGivenNames xq; (have hq : xq = xq := by (dsimp -zeta only [xq])); clear hq; clear_value xq)
    | exact Keeps.upd (by assumption)

theorem State.gateFault_keeps (h : Keeps kb ke u0 s) (x : LegId) (cause : Fld) (count : Fld) (src : Nat) : Keeps kb ke u0 (State.gateFault s x cause count src) := by
  unfold State.gateFault
  with_reducible repeat' first
    | assumption | apply State.fset_keeps | apply State.finc_keeps | apply State.raise_keeps
    | apply State.setLegState_keeps
    | (extract_lets +onlyGivenNames xq; refine (fun (hx : Keeps kb ke u0 xq) => ?_) ?_; rotate_left; dsimp -zeta only [xq]; rotate_left; clear_value xq)
    | (extract_lets +onlyGivenNames xq; (have hq : xq = xq := by (dsimp -zeta only [xq])); clear hq; clear_value xq)
    | refine Keeps.ite (fun _ => ?_) (fun _ => ?_) | split

theorem State.lockoutFault_keeps (h : Keeps kb ke u0 s) (x : LegId) (high : Bool) (negative : Bool) : Keeps kb ke u0 (State.lockoutFault s x high negative) := by
  unfold State.lockoutFault
  with_reducible repeat' first
    | assumption | apply State.cutLeg_keeps | apply State.gateFault_keeps
    | (extract_lets +onlyGivenNames xq; refine (fun (hx : Keeps kb ke u0 xq) => ?_) ?_; rotate_left; dsimp -zeta only [xq]; rotate_left; clear_value xq)
    | (extract_lets +onlyGivenNames xq; (have hq : xq = xq := by (dsimp -zeta only [xq])); clear hq; clear_value xq)
    | refine Keeps.ite (fun _ => ?_) (fun _ => ?_) | split

theorem State.chargeEnd_keeps (h : Keeps kb ke u0 s) (x : LegId) : Keeps kb ke u0 (State.chargeEnd s x) := by
  unfold State.chargeEnd
  with_reducible repeat' first
    | assumption | apply State.each_keeps | apply State.modLeg_keeps | apply State.lockoutFault_keeps
    | apply State.each_keeps | (intro _; skip)
    | (extract_lets +onlyGivenNames xq; refine (fun (hx : Keeps kb ke u0 xq) => ?_) ?_; rotate_left; dsimp -zeta only [xq]; rotate_left; clear_value xq)
    | (extract_lets +onlyGivenNames xq; (have hq : xq = xq := by (dsimp -zeta only [xq])); clear hq; clear_value xq)
    | refine Keeps.ite (fun _ => ?_) (fun _ => ?_) | split | exact Keeps.upd (by assumption)

theorem State.placeEdges_keeps (h : Keeps kb ke u0 s) (x : LegId) (s0 : Nat) (hi : Option (Nat × Nat)) (lo : Option (Nat × Nat)) : Keeps kb ke u0 (State.placeEdges s x s0 hi lo) := by
  unfold State.placeEdges
  with_reducible repeat' first
    | assumption | apply State.each_keeps | apply State.modLeg_keeps | apply State.emit_keeps
    | apply State.each_keeps | (intro _; skip)
    | (extract_lets +onlyGivenNames xq; refine (fun (hx : Keeps kb ke u0 xq) => ?_) ?_; rotate_left; dsimp -zeta only [xq]; rotate_left; clear_value xq)
    | (extract_lets +onlyGivenNames xq; (have hq : xq = xq := by (dsimp -zeta only [xq])); clear hq; clear_value xq)
    | refine Keeps.ite (fun _ => ?_) (fun _ => ?_) | split | exact Keeps.upd (by assumption)

theorem State.legPattern_keeps (h : Keeps kb ke u0 s) (x : LegId) (s0 : Nat) (t : Nat) : Keeps kb ke u0 (State.legPattern s x s0 t) := by
  unfold State.legPattern
  with_reducible repeat' first
    | assumption | apply State.fsetBit_keeps | apply State.modLeg_keeps | apply State.setLegState_keeps
    | apply State.placeEdges_keeps | (intro _; skip)
    | (extract_lets +onlyGivenNames xq; refine (fun (hx : Keeps kb ke u0 xq) => ?_) ?_; rotate_left; dsimp -zeta only [xq]; rotate_left; clear_value xq)
    | (extract_lets +onlyGivenNames xq; (have hq : xq = xq := by (dsimp -zeta only [xq])); clear hq; clear_value xq)
    | refine Keeps.ite (fun _ => ?_) (fun _ => ?_) | split | exact Keeps.upd (by assumption)

theorem State.countLow_keeps (h : Keeps kb ke u0 s) (x : LegId) : Keeps kb ke u0 (State.countLow s x) := by
  unfold State.countLow
  with_reducible repeat' first
    | assumption | apply State.modLeg_keeps | (intro _; skip)
    | (extract_lets +onlyGivenNames xq; refine (fun (hx : Keeps kb ke u0 xq) => ?_) ?_; rotate_left; dsimp -zeta only [xq]; rotate_left; clear_value xq)
    | (extract_lets +onlyGivenNames xq; (have hq : xq = xq := by (dsimp -zeta only [xq])); clear hq; clear_value xq)
    | refine Keeps.ite (fun _ => ?_) (fun _ => ?_) | split | exact Keeps.upd (by assumption)

theorem State.legBefore_keeps (h : Keeps kb ke u0 s) (x : LegId) : Keeps kb ke u0 (State.legBefore s x) := by
  unfold State.legBefore
  with_reducible repeat' first
    | assumption | apply State.fsetBit_keeps | apply State.fclrBit_keeps | apply State.modLeg_keeps
    | apply State.chargeEnd_keeps | apply State.countLow_keeps | (intro _; skip)
    | (extract_lets +onlyGivenNames xq; refine (fun (hx : Keeps kb ke u0 xq) => ?_) ?_; rotate_left; dsimp -zeta only [xq]; rotate_left; clear_value xq)
    | (extract_lets +onlyGivenNames xq; (have hq : xq = xq := by (dsimp -zeta only [xq])); clear hq; clear_value xq)
    | refine Keeps.ite (fun _ => ?_) (fun _ => ?_) | split | exact Keeps.upd (by assumption)

theorem State.legStop_keeps (h : Keeps kb ke u0 s) (x : LegId) (st : Nat) : Keeps kb ke u0 (State.legStop s x st) := by
  unfold State.legStop
  with_reducible repeat' first
    | assumption | apply State.finc_keeps | apply State.fsetBit_keeps | apply State.modLeg_keeps
    | apply State.setLegState_keeps | apply State.cutLeg_keeps | (intro _; skip)
    | refine Keeps.ite (fun _ => ?_) (fun _ => ?_)
    | (extract_lets +onlyGivenNames xq; refine (fun (hx : Keeps kb ke u0 xq) => ?_) ?_; rotate_left; dsimp -zeta only [xq]; rotate_left; clear_value xq)
    | (extract_lets +onlyGivenNames xq; (have hq : xq = xq := by (dsimp -zeta only [xq])); clear hq; clear_value xq)
    | split | exact Keeps.upd (by assumption)

theorem State.legStart_keeps (h : Keeps kb ke u0 s) (s0 : Nat) (t : Nat) (x : LegId) (held : Option Nat) : Keeps kb ke u0 (State.legStart s s0 t x held) := by
  unfold State.legStart
  with_reducible repeat' first
    | assumption | apply State.legPattern_keeps | apply State.legStop_keeps | split
    | exact Keeps.upd (by assumption)

theorem State.legPeriod_keeps (h : Keeps kb ke u0 s) (s0 : Nat) (t : Nat) (x : LegId) : Keeps kb ke u0 (State.legPeriod s s0 t x) := by
  unfold State.legPeriod
  with_reducible repeat' first
    | assumption | apply State.legBefore_keeps | apply State.legStart_keeps

theorem State.takeEntry_keeps (h : Keeps kb ke u0 s) (s0 : Nat) : Keeps kb ke u0 (State.takeEntry s s0) := by
  unfold State.takeEntry
  with_reducible repeat' first
    | assumption | apply State.each_keeps | apply State.fset_keeps | apply State.finc_keeps
    | apply State.modLeg_keeps | apply Run.late_keeps | apply State.each_keeps | (intro _; skip)
    | (extract_lets +onlyGivenNames xq; refine (fun (hx : Keeps kb ke u0 xq) => ?_) ?_; rotate_left; dsimp -zeta only [xq]; rotate_left; clear_value xq)
    | (extract_lets +onlyGivenNames xq; (have hq : xq = xq := by (dsimp -zeta only [xq])); clear hq; clear_value xq)
    | refine Keeps.ite (fun _ => ?_) (fun _ => ?_) | split | exact Keeps.upd (by assumption)

theorem execBrgEntryReceived_keeps (entry : BitVec 128) (s : State) : ResKeeps kb ke s (execBrgEntryReceived entry s) := by
  have h := State.fresh_keeps (Keeps.refl kb ke s)
  unfold execBrgEntryReceived
  with_reducible repeat' first
    | assumption | apply State.fresh_keeps | apply State.raise_keeps | apply RunKeeps.ok | apply RunKeeps.error
    | apply ResKeeps.next
    | (extract_lets +onlyGivenNames xq; refine (fun (hx : Keeps kb ke s xq) => ?_) ?_; rotate_left; dsimp -zeta only [xq]; rotate_left; clear_value xq)
    | (extract_lets +onlyGivenNames xq; (have hq : xq = xq := by (dsimp -zeta only [xq])); clear hq; clear_value xq)
    | refine ResKeeps.ite (fun _ => ?_) (fun _ => ?_) | refine Keeps.ite (fun _ => ?_) (fun _ => ?_) | split
    | exact Keeps.upd (by assumption)

theorem State.tripLeg_keeps (h : Keeps kb ke u0 s) (t : Nat) (x : LegId) : Keeps kb ke u0 (State.tripLeg s t x) := by
  unfold State.tripLeg
  with_reducible repeat' first
    | assumption | apply State.finc_keeps | apply State.fsetBit_keeps | apply State.modLeg_keeps
    | apply State.setLegState_keeps | apply State.cutLeg_keeps | (intro _; skip)
    | (extract_lets +onlyGivenNames xq; refine (fun (hx : Keeps kb ke u0 xq) => ?_) ?_; rotate_left; dsimp -zeta only [xq]; rotate_left; clear_value xq)
    | (extract_lets +onlyGivenNames xq; (have hq : xq = xq := by (dsimp -zeta only [xq])); clear hq; clear_value xq)
    | refine Keeps.ite (fun _ => ?_) (fun _ => ?_) | split | exact Keeps.upd (by assumption)

theorem execTrip_keeps (t : TripId) (s : State) (input : Option (Bool × Nat) := none) : ResKeeps kb ke s (execTrip t s input) := by
  have h := State.fresh_keeps (Keeps.refl kb ke s)
  unfold execTrip
  with_reducible repeat' first
    | assumption | apply State.each_keeps | apply State.fsetBit_keeps | apply State.fresh_keeps
    | apply State.raise_keeps | apply State.tripLeg_keeps | apply RunKeeps.ok | apply RunKeeps.error
    | apply ResKeeps.next | apply State.each_keeps | (intro _; skip)
    | (extract_lets +onlyGivenNames xq; refine (fun (hx : Keeps kb ke s xq) => ?_) ?_; rotate_left; dsimp -zeta only [xq]; rotate_left; clear_value xq)
    | (extract_lets +onlyGivenNames xq; (have hq : xq = xq := by (dsimp -zeta only [xq])); clear hq; clear_value xq)
    | refine ResKeeps.ite (fun _ => ?_) (fun _ => ?_) | refine Keeps.ite (fun _ => ?_) (fun _ => ?_) | split

theorem execTripInactive_keeps (t : TripId) (s : State) (input : Option Bool := none) : ResKeeps kb ke s (execTripInactive t s input) := by
  have h := State.fresh_keeps (Keeps.refl kb ke s)
  unfold execTripInactive
  with_reducible repeat' first
    | assumption | apply State.fclrBit_keeps | apply State.fresh_keeps | apply RunKeeps.ok | apply RunKeeps.error
    | apply ResKeeps.next
    | (extract_lets +onlyGivenNames xq; refine (fun (hx : Keeps kb ke s xq) => ?_) ?_; rotate_left; dsimp -zeta only [xq]; rotate_left; clear_value xq)
    | (extract_lets +onlyGivenNames xq; (have hq : xq = xq := by (dsimp -zeta only [xq])); clear hq; clear_value xq)
    | refine ResKeeps.ite (fun _ => ?_) (fun _ => ?_) | refine Keeps.ite (fun _ => ?_) (fun _ => ?_) | split

theorem State.clearLatched_keeps (h : Keeps kb ke u0 s) (legs : BitVec 4) : Keeps kb ke u0 (State.clearLatched s legs) := by
  unfold State.clearLatched
  with_reducible repeat' first
    | assumption | apply State.each_keeps | apply State.fset_keeps | apply State.fclrBit_keeps
    | apply State.setLegState_keeps | apply State.each_keeps | (intro _; skip)
    | (extract_lets +onlyGivenNames xq; refine (fun (hx : Keeps kb ke u0 xq) => ?_) ?_; rotate_left; dsimp -zeta only [xq]; rotate_left; clear_value xq)
    | (extract_lets +onlyGivenNames xq; (have hq : xq = xq := by (dsimp -zeta only [xq])); clear hq; clear_value xq)
    | refine Keeps.ite (fun _ => ?_) (fun _ => ?_) | split

theorem execGateSupplyLockout_keeps (x : LegId) (high : Bool) (negative : Bool) (s : State) (seen : Option (Nat × Nat) := none) : ResKeeps kb ke s (execGateSupplyLockout x high negative s seen) := by
  have h := State.fresh_keeps (Keeps.refl kb ke s)
  unfold execGateSupplyLockout
  with_reducible repeat' first
    | assumption | apply State.fclrBit_keeps | apply State.modLeg_keeps | apply State.fresh_keeps
    | apply State.lockoutFault_keeps | apply RunKeeps.ok | apply RunKeeps.error | apply ResKeeps.next
    | (intro _; skip)
    | (extract_lets +onlyGivenNames xq; refine (fun (hx : Keeps kb ke s xq) => ?_) ?_; rotate_left; dsimp -zeta only [xq]; rotate_left; clear_value xq)
    | (extract_lets +onlyGivenNames xq; (have hq : xq = xq := by (dsimp -zeta only [xq])); clear hq; clear_value xq)
    | refine ResKeeps.ite (fun _ => ?_) (fun _ => ?_) | refine Keeps.ite (fun _ => ?_) (fun _ => ?_) | split
    | exact Keeps.upd (by assumption)

theorem execGateSupplyRelease_keeps (x : LegId) (high : Bool) (negative : Bool) (s : State) (seen : Option (Nat × Nat) := none) : ResKeeps kb ke s (execGateSupplyRelease x high negative s seen) := by
  have h := State.fresh_keeps (Keeps.refl kb ke s)
  unfold execGateSupplyRelease
  with_reducible repeat' first
    | assumption | apply State.fsetBit_keeps | apply State.fresh_keeps | apply RunKeeps.ok | apply RunKeeps.error
    | apply ResKeeps.next | (intro _; skip)
    | (extract_lets +onlyGivenNames xq; refine (fun (hx : Keeps kb ke s xq) => ?_) ?_; rotate_left; dsimp -zeta only [xq]; rotate_left; clear_value xq)
    | (extract_lets +onlyGivenNames xq; (have hq : xq = xq := by (dsimp -zeta only [xq])); clear hq; clear_value xq)
    | refine ResKeeps.ite (fun _ => ?_) (fun _ => ?_) | refine Keeps.ite (fun _ => ?_) (fun _ => ?_) | split

theorem State.softStart_keeps (h : Keeps kb ke u0 s) (x : LegId) : Keeps kb ke u0 (State.softStart s x) := by
  unfold State.softStart
  with_reducible repeat' first
    | assumption | apply State.modLeg_keeps | apply State.cutLeg_keeps | (intro _; skip)
    | (extract_lets +onlyGivenNames xq; refine (fun (hx : Keeps kb ke u0 xq) => ?_) ?_; rotate_left; dsimp -zeta only [xq]; rotate_left; clear_value xq)
    | (extract_lets +onlyGivenNames xq; (have hq : xq = xq := by (dsimp -zeta only [xq])); clear hq; clear_value xq)
    | exact Keeps.upd (by assumption)

theorem State.shortFault_keeps (h : Keeps kb ke u0 s) (x : LegId) (cause : Fld) (count : Fld) (src : Nat) : Keeps kb ke u0 (State.shortFault s x cause count src) := by
  unfold State.shortFault
  with_reducible repeat' first
    | assumption | apply State.modLeg_keeps | apply State.dropEdges_keeps | apply State.gateFault_keeps
    | (intro _; skip)
    | (extract_lets +onlyGivenNames xq; refine (fun (hx : Keeps kb ke u0 xq) => ?_) ?_; rotate_left; dsimp -zeta only [xq]; rotate_left; clear_value xq)
    | (extract_lets +onlyGivenNames xq; (have hq : xq = xq := by (dsimp -zeta only [xq])); clear hq; clear_value xq)
    | refine Keeps.ite (fun _ => ?_) (fun _ => ?_) | split | exact Keeps.upd (by assumption)

theorem execDesaturationFault_keeps (x : LegId) (high : Bool) (s : State) (mv : Option Nat := none) : ResKeeps kb ke s (execDesaturationFault x high s mv) := by
  have h := State.fresh_keeps (Keeps.refl kb ke s)
  unfold execDesaturationFault
  with_reducible repeat' first
    | assumption | apply State.fresh_keeps | apply State.shortFault_keeps | apply RunKeeps.ok | apply RunKeeps.error
    | apply ResKeeps.next | (intro _; skip)
    | (extract_lets +onlyGivenNames xq; refine (fun (hx : Keeps kb ke s xq) => ?_) ?_; rotate_left; dsimp -zeta only [xq]; rotate_left; clear_value xq)
    | (extract_lets +onlyGivenNames xq; (have hq : xq = xq := by (dsimp -zeta only [xq])); clear hq; clear_value xq)
    | refine ResKeeps.ite (fun _ => ?_) (fun _ => ?_) | refine Keeps.ite (fun _ => ?_) (fun _ => ?_) | split

theorem execOvercurrentFault_keeps (x : LegId) (s : State) (seen : Option (Nat × Nat) := none) : ResKeeps kb ke s (execOvercurrentFault x s seen) := by
  have h := State.fresh_keeps (Keeps.refl kb ke s)
  unfold execOvercurrentFault
  with_reducible repeat' first
    | assumption | apply State.fsetBit_keeps | apply State.fresh_keeps | apply State.shortFault_keeps
    | apply RunKeeps.ok | apply RunKeeps.error | apply ResKeeps.next | (intro _; skip)
    | (extract_lets +onlyGivenNames xq; refine (fun (hx : Keeps kb ke s xq) => ?_) ?_; rotate_left; dsimp -zeta only [xq]; rotate_left; clear_value xq)
    | (extract_lets +onlyGivenNames xq; (have hq : xq = xq := by (dsimp -zeta only [xq])); clear hq; clear_value xq)
    | refine ResKeeps.ite (fun _ => ?_) (fun _ => ?_) | refine Keeps.ite (fun _ => ?_) (fun _ => ?_) | split

theorem execOvercurrentEnd_keeps (x : LegId) (s : State) (mv : Option Nat := none) : ResKeeps kb ke s (execOvercurrentEnd x s mv) := by
  have h := State.fresh_keeps (Keeps.refl kb ke s)
  unfold execOvercurrentEnd
  with_reducible repeat' first
    | assumption | apply State.fclrBit_keeps | apply State.fresh_keeps | apply RunKeeps.ok | apply RunKeeps.error
    | apply ResKeeps.next | (intro _; skip)
    | (extract_lets +onlyGivenNames xq; refine (fun (hx : Keeps kb ke s xq) => ?_) ?_; rotate_left; dsimp -zeta only [xq]; rotate_left; clear_value xq)
    | (extract_lets +onlyGivenNames xq; (have hq : xq = xq := by (dsimp -zeta only [xq])); clear hq; clear_value xq)
    | refine ResKeeps.ite (fun _ => ?_) (fun _ => ?_) | refine Keeps.ite (fun _ => ?_) (fun _ => ?_) | split

theorem execSoftTurnoffStart_keeps (x : LegId) (s : State) : ResKeeps kb ke s (execSoftTurnoffStart x s) := by
  have h := State.fresh_keeps (Keeps.refl kb ke s)
  unfold execSoftTurnoffStart
  with_reducible repeat' first
    | assumption | apply State.advanceTo_keeps | apply State.fresh_keeps | apply State.softStart_keeps
    | apply RunKeeps.ok | apply RunKeeps.error | apply ResKeeps.next
    | (extract_lets +onlyGivenNames xq; refine (fun (hx : Keeps kb ke s xq) => ?_) ?_; rotate_left; dsimp -zeta only [xq]; rotate_left; clear_value xq)
    | (extract_lets +onlyGivenNames xq; (have hq : xq = xq := by (dsimp -zeta only [xq])); clear hq; clear_value xq)
    | refine ResKeeps.ite (fun _ => ?_) (fun _ => ?_) | refine Keeps.ite (fun _ => ?_) (fun _ => ?_) | split

theorem State.softNext_keeps (h : Keeps kb ke u0 s) : Keeps kb ke u0 (State.softNext s) := by
  unfold State.softNext
  with_reducible repeat' first
    | assumption | apply State.softStart_keeps | (intro _; skip) | split | exact Keeps.upd (by assumption)

theorem execSoftTurnoffEnd_keeps (x : LegId) (s : State) : ResKeeps kb ke s (execSoftTurnoffEnd x s) := by
  have h := State.fresh_keeps (Keeps.refl kb ke s)
  unfold execSoftTurnoffEnd
  with_reducible repeat' first
    | assumption | apply State.advanceTo_keeps | apply State.modLeg_keeps | apply State.fresh_keeps
    | apply RunKeeps.ok | apply RunKeeps.error | apply ResKeeps.next | (intro _; skip)
    | (extract_lets +onlyGivenNames xq; refine (fun (hx : Keeps kb ke s xq) => ?_) ?_; rotate_left; dsimp -zeta only [xq]; rotate_left; clear_value xq)
    | (extract_lets +onlyGivenNames xq; (have hq : xq = xq := by (dsimp -zeta only [xq])); clear hq; clear_value xq)
    | refine ResKeeps.ite (fun _ => ?_) (fun _ => ?_) | refine Keeps.ite (fun _ => ?_) (fun _ => ?_) | split
    | exact Keeps.upd (by assumption)

theorem State.clearGateFault_keeps (h : Keeps kb ke u0 s) (x : LegId) : Keeps kb ke u0 (State.clearGateFault s x) := by
  unfold State.clearGateFault
  with_reducible repeat' first
    | assumption | apply State.fset_keeps | apply State.setLegState_keeps | apply State.startCharge_keeps
    | (extract_lets +onlyGivenNames xq; refine (fun (hx : Keeps kb ke u0 xq) => ?_) ?_; rotate_left; dsimp -zeta only [xq]; rotate_left; clear_value xq)
    | (extract_lets +onlyGivenNames xq; (have hq : xq = xq := by (dsimp -zeta only [xq])); clear hq; clear_value xq)
    | refine Keeps.ite (fun _ => ?_) (fun _ => ?_) | split

theorem State.channelOff_keeps (h : Keeps kb ke u0 s) (x : LegId) (high : Bool) : Keeps kb ke u0 (State.channelOff s x high) := by
  unfold State.channelOff
  with_reducible repeat' first
    | assumption | apply State.modLeg_keeps | apply State.emit_keeps | (intro _; skip)
    | (extract_lets +onlyGivenNames xq; refine (fun (hx : Keeps kb ke u0 xq) => ?_) ?_; rotate_left; dsimp -zeta only [xq]; rotate_left; clear_value xq)
    | (extract_lets +onlyGivenNames xq; (have hq : xq = xq := by (dsimp -zeta only [xq])); clear hq; clear_value xq)
    | refine Keeps.ite (fun _ => ?_) (fun _ => ?_) | split | exact Keeps.upd (by assumption)

theorem execGateCommandLoss_keeps (x : LegId) (high : Bool) (s : State) (primary : Option Bool := none) : ResKeeps kb ke s (execGateCommandLoss x high s primary) := by
  have h := State.fresh_keeps (Keeps.refl kb ke s)
  unfold execGateCommandLoss
  with_reducible repeat' first
    | assumption | apply State.fresh_keeps | apply State.channelOff_keeps | apply RunKeeps.ok | apply RunKeeps.error
    | apply ResKeeps.next
    | (extract_lets +onlyGivenNames xq; refine (fun (hx : Keeps kb ke s xq) => ?_) ?_; rotate_left; dsimp -zeta only [xq]; rotate_left; clear_value xq)
    | (extract_lets +onlyGivenNames xq; (have hq : xq = xq := by (dsimp -zeta only [xq])); clear hq; clear_value xq)
    | split | exact Keeps.upd (by assumption)

theorem State.gatesLost_keeps (h : Keeps kb ke u0 s) : Keeps kb ke u0 (State.gatesLost s) := by
  unfold State.gatesLost
  with_reducible repeat' first
    | assumption | apply State.each_keeps | apply State.cutLeg_keeps | apply State.each_keeps | (intro _; skip)
    | (extract_lets +onlyGivenNames xq; refine (fun (hx : Keeps kb ke u0 xq) => ?_) ?_; rotate_left; dsimp -zeta only [xq]; rotate_left; clear_value xq)
    | (extract_lets +onlyGivenNames xq; (have hq : xq = xq := by (dsimp -zeta only [xq])); clear hq; clear_value xq)
    | exact Keeps.upd (by assumption)

theorem State.latchPstart_keeps (h : Keeps kb ke u0 s) : Keeps kb ke u0 (State.latchPstart s) := by
  unfold State.latchPstart
  with_reducible repeat' first
    | assumption | apply State.fset_keeps

end Sys2Proof.Machine
end

