-- ==== Sys2Proof/Laws/KeepsUnits.lean ====
section
/-!
SUPPORT. What every operation keeps (`Keeps`): the converters, capture, the meter, the safety unit, faults, memory and the thermal unit.
-/

namespace Sys2Proof.Machine

set_option linter.unusedVariables false

variable {kb ke : Bool} {u0 s : State}

theorem State.sampleAll_keeps (h : Keeps kb ke u0 s) (codes : List Int) : Keeps kb ke u0 (State.sampleAll s codes).2 := by
  unfold State.sampleAll
  with_reducible repeat' first
    | assumption | apply State.each_keeps | apply State.fsetBit_keeps | refine Keeps.ofFst (by assumption) ?_
    | refine Keeps.ofSnd (by assumption) ?_ | dsimp only | apply State.each_keeps | (intro _; skip)
    | (extract_lets +onlyGivenNames xq; refine (fun (hx : Keeps kb ke u0 xq) => ?_) ?_; rotate_left; dsimp -zeta only [xq]; rotate_left; clear_value xq)
    | (extract_lets +onlyGivenNames xq; (have hq : xq = xq := by (dsimp -zeta only [xq])); clear hq; clear_value xq)
    | refine Keeps.iteFst (fun _ => ?_) (fun _ => ?_) | refine Keeps.ite (fun _ => ?_) (fun _ => ?_) | split

theorem State.haltGroup_keeps (h : Keeps kb ke u0 s) (g : UnitId) : Keeps kb ke u0 (State.haltGroup s g) := by
  unfold State.haltGroup
  with_reducible repeat' first
    | assumption | apply State.fsetBit_keeps | apply State.raise_keeps | (intro _; skip)
    | (extract_lets +onlyGivenNames xq; refine (fun (hx : Keeps kb ke u0 xq) => ?_) ?_; rotate_left; dsimp -zeta only [xq]; rotate_left; clear_value xq)
    | (extract_lets +onlyGivenNames xq; (have hq : xq = xq := by (dsimp -zeta only [xq])); clear hq; clear_value xq)
    | exact Keeps.upd (by assumption)

theorem State.dmaWord_keeps (h : Keeps kb ke u0 s) (g : UnitId) (period : Nat) (a : Nat) (w : Nat) : Keeps kb ke u0 (State.dmaWord s g period a w) := by
  unfold State.dmaWord
  with_reducible repeat' first
    | assumption | apply State.memStore_keeps | apply State.haltGroup_keeps | refine Keeps.ofFst (by assumption) ?_
    | refine Keeps.ofSnd (by assumption) ?_ | dsimp only
    | (extract_lets +onlyGivenNames xq; refine (fun (hx : Keeps kb ke u0 xq) => ?_) ?_; rotate_left; dsimp -zeta only [xq]; rotate_left; clear_value xq)
    | (extract_lets +onlyGivenNames xq; (have hq : xq = xq := by (dsimp -zeta only [xq])); clear hq; clear_value xq)
    | refine Keeps.ite (fun _ => ?_) (fun _ => ?_) | split

theorem State.dropWord_keeps (h : Keeps kb ke u0 s) : Keeps kb ke u0 (State.dropWord s) := by
  unfold State.dropWord
  with_reducible repeat' first
    | assumption | apply State.raise_keeps | exact Keeps.upd (by assumption)

theorem State.groupSample_keeps (h : Keeps kb ke u0 s) (g : UnitId) (i : Nat) (code : Nat → BitVec 16) (full : Word) : Keeps kb ke u0 (State.groupSample s g i code full) := by
  unfold State.groupSample
  with_reducible repeat' first
    | assumption | apply State.each_keeps | apply State.dmaWord_keeps | apply State.dropWord_keeps
    | apply State.each_keeps | (intro _; skip)
    | (extract_lets +onlyGivenNames xq; refine (fun (hx : Keeps kb ke u0 xq) => ?_) ?_; rotate_left; dsimp -zeta only [xq]; rotate_left; clear_value xq)
    | (extract_lets +onlyGivenNames xq; (have hq : xq = xq := by (dsimp -zeta only [xq])); clear hq; clear_value xq)
    | refine Keeps.ite (fun _ => ?_) (fun _ => ?_) | split

theorem State.closeFrame_keeps (h : Keeps kb ke u0 s) (g : UnitId) : Keeps kb ke u0 (State.closeFrame s g) := by
  unfold State.closeFrame
  with_reducible repeat' first
    | assumption | apply State.each_keeps | apply State.fsetBit_keeps | apply State.groupSample_keeps
    | apply State.each_keeps | (intro _; skip)
    | (extract_lets +onlyGivenNames xq; refine (fun (hx : Keeps kb ke u0 xq) => ?_) ?_; rotate_left; dsimp -zeta only [xq]; rotate_left; clear_value xq)
    | (extract_lets +onlyGivenNames xq; (have hq : xq = xq := by (dsimp -zeta only [xq])); clear hq; clear_value xq)
    | refine Keeps.ite (fun _ => ?_) (fun _ => ?_) | split | exact Keeps.upd (by assumption)

theorem State.groupsAt_keeps (h : Keeps kb ke u0 s) (slot : Nat) (code : Nat → BitVec 16) (full : Word) : Keeps kb ke u0 (State.groupsAt s slot code full) := by
  unfold State.groupsAt
  with_reducible repeat' first
    | assumption | apply State.each_keeps | apply State.groupSample_keeps | apply State.closeFrame_keeps
    | apply State.each_keeps | (intro _; skip)
    | (extract_lets +onlyGivenNames xq; refine (fun (hx : Keeps kb ke u0 xq) => ?_) ?_; rotate_left; dsimp -zeta only [xq]; rotate_left; clear_value xq)
    | (extract_lets +onlyGivenNames xq; (have hq : xq = xq := by (dsimp -zeta only [xq])); clear hq; clear_value xq)
    | refine Keeps.ite (fun _ => ?_) (fun _ => ?_) | split

theorem State.zxPrint_keeps (h : Keeps kb ke u0 s) (t : Nat) : Keeps kb ke u0 (State.zxPrint s t) := by
  unfold State.zxPrint
  with_reducible repeat' first
    | assumption | apply State.takesReach_keeps

theorem State.zxSlot_keeps (h : Keeps kb ke u0 s) (t : Nat) (code : Nat → BitVec 16) (bad : Word) : Keeps kb ke u0 (State.zxSlot s t code bad) := by
  unfold State.zxSlot
  with_reducible repeat' first
    | assumption | apply State.fset_keeps | apply State.raise_keeps | apply State.zxPrint_keeps
    | (extract_lets +onlyGivenNames xq; refine (fun (hx : Keeps kb ke u0 xq) => ?_) ?_; rotate_left; dsimp -zeta only [xq]; rotate_left; clear_value xq)
    | (extract_lets +onlyGivenNames xq; (have hq : xq = xq := by (dsimp -zeta only [xq])); clear hq; clear_value xq)
    | refine Keeps.ite (fun _ => ?_) (fun _ => ?_) | split | exact Keeps.upd (by assumption)

theorem State.busSlot_keeps (h : Keeps kb ke u0 s) (slot : Nat) (code : Nat → BitVec 16) (bad : Word) : Keeps kb ke u0 (State.busSlot s slot code bad) := by
  unfold State.busSlot
  with_reducible repeat' first
    | assumption
    | (extract_lets +onlyGivenNames xq; refine (fun (hx : Keeps kb ke u0 xq) => ?_) ?_; rotate_left; dsimp -zeta only [xq]; rotate_left; clear_value xq)
    | (extract_lets +onlyGivenNames xq; (have hq : xq = xq := by (dsimp -zeta only [xq])); clear hq; clear_value xq)
    | refine Keeps.ite (fun _ => ?_) (fun _ => ?_) | split | exact Keeps.upd (by assumption)

theorem State.adcTick_keeps (h : Keeps kb ke u0 s) (n : Nat) (tick : Nat) : Keeps kb ke u0 (State.adcTick s n tick) := by
  unfold State.adcTick
  with_reducible repeat' first
    | assumption | apply State.applyLiveBlock_keeps | (intro _; skip)
    | (extract_lets +onlyGivenNames xq; refine (fun (hx : Keeps kb ke u0 xq) => ?_) ?_; rotate_left; dsimp -zeta only [xq]; rotate_left; clear_value xq)
    | (extract_lets +onlyGivenNames xq; (have hq : xq = xq := by (dsimp -zeta only [xq])); clear hq; clear_value xq)
    | refine Keeps.ite (fun _ => ?_) (fun _ => ?_) | split | exact Keeps.upd (by assumption)

theorem execGroupStampWrite_keeps (g : UnitId) (s : State) : ResKeeps kb ke s (execGroupStampWrite g s) := by
  have h := State.fresh_keeps (Keeps.refl kb ke s)
  unfold execGroupStampWrite
  with_reducible repeat' first
    | assumption | apply State.advanceTo_keeps | apply State.fresh_keeps | apply State.stampIntake_keeps
    | apply State.dmaWord_keeps | apply RunKeeps.ok | apply RunKeeps.error | apply ResKeeps.next | (intro _; skip)
    | (extract_lets +onlyGivenNames xq; refine (fun (hx : Keeps kb ke s xq) => ?_) ?_; rotate_left; dsimp -zeta only [xq]; rotate_left; clear_value xq)
    | (extract_lets +onlyGivenNames xq; (have hq : xq = xq := by (dsimp -zeta only [xq])); clear hq; clear_value xq)
    | refine ResKeeps.ite (fun _ => ?_) (fun _ => ?_) | refine Keeps.ite (fun _ => ?_) (fun _ => ?_) | split
    | exact Keeps.upd (by assumption)

theorem State.gbufWritten_keeps (h : Keeps kb ke u0 s) (g : UnitId) : Keeps kb ke u0 (State.gbufWritten s g) := by
  unfold State.gbufWritten
  with_reducible repeat' first
    | assumption | refine Keeps.ite (fun _ => ?_) (fun _ => ?_) | split | exact Keeps.upd (by assumption)

theorem State.unsettle_keeps (h : Keeps kb ke u0 s) (k : UnitId) : Keeps kb ke u0 (State.unsettle s k) := by
  unfold State.unsettle
  with_reducible repeat' first
    | assumption | apply State.fset_keeps | apply State.fclrBit_keeps | apply State.raise_keeps
    | apply State.settle_keeps
    | (extract_lets +onlyGivenNames xq; refine (fun (hx : Keeps kb ke u0 xq) => ?_) ?_; rotate_left; dsimp -zeta only [xq]; rotate_left; clear_value xq)
    | (extract_lets +onlyGivenNames xq; (have hq : xq = xq := by (dsimp -zeta only [xq])); clear hq; clear_value xq)
    | refine Keeps.ite (fun _ => ?_) (fun _ => ?_) | split | exact Keeps.upd (by assumption)

theorem State.abortCal_keeps (h : Keeps kb ke u0 s) (k : UnitId) : Keeps kb ke u0 (State.abortCal s k) := by
  unfold State.abortCal
  with_reducible repeat' first
    | assumption | apply State.fset_keeps | apply State.fclrBit_keeps | apply State.unsettle_keeps
    | refine Keeps.ite (fun _ => ?_) (fun _ => ?_) | split

theorem State.refWritten_keeps (h : Keeps kb ke u0 s) (old : Word) : Keeps kb ke u0 (State.refWritten s old) := by
  unfold State.refWritten
  with_reducible repeat' first
    | assumption | apply State.each_keeps | apply State.unsettle_keeps | apply State.abortCal_keeps
    | apply State.each_keeps | (intro _; skip)
    | (extract_lets +onlyGivenNames xq; refine (fun (hx : Keeps kb ke u0 xq) => ?_) ?_; rotate_left; dsimp -zeta only [xq]; rotate_left; clear_value xq)
    | (extract_lets +onlyGivenNames xq; (have hq : xq = xq := by (dsimp -zeta only [xq])); clear hq; clear_value xq)
    | refine Keeps.ite (fun _ => ?_) (fun _ => ?_) | split

theorem execReferenceSettled_keeps (k : UnitId) (s : State) : ResKeeps kb ke s (execReferenceSettled k s) := by
  have h := State.fresh_keeps (Keeps.refl kb ke s)
  unfold execReferenceSettled
  with_reducible repeat' first
    | assumption | apply State.advanceTo_keeps | apply State.fsetBit_keeps | apply State.fresh_keeps
    | apply State.settle_keeps | apply RunKeeps.ok | apply RunKeeps.error | apply ResKeeps.next
    | (extract_lets +onlyGivenNames xq; refine (fun (hx : Keeps kb ke s xq) => ?_) ?_; rotate_left; dsimp -zeta only [xq]; rotate_left; clear_value xq)
    | (extract_lets +onlyGivenNames xq; (have hq : xq = xq := by (dsimp -zeta only [xq])); clear hq; clear_value xq)
    | split | exact Keeps.upd (by assumption)

theorem State.setRefOk_keeps (h : Keeps kb ke u0 s) (r : RefSource) (ok : Bool) : Keeps kb ke u0 (State.setRefOk s r ok) := by
  unfold State.setRefOk
  with_reducible repeat' first
    | assumption | split | exact Keeps.upd (by assumption)

theorem execReferenceLost_keeps (r : RefSource) (s : State) : ResKeeps kb ke s (execReferenceLost r s) := by
  have h := State.fresh_keeps (Keeps.refl kb ke s)
  unfold execReferenceLost
  with_reducible repeat' first
    | assumption | apply State.each_keeps | apply State.fset_keeps | apply State.fclrBit_keeps
    | apply State.fresh_keeps | apply State.raise_keeps | apply State.settle_keeps | apply State.setRefOk_keeps
    | apply RunKeeps.ok | apply RunKeeps.error | apply ResKeeps.next | apply State.each_keeps | (intro _; skip)
    | (extract_lets +onlyGivenNames xq; refine (fun (hx : Keeps kb ke s xq) => ?_) ?_; rotate_left; dsimp -zeta only [xq]; rotate_left; clear_value xq)
    | (extract_lets +onlyGivenNames xq; (have hq : xq = xq := by (dsimp -zeta only [xq])); clear hq; clear_value xq)
    | refine ResKeeps.ite (fun _ => ?_) (fun _ => ?_) | refine Keeps.ite (fun _ => ?_) (fun _ => ?_) | split
    | exact Keeps.upd (by assumption)

theorem execReferenceReturn_keeps (r : RefSource) (s : State) (nv : Nat := 5000000000) : ResKeeps kb ke s (execReferenceReturn r s nv) := by
  have h := State.fresh_keeps (Keeps.refl kb ke s)
  unfold execReferenceReturn
  with_reducible repeat' first
    | assumption | apply State.each_keeps | apply State.fresh_keeps | apply State.unsettle_keeps
    | apply State.setRefOk_keeps | apply RunKeeps.ok | apply RunKeeps.error | apply ResKeeps.next
    | apply State.each_keeps | (intro _; skip) | refine ResKeeps.ite (fun _ => ?_) (fun _ => ?_)
    | refine Keeps.ite (fun _ => ?_) (fun _ => ?_)
    | (extract_lets +onlyGivenNames xq; refine (fun (hx : Keeps kb ke s xq) => ?_) ?_; rotate_left; dsimp -zeta only [xq]; rotate_left; clear_value xq)
    | (extract_lets +onlyGivenNames xq; (have hq : xq = xq := by (dsimp -zeta only [xq])); clear hq; clear_value xq)
    | split | exact Keeps.upd (by assumption)

theorem State.startCal_keeps (h : Keeps kb ke u0 s) (k : UnitId) : Keeps kb ke u0 (State.startCal s k) := by
  unfold State.startCal
  with_reducible repeat' first
    | assumption | apply State.fset_keeps | apply State.fsetBit_keeps
    | (extract_lets +onlyGivenNames xq; refine (fun (hx : Keeps kb ke u0 xq) => ?_) ?_; rotate_left; dsimp -zeta only [xq]; rotate_left; clear_value xq)
    | (extract_lets +onlyGivenNames xq; (have hq : xq = xq := by (dsimp -zeta only [xq])); clear hq; clear_value xq)
    | refine Keeps.ite (fun _ => ?_) (fun _ => ?_) | split | exact Keeps.upd (by assumption)

theorem State.calibrate_keeps (h : Keeps kb ke u0 s) (converters : BitVec 8) : Keeps kb ke u0 (State.calibrate s converters) := by
  unfold State.calibrate
  with_reducible repeat' first
    | assumption | apply State.each_keeps | apply State.startCal_keeps | apply State.each_keeps | (intro _; skip)

theorem execCalibrationDone_keeps (k : UnitId) (gain : BitVec 16) (offs : BitVec 16) (s : State) : ResKeeps kb ke s (execCalibrationDone k gain offs s) := by
  have h := State.fresh_keeps (Keeps.refl kb ke s)
  unfold execCalibrationDone
  with_reducible repeat' first
    | assumption | apply State.advanceTo_keeps | apply State.fset_keeps | apply State.fclrBit_keeps
    | apply State.fresh_keeps | apply State.newVersion_keeps | apply RunKeeps.ok | apply RunKeeps.error
    | apply ResKeeps.next
    | (extract_lets +onlyGivenNames xq; refine (fun (hx : Keeps kb ke s xq) => ?_) ?_; rotate_left; dsimp -zeta only [xq]; rotate_left; clear_value xq)
    | (extract_lets +onlyGivenNames xq; (have hq : xq = xq := by (dsimp -zeta only [xq])); clear hq; clear_value xq)
    | refine ResKeeps.ite (fun _ => ?_) (fun _ => ?_) | refine Keeps.ite (fun _ => ?_) (fun _ => ?_) | split

theorem State.adcRelease_keeps (h : Keeps kb ke u0 s) : Keeps kb ke u0 (State.adcRelease s) := by
  unfold State.adcRelease
  with_reducible repeat' first
    | assumption | apply State.each_keeps | apply State.unsettle_keeps | apply State.each_keeps | (intro _; skip)
    | (extract_lets +onlyGivenNames xq; refine (fun (hx : Keeps kb ke u0 xq) => ?_) ?_; rotate_left; dsimp -zeta only [xq]; rotate_left; clear_value xq)
    | (extract_lets +onlyGivenNames xq; (have hq : xq = xq := by (dsimp -zeta only [xq])); clear hq; clear_value xq)
    | exact Keeps.upd (by assumption)

theorem State.latchZx_keeps (h : Keeps kb ke u0 s) : Keeps kb ke u0 (State.latchZx s) := by
  unfold State.latchZx
  with_reducible repeat' first
    | assumption | apply State.fset_keeps

theorem State.captAxis_keeps (h : Keeps kb ke u0 s) : Keeps kb ke u0 (State.captAxis s) := by
  unfold State.captAxis
  with_reducible repeat' first
    | assumption | apply State.fset_keeps | (intro _; skip) | refine Keeps.ite (fun _ => ?_) (fun _ => ?_) | split

theorem State.setCapt_keeps (h : Keeps kb ke u0 s) (u : Nat) (v : Nat) : Keeps kb ke u0 (State.setCapt s u v) := by
  unfold State.setCapt
  with_reducible repeat' first
    | assumption | apply State.fset_keeps | apply State.captAxis_keeps

theorem State.clearResults_keeps (h : Keeps kb ke u0 s) (u : Nat) : Keeps kb ke u0 (State.clearResults s u) := by
  unfold State.clearResults
  with_reducible repeat' first
    | assumption | apply State.setWord_keeps

theorem State.captFinish_keeps (h : Keeps kb ke u0 s) (u : CaptId) (rt : Nat) : Keeps kb ke u0 (State.captFinish s u rt) := by
  unfold State.captFinish
  with_reducible repeat' first
    | assumption | apply State.fset_keeps | apply State.setTime48_keeps | apply State.setCapt_keeps
    | (extract_lets +onlyGivenNames xq; refine (fun (hx : Keeps kb ke u0 xq) => ?_) ?_; rotate_left; dsimp -zeta only [xq]; rotate_left; clear_value xq)
    | (extract_lets +onlyGivenNames xq; (have hq : xq = xq := by (dsimp -zeta only [xq])); clear hq; clear_value xq)

theorem State.captTrigger_keeps (h : Keeps kb ke u0 s) (u : CaptId) (t : Int) (code : Option (BitVec 16)) : Keeps kb ke u0 (State.captTrigger s u t code) := by
  unfold State.captTrigger
  with_reducible repeat' first
    | assumption | apply State.modCapt_keeps | apply State.setCapt_keeps | (intro _; skip)
    | (extract_lets +onlyGivenNames xq; refine (fun (hx : Keeps kb ke u0 xq) => ?_) ?_; rotate_left; dsimp -zeta only [xq]; rotate_left; clear_value xq)
    | (extract_lets +onlyGivenNames xq; (have hq : xq = xq := by (dsimp -zeta only [xq])); clear hq; clear_value xq)
    | refine Keeps.ite (fun _ => ?_) (fun _ => ?_) | split | exact Keeps.upd (by assumption)

theorem State.captStore_keeps (h : Keeps kb ke u0 s) (u : CaptId) (full : Bool) (a : Nat) (w : Nat) : Keeps kb ke u0 (State.captStore s u full a w) := by
  unfold State.captStore
  with_reducible repeat' first
    | assumption | apply State.fset_keeps | apply State.memStore_keeps | apply State.dropWord_keeps
    | refine Keeps.ofFst (by assumption) ?_ | refine Keeps.ofSnd (by assumption) ?_ | dsimp only
    | (extract_lets +onlyGivenNames xq; refine (fun (hx : Keeps kb ke u0 xq) => ?_) ?_; rotate_left; dsimp -zeta only [xq]; rotate_left; clear_value xq)
    | (extract_lets +onlyGivenNames xq; (have hq : xq = xq := by (dsimp -zeta only [xq])); clear hq; clear_value xq)
    | refine Keeps.ite (fun _ => ?_) (fun _ => ?_) | split

theorem State.captRecord_keeps (h : Keeps kb ke u0 s) (u : CaptId) (t : Int) (seq : Nat) (code : Nat → BitVec 16) (full : Word) : Keeps kb ke u0 (s.captRecord u t seq code full) := by
  unfold State.captRecord
  extract_lets chans base s1 tch s2 s3
  have h1 : Keeps kb ke u0 s1 := State.each_keeps _ _ (fun c r hr => State.captStore_keeps hr u _ _ _) h
  have h2 : Keeps kb ke u0 s2 := Keeps.ite (fun _ => State.captTrigger_keeps h1 _ _ _) (fun _ => h1)
  have h3 : Keeps kb ke u0 s3 := State.modCapt_keeps h2 u _
  clear_value s3
  split
  · exact Keeps.ite (fun _ => State.captFinish_keeps h3 _ _) (fun _ => h3)
  · exact h3

theorem State.captSlot_keeps (h : Keeps kb ke u0 s) (u : CaptId) (t : Nat) (code : Nat → BitVec 16) (full : Word) : Keeps kb ke u0 (State.captSlot s u t code full) := by
  unfold State.captSlot
  with_reducible repeat' first
    | assumption | apply State.modCapt_keeps | apply State.captRecord_keeps | (intro _; skip)
    | (extract_lets +onlyGivenNames xq; refine (fun (hx : Keeps kb ke u0 xq) => ?_) ?_; rotate_left; dsimp -zeta only [xq]; rotate_left; clear_value xq)
    | (extract_lets +onlyGivenNames xq; (have hq : xq = xq := by (dsimp -zeta only [xq])); clear hq; clear_value xq)
    | refine Keeps.ite (fun _ => ?_) (fun _ => ?_) | split | exact Keeps.upd (by assumption)

theorem execConversionSlot_keeps (codes : List Int) (s : State) (full : Word := 0) (nv : List Int := []) (bad : Word := 0) (strmFull : Word := 0) : ResKeeps kb ke s (execConversionSlot codes s full nv bad strmFull) := by
  have h := State.fresh_keeps (Keeps.refl kb ke s)
  unfold execConversionSlot
  with_reducible repeat' first
    | assumption | apply State.advanceTo_keeps | apply State.each_keeps | apply State.fresh_keeps
    | apply State.sampleAll_keeps | apply State.groupsAt_keeps | apply State.zxSlot_keeps
    | apply State.busSlot_keeps | apply State.captSlot_keeps | apply RunKeeps.ok | apply RunKeeps.error
    | apply ResKeeps.next | refine Keeps.ofFst (by assumption) ?_ | refine Keeps.ofSnd (by assumption) ?_
    | dsimp only | apply State.each_keeps | (intro _; skip)
    | (extract_lets +onlyGivenNames xq; refine (fun (hx : Keeps kb ke s xq) => ?_) ?_; rotate_left; dsimp -zeta only [xq]; rotate_left; clear_value xq)
    | (extract_lets +onlyGivenNames xq; (have hq : xq = xq := by (dsimp -zeta only [xq])); clear hq; clear_value xq)
    | refine ResKeeps.ite (fun _ => ?_) (fun _ => ?_) | refine Keeps.ite (fun _ => ?_) (fun _ => ?_) | split
    | apply Keeps.upd

theorem State.captArm_keeps (h : Keeps kb ke u0 s) (req : Requester) (u : CaptId) : Keeps kb ke u0 (State.captArm s req u) := by
  unfold State.captArm
  with_reducible repeat' first
    | assumption | apply State.fset_keeps | apply State.modCapt_keeps | apply State.refuse_keeps
    | apply State.haltReadout_keeps | apply State.setCapt_keeps | apply State.clearResults_keeps | (intro _; skip)
    | (extract_lets +onlyGivenNames xq; refine (fun (hx : Keeps kb ke u0 xq) => ?_) ?_; rotate_left; dsimp -zeta only [xq]; rotate_left; clear_value xq)
    | (extract_lets +onlyGivenNames xq; (have hq : xq = xq := by (dsimp -zeta only [xq])); clear hq; clear_value xq)
    | refine Keeps.ite (fun _ => ?_) (fun _ => ?_) | split

theorem State.captForce_keeps (h : Keeps kb ke u0 s) (u : CaptId) : Keeps kb ke u0 (State.captForce s u) := by
  unfold State.captForce
  with_reducible repeat' first
    | assumption | apply State.modCapt_keeps | apply State.setCapt_keeps | (intro _; skip)
    | refine Keeps.ite (fun _ => ?_) (fun _ => ?_) | split | exact Keeps.upd (by assumption)

theorem State.captAbort_keeps (h : Keeps kb ke u0 s) (u : CaptId) : Keeps kb ke u0 (State.captAbort s u) := by
  unfold State.captAbort
  with_reducible repeat' first
    | assumption | apply State.setCapt_keeps | apply State.clearResults_keeps
    | refine Keeps.ite (fun _ => ?_) (fun _ => ?_) | split

theorem State.captLoss_keeps (h : Keeps kb ke u0 s) : Keeps kb ke u0 (State.captLoss s) := by
  unfold State.captLoss
  with_reducible repeat' first
    | assumption | apply State.each_keeps | apply State.setCapt_keeps | apply State.clearResults_keeps
    | apply State.each_keeps | (intro _; skip) | refine Keeps.ite (fun _ => ?_) (fun _ => ?_) | split

theorem State.captCmd_keeps (h : Keeps kb ke u0 s) (req : Requester) (u : CaptId) (cmd : Nat) : Keeps kb ke u0 (State.captCmd s req u cmd) := by
  unfold State.captCmd
  with_reducible repeat' first
    | assumption | apply State.captArm_keeps | apply State.captForce_keeps | apply State.captAbort_keeps | split
    | exact Keeps.upd (by assumption)

theorem State.captCells_keeps (h : Keeps kb ke u0 s) (u : CaptId) (first : Int) (step : Nat) (recs : List (Nat → BitVec 16)) : Keeps kb ke u0 (State.captCells s u first step recs) := by
  unfold State.captCells
  with_reducible repeat' first
    | assumption | apply State.each_keeps | apply State.captRecord_keeps | apply State.each_keeps | (intro _; skip)
    | refine Keeps.ite (fun _ => ?_) (fun _ => ?_) | split

theorem State.captFrame_keeps (h : Keeps kb ke u0 s) (u : CaptId) (qmask : BitVec 8) (epoch : BitVec 35) (fseq : BitVec 16) (codes : List (BitVec 16)) (div : Nat) : Keeps kb ke u0 (State.captFrame s u qmask epoch fseq codes div) := by
  unfold State.captFrame
  with_reducible repeat' first
    | assumption | apply State.fset_keeps | apply State.modCapt_keeps | apply State.captCells_keeps
    | (intro _; skip)
    | (extract_lets +onlyGivenNames xq; refine (fun (hx : Keeps kb ke u0 xq) => ?_) ?_; rotate_left; dsimp -zeta only [xq]; rotate_left; clear_value xq)
    | (extract_lets +onlyGivenNames xq; (have hq : xq = xq := by (dsimp -zeta only [xq])); clear hq; clear_value xq)
    | refine Keeps.ite (fun _ => ?_) (fun _ => ?_) | split | exact Keeps.upd (by assumption)

theorem State.capdIn_keeps (h : Keeps kb ke u0 s) (x : RingId) (k : CellId) (f : Frame) : Keeps kb ke u0 (State.capdIn s x k f) := by
  unfold State.capdIn
  with_reducible repeat' first
    | assumption | apply State.each_keeps | apply State.captFrame_keeps | apply State.each_keeps | (intro _; skip)
    | (extract_lets +onlyGivenNames xq; refine (fun (hx : Keeps kb ke u0 xq) => ?_) ?_; rotate_left; dsimp -zeta only [xq]; rotate_left; clear_value xq)
    | (extract_lets +onlyGivenNames xq; (have hq : xq = xq := by (dsimp -zeta only [xq])); clear hq; clear_value xq)
    | refine Keeps.ite (fun _ => ?_) (fun _ => ?_) | split

theorem execCapdHeard_keeps (p : LaneId) (blocks : List LineBlock) (s : State) (full : Bool := false) : ResKeeps kb ke s (execCapdHeard p blocks s full) := by
  have h := State.fresh_keeps (Keeps.refl kb ke s)
  unfold execCapdHeard
  with_reducible repeat' first
    | assumption | apply State.fresh_keeps | apply State.framesOf_keeps | apply State.capdIn_keeps
    | apply RunKeeps.ok | apply RunKeeps.error | apply ResKeeps.next | (intro _; skip)
    | (extract_lets +onlyGivenNames xq; refine (fun (hx : Keeps kb ke s xq) => ?_) ?_; rotate_left; dsimp -zeta only [xq]; rotate_left; clear_value xq)
    | (extract_lets +onlyGivenNames xq; (have hq : xq = xq := by (dsimp -zeta only [xq])); clear hq; clear_value xq)
    | refine ResKeeps.ite (fun _ => ?_) (fun _ => ?_) | refine Keeps.ite (fun _ => ?_) (fun _ => ?_) | split
    | exact Keeps.upd (by assumption)

theorem State.modMtr_keeps (h : Keeps kb ke u0 s) (f : Mtr → Mtr) (k : ke = true → (f s.mtr).energy = s.mtr.energy) : Keeps kb ke u0 (s.modMtr f) :=
  h.trans ⟨rfl, Nat.le_refl _, id, id, fun _ => ⟨rfl, rfl, rfl⟩, k⟩

theorem State.mtrNote_keeps (h : Keeps kb ke u0 s) : Keeps kb ke u0 (State.mtrNote s) := by
  unfold State.mtrNote
  with_reducible repeat' first
    | assumption | apply State.modMtr_keeps | with_unfolding_all exact fun _ => rfl | (intro _; skip)
    | exact Keeps.upd (by assumption)

theorem State.mtrMark_keeps (h : Keeps kb ke u0 s) (chans : Nat) (flag : Nat) : Keeps kb ke u0 (State.mtrMark s chans flag) := by
  unfold State.mtrMark
  with_reducible repeat' first
    | assumption | apply State.modMtr_keeps | with_unfolding_all exact fun _ => rfl | (intro _; skip)
    | refine Keeps.ite (fun _ => ?_) (fun _ => ?_) | split | exact Keeps.upd (by assumption)

theorem State.flagsTaken_keeps (h : Keeps kb ke u0 s) (ch : Nat) : Keeps kb ke u0 (State.flagsTaken s ch) := by
  unfold State.flagsTaken
  with_reducible repeat' first
    | assumption | apply State.modMtr_keeps | with_unfolding_all exact fun _ => rfl | (intro _; skip)
    | exact Keeps.upd (by assumption)

theorem State.pushRec_keeps (h : Keeps kb ke u0 s) (r : MtrRec) : Keeps kb ke u0 (State.pushRec s r) := by
  unfold State.pushRec
  with_reducible repeat' first
    | assumption | apply State.fset_keeps | apply State.log_keeps | apply State.modMtr_keeps
    | with_unfolding_all exact fun _ => rfl | (intro _; skip)
    | (extract_lets +onlyGivenNames xq; refine (fun (hx : Keeps kb ke u0 xq) => ?_) ?_; rotate_left; dsimp -zeta only [xq]; rotate_left; clear_value xq)
    | (extract_lets +onlyGivenNames xq; (have hq : xq = xq := by (dsimp -zeta only [xq])); clear hq; clear_value xq)
    | apply Keeps.upd

theorem State.enterInvalid_keeps (h : Keeps kb ke u0 s) : Keeps kb ke u0 (State.enterInvalid s) := by
  unfold State.enterInvalid
  with_reducible repeat' first
    | assumption | apply State.fset_keeps | apply State.modMtr_keeps | with_unfolding_all exact fun _ => rfl
    | (intro _; skip) | exact Keeps.upd (by assumption)

theorem State.keyFault_keeps (h : Keeps kb ke u0 s) : Keeps kb ke u0 (State.keyFault s) := by
  unfold State.keyFault
  with_reducible repeat' first
    | assumption | apply State.fset_keeps | apply State.raise_keeps | apply State.modMtr_keeps
    | apply State.enterInvalid_keeps | with_unfolding_all exact fun _ => rfl | (intro _; skip)
    | exact Keeps.upd (by assumption)

theorem State.writeRec_keeps (h : Keeps kb ke u0 s) (r : MtrRec) : Keeps kb ke u0 (State.writeRec s r) := by
  unfold State.writeRec
  with_reducible repeat' first
    | assumption | apply State.fset_keeps | apply State.log_keeps | apply State.flagsTaken_keeps
    | apply State.pushRec_keeps | apply State.enterInvalid_keeps | apply State.keyFault_keeps
    | (extract_lets +onlyGivenNames xq; refine (fun (hx : Keeps kb ke u0 xq) => ?_) ?_; rotate_left; dsimp -zeta only [xq]; rotate_left; clear_value xq)
    | (extract_lets +onlyGivenNames xq; (have hq : xq = xq := by (dsimp -zeta only [xq])); clear hq; clear_value xq)
    | refine Keeps.ite (fun _ => ?_) (fun _ => ?_) | split | exact Keeps.upd (by assumption)

theorem State.loadLrec_keeps (h : Keeps kb ke u0 s) (r : MtrRec) : Keeps kb ke u0 (s.loadLrec r) :=
  State.fset_keeps (State.fset_keeps (Keeps.foldlFst _ _ _ (fun _ _ hq => State.setWord_keeps hq _ _) h) _ _) _ _

theorem State.cmdResult_keeps (h : Keeps kb ke u0 s) (req : Nat) (code : Nat) (res : Nat) : Keeps kb ke u0 (State.cmdResult s req code res) := by
  unfold State.cmdResult
  with_reducible repeat' first
    | assumption | apply State.fset_keeps

theorem State.mtrComplete_keeps (h : Keeps kb ke u0 s) (c : MtrCmd) : Keeps kb ke u0 (State.mtrComplete s c) := by
  unfold State.mtrComplete
  with_reducible repeat' first
    | assumption | apply State.keyFault_keeps | apply State.writeRec_keeps | apply State.loadLrec_keeps
    | apply State.cmdResult_keeps | refine Keeps.ite (fun _ => ?_) (fun _ => ?_)
    | (extract_lets +onlyGivenNames xq; refine (fun (hx : Keeps kb ke u0 xq) => ?_) ?_; rotate_left; dsimp -zeta only [xq]; rotate_left; clear_value xq)
    | (extract_lets +onlyGivenNames xq; (have hq : xq = xq := by (dsimp -zeta only [xq])); clear hq; clear_value xq)
    | split | exact Keeps.upd (by assumption)

theorem State.mtrFlush_keeps (h : Keeps kb ke u0 s) : Keeps kb ke u0 (State.mtrFlush s) := by
  unfold State.mtrFlush
  with_reducible repeat' first
    | assumption | apply State.modMtr_keeps | apply State.writeRec_keeps | with_unfolding_all exact fun _ => rfl
    | apply Keeps.foldl | (intro _; skip) | exact Keeps.upd (by assumption)

theorem State.mtrDrain_keeps (h : Keeps kb ke u0 s) (p : MtrCmd → Bool) : Keeps kb ke u0 (State.mtrDrain s p) := by
  unfold State.mtrDrain
  with_reducible repeat' first
    | assumption | apply State.modMtr_keeps | apply State.mtrComplete_keeps | apply State.mtrFlush_keeps
    | with_unfolding_all exact fun _ => rfl | apply Keeps.foldl | (intro _; skip)
    | (extract_lets +onlyGivenNames xq; refine (fun (hx : Keeps kb ke u0 xq) => ?_) ?_; rotate_left; dsimp -zeta only [xq]; rotate_left; clear_value xq)
    | (extract_lets +onlyGivenNames xq; (have hq : xq = xq := by (dsimp -zeta only [xq])); clear hq; clear_value xq)
    | exact Keeps.upd (by assumption)

theorem State.mtrWrite_keeps (h : Keeps kb ke u0 s) (kind : Nat) (ch : Nat) (e1 : Int) (e2 : Int) (e3 : Int) (e4 : Int) : Keeps kb ke u0 (State.mtrWrite s kind ch e1 e2 e3 e4) := by
  unfold State.mtrWrite
  with_reducible repeat' first
    | assumption | apply State.flagsTaken_keeps | apply State.writeRec_keeps
    | (extract_lets +onlyGivenNames xq; refine (fun (hx : Keeps kb ke u0 xq) => ?_) ?_; rotate_left; dsimp -zeta only [xq]; rotate_left; clear_value xq)
    | (extract_lets +onlyGivenNames xq; (have hq : xq = xq := by (dsimp -zeta only [xq])); clear hq; clear_value xq)

theorem State.mtrLog_keeps (h : Keeps kb ke u0 s) (kind : Nat) (ch : Nat) (e1 : Int) (e2 : Int) (e3 : Int) (e4 : Int) : Keeps kb ke u0 (State.mtrLog s kind ch e1 e2 e3 e4) := by
  unfold State.mtrLog
  with_reducible repeat' first
    | assumption | apply State.mtrDrain_keeps | apply State.mtrWrite_keeps | (intro _; skip)

theorem State.dayOver_keeps (h : Keeps kb ke u0 s) : Keeps kb ke u0 (State.dayOver s) := by
  unfold State.dayOver
  with_reducible repeat' first
    | assumption | apply State.fset_keeps | apply State.modMtr_keeps | apply State.mtrLog_keeps
    | with_unfolding_all exact fun _ => rfl | (intro _; skip)
    | (extract_lets +onlyGivenNames xq; refine (fun (hx : Keeps kb ke u0 xq) => ?_) ?_; rotate_left; dsimp -zeta only [xq]; rotate_left; clear_value xq)
    | (extract_lets +onlyGivenNames xq; (have hq : xq = xq := by (dsimp -zeta only [xq])); clear hq; clear_value xq)
    | refine Keeps.ite (fun _ => ?_) (fun _ => ?_) | split | exact Keeps.upd (by assumption)

theorem State.mtrClock_keeps (h : Keeps kb ke u0 s) : Keeps kb ke u0 (State.mtrClock s) := by
  unfold State.mtrClock
  with_reducible repeat' first
    | assumption | apply State.fset_keeps | apply State.modMtr_keeps | apply State.dayOver_keeps
    | with_unfolding_all exact fun _ => rfl | (intro _; skip)
    | (extract_lets +onlyGivenNames xq; refine (fun (hx : Keeps kb ke u0 xq) => ?_) ?_; rotate_left; dsimp -zeta only [xq]; rotate_left; clear_value xq)
    | (extract_lets +onlyGivenNames xq; (have hq : xq = xq := by (dsimp -zeta only [xq])); clear hq; clear_value xq)
    | refine Keeps.ite (fun _ => ?_) (fun _ => ?_) | split | exact Keeps.upd (by assumption)

theorem execMtrSample_keeps (codes : List Int) (s : State) : ResKeeps kb ke s (execMtrSample codes s) := by
  have h := State.fresh_keeps (Keeps.refl kb ke s)
  unfold execMtrSample
  with_reducible repeat' first
    | assumption | apply State.each_keeps | apply State.fsetI_keeps | apply State.fresh_keeps
    | apply State.modMtr_keeps | apply State.mtrMark_keeps | apply State.mtrClock_keeps | apply RunKeeps.ok
    | apply RunKeeps.error | with_unfolding_all exact fun _ => rfl | apply ResKeeps.next | apply State.each_keeps
    | (intro _; skip)
    | (extract_lets +onlyGivenNames xq; refine (fun (hx : Keeps kb ke s xq) => ?_) ?_; rotate_left; dsimp -zeta only [xq]; rotate_left; clear_value xq)
    | (extract_lets +onlyGivenNames xq; (have hq : xq = xq := by (dsimp -zeta only [xq])); clear hq; clear_value xq)
    | refine ResKeeps.ite (fun _ => ?_) (fun _ => ?_) | refine Keeps.ite (fun _ => ?_) (fun _ => ?_) | split
    | exact Keeps.upd (by assumption)

theorem State.showEnergies_keeps (h : Keeps kb ke u0 s) : Keeps kb ke u0 (State.showEnergies s) := by
  unfold State.showEnergies
  with_reducible repeat' first
    | assumption | apply State.each_keeps | apply State.fsetI_keeps | apply State.each_keeps | (intro _; skip)

theorem State.mtrSecond_keeps {kb : Bool} {u0 s : State} (h : Keeps kb false u0 s) : Keeps kb false u0 s.mtrSecond := by
  unfold State.mtrSecond
  extract_lets v s1 s2 s3
  have h1 : Keeps kb false u0 s1 := Keeps.ite (fun _ => State.mtrMark_keeps h _ _) (fun _ => h)
  exact State.showEnergies_keeps (State.modMtr_keeps (State.fset_keeps (State.fset_keeps h1 _ _) _ _) _ nofun)

theorem State.takeSet_keeps (h : Keeps kb ke u0 s) : Keeps kb ke u0 (State.takeSet s) := by
  unfold State.takeSet
  with_reducible repeat' first
    | assumption | apply State.modMtr_keeps | with_unfolding_all exact fun _ => rfl | (intro _; skip)
    | exact Keeps.upd (by assumption)

theorem State.snapRec_keeps (h : Keeps kb ke u0 s) (c : Nat) : Keeps kb ke u0 (State.snapRec s c) := by
  unfold State.snapRec
  with_reducible repeat' first
    | assumption | apply State.modMtr_keeps | apply State.flagsTaken_keeps | with_unfolding_all exact fun _ => rfl
    | (intro _; skip)
    | (extract_lets +onlyGivenNames xq; refine (fun (hx : Keeps kb ke u0 xq) => ?_) ?_; rotate_left; dsimp -zeta only [xq]; rotate_left; clear_value xq)
    | (extract_lets +onlyGivenNames xq; (have hq : xq = xq := by (dsimp -zeta only [xq])); clear hq; clear_value xq)
    | refine Keeps.ite (fun _ => ?_) (fun _ => ?_) | split | exact Keeps.upd (by assumption)

theorem State.takeSnap_keeps (h : Keeps kb ke u0 s) : Keeps kb ke u0 (State.takeSnap s) := by
  unfold State.takeSnap
  with_reducible repeat' first
    | assumption | apply State.each_keeps | apply State.modMtr_keeps | apply State.mtrDrain_keeps
    | apply State.snapRec_keeps | with_unfolding_all exact fun _ => rfl | apply State.each_keeps | (intro _; skip)
    | (extract_lets +onlyGivenNames xq; refine (fun (hx : Keeps kb ke u0 xq) => ?_) ?_; rotate_left; dsimp -zeta only [xq]; rotate_left; clear_value xq)
    | (extract_lets +onlyGivenNames xq; (have hq : xq = xq := by (dsimp -zeta only [xq])); clear hq; clear_value xq)
    | refine Keeps.ite (fun _ => ?_) (fun _ => ?_) | split | exact Keeps.upd (by assumption)

theorem execEnergySecond_keeps {kb : Bool} (s : State) : ResKeeps kb false s (execEnergySecond s) := by
  have h := State.fresh_keeps (Keeps.refl kb false s)
  unfold execEnergySecond
  with_reducible repeat' first
    | assumption | apply State.fset_keeps | apply State.fresh_keeps | apply State.modMtr_keeps
    | apply State.mtrSecond_keeps | apply State.takeSet_keeps | apply State.takeSnap_keeps | apply RunKeeps.ok
    | apply RunKeeps.error | with_unfolding_all exact fun _ => rfl | apply ResKeeps.next
    | refine ResKeeps.ite (fun _ => ?_) (fun _ => ?_) | refine Keeps.ite (fun _ => ?_) (fun _ => ?_)
    | (extract_lets +onlyGivenNames xq; refine (fun (hx : Keeps kb false s xq) => ?_) ?_; rotate_left; dsimp -zeta only [xq]; rotate_left; clear_value xq)
    | (extract_lets +onlyGivenNames xq; (have hq : xq = xq := by (dsimp -zeta only [xq])); clear hq; clear_value xq)
    | split

theorem execIntervalSnapshot_keeps (s : State) (bad : Bool) : ResKeeps kb ke s (execIntervalSnapshot s bad) := by
  have h := State.fresh_keeps (Keeps.refl kb ke s)
  unfold execIntervalSnapshot
  extract_lets +onlyGivenNames t
  have ht : Keeps kb ke s t := h
  clear_value t
  refine ResKeeps.ite (fun _ => ResKeeps.next ?_) (fun _ => ResKeeps.next ht)
  exact State.mtrFlush_keeps (State.modMtr_keeps (State.takeSnap_keeps ht) _ (fun _ => rfl))

theorem State.setTunsync_keeps (h : Keeps kb ke u0 s) (on : Bool) : Keeps kb ke u0 (State.setTunsync s on) := by
  unfold State.setTunsync
  with_reducible repeat' first
    | assumption | apply State.fset_keeps | apply State.modMtr_keeps | apply State.mtrNote_keeps
    | with_unfolding_all exact fun _ => rfl | (intro _; skip)
    | (extract_lets +onlyGivenNames xq; refine (fun (hx : Keeps kb ke u0 xq) => ?_) ?_; rotate_left; dsimp -zeta only [xq]; rotate_left; clear_value xq)
    | (extract_lets +onlyGivenNames xq; (have hq : xq = xq := by (dsimp -zeta only [xq])); clear hq; clear_value xq)
    | refine Keeps.ite (fun _ => ?_) (fun _ => ?_) | split | exact Keeps.upd (by assumption)

theorem execTimePairReceived_keeps (gtimeNs : Nat) (target : Int) (s : State) : ResKeeps kb ke s (execTimePairReceived gtimeNs target s) := by
  have h := State.fresh_keeps (Keeps.refl kb ke s)
  unfold execTimePairReceived
  with_reducible repeat' first
    | assumption | apply State.fsetI_keeps | apply State.fresh_keeps | apply State.modMtr_keeps
    | apply State.setTunsync_keeps | apply RunKeeps.ok | apply RunKeeps.error
    | with_unfolding_all exact fun _ => rfl | apply ResKeeps.next | (intro _; skip)
    | (extract_lets +onlyGivenNames xq; refine (fun (hx : Keeps kb ke s xq) => ?_) ?_; rotate_left; dsimp -zeta only [xq]; rotate_left; clear_value xq)
    | (extract_lets +onlyGivenNames xq; (have hq : xq = xq := by (dsimp -zeta only [xq])); clear hq; clear_value xq)
    | refine ResKeeps.ite (fun _ => ?_) (fun _ => ?_) | refine Keeps.ite (fun _ => ?_) (fun _ => ?_) | split
    | exact Keeps.upd (by assumption)

theorem execStepSeen_keeps (theta : Int) (gtimeSec : Nat) (s : State) : ResKeeps kb ke s (execStepSeen theta gtimeSec s) := by
  have h := State.fresh_keeps (Keeps.refl kb ke s)
  unfold execStepSeen
  with_reducible repeat' first
    | assumption | apply State.fresh_keeps | apply State.mtrLog_keeps | apply RunKeeps.ok | apply RunKeeps.error
    | apply ResKeeps.next
    | (extract_lets +onlyGivenNames xq; refine (fun (hx : Keeps kb ke s xq) => ?_) ?_; rotate_left; dsimp -zeta only [xq]; rotate_left; clear_value xq)
    | (extract_lets +onlyGivenNames xq; (have hq : xq = xq := by (dsimp -zeta only [xq])); clear hq; clear_value xq)
    | refine ResKeeps.ite (fun _ => ?_) (fun _ => ?_) | refine Keeps.ite (fun _ => ?_) (fun _ => ?_) | split

theorem execMtimeDayEnd_keeps (s : State) : ResKeeps kb ke s (execMtimeDayEnd s) := by
  have h := State.fresh_keeps (Keeps.refl kb ke s)
  unfold execMtimeDayEnd
  with_reducible repeat' first
    | assumption | apply State.fresh_keeps | apply State.dayOver_keeps | apply RunKeeps.ok | apply RunKeeps.error
    | apply ResKeeps.next
    | (extract_lets +onlyGivenNames xq; refine (fun (hx : Keeps kb ke s xq) => ?_) ?_; rotate_left; dsimp -zeta only [xq]; rotate_left; clear_value xq)
    | (extract_lets +onlyGivenNames xq; (have hq : xq = xq := by (dsimp -zeta only [xq])); clear hq; clear_value xq)
    | refine ResKeeps.ite (fun _ => ?_) (fun _ => ?_) | refine Keeps.ite (fun _ => ?_) (fun _ => ?_) | split

theorem execUnsyncTimeout_keeps (s : State) : ResKeeps kb ke s (execUnsyncTimeout s) := by
  have h := State.fresh_keeps (Keeps.refl kb ke s)
  unfold execUnsyncTimeout
  with_reducible repeat' first
    | assumption | apply State.fresh_keeps | apply State.setTunsync_keeps | apply RunKeeps.ok | apply RunKeeps.error
    | apply ResKeeps.next

theorem State.mtrRefuse_keeps (h : Keeps kb ke u0 s) (req : Requester) (code : Nat) (res : Nat) : Keeps kb ke u0 (State.mtrRefuse s req code res) := by
  unfold State.mtrRefuse
  with_reducible repeat' first
    | assumption | apply State.cmdResult_keeps

theorem State.mtrAccept_keeps (h : Keeps kb ke u0 s) (req : Requester) (code : Nat) (f : State → Option MtrRec × State)
    (h_f : ∀ t, Keeps kb ke u0 t → Keeps kb ke u0 (f t).2) : Keeps kb ke u0 (s.mtrAccept req code f) :=
  Keeps.ite (fun _ => State.mtrRefuse_keeps h _ _ _) (fun _ => State.modMtr_keeps (h_f s h) _ (fun _ => rfl))

theorem State.pdataServe_keeps (h : Keeps kb ke u0 s) (req : Requester) (v : Nat) : Keeps kb ke u0 (State.pdataServe s req v) := by
  unfold State.pdataServe
  with_reducible repeat' first
    | assumption | apply State.raise_keeps | apply State.modMtr_keeps | apply State.mtrRefuse_keeps
    | with_unfolding_all exact fun _ => rfl | (intro _; skip)
    | (extract_lets +onlyGivenNames xq; refine (fun (hx : Keeps kb ke u0 xq) => ?_) ?_; rotate_left; dsimp -zeta only [xq]; rotate_left; clear_value xq)
    | (extract_lets +onlyGivenNames xq; (have hq : xq = xq := by (dsimp -zeta only [xq])); clear hq; clear_value xq)
    | refine Keeps.ite (fun _ => ?_) (fun _ => ?_) | split | exact Keeps.upd (by assumption)

theorem State.markCorrupt_keeps (h : Keeps kb ke u0 s) (rseq : Nat) : Keeps kb ke u0 (State.markCorrupt s rseq) := by
  unfold State.markCorrupt
  with_reducible repeat' first
    | assumption | apply State.fset_keeps | apply State.raise_keeps | apply State.log_keeps
    | apply State.modMtr_keeps | apply State.mtrNote_keeps | apply State.mtrLog_keeps
    | with_unfolding_all exact fun _ => rfl | (intro _; skip)
    | (extract_lets +onlyGivenNames xq; refine (fun (hx : Keeps kb ke u0 xq) => ?_) ?_; rotate_left; dsimp -zeta only [xq]; rotate_left; clear_value xq)
    | (extract_lets +onlyGivenNames xq; (have hq : xq = xq := by (dsimp -zeta only [xq])); clear hq; clear_value xq)
    | refine Keeps.ite (fun _ => ?_) (fun _ => ?_) | split | exact Keeps.upd (by assumption)

theorem State.readStored_keeps (h : Keeps kb ke u0 s) (rseq : Nat) : Keeps kb ke u0 (State.readStored s rseq).2 := by
  unfold State.readStored
  with_reducible repeat' first
    | assumption | apply State.log_keeps | apply State.checkReads_keeps | apply State.markCorrupt_keeps
    | refine Keeps.ofFst (by assumption) ?_ | refine Keeps.ofSnd (by assumption) ?_ | dsimp only | (intro _; skip)
    | (extract_lets +onlyGivenNames xq; refine (fun (hx : Keeps kb ke u0 xq) => ?_) ?_; rotate_left; dsimp -zeta only [xq]; rotate_left; clear_value xq)
    | (extract_lets +onlyGivenNames xq; (have hq : xq = xq := by (dsimp -zeta only [xq])); clear hq; clear_value xq)
    | refine Keeps.iteFst (fun _ => ?_) (fun _ => ?_) | refine Keeps.ite (fun _ => ?_) (fun _ => ?_) | split
    | exact Keeps.upd (by assumption)

theorem State.lselServe_keeps (h : Keeps kb ke u0 s) : Keeps kb ke u0 (State.lselServe s) := by
  unfold State.lselServe
  with_reducible repeat' first
    | assumption | apply State.fset_keeps | apply State.loadLrec_keeps | apply State.readStored_keeps
    | refine Keeps.ofFst (by assumption) ?_ | refine Keeps.ofSnd (by assumption) ?_ | dsimp only
    | refine Keeps.ite (fun _ => ?_) (fun _ => ?_) | split | exact Keeps.upd (by assumption)

theorem State.mtrService_keeps (h : Keeps kb ke u0 s) : Keeps kb ke u0 (State.mtrService s) := by
  unfold State.mtrService
  with_reducible repeat' first
    | assumption | apply State.applyLiveBlock_keeps | apply State.modMtr_keeps | apply State.pdataServe_keeps
    | apply State.lselServe_keeps | with_unfolding_all exact fun _ => rfl | (intro _; skip)
    | (extract_lets +onlyGivenNames xq; refine (fun (hx : Keeps kb ke u0 xq) => ?_) ?_; rotate_left; dsimp -zeta only [xq]; rotate_left; clear_value xq)
    | (extract_lets +onlyGivenNames xq; (have hq : xq = xq := by (dsimp -zeta only [xq])); clear hq; clear_value xq)
    | refine Keeps.ite (fun _ => ?_) (fun _ => ?_) | split | exact Keeps.upd (by assumption)

theorem State.mtrDue_keeps (h : Keeps kb ke u0 s) : Keeps kb ke u0 (State.mtrDue s) := by
  unfold State.mtrDue
  with_reducible repeat' first
    | assumption | apply State.mtrService_keeps | refine Keeps.ite (fun _ => ?_) (fun _ => ?_) | split

theorem State.mtrCommand_keeps (h : Keeps kb ke u0 s) (req : Requester) (code : Nat) (k : State → State) (h_k : ∀ x0, Keeps kb ke u0 x0 → Keeps kb ke u0 (k x0)) : Keeps kb ke u0 (State.mtrCommand s req code k) := by
  unfold State.mtrCommand
  with_reducible repeat' first
    | assumption | apply h_k | apply State.emit_keeps | apply State.mtrRefuse_keeps | apply State.mtrService_keeps
    | (extract_lets +onlyGivenNames xq; refine (fun (hx : Keeps kb ke u0 xq) => ?_) ?_; rotate_left; dsimp -zeta only [xq]; rotate_left; clear_value xq)
    | (extract_lets +onlyGivenNames xq; (have hq : xq = xq := by (dsimp -zeta only [xq])); clear hq; clear_value xq)
    | refine Keeps.ite (fun _ => ?_) (fun _ => ?_) | split

theorem State.showSession_keeps (h : Keeps kb ke u0 s) (n : Fin 8) : Keeps kb ke u0 (State.showSession s n) := by
  unfold State.showSession
  with_reducible repeat' first
    | assumption | apply State.fset_keeps | refine Keeps.ite (fun _ => ?_) (fun _ => ?_) | split

theorem State.sessStart_keeps (h : Keeps kb ke u0 s) (req : Requester) (arg : Nat) : Keeps kb ke u0 (State.sessStart s req arg) := by
  unfold State.sessStart
  with_reducible repeat' first
    | assumption | apply State.modMtr_keeps | apply State.flagsTaken_keeps | apply State.mtrRefuse_keeps
    | apply State.mtrAccept_keeps | apply State.mtrCommand_keeps | apply State.showSession_keeps
    | with_unfolding_all exact fun _ => rfl | (intro _; skip)
    | (extract_lets +onlyGivenNames xq; refine (fun (hx : Keeps kb ke u0 xq) => ?_) ?_; rotate_left; dsimp -zeta only [xq]; rotate_left; clear_value xq)
    | (extract_lets +onlyGivenNames xq; (have hq : xq = xq := by (dsimp -zeta only [xq])); clear hq; clear_value xq)
    | refine Keeps.ite (fun _ => ?_) (fun _ => ?_) | split | apply Keeps.upd

theorem State.closeSession_keeps (h : Keeps kb ke u0 s) (n : Fin 8) : Keeps kb ke u0 (State.closeSession s n).2 := by
  unfold State.closeSession
  with_reducible repeat' first
    | assumption | apply State.modMtr_keeps | apply State.flagsTaken_keeps | apply State.showSession_keeps
    | with_unfolding_all exact fun _ => rfl | refine Keeps.ofFst (by assumption) ?_
    | refine Keeps.ofSnd (by assumption) ?_ | dsimp only | (intro _; skip)
    | (extract_lets +onlyGivenNames xq; refine (fun (hx : Keeps kb ke u0 xq) => ?_) ?_; rotate_left; dsimp -zeta only [xq]; rotate_left; clear_value xq)
    | (extract_lets +onlyGivenNames xq; (have hq : xq = xq := by (dsimp -zeta only [xq])); clear hq; clear_value xq)
    | split | exact Keeps.upd (by assumption)

theorem State.sessEnd_keeps (h : Keeps kb ke u0 s) (req : Requester) (arg : Nat) : Keeps kb ke u0 (State.sessEnd s req arg) := by
  unfold State.sessEnd
  with_reducible repeat' first
    | assumption | apply State.mtrRefuse_keeps | apply State.mtrAccept_keeps | apply State.mtrCommand_keeps
    | apply State.closeSession_keeps | refine Keeps.ofFst (by assumption) ?_ | refine Keeps.ofSnd (by assumption) ?_
    | dsimp only | (intro _; skip) | refine Keeps.ite (fun _ => ?_) (fun _ => ?_) | split | apply Keeps.upd

theorem State.mtrReadout_keeps (h : Keeps kb ke u0 s) (req : Requester) (arg : Nat) : Keeps kb ke u0 (State.mtrReadout s req arg) := by
  unfold State.mtrReadout
  with_reducible repeat' first
    | assumption | apply State.mtrRefuse_keeps | apply State.mtrAccept_keeps | apply State.mtrCommand_keeps
    | (intro _; skip) | refine Keeps.ite (fun _ => ?_) (fun _ => ?_) | split

theorem State.paramEnter_keeps (h : Keeps kb ke u0 s) (req : Requester) : Keeps kb ke u0 (State.paramEnter s req) := by
  unfold State.paramEnter
  with_reducible repeat' first
    | assumption | apply State.fset_keeps | apply State.modMtr_keeps | apply State.mtrNote_keeps
    | apply State.mtrRefuse_keeps | apply State.mtrAccept_keeps | apply State.mtrCommand_keeps
    | with_unfolding_all exact fun _ => rfl | (intro _; skip) | refine Keeps.ite (fun _ => ?_) (fun _ => ?_) | split
    | apply Keeps.upd

theorem State.endParam_keeps (h : Keeps kb ke u0 s) : Keeps kb ke u0 (State.endParam s).2 := by
  unfold State.endParam
  with_reducible repeat' first
    | assumption | apply State.fset_keeps | apply State.modMtr_keeps | apply State.mtrNote_keeps
    | apply State.flagsTaken_keeps | with_unfolding_all exact fun _ => rfl | refine Keeps.ofFst (by assumption) ?_
    | refine Keeps.ofSnd (by assumption) ?_ | dsimp only | (intro _; skip)
    | (extract_lets +onlyGivenNames xq; refine (fun (hx : Keeps kb ke u0 xq) => ?_) ?_; rotate_left; dsimp -zeta only [xq]; rotate_left; clear_value xq)
    | (extract_lets +onlyGivenNames xq; (have hq : xq = xq := by (dsimp -zeta only [xq])); clear hq; clear_value xq)
    | refine Keeps.iteFst (fun _ => ?_) (fun _ => ?_) | refine Keeps.ite (fun _ => ?_) (fun _ => ?_) | split
    | exact Keeps.upd (by assumption)

theorem State.paramExit_keeps (h : Keeps kb ke u0 s) (req : Requester) : Keeps kb ke u0 (State.paramExit s req) := by
  unfold State.paramExit
  with_reducible repeat' first
    | assumption | apply State.mtrRefuse_keeps | apply State.mtrAccept_keeps | apply State.mtrCommand_keeps
    | apply State.endParam_keeps | refine Keeps.ofFst (by assumption) ?_ | refine Keeps.ofSnd (by assumption) ?_
    | dsimp only | (intro _; skip) | refine Keeps.ite (fun _ => ?_) (fun _ => ?_) | split

theorem State.setMtime_keeps (h : Keeps kb ke u0 s) (target : Int) (ns : Nat) : Keeps kb ke u0 (State.setMtime s target ns) := by
  unfold State.setMtime
  with_reducible repeat' first
    | assumption | apply State.fset_keeps | apply State.modMtr_keeps | apply State.mtrNote_keeps
    | with_unfolding_all exact fun _ => rfl | (intro _; skip)
    | (extract_lets +onlyGivenNames xq; refine (fun (hx : Keeps kb ke u0 xq) => ?_) ?_; rotate_left; dsimp -zeta only [xq]; rotate_left; clear_value xq)
    | (extract_lets +onlyGivenNames xq; (have hq : xq = xq := by (dsimp -zeta only [xq])); clear hq; clear_value xq)
    | exact Keeps.upd (by assumption)

theorem State.timeSet_keeps (h : Keeps kb ke u0 s) (req : Requester) : Keeps kb ke u0 (State.timeSet s req) := by
  unfold State.timeSet
  with_reducible repeat' first
    | assumption | apply State.flagsTaken_keeps | apply State.mtrRefuse_keeps | apply State.mtrAccept_keeps
    | apply State.mtrCommand_keeps | apply State.setMtime_keeps | (intro _; skip)
    | (extract_lets +onlyGivenNames xq; refine (fun (hx : Keeps kb ke u0 xq) => ?_) ?_; rotate_left; dsimp -zeta only [xq]; rotate_left; clear_value xq)
    | (extract_lets +onlyGivenNames xq; (have hq : xq = xq := by (dsimp -zeta only [xq])); clear hq; clear_value xq)
    | refine Keeps.ite (fun _ => ?_) (fun _ => ?_) | split | apply Keeps.upd

theorem State.mtrCmd_keeps (h : Keeps kb ke u0 s) (req : Requester) (code : Nat) (arg : Nat) : Keeps kb ke u0 (State.mtrCmd s req code arg) := by
  unfold State.mtrCmd
  with_reducible repeat' first
    | assumption | apply State.mtrRefuse_keeps | apply State.mtrCommand_keeps | apply State.sessStart_keeps
    | apply State.sessEnd_keeps | apply State.mtrReadout_keeps | apply State.paramEnter_keeps
    | apply State.paramExit_keeps | apply State.timeSet_keeps | (intro _; skip) | split
    | exact Keeps.upd (by assumption)

theorem execSessStart_keeps (req : Requester) (arg : BitVec 8) (s : State) : ResKeeps kb ke s (execSessStart req arg s) := by
  have h := State.fresh_keeps (Keeps.refl kb ke s)
  unfold execSessStart
  with_reducible repeat' first
    | assumption | apply State.fresh_keeps | apply State.sessStart_keeps | apply RunKeeps.ok | apply RunKeeps.error
    | apply ResKeeps.next

theorem execSessEnd_keeps (req : Requester) (arg : BitVec 8) (s : State) : ResKeeps kb ke s (execSessEnd req arg s) := by
  have h := State.fresh_keeps (Keeps.refl kb ke s)
  unfold execSessEnd
  with_reducible repeat' first
    | assumption | apply State.fresh_keeps | apply State.sessEnd_keeps | apply RunKeeps.ok | apply RunKeeps.error
    | apply ResKeeps.next

theorem execMtrReadout_keeps (req : Requester) (arg : BitVec 8) (s : State) : ResKeeps kb ke s (execMtrReadout req arg s) := by
  have h := State.fresh_keeps (Keeps.refl kb ke s)
  unfold execMtrReadout
  with_reducible repeat' first
    | assumption | apply State.fresh_keeps | apply State.mtrReadout_keeps | apply RunKeeps.ok | apply RunKeeps.error
    | apply ResKeeps.next

theorem execParamEnter_keeps (req : Requester) (s : State) : ResKeeps kb ke s (execParamEnter req s) := by
  have h := State.fresh_keeps (Keeps.refl kb ke s)
  unfold execParamEnter
  with_reducible repeat' first
    | assumption | apply State.fresh_keeps | apply State.paramEnter_keeps | apply RunKeeps.ok | apply RunKeeps.error
    | apply ResKeeps.next

theorem execParamExit_keeps (req : Requester) (s : State) : ResKeeps kb ke s (execParamExit req s) := by
  have h := State.fresh_keeps (Keeps.refl kb ke s)
  unfold execParamExit
  with_reducible repeat' first
    | assumption | apply State.fresh_keeps | apply State.paramExit_keeps | apply RunKeeps.ok | apply RunKeeps.error
    | apply ResKeeps.next

theorem execTimeSet_keeps (req : Requester) (s : State) : ResKeeps kb ke s (execTimeSet req s) := by
  have h := State.fresh_keeps (Keeps.refl kb ke s)
  unfold execTimeSet
  with_reducible repeat' first
    | assumption | apply State.fresh_keeps | apply State.timeSet_keeps | apply RunKeeps.ok | apply RunKeeps.error
    | apply ResKeeps.next

theorem execMtrCmdUndefined_keeps (req : Requester) (code : BitVec 8) (s : State) : ResKeeps kb ke s (execMtrCmdUndefined req code s) := by
  have h := State.fresh_keeps (Keeps.refl kb ke s)
  unfold execMtrCmdUndefined
  with_reducible repeat' first
    | assumption | apply State.fresh_keeps | apply State.mtrCmd_keeps | apply RunKeeps.ok | apply RunKeeps.error
    | apply ResKeeps.next

theorem execMtrCommandExecute_keeps (s : State) (bad : Bool) : ResKeeps kb ke s (execMtrCommandExecute s bad) := by
  have h := State.fresh_keeps (Keeps.refl kb ke s)
  unfold execMtrCommandExecute
  extract_lets +onlyGivenNames t
  have ht : Keeps kb ke s t := h
  clear_value t
  refine ResKeeps.ite (fun _ => ?_) (fun _ => ResKeeps.next ht)
  extract_lets u
  have hu : Keeps kb ke s u := State.mtrService_keeps ht
  clear_value u
  split
  · exact ResKeeps.next hu
  · exact ResKeeps.next (State.mtrComplete_keeps (State.mtrFlush_keeps (State.modMtr_keeps hu _ (fun _ => rfl))) _)

theorem State.pdataWrite_keeps (h : Keeps kb ke u0 s) (req : Requester) (v : Nat) : Keeps kb ke u0 (State.pdataWrite s req v) := by
  unfold State.pdataWrite
  with_reducible repeat' first
    | assumption | apply State.emit_keeps | apply State.modMtr_keeps | apply State.mtrDue_keeps
    | with_unfolding_all exact fun _ => rfl | (intro _; skip)
    | (extract_lets +onlyGivenNames xq; refine (fun (hx : Keeps kb ke u0 xq) => ?_) ?_; rotate_left; dsimp -zeta only [xq]; rotate_left; clear_value xq)
    | (extract_lets +onlyGivenNames xq; (have hq : xq = xq := by (dsimp -zeta only [xq])); clear hq; clear_value xq)
    | refine Keeps.ite (fun _ => ?_) (fun _ => ?_) | split | exact Keeps.upd (by assumption)

theorem execPdataWrite_keeps (req : Requester) (v : Word) (s : State) : ResKeeps kb ke s (execPdataWrite req v s) := by
  have h := State.fresh_keeps (Keeps.refl kb ke s)
  unfold execPdataWrite
  with_reducible repeat' first
    | assumption | apply State.fresh_keeps | apply State.pdataWrite_keeps | apply RunKeeps.ok | apply RunKeeps.error
    | apply ResKeeps.next

theorem State.lselWrite_keeps (h : Keeps kb ke u0 s) (req : Requester) (v : Nat) : Keeps kb ke u0 (State.lselWrite s req v) := by
  unfold State.lselWrite
  with_reducible repeat' first
    | assumption | apply State.emit_keeps | apply State.pendLive_keeps | apply State.mtrDue_keeps
    | (extract_lets +onlyGivenNames xq; refine (fun (hx : Keeps kb ke u0 xq) => ?_) ?_; rotate_left; dsimp -zeta only [xq]; rotate_left; clear_value xq)
    | (extract_lets +onlyGivenNames xq; (have hq : xq = xq := by (dsimp -zeta only [xq])); clear hq; clear_value xq)
    | refine Keeps.ite (fun _ => ?_) (fun _ => ?_) | split

theorem execLselWrite_keeps (req : Requester) (v : Word) (s : State) : ResKeeps kb ke s (execLselWrite req v s) := by
  have h := State.fresh_keeps (Keeps.refl kb ke s)
  unfold execLselWrite
  with_reducible repeat' first
    | assumption | apply State.fresh_keeps | apply State.lselWrite_keeps | apply RunKeeps.ok | apply RunKeeps.error
    | apply ResKeeps.next

theorem State.latchEnergy_keeps (h : Keeps kb ke u0 s) (j : EnergyId) : Keeps kb ke u0 (State.latchEnergy s j) := by
  unfold State.latchEnergy
  with_reducible repeat' first
    | assumption | apply State.fset_keeps | refine Keeps.ite (fun _ => ?_) (fun _ => ?_) | split

theorem execCoverOpen_keeps (s : State) : ResKeeps kb ke s (execCoverOpen s) := by
  have h := State.fresh_keeps (Keeps.refl kb ke s)
  unfold execCoverOpen
  with_reducible repeat' first
    | assumption | apply State.fset_keeps | apply State.fresh_keeps | apply State.modMtr_keeps
    | apply State.mtrNote_keeps | apply State.mtrLog_keeps | apply RunKeeps.ok | apply RunKeeps.error
    | with_unfolding_all exact fun _ => rfl | apply ResKeeps.next | (intro _; skip)
    | (extract_lets +onlyGivenNames xq; refine (fun (hx : Keeps kb ke s xq) => ?_) ?_; rotate_left; dsimp -zeta only [xq]; rotate_left; clear_value xq)
    | (extract_lets +onlyGivenNames xq; (have hq : xq = xq := by (dsimp -zeta only [xq])); clear hq; clear_value xq)
    | refine ResKeeps.ite (fun _ => ?_) (fun _ => ?_) | refine Keeps.ite (fun _ => ?_) (fun _ => ?_) | split
    | exact Keeps.upd (by assumption)

theorem execCoverClose_keeps (s : State) : ResKeeps kb ke s (execCoverClose s) := by
  have h := State.fresh_keeps (Keeps.refl kb ke s)
  unfold execCoverClose
  with_reducible repeat' first
    | assumption | apply State.fset_keeps | apply State.fresh_keeps | apply State.modMtr_keeps
    | apply State.mtrNote_keeps | apply State.writeRec_keeps | apply State.mtrLog_keeps | apply State.endParam_keeps
    | apply RunKeeps.ok | apply RunKeeps.error | with_unfolding_all exact fun _ => rfl | apply ResKeeps.next
    | refine Keeps.ofFst (by assumption) ?_ | refine Keeps.ofSnd (by assumption) ?_ | dsimp only | (intro _; skip)
    | (extract_lets +onlyGivenNames xq; refine (fun (hx : Keeps kb ke s xq) => ?_) ?_; rotate_left; dsimp -zeta only [xq]; rotate_left; clear_value xq)
    | (extract_lets +onlyGivenNames xq; (have hq : xq = xq := by (dsimp -zeta only [xq])); clear hq; clear_value xq)
    | refine ResKeeps.ite (fun _ => ?_) (fun _ => ?_) | refine Keeps.ite (fun _ => ?_) (fun _ => ?_) | split
    | exact Keeps.upd (by assumption)

theorem State.mtrFaultOn_keeps (h : Keeps kb ke u0 s) (f : Fld) (ch : Nat) : Keeps kb ke u0 (State.mtrFaultOn s f ch) := by
  unfold State.mtrFaultOn
  with_reducible repeat' first
    | assumption | apply State.fset_keeps | apply State.raise_keeps | apply State.mtrNote_keeps
    | apply State.mtrLog_keeps
    | (extract_lets +onlyGivenNames xq; refine (fun (hx : Keeps kb ke u0 xq) => ?_) ?_; rotate_left; dsimp -zeta only [xq]; rotate_left; clear_value xq)
    | (extract_lets +onlyGivenNames xq; (have hq : xq = xq := by (dsimp -zeta only [xq])); clear hq; clear_value xq)
    | refine Keeps.ite (fun _ => ?_) (fun _ => ?_) | split

theorem State.mtrFaultOff_keeps (h : Keeps kb ke u0 s) (f : Fld) (ch : Nat) (cause : Int) : Keeps kb ke u0 (State.mtrFaultOff s f ch cause) := by
  unfold State.mtrFaultOff
  with_reducible repeat' first
    | assumption | apply State.fset_keeps | apply State.mtrNote_keeps | apply State.mtrLog_keeps
    | refine Keeps.ite (fun _ => ?_) (fun _ => ?_) | split

theorem execMtrSelfTest_keeps (failing : BitVec 16) (s : State) : ResKeeps kb ke s (execMtrSelfTest failing s) := by
  have h := State.fresh_keeps (Keeps.refl kb ke s)
  unfold execMtrSelfTest
  with_reducible repeat' first
    | assumption | apply State.fset_keeps | apply State.fresh_keeps | apply State.modMtr_keeps
    | apply State.mtrNote_keeps | apply State.mtrFaultOn_keeps | apply State.mtrFaultOff_keeps | apply RunKeeps.ok
    | apply RunKeeps.error | with_unfolding_all exact fun _ => rfl | apply ResKeeps.next | apply Keeps.foldl
    | (intro _; skip)
    | (extract_lets +onlyGivenNames xq; refine (fun (hx : Keeps kb ke s xq) => ?_) ?_; rotate_left; dsimp -zeta only [xq]; rotate_left; clear_value xq)
    | (extract_lets +onlyGivenNames xq; (have hq : xq = xq := by (dsimp -zeta only [xq])); clear hq; clear_value xq)
    | refine ResKeeps.ite (fun _ => ?_) (fun _ => ?_) | refine Keeps.ite (fun _ => ?_) (fun _ => ?_) | split
    | exact Keeps.upd (by assumption)

theorem execCrystalCheck_keeps (ppm : Nat) (s : State) : ResKeeps kb ke s (execCrystalCheck ppm s) := by
  have h := State.fresh_keeps (Keeps.refl kb ke s)
  unfold execCrystalCheck
  with_reducible repeat' first
    | assumption | apply State.fresh_keeps | apply State.modMtr_keeps | apply State.mtrFaultOn_keeps
    | apply State.mtrFaultOff_keeps | apply RunKeeps.ok | apply RunKeeps.error
    | with_unfolding_all exact fun _ => rfl | apply ResKeeps.next | (intro _; skip)
    | (extract_lets +onlyGivenNames xq; refine (fun (hx : Keeps kb ke s xq) => ?_) ?_; rotate_left; dsimp -zeta only [xq]; rotate_left; clear_value xq)
    | (extract_lets +onlyGivenNames xq; (have hq : xq = xq := by (dsimp -zeta only [xq])); clear hq; clear_value xq)
    | refine ResKeeps.ite (fun _ => ?_) (fun _ => ?_) | refine Keeps.ite (fun _ => ?_) (fun _ => ?_) | split
    | exact Keeps.upd (by assumption)

theorem State.mtrCorrupt_keeps (h : Keeps kb ke u0 s) (w : Nat) : Keeps kb ke u0 (State.mtrCorrupt s w) := by
  unfold State.mtrCorrupt
  with_reducible repeat' first
    | assumption | apply State.each_keeps | apply State.log_keeps | apply State.markCorrupt_keeps
    | apply State.each_keeps | (intro _; skip)

theorem State.mtrClose_keeps (h : Keeps kb ke u0 s) : Keeps kb ke u0 (State.mtrClose s) := by
  unfold State.mtrClose
  with_reducible repeat' first
    | assumption | apply State.modMtr_keeps | apply State.writeRec_keeps | apply State.mtrComplete_keeps
    | apply State.mtrWrite_keeps | with_unfolding_all exact fun _ => rfl | (intro _; skip)
    | refine Keeps.ite (fun _ => ?_) (fun _ => ?_)
    | (extract_lets +onlyGivenNames xq; refine (fun (hx : Keeps kb ke u0 xq) => ?_) ?_; rotate_left; dsimp -zeta only [xq]; rotate_left; clear_value xq)
    | (extract_lets +onlyGivenNames xq; (have hq : xq = xq := by (dsimp -zeta only [xq])); clear hq; clear_value xq)
    | split | exact Keeps.upd (by assumption)

theorem execMtrSupplyLoss_keeps (s : State) : ResKeeps kb ke s (execMtrSupplyLoss s) := by
  have h := State.fresh_keeps (Keeps.refl kb ke s)
  unfold execMtrSupplyLoss
  with_reducible repeat' first
    | assumption | apply State.fresh_keeps | apply State.mtrClose_keeps | apply RunKeeps.ok | apply RunKeeps.error
    | apply ResKeeps.next

theorem State.showMtr_keeps (h : Keeps kb ke u0 s) : Keeps kb ke u0 (State.showMtr s) := by
  unfold State.showMtr
  with_reducible repeat' first
    | assumption | apply State.each_keeps | apply State.setWord_keeps | apply State.fset_keeps
    | apply State.fsetI_keeps | apply State.log_keeps | apply State.showSession_keeps | apply State.each_keeps
    | (intro _; skip)
    | (extract_lets +onlyGivenNames xq; refine (fun (hx : Keeps kb ke u0 xq) => ?_) ?_; rotate_left; dsimp -zeta only [xq]; rotate_left; clear_value xq)
    | (extract_lets +onlyGivenNames xq; (have hq : xq = xq := by (dsimp -zeta only [xq])); clear hq; clear_value xq)
    | refine Keeps.ite (fun _ => ?_) (fun _ => ?_) | split

theorem execMtrPowerUp_keeps (s : State) : ResKeeps kb ke s (execMtrPowerUp s) := by
  have h := State.fresh_keeps (Keeps.refl kb ke s)
  unfold execMtrPowerUp
  extract_lets +onlyGivenNames t
  have ht : Keeps kb ke s t := h
  clear_value t
  refine ResKeeps.ite (fun _ => ResKeeps.ite (fun _ => ResKeeps.next (State.fset_keeps (State.showMtr_keeps ht) _ _)) (fun _ => ?_))
    (fun _ => ResKeeps.next ht)
  extract_lets out t1 t2 t3 t4 t5
  have h1 : Keeps kb ke s t1 := State.fset_keeps (State.modMtr_keeps ht _ (fun _ => rfl)) _ _
  have h2 : Keeps kb ke s t2 :=
    State.mtrWrite_keeps (State.mtrNote_keeps (State.showEnergies_keeps (State.showMtr_keeps h1))) _ _ _ _ _ _
  have h4 : Keeps kb ke s t4 :=
    State.each_keeps _ _ (fun n r hr => State.writeRec_keeps (State.closeSession_keeps hr n) _) (State.mtrMark_keeps h2 _ _)
  have h5 : Keeps kb ke s t5 := State.mtrDrain_keeps h4 _
  exact ResKeeps.next (State.dayOver_keeps (State.modMtr_keeps (State.mtrMark_keeps h5 _ _) _ (fun _ => rfl)))

theorem execBackupExhausted_keeps (s : State) : ResKeeps kb ke s (execBackupExhausted s) := by
  have h := State.fresh_keeps (Keeps.refl kb ke s)
  unfold execBackupExhausted
  with_reducible repeat' first
    | assumption | apply State.fresh_keeps | apply State.modMtr_keeps | apply RunKeeps.ok | apply RunKeeps.error
    | with_unfolding_all exact fun _ => rfl | apply ResKeeps.next | (intro _; skip)
    | (extract_lets +onlyGivenNames xq; refine (fun (hx : Keeps kb ke s xq) => ?_) ?_; rotate_left; dsimp -zeta only [xq]; rotate_left; clear_value xq)
    | (extract_lets +onlyGivenNames xq; (have hq : xq = xq := by (dsimp -zeta only [xq])); clear hq; clear_value xq)
    | refine ResKeeps.ite (fun _ => ?_) (fun _ => ?_) | refine Keeps.ite (fun _ => ?_) (fun _ => ?_) | split
    | exact Keeps.upd (by assumption)

theorem State.partRec_keeps (h : Keeps kb ke u0 s) : Keeps kb ke u0 (State.partRec s) := by
  unfold State.partRec
  with_reducible repeat' first
    | assumption | apply State.log_keeps | apply State.modMtr_keeps | with_unfolding_all exact fun _ => rfl
    | (intro _; skip)
    | (extract_lets +onlyGivenNames xq; refine (fun (hx : Keeps kb ke u0 xq) => ?_) ?_; rotate_left; dsimp -zeta only [xq]; rotate_left; clear_value xq)
    | (extract_lets +onlyGivenNames xq; (have hq : xq = xq := by (dsimp -zeta only [xq])); clear hq; clear_value xq)
    | refine Keeps.ite (fun _ => ?_) (fun _ => ?_) | split | exact Keeps.upd (by assumption)

theorem State.mtrDown_keeps (h : Keeps kb ke u0 s) : Keeps kb ke u0 (State.mtrDown s) := by
  unfold State.mtrDown
  with_reducible repeat' first
    | assumption | apply State.modMtr_keeps | apply State.partRec_keeps | with_unfolding_all exact fun _ => rfl
    | (intro _; skip)
    | (extract_lets +onlyGivenNames xq; refine (fun (hx : Keeps kb ke u0 xq) => ?_) ?_; rotate_left; dsimp -zeta only [xq]; rotate_left; clear_value xq)
    | (extract_lets +onlyGivenNames xq; (have hq : xq = xq := by (dsimp -zeta only [xq])); clear hq; clear_value xq)
    | refine Keeps.ite (fun _ => ?_) (fun _ => ?_) | split | exact Keeps.upd (by assumption)

theorem State.billOut_keeps (h : Keeps kb ke u0 s) (fn : BitVec 8) (payload : List Byte) : Keeps kb ke u0 (State.billOut s fn payload) := by
  unfold State.billOut
  with_reducible repeat' first
    | assumption | apply State.emit_keeps

theorem State.billError_keeps (h : Keeps kb ke u0 s) (fn : BitVec 8) (code : BitVec 8) : Keeps kb ke u0 (State.billError s fn code) := by
  unfold State.billError
  with_reducible repeat' first
    | assumption | apply State.billOut_keeps

theorem State.billing_keeps (s : State) (fn : BitVec 8) (k : State → State) (h_k : ∀ x0, Keeps kb ke s x0 → Keeps kb ke s (k x0)) : ResKeeps kb ke s (State.billing s fn k) := by
  have h := State.fresh_keeps (Keeps.refl kb ke s)
  unfold State.billing
  with_reducible repeat' first
    | assumption | apply h_k | apply State.fresh_keeps | apply State.billError_keeps | apply RunKeeps.ok
    | apply RunKeeps.error | apply ResKeeps.next
    | (extract_lets +onlyGivenNames xq; refine (fun (hx : Keeps kb ke s xq) => ?_) ?_; rotate_left; dsimp -zeta only [xq]; rotate_left; clear_value xq)
    | (extract_lets +onlyGivenNames xq; (have hq : xq = xq := by (dsimp -zeta only [xq])); clear hq; clear_value xq)
    | refine ResKeeps.ite (fun _ => ?_) (fun _ => ?_) | refine Keeps.ite (fun _ => ?_) (fun _ => ?_) | split

theorem State.billFn_keeps (s : State) (fn : BitVec 8) (payload : List Byte) (frame : Option (List Byte)) (k : List Byte → State → State) (h_k : ∀ x0 x1, Keeps kb ke s x1 → Keeps kb ke s (k x0 x1)) : ResKeeps kb ke s (State.billFn s fn payload frame k) := by
  have h := State.fresh_keeps (Keeps.refl kb ke s)
  unfold State.billFn
  with_reducible repeat' first
    | assumption | apply h_k | apply State.fresh_keeps | apply State.billError_keeps | apply State.billing_keeps
    | apply RunKeeps.ok | apply RunKeeps.error | apply ResKeeps.next | (intro _; skip)
    | refine ResKeeps.ite (fun _ => ?_) (fun _ => ?_) | refine Keeps.ite (fun _ => ?_) (fun _ => ?_) | split
    | exact Keeps.upd (by assumption)

theorem execStatus_keeps (s : State) (frame : Option (List Byte) := none) : ResKeeps kb ke s (execStatus s frame) := by
  have h := State.fresh_keeps (Keeps.refl kb ke s)
  unfold execStatus
  with_reducible repeat' first
    | assumption | apply State.billOut_keeps | apply State.billFn_keeps | apply RunKeeps.ok | apply RunKeeps.error
    | apply ResKeeps.next | (intro _; skip)

theorem execReadRec_keeps (rseq : Word) (s : State) (frame : Option (List Byte) := none) : ResKeeps kb ke s (execReadRec rseq s frame) := by
  have h := State.fresh_keeps (Keeps.refl kb ke s)
  unfold execReadRec
  with_reducible repeat' first
    | assumption | apply State.readStored_keeps | apply State.billOut_keeps | apply State.billError_keeps
    | apply State.billFn_keeps | apply RunKeeps.ok | apply RunKeeps.error | apply ResKeeps.next
    | refine Keeps.ofFst (by assumption) ?_ | refine Keeps.ofSnd (by assumption) ?_ | dsimp only | (intro _; skip)
    | refine ResKeeps.ite (fun _ => ?_) (fun _ => ?_) | refine Keeps.ite (fun _ => ?_) (fun _ => ?_) | split
    | exact Keeps.upd (by assumption)

theorem execBillingReadout_keeps (arg : BitVec 8) (s : State) (frame : Option (List Byte) := none) : ResKeeps kb ke s (execBillingReadout arg s frame) := by
  have h := State.fresh_keeps (Keeps.refl kb ke s)
  unfold execBillingReadout
  with_reducible repeat' first
    | assumption | apply State.billOut_keeps | apply State.billError_keeps | apply State.billFn_keeps
    | apply RunKeeps.ok | apply RunKeeps.error | apply ResKeeps.next | (intro _; skip)
    | (extract_lets +onlyGivenNames xq; refine (fun (hx : Keeps kb ke s xq) => ?_) ?_; rotate_left; dsimp -zeta only [xq]; rotate_left; clear_value xq)
    | (extract_lets +onlyGivenNames xq; (have hq : xq = xq := by (dsimp -zeta only [xq])); clear hq; clear_value xq)
    | refine ResKeeps.ite (fun _ => ?_) (fun _ => ?_) | refine Keeps.ite (fun _ => ?_) (fun _ => ?_) | split

theorem execReadCert_keeps (arg : BitVec 8) (s : State) (frame : Option (List Byte) := none) : ResKeeps kb ke s (execReadCert arg s frame) := by
  have h := State.fresh_keeps (Keeps.refl kb ke s)
  unfold execReadCert
  with_reducible repeat' first
    | assumption | apply State.billOut_keeps | apply State.billError_keeps | apply State.billFn_keeps
    | apply RunKeeps.ok | apply RunKeeps.error | apply ResKeeps.next | (intro _; skip)
    | (extract_lets +onlyGivenNames xq; refine (fun (hx : Keeps kb ke s xq) => ?_) ?_; rotate_left; dsimp -zeta only [xq]; rotate_left; clear_value xq)
    | (extract_lets +onlyGivenNames xq; (have hq : xq = xq := by (dsimp -zeta only [xq])); clear hq; clear_value xq)
    | refine ResKeeps.ite (fun _ => ?_) (fun _ => ?_) | refine Keeps.ite (fun _ => ?_) (fun _ => ?_) | split

theorem execBillingUnknownFn_keeps (fn : BitVec 8) (s : State) (frame : Option (List Byte) := none) : ResKeeps kb ke s (execBillingUnknownFn fn s frame) := by
  have h := State.fresh_keeps (Keeps.refl kb ke s)
  unfold execBillingUnknownFn
  with_reducible repeat' first
    | assumption | apply State.fresh_keeps | apply State.billError_keeps | apply State.billing_keeps
    | apply RunKeeps.ok | apply RunKeeps.error | apply ResKeeps.next | (intro _; skip)
    | refine ResKeeps.ite (fun _ => ?_) (fun _ => ?_) | refine Keeps.ite (fun _ => ?_) (fun _ => ?_) | split
    | exact Keeps.upd (by assumption)

theorem State.sendLine_keeps (h : Keeps kb ke u0 s) (p : LaneId) (lane : DataLane) (b : LaneBlock) : Keeps kb ke u0 (State.sendLine s p lane b) := by
  unfold State.sendLine
  with_reducible repeat' first
    | assumption | apply State.modPort_keeps | apply State.emit_keeps | (intro _; skip)
    | (extract_lets +onlyGivenNames xq; refine (fun (hx : Keeps kb ke u0 xq) => ?_) ?_; rotate_left; dsimp -zeta only [xq]; rotate_left; clear_value xq)
    | (extract_lets +onlyGivenNames xq; (have hq : xq = xq := by (dsimp -zeta only [xq])); clear hq; clear_value xq)
    | refine Keeps.ite (fun _ => ?_) (fun _ => ?_) | split | exact Keeps.upd (by assumption)

theorem State.sendPos_keeps (h : Keeps kb ke u0 s) (p : LaneId) (lane : DataLane) (pos : Nat) : Keeps kb ke u0 (State.sendPos s p lane pos) := by
  unfold State.sendPos
  with_reducible repeat' first
    | assumption | apply State.sendLine_keeps
    | (extract_lets +onlyGivenNames xq; refine (fun (hx : Keeps kb ke u0 xq) => ?_) ?_; rotate_left; dsimp -zeta only [xq]; rotate_left; clear_value xq)
    | (extract_lets +onlyGivenNames xq; (have hq : xq = xq := by (dsimp -zeta only [xq])); clear hq; clear_value xq)
    | refine Keeps.ite (fun _ => ?_) (fun _ => ?_) | split | exact Keeps.upd (by assumption)

theorem State.fillLanes_keeps (h : Keeps kb ke u0 s) : Keeps kb ke u0 (State.fillLanes s) := by
  unfold State.fillLanes
  with_reducible repeat' first
    | assumption | apply State.each_keeps | apply State.sendPos_keeps | apply State.each_keeps | (intro _; skip)
    | (extract_lets +onlyGivenNames xq; refine (fun (hx : Keeps kb ke u0 xq) => ?_) ?_; rotate_left; dsimp -zeta only [xq]; rotate_left; clear_value xq)
    | (extract_lets +onlyGivenNames xq; (have hq : xq = xq := by (dsimp -zeta only [xq])); clear hq; clear_value xq)
    | refine Keeps.ite (fun _ => ?_) (fun _ => ?_) | split | exact Keeps.upd (by assumption)

theorem State.driveHb_keeps (h : Keeps kb ke u0 s) : Keeps kb ke u0 s.driveHb := by
  refine Keeps.ite (fun _ => h) (fun _ => State.emit_keeps ?_ _)
  exact h.trans ⟨rfl, Nat.le_refl _, id, id, fun _ => ⟨rfl, rfl, rfl⟩, fun _ => rfl⟩

theorem State.trackAll_keeps (h : Keeps kb ke u0 s) : Keeps kb ke u0 (State.trackAll s) := by
  unfold State.trackAll
  with_reducible repeat' first
    | assumption | apply State.each_keeps | apply State.trackStep_keeps | apply State.each_keeps | (intro _; skip)
    | refine Keeps.ite (fun _ => ?_) (fun _ => ?_) | split

theorem State.epochStart_keeps (h : Keeps kb ke u0 s) : Keeps kb ke u0 (State.epochStart s) := by
  unfold State.epochStart
  with_reducible repeat' first
    | assumption | apply State.each_keeps | apply State.modPort_keeps | apply State.dllStep_keeps
    | apply State.each_keeps | (intro _; skip)
    | (extract_lets +onlyGivenNames xq; refine (fun (hx : Keeps kb ke u0 xq) => ?_) ?_; rotate_left; dsimp -zeta only [xq]; rotate_left; clear_value xq)
    | (extract_lets +onlyGivenNames xq; (have hq : xq = xq := by (dsimp -zeta only [xq])); clear hq; clear_value xq)
    | refine Keeps.ite (fun _ => ?_) (fun _ => ?_) | split | exact Keeps.upd (by assumption)

theorem State.passed_keeps (h : Keeps kb ke u0 s) (from_ : Nat) (fromTicks : Nat) : Keeps kb ke u0 (State.passed s from_ fromTicks) := by
  unfold State.passed
  with_reducible repeat' first
    | assumption | apply State.showSpare_keeps | apply State.steerStep_keeps | apply State.followPeer_keeps
    | apply State.ringDue_keeps | apply State.showCsel_keeps | apply State.slewRtime_keeps
    | apply State.softNext_keeps | apply State.mtrDue_keeps | apply State.fillLanes_keeps
    | apply State.driveHb_keeps | apply State.trackAll_keeps | apply State.epochStart_keeps
    | (extract_lets +onlyGivenNames xq; refine (fun (hx : Keeps kb ke u0 xq) => ?_) ?_; rotate_left; dsimp -zeta only [xq]; rotate_left; clear_value xq)
    | (extract_lets +onlyGivenNames xq; (have hq : xq = xq := by (dsimp -zeta only [xq])); clear hq; clear_value xq)
    | refine Keeps.ite (fun _ => ?_) (fun _ => ?_) | split

theorem State.safeShow_keeps (h : Keeps kb ke u0 s) : Keeps kb ke u0 (State.safeShow s) := by
  unfold State.safeShow
  with_reducible repeat' first
    | assumption | apply State.setWord_keeps | apply State.fset_keeps
    | (extract_lets +onlyGivenNames xq; refine (fun (hx : Keeps kb ke u0 xq) => ?_) ?_; rotate_left; dsimp -zeta only [xq]; rotate_left; clear_value xq)
    | (extract_lets +onlyGivenNames xq; (have hq : xq = xq := by (dsimp -zeta only [xq])); clear hq; clear_value xq)
    | refine Keeps.ite (fun _ => ?_) (fun _ => ?_) | split

theorem State.edmStart_keeps {u0 s' : State} (h : Keeps kb ke u0 s') (s : State) : Keeps kb ke u0 (s.edmStart s') := by
  unfold State.edmStart
  exact State.modSafe_keeps h _ (fun _ => ⟨rfl, rfl, rfl⟩)

theorem State.safeChange_keeps (h : Keeps kb ke u0 s) (f : Safe → Safe)
    (k : kb = true → (f s.safe).a.set = s.safe.a.set ∧ (f s.safe).b.set = s.safe.b.set ∧ (f s.safe).sealed = s.safe.sealed) :
    Keeps kb ke u0 (s.safeChange f) :=
  State.safeShow_keeps (State.edmStart_keeps (State.modSafe_keeps h f k) s)

theorem State.safeCause_keeps (h : Keeps kb ke u0 s) (code : BitVec 8) : Keeps kb ke u0 (State.safeCause s code) := by
  unfold State.safeCause
  with_reducible repeat' first
    | assumption | apply State.logHigh_keeps | apply State.safeChange_keeps
    | with_unfolding_all exact fun _ => ⟨rfl, rfl, rfl⟩ | (intro _; skip)
    | (extract_lets +onlyGivenNames xq; refine (fun (hx : Keeps kb ke u0 xq) => ?_) ?_; rotate_left; dsimp -zeta only [xq]; rotate_left; clear_value xq)
    | (extract_lets +onlyGivenNames xq; (have hq : xq = xq := by (dsimp -zeta only [xq])); clear hq; clear_value xq)
    | exact Keeps.upd (by assumption)

theorem State.safeFault_keeps (h : Keeps kb ke u0 s) (code : BitVec 8) : Keeps kb ke u0 (State.safeFault s code) := by
  unfold State.safeFault
  with_reducible repeat' first
    | assumption | apply State.beginStop_keeps | apply State.raise_keeps | apply State.safeChange_keeps
    | apply State.safeCause_keeps | with_unfolding_all exact fun _ => ⟨rfl, rfl, rfl⟩ | (intro _; skip)
    | (extract_lets +onlyGivenNames xq; refine (fun (hx : Keeps kb ke u0 xq) => ?_) ?_; rotate_left; dsimp -zeta only [xq]; rotate_left; clear_value xq)
    | (extract_lets +onlyGivenNames xq; (have hq : xq = xq := by (dsimp -zeta only [xq])); clear hq; clear_value xq)
    | refine Keeps.ite (fun _ => ?_) (fun _ => ?_) | split | exact Keeps.upd (by assumption)

/-- A demand that meets a test touches no parameter set. -/
theorem Safe.overTest_set (c : Safe) : c.overTest.a.set = c.a.set ∧ c.overTest.b.set = c.b.set ∧ c.overTest.sealed = c.sealed := by
  unfold Safe.overTest
  split
  · dsimp only
    exact ⟨by split <;> rfl, by split <;> rfl, rfl⟩
  · exact ⟨rfl, rfl, rfl⟩

theorem State.safeDemand_keeps (h : Keeps kb ke u0 s) (c : Channel) (f act : Nat) : Keeps kb ke u0 (s.safeDemand c f act) := by
  unfold State.safeDemand
  extract_lets new mark t t'
  have ht : Keeps kb ke u0 t := State.safeChange_keeps h _ (fun _ => by cases c <;> exact Safe.overTest_set _)
  have ht' : Keeps kb ke u0 t' := Keeps.ite (fun _ => State.safeCause_keeps (State.finc_keeps ht _) _) (fun _ => ht)
  exact State.beginStop_keeps (State.raise_keeps ht' _) true

theorem State.bEvaluate_keeps (h : Keeps kb ke u0 s) : Keeps kb ke u0 (State.bEvaluate s) := by
  unfold State.bEvaluate
  with_reducible repeat' first
    | assumption | apply State.safeChange_keeps | apply State.safeDemand_keeps
    | with_unfolding_all exact fun _ => ⟨rfl, rfl, rfl⟩ | apply Keeps.foldl | (intro _; skip)
    | (extract_lets +onlyGivenNames xq; refine (fun (hx : Keeps kb ke u0 xq) => ?_) ?_; rotate_left; dsimp -zeta only [xq]; rotate_left; clear_value xq)
    | (extract_lets +onlyGivenNames xq; (have hq : xq = xq := by (dsimp -zeta only [xq])); clear hq; clear_value xq)
    | refine Keeps.ite (fun _ => ?_) (fun _ => ?_) | split | exact Keeps.upd (by assumption)

theorem State.discSince_keeps (h : Keeps kb ke u0 s) : Keeps kb ke u0 (State.discSince s) := by
  unfold State.discSince
  with_reducible repeat' first
    | assumption | apply State.modSafe_keeps | with_unfolding_all exact fun _ => ⟨rfl, rfl, rfl⟩ | (intro _; skip)
    | (extract_lets +onlyGivenNames xq; refine (fun (hx : Keeps kb ke u0 xq) => ?_) ?_; rotate_left; dsimp -zeta only [xq]; rotate_left; clear_value xq)
    | (extract_lets +onlyGivenNames xq; (have hq : xq = xq := by (dsimp -zeta only [xq])); clear hq; clear_value xq)
    | refine Keeps.ite (fun _ => ?_) (fun _ => ?_) | split | exact Keeps.upd (by assumption)

theorem execSafetyInputChange_keeps (si : SafetyInputId) (level : Bool) (s : State) : ResKeeps kb ke s (execSafetyInputChange si level s) := by
  have h := State.fresh_keeps (Keeps.refl kb ke s)
  unfold execSafetyInputChange
  with_reducible repeat' first
    | assumption | apply State.modSafe_keeps | apply State.fresh_keeps | apply State.safeShow_keeps
    | apply State.bEvaluate_keeps | apply State.discSince_keeps | apply RunKeeps.ok | apply RunKeeps.error
    | with_unfolding_all exact fun _ => ⟨rfl, rfl, rfl⟩ | apply ResKeeps.next | (intro _; skip)
    | (extract_lets +onlyGivenNames xq; refine (fun (hx : Keeps kb ke s xq) => ?_) ?_; rotate_left; dsimp -zeta only [xq]; rotate_left; clear_value xq)
    | (extract_lets +onlyGivenNames xq; (have hq : xq = xq := by (dsimp -zeta only [xq])); clear hq; clear_value xq)
    | refine ResKeeps.ite (fun _ => ?_) (fun _ => ?_) | refine Keeps.ite (fun _ => ?_) (fun _ => ?_) | split
    | exact Keeps.upd (by assumption)

theorem execDiscrepancyTimeout_keeps (f : FuncId) (s : State) : ResKeeps kb ke s (execDiscrepancyTimeout f s) := by
  have h := State.fresh_keeps (Keeps.refl kb ke s)
  unfold execDiscrepancyTimeout
  with_reducible repeat' first
    | assumption | apply State.advanceTo_keeps | apply State.modSafe_keeps | apply State.fresh_keeps
    | apply State.safeFault_keeps | apply RunKeeps.ok | apply RunKeeps.error
    | with_unfolding_all exact fun _ => ⟨rfl, rfl, rfl⟩ | apply ResKeeps.next | (intro _; skip)
    | (extract_lets +onlyGivenNames xq; refine (fun (hx : Keeps kb ke s xq) => ?_) ?_; rotate_left; dsimp -zeta only [xq]; rotate_left; clear_value xq)
    | (extract_lets +onlyGivenNames xq; (have hq : xq = xq := by (dsimp -zeta only [xq])); clear hq; clear_value xq)
    | refine ResKeeps.ite (fun _ => ?_) (fun _ => ?_) | refine Keeps.ite (fun _ => ?_) (fun _ => ?_) | split
    | exact Keeps.upd (by assumption)

theorem State.aEvaluate_keeps (h : Keeps kb ke u0 s) (before : BitVec 16) : Keeps kb ke u0 (State.aEvaluate s before) := by
  unfold State.aEvaluate
  with_reducible repeat' first
    | assumption | apply State.safeChange_keeps | apply State.safeDemand_keeps
    | with_unfolding_all exact fun _ => ⟨rfl, rfl, rfl⟩ | apply Keeps.foldl | (intro _; skip)
    | (extract_lets +onlyGivenNames xq; refine (fun (hx : Keeps kb ke u0 xq) => ?_) ?_; rotate_left; dsimp -zeta only [xq]; rotate_left; clear_value xq)
    | (extract_lets +onlyGivenNames xq; (have hq : xq = xq := by (dsimp -zeta only [xq])); clear hq; clear_value xq)
    | refine Keeps.ite (fun _ => ?_) (fun _ => ?_) | split | exact Keeps.upd (by assumption)

theorem State.aCommand_keeps (h : Keeps kb ke u0 s) : Keeps kb ke u0 s.aCommand := by
  unfold State.aCommand
  extract_lets req want bad cmd t
  have ht : Keeps kb ke u0 t := State.safeChange_keeps h _ (fun _ => ⟨rfl, rfl, rfl⟩)
  exact Keeps.ite (fun _ => ht) (fun _ => State.safeChange_keeps (State.safeFault_keeps ht _) _ (fun _ => ⟨rfl, rfl, rfl⟩))

theorem execChannelACycle_keeps (s : State) : ResKeeps kb ke s (execChannelACycle s) := by
  have h := State.fresh_keeps (Keeps.refl kb ke s)
  unfold execChannelACycle
  with_reducible repeat' first
    | assumption | apply State.advanceTo_keeps | apply State.fresh_keeps | apply State.safeChange_keeps
    | apply State.aEvaluate_keeps | apply State.aCommand_keeps | apply RunKeeps.ok | apply RunKeeps.error
    | with_unfolding_all exact fun _ => ⟨rfl, rfl, rfl⟩ | apply ResKeeps.next | (intro _; skip)
    | (extract_lets +onlyGivenNames xq; refine (fun (hx : Keeps kb ke s xq) => ?_) ?_; rotate_left; dsimp -zeta only [xq]; rotate_left; clear_value xq)
    | (extract_lets +onlyGivenNames xq; (have hq : xq = xq := by (dsimp -zeta only [xq])); clear hq; clear_value xq)
    | refine ResKeeps.ite (fun _ => ?_) (fun _ => ?_) | refine Keeps.ite (fun _ => ?_) (fun _ => ?_) | split
    | exact Keeps.upd (by assumption)

theorem execChannelExchange_keeps (liveA : Bool) (liveB : Bool) (s : State) : ResKeeps kb ke s (execChannelExchange liveA liveB s) := by
  have h := State.fresh_keeps (Keeps.refl kb ke s)
  unfold execChannelExchange
  with_reducible repeat' first
    | assumption | apply State.modSafe_keeps | apply State.fresh_keeps | apply State.safeChange_keeps
    | apply State.safeDemand_keeps | apply RunKeeps.ok | apply RunKeeps.error
    | with_unfolding_all exact fun _ => ⟨rfl, rfl, rfl⟩ | apply ResKeeps.next | (intro _; skip)
    | (extract_lets +onlyGivenNames xq; refine (fun (hx : Keeps kb ke s xq) => ?_) ?_; rotate_left; dsimp -zeta only [xq]; rotate_left; clear_value xq)
    | (extract_lets +onlyGivenNames xq; (have hq : xq = xq := by (dsimp -zeta only [xq])); clear hq; clear_value xq)
    | refine ResKeeps.ite (fun _ => ?_) (fun _ => ?_) | refine Keeps.ite (fun _ => ?_) (fun _ => ?_) | split
    | exact Keeps.upd (by assumption)

theorem State.chanFault_keeps (h : Keeps kb ke u0 s) (c : Channel) : Keeps kb ke u0 (s.chanFault c) := by
  refine Keeps.ite (fun _ => h) (fun _ => ?_)
  refine State.beginStop_keeps (State.raise_keeps (State.safeCause_keeps (State.safeChange_keeps h _ (fun _ => ?_)) _) _) true
  unfold Safe.chanShare
  exact ⟨by dsimp only; split <;> rfl, by dsimp only; split <;> rfl, rfl⟩

theorem execChannelFault_keeps (survivor : Channel) (s : State) : ResKeeps kb ke s (execChannelFault survivor s) := by
  have h := State.fresh_keeps (Keeps.refl kb ke s)
  unfold execChannelFault
  with_reducible repeat' first
    | assumption | apply State.fresh_keeps | apply State.chanFault_keeps | apply RunKeeps.ok | apply RunKeeps.error
    | apply ResKeeps.next
    | (extract_lets +onlyGivenNames xq; refine (fun (hx : Keeps kb ke s xq) => ?_) ?_; rotate_left; dsimp -zeta only [xq]; rotate_left; clear_value xq)
    | (extract_lets +onlyGivenNames xq; (have hq : xq = xq := by (dsimp -zeta only [xq])); clear hq; clear_value xq)
    | refine ResKeeps.ite (fun _ => ?_) (fun _ => ?_) | refine Keeps.ite (fun _ => ?_) (fun _ => ?_) | split

theorem State.safeReset_keeps (h : Keeps kb ke u0 s) : Keeps kb ke u0 (State.safeReset s) := by
  unfold State.safeReset
  with_reducible repeat' first
    | assumption | apply State.each_keeps | apply State.fset_keeps | apply State.finc_keeps
    | apply State.heartbeatBack_keeps | apply State.safeChange_keeps
    | with_unfolding_all exact fun _ => ⟨rfl, rfl, rfl⟩ | apply State.each_keeps | (intro _; skip)
    | (extract_lets +onlyGivenNames xq; refine (fun (hx : Keeps kb ke u0 xq) => ?_) ?_; rotate_left; dsimp -zeta only [xq]; rotate_left; clear_value xq)
    | (extract_lets +onlyGivenNames xq; (have hq : xq = xq := by (dsimp -zeta only [xq])); clear hq; clear_value xq)
    | exact Keeps.upd (by assumption)

theorem execSafeResetEdge_keeps (heldUsA : Nat) (heldUsB : Nat) (s : State) (gapUs : Nat := 0) : ResKeeps kb ke s (execSafeResetEdge heldUsA heldUsB s gapUs) := by
  have h := State.fresh_keeps (Keeps.refl kb ke s)
  unfold execSafeResetEdge
  with_reducible repeat' first
    | assumption | apply State.modSafe_keeps | apply State.fset_keeps | apply State.fresh_keeps
    | apply State.safeReset_keeps | apply RunKeeps.ok | apply RunKeeps.error
    | with_unfolding_all exact fun _ => ⟨rfl, rfl, rfl⟩ | apply ResKeeps.next | (intro _; skip)
    | (extract_lets +onlyGivenNames xq; refine (fun (hx : Keeps kb ke s xq) => ?_) ?_; rotate_left; dsimp -zeta only [xq]; rotate_left; clear_value xq)
    | (extract_lets +onlyGivenNames xq; (have hq : xq = xq := by (dsimp -zeta only [xq])); clear hq; clear_value xq)
    | refine ResKeeps.ite (fun _ => ?_) (fun _ => ?_) | refine Keeps.ite (fun _ => ?_) (fun _ => ?_) | split
    | exact Keeps.upd (by assumption)

theorem execOutputTestSlot_keeps (s : State) : ResKeeps kb ke s (execOutputTestSlot s) := by
  have h := State.fresh_keeps (Keeps.refl kb ke s)
  unfold execOutputTestSlot
  with_reducible repeat' first
    | assumption | apply State.advanceTo_keeps | apply State.fresh_keeps | apply State.safeChange_keeps
    | apply RunKeeps.ok | apply RunKeeps.error | with_unfolding_all exact fun _ => ⟨rfl, rfl, rfl⟩
    | apply ResKeeps.next | (intro _; skip)
    | (extract_lets +onlyGivenNames xq; refine (fun (hx : Keeps kb ke s xq) => ?_) ?_; rotate_left; dsimp -zeta only [xq]; rotate_left; clear_value xq)
    | (extract_lets +onlyGivenNames xq; (have hq : xq = xq := by (dsimp -zeta only [xq])); clear hq; clear_value xq)
    | refine ResKeeps.ite (fun _ => ?_) (fun _ => ?_) | refine Keeps.ite (fun _ => ?_) (fun _ => ?_) | split
    | exact Keeps.upd (by assumption)

theorem execOutputTestCheck_keeps (nodeOpen : Bool) (s : State) : ResKeeps kb ke s (execOutputTestCheck nodeOpen s) := by
  have h := State.fresh_keeps (Keeps.refl kb ke s)
  unfold execOutputTestCheck
  extract_lets +onlyGivenNames t
  have ht : Keeps kb ke s t := h
  clear_value t
  split
  · exact ResKeeps.next ht
  · extract_lets began t1 void t2 t3
    have h1 : Keeps kb ke s t1 := State.advanceTo_keeps ht _
    have h2 : Keeps kb ke s t2 :=
      State.safeChange_keeps (Keeps.ite (fun _ => State.advanceTo_keeps h1 _) (fun _ => h1)) _ (fun _ => ⟨rfl, rfl, rfl⟩)
    have h3 : Keeps kb ke s t3 := State.fset_keeps (State.fset_keeps h2 _ _) _ _
    refine ResKeeps.ite (fun _ => ResKeeps.next (State.finc_keeps (State.fset_keeps h2 _ _) _)) (fun _ => ?_)
    refine ResKeeps.ite (fun _ => ResKeeps.next (State.modSafe_keeps h3 _ (fun _ => ⟨rfl, rfl, rfl⟩))) (fun _ => ?_)
    exact ResKeeps.next (State.safeFault_keeps (State.modSafe_keeps h3 _ (fun _ => ⟨rfl, rfl, rfl⟩)) _)

theorem State.peerHbLost_keeps (h : Keeps kb ke u0 s) : Keeps kb ke u0 (State.peerHbLost s) := by
  unfold State.peerHbLost
  with_reducible repeat' first
    | assumption | apply State.fsetBit_keeps | apply State.fclrBit_keeps | apply State.safeDemand_keeps
    | (extract_lets +onlyGivenNames xq; refine (fun (hx : Keeps kb ke u0 xq) => ?_) ?_; rotate_left; dsimp -zeta only [xq]; rotate_left; clear_value xq)
    | (extract_lets +onlyGivenNames xq; (have hq : xq = xq := by (dsimp -zeta only [xq])); clear hq; clear_value xq)
    | refine Keeps.ite (fun _ => ?_) (fun _ => ?_) | split

theorem execPeerHeartbeatLost_keeps (s : State) : ResKeeps kb ke s (execPeerHeartbeatLost s) := by
  have h := State.fresh_keeps (Keeps.refl kb ke s)
  unfold execPeerHeartbeatLost
  with_reducible repeat' first
    | assumption | apply State.fresh_keeps | apply State.peerHbLost_keeps | apply RunKeeps.ok | apply RunKeeps.error
    | apply ResKeeps.next

theorem execReturnedHbLost_keeps (p : LaneId) (s : State) : ResKeeps kb ke s (execReturnedHbLost p s) := by
  have h := State.fresh_keeps (Keeps.refl kb ke s)
  unfold execReturnedHbLost
  with_reducible repeat' first
    | assumption | apply State.fsetBit_keeps | apply State.fclrBit_keeps | apply State.fresh_keeps
    | apply State.raise_keeps | apply State.peerHbLost_keeps | apply RunKeeps.ok | apply RunKeeps.error
    | apply ResKeeps.next
    | (extract_lets +onlyGivenNames xq; refine (fun (hx : Keeps kb ke s xq) => ?_) ?_; rotate_left; dsimp -zeta only [xq]; rotate_left; clear_value xq)
    | (extract_lets +onlyGivenNames xq; (have hq : xq = xq := by (dsimp -zeta only [xq])); clear hq; clear_value xq)
    | refine ResKeeps.ite (fun _ => ?_) (fun _ => ?_) | refine Keeps.ite (fun _ => ?_) (fun _ => ?_) | split

theorem execReturnedHeartbeat_keeps (p : LaneId) (s : State) : ResKeeps kb ke s (execReturnedHeartbeat p s) := by
  have h := State.fresh_keeps (Keeps.refl kb ke s)
  unfold execReturnedHeartbeat
  with_reducible repeat' first
    | assumption | apply State.fsetBit_keeps | apply State.fresh_keeps | apply State.safeChange_keeps
    | apply RunKeeps.ok | apply RunKeeps.error | with_unfolding_all exact fun _ => ⟨rfl, rfl, rfl⟩
    | apply ResKeeps.next | (intro _; skip)
    | (extract_lets +onlyGivenNames xq; refine (fun (hx : Keeps kb ke s xq) => ?_) ?_; rotate_left; dsimp -zeta only [xq]; rotate_left; clear_value xq)
    | (extract_lets +onlyGivenNames xq; (have hq : xq = xq := by (dsimp -zeta only [xq])); clear hq; clear_value xq)
    | refine ResKeeps.ite (fun _ => ?_) (fun _ => ?_) | refine Keeps.ite (fun _ => ?_) (fun _ => ?_) | split
    | exact Keeps.upd (by assumption)

theorem execLaneLive_keeps (p : LaneId) (s : State) : ResKeeps kb ke s (execLaneLive p s) := by
  have h := State.fresh_keeps (Keeps.refl kb ke s)
  unfold execLaneLive
  with_reducible repeat' first
    | assumption | apply State.modSafe_keeps | apply State.fsetBit_keeps | apply State.fresh_keeps
    | apply State.safeFault_keeps | apply RunKeeps.ok | apply RunKeeps.error
    | with_unfolding_all exact fun _ => ⟨rfl, rfl, rfl⟩ | apply ResKeeps.next | (intro _; skip)
    | (extract_lets +onlyGivenNames xq; refine (fun (hx : Keeps kb ke s xq) => ?_) ?_; rotate_left; dsimp -zeta only [xq]; rotate_left; clear_value xq)
    | (extract_lets +onlyGivenNames xq; (have hq : xq = xq := by (dsimp -zeta only [xq])); clear hq; clear_value xq)
    | refine ResKeeps.ite (fun _ => ?_) (fun _ => ?_) | refine Keeps.ite (fun _ => ?_) (fun _ => ?_) | split
    | exact Keeps.upd (by assumption)

theorem State.showSet_keeps (h : Keeps kb ke u0 s) : Keeps kb ke u0 (State.showSet s) := by
  unfold State.showSet
  with_reducible repeat' first
    | assumption | apply State.setWord_keeps | apply State.fset_keeps
    | (extract_lets +onlyGivenNames xq; refine (fun (hx : Keeps kb ke u0 xq) => ?_) ?_; rotate_left; dsimp -zeta only [xq]; rotate_left; clear_value xq)
    | (extract_lets +onlyGivenNames xq; (have hq : xq = xq := by (dsimp -zeta only [xq])); clear hq; clear_value xq)
    | refine Keeps.ite (fun _ => ?_) (fun _ => ?_) | split | exact Keeps.upd (by assumption)

theorem execSafeStartupDone_keeps (c : Channel) (ok : Bool) (s : State) : ResKeeps kb ke s (execSafeStartupDone c ok s) := by
  have h := State.fresh_keeps (Keeps.refl kb ke s)
  unfold execSafeStartupDone
  extract_lets +onlyGivenNames t
  have ht : Keeps kb ke s t := h
  clear_value t
  split
  refine ResKeeps.ite (fun _ => ?_) (fun _ => ResKeeps.next ht)
  extract_lets t1 t2 t3
  have h2 : Keeps kb ke s t2 := State.showSet_keeps (State.safeChange_keeps ht _ (fun _ => by cases c <;> exact ⟨rfl, rfl, rfl⟩))
  have h3 : Keeps kb ke s t3 := Keeps.ite (fun _ => State.safeFault_keeps h2 _) (fun _ => Keeps.ite (fun _ => State.safeFault_keeps h2 _)
    (fun _ => Keeps.ite (fun _ => State.safeCause_keeps h2 _) (fun _ => h2)))
  exact ResKeeps.next (State.bEvaluate_keeps h3)

theorem State.safePower_keeps (h : Keeps kb ke u0 s) (c : Channel) : Keeps kb ke u0 (s.safePower c) := by
  unfold State.safePower
  exact State.safeChange_keeps h _ (fun _ => by cases c <;> exact ⟨rfl, rfl, rfl⟩)

theorem State.safeLoad_keeps {ke : Bool} {u0 s : State} (h : Keeps false ke u0 s) (set : List Byte) : Keeps false ke u0 (s.safeLoad set).1 := by
  refine Keeps.iteFst (fun _ => ?_) (fun _ => h)
  exact State.bEvaluate_keeps (State.safeFault_keeps (State.showSet_keeps (State.discSince_keeps (State.modSafe_keeps h _ nofun))) _)

theorem State.safeConfirm_keeps {ke : Bool} {u0 s : State} (h : Keeps false ke u0 s) (check : Word) : Keeps false ke u0 (s.safeConfirm check).1 := by
  unfold State.safeConfirm
  split
  · exact Keeps.iteFst (fun _ => State.showSet_keeps (State.modSafe_keeps h _ nofun)) (fun _ => h)
  · exact h

theorem execFaultEvent_keeps (src : SourceId) (s : State) : ResKeeps kb ke s (execFaultEvent src s) := by
  have h := State.fresh_keeps (Keeps.refl kb ke s)
  unfold execFaultEvent
  with_reducible repeat' first
    | assumption | apply State.fresh_keeps | apply State.raise_keeps | apply RunKeeps.ok | apply RunKeeps.error
    | apply ResKeeps.next

theorem State.pinLevel_keeps (h : Keeps kb ke u0 s) : Keeps kb ke u0 (State.pinLevel s) := by
  unfold State.pinLevel
  with_reducible repeat' first
    | assumption | apply State.fset_keeps | refine Keeps.ite (fun _ => ?_) (fun _ => ?_) | split

theorem execPinPulseEnd_keeps (s : State) : ResKeeps kb ke s (execPinPulseEnd s) := by
  have h := State.fresh_keeps (Keeps.refl kb ke s)
  unfold execPinPulseEnd
  with_reducible repeat' first
    | assumption | apply State.advanceTo_keeps | apply State.fset_keeps | apply State.fresh_keeps
    | apply State.pinLevel_keeps | apply RunKeeps.ok | apply RunKeeps.error | apply ResKeeps.next
    | (extract_lets +onlyGivenNames xq; refine (fun (hx : Keeps kb ke s xq) => ?_) ?_; rotate_left; dsimp -zeta only [xq]; rotate_left; clear_value xq)
    | (extract_lets +onlyGivenNames xq; (have hq : xq = xq := by (dsimp -zeta only [xq])); clear hq; clear_value xq)
    | refine ResKeeps.ite (fun _ => ?_) (fun _ => ?_) | refine Keeps.ite (fun _ => ?_) (fun _ => ?_) | split

theorem State.pinHold_keeps (h : Keeps kb ke u0 s) (v : Nat) : Keeps kb ke u0 (State.pinHold s v) := by
  unfold State.pinHold
  with_reducible repeat' first
    | assumption | apply State.fset_keeps | apply State.pinLevel_keeps

theorem State.readHist_keeps (h : Keeps kb ke u0 s) (k : HistId) : Keeps kb ke u0 (State.readHist s k).2 := by
  unfold State.readHist
  with_reducible repeat' first
    | assumption | apply State.setWord_keeps | apply State.fset_keeps | refine Keeps.ofFst (by assumption) ?_
    | refine Keeps.ofSnd (by assumption) ?_ | dsimp only
    | (extract_lets +onlyGivenNames xq; refine (fun (hx : Keeps kb ke u0 xq) => ?_) ?_; rotate_left; dsimp -zeta only [xq]; rotate_left; clear_value xq)
    | (extract_lets +onlyGivenNames xq; (have hq : xq = xq := by (dsimp -zeta only [xq])); clear hq; clear_value xq)
    | split | exact Keeps.upd (by assumption)

theorem State.swSet_keeps (h : Keeps kb ke u0 s) (v : Nat) : Keeps kb ke u0 (State.swSet s v) := by
  unfold State.swSet
  with_reducible repeat' first
    | assumption | apply State.each_keeps | apply State.raise_keeps | apply State.each_keeps | (intro _; skip)

theorem State.rewriteFailed_keeps (h : Keeps kb ke u0 s) (item : Nat) (lasts : Bool) : Keeps kb ke u0 (State.rewriteFailed s item lasts) := by
  unfold State.rewriteFailed
  with_reducible repeat' first
    | assumption | apply State.setWord_keeps | refine Keeps.ite (fun _ => ?_) (fun _ => ?_)
    | (extract_lets +onlyGivenNames xq; refine (fun (hx : Keeps kb ke u0 xq) => ?_) ?_; rotate_left; dsimp -zeta only [xq]; rotate_left; clear_value xq)
    | (extract_lets +onlyGivenNames xq; (have hq : xq = xq := by (dsimp -zeta only [xq])); clear hq; clear_value xq)
    | split | exact Keeps.upd (by assumption)

theorem State.raiseSelf_keeps (h : Keeps kb ke u0 s) : Keeps kb ke u0 (State.raiseSelf s) := by
  unfold State.raiseSelf
  with_reducible repeat' first
    | assumption | apply State.pushHist_keeps | apply State.reactWith_keeps | apply State.raise_keeps
    | apply State.log_keeps | refine Keeps.ofFst (by assumption) ?_ | refine Keeps.ofSnd (by assumption) ?_
    | dsimp only | apply Keeps.foldlFst | apply Keeps.foldl | (intro _; skip)
    | (extract_lets +onlyGivenNames xq; refine (fun (hx : Keeps kb ke u0 xq) => ?_) ?_; rotate_left; dsimp -zeta only [xq]; rotate_left; clear_value xq)
    | (extract_lets +onlyGivenNames xq; (have hq : xq = xq := by (dsimp -zeta only [xq])); clear hq; clear_value xq)
    | refine Keeps.ite (fun _ => ?_) (fun _ => ?_) | split

theorem execCollectorSelfFault_keeps (item : BitVec 8) (s : State) (bits : Word := 1) (lasts : Bool := false) : ResKeeps kb ke s (execCollectorSelfFault item s bits lasts) := by
  have h := State.fresh_keeps (Keeps.refl kb ke s)
  unfold execCollectorSelfFault
  with_reducible repeat' first
    | assumption | apply State.fset_keeps | apply State.fresh_keeps | apply State.beginStop_keeps
    | apply State.setCond_keeps | apply State.rewriteFailed_keeps | apply State.raiseSelf_keeps | apply RunKeeps.ok
    | apply RunKeeps.error | apply ResKeeps.next | refine ResKeeps.ite (fun _ => ?_) (fun _ => ?_)
    | refine Keeps.ite (fun _ => ?_) (fun _ => ?_)
    | (extract_lets +onlyGivenNames xq; refine (fun (hx : Keeps kb ke s xq) => ?_) ?_; rotate_left; dsimp -zeta only [xq]; rotate_left; clear_value xq)
    | (extract_lets +onlyGivenNames xq; (have hq : xq = xq := by (dsimp -zeta only [xq])); clear hq; clear_value xq)
    | split | exact Keeps.upd (by assumption)

theorem State.clearSelf_keeps (h : Keeps kb ke u0 s) : Keeps kb ke u0 (State.clearSelf s) := by
  unfold State.clearSelf
  with_reducible repeat' first
    | assumption | apply State.fset_keeps | apply State.setCond_keeps | apply State.pinLevel_keeps
    | refine Keeps.ite (fun _ => ?_) (fun _ => ?_) | split

theorem State.clearSticky_keeps (h : Keeps kb ke u0 s) (w : Nat) (v : Word) : Keeps kb ke u0 (State.clearSticky s w v) := by
  unfold State.clearSticky
  with_reducible repeat' first
    | assumption | apply State.each_keeps | apply State.setWord_keeps | apply State.raise_keeps
    | apply State.each_keeps | (intro _; skip)
    | (extract_lets +onlyGivenNames xq; refine (fun (hx : Keeps kb ke u0 xq) => ?_) ?_; rotate_left; dsimp -zeta only [xq]; rotate_left; clear_value xq)
    | (extract_lets +onlyGivenNames xq; (have hq : xq = xq := by (dsimp -zeta only [xq])); clear hq; clear_value xq)

theorem execCeWriteback_keeps (addr : Nat) (s : State) : ResKeeps kb ke s (execCeWriteback addr s) := by
  have h := State.fresh_keeps (Keeps.refl kb ke s)
  unfold execCeWriteback
  with_reducible repeat' first
    | assumption | apply State.fresh_keeps | apply RunKeeps.ok | apply RunKeeps.error | apply ResKeeps.next
    | (extract_lets +onlyGivenNames xq; refine (fun (hx : Keeps kb ke s xq) => ?_) ?_; rotate_left; dsimp -zeta only [xq]; rotate_left; clear_value xq)
    | (extract_lets +onlyGivenNames xq; (have hq : xq = xq := by (dsimp -zeta only [xq])); clear hq; clear_value xq)
    | refine ResKeeps.ite (fun _ => ?_) (fun _ => ?_) | refine Keeps.ite (fun _ => ?_) (fun _ => ?_) | split
    | exact Keeps.upd (by assumption)

theorem State.endPass_keeps (h : Keeps kb ke u0 s) (m : MemKind) : Keeps kb ke u0 (State.endPass s m) := by
  unfold State.endPass
  with_reducible repeat' first
    | assumption | apply State.fset_keeps | (intro _; skip)
    | (extract_lets +onlyGivenNames xq; refine (fun (hx : Keeps kb ke u0 xq) => ?_) ?_; rotate_left; dsimp -zeta only [xq]; rotate_left; clear_value xq)
    | (extract_lets +onlyGivenNames xq; (have hq : xq = xq := by (dsimp -zeta only [xq])); clear hq; clear_value xq)
    | refine Keeps.ite (fun _ => ?_) (fun _ => ?_) | split | exact Keeps.upd (by assumption)

theorem execScrubRead_keeps (mem : MemKind) (addr : Nat) (s : State) : ResKeeps kb ke s (execScrubRead mem addr s) := by
  have h := State.fresh_keeps (Keeps.refl kb ke s)
  unfold execScrubRead
  with_reducible repeat' first
    | assumption | apply State.fresh_keeps | apply State.checkRead_keeps | apply State.mtrCorrupt_keeps
    | apply State.endPass_keeps | apply RunKeeps.ok | apply RunKeeps.error | apply ResKeeps.next
    | refine Keeps.ofFst (by assumption) ?_ | refine Keeps.ofSnd (by assumption) ?_ | dsimp only
    | (extract_lets +onlyGivenNames xq; refine (fun (hx : Keeps kb ke s xq) => ?_) ?_; rotate_left; dsimp -zeta only [xq]; rotate_left; clear_value xq)
    | (extract_lets +onlyGivenNames xq; (have hq : xq = xq := by (dsimp -zeta only [xq])); clear hq; clear_value xq)
    | refine ResKeeps.ite (fun _ => ?_) (fun _ => ?_) | refine Keeps.ite (fun _ => ?_) (fun _ => ?_) | split

theorem execScrubSlow_keeps (mem : MemKind) (s : State) : ResKeeps kb ke s (execScrubSlow mem s) := by
  have h := State.fresh_keeps (Keeps.refl kb ke s)
  unfold execScrubSlow
  with_reducible repeat' first
    | assumption | apply State.fsetBit_keeps | apply State.fresh_keeps | apply State.raise_keeps | apply RunKeeps.ok
    | apply RunKeeps.error | apply ResKeeps.next
    | (extract_lets +onlyGivenNames xq; refine (fun (hx : Keeps kb ke s xq) => ?_) ?_; rotate_left; dsimp -zeta only [xq]; rotate_left; clear_value xq)
    | (extract_lets +onlyGivenNames xq; (have hq : xq = xq := by (dsimp -zeta only [xq])); clear hq; clear_value xq)
    | refine ResKeeps.ite (fun _ => ?_) (fun _ => ?_) | refine Keeps.ite (fun _ => ?_) (fun _ => ?_) | split

theorem State.memMode_keeps (h : Keeps kb ke u0 s) (req : Requester) (who : Nat) (mode : Nat) : Keeps kb ke u0 (State.memMode s req who mode) := by
  unfold State.memMode
  with_reducible repeat' first
    | assumption | apply State.clearSram_keeps | apply State.fset_keeps | apply State.refuse_keeps
    | (extract_lets +onlyGivenNames xq; refine (fun (hx : Keeps kb ke u0 xq) => ?_) ?_; rotate_left; dsimp -zeta only [xq]; rotate_left; clear_value xq)
    | (extract_lets +onlyGivenNames xq; (have hq : xq = xq := by (dsimp -zeta only [xq])); clear hq; clear_value xq)
    | refine Keeps.ite (fun _ => ?_) (fun _ => ?_) | split | exact Keeps.upd (by assumption)

theorem execMemInitDone_keeps (s : State) : ResKeeps kb ke s (execMemInitDone s) := by
  have h := State.fresh_keeps (Keeps.refl kb ke s)
  unfold execMemInitDone
  with_reducible repeat' first
    | assumption | apply State.fset_keeps | apply State.fresh_keeps | apply RunKeeps.ok | apply RunKeeps.error
    | apply ResKeeps.next
    | (extract_lets +onlyGivenNames xq; refine (fun (hx : Keeps kb ke s xq) => ?_) ?_; rotate_left; dsimp -zeta only [xq]; rotate_left; clear_value xq)
    | (extract_lets +onlyGivenNames xq; (have hq : xq = xq := by (dsimp -zeta only [xq])); clear hq; clear_value xq)
    | split | apply Keeps.upd

theorem execLogEnqueue_keeps (entry : LogEntry) (s : State) : ResKeeps kb ke s (execLogEnqueue entry s) := by
  have h := State.fresh_keeps (Keeps.refl kb ke s)
  unfold execLogEnqueue
  with_reducible repeat' first
    | assumption | apply State.fresh_keeps | apply State.log_keeps | apply RunKeeps.ok | apply RunKeeps.error
    | apply ResKeeps.next

theorem State.writeLog_keeps (h : Keeps kb ke u0 s) (e : LogEntry) : Keeps kb ke u0 (State.writeLog s e) := by
  unfold State.writeLog
  with_reducible repeat' first
    | assumption | apply State.fset_keeps | apply State.memStore_keeps | refine Keeps.ofFst (by assumption) ?_
    | refine Keeps.ofSnd (by assumption) ?_ | dsimp only
    | (extract_lets +onlyGivenNames xq; refine (fun (hx : Keeps kb ke u0 xq) => ?_) ?_; rotate_left; dsimp -zeta only [xq]; rotate_left; clear_value xq)
    | (extract_lets +onlyGivenNames xq; (have hq : xq = xq := by (dsimp -zeta only [xq])); clear hq; clear_value xq)
    | split | apply Keeps.upd

theorem execLogRecordWrite_keeps (s : State) : ResKeeps kb ke s (execLogRecordWrite s) := by
  have h := State.fresh_keeps (Keeps.refl kb ke s)
  unfold execLogRecordWrite
  with_reducible repeat' first
    | assumption | apply State.fresh_keeps | apply State.setLogBuf_keeps | apply State.writeLog_keeps
    | apply RunKeeps.ok | apply RunKeeps.error | apply ResKeeps.next
    | (extract_lets +onlyGivenNames xq; refine (fun (hx : Keeps kb ke s xq) => ?_) ?_; rotate_left; dsimp -zeta only [xq]; rotate_left; clear_value xq)
    | (extract_lets +onlyGivenNames xq; (have hq : xq = xq := by (dsimp -zeta only [xq])); clear hq; clear_value xq)
    | refine ResKeeps.ite (fun _ => ?_) (fun _ => ?_) | refine Keeps.ite (fun _ => ?_) (fun _ => ?_) | split
    | exact Keeps.upd (by assumption)

theorem State.logRead_keeps (h : Keeps kb ke u0 s) (pos : Nat) : Keeps kb ke u0 (State.logRead s pos).1 := by
  unfold State.logRead
  with_reducible repeat' first
    | assumption | apply State.checkReads_keeps | refine Keeps.ofFst (by assumption) ?_
    | refine Keeps.ofSnd (by assumption) ?_ | dsimp only

theorem State.logFound_keeps (h : Keeps kb ke u0 s) : Keeps kb ke u0 (State.logFound s).1 := by
  unfold State.logFound
  with_reducible repeat' first
    | assumption | apply State.logRead_keeps | refine Keeps.ofFst (by assumption) ?_
    | refine Keeps.ofSnd (by assumption) ?_ | dsimp only | apply Keeps.foldlFst | apply Keeps.foldl
    | (intro _; skip)
    | (extract_lets +onlyGivenNames xq; refine (fun (hx : Keeps kb ke u0 xq) => ?_) ?_; rotate_left; dsimp -zeta only [xq]; rotate_left; clear_value xq)
    | (extract_lets +onlyGivenNames xq; (have hq : xq = xq := by (dsimp -zeta only [xq])); clear hq; clear_value xq)
    | refine Keeps.iteFst (fun _ => ?_) (fun _ => ?_) | refine Keeps.ite (fun _ => ?_) (fun _ => ?_) | split
    | exact Keeps.upd (by assumption)

theorem execLogScan_keeps (s : State) : ResKeeps kb ke s (execLogScan s) := by
  have h := State.fresh_keeps (Keeps.refl kb ke s)
  unfold execLogScan
  with_reducible repeat' first
    | assumption | apply State.fset_keeps | apply State.finc_keeps | apply State.fresh_keeps
    | apply State.raise_keeps | apply State.logHigh_keeps | apply State.logFound_keeps | apply RunKeeps.ok
    | apply RunKeeps.error | apply ResKeeps.next | refine Keeps.ofFst (by assumption) ?_
    | refine Keeps.ofSnd (by assumption) ?_ | dsimp only | apply Keeps.foldlFst | apply Keeps.foldl
    | (intro _; skip)
    | (extract_lets +onlyGivenNames xq; refine (fun (hx : Keeps kb ke s xq) => ?_) ?_; rotate_left; dsimp -zeta only [xq]; rotate_left; clear_value xq)
    | (extract_lets +onlyGivenNames xq; (have hq : xq = xq := by (dsimp -zeta only [xq])); clear hq; clear_value xq)
    | refine ResKeeps.ite (fun _ => ?_) (fun _ => ?_) | refine Keeps.ite (fun _ => ?_) (fun _ => ?_) | split
    | apply Keeps.upd

theorem State.setTherm_keeps (h : Keeps kb ke u0 s) (v : Nat) : Keeps kb ke u0 (State.setTherm s v) := by
  unfold State.setTherm
  with_reducible repeat' first
    | assumption | apply State.fset_keeps | apply State.setCond_keeps

theorem State.shutDown_keeps (h : Keeps kb ke u0 s) (sensor : Nat) (reading : Int) : Keeps kb ke u0 (State.shutDown s sensor reading) := by
  unfold State.shutDown
  with_reducible repeat' first
    | assumption | apply State.fset_keeps | apply State.fsetI_keeps | apply State.beginStop_keeps
    | apply State.setLogBuf_keeps | apply State.discardTakes_keeps | apply State.writeLog_keeps
    | refine Keeps.ite (fun _ => ?_) (fun _ => ?_)
    | (extract_lets +onlyGivenNames xq; refine (fun (hx : Keeps kb ke u0 xq) => ?_) ?_; rotate_left; dsimp -zeta only [xq]; rotate_left; clear_value xq)
    | (extract_lets +onlyGivenNames xq; (have hq : xq = xq := by (dsimp -zeta only [xq])); clear hq; clear_value xq)
    | split | exact Keeps.upd (by assumption)

theorem State.takeReading_keeps (h : Keeps kb ke u0 s) (sensor : SensorId) (reading : Option Int) : Keeps kb ke u0 (State.takeReading s sensor reading) := by
  unfold State.takeReading
  with_reducible repeat' first
    | assumption | apply State.fset_keeps | apply State.fsetI_keeps | apply State.fsetBit_keeps
    | apply State.fclrBit_keeps
    | (extract_lets +onlyGivenNames xq; refine (fun (hx : Keeps kb ke u0 xq) => ?_) ?_; rotate_left; dsimp -zeta only [xq]; rotate_left; clear_value xq)
    | (extract_lets +onlyGivenNames xq; (have hq : xq = xq := by (dsimp -zeta only [xq])); clear hq; clear_value xq)
    | refine Keeps.ite (fun _ => ?_) (fun _ => ?_) | split | exact Keeps.upd (by assumption)

theorem State.sensorCond_keeps (h : Keeps kb ke u0 s) : Keeps kb ke u0 (State.sensorCond s) := by
  unfold State.sensorCond
  with_reducible repeat' first
    | assumption | apply State.setCond_keeps

theorem execThermalSample_keeps (sensor : SensorId) (reading : Option Int) (s : State) : ResKeeps kb ke s (execThermalSample sensor reading s) := by
  have h := State.fresh_keeps (Keeps.refl kb ke s)
  unfold execThermalSample
  with_reducible repeat' first
    | assumption | apply State.fset_keeps | apply State.fresh_keeps | apply State.applyLiveBlock_keeps
    | apply State.setTherm_keeps | apply State.shutDown_keeps | apply State.takeReading_keeps
    | apply State.sensorCond_keeps | apply RunKeeps.ok | apply RunKeeps.error | apply ResKeeps.next
    | (extract_lets +onlyGivenNames xq; refine (fun (hx : Keeps kb ke s xq) => ?_) ?_; rotate_left; dsimp -zeta only [xq]; rotate_left; clear_value xq)
    | (extract_lets +onlyGivenNames xq; (have hq : xq = xq := by (dsimp -zeta only [xq])); clear hq; clear_value xq)
    | refine ResKeeps.ite (fun _ => ?_) (fun _ => ?_) | refine Keeps.ite (fun _ => ?_) (fun _ => ?_) | split
    | exact Keeps.upd (by assumption)

end Sys2Proof.Machine
end

