-- ==== Sys2Proof/Laws/KeepsSup.lean ====
section
/-!
SUPPORT. What every operation keeps (`Keeps`): power, modes, streaming and register accesses.
-/

namespace Sys2Proof.Machine

set_option linter.unusedVariables false

variable {kb ke : Bool} {u0 s : State}

theorem State.endSession_keeps (h : Keeps kb ke u0 s) (h : HostPort) : Keeps kb ke u0 (State.endSession s h) := by
  unfold State.endSession
  with_reducible repeat' first
    | assumption | apply State.fset_keeps | apply State.fclrBit_keeps | apply State.modHost_keeps | (intro _; skip)
    | exact Keeps.upd (by assumption)

theorem State.hostLinkCond_keeps (h : Keeps kb ke u0 s) : Keeps kb ke u0 (State.hostLinkCond s) := by
  unfold State.hostLinkCond
  with_reducible repeat' first
    | assumption | apply State.setCond_keeps | (intro _; skip)

theorem State.updAxis_keeps (h : Keeps kb ke u0 s) : Keeps kb ke u0 (State.updAxis s) := by
  unfold State.updAxis
  with_reducible repeat' first
    | assumption | apply State.fset_keeps | refine Keeps.ite (fun _ => ?_) (fun _ => ?_) | split

theorem State.updEnd_keeps (h : Keeps kb ke u0 s) : Keeps kb ke u0 (State.updEnd s) := by
  unfold State.updEnd
  with_reducible repeat' first
    | assumption | apply State.fset_keeps | apply State.updAxis_keeps | exact Keeps.upd (by assumption)

theorem State.slState_keeps (h : Keeps kb ke u0 s) : Keeps kb ke u0 (State.slState s).2 := by
  unfold State.slState
  with_reducible repeat' first
    | assumption | apply State.memRead_keeps | refine Keeps.ofFst (by assumption) ?_
    | refine Keeps.ofSnd (by assumption) ?_ | dsimp only | split | exact Keeps.upd (by assumption)

theorem State.showSl_keeps (h : Keeps kb ke u0 s) (state : Nat) (boots : Nat) : Keeps kb ke u0 (State.showSl s state boots) := by
  unfold State.showSl
  with_reducible repeat' first
    | assumption | apply State.fset_keeps

theorem State.writeSl_keeps (h : Keeps kb ke u0 s) (state : Nat) (boots : Nat) : Keeps kb ke u0 (State.writeSl s state boots) := by
  unfold State.writeSl
  with_reducible repeat' first
    | assumption | apply State.memStore_keeps | apply State.showSl_keeps | refine Keeps.ofFst (by assumption) ?_
    | refine Keeps.ofSnd (by assumption) ?_ | dsimp only

theorem State.setPower_keeps (h : Keeps kb ke u0 s) (d : Nat) (on : Bool) : Keeps kb ke u0 (State.setPower s d on) := by
  unfold State.setPower
  with_reducible repeat' first
    | assumption | apply State.fputBit_keeps

theorem State.gateCommands_keeps (h : Keeps kb ke u0 s) : Keeps kb ke u0 (State.gateCommands s) := by
  unfold State.gateCommands
  with_reducible repeat' first
    | assumption | refine Keeps.ite (fun _ => ?_) (fun _ => ?_) | split | exact Keeps.upd (by assumption)

theorem State.safaReset_keeps (h : Keeps kb ke u0 s) : Keeps kb ke u0 (State.safaReset s) := by
  unfold State.safaReset
  with_reducible repeat' first
    | assumption | apply State.resetBlock_keeps | apply State.fset_keeps | apply State.showSet_keeps
    | apply State.safePower_keeps
    | (extract_lets +onlyGivenNames xq; refine (fun (hx : Keeps kb ke u0 xq) => ?_) ?_; rotate_left; dsimp -zeta only [xq]; rotate_left; clear_value xq)
    | (extract_lets +onlyGivenNames xq; (have hq : xq = xq := by (dsimp -zeta only [xq])); clear hq; clear_value xq)
    | apply Keeps.upd

theorem State.coreReset_keeps (h : Keeps kb ke u0 s) : Keeps kb ke u0 (State.coreReset s) := by
  unfold State.coreReset
  with_reducible repeat' first
    | assumption | apply State.resetBlock_keeps | apply State.clearSram_keeps | apply State.fset_keeps
    | apply State.showTick_keeps
    | (extract_lets +onlyGivenNames xq; refine (fun (hx : Keeps kb ke u0 xq) => ?_) ?_; rotate_left; dsimp -zeta only [xq]; rotate_left; clear_value xq)
    | (extract_lets +onlyGivenNames xq; (have hq : xq = xq := by (dsimp -zeta only [xq])); clear hq; clear_value xq)
    | refine Keeps.ite (fun _ => ?_) (fun _ => ?_) | split | exact Keeps.upd (by assumption)

theorem State.planReset_keeps (h : Keeps kb ke u0 s) : Keeps kb ke u0 (State.planReset s) := by
  unfold State.planReset
  with_reducible repeat' first
    | assumption | apply State.resetBlock_keeps | apply State.fset_keeps | apply State.setRtAdj_keeps
    | apply State.setCond_keeps | apply State.showTick_keeps
    | (extract_lets +onlyGivenNames xq; refine (fun (hx : Keeps kb ke u0 xq) => ?_) ?_; rotate_left; dsimp -zeta only [xq]; rotate_left; clear_value xq)
    | (extract_lets +onlyGivenNames xq; (have hq : xq = xq := by (dsimp -zeta only [xq])); clear hq; clear_value xq)
    | apply Keeps.upd

theorem State.unlockDlls_keeps (h : Keeps kb ke u0 s) (l : List LaneId) : Keeps kb ke u0 (State.unlockDlls s l) := by
  unfold State.unlockDlls
  with_reducible repeat' first
    | assumption | apply State.each_keeps | apply State.fclrBit_keeps | apply State.each_keeps | (intro _; skip)

theorem State.ringReset_keeps (h : Keeps kb ke u0 s) : Keeps kb ke u0 (State.ringReset s) := by
  unfold State.ringReset
  with_reducible repeat' first
    | assumption | apply State.resetBlock_keeps | apply State.unlockDlls_keeps | (intro _; skip)
    | (extract_lets +onlyGivenNames xq; refine (fun (hx : Keeps kb ke u0 xq) => ?_) ?_; rotate_left; dsimp -zeta only [xq]; rotate_left; clear_value xq)
    | (extract_lets +onlyGivenNames xq; (have hq : xq = xq := by (dsimp -zeta only [xq])); clear hq; clear_value xq)
    | refine Keeps.ite (fun _ => ?_) (fun _ => ?_) | split | exact Keeps.upd (by assumption)

theorem State.strmReset_keeps (h : Keeps kb ke u0 s) : Keeps kb ke u0 (State.strmReset s) := by
  unfold State.strmReset
  with_reducible repeat' first
    | assumption | apply State.resetRange_keeps | apply State.unlockDlls_keeps | (intro _; skip)
    | (extract_lets +onlyGivenNames xq; refine (fun (hx : Keeps kb ke u0 xq) => ?_) ?_; rotate_left; dsimp -zeta only [xq]; rotate_left; clear_value xq)
    | (extract_lets +onlyGivenNames xq; (have hq : xq = xq := by (dsimp -zeta only [xq])); clear hq; clear_value xq)
    | refine Keeps.ite (fun _ => ?_) (fun _ => ?_) | split | exact Keeps.upd (by assumption)

theorem State.hostReset_keeps (h : Keeps kb ke u0 s) : Keeps kb ke u0 (State.hostReset s) := by
  unfold State.hostReset
  with_reducible repeat' first
    | assumption | apply State.resetBlock_keeps | apply State.resetRange_keeps | apply State.each_keeps
    | apply State.fset_keeps | apply State.updAxis_keeps | apply State.each_keeps | (intro _; skip)
    | (extract_lets +onlyGivenNames xq; refine (fun (hx : Keeps kb ke u0 xq) => ?_) ?_; rotate_left; dsimp -zeta only [xq]; rotate_left; clear_value xq)
    | (extract_lets +onlyGivenNames xq; (have hq : xq = xq := by (dsimp -zeta only [xq])); clear hq; clear_value xq)
    | apply Keeps.upd

theorem State.dramReset_keeps (h : Keeps kb ke u0 s) : Keeps kb ke u0 (State.dramReset s) := by
  unfold State.dramReset
  with_reducible repeat' first
    | assumption | apply State.resetBlock_keeps | apply State.dropMem_keeps | apply State.captAxis_keeps
    | (extract_lets +onlyGivenNames xq; refine (fun (hx : Keeps kb ke u0 xq) => ?_) ?_; rotate_left; dsimp -zeta only [xq]; rotate_left; clear_value xq)
    | (extract_lets +onlyGivenNames xq; (have hq : xq = xq := by (dsimp -zeta only [xq])); clear hq; clear_value xq)
    | apply Keeps.upd

theorem State.anlgReset_keeps (h : Keeps kb ke u0 s) : Keeps kb ke u0 (State.anlgReset s) := by
  unfold State.anlgReset
  with_reducible repeat' first
    | assumption | apply State.resetBlock_keeps | apply State.adcRelease_keeps | apply State.gateCommands_keeps
    | (extract_lets +onlyGivenNames xq; refine (fun (hx : Keeps kb ke u0 xq) => ?_) ?_; rotate_left; dsimp -zeta only [xq]; rotate_left; clear_value xq)
    | (extract_lets +onlyGivenNames xq; (have hq : xq = xq := by (dsimp -zeta only [xq])); clear hq; clear_value xq)
    | apply Keeps.upd

theorem State.domainReset_keeps (h : Keeps kb ke u0 s) (d : Nat) : Keeps kb ke u0 (State.domainReset s d) := by
  unfold State.domainReset
  with_reducible repeat' first
    | assumption | apply State.resetBlock_keeps | apply State.modMtr_keeps | apply State.safePower_keeps
    | apply State.gateCommands_keeps | apply State.safaReset_keeps | apply State.coreReset_keeps
    | apply State.planReset_keeps | apply State.ringReset_keeps | apply State.strmReset_keeps
    | apply State.hostReset_keeps | apply State.dramReset_keeps | apply State.anlgReset_keeps
    | with_unfolding_all exact fun _ => rfl | (intro _; skip) | split | exact Keeps.upd (by assumption)

theorem State.raiseStanding_keeps (h : Keeps kb ke u0 s) : Keeps kb ke u0 (State.raiseStanding s) := by
  unfold State.raiseStanding
  with_reducible repeat' first
    | assumption | apply State.each_keeps | apply State.raise_keeps | apply State.each_keeps | (intro _; skip)

theorem State.powerUp_keeps (h : Keeps kb ke u0 s) (d : Nat) : Keeps kb ke u0 (State.powerUp s d) := by
  unfold State.powerUp
  with_reducible repeat' first
    | assumption | apply State.setCond_keeps | apply State.safeShow_keeps | apply State.setPower_keeps
    | apply State.domainReset_keeps | apply State.raiseStanding_keeps
    | (extract_lets +onlyGivenNames xq; refine (fun (hx : Keeps kb ke u0 xq) => ?_) ?_; rotate_left; dsimp -zeta only [xq]; rotate_left; clear_value xq)
    | (extract_lets +onlyGivenNames xq; (have hq : xq = xq := by (dsimp -zeta only [xq])); clear hq; clear_value xq)
    | refine Keeps.ite (fun _ => ?_) (fun _ => ?_) | split

theorem State.afterOff_keeps (h : Keeps kb ke u0 s) (d : Nat) : Keeps kb ke u0 (State.afterOff s d) := by
  unfold State.afterOff
  with_reducible repeat' first
    | assumption | apply State.each_keeps | apply State.beginStop_keeps | apply State.abandonTakes_keeps
    | apply State.discardTakes_keeps | apply State.haltReadout_keeps | apply State.losePeer_keeps
    | apply State.strmLink_keeps | apply State.toHoldover_keeps | apply State.bridgeOff_keeps
    | apply State.gatesLost_keeps | apply State.captLoss_keeps | apply State.mtrDown_keeps
    | apply State.chanFault_keeps | apply State.endSession_keeps | apply State.hostLinkCond_keeps
    | apply State.updEnd_keeps | apply State.each_keeps | (intro _; skip)
    | (extract_lets +onlyGivenNames xq; refine (fun (hx : Keeps kb ke u0 xq) => ?_) ?_; rotate_left; dsimp -zeta only [xq]; rotate_left; clear_value xq)
    | (extract_lets +onlyGivenNames xq; (have hq : xq = xq := by (dsimp -zeta only [xq])); clear hq; clear_value xq)
    | refine Keeps.ite (fun _ => ?_) (fun _ => ?_) | split | exact Keeps.upd (by assumption)

theorem State.powerOff_keeps (h : Keeps kb ke u0 s) (d : Nat) : Keeps kb ke u0 (State.powerOff s d) := by
  unfold State.powerOff
  with_reducible repeat' first
    | assumption | apply State.safeShow_keeps | apply State.setPower_keeps | apply State.afterOff_keeps
    | refine Keeps.ite (fun _ => ?_) (fun _ => ?_) | split

theorem State.powerOffAll_keeps (h : Keeps kb ke u0 s) (ds : List Nat) : Keeps kb ke u0 (State.powerOffAll s ds) := by
  unfold State.powerOffAll
  with_reducible repeat' first
    | assumption | apply State.each_keeps | apply State.powerOff_keeps | apply State.each_keeps | (intro _; skip)
    | (extract_lets +onlyGivenNames xq; refine (fun (hx : Keeps kb ke u0 xq) => ?_) ?_; rotate_left; dsimp -zeta only [xq]; rotate_left; clear_value xq)
    | (extract_lets +onlyGivenNames xq; (have hq : xq = xq := by (dsimp -zeta only [xq])); clear hq; clear_value xq)
    | exact Keeps.upd (by assumption)

theorem State.aonReset_keeps (h : Keeps kb ke u0 s) (cause : Nat) : Keeps kb ke u0 (State.aonReset s cause) := by
  unfold State.aonReset
  with_reducible repeat' first
    | assumption | apply State.resetBlock_keeps | apply State.fset_keeps | apply State.showSpare_keeps
    | (extract_lets +onlyGivenNames xq; refine (fun (hx : Keeps kb ke u0 xq) => ?_) ?_; rotate_left; dsimp -zeta only [xq]; rotate_left; clear_value xq)
    | (extract_lets +onlyGivenNames xq; (have hq : xq = xq := by (dsimp -zeta only [xq])); clear hq; clear_value xq)
    | refine Keeps.ite (fun _ => ?_) (fun _ => ?_) | split | apply Keeps.upd

theorem execPowerOn_keeps (s : State) : ResKeeps kb ke s (execPowerOn s) := by
  have h := State.fresh_keeps (Keeps.refl kb ke s)
  unfold execPowerOn
  with_reducible repeat' first
    | assumption | apply State.fresh_keeps | apply State.powerOffAll_keeps | apply State.aonReset_keeps
    | apply RunKeeps.ok | apply RunKeeps.error | apply ResKeeps.next
    | (extract_lets +onlyGivenNames xq; refine (fun (hx : Keeps kb ke s xq) => ?_) ?_; rotate_left; dsimp -zeta only [xq]; rotate_left; clear_value xq)
    | (extract_lets +onlyGivenNames xq; (have hq : xq = xq := by (dsimp -zeta only [xq])); clear hq; clear_value xq)
    | refine ResKeeps.ite (fun _ => ?_) (fun _ => ?_) | refine Keeps.ite (fun _ => ?_) (fun _ => ?_) | split

theorem execDomainPowerUp_keeps (s : State) : ResKeeps kb ke s (execDomainPowerUp s) := by
  have h := State.fresh_keeps (Keeps.refl kb ke s)
  unfold execDomainPowerUp
  with_reducible repeat' first
    | assumption | apply State.each_keeps | apply State.fresh_keeps | apply State.powerUp_keeps | apply RunKeeps.ok
    | apply RunKeeps.error | apply ResKeeps.next | apply State.each_keeps | (intro _; skip)
    | (extract_lets +onlyGivenNames xq; refine (fun (hx : Keeps kb ke s xq) => ?_) ?_; rotate_left; dsimp -zeta only [xq]; rotate_left; clear_value xq)
    | (extract_lets +onlyGivenNames xq; (have hq : xq = xq := by (dsimp -zeta only [xq])); clear hq; clear_value xq)
    | refine ResKeeps.ite (fun _ => ?_) (fun _ => ?_) | refine Keeps.ite (fun _ => ?_) (fun _ => ?_) | split
    | exact Keeps.upd (by assumption)

theorem execRingReady_keeps (ms : Nat) (s : State) : ResKeeps kb ke s (execRingReady ms s) := by
  have h := State.fresh_keeps (Keeps.refl kb ke s)
  unfold execRingReady
  with_reducible repeat' first
    | assumption | apply State.fset_keeps | apply State.fresh_keeps | apply RunKeeps.ok | apply RunKeeps.error
    | apply ResKeeps.next
    | (extract_lets +onlyGivenNames xq; refine (fun (hx : Keeps kb ke s xq) => ?_) ?_; rotate_left; dsimp -zeta only [xq]; rotate_left; clear_value xq)
    | (extract_lets +onlyGivenNames xq; (have hq : xq = xq := by (dsimp -zeta only [xq])); clear hq; clear_value xq)
    | refine ResKeeps.ite (fun _ => ?_) (fun _ => ?_) | refine Keeps.ite (fun _ => ?_) (fun _ => ?_) | split

theorem execAuxSupplyLoss_keeps (s : State) : ResKeeps kb ke s (execAuxSupplyLoss s) := by
  have h := State.fresh_keeps (Keeps.refl kb ke s)
  unfold execAuxSupplyLoss
  with_reducible repeat' first
    | assumption | apply State.fset_keeps | apply State.fresh_keeps | apply State.beginStop_keeps
    | apply State.logHigh_keeps | apply RunKeeps.ok | apply RunKeeps.error | apply ResKeeps.next
    | refine ResKeeps.ite (fun _ => ?_) (fun _ => ?_) | refine Keeps.ite (fun _ => ?_) (fun _ => ?_)
    | (extract_lets +onlyGivenNames xq; refine (fun (hx : Keeps kb ke s xq) => ?_) ?_; rotate_left; dsimp -zeta only [xq]; rotate_left; clear_value xq)
    | (extract_lets +onlyGivenNames xq; (have hq : xq = xq := by (dsimp -zeta only [xq])); clear hq; clear_value xq)
    | split | exact Keeps.upd (by assumption)

theorem State.closeLogs_keeps (h : Keeps kb ke u0 s) : Keeps kb ke u0 (State.closeLogs s) := by
  unfold State.closeLogs
  with_reducible repeat' first
    | assumption | apply State.setLogBuf_keeps | apply State.mtrClose_keeps | apply State.writeLog_keeps
    | apply Keeps.foldl | (intro _; skip)
    | (extract_lets +onlyGivenNames xq; refine (fun (hx : Keeps kb ke u0 xq) => ?_) ?_; rotate_left; dsimp -zeta only [xq]; rotate_left; clear_value xq)
    | (extract_lets +onlyGivenNames xq; (have hq : xq = xq := by (dsimp -zeta only [xq])); clear hq; clear_value xq)
    | refine Keeps.ite (fun _ => ?_) (fun _ => ?_) | split

theorem execHoldupEnd_keeps (s : State) : ResKeeps kb ke s (execHoldupEnd s) := by
  have h := State.fresh_keeps (Keeps.refl kb ke s)
  unfold execHoldupEnd
  with_reducible repeat' first
    | assumption | apply State.fresh_keeps | apply State.powerOff_keeps | apply State.powerOffAll_keeps
    | apply State.closeLogs_keeps | apply RunKeeps.ok | apply RunKeeps.error | apply ResKeeps.next
    | (extract_lets +onlyGivenNames xq; refine (fun (hx : Keeps kb ke s xq) => ?_) ?_; rotate_left; dsimp -zeta only [xq]; rotate_left; clear_value xq)
    | (extract_lets +onlyGivenNames xq; (have hq : xq = xq := by (dsimp -zeta only [xq])); clear hq; clear_value xq)
    | refine ResKeeps.ite (fun _ => ?_) (fun _ => ?_) | refine Keeps.ite (fun _ => ?_) (fun _ => ?_) | split
    | exact Keeps.upd (by assumption)

theorem execAuxSupplyReturn_keeps (s : State) : ResKeeps kb ke s (execAuxSupplyReturn s) := by
  have h := State.fresh_keeps (Keeps.refl kb ke s)
  unfold execAuxSupplyReturn
  with_reducible repeat' first
    | assumption | apply State.advanceTo_keeps | apply State.fset_keeps | apply State.fresh_keeps
    | apply State.powerOffAll_keeps | apply State.aonReset_keeps | apply State.closeLogs_keeps | apply RunKeeps.ok
    | apply RunKeeps.error | apply ResKeeps.next
    | (extract_lets +onlyGivenNames xq; refine (fun (hx : Keeps kb ke s xq) => ?_) ?_; rotate_left; dsimp -zeta only [xq]; rotate_left; clear_value xq)
    | (extract_lets +onlyGivenNames xq; (have hq : xq = xq := by (dsimp -zeta only [xq])); clear hq; clear_value xq)
    | refine ResKeeps.ite (fun _ => ?_) (fun _ => ?_) | refine Keeps.ite (fun _ => ?_) (fun _ => ?_) | split
    | exact Keeps.upd (by assumption)

theorem execBrownOut_keeps (volts : Nat) (s : State) : ResKeeps kb ke s (execBrownOut volts s) := by
  have h := State.fresh_keeps (Keeps.refl kb ke s)
  unfold execBrownOut
  with_reducible repeat' first
    | assumption | apply State.fset_keeps | apply State.fresh_keeps | apply RunKeeps.ok | apply RunKeeps.error
    | apply ResKeeps.next
    | (extract_lets +onlyGivenNames xq; refine (fun (hx : Keeps kb ke s xq) => ?_) ?_; rotate_left; dsimp -zeta only [xq]; rotate_left; clear_value xq)
    | (extract_lets +onlyGivenNames xq; (have hq : xq = xq := by (dsimp -zeta only [xq])); clear hq; clear_value xq)
    | refine ResKeeps.ite (fun _ => ?_) (fun _ => ?_) | refine Keeps.ite (fun _ => ?_) (fun _ => ?_) | split

theorem execStoreMeasure_keeps (milliJoule : Nat) (s : State) : ResKeeps kb ke s (execStoreMeasure milliJoule s) := by
  have h := State.fresh_keeps (Keeps.refl kb ke s)
  unfold execStoreMeasure
  with_reducible repeat' first
    | assumption | apply State.fset_keeps | apply State.fresh_keeps | apply RunKeeps.ok | apply RunKeeps.error
    | apply ResKeeps.next
    | (extract_lets +onlyGivenNames xq; refine (fun (hx : Keeps kb ke s xq) => ?_) ?_; rotate_left; dsimp -zeta only [xq]; rotate_left; clear_value xq)
    | (extract_lets +onlyGivenNames xq; (have hq : xq = xq := by (dsimp -zeta only [xq])); clear hq; clear_value xq)
    | refine ResKeeps.ite (fun _ => ?_) (fun _ => ?_) | refine Keeps.ite (fun _ => ?_) (fun _ => ?_) | split

theorem execDomainLoss_keeps (d : DomainId) (s : State) : ResKeeps kb ke s (execDomainLoss d s) := by
  have h := State.fresh_keeps (Keeps.refl kb ke s)
  unfold execDomainLoss
  with_reducible repeat' first
    | assumption | apply State.fsetBit_keeps | apply State.fresh_keeps | apply State.setCond_keeps
    | apply State.safeShow_keeps | apply State.chanFault_keeps | apply State.powerOff_keeps
    | apply State.powerOffAll_keeps | apply RunKeeps.ok | apply RunKeeps.error | apply ResKeeps.next
    | (intro _; skip)
    | (extract_lets +onlyGivenNames xq; refine (fun (hx : Keeps kb ke s xq) => ?_) ?_; rotate_left; dsimp -zeta only [xq]; rotate_left; clear_value xq)
    | (extract_lets +onlyGivenNames xq; (have hq : xq = xq := by (dsimp -zeta only [xq])); clear hq; clear_value xq)
    | refine ResKeeps.ite (fun _ => ?_) (fun _ => ?_) | refine Keeps.ite (fun _ => ?_) (fun _ => ?_) | split

theorem execRtimeIslandStop_keeps (s : State) : ResKeeps kb ke s (execRtimeIslandStop s) := by
  have h := State.fresh_keeps (Keeps.refl kb ke s)
  unfold execRtimeIslandStop
  with_reducible repeat' first
    | assumption | apply State.fresh_keeps | apply State.stopRtime_keeps | apply RunKeeps.ok | apply RunKeeps.error
    | apply ResKeeps.next
    | (extract_lets +onlyGivenNames xq; refine (fun (hx : Keeps kb ke s xq) => ?_) ?_; rotate_left; dsimp -zeta only [xq]; rotate_left; clear_value xq)
    | (extract_lets +onlyGivenNames xq; (have hq : xq = xq := by (dsimp -zeta only [xq])); clear hq; clear_value xq)
    | refine ResKeeps.ite (fun _ => ?_) (fun _ => ?_) | refine Keeps.ite (fun _ => ?_) (fun _ => ?_) | split

theorem State.cellStop_keeps (h : Keeps kb ke u0 s) (t : BitVec 48) (x : RingId) (k : CellId) : Keeps kb ke u0 (State.cellStop s t x k) := by
  unfold State.cellStop
  with_reducible repeat' first
    | assumption | apply State.modCell_keeps | apply State.cellBlock_keeps | (intro _; skip)
    | refine Keeps.ite (fun _ => ?_) (fun _ => ?_) | split | exact Keeps.upd (by assumption)

theorem execStopInstant_keeps (s : State) : ResKeeps kb ke s (execStopInstant s) := by
  have h := State.fresh_keeps (Keeps.refl kb ke s)
  unfold execStopInstant
  with_reducible repeat' first
    | assumption | apply State.advanceTo_keeps | apply State.each_keeps | apply State.fresh_keeps
    | apply State.bridgeOff_keeps | apply State.cellStop_keeps | apply RunKeeps.ok | apply RunKeeps.error
    | apply ResKeeps.next | apply State.each_keeps | (intro _; skip)
    | (extract_lets +onlyGivenNames xq; refine (fun (hx : Keeps kb ke s xq) => ?_) ?_; rotate_left; dsimp -zeta only [xq]; rotate_left; clear_value xq)
    | (extract_lets +onlyGivenNames xq; (have hq : xq = xq := by (dsimp -zeta only [xq])); clear hq; clear_value xq)
    | split | exact Keeps.upd (by assumption)

theorem execPowerStateUpdate_keeps (s : State) : ResKeeps kb ke s (execPowerStateUpdate s) := by
  have h := State.fresh_keeps (Keeps.refl kb ke s)
  unfold execPowerStateUpdate
  with_reducible repeat' first
    | assumption | apply State.fset_keeps | apply State.fresh_keeps | apply State.planStopped_keeps
    | apply RunKeeps.ok | apply RunKeeps.error | apply ResKeeps.next
    | (extract_lets +onlyGivenNames xq; refine (fun (hx : Keeps kb ke s xq) => ?_) ?_; rotate_left; dsimp -zeta only [xq]; rotate_left; clear_value xq)
    | (extract_lets +onlyGivenNames xq; (have hq : xq = xq := by (dsimp -zeta only [xq])); clear hq; clear_value xq)
    | refine ResKeeps.ite (fun _ => ?_) (fun _ => ?_) | refine Keeps.ite (fun _ => ?_) (fun _ => ?_) | split
    | exact Keeps.upd (by assumption)

theorem State.setPwr_keeps (h : Keeps kb ke u0 s) (v : Nat) : Keeps kb ke u0 (State.setPwr s v) := by
  unfold State.setPwr
  with_reducible repeat' first
    | assumption | apply State.fset_keeps | refine Keeps.ite (fun _ => ?_) (fun _ => ?_) | split

theorem State.moveAxis_keeps (h : Keeps kb ke u0 s) (code : Nat) : Keeps kb ke u0 (State.moveAxis s code) := by
  unfold State.moveAxis
  with_reducible repeat' first
    | assumption | apply State.beginStop_keeps | apply State.planStopped_keeps | apply State.armRings_keeps
    | apply State.bridgeStart_keeps | apply State.setPwr_keeps | split | exact Keeps.upd (by assumption)

theorem State.arbDecide_keeps (h : Keeps kb ke u0 s) (r : ArbReq) : Keeps kb ke u0 (State.arbDecide s r).1 := by
  unfold State.arbDecide
  with_reducible repeat' first
    | assumption | apply State.emit_keeps | apply State.refuse_keeps | apply State.moveAxis_keeps
    | refine Keeps.ofFst (by assumption) ?_ | refine Keeps.ofSnd (by assumption) ?_ | dsimp only | split
    | exact Keeps.upd (by assumption)

theorem State.joinArb_keeps (h : Keeps kb ke u0 s) (req : Requester) (code : BitVec 4) : Keeps kb ke u0 (State.joinArb s req code) := by
  unfold State.joinArb
  with_reducible repeat' first
    | assumption | refine Keeps.ite (fun _ => ?_) (fun _ => ?_) | split | exact Keeps.upd (by assumption)

theorem State.arbStep_keeps (h : Keeps kb ke u0 s) : Keeps kb ke u0 (State.arbStep s).1 := by
  unfold State.arbStep
  with_reducible repeat' first
    | assumption | apply State.arbDecide_keeps | refine Keeps.ofFst (by assumption) ?_
    | refine Keeps.ofSnd (by assumption) ?_ | dsimp only
    | (extract_lets +onlyGivenNames xq; refine (fun (hx : Keeps kb ke u0 xq) => ?_) ?_; rotate_left; dsimp -zeta only [xq]; rotate_left; clear_value xq)
    | (extract_lets +onlyGivenNames xq; (have hq : xq = xq := by (dsimp -zeta only [xq])); clear hq; clear_value xq)
    | refine Keeps.iteFst (fun _ => ?_) (fun _ => ?_) | refine Keeps.ite (fun _ => ?_) (fun _ => ?_) | split
    | exact Keeps.upd (by assumption)

theorem execArbiterDecision_keeps (s : State) : ResKeeps kb ke s (execArbiterDecision s) := by
  have h := State.fresh_keeps (Keeps.refl kb ke s)
  unfold execArbiterDecision
  with_reducible repeat' first
    | assumption | apply State.fresh_keeps | apply State.arbStep_keeps | apply RunKeeps.ok | apply RunKeeps.error
    | apply ResKeeps.next | refine Keeps.ofFst (by assumption) ?_ | refine Keeps.ofSnd (by assumption) ?_
    | dsimp only
    | (extract_lets +onlyGivenNames xq; refine (fun (hx : Keeps kb ke s xq) => ?_) ?_; rotate_left; dsimp -zeta only [xq]; rotate_left; clear_value xq)
    | (extract_lets +onlyGivenNames xq; (have hq : xq = xq := by (dsimp -zeta only [xq])); clear hq; clear_value xq)
    | refine ResKeeps.ite (fun _ => ?_) (fun _ => ?_) | refine Keeps.ite (fun _ => ?_) (fun _ => ?_) | split

theorem State.modeReq_keeps (h : Keeps kb ke u0 s) (req : Requester) (code : BitVec 4) : Keeps kb ke u0 (State.modeReq s req code) := by
  unfold State.modeReq
  with_reducible repeat' first
    | assumption | apply State.emit_keeps | apply State.joinArb_keeps | refine Keeps.ite (fun _ => ?_) (fun _ => ?_)
    | split

theorem execReqPrecharge_keeps (req : Requester) (s : State) : ResKeeps kb ke s (execReqPrecharge req s) := by
  have h := State.fresh_keeps (Keeps.refl kb ke s)
  unfold execReqPrecharge
  with_reducible repeat' first
    | assumption | apply State.fresh_keeps | apply State.modeReq_keeps | apply RunKeeps.ok | apply RunKeeps.error
    | apply ResKeeps.next

theorem execReqRun_keeps (req : Requester) (s : State) : ResKeeps kb ke s (execReqRun req s) := by
  have h := State.fresh_keeps (Keeps.refl kb ke s)
  unfold execReqRun
  with_reducible repeat' first
    | assumption | apply State.fresh_keeps | apply State.modeReq_keeps | apply RunKeeps.ok | apply RunKeeps.error
    | apply ResKeeps.next

theorem execReqStop_keeps (req : Requester) (s : State) : ResKeeps kb ke s (execReqStop req s) := by
  have h := State.fresh_keeps (Keeps.refl kb ke s)
  unfold execReqStop
  with_reducible repeat' first
    | assumption | apply State.fresh_keeps | apply State.modeReq_keeps | apply RunKeeps.ok | apply RunKeeps.error
    | apply ResKeeps.next

theorem execReqSafeStop_keeps (req : Requester) (s : State) : ResKeeps kb ke s (execReqSafeStop req s) := by
  have h := State.fresh_keeps (Keeps.refl kb ke s)
  unfold execReqSafeStop
  with_reducible repeat' first
    | assumption | apply State.fresh_keeps | apply State.modeReq_keeps | apply RunKeeps.ok | apply RunKeeps.error
    | apply ResKeeps.next

theorem execReqClear_keeps (req : Requester) (s : State) : ResKeeps kb ke s (execReqClear req s) := by
  have h := State.fresh_keeps (Keeps.refl kb ke s)
  unfold execReqClear
  with_reducible repeat' first
    | assumption | apply State.fresh_keeps | apply State.modeReq_keeps | apply RunKeeps.ok | apply RunKeeps.error
    | apply ResKeeps.next

theorem execReqRide_keeps (req : Requester) (s : State) : ResKeeps kb ke s (execReqRide req s) := by
  have h := State.fresh_keeps (Keeps.refl kb ke s)
  unfold execReqRide
  with_reducible repeat' first
    | assumption | apply State.fresh_keeps | apply State.modeReq_keeps | apply RunKeeps.ok | apply RunKeeps.error
    | apply ResKeeps.next

theorem execReqResume_keeps (req : Requester) (s : State) : ResKeeps kb ke s (execReqResume req s) := by
  have h := State.fresh_keeps (Keeps.refl kb ke s)
  unfold execReqResume
  with_reducible repeat' first
    | assumption | apply State.fresh_keeps | apply State.modeReq_keeps | apply RunKeeps.ok | apply RunKeeps.error
    | apply ResKeeps.next

theorem execReqUndefined_keeps (req : Requester) (low : BitVec 3) (s : State) : ResKeeps kb ke s (execReqUndefined req low s) := by
  have h := State.fresh_keeps (Keeps.refl kb ke s)
  unfold execReqUndefined
  with_reducible repeat' first
    | assumption | apply State.fresh_keeps | apply State.modeReq_keeps | apply RunKeeps.ok | apply RunKeeps.error
    | apply ResKeeps.next

theorem execShutdownPowerOff_keeps (s : State) : ResKeeps kb ke s (execShutdownPowerOff s) := by
  have h := State.fresh_keeps (Keeps.refl kb ke s)
  unfold execShutdownPowerOff
  with_reducible repeat' first
    | assumption | apply State.advanceTo_keeps | apply State.fset_keeps | apply State.fresh_keeps
    | apply State.powerOffAll_keeps | apply RunKeeps.ok | apply RunKeeps.error | apply ResKeeps.next
    | (extract_lets +onlyGivenNames xq; refine (fun (hx : Keeps kb ke s xq) => ?_) ?_; rotate_left; dsimp -zeta only [xq]; rotate_left; clear_value xq)
    | (extract_lets +onlyGivenNames xq; (have hq : xq = xq := by (dsimp -zeta only [xq])); clear hq; clear_value xq)
    | refine ResKeeps.ite (fun _ => ?_) (fun _ => ?_) | refine Keeps.ite (fun _ => ?_) (fun _ => ?_) | split

theorem execShutdownRelease_keeps (aonLost : Bool) (s : State) : ResKeeps kb ke s (execShutdownRelease aonLost s) := by
  have h := State.fresh_keeps (Keeps.refl kb ke s)
  unfold execShutdownRelease
  with_reducible repeat' first
    | assumption | apply State.setWord_keeps | apply State.fset_keeps | apply State.fresh_keeps
    | apply State.setTherm_keeps | apply State.powerOffAll_keeps | apply State.aonReset_keeps | apply RunKeeps.ok
    | apply RunKeeps.error | apply ResKeeps.next
    | (extract_lets +onlyGivenNames xq; refine (fun (hx : Keeps kb ke s xq) => ?_) ?_; rotate_left; dsimp -zeta only [xq]; rotate_left; clear_value xq)
    | (extract_lets +onlyGivenNames xq; (have hq : xq = xq := by (dsimp -zeta only [xq])); clear hq; clear_value xq)
    | refine ResKeeps.ite (fun _ => ?_) (fun _ => ?_) | refine Keeps.ite (fun _ => ?_) (fun _ => ?_) | split
    | exact Keeps.upd (by assumption)

theorem execSafe24Change_keeps (milliVolt : Nat) (s : State) : ResKeeps kb ke s (execSafe24Change milliVolt s) := by
  have h := State.fresh_keeps (Keeps.refl kb ke s)
  unfold execSafe24Change
  extract_lets t q s1
  have h1 : Keeps kb ke s s1 := h.trans ⟨rfl, Nat.le_refl _, id, id, fun _ => ⟨rfl, rfl, rfl⟩, fun _ => rfl⟩
  clear_value s1
  exact ResKeeps.ite (fun _ => ResKeeps.next (Keeps.ite (fun _ => State.fset_keeps h1 _ _)
    (fun _ => State.fset_keeps (State.fset_keeps h1 _ _) _ _))) (fun _ => ResKeeps.next h1)

theorem State.modStrm_keeps (h : Keeps kb ke u0 s) (f : Strm → Strm) : Keeps kb ke u0 (State.modStrm s f) := by
  unfold State.modStrm
  with_reducible repeat' first
    | assumption | exact Keeps.upd (by assumption)

theorem State.nextPacket_keeps (h : Keeps kb ke u0 s) (src : Nat) (lenc : Nat) : Keeps kb ke u0 (State.nextPacket s src lenc).2 := by
  unfold State.nextPacket
  with_reducible repeat' first
    | assumption | apply State.modStrm_keeps | refine Keeps.ofFst (by assumption) ?_
    | refine Keeps.ofSnd (by assumption) ?_ | dsimp only | (intro _; skip) | exact Keeps.upd (by assumption)

theorem execStreamLivePacket_keeps (src : StreamSrc) (s : State) : ResKeeps kb ke s (execStreamLivePacket src s) := by
  have h := State.fresh_keeps (Keeps.refl kb ke s)
  unfold execStreamLivePacket
  with_reducible repeat' first
    | assumption | apply State.fset_keeps | apply State.finc_keeps | apply State.fresh_keeps
    | apply State.raise_keeps | apply State.modStrm_keeps | apply State.nextPacket_keeps | apply RunKeeps.ok
    | apply RunKeeps.error | apply ResKeeps.next | refine Keeps.ofFst (by assumption) ?_
    | refine Keeps.ofSnd (by assumption) ?_ | dsimp only | (intro _; skip)
    | (extract_lets +onlyGivenNames xq; refine (fun (hx : Keeps kb ke s xq) => ?_) ?_; rotate_left; dsimp -zeta only [xq]; rotate_left; clear_value xq)
    | (extract_lets +onlyGivenNames xq; (have hq : xq = xq := by (dsimp -zeta only [xq])); clear hq; clear_value xq)
    | refine ResKeeps.ite (fun _ => ?_) (fun _ => ?_) | refine Keeps.ite (fun _ => ?_) (fun _ => ?_) | split
    | exact Keeps.upd (by assumption)

theorem State.showCredits_keeps (h : Keeps kb ke u0 s) : Keeps kb ke u0 (State.showCredits s) := by
  unfold State.showCredits
  with_reducible repeat' first
    | assumption | apply State.fset_keeps | refine Keeps.ite (fun _ => ?_) (fun _ => ?_) | split

theorem State.creditIn_keeps (h : Keeps kb ke u0 s) (cum : Word) : Keeps kb ke u0 (State.creditIn s cum) := by
  unfold State.creditIn
  with_reducible repeat' first
    | assumption | apply State.fset_keeps | apply State.raise_keeps | apply State.modStrm_keeps
    | apply State.showCredits_keeps | (intro _; skip) | refine Keeps.ite (fun _ => ?_) (fun _ => ?_) | split
    | exact Keeps.upd (by assumption)

theorem execCredit_keeps (blocks : List LineBlock) (s : State) (others : List LineBlock × List LineBlock := ([], [])) : ResKeeps kb ke s (execCredit blocks s others) := by
  have h := State.fresh_keeps (Keeps.refl kb ke s)
  unfold execCredit
  with_reducible repeat' first
    | assumption | apply State.fresh_keeps | apply State.laneIn_keeps | apply State.creditIn_keeps
    | apply RunKeeps.ok | apply RunKeeps.error | apply ResKeeps.next | refine Keeps.ofFst (by assumption) ?_
    | refine Keeps.ofSnd (by assumption) ?_ | dsimp only | apply Keeps.foldlFst | apply Keeps.foldl
    | (intro _; skip)
    | (extract_lets +onlyGivenNames xq; refine (fun (hx : Keeps kb ke s xq) => ?_) ?_; rotate_left; dsimp -zeta only [xq]; rotate_left; clear_value xq)
    | (extract_lets +onlyGivenNames xq; (have hq : xq = xq := by (dsimp -zeta only [xq])); clear hq; clear_value xq)
    | refine ResKeeps.ite (fun _ => ?_) (fun _ => ?_) | refine Keeps.ite (fun _ => ?_) (fun _ => ?_) | split

theorem State.sendPacket_keeps (h : Keeps kb ke u0 s) (p : Packet) : Keeps kb ke u0 (State.sendPacket s p) := by
  unfold State.sendPacket
  with_reducible repeat' first
    | assumption | apply State.emit_keeps | apply State.modStrm_keeps | apply State.showCredits_keeps
    | (intro _; skip) | exact Keeps.upd (by assumption)

theorem State.readoutPacket_keeps (h : Keeps kb ke u0 s) : Keeps kb ke u0 (State.readoutPacket s) := by
  unfold State.readoutPacket
  with_reducible repeat' first
    | assumption | apply State.checkReads_keeps | apply State.haltReadout_keeps | apply State.modStrm_keeps
    | apply State.nextPacket_keeps | apply State.sendPacket_keeps | refine Keeps.ofFst (by assumption) ?_
    | refine Keeps.ofSnd (by assumption) ?_ | dsimp only | (intro _; skip)
    | (extract_lets +onlyGivenNames xq; refine (fun (hx : Keeps kb ke u0 xq) => ?_) ?_; rotate_left; dsimp -zeta only [xq]; rotate_left; clear_value xq)
    | (extract_lets +onlyGivenNames xq; (have hq : xq = xq := by (dsimp -zeta only [xq])); clear hq; clear_value xq)
    | refine Keeps.ite (fun _ => ?_) (fun _ => ?_) | split | exact Keeps.upd (by assumption)

theorem execStreamPacketSend_keeps (s : State) : ResKeeps kb ke s (execStreamPacketSend s) := by
  have h := State.fresh_keeps (Keeps.refl kb ke s)
  unfold execStreamPacketSend
  with_reducible repeat' first
    | assumption | apply State.fresh_keeps | apply State.modStrm_keeps | apply State.sendPacket_keeps
    | apply State.readoutPacket_keeps | apply RunKeeps.ok | apply RunKeeps.error | apply ResKeeps.next
    | (intro _; skip)
    | (extract_lets +onlyGivenNames xq; refine (fun (hx : Keeps kb ke s xq) => ?_) ?_; rotate_left; dsimp -zeta only [xq]; rotate_left; clear_value xq)
    | (extract_lets +onlyGivenNames xq; (have hq : xq = xq := by (dsimp -zeta only [xq])); clear hq; clear_value xq)
    | refine ResKeeps.ite (fun _ => ?_) (fun _ => ?_) | refine Keeps.ite (fun _ => ?_) (fun _ => ?_) | split
    | exact Keeps.upd (by assumption)

theorem State.readoutGo_keeps (h : Keeps kb ke u0 s) (u : CaptId) : Keeps kb ke u0 (State.readoutGo s u) := by
  unfold State.readoutGo
  with_reducible repeat' first
    | assumption | apply State.fset_keeps | apply State.modStrm_keeps | (intro _; skip)
    | (extract_lets +onlyGivenNames xq; refine (fun (hx : Keeps kb ke u0 xq) => ?_) ?_; rotate_left; dsimp -zeta only [xq]; rotate_left; clear_value xq)
    | (extract_lets +onlyGivenNames xq; (have hq : xq = xq := by (dsimp -zeta only [xq])); clear hq; clear_value xq)
    | refine Keeps.ite (fun _ => ?_) (fun _ => ?_) | split | exact Keeps.upd (by assumption)

theorem execRushesReadoutGo_keeps (req : Requester) (unit : CaptId) (s : State) : ResKeeps kb ke s (execRushesReadoutGo req unit s) := by
  have h := State.fresh_keeps (Keeps.refl kb ke s)
  unfold execRushesReadoutGo
  with_reducible repeat' first
    | assumption | apply State.fset_keeps | apply State.fresh_keeps | apply State.emit_keeps
    | apply State.readoutGo_keeps | apply RunKeeps.ok | apply RunKeeps.error | apply ResKeeps.next
    | (extract_lets +onlyGivenNames xq; refine (fun (hx : Keeps kb ke s xq) => ?_) ?_; rotate_left; dsimp -zeta only [xq]; rotate_left; clear_value xq)
    | (extract_lets +onlyGivenNames xq; (have hq : xq = xq := by (dsimp -zeta only [xq])); clear hq; clear_value xq)
    | refine ResKeeps.ite (fun _ => ?_) (fun _ => ?_) | refine Keeps.ite (fun _ => ?_) (fun _ => ?_) | split

theorem execRushesReadoutAbort_keeps (req : Requester) (s : State) : ResKeeps kb ke s (execRushesReadoutAbort req s) := by
  have h := State.fresh_keeps (Keeps.refl kb ke s)
  unfold execRushesReadoutAbort
  with_reducible repeat' first
    | assumption | apply State.fresh_keeps | apply State.emit_keeps | apply State.haltReadout_keeps
    | apply RunKeeps.ok | apply RunKeeps.error | apply ResKeeps.next
    | (extract_lets +onlyGivenNames xq; refine (fun (hx : Keeps kb ke s xq) => ?_) ?_; rotate_left; dsimp -zeta only [xq]; rotate_left; clear_value xq)
    | (extract_lets +onlyGivenNames xq; (have hq : xq = xq := by (dsimp -zeta only [xq])); clear hq; clear_value xq)
    | refine ResKeeps.ite (fun _ => ?_) (fun _ => ?_) | refine Keeps.ite (fun _ => ?_) (fun _ => ?_) | split

theorem execReadoutDone_keeps (s : State) : ResKeeps kb ke s (execReadoutDone s) := by
  have h := State.fresh_keeps (Keeps.refl kb ke s)
  unfold execReadoutDone
  with_reducible repeat' first
    | assumption | apply State.fset_keeps | apply State.fresh_keeps | apply RunKeeps.ok | apply RunKeeps.error
    | apply ResKeeps.next
    | (extract_lets +onlyGivenNames xq; refine (fun (hx : Keeps kb ke s xq) => ?_) ?_; rotate_left; dsimp -zeta only [xq]; rotate_left; clear_value xq)
    | (extract_lets +onlyGivenNames xq; (have hq : xq = xq := by (dsimp -zeta only [xq])); clear hq; clear_value xq)
    | refine ResKeeps.ite (fun _ => ?_) (fun _ => ?_) | refine Keeps.ite (fun _ => ?_) (fun _ => ?_) | split

theorem State.sctrlWritten_keeps {u0 s' : State} (h : Keeps kb ke u0 s') (s : State) : Keeps kb ke u0 (s.sctrlWritten s') :=
  State.each_keeps _ _ (fun _ _ ht => Keeps.ite (fun _ => State.modStrm_keeps ht _) (fun _ => ht)) h

theorem State.loadAdvance_keeps (h : Keeps kb ke u0 s) (n : CoreId) : Keeps kb ke u0 (State.loadAdvance s n) := by
  unfold State.loadAdvance
  with_reducible repeat' first
    | assumption | apply State.fset_keeps

theorem State.loadRead_keeps (h : Keeps kb ke u0 s) (n : CoreId) : Keeps kb ke u0 (State.loadRead s n).2 := by
  unfold State.loadRead
  with_reducible repeat' first
    | assumption | apply State.fset_keeps | apply State.finc_keeps | apply State.modCore_keeps
    | apply State.loadAdvance_keeps | refine Keeps.ofFst (by assumption) ?_ | refine Keeps.ofSnd (by assumption) ?_
    | dsimp only | (intro _; skip)
    | (extract_lets +onlyGivenNames xq; refine (fun (hx : Keeps kb ke u0 xq) => ?_) ?_; rotate_left; dsimp -zeta only [xq]; rotate_left; clear_value xq)
    | (extract_lets +onlyGivenNames xq; (have hq : xq = xq := by (dsimp -zeta only [xq])); clear hq; clear_value xq)
    | refine Keeps.iteFst (fun _ => ?_) (fun _ => ?_) | refine Keeps.ite (fun _ => ?_) (fun _ => ?_) | split
    | exact Keeps.upd (by assumption)

theorem State.loadWrite_keeps (h : Keeps kb ke u0 s) (n : CoreId) (v : Word) : Keeps kb ke u0 (State.loadWrite s n v).1 := by
  unfold State.loadWrite
  with_reducible repeat' first
    | assumption | apply State.modCore_keeps | apply State.loadAdvance_keeps | refine Keeps.ofFst (by assumption) ?_
    | refine Keeps.ofSnd (by assumption) ?_ | dsimp only | (intro _; skip) | split | exact Keeps.upd (by assumption)

theorem State.readEffect_keeps (h : Keeps kb ke u0 s) (a : Nat) : ∀ p, s.readEffect a = some p → Keeps kb ke u0 p.2 := by
  intro p hp
  unfold State.readEffect at hp
  with_reducible repeat' first
    | (cases hp; done)
    | (cases hp; first
      | exact State.fset_keeps h _ _ | exact State.popEvtq_keeps h | exact State.latchPstart_keeps h | exact State.latchZx_keeps h
      | exact State.loadRead_keeps h _ | exact State.readHist_keeps h _ | exact State.latchEnergy_keeps h _) | split at hp

theorem State.readClear_keeps (h : Keeps kb ke u0 s) (a : Nat) (r : RegRow) : Keeps kb ke u0 (State.readClear s a r).2 := by
  unfold State.readClear
  with_reducible repeat' first
    | assumption | apply State.setWord_keeps | refine Keeps.ofFst (by assumption) ?_
    | refine Keeps.ofSnd (by assumption) ?_ | dsimp only
    | (extract_lets +onlyGivenNames xq; refine (fun (hx : Keeps kb ke u0 xq) => ?_) ?_; rotate_left; dsimp -zeta only [xq]; rotate_left; clear_value xq)
    | (extract_lets +onlyGivenNames xq; (have hq : xq = xq := by (dsimp -zeta only [xq])); clear hq; clear_value xq)
    | refine Keeps.iteFst (fun _ => ?_) (fun _ => ?_) | refine Keeps.ite (fun _ => ?_) (fun _ => ?_) | split

theorem State.blockDue_keeps (h : Keeps kb ke u0 s) (a : Nat) : Keeps kb ke u0 (State.blockDue s a) := by
  unfold State.blockDue
  with_reducible repeat' first
    | assumption | apply State.ringCycle_keeps | refine Keeps.ite (fun _ => ?_) (fun _ => ?_) | apply State.showCsel_keeps | apply State.mtrDue_keeps | split
    | exact Keeps.upd (by assumption)

theorem State.readReg_keeps (h : Keeps kb ke u0 s) (who : Requester) (a : Nat) : Keeps kb ke u0 (s.readReg who a).2 := by
  unfold State.readReg
  split
  · exact h
  · extract_lets x
    have hx : Keeps kb ke u0 x := State.blockDue_keeps h a
    clear_value x
    split
    · split
      · exact State.readEffect_keeps hx a _ (by assumption)
      · exact hx
      · exact State.readClear_keeps hx _ _
    · exact hx

theorem State.storeFields_keeps (h : Keeps kb ke u0 s) (now : Bool) (a : Nat) (r : RegRow) (v : Word) : Keeps kb ke u0 (State.storeFields s now a r v) := by
  unfold State.storeFields
  with_reducible repeat' first
    | assumption | apply State.setWord_keeps | apply State.pendLive_keeps | (intro _; skip)
    | (extract_lets +onlyGivenNames xq; refine (fun (hx : Keeps kb ke u0 xq) => ?_) ?_; rotate_left; dsimp -zeta only [xq]; rotate_left; clear_value xq)
    | (extract_lets +onlyGivenNames xq; (have hq : xq = xq := by (dsimp -zeta only [xq])); clear hq; clear_value xq)
    | refine Keeps.ite (fun _ => ?_) (fun _ => ?_) | split | exact Keeps.upd (by assumption)

theorem State.enableCores_keeps (h : Keeps kb ke u0 s) (old : Word) (new : Word) : Keeps kb ke u0 (State.enableCores s old new) := by
  unfold State.enableCores
  with_reducible repeat' first
    | assumption | apply State.each_keeps | apply State.fset_keeps | apply State.modCore_keeps
    | apply State.setCoreState_keeps | apply State.haltCore_keeps | apply State.each_keeps | (intro _; skip)
    | refine Keeps.ite (fun _ => ?_) (fun _ => ?_) | split | exact Keeps.upd (by assumption)

theorem State.clkWritten_keeps (h : Keeps kb ke u0 s) (old : Word) : Keeps kb ke u0 (State.clkWritten s old) := by
  unfold State.clkWritten
  with_reducible repeat' first
    | assumption | apply State.switchReference_keeps | apply State.refreshExtLock_keeps
    | refine Keeps.ite (fun _ => ?_) (fun _ => ?_) | split

theorem State.lctrlWritten_keeps (h : Keeps kb ke u0 s) (p : LaneId) (old : Word) (v : Word) : Keeps kb ke u0 (State.lctrlWritten s p old v) := by
  unfold State.lctrlWritten
  with_reducible repeat' first
    | assumption | apply State.enablePort_keeps | apply State.disablePort_keeps | apply State.retrainPort_keeps
    | refine Keeps.ite (fun _ => ?_) (fun _ => ?_)
    | (extract_lets +onlyGivenNames xq; refine (fun (hx : Keeps kb ke u0 xq) => ?_) ?_; rotate_left; dsimp -zeta only [xq]; rotate_left; clear_value xq)
    | (extract_lets +onlyGivenNames xq; (have hq : xq = xq := by (dsimp -zeta only [xq])); clear hq; clear_value xq)
    | split

theorem State.mgmtWrite_keeps (h : Keeps kb ke u0 s) (p : LaneId) (now : Bool) (r : RegRow) (v : Word) : Keeps kb ke u0 (State.mgmtWrite s p now r v) := by
  unfold State.mgmtWrite
  with_reducible repeat' first
    | assumption | apply State.fset_keeps | apply State.mgmtGo_keeps | apply State.storeFields_keeps
    | (extract_lets +onlyGivenNames xq; refine (fun (hx : Keeps kb ke u0 xq) => ?_) ?_; rotate_left; dsimp -zeta only [xq]; rotate_left; clear_value xq)
    | (extract_lets +onlyGivenNames xq; (have hq : xq = xq := by (dsimp -zeta only [xq])); clear hq; clear_value xq)
    | refine Keeps.ite (fun _ => ?_) (fun _ => ?_) | split

theorem State.writeEffect_keeps (h : Keeps kb ke u0 s) (req : Requester) (now : Bool) (a : Nat) (r : RegRow) (v : Word) :
    OptKeeps kb ke u0 (s.writeEffect req now a r v) := by
  unfold State.writeEffect
  extract_lets st old done
  have hst : Keeps kb ke u0 st := State.storeFields_keeps h now a r v
  have h_done : ∀ t, Keeps kb ke u0 t → OptKeeps kb ke u0 (done t) := fun t ht => OptKeeps.some ht
  clear_value st done old
  with_reducible repeat' first
    | assumption | apply h_done | exact OptKeeps.none | refine OptKeeps.some ?_ | dsimp only
    | apply State.each_keeps | apply State.setWord_keeps | apply State.fset_keeps | apply State.planFails_keeps
    | apply State.horizonShort_keeps | apply State.planBypass_keeps | apply State.failClear_keeps
    | apply State.startEnum_keeps | apply State.haltReadout_keeps | apply State.relockDll_keeps
    | apply State.refreshExtLock_keeps | apply State.cellGo_keeps | apply State.writeDisarm_keeps
    | apply State.roleWritten_keeps | apply State.clearLatched_keeps | apply State.clearGateFault_keeps
    | apply State.gbufWritten_keeps | apply State.abortCal_keeps | apply State.refWritten_keeps
    | apply State.calibrate_keeps | apply State.captCmd_keeps | apply State.mtrCmd_keeps
    | apply State.pdataWrite_keeps | apply State.lselWrite_keeps | apply State.pinHold_keeps
    | apply State.swSet_keeps | apply State.clearSelf_keeps | apply State.clearSticky_keeps
    | apply State.memMode_keeps | apply State.hostLinkCond_keeps | apply State.joinArb_keeps
    | apply State.readoutGo_keeps | apply State.sctrlWritten_keeps | apply State.loadWrite_keeps
    | apply State.storeFields_keeps | apply State.enableCores_keeps | apply State.clkWritten_keeps
    | apply State.lctrlWritten_keeps | apply State.mgmtWrite_keeps | refine Keeps.ofFst (by assumption) ?_
    | refine Keeps.ofSnd (by assumption) ?_ | dsimp only | apply State.each_keeps | (intro _; skip)
    | refine Keeps.ite (fun _ => ?_) (fun _ => ?_)
    | (extract_lets +onlyGivenNames xq; refine (fun (hx : Keeps kb ke u0 xq) => ?_) ?_; rotate_left; dsimp -zeta only [xq]; rotate_left; clear_value xq)
    | (extract_lets +onlyGivenNames xq; (have hq : xq = xq := by (dsimp -zeta only [xq])); clear hq; clear_value xq)
    | split | exact Keeps.upd (by assumption)

theorem State.afterWrite_keeps (s : State) (p : State × Wrote) (h : Keeps kb ke u0 p.1) : Keeps kb ke u0 (s.afterWrite p).1 := by
  unfold State.afterWrite
  split <;> exact h

theorem State.applyWrite_keeps (h : Keeps kb ke u0 s) (req : Requester) (now : Bool) (a : Nat) (r : RegRow) (v : Word) :
    Keeps kb ke u0 (s.applyWrite req now a r v).1 := by
  refine State.afterWrite_keeps s _ ?_
  cases hg : s.writeEffect req now a r v with
  | none => exact State.storeFields_keeps h now a r v
  | some p => exact State.writeEffect_keeps h req now a r v p hg

theorem State.writeReg_keeps (h : Keeps kb ke u0 s) (req : Requester) (a : Nat) (v : Word) : Keeps kb ke u0 (s.writeReg req a v).1 := by
  unfold State.writeReg
  split
  · exact h
  · extract_lets x
    have hx : Keeps kb ke u0 x := State.blockDue_keeps h a
    clear_value x
    refine Keeps.iteFst (fun _ => ?_) (fun _ => hx)
    split
    · split
      rename_i t w hg
      have ht : Keeps kb ke u0 t := Keeps.ofFst hg (State.applyWrite_keeps hx req false a _ v)
      exact Keeps.iteFst (fun _ => State.newVersion_keeps ht a) (fun _ => ht)
    · exact State.each_keeps _ _ (fun n t ht => State.raise_keeps ht n) hx

theorem State.busWrite_keeps (h : Keeps kb ke u0 s) (req : Requester) (a : Nat) (v : Word) : Keeps kb ke u0 (State.busWrite s req a v) := by
  unfold State.busWrite
  with_reducible repeat' first
    | assumption | apply State.emit_keeps | apply State.writeReg_keeps | refine Keeps.ofFst (by assumption) ?_
    | refine Keeps.ofSnd (by assumption) ?_ | dsimp only | split | exact Keeps.upd (by assumption)

theorem State.busRead_keeps (h : Keeps kb ke u0 s) (req : Requester) (a : Nat) : Keeps kb ke u0 (State.busRead s req a) := by
  unfold State.busRead
  with_reducible repeat' first
    | assumption | apply State.emit_keeps | apply State.readReg_keeps | refine Keeps.ofFst (by assumption) ?_
    | refine Keeps.ofSnd (by assumption) ?_ | dsimp only
    | (extract_lets +onlyGivenNames xq; refine (fun (hx : Keeps kb ke u0 xq) => ?_) ?_; rotate_left; dsimp -zeta only [xq]; rotate_left; clear_value xq)
    | (extract_lets +onlyGivenNames xq; (have hq : xq = xq := by (dsimp -zeta only [xq])); clear hq; clear_value xq)
    | split

theorem State.takeOne_keeps (h : Keeps kb ke u0 s) (req : Requester) (a : Nat) (v : Word) : Keeps kb ke u0 (s.takeOne req a v).1 := by
  unfold State.takeOne
  split
  · rename_i r i hr
    exact State.applyWrite_keeps h req _ a r v
  · exact State.memWrite_keeps h _ _ _

theorem State.takeWrites_keeps (h : Keeps kb ke u0 s) (req : Requester) (l : List (Nat × Word)) : Keeps kb ke u0 (s.takeWrites req l).1 := by
  induction l generalizing s with
  | nil => exact h
  | cons x t ih => exact ih (State.takeOne_keeps h req x.1 x.2)

theorem State.takeArms_keeps (h : Keeps kb ke u0 s) (ws : List (Nat × Word)) : Keeps kb ke u0 (State.takeArms s ws) := by
  unfold State.takeArms
  with_reducible repeat' first
    | assumption | apply State.each_keeps | apply State.armCompare_keeps | apply State.each_keeps | (intro _; skip)

theorem State.takeVersions_keeps (h : Keeps kb ke u0 s) (ws : List (Nat × Word)) : Keeps kb ke u0 (State.takeVersions s ws) := by
  unfold State.takeVersions
  with_reducible repeat' first
    | assumption | apply State.setWseq_keeps | apply Keeps.foldl | (intro _; skip)
    | (extract_lets +onlyGivenNames xq; refine (fun (hx : Keeps kb ke u0 xq) => ?_) ?_; rotate_left; dsimp -zeta only [xq]; rotate_left; clear_value xq)
    | (extract_lets +onlyGivenNames xq; (have hq : xq = xq := by (dsimp -zeta only [xq])); clear hq; clear_value xq)
    | exact Keeps.upd (by assumption)

theorem State.applyTake_keeps (h : Keeps kb ke u0 s) (x : HandleId) (t : Nat) : Keeps kb ke u0 (s.applyTake x t) := by
  unfold State.applyTake
  extract_lets ws s1
  have h0 : Keeps kb ke u0 s1 := State.fset_keeps (State.modTake_keeps h x _) _ _
  have h1 := State.takeWrites_keeps h0 (reqOf (s1.fget (F.TAKE_STAT_OWNER x))) ws
  clear_value s1
  split
  rename_i t1 ok e
  rw [e] at h1
  have h2 := State.takeVersions_keeps (State.takeArms_keeps h1 ws) ws
  have h3 := Keeps.ite (c := ((takeRegs ws).any fun a => blockOf a == 5) = true)
    (fun _ => State.horizonShort_keeps (State.planFails_keeps h2)) (fun _ => h2)
  exact State.setTime48_keeps (State.fset_keeps h3 _ _) _ _ _

theorem State.boundary_keeps (h : Keeps kb ke u0 s) (h : HandleId) (t : Nat) : Keeps kb ke u0 (State.boundary s h t) := by
  unfold State.boundary
  with_reducible repeat' first
    | assumption | apply State.raise_keeps | apply State.cutTake_keeps | apply State.applyTake_keeps
    | (extract_lets +onlyGivenNames xq; refine (fun (hx : Keeps kb ke u0 xq) => ?_) ?_; rotate_left; dsimp -zeta only [xq]; rotate_left; clear_value xq)
    | (extract_lets +onlyGivenNames xq; (have hq : xq = xq := by (dsimp -zeta only [xq])); clear hq; clear_value xq)
    | refine Keeps.ite (fun _ => ?_) (fun _ => ?_) | split

theorem State.takeRun_keeps (h : Keeps kb ke u0 s) (h : HandleId) (t : Nat) : Keeps kb ke u0 (State.takeRun s h t) := by
  unfold State.takeRun
  with_reducible repeat' first
    | assumption | apply State.advanceTo_keeps | apply State.cutTake_keeps | apply State.boundary_keeps
    | refine Keeps.ite (fun _ => ?_) (fun _ => ?_) | split

theorem State.takesUpTo_keeps (h : Keeps kb ke u0 s) (t : Nat) : Keeps kb ke u0 (State.takesUpTo s t) := by
  unfold State.takesUpTo
  with_reducible repeat' first
    | assumption | apply State.takeRun_keeps | apply Keeps.foldl | (intro _; skip)
    | refine Keeps.ite (fun _ => ?_) (fun _ => ?_) | split | exact Keeps.upd (by assumption)

theorem execTakeApply_keeps (h : HandleId) (s : State) : ResKeeps kb ke s (execTakeApply h s) := by
  have h := State.fresh_keeps (Keeps.refl kb ke s)
  unfold execTakeApply
  with_reducible repeat' first
    | assumption | apply State.fresh_keeps | apply State.takeRun_keeps | apply RunKeeps.ok | apply RunKeeps.error
    | apply ResKeeps.next
    | (extract_lets +onlyGivenNames xq; refine (fun (hx : Keeps kb ke s xq) => ?_) ?_; rotate_left; dsimp -zeta only [xq]; rotate_left; clear_value xq)
    | (extract_lets +onlyGivenNames xq; (have hq : xq = xq := by (dsimp -zeta only [xq])); clear hq; clear_value xq)
    | refine ResKeeps.ite (fun _ => ?_) (fun _ => ?_) | refine Keeps.ite (fun _ => ?_) (fun _ => ?_) | split
    | exact Keeps.upd (by assumption)

theorem execTakeOpenTimeout_keeps (h : HandleId) (s : State) : ResKeeps kb ke s (execTakeOpenTimeout h s) := by
  have h := State.fresh_keeps (Keeps.refl kb ke s)
  unfold execTakeOpenTimeout
  with_reducible repeat' first
    | assumption | apply State.advanceTo_keeps | apply State.fresh_keeps | apply State.cutTake_keeps
    | apply RunKeeps.ok | apply RunKeeps.error | apply ResKeeps.next
    | (extract_lets +onlyGivenNames xq; refine (fun (hx : Keeps kb ke s xq) => ?_) ?_; rotate_left; dsimp -zeta only [xq]; rotate_left; clear_value xq)
    | (extract_lets +onlyGivenNames xq; (have hq : xq = xq := by (dsimp -zeta only [xq])); clear hq; clear_value xq)
    | refine ResKeeps.ite (fun _ => ?_) (fun _ => ?_) | refine Keeps.ite (fun _ => ?_) (fun _ => ?_) | split

theorem execTakeWaitTimeout_keeps (h : HandleId) (s : State) : ResKeeps kb ke s (execTakeWaitTimeout h s) := by
  have h := State.fresh_keeps (Keeps.refl kb ke s)
  unfold execTakeWaitTimeout
  with_reducible repeat' first
    | assumption | apply State.advanceTo_keeps | apply State.fresh_keeps | apply State.cutTake_keeps
    | apply RunKeeps.ok | apply RunKeeps.error | apply ResKeeps.next
    | (extract_lets +onlyGivenNames xq; refine (fun (hx : Keeps kb ke s xq) => ?_) ?_; rotate_left; dsimp -zeta only [xq]; rotate_left; clear_value xq)
    | (extract_lets +onlyGivenNames xq; (have hq : xq = xq := by (dsimp -zeta only [xq])); clear hq; clear_value xq)
    | refine ResKeeps.ite (fun _ => ?_) (fun _ => ?_) | refine Keeps.ite (fun _ => ?_) (fun _ => ?_) | split

theorem State.coreTick_keeps (h : Keeps kb ke u0 s) (n : CoreId) (k : Nat) (t : Nat) : Keeps kb ke u0 (State.coreTick s n k t) := by
  unfold State.coreTick
  with_reducible repeat' first
    | assumption | apply State.fset_keeps | apply State.modCore_keeps | apply State.raise_keeps
    | apply State.startRun_keeps | (intro _; skip) | refine Keeps.ite (fun _ => ?_) (fun _ => ?_)
    | (extract_lets +onlyGivenNames xq; refine (fun (hx : Keeps kb ke u0 xq) => ?_) ?_; rotate_left; dsimp -zeta only [xq]; rotate_left; clear_value xq)
    | (extract_lets +onlyGivenNames xq; (have hq : xq = xq := by (dsimp -zeta only [xq])); clear hq; clear_value xq)
    | split | exact Keeps.upd (by assumption)

theorem execPeriodTick_keeps (s : State) : ResKeeps kb ke s (execPeriodTick s) := by
  have h := State.fresh_keeps (Keeps.refl kb ke s)
  unfold execPeriodTick
  extract_lets +onlyGivenNames s0
  have h0 : Keeps kb ke s s0 := h
  clear_value s0
  refine ResKeeps.ite (fun _ => ?_) (fun _ => ResKeeps.next h0)
  extract_lets t s1 k changed s2 s3 s4 s5
  have h1 : Keeps kb ke s s1 := State.advanceTo_keeps (State.takesUpTo_keeps h0 _) _
  have h2 : Keeps kb ke s s2 := Keeps.upd h1
  have h3 : Keeps kb ke s s3 := Keeps.ite
    (fun _ => State.each_keeps _ _ (fun n x hx => State.coreTick_keeps hx n _ _) (State.showTick_keeps h2)) (fun _ => h2)
  have h4 : Keeps kb ke s s4 := State.each_keeps _ _ (fun x y hy => State.tlmOpen_keeps hy x _ _) h3
  have h5 : Keeps kb ke s s5 := Keeps.ite
    (fun _ => State.each_keeps _ _ (fun x y hy => State.each_keeps _ _ (fun c z hz => State.writeCfg_keeps hz x c) hy) h4) (fun _ => h4)
  exact ResKeeps.next (State.adcTick_keeps h5 _ _)

theorem State.coreRead_keeps (h : Keeps kb ke u0 s) (n : CoreId) (a : Nat) (size : Nat) : Keeps kb ke u0 (State.coreRead s n a size).2 := by
  unfold State.coreRead
  with_reducible repeat' first
    | assumption | apply State.memRead_keeps | apply State.readReg_keeps | refine Keeps.ofFst (by assumption) ?_
    | refine Keeps.ofSnd (by assumption) ?_ | dsimp only | (intro _; skip)
    | (extract_lets +onlyGivenNames xq; refine (fun (hx : Keeps kb ke u0 xq) => ?_) ?_; rotate_left; dsimp -zeta only [xq]; rotate_left; clear_value xq)
    | (extract_lets +onlyGivenNames xq; (have hq : xq = xq := by (dsimp -zeta only [xq])); clear hq; clear_value xq)
    | refine Keeps.iteFst (fun _ => ?_) (fun _ => ?_) | refine Keeps.ite (fun _ => ?_) (fun _ => ?_) | split

theorem State.coreWrite_keeps (h : Keeps kb ke u0 s) (n : CoreId) (a : Nat) (size : Nat) (v : Word) : Keeps kb ke u0 (State.coreWrite s n a size v).1 := by
  unfold State.coreWrite
  with_reducible repeat' first
    | assumption | apply State.memWrite_keeps | apply State.writeReg_keeps | refine Keeps.ofFst (by assumption) ?_
    | refine Keeps.ofSnd (by assumption) ?_ | dsimp only
    | (extract_lets +onlyGivenNames xq; refine (fun (hx : Keeps kb ke u0 xq) => ?_) ?_; rotate_left; dsimp -zeta only [xq]; rotate_left; clear_value xq)
    | (extract_lets +onlyGivenNames xq; (have hq : xq = xq := by (dsimp -zeta only [xq])); clear hq; clear_value xq)
    | refine Keeps.iteFst (fun _ => ?_) (fun _ => ?_) | refine Keeps.ite (fun _ => ?_) (fun _ => ?_) | split

theorem State.coreReads_keeps (h : Keeps kb ke u0 s) (n : CoreId) (a k : Nat) : ExceptKeeps kb ke u0 (s.coreReads n a k) := by
  induction k with
  | zero => exact h
  | succ k ih =>
    unfold State.coreReads
    cases hg : s.coreReads n a k with
    | error x => rw [hg] at ih; exact ih
    | ok x =>
      rw [hg] at ih
      have hr := State.coreRead_keeps ih n (a + 4 * k) 4
      dsimp only
      generalize x.2.coreRead n (a + 4 * k) 4 = y at hr
      obtain ⟨o, t'⟩ := y
      cases o <;> exact hr

theorem State.coreWrites_keeps (h : Keeps kb ke u0 s) (n : CoreId) (a : Nat) (l : List Word) : Keeps kb ke u0 (s.coreWrites n a l).1 := by
  induction l generalizing s a with
  | nil => exact h
  | cons v t ih =>
    have hw := State.coreWrite_keeps h n a 4 v
    unfold State.coreWrites
    generalize s.coreWrite n a 4 v = y at hw
    obtain ⟨r, ok⟩ := y
    cases ok with
    | true => exact ih hw _
    | false => exact hw

theorem State.readDone_keeps (p : Option Nat × State) (h : Keeps kb ke u0 p.2) (a : Nat) (go : Nat → State → Run)
    (h_go : ∀ x t, Keeps kb ke u0 t → RunKeeps kb ke u0 (go x t)) : RunKeeps kb ke u0 (State.readDone p a go) := by
  unfold State.readDone
  split
  · exact h_go _ _ h
  · exact State.trapWith_keeps h _ _

theorem State.writeDone_keeps (p : State × Bool) (h : Keeps kb ke u0 p.1) (a : Nat) (go : State → Run)
    (h_go : ∀ t, Keeps kb ke u0 t → RunKeeps kb ke u0 (go t)) : RunKeeps kb ke u0 (State.writeDone p a go) := by
  unfold State.writeDone
  split
  · exact h_go _ h
  · exact State.trapWith_keeps h _ _

theorem State.readsDone_keeps (p : Except (State × Nat) (List Nat × State)) (h : ExceptKeeps kb ke u0 p)
    (go : List Nat → State → Run) (h_go : ∀ x t, Keeps kb ke u0 t → RunKeeps kb ke u0 (go x t)) : RunKeeps kb ke u0 (State.readsDone p go) := by
  cases p with
  | ok x => exact h_go _ _ h
  | error x => exact State.trapWith_keeps h _ _

theorem State.writesDone_keeps (p : State × Option Nat) (h : Keeps kb ke u0 p.1) (go : State → Run)
    (h_go : ∀ t, Keeps kb ke u0 t → RunKeeps kb ke u0 (go t)) : RunKeeps kb ke u0 (State.writesDone p go) := by
  unfold State.writesDone
  split
  · exact h_go _ h
  · exact State.trapWith_keeps h _ _

theorem State.accessDone_keeps (h : Keeps kb ke u0 s) (n : CoreId) (w : Stall) (cyc : Nat) : RunKeeps kb ke u0 (s.accessDone n w cyc) := by
  cases w with
  | load k rt a => exact State.readDone_keeps _ (State.coreRead_keeps h n a k.size) a _ (fun raw t ht => State.loadDone_keeps ht _ _ _ _ _ _)
  | store size a v => exact State.writeDone_keeps _ (State.coreWrite_keeps h n a size v) a _ (fun t ht => RunKeeps.ok (State.retire_keeps ht _ _ _))
  | loadVec vd a =>
    unfold State.accessDone
    refine State.readsDone_keeps _ (State.coreReads_keeps h n a imageWords) _ (fun ws t ht => ?_)
    exact RunKeeps.ok (State.retire_keeps (State.writeV_keeps ht _ _ _) _ _ _)
  | storeVec ws a => exact State.writesDone_keeps _ (State.coreWrites_keeps h n a ws) _ (fun t ht => RunKeeps.ok (State.retire_keeps ht _ _ _))
  | input _ _ _ => exact h
  | emit _ => exact h

theorem execDataAccessComplete_keeps (n : CoreId) (cycles : Nat) (s : State) :
    ResKeeps kb ke s (execDataAccessComplete n cycles s) := by
  have h := State.fresh_keeps (Keeps.refl kb ke s)
  unfold execDataAccessComplete
  extract_lets +onlyGivenNames s0
  have h0 : Keeps kb ke s s0 := h
  clear_value s0
  split
  · split
    · refine ResKeeps.ite (fun _ => ?_) (fun _ => ResKeeps.next h0)
      exact ResKeeps.next (Run.finish_keeps (State.accessDone_keeps (State.modCore_keeps (State.advanceTo_keeps h0 _) n _) n _ _) _ _ _)
    · exact ResKeeps.next h0
  · exact ResKeeps.next h0

theorem execLdInResume_keeps (n : CoreId) (s : State) : ResKeeps kb ke s (execLdInResume n s) := by
  have h := State.fresh_keeps (Keeps.refl kb ke s)
  unfold execLdInResume
  extract_lets +onlyGivenNames s0
  have h0 : Keeps kb ke s s0 := h
  clear_value s0
  split
  · refine ResKeeps.ite (fun _ => ?_) (fun _ => ResKeeps.next h0)
    extract_lets d s1 s2
    have h1 : Keeps kb ke s s1 := Keeps.ite (fun _ => h0) (fun _ => State.advanceTo_keeps h0 _)
    exact ResKeeps.next (Run.finish_keeps (State.ldInFinish_keeps (State.modCore_keeps h1 n _) n _ _ _ _) _ _ _)
  · exact ResKeeps.next h0

theorem execEmitFifoRoom_keeps (n : CoreId) (s : State) : ResKeeps kb ke s (execEmitFifoRoom n s) := by
  have h := State.fresh_keeps (Keeps.refl kb ke s)
  unfold execEmitFifoRoom
  with_reducible repeat' first
    | assumption | apply State.modCore_keeps | apply State.fresh_keeps | apply State.emit_keeps
    | apply State.retire_keeps | apply State.pushEmit_keeps | apply RunKeeps.ok | apply RunKeeps.error
    | apply ResKeeps.next | (intro _; skip)
    | (extract_lets +onlyGivenNames xq; refine (fun (hx : Keeps kb ke s xq) => ?_) ?_; rotate_left; dsimp -zeta only [xq]; rotate_left; clear_value xq)
    | (extract_lets +onlyGivenNames xq; (have hq : xq = xq := by (dsimp -zeta only [xq])); clear hq; clear_value xq)
    | refine ResKeeps.ite (fun _ => ?_) (fun _ => ?_) | refine Keeps.ite (fun _ => ?_) (fun _ => ?_) | split
    | exact Keeps.upd (by assumption)

theorem State.commitRun_keeps (h : Keeps kb ke u0 s) (n : CoreId) : Keeps kb ke u0 (State.commitRun s n) := by
  unfold State.commitRun
  with_reducible repeat' first
    | assumption | apply State.each_keeps | apply State.finc_keeps | apply State.modCore_keeps
    | apply State.setCoreState_keeps | apply State.endRun_keeps | apply State.pushEmit_keeps
    | apply State.each_keeps | (intro _; skip)
    | (extract_lets +onlyGivenNames xq; refine (fun (hx : Keeps kb ke u0 xq) => ?_) ?_; rotate_left; dsimp -zeta only [xq]; rotate_left; clear_value xq)
    | (extract_lets +onlyGivenNames xq; (have hq : xq = xq := by (dsimp -zeta only [xq])); clear hq; clear_value xq)
    | refine Keeps.ite (fun _ => ?_) (fun _ => ?_) | split | exact Keeps.upd (by assumption)

theorem State.squashRun_keeps (h : Keeps kb ke u0 s) (n : CoreId) (ck : Regs) : Keeps kb ke u0 (State.squashRun s n ck) := by
  unfold State.squashRun
  with_reducible repeat' first
    | assumption | apply State.finc_keeps | apply State.modCore_keeps | apply State.startRun_keeps | (intro _; skip)
    | (extract_lets +onlyGivenNames xq; refine (fun (hx : Keeps kb ke u0 xq) => ?_) ?_; rotate_left; dsimp -zeta only [xq]; rotate_left; clear_value xq)
    | (extract_lets +onlyGivenNames xq; (have hq : xq = xq := by (dsimp -zeta only [xq])); clear hq; clear_value xq)
    | exact Keeps.upd (by assumption)

theorem execComparePoint_keeps (n : CoreId) (s : State) : ResKeeps kb ke s (execComparePoint n s) := by
  have h := State.fresh_keeps (Keeps.refl kb ke s)
  unfold execComparePoint
  with_reducible repeat' first
    | assumption | apply State.advanceTo_keeps | apply State.fresh_keeps | apply State.commitRun_keeps
    | apply State.squashRun_keeps | apply RunKeeps.ok | apply RunKeeps.error | apply ResKeeps.next
    | (extract_lets +onlyGivenNames xq; refine (fun (hx : Keeps kb ke s xq) => ?_) ?_; rotate_left; dsimp -zeta only [xq]; rotate_left; clear_value xq)
    | (extract_lets +onlyGivenNames xq; (have hq : xq = xq := by (dsimp -zeta only [xq])); clear hq; clear_value xq)
    | refine ResKeeps.ite (fun _ => ?_) (fun _ => ?_) | refine Keeps.ite (fun _ => ?_) (fun _ => ?_) | split
    | exact Keeps.upd (by assumption)

theorem State.drainFail_keeps (h : Keeps kb ke u0 s) (n : CoreId) (e : BufStore) : Keeps kb ke u0 (State.drainFail s n e) := by
  unfold State.drainFail
  with_reducible repeat' first
    | assumption | apply State.takeTrap_keeps | refine Keeps.ite (fun _ => ?_) (fun _ => ?_) | split

theorem State.drainAll_keeps (h : Keeps kb ke u0 s) (n : CoreId) (l : List BufStore) : Keeps kb ke u0 (s.drainAll n l) := by
  induction l generalizing s with
  | nil => exact h
  | cons x t ih =>
    have hw := State.performStore_keeps h n x
    unfold State.drainAll
    generalize s.performStore n x = y at hw
    obtain ⟨r, ok⟩ := y
    cases ok with
    | true => exact ih hw
    | false => exact ih (State.drainFail_keeps hw _ _)

theorem execStoreDrainEnd_keeps (n : CoreId) (s : State) : ResKeeps kb ke s (execStoreDrainEnd n s) := by
  have h := State.fresh_keeps (Keeps.refl kb ke s)
  refine ResKeeps.ite (fun _ => ResKeeps.next ?_) (fun _ => ResKeeps.next h)
  have h1 := State.drainAll_keeps (State.modCore_keeps h n (fun c => { c with drain := [] })) n (s.fresh.cores[n]).drain
  exact Keeps.ite (fun _ => State.endRun_keeps (State.modCore_keeps h1 n _) n) (fun _ => h1)

theorem execDrainTrap_keeps (n : CoreId) (s : State) : ResKeeps kb ke s (execDrainTrap n s) := by
  have h := State.fresh_keeps (Keeps.refl kb ke s)
  unfold execDrainTrap
  with_reducible repeat' first
    | assumption | apply State.modCore_keeps | apply State.fresh_keeps | apply State.drainUntil_keeps
    | apply State.drainFail_keeps | apply RunKeeps.ok | apply RunKeeps.error | apply ResKeeps.next
    | refine Keeps.ofFst (by assumption) ?_ | refine Keeps.ofSnd (by assumption) ?_ | dsimp only | (intro _; skip)
    | (extract_lets +onlyGivenNames xq; refine (fun (hx : Keeps kb ke s xq) => ?_) ?_; rotate_left; dsimp -zeta only [xq]; rotate_left; clear_value xq)
    | (extract_lets +onlyGivenNames xq; (have hq : xq = xq := by (dsimp -zeta only [xq])); clear hq; clear_value xq)
    | refine ResKeeps.ite (fun _ => ?_) (fun _ => ?_) | refine Keeps.ite (fun _ => ?_) (fun _ => ?_) | split
    | exact Keeps.upd (by assumption)

theorem execRegisterWrite_keeps (req : Requester) (addr : Nat) (value : Word) (s : State) : ResKeeps kb ke s (execRegisterWrite req addr value s) := by
  have h := State.fresh_keeps (Keeps.refl kb ke s)
  unfold execRegisterWrite
  with_reducible repeat' first
    | assumption | apply State.fresh_keeps | apply State.busWrite_keeps | apply RunKeeps.ok | apply RunKeeps.error
    | apply ResKeeps.next

theorem execRcRead_keeps (req : Requester) (addr : Nat) (s : State) : ResKeeps kb ke s (execRcRead req addr s) := by
  have h := State.fresh_keeps (Keeps.refl kb ke s)
  unfold execRcRead
  with_reducible repeat' first
    | assumption | apply State.fresh_keeps | apply State.busRead_keeps | apply RunKeeps.ok | apply RunKeeps.error
    | apply ResKeeps.next

theorem execCoreEnableWrite_keeps (req : Requester) (value : Word) (s : State) : ResKeeps kb ke s (execCoreEnableWrite req value s) := by
  have h := State.fresh_keeps (Keeps.refl kb ke s)
  unfold execCoreEnableWrite
  with_reducible repeat' first
    | assumption | apply State.fresh_keeps | apply State.busWrite_keeps | apply RunKeeps.ok | apply RunKeeps.error
    | apply ResKeeps.next

theorem execCorePeriodWrite_keeps (req : Requester) (value : Word) (s : State) : ResKeeps kb ke s (execCorePeriodWrite req value s) := by
  have h := State.fresh_keeps (Keeps.refl kb ke s)
  unfold execCorePeriodWrite
  with_reducible repeat' first
    | assumption | apply State.fresh_keeps | apply State.busWrite_keeps | apply RunKeeps.ok | apply RunKeeps.error
    | apply ResKeeps.next

theorem execLoadWindowRead_keeps (req : Requester) (n : CoreId) (s : State) : ResKeeps kb ke s (execLoadWindowRead req n s) := by
  have h := State.fresh_keeps (Keeps.refl kb ke s)
  unfold execLoadWindowRead
  with_reducible repeat' first
    | assumption | apply State.fresh_keeps | apply State.busRead_keeps | apply RunKeeps.ok | apply RunKeeps.error
    | apply ResKeeps.next

theorem execLoadWindowWrite_keeps (req : Requester) (n : CoreId) (value : Word) (s : State) : ResKeeps kb ke s (execLoadWindowWrite req n value s) := by
  have h := State.fresh_keeps (Keeps.refl kb ke s)
  unfold execLoadWindowWrite
  with_reducible repeat' first
    | assumption | apply State.fresh_keeps | apply State.busWrite_keeps | apply RunKeeps.ok | apply RunKeeps.error
    | apply ResKeeps.next

theorem execPlanBypWrite_keeps (req : Requester) (x : RingId) (value : Word) (s : State) : ResKeeps kb ke s (execPlanBypWrite req x value s) := by
  have h := State.fresh_keeps (Keeps.refl kb ke s)
  unfold execPlanBypWrite
  with_reducible repeat' first
    | assumption | apply State.fresh_keeps | apply State.busWrite_keeps | apply RunKeeps.ok | apply RunKeeps.error
    | apply ResKeeps.next

theorem execFailClear_keeps (req : Requester) (x : RingId) (high : Bool) (value : Word) (s : State) : ResKeeps kb ke s (execFailClear req x high value s) := by
  have h := State.fresh_keeps (Keeps.refl kb ke s)
  unfold execFailClear
  with_reducible repeat' first
    | assumption | apply State.fresh_keeps | apply State.busWrite_keeps | apply RunKeeps.ok | apply RunKeeps.error
    | apply ResKeeps.next | refine ResKeeps.ite (fun _ => ?_) (fun _ => ?_)
    | refine Keeps.ite (fun _ => ?_) (fun _ => ?_) | split

theorem execRetrain_keeps (req : Requester) (p : LaneId) (s : State) : ResKeeps kb ke s (execRetrain req p s) := by
  have h := State.fresh_keeps (Keeps.refl kb ke s)
  unfold execRetrain
  with_reducible repeat' first
    | assumption | apply State.fresh_keeps | apply State.busWrite_keeps | apply RunKeeps.ok | apply RunKeeps.error
    | apply ResKeeps.next
    | (extract_lets +onlyGivenNames xq; refine (fun (hx : Keeps kb ke s xq) => ?_) ?_; rotate_left; dsimp -zeta only [xq]; rotate_left; clear_value xq)
    | (extract_lets +onlyGivenNames xq; (have hq : xq = xq := by (dsimp -zeta only [xq])); clear hq; clear_value xq)

theorem execDllRelock_keeps (req : Requester) (value : Word) (s : State) : ResKeeps kb ke s (execDllRelock req value s) := by
  have h := State.fresh_keeps (Keeps.refl kb ke s)
  unfold execDllRelock
  with_reducible repeat' first
    | assumption | apply State.fresh_keeps | apply State.busWrite_keeps | apply RunKeeps.ok | apply RunKeeps.error
    | apply ResKeeps.next

theorem execRefselWrite_keeps (req : Requester) (value : Word) (s : State) : ResKeeps kb ke s (execRefselWrite req value s) := by
  have h := State.fresh_keeps (Keeps.refl kb ke s)
  unfold execRefselWrite
  with_reducible repeat' first
    | assumption | apply State.fresh_keeps | apply State.busWrite_keeps | apply RunKeeps.ok | apply RunKeeps.error
    | apply ResKeeps.next

theorem execMgmtTransfer_keeps (req : Requester) (p : LaneId) (value : Word) (s : State) : ResKeeps kb ke s (execMgmtTransfer req p value s) := by
  have h := State.fresh_keeps (Keeps.refl kb ke s)
  unfold execMgmtTransfer
  with_reducible repeat' first
    | assumption | apply State.fresh_keeps | apply State.busWrite_keeps | apply RunKeeps.ok | apply RunKeeps.error
    | apply ResKeeps.next

theorem execTapsWrite_keeps (req : Requester) (p : LaneId) (value : Word) (s : State) : ResKeeps kb ke s (execTapsWrite req p value s) := by
  have h := State.fresh_keeps (Keeps.refl kb ke s)
  unfold execTapsWrite
  with_reducible repeat' first
    | assumption | apply State.fresh_keeps | apply State.busWrite_keeps | apply RunKeeps.ok | apply RunKeeps.error
    | apply ResKeeps.next

theorem execEvtqRead_keeps (req : Requester) (s : State) : ResKeeps kb ke s (execEvtqRead req s) := by
  have h := State.fresh_keeps (Keeps.refl kb ke s)
  unfold execEvtqRead
  with_reducible repeat' first
    | assumption | apply State.fresh_keeps | apply State.busRead_keeps | apply RunKeeps.ok | apply RunKeeps.error
    | apply ResKeeps.next

theorem execCellAccessGo_keeps (req : Requester) (value : Word) (s : State) : ResKeeps kb ke s (execCellAccessGo req value s) := by
  have h := State.fresh_keeps (Keeps.refl kb ke s)
  unfold execCellAccessGo
  with_reducible repeat' first
    | assumption | apply State.fresh_keeps | apply State.busWrite_keeps | apply RunKeeps.ok | apply RunKeeps.error
    | apply ResKeeps.next

theorem execRtimelRead_keeps (req : Requester) (s : State) : ResKeeps kb ke s (execRtimelRead req s) := by
  have h := State.fresh_keeps (Keeps.refl kb ke s)
  unfold execRtimelRead
  with_reducible repeat' first
    | assumption | apply State.fresh_keeps | apply State.busRead_keeps | apply RunKeeps.ok | apply RunKeeps.error
    | apply ResKeeps.next

theorem execLtimelRead_keeps (req : Requester) (s : State) : ResKeeps kb ke s (execLtimelRead req s) := by
  have h := State.fresh_keeps (Keeps.refl kb ke s)
  unfold execLtimelRead
  with_reducible repeat' first
    | assumption | apply State.fresh_keeps | apply State.busRead_keeps | apply RunKeeps.ok | apply RunKeeps.error
    | apply ResKeeps.next

theorem execCmpDisarm_keeps (req : Requester) (u : UnitId) (s : State) : ResKeeps kb ke s (execCmpDisarm req u s) := by
  have h := State.fresh_keeps (Keeps.refl kb ke s)
  unfold execCmpDisarm
  with_reducible repeat' first
    | assumption | apply State.fresh_keeps | apply State.busWrite_keeps | apply RunKeeps.ok | apply RunKeeps.error
    | apply ResKeeps.next
    | (extract_lets +onlyGivenNames xq; refine (fun (hx : Keeps kb ke s xq) => ?_) ?_; rotate_left; dsimp -zeta only [xq]; rotate_left; clear_value xq)
    | (extract_lets +onlyGivenNames xq; (have hq : xq = xq := by (dsimp -zeta only [xq])); clear hq; clear_value xq)

theorem execLatchedClear_keeps (req : Requester) (legs : BitVec 4) (s : State) : ResKeeps kb ke s (execLatchedClear req legs s) := by
  have h := State.fresh_keeps (Keeps.refl kb ke s)
  unfold execLatchedClear
  with_reducible repeat' first
    | assumption | apply State.fresh_keeps | apply State.busWrite_keeps | apply RunKeeps.ok | apply RunKeeps.error
    | apply ResKeeps.next

theorem execGateFaultClear_keeps (req : Requester) (x : LegId) (s : State) : ResKeeps kb ke s (execGateFaultClear req x s) := by
  have h := State.fresh_keeps (Keeps.refl kb ke s)
  unfold execGateFaultClear
  with_reducible repeat' first
    | assumption | apply State.fresh_keeps | apply State.busWrite_keeps | apply RunKeeps.ok | apply RunKeeps.error
    | apply ResKeeps.next

theorem execPstartlRead_keeps (req : Requester) (s : State) : ResKeeps kb ke s (execPstartlRead req s) := by
  have h := State.fresh_keeps (Keeps.refl kb ke s)
  unfold execPstartlRead
  with_reducible repeat' first
    | assumption | apply State.fresh_keeps | apply State.busRead_keeps | apply RunKeeps.ok | apply RunKeeps.error
    | apply ResKeeps.next

theorem execGbufWrite_keeps (req : Requester) (g : UnitId) (value : Word) (s : State) : ResKeeps kb ke s (execGbufWrite req g value s) := by
  have h := State.fresh_keeps (Keeps.refl kb ke s)
  unfold execGbufWrite
  with_reducible repeat' first
    | assumption | apply State.fresh_keeps | apply State.busWrite_keeps | apply RunKeeps.ok | apply RunKeeps.error
    | apply ResKeeps.next

theorem execCalibrate_keeps (req : Requester) (converters : BitVec 8) (s : State) : ResKeeps kb ke s (execCalibrate req converters s) := by
  have h := State.fresh_keeps (Keeps.refl kb ke s)
  unfold execCalibrate
  with_reducible repeat' first
    | assumption | apply State.fresh_keeps | apply State.busWrite_keeps | apply RunKeeps.ok | apply RunKeeps.error
    | apply ResKeeps.next

theorem execZxtlRead_keeps (req : Requester) (s : State) : ResKeeps kb ke s (execZxtlRead req s) := by
  have h := State.fresh_keeps (Keeps.refl kb ke s)
  unfold execZxtlRead
  with_reducible repeat' first
    | assumption | apply State.fresh_keeps | apply State.busRead_keeps | apply RunKeeps.ok | apply RunKeeps.error
    | apply ResKeeps.next

theorem execArm_keeps (req : Requester) (u : CaptId) (s : State) : ResKeeps kb ke s (execArm req u s) := by
  have h := State.fresh_keeps (Keeps.refl kb ke s)
  unfold execArm
  with_reducible repeat' first
    | assumption | apply State.fresh_keeps | apply State.busWrite_keeps | apply RunKeeps.ok | apply RunKeeps.error
    | apply ResKeeps.next

theorem execForce_keeps (req : Requester) (u : CaptId) (s : State) : ResKeeps kb ke s (execForce req u s) := by
  have h := State.fresh_keeps (Keeps.refl kb ke s)
  unfold execForce
  with_reducible repeat' first
    | assumption | apply State.fresh_keeps | apply State.busWrite_keeps | apply RunKeeps.ok | apply RunKeeps.error
    | apply ResKeeps.next

theorem execAbort_keeps (req : Requester) (u : CaptId) (s : State) : ResKeeps kb ke s (execAbort req u s) := by
  have h := State.fresh_keeps (Keeps.refl kb ke s)
  unfold execAbort
  with_reducible repeat' first
    | assumption | apply State.fresh_keeps | apply State.busWrite_keeps | apply RunKeeps.ok | apply RunKeeps.error
    | apply ResKeeps.next

theorem execMtrElRead_keeps (req : Requester) (j : EnergyId) (s : State) : ResKeeps kb ke s (execMtrElRead req j s) := by
  have h := State.fresh_keeps (Keeps.refl kb ke s)
  unfold execMtrElRead
  with_reducible repeat' first
    | assumption | apply State.fresh_keeps | apply State.busRead_keeps | apply RunKeeps.ok | apply RunKeeps.error
    | apply ResKeeps.next

theorem execPinHoldWrite_keeps (req : Requester) (value : Word) (s : State) : ResKeeps kb ke s (execPinHoldWrite req value s) := by
  have h := State.fresh_keeps (Keeps.refl kb ke s)
  unfold execPinHoldWrite
  with_reducible repeat' first
    | assumption | apply State.fresh_keeps | apply State.busWrite_keeps | apply RunKeeps.ok | apply RunKeeps.error
    | apply ResKeeps.next

theorem execHistlRead_keeps (req : Requester) (k : HistId) (s : State) : ResKeeps kb ke s (execHistlRead req k s) := by
  have h := State.fresh_keeps (Keeps.refl kb ke s)
  unfold execHistlRead
  with_reducible repeat' first
    | assumption | apply State.fresh_keeps | apply State.busRead_keeps | apply RunKeeps.ok | apply RunKeeps.error
    | apply ResKeeps.next

theorem execSwset_keeps (req : Requester) (value : Word) (s : State) : ResKeeps kb ke s (execSwset req value s) := by
  have h := State.fresh_keeps (Keeps.refl kb ke s)
  unfold execSwset
  with_reducible repeat' first
    | assumption | apply State.fresh_keeps | apply State.busWrite_keeps | apply RunKeeps.ok | apply RunKeeps.error
    | apply ResKeeps.next

theorem execSelfFaultClear_keeps (req : Requester) (s : State) : ResKeeps kb ke s (execSelfFaultClear req s) := by
  have h := State.fresh_keeps (Keeps.refl kb ke s)
  unfold execSelfFaultClear
  with_reducible repeat' first
    | assumption | apply State.fresh_keeps | apply State.busWrite_keeps | apply RunKeeps.ok | apply RunKeeps.error
    | apply ResKeeps.next

theorem execMemModeWrite_keeps (req : Requester) (value : Word) (s : State) : ResKeeps kb ke s (execMemModeWrite req value s) := by
  have h := State.fresh_keeps (Keeps.refl kb ke s)
  unfold execMemModeWrite
  with_reducible repeat' first
    | assumption | apply State.fresh_keeps | apply State.busWrite_keeps | apply RunKeeps.ok | apply RunKeeps.error
    | apply ResKeeps.next

theorem execThermLimitWrite_keeps (req : Requester) (value : Word) (s : State) : ResKeeps kb ke s (execThermLimitWrite req value s) := by
  have h := State.fresh_keeps (Keeps.refl kb ke s)
  unfold execThermLimitWrite
  with_reducible repeat' first
    | assumption | apply State.fresh_keeps | apply State.busWrite_keeps | apply RunKeeps.ok | apply RunKeeps.error
    | apply ResKeeps.next

theorem execPwmPeriodStart_keeps (s : State) : ResKeeps kb ke s (execPwmPeriodStart s) := by
  have h := State.fresh_keeps (Keeps.refl kb ke s)
  unfold execPwmPeriodStart
  with_reducible repeat' first
    | assumption | apply State.advanceTo_keeps | apply State.each_keeps | apply State.setWord_keeps
    | apply State.fresh_keeps | apply State.applyLiveBlock_keeps | apply State.legPeriod_keeps
    | apply State.takeEntry_keeps | apply State.takesUpTo_keeps | apply RunKeeps.ok | apply RunKeeps.error
    | apply ResKeeps.next | apply State.each_keeps | (intro _; skip)
    | (extract_lets +onlyGivenNames xq; refine (fun (hx : Keeps kb ke s xq) => ?_) ?_; rotate_left; dsimp -zeta only [xq]; rotate_left; clear_value xq)
    | (extract_lets +onlyGivenNames xq; (have hq : xq = xq := by (dsimp -zeta only [xq])); clear hq; clear_value xq)
    | refine ResKeeps.ite (fun _ => ?_) (fun _ => ?_) | refine Keeps.ite (fun _ => ?_) (fun _ => ?_) | split
    | exact Keeps.upd (by assumption)

end Sys2Proof.Machine
end

