-- ==== Sys2Proof/Laws/KeepsHost.lean ====
section
/-!
SUPPORT. What every operation keeps (`Keeps`): the host protocol, field update and the idle step.
-/

namespace Sys2Proof.Machine

set_option linter.unusedVariables false

variable {kb ke : Bool} {u0 s : State}

theorem State.answer_keeps (h : Keeps kb ke u0 s) (q : Dgram) (r : Reply) : Keeps kb ke u0 (State.answer s q r) := by
  unfold State.answer
  with_reducible repeat' first
    | assumption | apply State.modHost_keeps | apply State.emit_keeps | (intro _; skip)
    | exact Keeps.upd (by assumption)

theorem State.authFail_keeps (h : Keeps kb ke u0 s) (h : HostPort) : Keeps kb ke u0 (State.authFail s h) := by
  unfold State.authFail
  with_reducible repeat' first
    | assumption | apply State.finc_keeps | apply State.fsetBit_keeps | apply State.raise_keeps

theorem State.replayFail_keeps (h : Keeps kb ke u0 s) (h : HostPort) : Keeps kb ke u0 (State.replayFail s h) := by
  unfold State.replayFail
  with_reducible repeat' first
    | assumption | apply State.finc_keeps | apply State.raise_keeps

theorem State.acceptReq_keeps (h : Keeps kb ke u0 s) (q : Dgram) : Keeps kb ke u0 (State.acceptReq s q) := by
  unfold State.acceptReq
  with_reducible repeat' first
    | assumption | apply State.finc_keeps | apply State.modHost_keeps | (intro _; skip)
    | refine Keeps.ite (fun _ => ?_) (fun _ => ?_) | split | exact Keeps.upd (by assumption)

theorem State.hostCmd_keeps (h : Keeps kb ke u0 s) (q : Dgram) (c : CmdRow) (needs lenOk : Bool) (run : State → Ans)
    (h_run : ∀ t, Keeps kb ke u0 t → Keeps kb ke u0 (run t).1) : Keeps kb ke u0 (s.hostCmd q c needs lenOk run) := by
  unfold State.hostCmd
  refine Keeps.ite (fun _ => h) (fun _ => Keeps.ite (fun _ => State.authFail_keeps h _) (fun _ =>
    Keeps.ite (fun _ => State.replayFail_keeps h _) (fun _ => ?_)))
  have h1 := State.acceptReq_keeps h q
  exact State.answer_keeps (Keeps.iteFst (fun _ => h1) (fun _ => Keeps.iteFst (fun _ => h1) (fun _ => Keeps.iteFst (fun _ => h1)
    (fun _ => Keeps.iteFst (fun _ => h1) (fun _ => h_run _ h1))))) _ _

theorem execAuthFailure_keeps (h : HostPort) (s : State) : ResKeeps kb ke s (execAuthFailure h s) := by
  have h := State.fresh_keeps (Keeps.refl kb ke s)
  unfold execAuthFailure
  with_reducible repeat' first
    | assumption | apply State.fresh_keeps | apply State.authFail_keeps | apply RunKeeps.ok | apply RunKeeps.error
    | apply ResKeeps.next
    | (extract_lets +onlyGivenNames xq; refine (fun (hx : Keeps kb ke s xq) => ?_) ?_; rotate_left; dsimp -zeta only [xq]; rotate_left; clear_value xq)
    | (extract_lets +onlyGivenNames xq; (have hq : xq = xq := by (dsimp -zeta only [xq])); clear hq; clear_value xq)
    | refine ResKeeps.ite (fun _ => ?_) (fun _ => ?_) | refine Keeps.ite (fun _ => ?_) (fun _ => ?_) | split

theorem execReplayReject_keeps (q : Dgram) (sameMac : Bool) (s : State) : ResKeeps kb ke s (execReplayReject q sameMac s) := by
  have h := State.fresh_keeps (Keeps.refl kb ke s)
  unfold execReplayReject
  with_reducible repeat' first
    | assumption | apply State.fresh_keeps | apply State.answer_keeps | apply State.replayFail_keeps
    | apply RunKeeps.ok | apply RunKeeps.error | apply ResKeeps.next
    | (extract_lets +onlyGivenNames xq; refine (fun (hx : Keeps kb ke s xq) => ?_) ?_; rotate_left; dsimp -zeta only [xq]; rotate_left; clear_value xq)
    | (extract_lets +onlyGivenNames xq; (have hq : xq = xq := by (dsimp -zeta only [xq])); clear hq; clear_value xq)
    | refine ResKeeps.ite (fun _ => ?_) (fun _ => ?_) | refine Keeps.ite (fun _ => ?_) (fun _ => ?_) | split
    | exact Keeps.upd (by assumption)

theorem execMalformedDatagram_keeps (_h : HostPort) (s : State) : ResKeeps kb ke s (execMalformedDatagram _h s) := by
  have h := State.fresh_keeps (Keeps.refl kb ke s)
  unfold execMalformedDatagram
  with_reducible repeat' first
    | assumption | apply State.fresh_keeps | apply RunKeeps.ok | apply RunKeeps.error | apply ResKeeps.next

theorem State.openSession_keeps (h : Keeps kb ke u0 s) (q : Dgram) : Keeps kb ke u0 (State.openSession s q) := by
  unfold State.openSession
  with_reducible repeat' first
    | assumption | apply State.fset_keeps | apply State.fsetBit_keeps | apply State.modHost_keeps | (intro _; skip)
    | (extract_lets +onlyGivenNames xq; refine (fun (hx : Keeps kb ke u0 xq) => ?_) ?_; rotate_left; dsimp -zeta only [xq]; rotate_left; clear_value xq)
    | (extract_lets +onlyGivenNames xq; (have hq : xq = xq := by (dsimp -zeta only [xq])); clear hq; clear_value xq)
    | exact Keeps.upd (by assumption)

theorem execHello_keeps (q : Dgram) (s : State) : ResKeeps kb ke s (execHello q s) := by
  have h := State.fresh_keeps (Keeps.refl kb ke s)
  unfold execHello
  with_reducible repeat' first
    | assumption | apply State.fresh_keeps | apply State.hostCmd_keeps | apply State.openSession_keeps
    | apply RunKeeps.ok | apply RunKeeps.error | apply ResKeeps.next | (intro _; skip)
    | refine ResKeeps.ite (fun _ => ?_) (fun _ => ?_) | refine Keeps.ite (fun _ => ?_) (fun _ => ?_) | split

theorem execBye_keeps (q : Dgram) (s : State) : ResKeeps kb ke s (execBye q s) := by
  have h := State.fresh_keeps (Keeps.refl kb ke s)
  unfold execBye
  with_reducible repeat' first
    | assumption | apply State.fresh_keeps | apply State.endSession_keeps | apply State.hostCmd_keeps
    | apply RunKeeps.ok | apply RunKeeps.error | apply ResKeeps.next | (intro _; skip)

theorem State.readRegs_keeps (h : Keeps kb ke u0 s) (req : Requester) (a n : Nat) : Keeps kb ke u0 (s.readRegs req a n).1 := by
  induction n generalizing s a with
  | zero => exact h
  | succ n ih =>
    unfold State.readRegs
    refine Keeps.iteFst (fun _ => h) (fun _ => ?_)
    have hr := State.readReg_keeps h req a
    generalize s.readReg req a = y at hr
    obtain ⟨o, t⟩ := y
    cases o with
    | none => exact hr
    | some v =>
      have hk := ih hr (a + 4)
      dsimp only at hk ⊢
      generalize t.readRegs req (a + 4) n = z at hk
      obtain ⟨t', o'⟩ := z
      cases o' <;> exact hk

theorem readAnswer_keeps (p : State × Except Nat (List Word)) (h : Keeps kb ke u0 p.1) :
    Keeps kb ke u0 (readAnswer p).1 := by
  obtain ⟨t, o⟩ := p
  cases o <;> exact h

theorem execRegRead_keeps (q : Dgram) (addr : Nat) (count : Nat) (s : State) : ResKeeps kb ke s (execRegRead q addr count s) := by
  have h := State.fresh_keeps (Keeps.refl kb ke s)
  unfold execRegRead
  with_reducible repeat' first
    | assumption | apply State.fresh_keeps | apply State.hostCmd_keeps | apply State.readRegs_keeps
    | apply readAnswer_keeps | apply RunKeeps.ok | apply RunKeeps.error | apply ResKeeps.next
    | refine Keeps.ofFst (by assumption) ?_ | refine Keeps.ofSnd (by assumption) ?_ | dsimp only | (intro _; skip)

theorem State.arbWait_keeps (req : Requester) (k : Nat) (h : Keeps kb ke u0 s) (last : Option Nat) : Keeps kb ke u0 (State.arbWait req k s last).1 := by
  induction k generalizing s last with
  | zero => exact h
  | succ k ih =>
    unfold State.arbWait
    refine Keeps.iteFst (fun _ => ?_) (fun _ => h)
    have hr := State.arbStep_keeps h
    generalize s.arbStep = y at hr
    obtain ⟨t, o⟩ := y
    cases o with
    | none => exact hr
    | some r => exact ih hr _

theorem State.hostWrite_keeps (h : Keeps kb ke u0 s) (req : Requester) (a : Nat) (v : Word) : Keeps kb ke u0 (s.hostWrite req a v).1 := by
  unfold State.hostWrite
  have hr := State.writeReg_keeps h req a v
  generalize s.writeReg req a v = y at hr
  obtain ⟨t, w⟩ := y
  cases w with
  | done =>
    dsimp only
    refine Keeps.iteFst (fun _ => ?_) (fun _ => hr)
    have hk := State.arbWait_keeps req (t.sup.arb.length + t.sup.arbNext.length) hr none
    generalize State.arbWait req (t.sup.arb.length + t.sup.arbNext.length) t none = z at hk
    obtain ⟨t', o⟩ := z
    cases o <;> exact hk
  | _ => exact hr

theorem State.writeRegs_keeps (h : Keeps kb ke u0 s) (req : Requester) (done : Nat) (l : List (Nat × Word)) : Keeps kb ke u0 (s.writeRegs req done l).1 := by
  induction l generalizing s done with
  | nil => exact h
  | cons y t ih =>
    obtain ⟨a, v⟩ := y
    unfold State.writeRegs
    have hr := State.hostWrite_keeps h req a v
    generalize s.hostWrite req a v = z at hr
    obtain ⟨t1, w⟩ := z
    cases w with
    | done => exact ih hr _
    | _ => exact hr

theorem execRegWrite_keeps (q : Dgram) (pairs : List (Nat × Word)) (s : State) : ResKeeps kb ke s (execRegWrite q pairs s) := by
  have h := State.fresh_keeps (Keeps.refl kb ke s)
  unfold execRegWrite
  with_reducible repeat' first
    | assumption | apply State.fresh_keeps | apply State.hostCmd_keeps | apply State.writeRegs_keeps
    | apply RunKeeps.ok | apply RunKeeps.error | apply ResKeeps.next | refine Keeps.ofFst (by assumption) ?_
    | refine Keeps.ofSnd (by assumption) ?_ | dsimp only | (intro _; skip)

theorem State.readChunks_keeps (h : Keeps kb ke u0 s) (who : Nat) (l : List (Nat × Nat)) : Keeps kb ke u0 (s.readChunks who l).1 := by
  induction l generalizing s with
  | nil => exact h
  | cons x t ih =>
    obtain ⟨a, n⟩ := x
    unfold State.readChunks
    have hr := State.memRead_keeps h who a n
    generalize s.memRead who a n = y at hr
    obtain ⟨o, t1⟩ := y
    cases o with
    | none => exact hr
    | some v =>
      have hk := ih hr
      dsimp only at hk ⊢
      generalize t1.readChunks who t = z at hk
      obtain ⟨t', o'⟩ := z
      cases o' <;> exact hk

theorem State.writeChunks_keeps (h : Keeps kb ke u0 s) (who : Nat) (bytes : List Byte) (l : List (Nat × Nat)) : Keeps kb ke u0 (s.writeChunks who bytes l).1 := by
  induction l generalizing s bytes with
  | nil => exact h
  | cons x t ih =>
    obtain ⟨a, n⟩ := x
    unfold State.writeChunks
    have hr := State.memWrite_keeps h who a (bytes.take n)
    generalize s.memWrite who a (bytes.take n) = y at hr
    obtain ⟨t1, ok⟩ := y
    cases ok with
    | true => exact ih hr _
    | false => exact hr

theorem execMemRead_keeps (q : Dgram) (addr : Nat) (nbytes : Nat) (s : State) : ResKeeps kb ke s (execMemRead q addr nbytes s) := by
  have h := State.fresh_keeps (Keeps.refl kb ke s)
  unfold execMemRead
  with_reducible repeat' first
    | assumption | apply State.fresh_keeps | apply State.hostCmd_keeps | apply State.readChunks_keeps
    | apply RunKeeps.ok | apply RunKeeps.error | refine RunKeeps.ofOk (by assumption) ?_
    | refine RunKeeps.ofError (by assumption) ?_ | refine RunKeeps.ofErrorPair (by assumption) ?_ | dsimp only
    | apply ResKeeps.next | refine Keeps.ofFst (by assumption) ?_ | refine Keeps.ofSnd (by assumption) ?_
    | dsimp only | (intro _; skip) | split | exact Keeps.upd (by assumption)

theorem execMemWrite_keeps (q : Dgram) (addr : Nat) (data : List Byte) (s : State) : ResKeeps kb ke s (execMemWrite q addr data s) := by
  have h := State.fresh_keeps (Keeps.refl kb ke s)
  unfold execMemWrite
  with_reducible repeat' first
    | assumption | apply State.fresh_keeps | apply State.hostCmd_keeps | apply State.writeChunks_keeps
    | apply RunKeeps.ok | apply RunKeeps.error | apply ResKeeps.next | refine Keeps.ofFst (by assumption) ?_
    | refine Keeps.ofSnd (by assumption) ?_ | dsimp only | (intro _; skip)
    | refine ResKeeps.ite (fun _ => ?_) (fun _ => ?_) | refine Keeps.ite (fun _ => ?_) (fun _ => ?_) | split
    | exact Keeps.upd (by assumption)

theorem State.loadWords_keeps (h : Keeps kb ke u0 s) (req : Requester) (n : CoreId) (l : List Word) : Keeps kb ke u0 (s.loadWords req n l).1 := by
  induction l generalizing s with
  | nil => exact h
  | cons v t ih =>
    unfold State.loadWords
    have hr := State.writeReg_keeps h req (A.CORE_LDATA n) v
    generalize s.writeReg req (A.CORE_LDATA n) v = y at hr
    obtain ⟨t1, w⟩ := y
    cases w with
    | done => exact ih hr
    | _ => exact hr

theorem execCoreLoad_keeps (q : Dgram) (core : BitVec 8) (sel : BitVec 8) (word : Nat) (words : List Word) (s : State) : ResKeeps kb ke s (execCoreLoad q core sel word words s) := by
  have h := State.fresh_keeps (Keeps.refl kb ke s)
  unfold execCoreLoad
  with_reducible repeat' first
    | assumption | apply State.fresh_keeps | apply State.writeReg_keeps | apply State.hostCmd_keeps
    | apply State.loadWords_keeps | apply RunKeeps.ok | apply RunKeeps.error | apply ResKeeps.next
    | refine Keeps.ofFst (by assumption) ?_ | refine Keeps.ofSnd (by assumption) ?_ | dsimp only | (intro _; skip)
    | (extract_lets +onlyGivenNames xq; refine (fun (hx : Keeps kb ke s xq) => ?_) ?_; rotate_left; dsimp -zeta only [xq]; rotate_left; clear_value xq)
    | (extract_lets +onlyGivenNames xq; (have hq : xq = xq := by (dsimp -zeta only [xq])); clear hq; clear_value xq)
    | refine ResKeeps.ite (fun _ => ?_) (fun _ => ?_) | refine Keeps.ite (fun _ => ?_) (fun _ => ?_) | split
    | exact Keeps.upd (by assumption)

theorem State.onTake_keeps (h : Keeps kb ke u0 s) (q : Dgram) (handle : BitVec 8) (ok : Nat → Bool) (f : HandleId → State → State) (h_f : ∀ x0 x1, Keeps kb ke u0 x1 → Keeps kb ke u0 (f x0 x1)) : Keeps kb ke u0 (State.onTake s q handle ok f).1 := by
  unfold State.onTake
  with_reducible repeat' first
    | assumption | apply h_f | refine Keeps.ofFst (by assumption) ?_ | refine Keeps.ofSnd (by assumption) ?_
    | dsimp only
    | (extract_lets +onlyGivenNames xq; refine (fun (hx : Keeps kb ke u0 xq) => ?_) ?_; rotate_left; dsimp -zeta only [xq]; rotate_left; clear_value xq)
    | (extract_lets +onlyGivenNames xq; (have hq : xq = xq := by (dsimp -zeta only [xq])); clear hq; clear_value xq)
    | refine Keeps.iteFst (fun _ => ?_) (fun _ => ?_) | refine Keeps.ite (fun _ => ?_) (fun _ => ?_) | split

theorem execTkOpenCommand_keeps (q : Dgram) (s : State) : ResKeeps kb ke s (execTkOpenCommand q s) := by
  have h := State.fresh_keeps (Keeps.refl kb ke s)
  unfold execTkOpenCommand
  with_reducible repeat' first
    | assumption | apply State.fresh_keeps | apply State.openTake_keeps | apply State.hostCmd_keeps
    | apply RunKeeps.ok | apply RunKeeps.error | apply ResKeeps.next | refine Keeps.ofFst (by assumption) ?_
    | refine Keeps.ofSnd (by assumption) ?_ | dsimp only | (intro _; skip)
    | refine ResKeeps.ite (fun _ => ?_) (fun _ => ?_) | refine Keeps.ite (fun _ => ?_) (fun _ => ?_) | split
    | exact Keeps.upd (by assumption)

theorem State.takePairs_keeps (h : Keeps kb ke u0 s) (x : HandleId) (l : List (Nat × Word)) : Keeps kb ke u0 (s.takePairs x l) := by
  induction l generalizing s with
  | nil => exact h
  | cons y t ih =>
    obtain ⟨a, v⟩ := y
    unfold State.takePairs
    have hr := State.writeTake_keeps h x a v
    generalize s.writeTake x a v = z at hr
    obtain ⟨t1, ok⟩ := z
    cases ok with
    | true => exact ih hr
    | false => exact hr

theorem execTkWrCommand_keeps (q : Dgram) (handle : BitVec 8) (pairs : List (Nat × Word)) (s : State) : ResKeeps kb ke s (execTkWrCommand q handle pairs s) := by
  have h := State.fresh_keeps (Keeps.refl kb ke s)
  unfold execTkWrCommand
  with_reducible repeat' first
    | assumption | apply State.fresh_keeps | apply State.hostCmd_keeps | apply State.onTake_keeps
    | apply State.takePairs_keeps | apply RunKeeps.ok | apply RunKeeps.error | apply ResKeeps.next
    | refine Keeps.ofFst (by assumption) ?_ | refine Keeps.ofSnd (by assumption) ?_ | dsimp only | (intro _; skip)

theorem execTkPrintCommand_keeps (q : Dgram) (handle : BitVec 8) (bnd : BitVec 8) (instant : BitVec 48) (s : State) : ResKeeps kb ke s (execTkPrintCommand q handle bnd instant s) := by
  have h := State.fresh_keeps (Keeps.refl kb ke s)
  unfold execTkPrintCommand
  with_reducible repeat' first
    | assumption | apply State.fresh_keeps | apply State.cutTake_keeps | apply State.printTake_keeps
    | apply State.hostCmd_keeps | apply State.onTake_keeps | apply RunKeeps.ok | apply RunKeeps.error
    | apply ResKeeps.next | refine Keeps.ofFst (by assumption) ?_ | refine Keeps.ofSnd (by assumption) ?_
    | dsimp only | (intro _; skip) | refine ResKeeps.ite (fun _ => ?_) (fun _ => ?_)
    | refine Keeps.ite (fun _ => ?_) (fun _ => ?_) | split

theorem execTkCutCommand_keeps (q : Dgram) (handle : BitVec 8) (s : State) : ResKeeps kb ke s (execTkCutCommand q handle s) := by
  have h := State.fresh_keeps (Keeps.refl kb ke s)
  unfold execTkCutCommand
  with_reducible repeat' first
    | assumption | apply State.fresh_keeps | apply State.cutTake_keeps | apply State.hostCmd_keeps
    | apply State.onTake_keeps | apply RunKeeps.ok | apply RunKeeps.error | apply ResKeeps.next
    | refine Keeps.ofFst (by assumption) ?_ | refine Keeps.ofSnd (by assumption) ?_ | dsimp only | (intro _; skip)

theorem execTkStatCommand_keeps (q : Dgram) (handle : BitVec 8) (s : State) : ResKeeps kb ke s (execTkStatCommand q handle s) := by
  have h := State.fresh_keeps (Keeps.refl kb ke s)
  unfold execTkStatCommand
  with_reducible repeat' first
    | assumption | apply State.fresh_keeps | apply State.hostCmd_keeps | apply RunKeeps.ok | apply RunKeeps.error
    | apply ResKeeps.next | (intro _; skip) | refine ResKeeps.ite (fun _ => ?_) (fun _ => ?_)
    | refine Keeps.ite (fun _ => ?_) (fun _ => ?_) | split

theorem execUnknownCommand_keeps (q : Dgram) (cmd : BitVec 8) (s : State) : ResKeeps kb ke s (execUnknownCommand q cmd s) := by
  have h := State.fresh_keeps (Keeps.refl kb ke s)
  unfold execUnknownCommand
  with_reducible repeat' first
    | assumption | apply State.fresh_keeps | apply State.hostCmd_keeps | apply RunKeeps.ok | apply RunKeeps.error
    | apply ResKeeps.next | (intro _; skip)

theorem execSessionTimeout_keeps (h : HostPort) (s : State) : ResKeeps kb ke s (execSessionTimeout h s) := by
  have h := State.fresh_keeps (Keeps.refl kb ke s)
  unfold execSessionTimeout
  with_reducible repeat' first
    | assumption | apply State.advanceTo_keeps | apply State.fresh_keeps | apply State.endSession_keeps
    | apply RunKeeps.ok | apply RunKeeps.error | apply ResKeeps.next
    | (extract_lets +onlyGivenNames xq; refine (fun (hx : Keeps kb ke s xq) => ?_) ?_; rotate_left; dsimp -zeta only [xq]; rotate_left; clear_value xq)
    | (extract_lets +onlyGivenNames xq; (have hq : xq = xq := by (dsimp -zeta only [xq])); clear hq; clear_value xq)
    | refine ResKeeps.ite (fun _ => ?_) (fun _ => ?_) | refine Keeps.ite (fun _ => ?_) (fun _ => ?_) | split

theorem execHostLinkDown_keeps (h : HostPort) (s : State) : ResKeeps kb ke s (execHostLinkDown h s) := by
  have h := State.fresh_keeps (Keeps.refl kb ke s)
  unfold execHostLinkDown
  with_reducible repeat' first
    | assumption | apply State.fclrBit_keeps | apply State.fresh_keeps | apply State.abandonTakes_keeps
    | apply State.toHoldover_keeps | apply State.endSession_keeps | apply State.hostLinkCond_keeps
    | apply RunKeeps.ok | apply RunKeeps.error | apply ResKeeps.next
    | (extract_lets +onlyGivenNames xq; refine (fun (hx : Keeps kb ke s xq) => ?_) ?_; rotate_left; dsimp -zeta only [xq]; rotate_left; clear_value xq)
    | (extract_lets +onlyGivenNames xq; (have hq : xq = xq := by (dsimp -zeta only [xq])); clear hq; clear_value xq)
    | refine ResKeeps.ite (fun _ => ?_) (fun _ => ?_) | refine Keeps.ite (fun _ => ?_) (fun _ => ?_) | split

theorem execHostLinkUp_keeps (h : HostPort) (s : State) : ResKeeps kb ke s (execHostLinkUp h s) := by
  have h := State.fresh_keeps (Keeps.refl kb ke s)
  unfold execHostLinkUp
  with_reducible repeat' first
    | assumption | apply State.fsetBit_keeps | apply State.fresh_keeps | apply State.hostLinkCond_keeps
    | apply RunKeeps.ok | apply RunKeeps.error | apply ResKeeps.next
    | (extract_lets +onlyGivenNames xq; refine (fun (hx : Keeps kb ke s xq) => ?_) ?_; rotate_left; dsimp -zeta only [xq]; rotate_left; clear_value xq)
    | (extract_lets +onlyGivenNames xq; (have hq : xq = xq := by (dsimp -zeta only [xq])); clear hq; clear_value xq)
    | refine ResKeeps.ite (fun _ => ?_) (fun _ => ?_) | refine Keeps.ite (fun _ => ?_) (fun _ => ?_) | split

theorem State.modUpd_keeps (h : Keeps kb ke u0 s) (f : Upd → Upd) : Keeps kb ke u0 (State.modUpd s f) := by
  unfold State.modUpd
  with_reducible repeat' first
    | assumption | exact Keeps.upd (by assumption)

theorem State.grantLock_keeps (h : Keeps kb ke u0 s) (q : Dgram) (slate : List Byte) : Keeps kb ke u0 (State.grantLock s q slate).1 := by
  unfold State.grantLock
  with_reducible repeat' first
    | assumption | apply State.fset_keeps | apply State.updAxis_keeps | apply State.modUpd_keeps
    | refine Keeps.ofFst (by assumption) ?_ | refine Keeps.ofSnd (by assumption) ?_ | dsimp only | (intro _; skip)
    | (extract_lets +onlyGivenNames xq; refine (fun (hx : Keeps kb ke u0 xq) => ?_) ?_; rotate_left; dsimp -zeta only [xq]; rotate_left; clear_value xq)
    | (extract_lets +onlyGivenNames xq; (have hq : xq = xq := by (dsimp -zeta only [xq])); clear hq; clear_value xq)
    | refine Keeps.iteFst (fun _ => ?_) (fun _ => ?_) | refine Keeps.ite (fun _ => ?_) (fun _ => ?_) | split
    | exact Keeps.upd (by assumption)

theorem execUpdOpen_keeps (q : Dgram) (slate : List Byte) (s : State) : ResKeeps kb ke s (execUpdOpen q slate s) := by
  have h := State.fresh_keeps (Keeps.refl kb ke s)
  unfold execUpdOpen
  with_reducible repeat' first
    | assumption | apply State.fresh_keeps | apply State.refuse_keeps | apply State.hostCmd_keeps
    | apply State.grantLock_keeps | apply RunKeeps.ok | apply RunKeeps.error | apply ResKeeps.next
    | refine Keeps.ofFst (by assumption) ?_ | refine Keeps.ofSnd (by assumption) ?_ | dsimp only | (intro _; skip)
    | refine ResKeeps.ite (fun _ => ?_) (fun _ => ?_) | refine Keeps.ite (fun _ => ?_) (fun _ => ?_) | split
    | exact Keeps.upd (by assumption)

theorem State.beginBody_keeps (h : Keeps kb ke u0 s) (q : Dgram) : Keeps kb ke u0 (State.beginBody s q) := by
  unfold State.beginBody
  with_reducible repeat' first
    | assumption | apply State.fset_keeps | apply State.logHigh_keeps | apply State.memStore_keeps
    | apply State.writeSl_keeps | apply State.modUpd_keeps | refine Keeps.ofFst (by assumption) ?_
    | refine Keeps.ofSnd (by assumption) ?_ | dsimp only | (intro _; skip)
    | (extract_lets +onlyGivenNames xq; refine (fun (hx : Keeps kb ke u0 xq) => ?_) ?_; rotate_left; dsimp -zeta only [xq]; rotate_left; clear_value xq)
    | (extract_lets +onlyGivenNames xq; (have hq : xq = xq := by (dsimp -zeta only [xq])); clear hq; clear_value xq)
    | exact Keeps.upd (by assumption)

theorem State.writeBody_keeps (h : Keeps kb ke u0 s) (q : Dgram) (offset : Nat) (data : List Byte) : Keeps kb ke u0 (State.writeBody s q offset data).1 := by
  unfold State.writeBody
  with_reducible repeat' first
    | assumption | apply State.fset_keeps | apply State.memStore_keeps | apply State.modUpd_keeps
    | apply State.beginBody_keeps | refine Keeps.ofFst (by assumption) ?_ | refine Keeps.ofSnd (by assumption) ?_
    | dsimp only | (intro _; skip)
    | (extract_lets +onlyGivenNames xq; refine (fun (hx : Keeps kb ke u0 xq) => ?_) ?_; rotate_left; dsimp -zeta only [xq]; rotate_left; clear_value xq)
    | (extract_lets +onlyGivenNames xq; (have hq : xq = xq := by (dsimp -zeta only [xq])); clear hq; clear_value xq)
    | refine Keeps.iteFst (fun _ => ?_) (fun _ => ?_) | refine Keeps.ite (fun _ => ?_) (fun _ => ?_) | split
    | exact Keeps.upd (by assumption)

theorem execUpdBlock_keeps (q : Dgram) (offset : Nat) (data : List Byte) (s : State) : ResKeeps kb ke s (execUpdBlock q offset data s) := by
  have h := State.fresh_keeps (Keeps.refl kb ke s)
  unfold execUpdBlock
  with_reducible repeat' first
    | assumption | apply State.fresh_keeps | apply State.hostCmd_keeps | apply State.writeBody_keeps
    | apply RunKeeps.ok | apply RunKeeps.error | apply ResKeeps.next | refine Keeps.ofFst (by assumption) ?_
    | refine Keeps.ofSnd (by assumption) ?_ | dsimp only | (intro _; skip)
    | refine ResKeeps.ite (fun _ => ?_) (fun _ => ?_) | refine Keeps.ite (fun _ => ?_) (fun _ => ?_) | split

theorem State.bodyDigestOk_keeps (h : Keeps kb ke u0 s) (slate : List Byte) : Keeps kb ke u0 (State.bodyDigestOk s slate).2 := by
  unfold State.bodyDigestOk
  with_reducible repeat' first
    | assumption | apply State.memRead_keeps | refine Keeps.ofFst (by assumption) ?_
    | refine Keeps.ofSnd (by assumption) ?_ | dsimp only | split | exact Keeps.upd (by assumption)

theorem execUpdVerify_keeps (q : Dgram) (s : State) : ResKeeps kb ke s (execUpdVerify q s) := by
  have h := State.fresh_keeps (Keeps.refl kb ke s)
  unfold execUpdVerify
  with_reducible repeat' first
    | assumption | apply State.fset_keeps | apply State.fresh_keeps | apply State.raise_keeps
    | apply State.hostCmd_keeps | apply State.bodyDigestOk_keeps | apply RunKeeps.ok | apply RunKeeps.error
    | apply ResKeeps.next | refine Keeps.ofFst (by assumption) ?_ | refine Keeps.ofSnd (by assumption) ?_
    | dsimp only | (intro _; skip) | refine ResKeeps.ite (fun _ => ?_) (fun _ => ?_)
    | refine Keeps.ite (fun _ => ?_) (fun _ => ?_) | split | exact Keeps.upd (by assumption)

theorem execUpdActivate_keeps (q : Dgram) (s : State) : ResKeeps kb ke s (execUpdActivate q s) := by
  have h := State.fresh_keeps (Keeps.refl kb ke s)
  unfold execUpdActivate
  with_reducible repeat' first
    | assumption | apply State.fresh_keeps | apply State.logHigh_keeps | apply State.updEnd_keeps
    | apply State.writeSl_keeps | apply State.hostCmd_keeps | apply State.modUpd_keeps | apply RunKeeps.ok
    | apply RunKeeps.error | apply ResKeeps.next | (intro _; skip)
    | (extract_lets +onlyGivenNames xq; refine (fun (hx : Keeps kb ke s xq) => ?_) ?_; rotate_left; dsimp -zeta only [xq]; rotate_left; clear_value xq)
    | (extract_lets +onlyGivenNames xq; (have hq : xq = xq := by (dsimp -zeta only [xq])); clear hq; clear_value xq)
    | refine ResKeeps.ite (fun _ => ?_) (fun _ => ?_) | refine Keeps.ite (fun _ => ?_) (fun _ => ?_) | split
    | exact Keeps.upd (by assumption)

theorem State.restartModule_keeps (h : Keeps kb ke u0 s) : Keeps kb ke u0 (State.restartModule s) := by
  unfold State.restartModule
  with_reducible repeat' first
    | assumption | apply State.each_keeps | apply State.fset_keeps | apply State.powerUp_keeps
    | apply State.powerOffAll_keeps | apply State.each_keeps | (intro _; skip)
    | (extract_lets +onlyGivenNames xq; refine (fun (hx : Keeps kb ke u0 xq) => ?_) ?_; rotate_left; dsimp -zeta only [xq]; rotate_left; clear_value xq)
    | (extract_lets +onlyGivenNames xq; (have hq : xq = xq := by (dsimp -zeta only [xq])); clear hq; clear_value xq)

theorem execActivationRestart_keeps (s : State) : ResKeeps kb ke s (execActivationRestart s) := by
  have h := State.fresh_keeps (Keeps.refl kb ke s)
  unfold execActivationRestart
  with_reducible repeat' first
    | assumption | apply State.fresh_keeps | apply State.restartModule_keeps | apply RunKeeps.ok
    | apply RunKeeps.error | apply ResKeeps.next
    | (extract_lets +onlyGivenNames xq; refine (fun (hx : Keeps kb ke s xq) => ?_) ?_; rotate_left; dsimp -zeta only [xq]; rotate_left; clear_value xq)
    | (extract_lets +onlyGivenNames xq; (have hq : xq = xq := by (dsimp -zeta only [xq])); clear hq; clear_value xq)
    | refine ResKeeps.ite (fun _ => ?_) (fun _ => ?_) | refine Keeps.ite (fun _ => ?_) (fun _ => ?_) | split

theorem State.storedVersion_keeps (h : Keeps kb ke u0 s) : Keeps kb ke u0 (State.storedVersion s).2 := by
  unfold State.storedVersion
  with_reducible repeat' first
    | assumption | apply State.memRead_keeps | refine Keeps.ofFst (by assumption) ?_
    | refine Keeps.ofSnd (by assumption) ?_ | dsimp only | split | exact Keeps.upd (by assumption)

theorem State.logVersion_keeps (h : Keeps kb ke u0 s) (kind : BitVec 8) : Keeps kb ke u0 (State.logVersion s kind) := by
  unfold State.logVersion
  with_reducible repeat' first
    | assumption | apply State.logHigh_keeps | apply State.storedVersion_keeps
    | refine Keeps.ofFst (by assumption) ?_ | refine Keeps.ofSnd (by assumption) ?_ | dsimp only

theorem execUpdConfirm_keeps (q : Dgram) (s : State) : ResKeeps kb ke s (execUpdConfirm q s) := by
  have h := State.fresh_keeps (Keeps.refl kb ke s)
  unfold execUpdConfirm
  with_reducible repeat' first
    | assumption | apply State.fresh_keeps | apply State.updAxis_keeps | apply State.writeSl_keeps
    | apply State.hostCmd_keeps | apply State.modUpd_keeps | apply State.logVersion_keeps | apply RunKeeps.ok
    | apply RunKeeps.error | apply ResKeeps.next | (intro _; skip)
    | (extract_lets +onlyGivenNames xq; refine (fun (hx : Keeps kb ke s xq) => ?_) ?_; rotate_left; dsimp -zeta only [xq]; rotate_left; clear_value xq)
    | (extract_lets +onlyGivenNames xq; (have hq : xq = xq := by (dsimp -zeta only [xq])); clear hq; clear_value xq)
    | refine ResKeeps.ite (fun _ => ?_) (fun _ => ?_) | refine Keeps.ite (fun _ => ?_) (fun _ => ?_) | split
    | exact Keeps.upd (by assumption)

theorem execUpdClose_keeps (q : Dgram) (s : State) : ResKeeps kb ke s (execUpdClose q s) := by
  have h := State.fresh_keeps (Keeps.refl kb ke s)
  unfold execUpdClose
  with_reducible repeat' first
    | assumption | apply State.fresh_keeps | apply State.updEnd_keeps | apply State.hostCmd_keeps
    | apply RunKeeps.ok | apply RunKeeps.error | apply ResKeeps.next | (intro _; skip)
    | refine ResKeeps.ite (fun _ => ?_) (fun _ => ?_) | refine Keeps.ite (fun _ => ?_) (fun _ => ?_) | split

theorem execUpdLapse_keeps (s : State) : ResKeeps kb ke s (execUpdLapse s) := by
  have h := State.fresh_keeps (Keeps.refl kb ke s)
  unfold execUpdLapse
  with_reducible repeat' first
    | assumption | apply State.advanceTo_keeps | apply State.fresh_keeps | apply State.raise_keeps
    | apply State.logHigh_keeps | apply State.updEnd_keeps | apply RunKeeps.ok | apply RunKeeps.error
    | apply ResKeeps.next
    | (extract_lets +onlyGivenNames xq; refine (fun (hx : Keeps kb ke s xq) => ?_) ?_; rotate_left; dsimp -zeta only [xq]; rotate_left; clear_value xq)
    | (extract_lets +onlyGivenNames xq; (have hq : xq = xq := by (dsimp -zeta only [xq])); clear hq; clear_value xq)
    | refine ResKeeps.ite (fun _ => ?_) (fun _ => ?_) | refine Keeps.ite (fun _ => ?_) (fun _ => ?_) | split
    | exact Keeps.upd (by assumption)

theorem execUpdUnconf_keeps (s : State) : ResKeeps kb ke s (execUpdUnconf s) := by
  have h := State.fresh_keeps (Keeps.refl kb ke s)
  unfold execUpdUnconf
  with_reducible repeat' first
    | assumption | apply State.advanceTo_keeps | apply State.fresh_keeps | apply State.raise_keeps
    | apply State.restartModule_keeps | apply RunKeeps.ok | apply RunKeeps.error | apply ResKeeps.next
    | (extract_lets +onlyGivenNames xq; refine (fun (hx : Keeps kb ke s xq) => ?_) ?_; rotate_left; dsimp -zeta only [xq]; rotate_left; clear_value xq)
    | (extract_lets +onlyGivenNames xq; (have hq : xq = xq := by (dsimp -zeta only [xq])); clear hq; clear_value xq)
    | refine ResKeeps.ite (fun _ => ?_) (fun _ => ?_) | refine Keeps.ite (fun _ => ?_) (fun _ => ?_) | split
    | exact Keeps.upd (by assumption)

theorem State.loaderStay_keeps (h : Keeps kb ke u0 s) : Keeps kb ke u0 (State.loaderStay s) := by
  unfold State.loaderStay
  with_reducible repeat' first
    | assumption | exact Keeps.upd (by assumption)

theorem State.startImage_keeps (h : Keeps kb ke u0 s) (slate : List Byte) (unconfirmed : Bool) : Keeps kb ke u0 (State.startImage s slate unconfirmed) := by
  unfold State.startImage
  with_reducible repeat' first
    | assumption | apply State.fset_keeps | apply State.updAxis_keeps | apply State.modUpd_keeps | (intro _; skip)
    | (extract_lets +onlyGivenNames xq; refine (fun (hx : Keeps kb ke u0 xq) => ?_) ?_; rotate_left; dsimp -zeta only [xq]; rotate_left; clear_value xq)
    | (extract_lets +onlyGivenNames xq; (have hq : xq = xq := by (dsimp -zeta only [xq])); clear hq; clear_value xq)
    | refine Keeps.ite (fun _ => ?_) (fun _ => ?_) | split | exact Keeps.upd (by assumption)

theorem State.checkImage_keeps (h : Keeps kb ke u0 s) : Keeps kb ke u0 (State.checkImage s).2 := by
  unfold State.checkImage
  with_reducible repeat' first
    | assumption | apply State.memRead_keeps | apply State.bodyDigestOk_keeps
    | refine Keeps.ofFst (by assumption) ?_ | refine Keeps.ofSnd (by assumption) ?_ | dsimp only
    | (extract_lets +onlyGivenNames xq; refine (fun (hx : Keeps kb ke u0 xq) => ?_) ?_; rotate_left; dsimp -zeta only [xq]; rotate_left; clear_value xq)
    | (extract_lets +onlyGivenNames xq; (have hq : xq = xq := by (dsimp -zeta only [xq])); clear hq; clear_value xq)
    | refine Keeps.iteFst (fun _ => ?_) (fun _ => ?_) | refine Keeps.ite (fun _ => ?_) (fun _ => ?_) | split
    | exact Keeps.upd (by assumption)

theorem execLoaderStart_keeps (s : State) : ResKeeps kb ke s (execLoaderStart s) := by
  have h := State.fresh_keeps (Keeps.refl kb ke s)
  unfold execLoaderStart
  with_reducible repeat' first
    | assumption | apply State.fset_keeps | apply State.fresh_keeps | apply State.raise_keeps
    | apply State.slState_keeps | apply State.showSl_keeps | apply State.writeSl_keeps
    | apply State.storedVersion_keeps | apply State.logVersion_keeps | apply State.loaderStay_keeps
    | apply State.startImage_keeps | apply State.checkImage_keeps | apply RunKeeps.ok | apply RunKeeps.error
    | apply ResKeeps.next | refine Keeps.ofFst (by assumption) ?_ | refine Keeps.ofSnd (by assumption) ?_
    | dsimp only
    | (extract_lets +onlyGivenNames xq; refine (fun (hx : Keeps kb ke s xq) => ?_) ?_; rotate_left; dsimp -zeta only [xq]; rotate_left; clear_value xq)
    | (extract_lets +onlyGivenNames xq; (have hq : xq = xq := by (dsimp -zeta only [xq])); clear hq; clear_value xq)
    | refine ResKeeps.ite (fun _ => ?_) (fun _ => ?_) | refine Keeps.ite (fun _ => ?_) (fun _ => ?_) | split
    | exact Keeps.upd (by assumption)

theorem execSafeLoad_keeps {ke : Bool} (q : Dgram) (set : List Byte) (s : State) : ResKeeps false ke s (execSafeLoad q set s) := by
  have h := State.fresh_keeps (Keeps.refl false ke s)
  unfold execSafeLoad
  with_reducible repeat' first
    | assumption | apply State.fresh_keeps | apply State.logHigh_keeps | apply State.safeLoad_keeps
    | apply State.hostCmd_keeps | apply RunKeeps.ok | apply RunKeeps.error | apply ResKeeps.next
    | refine Keeps.ofFst (by assumption) ?_ | refine Keeps.ofSnd (by assumption) ?_ | dsimp only | (intro _; skip)
    | refine ResKeeps.ite (fun _ => ?_) (fun _ => ?_) | refine Keeps.ite (fun _ => ?_) (fun _ => ?_) | split
    | exact Keeps.upd (by assumption)

theorem execSafeConfirm_keeps {ke : Bool} (q : Dgram) (check : Word) (s : State) : ResKeeps false ke s (execSafeConfirm q check s) := by
  have h := State.fresh_keeps (Keeps.refl false ke s)
  unfold execSafeConfirm
  with_reducible repeat' first
    | assumption | apply State.fresh_keeps | apply State.logHigh_keeps | apply State.safeConfirm_keeps
    | apply State.hostCmd_keeps | apply RunKeeps.ok | apply RunKeeps.error | apply ResKeeps.next
    | refine Keeps.ofFst (by assumption) ?_ | refine Keeps.ofSnd (by assumption) ?_ | dsimp only | (intro _; skip)
    | split | exact Keeps.upd (by assumption)

theorem State.setKey_keeps (h : Keeps kb ke u0 s) (h : HostPort) (key : Option (List Byte)) : Keeps kb ke u0 (State.setKey s h key) := by
  unfold State.setKey
  with_reducible repeat' first
    | assumption | apply State.modHost_keeps | (intro _; skip) | exact Keeps.upd (by assumption)

theorem State.keyChanged_keeps (h : Keeps kb ke u0 s) (port : Nat) (init : Bool) : Keeps kb ke u0 (State.keyChanged s port init) := by
  unfold State.keyChanged
  with_reducible repeat' first
    | assumption | apply State.raise_keeps | apply State.logHigh_keeps

theorem execKeyInit_keeps (q : Dgram) (key : List Byte) (s : State) : ResKeeps kb ke s (execKeyInit q key s) := by
  have h := State.fresh_keeps (Keeps.refl kb ke s)
  unfold execKeyInit
  with_reducible repeat' first
    | assumption | apply State.fresh_keeps | apply State.hostCmd_keeps | apply State.setKey_keeps
    | apply State.keyChanged_keeps | apply RunKeeps.ok | apply RunKeeps.error | apply ResKeeps.next
    | (intro _; skip) | refine ResKeeps.ite (fun _ => ?_) (fun _ => ?_)
    | refine Keeps.ite (fun _ => ?_) (fun _ => ?_) | split

theorem execKeySet_keeps (q : Dgram) (target : BitVec 8) (key : List Byte) (s : State) : ResKeeps kb ke s (execKeySet q target key s) := by
  have h := State.fresh_keeps (Keeps.refl kb ke s)
  unfold execKeySet
  with_reducible repeat' first
    | assumption | apply State.fresh_keeps | apply State.hostCmd_keeps | apply State.setKey_keeps
    | apply State.keyChanged_keeps | apply RunKeeps.ok | apply RunKeeps.error | apply ResKeeps.next
    | (intro _; skip) | refine ResKeeps.ite (fun _ => ?_) (fun _ => ?_)
    | refine Keeps.ite (fun _ => ?_) (fun _ => ?_) | split

theorem State.storeEntry_keeps (h : Keeps kb ke u0 s) (e : Nat) : Keeps kb ke u0 (State.storeEntry s e).2 := by
  unfold State.storeEntry
  with_reducible repeat' first
    | assumption | apply State.memRead_keeps | refine Keeps.ofFst (by assumption) ?_
    | refine Keeps.ofSnd (by assumption) ?_ | dsimp only
    | (extract_lets +onlyGivenNames xq; refine (fun (hx : Keeps kb ke u0 xq) => ?_) ?_; rotate_left; dsimp -zeta only [xq]; rotate_left; clear_value xq)
    | (extract_lets +onlyGivenNames xq; (have hq : xq = xq := by (dsimp -zeta only [xq])); clear hq; clear_value xq)
    | refine Keeps.iteFst (fun _ => ?_) (fun _ => ?_) | refine Keeps.ite (fun _ => ?_) (fun _ => ?_) | split
    | exact Keeps.upd (by assumption)

theorem State.applyPairs_keeps (h : Keeps kb ke u0 s) (l : List (Nat × Word)) : Keeps kb ke u0 (s.applyPairs l).1 := by
  induction l generalizing s with
  | nil => exact h
  | cons y t ih =>
    obtain ⟨a, v⟩ := y
    unfold State.applyPairs
    have hr := State.writeReg_keeps h .unit a v
    generalize s.writeReg .unit a v = z at hr
    obtain ⟨t1, w⟩ := z
    cases w with
    | done => exact ih hr
    | refused _ => exact ih hr
    | _ => exact hr

theorem State.applyLoad_keeps (h : Keeps kb ke u0 s) (e : StoreEntry) : Keeps kb ke u0 (s.applyLoad e).1 := by
  unfold State.applyLoad
  split
  · rename_i hc
    refine Keeps.iteFst (fun _ => ?_) (fun _ => h)
    have hr := State.writeReg_keeps h .unit (A.CORE_LADDR e.core) (BitVec.ofNat 32 ((e.kind - 2) * 2 ^ 31 + 4 * e.target))
    generalize s.writeReg .unit (A.CORE_LADDR e.core) (BitVec.ofNat 32 ((e.kind - 2) * 2 ^ 31 + 4 * e.target)) = z at hr
    obtain ⟨t1, w⟩ := z
    cases w with
    | done => exact State.loadWords_keeps hr _ _ _
    | _ => exact hr
  · exact h

theorem State.applySram_keeps (h : Keeps kb ke u0 s) (e : StoreEntry) : Keeps kb ke u0 (s.applySram e).1 := by
  unfold State.applySram
  refine Keeps.iteFst (fun _ => ?_) (fun _ => h)
  have hr := State.writeChunks_keeps h reqUpd e.data (chunks e.data.length e.target e.data.length)
  generalize s.writeChunks reqUpd e.data (chunks e.data.length e.target e.data.length) = z at hr
  obtain ⟨t1, o⟩ := z
  cases o <;> exact hr

theorem State.applyEntry_keeps (h : Keeps kb ke u0 s) (e : StoreEntry) : Keeps kb ke u0 (s.applyEntry e).1 := by
  unfold State.applyEntry
  refine Keeps.iteFst (fun _ => h) (fun _ => ?_)
  split
  · exact Keeps.iteFst (fun _ => State.applyPairs_keeps h _) (fun _ => h)
  · exact State.applyLoad_keeps h e
  · exact State.applyLoad_keeps h e
  · exact State.applySram_keeps h e
  · exact h

theorem State.applyEntries_keeps (h : Keeps kb ke u0 s) (n : Nat) (l : List Nat) : Keeps kb ke u0 (s.applyEntries n l).1 := by
  induction l generalizing s n with
  | nil => exact h
  | cons e t ih =>
    unfold State.applyEntries
    have hr := State.storeEntry_keeps h e
    generalize s.storeEntry e = z at hr
    obtain ⟨o, t1⟩ := z
    cases o with
    | none => exact hr
    | some x =>
      have hk := State.applyEntry_keeps hr x
      dsimp only at hk ⊢
      generalize t1.applyEntry x = y at hk
      obtain ⟨t2, ok⟩ := y
      cases ok with
      | true => exact ih hk _
      | false => exact hk

theorem State.applyStore_keeps (h : Keeps kb ke u0 s) : Keeps kb ke u0 s.applyStore.1 := by
  unfold State.applyStore
  have hr := State.memRead_keeps h reqUpd storeAddr 16
  generalize s.memRead reqUpd storeAddr 16 = z at hr
  obtain ⟨o, t1⟩ := z
  cases o with
  | none => exact hr
  | some w =>
    dsimp only
    refine Keeps.iteFst (fun _ => hr) (fun _ => Keeps.iteFst (fun _ => ?_) (fun _ => hr))
    have hk := State.memRead_keeps hr reqUpd (storeAddr + 16) (24 * slateField (bytesLE 16 w) 4 4)
    generalize t1.memRead reqUpd (storeAddr + 16) (24 * slateField (bytesLE 16 w) 4 4) = y at hk
    obtain ⟨o', t2⟩ := y
    cases o' with
    | none => exact hk
    | some e => exact Keeps.iteFst (fun _ => State.applyEntries_keeps hk _ _) (fun _ => hk)

theorem execResidentConfigApply_keeps (s : State) : ResKeeps kb ke s (execResidentConfigApply s) := by
  have h := State.fresh_keeps (Keeps.refl kb ke s)
  unfold execResidentConfigApply
  extract_lets +onlyGivenNames t
  have ht : Keeps kb ke s t := h
  clear_value t
  refine ResKeeps.ite (fun _ => ?_) (fun _ => ResKeeps.next ht)
  have hr := State.applyStore_keeps ht
  split
  rename_i t1 n ok hg
  have h1 : Keeps kb ke s t1 := Keeps.ofFst hg hr
  extract_lets q t2 t3
  have h2 : Keeps kb ke s t2 := Keeps.upd h1
  have h3 : Keeps kb ke s t3 := Keeps.ite (fun _ => h2) (fun _ => State.raise_keeps h2 _)
  exact ResKeeps.next (State.logHigh_keeps h3 _ _ _)

theorem State.idle_keeps (s : State) : Keeps kb ke s s.idle := by
  have h := State.fresh_keeps (Keeps.refl kb ke s)
  have h1 : Keeps kb ke s { s.fresh with ticks := s.ticks + idleTicks } :=
    h.trans ⟨rfl, Nat.le_add_right _ _, id, id, fun _ => ⟨rfl, rfl, rfl⟩, fun _ => rfl⟩
  exact State.passed_keeps (State.drainStamps_keeps (Keeps.upd h1)) _ _

end Sys2Proof.Machine
end

