-- ==== Sys2Proof/Laws/Live.lean ====
section
/-!
SUPPORT. What a block's boundary changes: the words of the registers in its range, and the values that waited for it.
-/

namespace Sys2Proof.Machine

set_option linter.all false

theorem State.foldl_setWord_word (f : State → Nat × Word → Word) (l : List (Nat × Word)) (s : State) (a : Nat) (h : ∀ e ∈ l, e.1 ≠ a) :
    (l.foldl (fun s e => s.setWord e.1 (f s e)) s).word a = s.word a := by
  induction l generalizing s with
  | nil => rfl
  | cons e t ih =>
    rw [List.foldl_cons, ih _ (fun x hx => h x (List.mem_cons_of_mem _ hx))]
    exact s.word_setWord_ne _ _ _ (fun e' => h e (List.mem_cons_self) e'.symm)

theorem State.foldl_setWord_rest (f : State → Nat × Word → Word) (l : List (Nat × Word)) (s : State) :
    ∃ r, l.foldl (fun s e => s.setWord e.1 (f s e)) s = { s with regs := r } := by
  induction l generalizing s with
  | nil => exact ⟨s.regs, rfl⟩
  | cons e t ih =>
    rw [List.foldl_cons]
    obtain ⟨r, hr⟩ := ih (s.setWord e.1 (f s e))
    exact ⟨r, by rw [hr]; rfl⟩

/-- A register outside the range reads as before. -/
theorem State.word_applyLive (s : State) (lo hi a : Nat) (h : a < lo ∨ hi ≤ a) : (s.applyLive lo hi).word a = s.word a := by
  unfold State.applyLive
  exact (State.foldl_setWord_word (fun s e => mergeLive e.1 (s.word e.1) e.2) _ _ a (by
    intro e he
    rw [List.mem_filter] at he
    have := he.2
    rw [decide_eq_true_iff] at this
    omega)).trans rfl

theorem State.fget_applyLive (s : State) (lo hi : Nat) (f : Fld) (h : f.addr < lo ∨ hi ≤ f.addr) :
    (s.applyLive lo hi).fget f = s.fget f := by
  unfold State.fget
  rw [s.word_applyLive lo hi _ h]

/-- Nothing but registers and waiting values changes. -/
theorem State.applyLive_rest (s : State) (lo hi : Nat) :
    s.applyLive lo hi = { s with regs := (s.applyLive lo hi).regs, live := (s.applyLive lo hi).live } := by
  unfold State.applyLive
  obtain ⟨r, hr⟩ := State.foldl_setWord_rest (fun s e => mergeLive e.1 (s.word e.1) e.2)
    (s.live.filter fun e => decide (lo ≤ e.1 ∧ e.1 < hi)) { s with live := s.live.filter fun e => !decide (lo ≤ e.1 ∧ e.1 < hi) }
  dsimp only at hr ⊢
  rw [hr]

/-- Where nothing waits in the range, a boundary changes nothing. -/
theorem State.applyLive_none (s : State) (lo hi : Nat) (h : ∀ e ∈ s.live, e.1 < lo ∨ hi ≤ e.1) : s.applyLive lo hi = s := by
  unfold State.applyLive
  have h1 : s.live.filter (fun e => decide (lo ≤ e.1 ∧ e.1 < hi)) = [] := by
    rw [List.filter_eq_nil_iff]
    intro e he
    have := h e he
    rw [decide_eq_true_iff]
    omega
  have h2 : s.live.filter (fun e => !decide (lo ≤ e.1 ∧ e.1 < hi)) = s.live := by
    rw [List.filter_eq_self]
    intro e he
    have := h e he
    rw [Bool.not_eq_true', decide_eq_false_iff_not]
    omega
  rw [h1, h2]
  rfl

end Sys2Proof.Machine
end

