-- ==== Sys2Proof/Laws/Memory.lean ====
section
/-!
SUPPORT. Laws of the module's memory: what an access can change beside memory, and what reads and stores do to words that
pass their checks.
-/

namespace Sys2Proof.Machine

set_option linter.all false

/-- From `s` to `t`: memory, its errors, and what a report of an event can change. -/
structure Touches (s t : State) : Prop where
  word : ∀ a, a < 0x400B0000 ∨ 0x400D0000 < a → t.word a = s.word a
  rest : t =
    { s with regs := t.regs, mem := t.mem, ecc := t.ecc, sup := { s.sup with stop := t.sup.stop }, flt := t.flt, memory := t.memory, host := t.host, tx := t.tx, out := t.out }

variable {u s t : State}

theorem Touches.refl (s : State) : Touches s s := ⟨fun _ _ => rfl, rfl⟩

theorem Touches.trans (h : Touches u s) (k : Touches s t) : Touches u t where
  word := fun a ha => (k.word a ha).trans (h.word a ha)
  rest := by have h2 := h.rest; rw [h2] at k; exact k.rest

theorem Reports.touches (h : Reports s t) : Touches s t := ⟨h.word, by rw [h.rest]⟩

theorem Touches.fget (h : Touches s t) (f : Fld) (hf : f.addr < 0x400B0000 ∨ 0x400D0000 < f.addr) : t.fget f = s.fget f := by
  unfold State.fget
  rw [h.word f.addr hf]

theorem Touches.cores (h : Touches s t) : t.cores = s.cores := by rw [h.rest]
theorem Touches.timer (h : Touches s t) : t.timer = s.timer := by rw [h.rest]
theorem Touches.ticks (h : Touches s t) : t.ticks = s.ticks := by rw [h.rest]
theorem Touches.rings (h : Touches s t) : t.rings = s.rings := by rw [h.rest]
theorem Touches.mtr (h : Touches s t) : t.mtr = s.mtr := by rw [h.rest]
theorem Touches.upd (h : Touches s t) : t.upd = s.upd := by rw [h.rest]
theorem Touches.safe (h : Touches s t) : t.safe = s.safe := by rw [h.rest]
theorem Touches.adc (h : Touches s t) : t.adc = s.adc := by rw [h.rest]
theorem Touches.capt (h : Touches s t) : t.capt = s.capt := by rw [h.rest]
theorem Touches.strm (h : Touches s t) : t.strm = s.strm := by rw [h.rest]
theorem Touches.takes (h : Touches s t) : t.takes = s.takes := by rw [h.rest]

theorem State.recordCe_touches (s : State) (m : MemKind) : Touches s (s.recordCe m) := by
  unfold State.recordCe
  split
  · exact (((Reports.refl s).finc F.MEM_CECNT0_SRAM (by decide) (by decide)).trans (State.raise_reports _ _)).touches
  · exact (((Reports.refl s).finc F.MEM_CECNT1_MRAM (by decide) (by decide)).trans (State.raise_reports _ _)).touches
  · exact (((Reports.refl s).finc F.MEM_CECNT0_DRAM (by decide) (by decide)).trans (State.raise_reports _ _)).touches

theorem State.recordUe_touches (s : State) (m : MemKind) (a who : Nat) : Touches s (s.recordUe m a who) := by
  unfold State.recordUe
  extract_lets s1 s2 s3
  have h1 : Reports s s1 := by
    simp only [s1]
    cases m <;> exact (Reports.refl s).finc _ (by decide) (by decide)
  clear_value s1
  have h2 : Reports s s2 := (((h1.fset F.MEM_STAT_UE _ (by decide) (by decide)).fset F.MEM_UEADDR_ADDR a (by decide) (by decide)).fset
    F.MEM_UESRC_REQ who (by decide) (by decide)).fset F.MEM_UESRC_MEM (memCode m) (by decide) (by decide)
  exact (State.logHigh_reports (h2.trans (State.raise_reports _ _)) _ _ _).touches

theorem State.checkRead_touches (s : State) (m : MemKind) (who w : Nat) : Touches s (s.checkRead m who w).1 := by
  unfold State.checkRead
  split
  · exact Touches.refl s
  · exact Touches.trans (⟨fun _ _ => rfl, rfl⟩ : Touches s { s with memory := { s.memory with wb := if s.memory.wb.contains w then s.memory.wb else s.memory.wb ++ [w] } })
      (State.recordCe_touches _ m)
  · exact s.recordUe_touches m w who

theorem Touches.foldlFst {α β : Type} (l : List α) (f : State × β → α → State × β) (p : State × β)
    (k : ∀ x q, Touches u q.1 → Touches u (f q x).1) (h : Touches u p.1) : Touches u (l.foldl f p).1 := by
  induction l generalizing p with
  | nil => exact h
  | cons x t ih => exact ih (f p x) (k x p h)

theorem State.checkReads_touches (s : State) (m : MemKind) (who : Nat) (ws : List Nat) : Touches s (s.checkReads m who ws).1 :=
  Touches.foldlFst _ _ _ (fun x q hq => hq.trans (q.1.checkRead_touches m who x)) (Touches.refl s)

theorem State.memRead_touches (s : State) (who a n : Nat) : Touches s (s.memRead who a n).2 := by
  unfold State.memRead
  split
  · exact Touches.refl s
  · rename_i m _
    split
    · have h := s.checkReads_touches m who (s.checkWords a n)
      dsimp only
      split <;> exact h
    · exact Touches.refl s

theorem State.checkWrite_touches (s : State) (m : MemKind) (who a n w : Nat) : Touches s (s.checkWrite m who a n w).1 := by
  have upd : ∀ x : State, Touches s x →
      Touches s { x with ecc := eccClear x.ecc w, memory := { x.memory with wb := x.memory.wb.filter (· != w) } } :=
    fun x hx => Touches.trans hx ⟨fun _ _ => rfl, rfl⟩
  unfold State.checkWrite
  dsimp only
  split
  · exact upd s (Touches.refl s)
  · split
    · exact upd s (Touches.refl s)
    · exact upd _ (s.recordCe_touches m)
    · exact s.recordUe_touches m w who

theorem State.poke_rest (s : State) (a : Nat) (l : List Byte) : s.poke a l = { s with mem := (s.poke a l).mem } := by
  induction l generalizing s a with
  | nil => rfl
  | cons b t ih =>
    have h := ih (s.setByte a b) (a + 1)
    unfold State.poke
    rw [h]
    rfl

theorem State.poke_touches (s : State) (a : Nat) (l : List Byte) : Touches s (s.poke a l) := by
  refine ⟨fun b _ => State.word_congr (by rw [State.poke_rest]) b, ?_⟩
  rw [State.poke_rest]

/-- One check word of a store. -/
theorem State.storeWord_touches (m : MemKind) (who a : Nat) (bytes : List Byte) (acc : State × Bool) (w : Nat) :
    Touches acc.1 (State.storeWord m who a bytes acc w).1 := by
  have hc := acc.1.checkWrite_touches m who a bytes.length w
  unfold State.storeWord
  split
  · split
    rename_i t ok e
    rw [e] at hc
    split
    · exact hc.trans (State.poke_touches _ _ _)
    · exact hc
  · exact Touches.refl _

theorem State.memStore_touches (s : State) (who a : Nat) (bytes : List Byte) : Touches s (s.memStore who a bytes).1 := by
  unfold State.memStore
  split
  · exact Touches.refl s
  · split
    · exact Touches.foldlFst _ _ _ (fun w q hq => hq.trans (State.storeWord_touches _ who a bytes q w)) (Touches.refl s)
    · exact Touches.refl s

theorem State.memWrite_touches (s : State) (who a : Nat) (bytes : List Byte) : Touches s (s.memWrite who a bytes).1 := by
  unfold State.memWrite
  split
  · exact s.memStore_touches who a bytes
  · exact Touches.refl s

/-! Bytes. -/

theorem State.byte_setByte (s : State) (a b : Nat) (v : Byte) : (s.setByte a v).byte b = if b = a then v else s.byte b := by
  unfold State.setByte State.byte
  by_cases h : b = a
  · subst h
    rw [if_pos rfl]
    exact sparseGet_set_same _ _ _ _
  · rw [if_neg h]
    exact sparseGet_set_ne _ _ _ _ _ _ h

/-- A byte after a store: one of the bytes stored, or what it was. -/
theorem State.byte_poke (s : State) (a b : Nat) (l : List Byte) :
    (s.poke a l).byte b = if a ≤ b ∧ b < a + l.length then l.getD (b - a) 0 else s.byte b := by
  induction l generalizing s a with
  | nil =>
    have : ¬ (a ≤ b ∧ b < a + ([] : List Byte).length) := by simp
    rw [if_neg this]
    rfl
  | cons v t ih =>
    unfold State.poke
    rw [ih, State.byte_setByte]
    by_cases h1 : b = a
    · subst h1
      have h2 : ¬ (b + 1 ≤ b ∧ b < b + 1 + t.length) := by omega
      rw [if_neg h2]
      simp
    · by_cases h2 : a + 1 ≤ b ∧ b < a + 1 + t.length
      · have h3 : a ≤ b ∧ b < a + (v :: t).length := by simp only [List.length_cons]; omega
        have e : b - a = (b - (a + 1)) + 1 := by omega
        rw [if_pos h2, if_pos h3, e]
        rfl
      · have h3 : ¬ (a ≤ b ∧ b < a + (v :: t).length) := by simp only [List.length_cons]; omega
        rw [if_neg h2, if_neg h3, if_neg h1]

/-! Words that pass their checks. -/

theorem State.checkReads_clean (s : State) (m : MemKind) (who : Nat) (ws : List Nat) (h : ∀ w ∈ ws, eccAt s.ecc w = none) :
    s.checkReads m who ws = (s, true) := by
  unfold State.checkReads
  induction ws with
  | nil => rfl
  | cons w t ih =>
    rw [List.foldl_cons]
    have e : s.checkRead m who w = (s, true) := by
      unfold State.checkRead
      rw [h w List.mem_cons_self]
    dsimp only
    rw [e]
    exact ih fun x hx => h x (List.mem_cons_of_mem _ hx)

/-- A read of bytes whose check words pass changes nothing. -/
theorem State.memRead_clean (s : State) (who a n : Nat) (hr : s.memReadable a n = true) (h : ∀ w ∈ s.checkWords a n, eccAt s.ecc w = none) :
    s.memRead who a n = (some (s.peek a n), s) := by
  unfold State.memRead
  split
  · rename_i e
    unfold State.memReadable at hr
    rw [e] at hr
    cases hr
  · rename_i m _
    rw [if_pos hr, s.checkReads_clean m who _ h]
    rfl

theorem eccAt_clear_none (l : List (Nat × Ecc)) (w v : Nat) (h : eccAt l v = none) : eccAt (eccClear l w) v = none := by
  unfold eccAt at h ⊢
  rw [Option.map_eq_none_iff, List.find?_eq_none] at h ⊢
  intro e he
  exact h e (List.mem_filter.mp he).1

theorem State.checkWord_le (s : State) (a : Nat) : s.checkWord a ≤ a ∧ a < s.checkWord a + s.checkSize (s.checkWord a) := by
  unfold State.checkSize State.checkWord
  split
  · omega
  · rename_i h
    split
    · rename_i k
      exact absurd ⟨by omega, k.2⟩ h
    · omega

/-- Bytes of a store that lie in one of some check words are stored, the others stay. -/
def State.storedIn (s : State) (a n : Nat) (ws : List Nat) (b : Nat) : Bool :=
  decide (a ≤ b ∧ b < a + n) && ws.any fun w => decide (w ≤ b ∧ b < w + s.checkSize w)

/-- One check word that passes is stored, and nothing changes but memory and its waiting write-backs. -/
theorem State.storeWord_clean (m : MemKind) (who a : Nat) (bytes : List Byte) (s : State) (w : Nat) (h : eccAt s.ecc w = none) :
    ∃ t, State.storeWord m who a bytes (s, true) w = (t, true) ∧ t.ecc = eccClear s.ecc w ∧
      t = { s with mem := t.mem, ecc := t.ecc, memory := { s.memory with wb := t.memory.wb } } ∧
      ∀ b, t.byte b = if s.storedIn a bytes.length [w] b then bytes.getD (b - a) 0 else s.byte b := by
  let x : State := { s with ecc := eccClear s.ecc w, memory := { s.memory with wb := s.memory.wb.filter (· != w) } }
  have e : s.checkWrite m who a bytes.length w = (x, true) := by
    unfold State.checkWrite
    dsimp only
    split
    · rfl
    · rw [h]
      rfl
  refine ⟨x.pokeWord a bytes w, ?_, ?_, ?_, ?_⟩
  · unfold State.storeWord
    rw [if_pos rfl]
    dsimp only
    rw [e]
    rfl
  · unfold State.pokeWord
    rw [State.poke_rest]
  · unfold State.pokeWord
    rw [State.poke_rest]
  · intro b
    have hs : x.checkSize w = s.checkSize w := rfl
    unfold State.pokeWord
    rw [State.byte_poke, hs]
    simp only [State.storedIn, List.any_cons, List.any_nil, Bool.or_false, Bool.and_eq_true, decide_eq_true_eq, List.length_take,
      List.length_drop]
    by_cases hb : (a ≤ b ∧ b < a + bytes.length) ∧ w ≤ b ∧ b < w + s.checkSize w
    · rw [if_pos hb, if_pos (by omega)]
      simp only [List.getD_eq_getElem?_getD, List.getElem?_take, List.getElem?_drop]
      rw [if_pos (by omega), show w - a + (b - max a w) = b - a from by omega]
    · rw [if_neg hb, if_neg (by omega)]
      rfl

/-- A store to bytes whose check words pass stores them all, and changes nothing but memory and its waiting write-backs. -/
theorem State.memStore_clean (s : State) (who a : Nat) (bytes : List Byte) (hr : s.memReadable a bytes.length = true)
    (h : ∀ w ∈ s.checkWords a bytes.length, eccAt s.ecc w = none) :
    ∃ t, s.memStore who a bytes = (t, true) ∧ t = { s with mem := t.mem, ecc := t.ecc, memory := { s.memory with wb := t.memory.wb } } ∧
      ∀ b, t.byte b = if a ≤ b ∧ b < a + bytes.length then bytes.getD (b - a) 0 else s.byte b := by
  have key : ∀ (m : MemKind) (ws : List Nat) (x : State), (∀ w ∈ ws, eccAt x.ecc w = none) →
      ∃ y, ws.foldl (State.storeWord m who a bytes) (x, true) = (y, true) ∧
        y = { x with mem := y.mem, ecc := y.ecc, memory := { x.memory with wb := y.memory.wb } } ∧
        ∀ b, y.byte b = if x.storedIn a bytes.length ws b then bytes.getD (b - a) 0 else x.byte b := by
    intro m ws
    induction ws with
    | nil => exact fun x _ => ⟨x, rfl, rfl, fun b => by simp [State.storedIn]⟩
    | cons w t ih =>
      intro x hx
      obtain ⟨z, hz1, hz2, hz3, hz4⟩ := State.storeWord_clean m who a bytes x w (hx w List.mem_cons_self)
      obtain ⟨y, hy1, hy2, hy3⟩ := ih z (fun v hv => by rw [hz2]; exact eccAt_clear_none _ _ _ (hx v (List.mem_cons_of_mem _ hv)))
      have hc : ∀ v, z.checkSize v = x.checkSize v := fun v => by rw [hz3]; rfl
      refine ⟨y, ?_, ?_, fun b => ?_⟩
      · rw [List.foldl_cons, hz1]
        exact hy1
      · rw [hy2, hz3]
      · rw [hy3, hz4]
        simp only [State.storedIn, hc, List.any_cons, List.any_nil, Bool.or_false]
        by_cases h1 : decide (a ≤ b ∧ b < a + bytes.length) = true <;> simp [h1]
        by_cases h2 : w ≤ b ∧ b < w + x.checkSize w <;> simp [h2]
  unfold State.memStore
  split
  · rename_i e
    unfold State.memReadable at hr
    rw [e] at hr
    cases hr
  · rename_i m _
    obtain ⟨y, hy1, hy2, hy3⟩ := key m (s.checkWords a bytes.length) s h
    rw [if_pos hr]
    refine ⟨y, hy1, hy2, fun b => ?_⟩
    rw [hy3]
    by_cases hb : a ≤ b ∧ b < a + bytes.length
    · have hw : s.checkWord b ∈ s.checkWords a bytes.length := by
        unfold State.checkWords
        rw [List.mem_eraseDups, List.mem_map]
        exact ⟨b - a, List.mem_range.mpr (by omega), by rw [show a + (b - a) = b from by omega]⟩
      have hl := s.checkWord_le b
      have : s.storedIn a bytes.length (s.checkWords a bytes.length) b = true := by
        simp only [State.storedIn, Bool.and_eq_true, decide_eq_true_eq, List.any_eq_true]
        exact ⟨hb, _, hw, hl⟩
      rw [if_pos this, if_pos hb]
    · have : s.storedIn a bytes.length (s.checkWords a bytes.length) b = false := by simp [State.storedIn, hb]
      rw [this, if_neg hb]
      rfl

end Sys2Proof.Machine
end

