-- ==== Sys2Proof/Laws/Power.lean ====
section
/-!
SUPPORT. What power events and mode requests keep beside what they are about: the words of SUP that show power and supply,
and the state of the power stage.
-/

namespace Sys2Proof.Machine

set_option linter.unusedVariables false

/-- SUP.DOM, SUP.STAT, SUP.START, SUP.VIN and SUP.CAGE. -/
def supFixed (a : Nat) : Prop := a = A.SUP_DOM ∨ a = A.SUP_STAT ∨ a = A.SUP_START ∨ a = A.SUP_VIN ∨ a = A.SUP_CAGE

/-- A field that lies in none of these, and not in SUP.MODE.PWR. -/
def FldFree (f : Fld) : Prop := ¬ supFixed f.addr ∧ (f.addr = A.SUP_MODE → 3 ≤ f.lo ∧ f.lo ≤ f.hi)

/-- From `s` to `t` those words and the power-stage state stay. -/
structure PowerKept (s t : State) : Prop where
  word : ∀ a, supFixed a → t.word a = s.word a
  pwr  : t.pwr = s.pwr

variable {u0 s t : State}

theorem PowerKept.refl (s : State) : PowerKept s s := ⟨fun _ _ => rfl, rfl⟩

theorem PowerKept.trans (h : PowerKept u0 s) (k : PowerKept s t) : PowerKept u0 t :=
  ⟨fun a ha => (k.word a ha).trans (h.word a ha), k.pwr.trans h.pwr⟩

theorem FldFree.of_ge (f : Fld) (h : 0x40010000 ≤ f.addr) : FldFree f := by
  unfold FldFree supFixed
  simp only [A.SUP_DOM, A.SUP_STAT, A.SUP_START, A.SUP_VIN, A.SUP_CAGE, A.SUP_MODE]
  omega

theorem PowerKept.setWord (h : PowerKept u0 s) (a : Nat) (v : Word) (ha : 0x40010000 ≤ a) : PowerKept u0 (s.setWord a v) := by
  refine h.trans ⟨fun b hb => s.word_setWord_ne a b v ?_, s.fget_setWord_ne _ a v ?_⟩
  · unfold supFixed at hb
    simp only [A.SUP_DOM, A.SUP_STAT, A.SUP_START, A.SUP_VIN, A.SUP_CAGE] at hb
    omega
  · simp only [F.SUP_MODE_PWR]
    omega

theorem PowerKept.fset (h : PowerKept u0 s) (f : Fld) (v : Nat) (hf : FldFree f) : PowerKept u0 (s.fset f v) := by
  refine h.trans ⟨fun b hb => s.word_fset_ne f v b (fun e => hf.1 (e ▸ hb)), ?_⟩
  by_cases ha : f.addr = A.SUP_MODE
  · have := hf.2 ha
    exact s.fget_fset_disjoint f _ v (by decide) (by decide) this.2 (by simp only [F.SUP_MODE_PWR]; omega)
  · exact s.fget_fset_ne f _ v (fun e => ha (e.symm.trans rfl))

theorem PowerKept.fclrBit (h : PowerKept u0 s) (f : Fld) (i : Nat) (hf : FldFree f) : PowerKept u0 (s.fclrBit f i) := by
  unfold State.fclrBit
  split
  · exact h.fset f _ hf
  · exact h

theorem PowerKept.finc (h : PowerKept u0 s) (f : Fld) (hf : FldFree f) : PowerKept u0 (s.finc f) := h.fset f _ hf
theorem PowerKept.fsetBit (h : PowerKept u0 s) (f : Fld) (i : Nat) (hf : FldFree f) : PowerKept u0 (s.fsetBit f i) := h.fset f _ hf
theorem PowerKept.fsetI (h : PowerKept u0 s) (f : Fld) (v : Int) (hf : FldFree f) : PowerKept u0 (s.fsetI f v) := h.fset f _ hf

theorem FldFree.mode (f : Fld) (h : f.addr = A.SUP_MODE) (h1 : 3 ≤ f.lo) (h2 : f.lo ≤ f.hi) : FldFree f := by
  refine ⟨?_, fun _ => ⟨h1, h2⟩⟩
  rw [h]
  unfold supFixed
  decide

theorem Reports.powerKept (h : Reports s t) : PowerKept s t :=
  ⟨fun a ha => h.word a (Or.inl (by
    unfold supFixed at ha
    simp only [A.SUP_DOM, A.SUP_STAT, A.SUP_START, A.SUP_VIN, A.SUP_CAGE] at ha
    omega)), h.fget _ (Or.inl (by decide))⟩

theorem PowerKept.regs (h : PowerKept u0 s) (e : t.regs = s.regs) : PowerKept u0 t :=
  h.trans ⟨fun a _ => State.word_congr e a, State.fget_congr e _⟩

/-- A change of other parts of the state. -/
theorem PowerKept.upd
    {x_pending : List Instr} {x_ticks : Nat} {x_mem : List Host.Cell} {x_mtr : Mtr} {x_safe : Safe} {x_free : Nat} {x_rtAdj : Nat} {x_ringAt : Nat} {x_lineAt : Nat} {x_tx : Vector TxQueue 8} {x_ltBase : Nat} {x_live : List (Nat × Word)} {x_vers : List (Nat × Nat)}
    {x_ecc : List (Nat × Ecc)} {x_timer : Timer} {x_sup : Sup} {x_clk : Clk} {x_tim : Tim} {x_cores : Vector
    Core 12} {x_takes : Vector Take 8} {x_plan : Vector Dest 4} {x_rings : Vector Ring 3} {x_ports : Vector
    Port 8} {x_evq : List EvtRec} {x_access : Option CellAccess} {x_caTag : BitVec 8} {x_cells : Vector
    (Vector Cell 40) 3} {x_brg : Brg} {x_adc : Adc} {x_capt : Vector Capt 4} {x_flt : Flt} {x_memory : Mem}
    {x_host : Vector HPort 3} {x_upd : Upd} {x_strm : Strm} {x_out : List Out}
    (h : PowerKept u0 s) :
    PowerKept u0 {
      pending := x_pending
      free := x_free
      ticks := x_ticks
      rtAdj := x_rtAdj
      ringAt := x_ringAt
      lineAt := x_lineAt
      tx := x_tx
      ltBase := x_ltBase
      regs := s.regs
      live := x_live
      vers := x_vers
      mem := x_mem
      ecc := x_ecc
      timer := x_timer
      sup := x_sup
      clk := x_clk
      tim := x_tim
      cores := x_cores
      takes := x_takes
      plan := x_plan
      rings := x_rings
      ports := x_ports
      evq := x_evq
      access := x_access
      caTag := x_caTag
      cells := x_cells
      brg := x_brg
      adc := x_adc
      capt := x_capt
      mtr := x_mtr
      safe := x_safe
      flt := x_flt
      memory := x_memory
      host := x_host
      upd := x_upd
      strm := x_strm
      out := x_out } :=
  h.trans ⟨fun _ _ => rfl, rfl⟩

theorem PowerKept.ite {c : Prop} [Decidable c] {x y : State} (h : c → PowerKept u0 x) (k : ¬c → PowerKept u0 y) :
    PowerKept u0 (if c then x else y) := by split <;> simp_all

theorem PowerKept.foldl {α : Type} (l : List α) (f : State → α → State) (k : ∀ x t, PowerKept u0 t → PowerKept u0 (f t x))
    (h : PowerKept u0 s) : PowerKept u0 (l.foldl f s) := by
  induction l generalizing s with
  | nil => exact h
  | cons x t ih => exact ih (k x s h)

theorem PowerKept.each {α : Type} (l : List α) (f : α → State → State) (k : ∀ x t, PowerKept u0 t → PowerKept u0 (f x t))
    (h : PowerKept u0 s) : PowerKept u0 (s.each l f) := PowerKept.foldl l _ k h

theorem State.modCore_power (h : PowerKept u0 s) (n : CoreId) (f : Core → Core) : PowerKept u0 (State.modCore s n f) := by
  unfold State.modCore
  with_reducible repeat' first
    | assumption | exact PowerKept.upd (by assumption)

theorem State.modTake_power (h : PowerKept u0 s) (h : HandleId) (f : Take → Take) : PowerKept u0 (State.modTake s h f) := by
  unfold State.modTake
  with_reducible repeat' first
    | assumption | exact PowerKept.upd (by assumption)

theorem State.modRing_power (h : PowerKept u0 s) (x : RingId) (f : Ring → Ring) : PowerKept u0 (State.modRing s x f) := by
  unfold State.modRing
  with_reducible repeat' first
    | assumption | exact PowerKept.upd (by assumption)

theorem State.modCell_power (h : PowerKept u0 s) (x : RingId) (k : CellId) (f : Cell → Cell) : PowerKept u0 (State.modCell s x k f) := by
  unfold State.modCell
  with_reducible repeat' first
    | assumption | exact PowerKept.upd (by assumption)

theorem State.modLeg_power (h : PowerKept u0 s) (x : LegId) (f : Leg → Leg) : PowerKept u0 (State.modLeg s x f) := by
  unfold State.modLeg
  with_reducible repeat' first
    | assumption | exact PowerKept.upd (by assumption)

theorem State.modHost_power (h : PowerKept u0 s) (h : HostPort) (f : HPort → HPort) : PowerKept u0 (State.modHost s h f) := by
  unfold State.modHost
  with_reducible repeat' first
    | assumption | exact PowerKept.upd (by assumption)

theorem State.freshValue_power (h : PowerKept u0 s)  : PowerKept u0 (State.freshValue s).2 := by
  unfold State.freshValue
  with_reducible repeat' first
    | assumption | refine Keeps.ofFst (by assumption) ?_ | refine Keeps.ofSnd (by assumption) ?_ | dsimp only
    | exact PowerKept.upd (by assumption)

theorem State.setRtAdj_power (h : PowerKept u0 s) (a : Nat) : PowerKept u0 (State.setRtAdj s a) := by
  unfold State.setRtAdj
  with_reducible repeat' first
    | assumption | (intro _; skip) | refine PowerKept.ite (fun _ => ?_) (fun _ => ?_) | split
    | exact PowerKept.upd (by assumption)

theorem State.cutTake_power (h : PowerKept u0 s) (k : HandleId) (reason : Nat) : PowerKept u0 (s.cutTake k reason) := by
  have hk := k.isLt
  unfold State.cutTake
  split
  · have h1 : PowerKept u0 (s.modTake k fun t => { t with writes := [], instant := none }) := State.modTake_power h k _
    have h2 := h1.fset (F.TAKE_STAT_STATE k) takeCut (FldFree.of_ge _ (by simp only [F.TAKE_STAT_STATE]; omega))
    have h3 := h2.fset (F.TAKE_STAT_REASON k) reason (FldFree.of_ge _ (by simp only [F.TAKE_STAT_REASON]; omega))
    have h4 : 0x40010000 ≤ (cutField reason).addr := by unfold cutField; split <;> decide
    have h5 := h3.finc (cutField reason) (FldFree.of_ge _ h4)
    have h6 := h5.setWord (A.TAKE_BNDL k) 0 (by simp only [A.TAKE_BNDL]; omega)
    have h7 := h6.setWord (A.TAKE_BNDH k) 0 (by simp only [A.TAKE_BNDH]; omega)
    dsimp only
    split
    · exact h7
    · exact h7.trans (State.raise_reports _ _).powerKept
  · exact h

theorem State.abandonTakes_power (h : PowerKept u0 s) (owner : Nat) : PowerKept u0 (State.abandonTakes s owner) := by
  unfold State.abandonTakes
  with_reducible repeat' first
    | assumption | (refine FldFree.of_ge _ ?_; simp only [F.TAKE_STAT_OWNER]; omega) | (simp only [F.TAKE_STAT_OWNER]; omega) | (exact FldFree.mode _ (by with_unfolding_all rfl) (by decide) (by decide)) | apply PowerKept.each | apply State.cutTake_power | apply PowerKept.each | (intro _; skip)
    | refine PowerKept.ite (fun _ => ?_) (fun _ => ?_) | split

theorem State.discardTakes_power (h : PowerKept u0 s)  : PowerKept u0 (State.discardTakes s) := by
  unfold State.discardTakes
  with_reducible repeat' first
    | assumption | (refine FldFree.of_ge _ ?_; simp only [A.TAKE_BNDH, A.TAKE_BNDL, A.TAKE_STAT]; omega) | (simp only [A.TAKE_BNDH, A.TAKE_BNDL, A.TAKE_STAT]; omega) | (exact FldFree.mode _ (by with_unfolding_all rfl) (by decide) (by decide)) | apply PowerKept.each | apply PowerKept.setWord | apply PowerKept.each | (intro _; skip)
    | (extract_lets +onlyGivenNames xq; refine (fun (hx : PowerKept u0 xq) => ?_) ?_; rotate_left; dsimp -zeta only [xq]; rotate_left; clear_value xq)
    | (extract_lets +onlyGivenNames xq; (have hq : xq = xq := by (dsimp -zeta only [xq])); clear hq; clear_value xq)
    | exact PowerKept.upd (by assumption)

theorem State.setCoreState_power (h : PowerKept u0 s) (n : CoreId) (v : Nat) : PowerKept u0 (State.setCoreState s n v) := by
  unfold State.setCoreState
  with_reducible repeat' first
    | assumption | (refine FldFree.of_ge _ ?_; simp only [F.CORE_STAT_STATE]; omega) | (simp only [F.CORE_STAT_STATE]; omega) | (exact FldFree.mode _ (by with_unfolding_all rfl) (by decide) (by decide)) | apply PowerKept.fset

theorem State.spend_power (h : PowerKept u0 s) (n : CoreId) (cyc : Nat) : PowerKept u0 (State.spend s n cyc) := by
  unfold State.spend
  with_reducible repeat' first
    | assumption | apply State.modCore_power | (intro _; skip) | exact PowerKept.upd (by assumption)

theorem State.haltCore_power (h : PowerKept u0 s) (n : CoreId) : PowerKept u0 (State.haltCore s n) := by
  unfold State.haltCore
  with_reducible repeat' first
    | assumption | apply State.modCore_power | apply State.abandonTakes_power | apply State.setCoreState_power
    | (intro _; skip) | exact PowerKept.upd (by assumption)

theorem State.trapRegs_power (h : PowerKept u0 s) (n : CoreId) (cause : Nat) (addr : Option Nat) : PowerKept u0 (State.trapRegs s n cause addr) := by
  unfold State.trapRegs
  with_reducible repeat' first
    | assumption | (refine FldFree.of_ge _ ?_; simp only [F.CORE_TADDR_ADDR, F.CORE_TCAUSE_CAUSE, F.CORE_TPC_ADDR]; omega) | (simp only [F.CORE_TADDR_ADDR, F.CORE_TCAUSE_CAUSE, F.CORE_TPC_ADDR]; omega) | (exact FldFree.mode _ (by with_unfolding_all rfl) (by decide) (by decide)) | apply PowerKept.fset
    | (extract_lets +onlyGivenNames xq; refine (fun (hx : PowerKept u0 xq) => ?_) ?_; rotate_left; dsimp -zeta only [xq]; rotate_left; clear_value xq)
    | (extract_lets +onlyGivenNames xq; (have hq : xq = xq := by (dsimp -zeta only [xq])); clear hq; clear_value xq)
    | split | exact PowerKept.upd (by assumption)

theorem State.takeTrap_power (h : PowerKept u0 s) (n : CoreId) (next : Nat) (cause : Nat) (addr : Option Nat) : PowerKept u0 (State.takeTrap s n next cause addr) := by
  unfold State.takeTrap
  with_reducible repeat' first
    | assumption | (refine FldFree.of_ge _ ?_; simp only [F.CORE_CTRL_TRAPHALT, F.CORE_TCAUSE_DOUBLE]; omega) | (simp only [F.CORE_CTRL_TRAPHALT, F.CORE_TCAUSE_DOUBLE]; omega) | (exact FldFree.mode _ (by with_unfolding_all rfl) (by decide) (by decide)) | apply PowerKept.fset | apply State.modCore_power | refine PowerKept.trans ?_ (State.raise_reports _ _).powerKept
    | apply State.setCoreState_power | apply State.haltCore_power | apply State.trapRegs_power | (intro _; skip)
    | (extract_lets +onlyGivenNames xq; refine (fun (hx : PowerKept u0 xq) => ?_) ?_; rotate_left; dsimp -zeta only [xq]; rotate_left; clear_value xq)
    | (extract_lets +onlyGivenNames xq; (have hq : xq = xq := by (dsimp -zeta only [xq])); clear hq; clear_value xq)
    | refine PowerKept.ite (fun _ => ?_) (fun _ => ?_) | split | exact PowerKept.upd (by assumption)

theorem State.parkCore_power (h : PowerKept u0 s) (n : CoreId) (bad : Bool) : PowerKept u0 (State.parkCore s n bad) := by
  unfold State.parkCore
  with_reducible repeat' first
    | assumption | apply State.modCore_power | apply State.setCoreState_power | (intro _; skip)
    | exact PowerKept.upd (by assumption)

theorem State.settle_power (h : PowerKept u0 s) (n : CoreId) (len : Nat) (cyc : Nat) (stop : CoreStop) : PowerKept u0 (State.settle s n len cyc stop) := by
  unfold State.settle
  with_reducible repeat' first
    | assumption | (refine FldFree.of_ge _ ?_; simp only [F.CORE_STAT_RESERR]; omega) | (simp only [F.CORE_STAT_RESERR]; omega) | (exact FldFree.mode _ (by with_unfolding_all rfl) (by decide) (by decide)) | apply PowerKept.fset | refine PowerKept.trans ?_ (State.raise_reports _ _).powerKept | apply State.spend_power
    | apply State.takeTrap_power | apply State.parkCore_power | refine PowerKept.ite (fun _ => ?_) (fun _ => ?_) | split
    | exact PowerKept.upd (by assumption)

theorem State.showTick_power (h : PowerKept u0 s)  : PowerKept u0 (State.showTick s) := by
  unfold State.showTick
  with_reducible repeat' first
    | assumption | (refine FldFree.of_ge _ ?_; simp only [F.CORE_TICK_COUNT]; omega) | (simp only [F.CORE_TICK_COUNT]; omega) | (exact FldFree.mode _ (by with_unfolding_all rfl) (by decide) (by decide)) | apply PowerKept.fset | refine PowerKept.ite (fun _ => ?_) (fun _ => ?_) | split

theorem State.sendArm_power (h : PowerKept u0 s) (x : RingId) (pos : Nat) : PowerKept u0 (State.sendArm s x pos) := by
  unfold State.sendArm
  exact h.trans (State.sendL0_reports (Reports.refl _) _ _).powerKept

theorem State.armRings_power (h : PowerKept u0 s)  : PowerKept u0 (State.armRings s) := by
  unfold State.armRings
  with_reducible repeat' first
    | assumption | apply PowerKept.each | apply State.modRing_power | apply State.sendArm_power
    | apply PowerKept.each | (intro _; skip) | refine PowerKept.ite (fun _ => ?_) (fun _ => ?_) | split
    | exact PowerKept.upd (by assumption)

theorem State.haltReadout_power (h : PowerKept u0 s)  : PowerKept u0 (State.haltReadout s) := by
  unfold State.haltReadout
  with_reducible repeat' first
    | assumption | (refine FldFree.of_ge _ ?_; simp only [F.HOST_SSTAT_RDSTATE]; omega) | (simp only [F.HOST_SSTAT_RDSTATE]; omega) | (exact FldFree.mode _ (by with_unfolding_all rfl) (by decide) (by decide)) | apply PowerKept.fset | refine PowerKept.trans ?_ (State.raise_reports _ _).powerKept | refine PowerKept.ite (fun _ => ?_) (fun _ => ?_)
    | split | exact PowerKept.upd (by assumption)

theorem State.losePeer_power (h : PowerKept u0 s)  : PowerKept u0 (State.losePeer s) := by
  unfold State.losePeer
  with_reducible repeat' first
    | assumption | (refine FldFree.of_ge _ ?_; simp only [F.TIME_PEER_STATE, F.TIME_STAT_PEER_LOST]; omega) | (simp only [F.TIME_PEER_STATE, F.TIME_STAT_PEER_LOST]; omega) | (exact FldFree.mode _ (by with_unfolding_all rfl) (by decide) (by decide)) | apply PowerKept.fset | refine PowerKept.trans ?_ (State.raise_reports _ _).powerKept | refine PowerKept.ite (fun _ => ?_) (fun _ => ?_)
    | split | exact PowerKept.upd (by assumption)

theorem State.strmLink_power (h : PowerKept u0 s)  : PowerKept u0 (State.strmLink s) := by
  unfold State.strmLink
  with_reducible repeat' first
    | assumption | (refine FldFree.of_ge _ ?_; simp only [F.RING_LCTRL_EN]; omega) | (simp only [F.RING_LCTRL_EN]; omega) | (exact FldFree.mode _ (by with_unfolding_all rfl) (by decide) (by decide)) | refine PowerKept.trans ?_ (State.setCond_reports (Reports.refl _) _ _).powerKept

theorem State.setCellReg_power (h : PowerKept u0 s) (x : RingId) (k : CellId) (a : Nat) (v : Word) : PowerKept u0 (State.setCellReg s x k a v) := by
  unfold State.setCellReg
  with_reducible repeat' first
    | assumption | apply State.modCell_power | (intro _; skip) | exact PowerKept.upd (by assumption)

theorem State.cellEvent_power (h : PowerKept u0 s) (x : RingId) (k : CellId) (code : BitVec 8) : PowerKept u0 (State.cellEvent s x k code) := by
  unfold State.cellEvent
  with_reducible repeat' first
    | assumption | apply State.modCell_power | apply State.freshValue_power | apply State.setCellReg_power
    | refine Keeps.ofFst (by assumption) ?_ | refine Keeps.ofSnd (by assumption) ?_ | dsimp only | (intro _; skip)
    | (extract_lets +onlyGivenNames xq; refine (fun (hx : PowerKept u0 xq) => ?_) ?_; rotate_left; dsimp -zeta only [xq]; rotate_left; clear_value xq)
    | (extract_lets +onlyGivenNames xq; (have hq : xq = xq := by (dsimp -zeta only [xq])); clear hq; clear_value xq)
    | split | exact PowerKept.upd (by assumption)

theorem State.cellStatus_power (h : PowerKept u0 s) (x : RingId) (k : CellId) (code : BitVec 8) : PowerKept u0 (State.cellStatus s x k code) := by
  unfold State.cellStatus
  with_reducible repeat' first
    | assumption | apply State.setCellReg_power

theorem State.cellBlock_power (h : PowerKept u0 s) (x : RingId) (k : CellId) (code : BitVec 8) (after : CellMode) : PowerKept u0 (State.cellBlock s x k code after) := by
  unfold State.cellBlock
  with_reducible repeat' first
    | assumption | apply State.modCell_power | apply State.cellEvent_power | apply State.cellStatus_power
    | (intro _; skip)
    | (extract_lets +onlyGivenNames xq; refine (fun (hx : PowerKept u0 xq) => ?_) ?_; rotate_left; dsimp -zeta only [xq]; rotate_left; clear_value xq)
    | (extract_lets +onlyGivenNames xq; (have hq : xq = xq := by (dsimp -zeta only [xq])); clear hq; clear_value xq)
    | refine PowerKept.ite (fun _ => ?_) (fun _ => ?_) | split | exact PowerKept.upd (by assumption)

theorem State.toHoldover_power (h : PowerKept u0 s)  : PowerKept u0 (State.toHoldover s) := by
  unfold State.toHoldover
  with_reducible repeat' first
    | assumption | (refine FldFree.of_ge _ ?_; simp only [F.SUP_MODE_TSRC]; omega) | (simp only [F.SUP_MODE_TSRC]; omega) | (exact FldFree.mode _ (by with_unfolding_all rfl) (by decide) (by decide)) | apply PowerKept.fset | refine PowerKept.ite (fun _ => ?_) (fun _ => ?_) | split
    | exact PowerKept.upd (by assumption)

theorem State.setLegState_power (h : PowerKept u0 s) (x : LegId) (v : Nat) : PowerKept u0 (s.setLegState x v) :=
  h.fset _ _ (FldFree.of_ge _ (show 0x40010000 ≤ A.BRG_LEGSTAT by decide))

theorem State.dropEdges_power (h : PowerKept u0 s) (x : LegId) : PowerKept u0 (State.dropEdges s x) := by
  unfold State.dropEdges
  with_reducible repeat' first
    | assumption | apply State.modLeg_power | (intro _; skip) | exact PowerKept.upd (by assumption)

theorem State.cutLeg_power (h : PowerKept u0 s) (x : LegId) : PowerKept u0 (State.cutLeg s x) := by
  unfold State.cutLeg
  with_reducible repeat' first
    | assumption | apply PowerKept.each | apply State.modLeg_power | refine PowerKept.trans ?_ (State.emit_reports (Reports.refl _) _).powerKept
    | apply State.dropEdges_power | apply PowerKept.each | (intro _; skip)
    | (extract_lets +onlyGivenNames xq; refine (fun (hx : PowerKept u0 xq) => ?_) ?_; rotate_left; dsimp -zeta only [xq]; rotate_left; clear_value xq)
    | (extract_lets +onlyGivenNames xq; (have hq : xq = xq := by (dsimp -zeta only [xq])); clear hq; clear_value xq)
    | refine PowerKept.ite (fun _ => ?_) (fun _ => ?_) | split | exact PowerKept.upd (by assumption)

theorem State.bridgeOff_power (h : PowerKept u0 s)  : PowerKept u0 (State.bridgeOff s) := by
  unfold State.bridgeOff
  with_reducible repeat' first
    | assumption | apply PowerKept.each | apply State.modLeg_power | apply State.setLegState_power
    | apply State.cutLeg_power | apply PowerKept.each | (intro _; skip)
    | (extract_lets +onlyGivenNames xq; refine (fun (hx : PowerKept u0 xq) => ?_) ?_; rotate_left; dsimp -zeta only [xq]; rotate_left; clear_value xq)
    | (extract_lets +onlyGivenNames xq; (have hq : xq = xq := by (dsimp -zeta only [xq])); clear hq; clear_value xq)
    | refine PowerKept.ite (fun _ => ?_) (fun _ => ?_) | split | exact PowerKept.upd (by assumption)

theorem State.startCharge_power (h : PowerKept u0 s) (x : LegId) : PowerKept u0 (State.startCharge s x) := by
  unfold State.startCharge
  with_reducible repeat' first
    | assumption | (refine FldFree.of_ge _ ?_; simp only [F.BRG_REFCTL_NCHG]; omega) | (simp only [F.BRG_REFCTL_NCHG]; omega) | (exact FldFree.mode _ (by with_unfolding_all rfl) (by decide) (by decide)) | apply State.modLeg_power | (intro _; skip) | exact PowerKept.upd (by assumption)

theorem State.bridgeStart_power (h : PowerKept u0 s)  : PowerKept u0 (State.bridgeStart s) := by
  unfold State.bridgeStart
  refine PowerKept.each _ _ (fun x t ht => ?_) h
  extract_lets r
  exact State.setLegState_power (State.modLeg_power (State.startCharge_power ht x) x _) x _

theorem State.gatesLost_power (h : PowerKept u0 s)  : PowerKept u0 (State.gatesLost s) := by
  unfold State.gatesLost
  with_reducible repeat' first
    | assumption | apply PowerKept.each | apply State.cutLeg_power | apply PowerKept.each | (intro _; skip)
    | (extract_lets +onlyGivenNames xq; refine (fun (hx : PowerKept u0 xq) => ?_) ?_; rotate_left; dsimp -zeta only [xq]; rotate_left; clear_value xq)
    | (extract_lets +onlyGivenNames xq; (have hq : xq = xq := by (dsimp -zeta only [xq])); clear hq; clear_value xq)
    | exact PowerKept.upd (by assumption)

theorem State.unsettle_power (h : PowerKept u0 s) (k : UnitId) : PowerKept u0 (State.unsettle s k) := by
  unfold State.unsettle
  with_reducible repeat' first
    | assumption | (refine FldFree.of_ge _ ?_; simp only [F.ADC_REF_SETTLED, F.ADC_STAT_REFLOST]; omega) | (simp only [F.ADC_REF_SETTLED, F.ADC_STAT_REFLOST]; omega) | (exact FldFree.mode _ (by with_unfolding_all rfl) (by decide) (by decide)) | apply PowerKept.fset | apply PowerKept.fclrBit | refine PowerKept.trans ?_ (State.raise_reports _ _).powerKept
    | apply State.settle_power
    | (extract_lets +onlyGivenNames xq; refine (fun (hx : PowerKept u0 xq) => ?_) ?_; rotate_left; dsimp -zeta only [xq]; rotate_left; clear_value xq)
    | (extract_lets +onlyGivenNames xq; (have hq : xq = xq := by (dsimp -zeta only [xq])); clear hq; clear_value xq)
    | refine PowerKept.ite (fun _ => ?_) (fun _ => ?_) | split | exact PowerKept.upd (by assumption)

theorem State.adcRelease_power (h : PowerKept u0 s)  : PowerKept u0 (State.adcRelease s) := by
  unfold State.adcRelease
  with_reducible repeat' first
    | assumption | apply PowerKept.each | apply State.unsettle_power | (intro _; skip)
    | (extract_lets +onlyGivenNames xq; refine (fun (hx : PowerKept u0 xq) => ?_) ?_; rotate_left; dsimp -zeta only [xq]; rotate_left; clear_value xq)
    | exact PowerKept.upd (by assumption)

theorem State.captAxis_power (h : PowerKept u0 s)  : PowerKept u0 (State.captAxis s) := by
  unfold State.captAxis
  with_reducible repeat' first
    | assumption | (refine FldFree.of_ge _ ?_; simp only [F.SUP_MODE_CAPT]; omega) | (simp only [F.SUP_MODE_CAPT]; omega) | (exact FldFree.mode _ (by with_unfolding_all rfl) (by decide) (by decide)) | apply PowerKept.fset | (intro _; skip) | refine PowerKept.ite (fun _ => ?_) (fun _ => ?_) | split

theorem State.setCapt_power (h : PowerKept u0 s) (u : Nat) (v : Nat) : PowerKept u0 (State.setCapt s u v) := by
  unfold State.setCapt
  with_reducible repeat' first
    | assumption | (refine FldFree.of_ge _ ?_; simp only [F.CAPT_STAT_STATE]; omega) | (simp only [F.CAPT_STAT_STATE]; omega) | (exact FldFree.mode _ (by with_unfolding_all rfl) (by decide) (by decide)) | apply PowerKept.fset | apply State.captAxis_power

theorem State.clearResults_power (h : PowerKept u0 s) (u : Nat) : PowerKept u0 (State.clearResults s u) := by
  unfold State.clearResults
  with_reducible repeat' first
    | assumption | (refine FldFree.of_ge _ ?_; simp only [A.CAPT_FIRST, A.CAPT_NPRE, A.CAPT_TREC, A.CAPT_TTIMEH, A.CAPT_TTIMEL]; omega) | (simp only [A.CAPT_FIRST, A.CAPT_NPRE, A.CAPT_TREC, A.CAPT_TTIMEH, A.CAPT_TTIMEL]; omega) | (exact FldFree.mode _ (by with_unfolding_all rfl) (by decide) (by decide)) | apply PowerKept.setWord

theorem State.captLoss_power (h : PowerKept u0 s)  : PowerKept u0 (State.captLoss s) := by
  unfold State.captLoss
  with_reducible repeat' first
    | assumption | apply PowerKept.each | apply State.setCapt_power | apply State.clearResults_power
    | apply PowerKept.each | (intro _; skip) | refine PowerKept.ite (fun _ => ?_) (fun _ => ?_) | split

theorem State.modMtr_power (h : PowerKept u0 s) (f : Mtr → Mtr) : PowerKept u0 (s.modMtr f) :=
  h.trans ⟨fun _ _ => rfl, rfl⟩

theorem State.partRec_power (h : PowerKept u0 s) : PowerKept u0 s.partRec := by
  unfold State.partRec
  extract_lets next
  cases next with
  | none => exact h
  | some r => exact State.modMtr_power h _

theorem State.mtrDown_power (h : PowerKept u0 s) : PowerKept u0 s.mtrDown := by
  unfold State.mtrDown
  extract_lets t
  have ht : PowerKept u0 t := State.modMtr_power h _
  clear_value t
  exact PowerKept.ite (fun _ => State.modMtr_power (State.partRec_power ht) _) (fun _ => ht)

theorem State.safeShow_power (h : PowerKept u0 s)  : PowerKept u0 (State.safeShow s) := by
  unfold State.safeShow
  with_reducible repeat' first
    | assumption | (refine FldFree.of_ge _ ?_; simp only [A.SAFE_FUNC, A.SAFE_OUT, F.SAFE_LANE_RETOK, F.SAFE_STAT_CAUSE, F.SAFE_STAT_DEMAND, F.SAFE_STAT_LOCKOUT, F.SUP_MODE_LOCKOUT]; omega) | (simp only [A.SAFE_FUNC, A.SAFE_OUT, F.SAFE_LANE_RETOK, F.SAFE_STAT_CAUSE, F.SAFE_STAT_DEMAND, F.SAFE_STAT_LOCKOUT, F.SUP_MODE_LOCKOUT]; omega) | (exact FldFree.mode _ (by with_unfolding_all rfl) (by decide) (by decide)) | apply PowerKept.setWord | apply PowerKept.fset
    | (extract_lets +onlyGivenNames xq; refine (fun (hx : PowerKept u0 xq) => ?_) ?_; rotate_left; dsimp -zeta only [xq]; rotate_left; clear_value xq)
    | (extract_lets +onlyGivenNames xq; (have hq : xq = xq := by (dsimp -zeta only [xq])); clear hq; clear_value xq)
    | refine PowerKept.ite (fun _ => ?_) (fun _ => ?_) | split

theorem State.modSafe_power (h : PowerKept u0 s) (f : Safe → Safe) : PowerKept u0 (s.modSafe f) := h.trans ⟨fun _ _ => rfl, rfl⟩

theorem State.edmStart_power {s' : State} (h : PowerKept u0 s') (s : State) : PowerKept u0 (s.edmStart s') := by
  unfold State.edmStart
  exact State.modSafe_power h _

theorem State.safeChange_power (h : PowerKept u0 s) (f : Safe → Safe) : PowerKept u0 (s.safeChange f) :=
  State.safeShow_power (State.edmStart_power (State.modSafe_power h f) s)

theorem State.safeCause_power (h : PowerKept u0 s) (code : BitVec 8) : PowerKept u0 (s.safeCause code) :=
  (State.safeChange_power h _).trans (State.logHigh_reports (Reports.refl _) _ _ _).powerKept

theorem State.chanFault_power (h : PowerKept u0 s) (k : Channel) : PowerKept u0 (s.chanFault k) := by
  unfold State.chanFault
  split
  · exact h
  · exact ((State.safeCause_power (State.safeChange_power h _) _).trans (State.raise_reports _ _).powerKept).trans
      (State.beginStop_reports (Reports.refl _) _).powerKept

theorem State.showSet_power (h : PowerKept u0 s)  : PowerKept u0 (State.showSet s) := by
  unfold State.showSet
  with_reducible repeat' first
    | assumption | (refine FldFree.of_ge _ ?_; simp only [A.SAFE_CRCA, A.SAFE_CRCB, F.SAFE_PSET_SETNUM, F.SAFE_PSET_STATE]; omega) | (simp only [A.SAFE_CRCA, A.SAFE_CRCB, F.SAFE_PSET_SETNUM, F.SAFE_PSET_STATE]; omega) | (exact FldFree.mode _ (by with_unfolding_all rfl) (by decide) (by decide)) | apply PowerKept.setWord | apply PowerKept.fset
    | (extract_lets +onlyGivenNames xq; refine (fun (hx : PowerKept u0 xq) => ?_) ?_; rotate_left; dsimp -zeta only [xq]; rotate_left; clear_value xq)
    | (extract_lets +onlyGivenNames xq; (have hq : xq = xq := by (dsimp -zeta only [xq])); clear hq; clear_value xq)
    | refine PowerKept.ite (fun _ => ?_) (fun _ => ?_) | split | exact PowerKept.upd (by assumption)

theorem State.safePower_power (h : PowerKept u0 s) (ch : Channel) : PowerKept u0 (s.safePower ch) := State.safeChange_power h _

theorem State.endSession_power (h : PowerKept u0 s) (h : HostPort) : PowerKept u0 (State.endSession s h) := by
  unfold State.endSession
  with_reducible repeat' first
    | assumption | (refine FldFree.of_ge _ ?_; simp only [F.HOST_SESSIP_ADDR, F.HOST_SESSP_UDP, F.HOST_STAT_SESS]; omega) | (simp only [F.HOST_SESSIP_ADDR, F.HOST_SESSP_UDP, F.HOST_STAT_SESS]; omega) | (exact FldFree.mode _ (by with_unfolding_all rfl) (by decide) (by decide)) | apply PowerKept.fset | apply PowerKept.fclrBit | apply State.modHost_power | (intro _; skip)
    | exact PowerKept.upd (by assumption)

theorem State.hostLinkCond_power (h : PowerKept u0 s)  : PowerKept u0 (State.hostLinkCond s) := by
  unfold State.hostLinkCond
  with_reducible repeat' first
    | assumption | (refine FldFree.of_ge _ ?_; simp only [F.HOST_IP_ADDR, F.HOST_STAT_LINK]; omega) | (simp only [F.HOST_IP_ADDR, F.HOST_STAT_LINK]; omega) | (exact FldFree.mode _ (by with_unfolding_all rfl) (by decide) (by decide)) | refine PowerKept.trans ?_ (State.setCond_reports (Reports.refl _) _ _).powerKept | (intro _; skip)

theorem State.updAxis_power (h : PowerKept u0 s)  : PowerKept u0 (State.updAxis s) := by
  unfold State.updAxis
  with_reducible repeat' first
    | assumption | (refine FldFree.of_ge _ ?_; simp only [F.SUP_MODE_UPD]; omega) | (simp only [F.SUP_MODE_UPD]; omega) | (exact FldFree.mode _ (by with_unfolding_all rfl) (by decide) (by decide)) | apply PowerKept.fset | refine PowerKept.ite (fun _ => ?_) (fun _ => ?_) | split

theorem State.updEnd_power (h : PowerKept u0 s)  : PowerKept u0 (State.updEnd s) := by
  unfold State.updEnd
  with_reducible repeat' first
    | assumption | (refine FldFree.of_ge _ ?_; simp only [F.UPD_STAT_LOCK, F.UPD_STAT_OWNER]; omega) | (simp only [F.UPD_STAT_LOCK, F.UPD_STAT_OWNER]; omega) | (exact FldFree.mode _ (by with_unfolding_all rfl) (by decide) (by decide)) | apply PowerKept.fset | apply State.updAxis_power | exact PowerKept.upd (by assumption)

theorem State.gateCommands_power (h : PowerKept u0 s)  : PowerKept u0 (State.gateCommands s) := by
  unfold State.gateCommands
  with_reducible repeat' first
    | assumption | refine PowerKept.ite (fun _ => ?_) (fun _ => ?_) | split | exact PowerKept.upd (by assumption)

theorem State.resetRange_wf (h : regsWf s.regs = true) (lo hi : Nat) : regsWf (s.resetRange lo hi).regs = true :=
  sparseWf_drop resetValue s.regs lo hi h

theorem State.resetBlock_wf (h : regsWf s.regs = true) (n : Nat) : regsWf (s.resetBlock n).regs = true := sparseWf_drop resetValue s.regs _ _ h

/-- Outside a range that goes back to reset values, registers read as before. -/
theorem State.word_resetRange (h : regsWf s.regs = true) (lo hi a : Nat) (ha : a < lo ∨ hi ≤ a) : (s.resetRange lo hi).word a = s.word a :=
  sparseGet_drop_out _ _ lo hi a (by unfold regsWf sparseWf at h; rw [Bool.and_eq_true] at h; exact h.1) ha

/-- Inside it they read as after reset. -/
theorem State.word_resetRange_in (s : State) (lo hi a : Nat) (h1 : lo ≤ a) (h2 : a < hi) : (s.resetRange lo hi).word a = resetValue a :=
  sparseGet_drop_in _ _ lo hi a h1 h2

theorem State.word_resetBlock (h : regsWf s.regs = true) (n a : Nat) (ha : a < 0x40000000 + n * 0x10000 ∨ 0x40000000 + (n + 1) * 0x10000 ≤ a) :
    (s.resetBlock n).word a = s.word a := State.word_resetRange h _ _ a ha

theorem State.resetRange_power (h : PowerKept u0 s) (hw : regsWf s.regs = true) (lo hi : Nat) (hl : 0x40010000 ≤ lo) :
    PowerKept u0 (s.resetRange lo hi) := by
  refine h.trans ⟨fun a ha => State.word_resetRange hw lo hi a (Or.inl ?_), ?_⟩
  · unfold supFixed at ha
    simp only [A.SUP_DOM, A.SUP_STAT, A.SUP_START, A.SUP_VIN, A.SUP_CAGE] at ha
    omega
  · unfold State.pwr State.fget
    rw [State.word_resetRange hw lo hi _ (Or.inl (by simp only [F.SUP_MODE_PWR]; omega))]

theorem State.resetBlock_power (h : PowerKept u0 s) (hw : regsWf s.regs = true) (n : Nat) (hn : 1 ≤ n) : PowerKept u0 (s.resetBlock n) :=
  State.resetRange_power h hw _ _ (by omega)

theorem State.dropMem_power (h : PowerKept u0 s) (lo hi : Nat) : PowerKept u0 (s.dropMem lo hi) := h.trans ⟨fun _ _ => rfl, rfl⟩
theorem State.clearSram_power (h : PowerKept u0 s) : PowerKept u0 s.clearSram := h.trans ⟨fun _ _ => rfl, rfl⟩

theorem State.safaReset_power (h : PowerKept u0 s) (hw : regsWf s.regs = true)  : PowerKept u0 (State.safaReset s) := by
  unfold State.safaReset
  with_reducible repeat' first
    | assumption | apply State.resetBlock_wf | apply State.resetRange_wf | decide | (refine FldFree.of_ge _ ?_; simp only [F.SUP_MODE_MEM]; omega) | (simp only [F.SUP_MODE_MEM]; omega) | (exact FldFree.mode _ (by with_unfolding_all rfl) (by decide) (by decide)) | apply State.resetBlock_power | apply PowerKept.fset | apply State.showSet_power
    | apply State.safePower_power
    | (extract_lets +onlyGivenNames xq; refine (fun (hx : PowerKept u0 xq) => ?_) ?_; rotate_left; dsimp -zeta only [xq]; rotate_left; clear_value xq)
    | (extract_lets +onlyGivenNames xq; (have hq : xq = xq := by (dsimp -zeta only [xq])); clear hq; clear_value xq)
    | apply PowerKept.upd

theorem State.coreReset_power (h : PowerKept u0 s) (hw : regsWf s.regs = true)  : PowerKept u0 (State.coreReset s) := by
  unfold State.coreReset
  with_reducible repeat' first
    | assumption | apply State.resetBlock_wf | apply State.resetRange_wf | decide | (refine FldFree.of_ge _ ?_; simp only [F.MEM_STAT_INIT]; omega) | (simp only [F.MEM_STAT_INIT]; omega) | (exact FldFree.mode _ (by with_unfolding_all rfl) (by decide) (by decide)) | apply State.clearSram_power | apply State.resetBlock_power | apply PowerKept.fset
    | apply State.showTick_power
    | (extract_lets +onlyGivenNames xq; refine (fun (hx : PowerKept u0 xq) => ?_) ?_; rotate_left; dsimp -zeta only [xq]; rotate_left; clear_value xq)
    | (extract_lets +onlyGivenNames xq; (have hq : xq = xq := by (dsimp -zeta only [xq])); clear hq; clear_value xq)
    | refine PowerKept.ite (fun _ => ?_) (fun _ => ?_) | split | exact PowerKept.upd (by assumption)

theorem State.planReset_power (h : PowerKept u0 s) (hw : regsWf s.regs = true)  : PowerKept u0 (State.planReset s) := by
  unfold State.planReset
  with_reducible repeat' first
    | assumption | refine PowerKept.trans ?_ (State.setCond_reports (Reports.refl _) _ _).powerKept | apply State.resetBlock_wf | apply State.resetRange_wf | decide | (refine FldFree.of_ge _ ?_; simp only [F.SUP_MODE_TSRC]; omega) | (simp only [F.SUP_MODE_TSRC]; omega) | (exact FldFree.mode _ (by with_unfolding_all rfl) (by decide) (by decide)) | apply State.resetBlock_power | apply PowerKept.fset | apply State.setRtAdj_power
    | apply State.showTick_power
    | (extract_lets +onlyGivenNames xq; refine (fun (hx : PowerKept u0 xq) => ?_) ?_; rotate_left; dsimp -zeta only [xq]; rotate_left; clear_value xq)
    | (extract_lets +onlyGivenNames xq; (have hq : xq = xq := by (dsimp -zeta only [xq])); clear hq; clear_value xq)
    | apply PowerKept.upd

theorem State.unlockDlls_power (h : PowerKept u0 s) (l : List LaneId) : PowerKept u0 (State.unlockDlls s l) := by
  unfold State.unlockDlls
  with_reducible repeat' first
    | assumption | (refine FldFree.of_ge _ ?_; simp only [F.CLK_DLLSTAT_LOCK]; omega) | (simp only [F.CLK_DLLSTAT_LOCK]; omega) | (exact FldFree.mode _ (by with_unfolding_all rfl) (by decide) (by decide)) | apply PowerKept.each | apply PowerKept.fclrBit | apply PowerKept.each | (intro _; skip)

theorem State.ringReset_power (h : PowerKept u0 s) (hw : regsWf s.regs = true)  : PowerKept u0 (State.ringReset s) := by
  unfold State.ringReset
  with_reducible repeat' first
    | assumption | apply State.resetBlock_wf | apply State.resetRange_wf | decide | apply State.resetBlock_power | apply State.unlockDlls_power | (intro _; skip)
    | (extract_lets +onlyGivenNames xq; refine (fun (hx : PowerKept u0 xq) => ?_) ?_; rotate_left; dsimp -zeta only [xq]; rotate_left; clear_value xq)
    | (extract_lets +onlyGivenNames xq; (have hq : xq = xq := by (dsimp -zeta only [xq])); clear hq; clear_value xq)
    | refine PowerKept.ite (fun _ => ?_) (fun _ => ?_) | split | exact PowerKept.upd (by assumption)

theorem State.strmReset_power (h : PowerKept u0 s) (hw : regsWf s.regs = true)  : PowerKept u0 (State.strmReset s) := by
  unfold State.strmReset
  with_reducible repeat' first
    | assumption | apply State.resetBlock_wf | apply State.resetRange_wf | decide | apply State.resetRange_power | apply State.unlockDlls_power | (intro _; skip)
    | (extract_lets +onlyGivenNames xq; refine (fun (hx : PowerKept u0 xq) => ?_) ?_; rotate_left; dsimp -zeta only [xq]; rotate_left; clear_value xq)
    | (extract_lets +onlyGivenNames xq; (have hq : xq = xq := by (dsimp -zeta only [xq])); clear hq; clear_value xq)
    | refine PowerKept.ite (fun _ => ?_) (fun _ => ?_) | split | exact PowerKept.upd (by assumption)

theorem State.hostReset_power (h : PowerKept u0 s) (hw : regsWf s.regs = true)  : PowerKept u0 (State.hostReset s) := by
  unfold State.hostReset
  with_reducible repeat' first
    | assumption | apply State.resetBlock_wf | apply State.resetRange_wf | decide | (refine FldFree.of_ge _ ?_; simp only [F.HOST_MACH_ADDR, F.HOST_MACL_ADDR, F.HOST_STAT_LOADER]; omega) | (simp only [F.HOST_MACH_ADDR, F.HOST_MACL_ADDR, F.HOST_STAT_LOADER]; omega) | (exact FldFree.mode _ (by with_unfolding_all rfl) (by decide) (by decide)) | apply PowerKept.each | apply State.resetRange_power | apply State.resetBlock_power
    | apply PowerKept.fset | apply State.updAxis_power | apply PowerKept.each | (intro _; skip)
    | (extract_lets +onlyGivenNames xq; refine (fun (hx : PowerKept u0 xq) => ?_) ?_; rotate_left; dsimp -zeta only [xq]; rotate_left; clear_value xq)
    | (extract_lets +onlyGivenNames xq; (have hq : xq = xq := by (dsimp -zeta only [xq])); clear hq; clear_value xq)
    | apply PowerKept.upd

theorem State.dramReset_power (h : PowerKept u0 s) (hw : regsWf s.regs = true)  : PowerKept u0 (State.dramReset s) := by
  unfold State.dramReset
  with_reducible repeat' first
    | assumption | apply State.resetBlock_wf | apply State.resetRange_wf | decide | apply State.dropMem_power | apply State.resetBlock_power | apply State.captAxis_power
    | (extract_lets +onlyGivenNames xq; refine (fun (hx : PowerKept u0 xq) => ?_) ?_; rotate_left; dsimp -zeta only [xq]; rotate_left; clear_value xq)
    | (extract_lets +onlyGivenNames xq; (have hq : xq = xq := by (dsimp -zeta only [xq])); clear hq; clear_value xq)
    | apply PowerKept.upd

theorem State.anlgReset_power (h : PowerKept u0 s) (hw : regsWf s.regs = true)  : PowerKept u0 (State.anlgReset s) := by
  unfold State.anlgReset
  with_reducible repeat' first
    | assumption | apply State.resetBlock_wf | apply State.resetRange_wf | decide | apply State.resetBlock_power | apply State.adcRelease_power | apply State.gateCommands_power
    | (extract_lets +onlyGivenNames xq; refine (fun (hx : PowerKept u0 xq) => ?_) ?_; rotate_left; dsimp -zeta only [xq]; rotate_left; clear_value xq)
    | (extract_lets +onlyGivenNames xq; (have hq : xq = xq := by (dsimp -zeta only [xq])); clear hq; clear_value xq)
    | apply PowerKept.upd

theorem State.domainReset_power (h : PowerKept u0 s) (hw : regsWf s.regs = true) (d : Nat) : PowerKept u0 (State.domainReset s d) := by
  unfold State.domainReset
  with_reducible repeat' first
    | assumption | apply State.modMtr_power | apply State.resetBlock_wf | apply State.resetRange_wf | decide | apply State.resetBlock_power | apply State.safePower_power | apply State.gateCommands_power
    | apply State.safaReset_power | apply State.coreReset_power | apply State.planReset_power
    | apply State.ringReset_power | apply State.strmReset_power | apply State.hostReset_power
    | apply State.dramReset_power | apply State.anlgReset_power | split | exact PowerKept.upd (by assumption)

theorem PowerKept.beginStop (h : PowerKept u0 s) (b : Bool) : PowerKept u0 (s.beginStop b) :=
  h.trans (State.beginStop_reports (Reports.refl _) _).powerKept

theorem State.afterOff_power (h : PowerKept u0 s) (d : Nat) : PowerKept u0 (s.afterOff d) := by
  unfold State.afterOff
  split
  · have h1 : PowerKept u0 { s with memory := { s.memory with buf := [] } } := PowerKept.upd h
    exact PowerKept.ite (fun _ => State.chanFault_power h1 _) (fun _ => h1)
  · exact PowerKept.ite (fun _ => State.chanFault_power h _) (fun _ => h)
  · exact State.mtrDown_power h
  · exact State.discardTakes_power h
  · exact h.beginStop true
  · have h1 : PowerKept u0 { s.bridgeOff with access := none } := PowerKept.upd (State.bridgeOff_power h)
    exact PowerKept.ite (fun _ => PowerKept.upd h1) (fun _ => h1)
  · exact State.strmLink_power (State.haltReadout_power (State.losePeer_power h))
  · exact State.hostLinkCond_power (State.updEnd_power (State.toHoldover_power
      (PowerKept.each _ _ (fun x t ht => State.abandonTakes_power (State.endSession_power ht x) _) h)))
  · have h1 : PowerKept u0 { s.captLoss with strm := { s.captLoss.strm with buf := [] } } := PowerKept.upd (State.captLoss_power h)
    exact State.haltReadout_power h1
  · exact (State.bridgeOff_power (State.gatesLost_power h)).beginStop true
  · exact State.gatesLost_power h
  · exact h

theorem State.cellStop_power (h : PowerKept u0 s) (t : BitVec 48) (x : RingId) (k : CellId) : PowerKept u0 (State.cellStop s t x k) := by
  unfold State.cellStop
  with_reducible repeat' first
    | assumption | apply State.modCell_power | apply State.cellBlock_power | (intro _; skip)
    | refine PowerKept.ite (fun _ => ?_) (fun _ => ?_) | split | exact PowerKept.upd (by assumption)

end Sys2Proof.Machine
end

