-- ==== Sys2Proof/Laws/RegAccess.lean ====
section
/-!
SUPPORT. Laws of register accesses: an accepted direct write is its effect, with at most a new version and an answer beside
it; a read with an effect of its own is that effect, with its answer.
-/

namespace Sys2Proof.Machine

set_option linter.all false

/-- From `x` to `y` only the registers of TAKE, the versions and the outputs differ. -/
structure VersionOnly (x y : State) : Prop where
  word : ∀ a, a ≠ A.TAKE_WSEQL → a ≠ A.TAKE_WSEQH → y.word a = x.word a
  rest : y = { x with regs := y.regs, vers := y.vers, out := y.out }
  out  : ∀ o ∈ x.out, o ∈ y.out

namespace VersionOnly

variable {x y : State}

theorem refl (x : State) : VersionOnly x x := ⟨fun _ _ _ => rfl, rfl, fun _ h => h⟩

theorem outside (h : VersionOnly x y) (a : Nat) (ha : a < 0x40030000 ∨ 0x40040000 ≤ a) : y.word a = x.word a := by
  refine h.word a ?_ ?_ <;> simp only [A.TAKE_WSEQL, A.TAKE_WSEQH] <;> omega

theorem fget (h : VersionOnly x y) (f : Fld) (hf : f.addr < 0x40030000 ∨ 0x40040000 ≤ f.addr) : y.fget f = x.fget f := by
  unfold State.fget
  rw [h.outside _ hf]

theorem mem (h : VersionOnly x y) : y.mem = x.mem := by rw [h.rest]
theorem pending (h : VersionOnly x y) : y.pending = x.pending := by rw [h.rest]
theorem ticks (h : VersionOnly x y) : y.ticks = x.ticks := by rw [h.rest]
theorem live (h : VersionOnly x y) : y.live = x.live := by rw [h.rest]
theorem timer (h : VersionOnly x y) : y.timer = x.timer := by rw [h.rest]
theorem sup (h : VersionOnly x y) : y.sup = x.sup := by rw [h.rest]
theorem clk (h : VersionOnly x y) : y.clk = x.clk := by rw [h.rest]
theorem tim (h : VersionOnly x y) : y.tim = x.tim := by rw [h.rest]
theorem cores (h : VersionOnly x y) : y.cores = x.cores := by rw [h.rest]
theorem takes (h : VersionOnly x y) : y.takes = x.takes := by rw [h.rest]
theorem plan (h : VersionOnly x y) : y.plan = x.plan := by rw [h.rest]
theorem rings (h : VersionOnly x y) : y.rings = x.rings := by rw [h.rest]
theorem ports (h : VersionOnly x y) : y.ports = x.ports := by rw [h.rest]
theorem access (h : VersionOnly x y) : y.access = x.access := by rw [h.rest]
theorem brg (h : VersionOnly x y) : y.brg = x.brg := by rw [h.rest]
theorem adc (h : VersionOnly x y) : y.adc = x.adc := by rw [h.rest]
theorem capt (h : VersionOnly x y) : y.capt = x.capt := by rw [h.rest]
theorem mtr (h : VersionOnly x y) : y.mtr = x.mtr := by rw [h.rest]
theorem flt (h : VersionOnly x y) : y.flt = x.flt := by rw [h.rest]
theorem memory (h : VersionOnly x y) : y.memory = x.memory := by rw [h.rest]
theorem strm (h : VersionOnly x y) : y.strm = x.strm := by rw [h.rest]

end VersionOnly

theorem State.newVersion_only (s : State) (a : Nat) : VersionOnly s (s.newVersion a) := by
  unfold State.newVersion
  split
  · refine ⟨fun b hl hh => ?_, rfl, fun _ h => h⟩
    have h : ∀ w, (s.setWseq w).word b = s.word b := by
      intro w
      unfold State.setWseq
      rw [State.word_fset_ne _ _ _ _ hh, State.word_fset_ne _ _ _ _ hl]
    exact h _
  · exact VersionOnly.refl s

theorem State.emit_only (s : State) (o : Out) : VersionOnly s (s.emit o) := ⟨fun _ _ _ => rfl, rfl, fun _ h => List.mem_append_left _ h⟩

/-- Only RING and MTR have boundaries that time alone brings. -/
theorem upToDate_of_block (s : State) (a : Nat) (h6 : blockOf a ≠ 6) (h16 : blockOf a ≠ 16) : upToDate s a := by
  unfold upToDate State.blockDue
  split
  · rename_i e; exact absurd e h6
  · rename_i e; exact absurd e h16
  · rfl

/-- An accepted write that has an effect of its own. -/
theorem State.busWrite_effect (s : State) (req : Requester) (a : Nat) (v : Word) (h : writeFree s a v) (x : State) (w : Wrote)
    (hx : ∀ r i, findReg a = some (r, i) → s.writeEffect req false a r v = some (x, w)) : VersionOnly x (s.busWrite req a v) := by
  obtain ⟨h0, r, i, h1, h2, h3⟩ := h
  have h4 := hx r i h1
  have h5 : ∃ w', s.applyWrite req false a r v = (x, w') := by
    unfold State.applyWrite
    rw [h4]
    unfold State.afterWrite
    dsimp only [Option.getD]
    split <;> exact ⟨_, rfl⟩
  obtain ⟨w', h5⟩ := h5
  have h6 : s.writeReg req a v = if w' = .done then (x.newVersion a, w') else (x, w') := by
    unfold State.writeReg
    rw [h1]
    dsimp only
    rw [show s.blockDue a = s from h0, h2, Bool.true_or, if_pos rfl, h3]
    dsimp only
    rw [h5]
  unfold State.busWrite
  rw [h6]
  by_cases hw : w' = .done
  · rw [if_pos hw, hw]
    exact State.newVersion_only x a
  · rw [if_neg hw]
    split
    · rename_i e; cases e; exact State.emit_only _ _
    · rename_i e; cases e; exact VersionOnly.refl x

/-- An accepted write that has none stores its fields. -/
theorem State.busWrite_store (s : State) (req : Requester) (a : Nat) (v : Word) (h : writeFree s a v)
    (hx : ∀ r i, findReg a = some (r, i) → s.writeEffect req false a r v = none) (r : RegRow) (i : Nat) (hr : findReg a = some (r, i)) :
    VersionOnly (s.storeFields false a r v) (s.busWrite req a v) := by
  obtain ⟨h0, r', i', h1, h2, h3⟩ := h
  rw [hr] at h1
  cases h1
  have h4 := hx r i hr
  have h5 : ∃ w', s.applyWrite req false a r v = (s.storeFields false a r v, w') := by
    unfold State.applyWrite
    rw [h4]
    unfold State.afterWrite
    dsimp only [Option.getD]
    split <;> exact ⟨_, rfl⟩
  obtain ⟨w', h5⟩ := h5
  have h6 : s.writeReg req a v =
      if w' = .done then ((s.storeFields false a r v).newVersion a, w') else (s.storeFields false a r v, w') := by
    unfold State.writeReg
    rw [hr]
    dsimp only
    rw [show s.blockDue a = s from h0, h2, Bool.true_or, if_pos rfl, h3]
    dsimp only
    rw [h5]
  unfold State.busWrite
  rw [h6]
  by_cases hw : w' = .done
  · rw [if_pos hw, hw]
    exact State.newVersion_only _ a
  · rw [if_neg hw]
    split
    · rename_i e; cases e; exact State.emit_only _ _
    · rename_i e; cases e; exact VersionOnly.refl _

/-- A rejected write stores nothing: it only reports. -/
theorem State.busWrite_rejected (s : State) (req : Requester) (a : Nat) (v : Word) (r : RegRow) (i : Nat)
    (hr : findReg a = some (r, i)) (hd : upToDate s a) (hp : s.powered (regDomain a) = true) (hg : s.writeGrounds a r v ≠ []) :
    Reports s (s.busWrite req a v) := by
  have key : ∀ (l : List Nat) (t : State), Reports s t → Reports s (t.each l fun n s => s.raise n) := by
    intro l
    induction l with
    | nil => exact fun _ h => h
    | cons n l ih => exact fun t h => ih _ (State.raise_reports_of h n)
  have h6 : ∃ w, s.writeReg req a v = (s.each (s.writeGrounds a r v) fun n s => s.raise n, w) ∧ w ≠ .busError := by
    unfold State.writeReg
    rw [hr]
    dsimp only
    rw [show s.blockDue a = s from hd, hp, Bool.true_or, if_pos rfl]
    split
    · rename_i e; exact absurd e hg
    · refine ⟨_, rfl, ?_⟩
      split <;> simp
  obtain ⟨w, h6, hw⟩ := h6
  unfold State.busWrite
  rw [h6]
  split
  · rename_i e; cases e; exact absurd rfl hw
  · rename_i e; cases e; exact key _ _ (Reports.refl s)

/-- A read with an effect of its own. -/
theorem State.busRead_effect (s : State) (req : Requester) (a : Nat) (h : readable s a) (x : Option Word × State)
    (hx : s.readEffect a = some x) : s.busRead req a = x.2.emit (.value req x.1) := by
  obtain ⟨h0, h1, h2⟩ := h
  obtain ⟨⟨r, i⟩, h1⟩ := Option.isSome_iff_exists.mp h1
  unfold State.busRead State.readReg
  rw [h1]
  dsimp only
  rw [show s.blockDue a = s from h0, if_pos h2, hx]

/-- A read of an ordinary register. -/
theorem State.busRead_plain (s : State) (req : Requester) (a : Nat) (r : RegRow) (i : Nat) (hr : findReg a = some (r, i))
    (hd : upToDate s a) (hp : s.powered (regDomain a) = true) (he : s.readEffect a = none) (hc : s.computed req a = none) :
    s.busRead req a = ((s.readClear a r).2).emit (.value req (some (s.word a))) := by
  unfold State.busRead State.readReg
  rw [hr]
  dsimp only
  rw [show s.blockDue a = s from hd, if_pos hp, he, hc]
  rfl

/-! Arrays of registers. -/

theorem regIdx_self (base stride n : Nat) (hs : 0 < stride) (i : Fin n) : regIdx base stride n (base + stride * i.val) = some i := by
  unfold regIdx
  rw [List.find?_eq_some_iff_append]
  refine ⟨by simp, (List.finRange n).take i.val, (List.finRange n).drop (i.val + 1), ?_, ?_⟩
  · have h : i.val < (List.finRange n).length := by simp
    have e : (List.finRange n)[i.val] = i := by simp
    conv => lhs; rw [← List.take_append_drop i.val (List.finRange n)]
    rw [List.drop_eq_getElem_cons h, e]
  · intro j hj
    obtain ⟨k, hk, e⟩ := List.getElem_of_mem hj
    rw [List.getElem_take, List.getElem_finRange] at e
    have hk' : k < i.val := by simp at hk; omega
    have hjv : j.val = k := by rw [← e]; rfl
    have hlt : stride * j.val < stride * i.val := Nat.mul_lt_mul_of_pos_left (by omega) hs
    simp only [Bool.not_eq_true', beq_eq_false_iff_ne, ne_eq]
    omega

theorem regIdx_none (base stride n a : Nat) (h : ∀ i, i < n → base + stride * i ≠ a) : regIdx base stride n a = none := by
  unfold regIdx
  rw [List.find?_eq_none]
  intro i _
  have := h i.val i.isLt
  simp [this]

end Sys2Proof.Machine
end

