-- ==== Sys2Proof/WellFormed.lean ====
section
/-!
DEFINITION. Well-formed commands: operands within the widths and lengths that the manual gives them. A command from
outside the module may break these; `exec` answers it all the same.
-/

namespace Sys2Proof

/-- An address or a count that a 32-bit field holds. -/
def fits32 (n : Nat) : Bool := decide (n < 2 ^ 32)

/-- A length within bounds and a multiple of a unit. -/
def lengthOk (lo hi unit n : Nat) : Bool := decide (lo ≤ n ∧ n ≤ hi ∧ n % unit = 0)

/-- Address and value pairs of REG_WRITE and TK_WR (R477). -/
def pairsOk (l : List (Nat × Word)) : Bool := lengthOk 1 128 1 l.length && l.all fun e => fits32 e.1

/-- Well-formedness of one command. -/
def Instr.wellFormed (i : Instr) : Bool :=
  match i with
  | .registerWrite _ addr _ => fits32 addr && addr % 4 == 0
  | .rcRead _ addr => fits32 addr && addr % 4 == 0
  | .slli _ _ _ imm => decide (imm.toNat < 32)
  | .srli _ _ _ imm => decide (imm.toNat < 32)
  | .srai _ _ _ imm => decide (imm.toNat < 32)
  | .vget _ _ _ idx => decide (idx.toNat < 48)
  | .vset _ _ _ idx => decide (idx.toNat < 48)
  | .rdsys _ _ sel => decide (sel.toNat ≤ 4)
  | .tkPrint _ _ _ bnd => decide (bnd.toNat ≤ 4)
  | .emit _ _ _ dest _ => decide (dest.toNat < 4)
  | .summaryReturn _ cw ccw _ => cw.length == 40 && ccw.length == 40
  | .cellSummSlot _ _ _ slots _ => slots.length == 40
  | .trainingTimeout _ _ eyes => eyes.length == 3
  | .conversionSlot codes _ => codes.length == 32
  | .mtrSample codes => codes.length == 16
  | .ceWriteback addr => fits32 addr
  | .scrubRead _ addr => fits32 addr
  | .regRead _ addr count => fits32 addr && lengthOk 1 256 1 count
  | .regWrite _ pairs => pairsOk pairs
  | .memRead _ addr nbytes => fits32 addr && lengthOk 4 1024 4 nbytes
  | .memWrite _ addr data => fits32 addr && lengthOk 4 1024 4 data.length
  | .coreLoad _ core sel word words =>
    decide (core.toNat < 12) && decide (sel.toNat < 2) && decide (word < 2 ^ 15) && lengthOk 1 256 1 words.length
  | .tkWrCommand _ handle pairs => decide (handle.toNat < 8) && pairsOk pairs
  | .tkPrintCommand _ handle bnd _ => decide (handle.toNat < 8) && decide (bnd.toNat ≤ 4)
  | .tkCutCommand _ handle => decide (handle.toNat < 8)
  | .tkStatCommand _ handle => decide (handle.toNat < 8)
  | .updOpen _ slate => slate.length == 128
  | .updBlock _ offset data => fits32 offset && lengthOk 8 1024 8 data.length
  | .safeLoad _ set => set.length == 512
  | .keyInit _ key => key.length == 32
  | .keySet _ target key => decide (target.toNat < 2) && key.length == 32
  | _ => true

end Sys2Proof
end

