-- ==== Sys2Proof/Tests/Slice0.lean ====
section
/-!
SUPPORT. Tests: well-formedness refuses an ill-formed term for each check; a state and operands that meet the hypotheses of
every statement, clause by clause; worked examples of the manual.
-/

namespace Sys2Proof.Tests

open Sys2Proof Sys2Proof.Machine

/-! States that the tests start from. -/

/-- Every domain powered. -/
def on : State := State.reset.fset F.SUP_DOM_PWR 0xFFF

/-- A requester: host port 0. -/
def rq : Requester := .host 0

/-- Core 0 is RUNNING. -/
def run : State := on.setCoreState 0 coreRunning

/-- Core 0 in a speculative run. -/
def spec : State := on.setCoreState 0 coreSpec

/-- s5 of core 0 holds a value. -/
def withReg (v : Word) : State := run.writeS 0 5 v

/-- A session on port 0 with a key, the loader left. -/
def hosted : State :=
  (((on.fset F.HOST_STAT_LINK 7).fset F.HOST_STAT_LOADER 0).fset (F.HOST_IP_ADDR 0) 1).modHost 0 fun p =>
    { p with key := some [], session := some (1, 2) }

/-- The same on the service port. -/
def service : State :=
  (((on.fset F.HOST_STAT_LINK 7).fset F.HOST_STAT_LOADER 0).fset (F.HOST_IP_ADDR 2) 1).modHost 2 fun p =>
    { p with key := some [], session := some (1, 2) }

/-- A request with counter 1 from the sender of `hosted`, and of `service`. -/
def q0 : Dgram := ⟨0, 1, 2, 1⟩
def q2 : Dgram := ⟨2, 1, 2, 1⟩

/-! Well-formedness. -/

theorem test_wf_addresses :
    (Instr.registerWrite rq 2 0).wellFormed = false ∧ (Instr.registerWrite rq (2 ^ 32) 0).wellFormed = false ∧
    (Instr.rcRead rq 1).wellFormed = false ∧ (Instr.ceWriteback (2 ^ 32)).wellFormed = false ∧
    (Instr.scrubRead .sram (2 ^ 32)).wellFormed = false ∧ (Instr.regRead q0 (2 ^ 32) 1).wellFormed = false ∧
    (Instr.registerWrite rq 4 0).wellFormed = true := by decide

theorem test_wf_core :
    (Instr.slli 0 1 1 32).wellFormed = false ∧ (Instr.srli 0 1 1 32).wellFormed = false ∧ (Instr.srai 0 1 1 32).wellFormed = false ∧
    (Instr.vget 0 1 1 48).wellFormed = false ∧ (Instr.vset 0 1 1 48).wellFormed = false ∧ (Instr.rdsys 0 1 5).wellFormed = false ∧
    (Instr.tkPrint 0 1 1 5).wellFormed = false ∧ (Instr.emit 0 1 1 4 0).wellFormed = false ∧
    (Instr.slli 0 1 1 31).wellFormed = true := by decide

theorem test_wf_lists :
    (Instr.summaryReturn 0 [] []).wellFormed = false ∧ (Instr.cellSummSlot 0 0 .cw []).wellFormed = false ∧
    (Instr.conversionSlot [] 0).wellFormed = false ∧ (Instr.mtrSample []).wellFormed = false ∧
    (Instr.trainingTimeout 0 true []).wellFormed = false ∧ (Instr.mtrSample (List.replicate 16 0)).wellFormed = true := by decide

theorem test_wf_host :
    (Instr.regRead q0 0 0).wellFormed = false ∧ (Instr.regRead q0 0 257).wellFormed = false ∧ (Instr.regWrite q0 []).wellFormed = false ∧
    (Instr.memRead q0 0 6).wellFormed = false ∧ (Instr.memWrite q0 0 []).wellFormed = false ∧
    (Instr.coreLoad q0 12 0 0 [0]).wellFormed = false ∧ (Instr.tkWrCommand q0 8 [(0, 0)]).wellFormed = false ∧
    (Instr.tkPrintCommand q0 0 5 0).wellFormed = false ∧ (Instr.tkCutCommand q0 8).wellFormed = false ∧
    (Instr.tkStatCommand q0 8).wellFormed = false ∧ (Instr.updOpen q0 []).wellFormed = false ∧
    (Instr.updBlock q0 0 [1, 2]).wellFormed = false ∧ (Instr.safeLoad q2 []).wellFormed = false ∧
    (Instr.keyInit q2 []).wellFormed = false ∧ (Instr.keySet q2 2 (List.replicate 32 0)).wellFormed = false ∧
    (Instr.regRead q0 0 256).wellFormed = true := by decide

/-! Words of the script cores, bit by bit from the encodings of chapter 4, and words that are no instruction. -/

theorem test_words :
    decodeScript 0 0x04611000 = some (.add 0 3 1 2) ∧ decodeScript 0 0xB2305400 = some (.piStep 0 4 3 0 1 10) ∧
    decodeScript 0 0xC0000000 = some (.nop 0) ∧ decodeScript 0 0 = none ∧ decodeScript 0 0x04611040 = none ∧
    decodeScript 0 0xFFFFFFFF = none := by decide

/-! Witnesses: core instructions. -/

/-- CoreSound, from its parts as one condition. -/
theorem core_sound (s : State) (n : CoreId) (h : s.coreReady n = true ∧ (s.cores[n]).upset = none ∧
    eccAt (s.cores[n]).imemErr (s.cores[n]).pc.toNat = none ∧ (∀ r : Sreg, (s.cores[n]).r.sres[r] = wordResidue (s.cores[n]).r.s[r]))
    (hv : ∀ (r : Vreg) (i : Fin 48), ((s.cores[n]).r.v[r]).res[i] = mantResidue ((s.cores[n]).r.v[r]).mant[i])
    (hp : ∀ r : Preg, (s.cores[n]).r.ppar[r] = predParity (s.cores[n]).r.p[r]) : CoreSound s n :=
  ⟨h.1, h.2.1, h.2.2.1, h.2.2.2, hv, hp⟩

theorem test_sound_run : CoreSound run 0 := core_sound run 0 (by decide) (by decide) (by decide)
theorem test_sound_spec : CoreSound spec 0 := core_sound spec 0 (by decide) (by decide) (by decide)
theorem test_sound_dmem : CoreSound (withReg 0xF0000004) 0 := core_sound _ 0 (by decide) (by decide) (by decide)
theorem test_sound_minus : CoreSound (withReg 0xFFFFFFFF) 0 := core_sound _ 0 (by decide) (by decide) (by decide)

/-- DivisionResults: a divisor other than 0, the corner, and 0. -/
theorem test_division_hyps :
    run.sVal 0 0 = 0 ∧ run.inSpec 0 = false ∧ (withReg 0xFFFFFFFF).sVal 0 5 = 0xFFFFFFFF ∧
    ((withReg 0xFFFFFFFF).writeS 0 6 0x80000000).sVal 0 6 = 0x80000000 := by decide

/-- ImmediateResults and BranchesAndJumps: the largest shift, the word behind LI, a target in IMEM and one before it. -/
theorem test_branch_hyps :
    (31 : BitVec 16).toNat < 32 ∧ eccAt (run.cores[(0 : CoreId)]).imemErr ((run.cores[(0 : CoreId)]).pc + 4).toNat = none ∧
    imemAddr (((run.cores[(0 : CoreId)]).pc.toNat : Int) + 4 * (16383 : BitVec 16).toInt) ∧
    imemAddr ((run.sVal 0 5).toNat : Int) ∧ ¬imemAddr (((run.cores[(0 : CoreId)]).pc.toNat : Int) + 4 * (0xFFFF : BitVec 16).toInt) := by
  unfold imemAddr; decide

set_option maxRecDepth 20000 in
/-- DmemLoads, DmemStores: accesses at the first bytes and up to the last byte of DMEM, clean, and a misaligned one. -/
theorem test_dmem_hyps :
    let s := withReg 0xF0000004
    effAddr (s.sVal 0 5) 0xFFFC = 0xF0000000 ∧ inDmem 0xF0000000 196 = true ∧ inDmem 0xF001FFFC 4 = true ∧ inDmem 0xF001FFFE 2 = true ∧
    inDmem 0xF001FFFF 1 = true ∧ dmemClean s 0 0xF0000000 49 ∧ (sampleTag 0).toNat ≠ 0 ∧
    (sampleTag (sampleWord 5 31 7)).toNat = sampleWord 5 31 7 % 256 ∧
    ((s.modCore 0 fun c => { c with dmem := dmemPoke c.dmem 0xF0000000 (bytesLE 4 (sampleWord 5 31 7)) }).cores[(0 : CoreId)]).dpeek 0xF0000000 4 =
      sampleWord 5 31 7 ∧
    effAddr (s.sVal 0 5) 1 % 4 ≠ 0 ∧ s.inSpec 0 = false := by
  unfold dmemClean; decide

/-- VectorScalarResults: lane 0 is the first best lane of equal ones, and a predicate with no lane. -/
theorem test_vector_pred : (run.pVal 0 0).getLsbD 0 = true ∧ (run.pVal 0 1 = 0) := by decide

set_option maxRecDepth 20000 in
theorem test_vector_lane (i : Fin 48) :
    ((run.vVal 0 1).lane 0).lt ((run.vVal 0 1).lane i) = false ∧ ((run.vVal 0 1).lane i).lt ((run.vVal 0 1).lane 0) = false := by
  revert i; decide

/-- HYST, PI.STEP and SETP: parameters in DMEM, in order, and out of order. -/
theorem test_law_hyps :
    let s := withReg 0xF0000000
    let p := fun i => sfOfWord (BitVec.ofNat 32 ((s.cores[(0 : CoreId)]).dpeek (0xF0000000 + 4 * i) 4))
    let u := s.modCore 0 fun c => { c with dmem := dmemPoke c.dmem 0xF0000000 (bytesLE 4 (sfResult ⟨1, 0, 1⟩).1.1.toNat) }
    let p' := fun i => sfOfWord (BitVec.ofNat 32 ((u.cores[(0 : CoreId)]).dpeek (0xF0000000 + 4 * i) 4))
    (s.sVal 0 5).toNat = 0xF0000000 ∧ inDmem 0xF0000000 24 = true ∧ dmemClean s 0 0xF0000000 6 ∧ (1 : Vreg) ≠ 2 ∧ (p 1).lt (p 0) = false ∧
    (p 3).lt (p 2) = false ∧ (p 5).lt (p 4) = false ∧ (p' 1).lt (p' 0) = true ∧ dmemClean u 0 0xF0000000 2 := by
  unfold dmemClean; decide

/-- MINSEL at its last base and count. -/
theorem test_minsel_hyps : (2 : BitVec 2).toNat < 3 ∧ (5 : Fin 8).val + (2 : BitVec 2).toNat ≤ 7 := by decide

/-- StageExponent: a stage that fits, and one that saturates. -/
theorem test_stage_hyps : (stage [⟨1, 0, 1⟩]).sat = false ∧ (stage [⟨1, 127, 2 ^ 24⟩]).sat = true := by decide

/-- A direct write that nothing rejects, as one decidable condition. -/
def freeB (s : State) (a : Nat) (v : Word) : Bool :=
  (blockOf a != 16 && (blockOf a != 6 || s.ringNow / epochTicks == s.ringAt)) &&
  match findReg a with
  | some (r, _) => s.powered (regDomain a) && (s.writeGrounds a r v).isEmpty
  | none => false

theorem up_to_date {s : State} {a : Nat} (h : (blockOf a != 16 && (blockOf a != 6 || s.ringNow / epochTicks == s.ringAt)) = true) :
    upToDate s a := by
  unfold upToDate State.blockDue
  split
  · rename_i e
    rw [if_pos (by simpa [e] using h)]
  · rename_i e
    simp [e] at h
  · rfl

theorem write_free {s : State} {a : Nat} {v : Word} (h : freeB s a v = true) : writeFree s a v := by
  unfold freeB at h
  rw [Bool.and_eq_true] at h
  refine ⟨up_to_date h.1, ?_⟩
  have h2 := h.2
  split at h2
  · rename_i r i hr
    rw [Bool.and_eq_true, List.isEmpty_iff] at h2
    exact ⟨r, i, hr, h2.1, h2.2⟩
  · cases h2

set_option maxRecDepth 20000 in
/-- InputSlots: slots after reset name the host page; their data is present or not as its period stamp says. -/
theorem test_input_hyps :
    let d := (run.cores[(0 : CoreId)]).slot 5
    let here := ((run.fset (F.ADC_GMASK_MASK 0) 1).fset (F.ADC_GBUF_BASE 0) 0).modCore 0 fun c =>
      { c with dmem := dmemPoke c.dmem (slotAddr 5 + 10) [1] }
    let e := (here.cores[(0 : CoreId)]).slot 5
    dmemClean here 0 (slotAddr 5) 4 ∧ here.slotPresent e 0 = true ∧ e.lanes.getLsbD 0 = true ∧ here.laneCode e 0 0 = .badTag ∧ here.stampBad e 0 = false ∧
    ({ here with ecc := [(0x3FC, .ue)] }).stampBad e 0 = true ∧ (∀ p ∈ here.slotBurst e 0, here.memReadable p.1 p.2 = true) ∧ here.ecc = [] ∧
    (spec.cores[(0 : CoreId)]).tick + d.tmo * 64 + 1 > spec.ticks ∧ dmemClean run 0 (slotAddr 5) 4 ∧ (d.vec = false) ∧ (run.cores[(0 : CoreId)]).slotExcess 5 = false ∧
    ({ run with ticks := d.tmo * 64 }.cores[(0 : CoreId)]).tick + d.tmo * 64 ≤ ({ run with ticks := d.tmo * 64 }).ticks ∧
    spec.inSpec 0 = true ∧ (d.sp = false ∨ d.mode = 0) := by
  unfold dmemClean; decide

/-- EMIT into a FIFO with room and a full one, and in a speculative run; WAITP without and with a tick waiting; RETT. -/
theorem test_control_hyps :
    let m : EmitMsg := ⟨0, 0, 0, 1, 0, Vector.replicate 48 0, Vector.replicate 48 0, 0⟩
    (run.cores[(0 : CoreId)]).fifo.length = 0 ∧
    ((run.modCore 0 fun c => { c with fifo := List.replicate 8 m }).cores[(0 : CoreId)]).fifo.length = 8 ∧
    run.inSpec 0 = false ∧ spec.inSpec 0 = true ∧ (spec.cores[(0 : CoreId)]).emits.length < 64 ∧ run.fget (F.CORE_CTRL_SPEC 0) = 0 ∧
    (run.cores[(0 : CoreId)]).pendTicks = 0 ∧ 0 < ((run.modCore 0 fun c => { c with pendTicks := 1 }).cores[(0 : CoreId)]).pendTicks ∧
    (on.setCoreState 0 coreTrap).coreState 0 = coreTrap := by decide

theorem test_sound_trap : CoreSound (on.setCoreState 0 coreTrap) 0 := core_sound _ 0 (by decide) (by decide) (by decide)

theorem test_sound_fifo :
    CoreSound (run.modCore 0 fun c => { c with fifo := List.replicate 8 ⟨0, 0, 0, 1, 0, Vector.replicate 48 0, Vector.replicate 48 0, 0⟩ }) 0 :=
  core_sound _ 0 (by decide) (by decide) (by decide)

theorem test_sound_tick : CoreSound (run.modCore 0 fun c => { c with pendTicks := 1 }) 0 := core_sound _ 0 (by decide) (by decide) (by decide)

/-- TrapEntry: TRAPHALT 0 and 1. -/
theorem test_trap_hyps :
    run.inSpec 0 = false ∧ run.coreState 0 ≠ coreTrap ∧ run.fget (F.CORE_CTRL_TRAPHALT 0) = 0 ∧
    (run.fset (F.CORE_CTRL_TRAPHALT 0) 1).fget (F.CORE_CTRL_TRAPHALT 0) = 1 := by decide

/-- A take of core 0, handle 0, in a state. -/
def takeOf (st : Nat) : State := (run.fset (F.TAKE_STAT_OWNER 0) 0x10).fset (F.TAKE_STAT_STATE 0) st

/-- Every handle open. -/
def takeFull : State := (List.range 8).foldl (fun s h => s.fset (F.TAKE_STAT_STATE h) takeOpen) run

theorem test_take_hyps :
    let s := takeOf takeOpen
    run.takeActive 0 = false ∧ (∀ k : HandleId, k < 0 → run.takeActive k = true) ∧ (∀ k : HandleId, takeFull.takeActive k = true) ∧
    s.sVal 0 0 = BitVec.ofNat 32 0 ∧ s.fget (F.TAKE_STAT_OWNER 0) = 0x10 + (0 : CoreId).val ∧ s.takeState 0 = takeOpen ∧
    takeable A.TIME_ASYM = true ∧ staticBad A.TIME_ASYM 0 = false ∧ (s.takes[(0 : HandleId)]).writes.length < 512 ∧ s.takeEntries < 2048 ∧
    (0x40020001 : Nat) % 4 ≠ 0 ∧ s.takeActive 0 = true := by decide

/-- InstructionFrames: an instruction of the group that answers a next state. -/
theorem test_frame_core : computeCore (.nop 0) = some 0 ∧ ∃ t, exec (.nop 0) on = .next t := ⟨rfl, _, rfl⟩

/-! Witnesses: registers, supervisor, cores, takes. -/

/-- RegisterAccess: a plain register, one that rejects a value, one that a read clears or not. -/
theorem test_access_hyps :
    freeB on A.TIME_ASYM 5 = true ∧ on.fresh.readEffect A.TIME_ASYM = none ∧ on.fresh.computed rq A.TIME_ASYM = none ∧
    on.fresh.writeEffect rq false A.TIME_ASYM ⟨"", 0, 0, 1, []⟩ 5 = none ∧ liveWaits A.TIME_ASYM = false ∧
    ((findReg A.CORE_PERIOD).any fun e => !(on.writeGrounds A.CORE_PERIOD e.1 0).isEmpty) = true := by decide

theorem test_latch_hyps :
    let e : HistEntry := ⟨7, false⟩
    let s := { on with flt := { on.flt with hist := on.flt.hist.set 0 [e] } }
    [A.TIME_RTIMEL, A.TIME_LTIMEL, A.BRG_PSTARTL, A.ADC_ZXTL, A.MTR_EL 18, A.FLT_HISTL 15, A.RING_EVTQ3].all
        (fun a => (findReg a).isSome && on.powered (regDomain a)) = true ∧
    (on.fset F.MTR_STAT_STATE mtrRun).mtrState ≠ mtrInit ∧ s.flt.hist[(0 : HistId)] = [e] ∧ on.flt.hist[(0 : HistId)] = [] := by decide

theorem test_start_hyps :
    let lit := { State.reset with sup := { State.reset.sup with inputOn := true } }
    let lost := { lit with sup := { lit.sup with auxLost := true } }
    State.reset.sup.inputOn = false ∧ regsWf lit.regs = true ∧ lit.powered domAon = true ∧ lit.sup.inputOn = true ∧ lit.sup.auxLost = false ∧
    lit.sup.shutdown = false ∧ (startGroups.find? fun g => !(lit.groupLeft g).isEmpty) = some [1, 2] ∧
    lit.fget F.SUP_START_RDYMS = 0xFFFF ∧ lost.sup.auxLost = true ∧ lost.sup.shutdown = false ∧
    ({ lost with sup := { lost.sup with shutdown := true } }).sup.shutdown = true := by decide

/-- SupplyLevels, DomainLoss: the power stage in RUN with the input present, a domain that is on, a shutdown in force. -/
def ran : State := { (on.fset F.SUP_MODE_PWR pwrRun) with sup := { on.sup with inputOn := true } }

theorem test_supply_hyps :
    ran.powered domAon = true ∧ ran.sup.inputOn = true ∧ ran.sup.auxLost = false ∧ ran.running = true ∧ ran.sup.stop = none ∧
    ran.powered 11 = true ∧ ran.powered domPlan = true ∧ ran.sup.islandStop = false ∧
    ({ ran with sup := { ran.sup with shutdown := true } }).sup.shutdown = true := by decide

theorem test_stop_hyps :
    ({ ran with sup := { ran.sup with stop := some ⟨some 7, true, false⟩ } }).sup.stop = some ⟨some 7, true, false⟩ ∧
    ({ ran with sup := { ran.sup with stop := some ⟨some 7, true, true⟩ } }).sup.stop = some ⟨some 7, true, true⟩ := by decide

/-- ArbiterDecisions: each code that is carried out, one that the safety function bars, and one out of order. -/
theorem test_arbiter_stop : ran.sup.stop = none ∧ on.sup.stop = none := by decide

theorem test_arbiter_hyps :
    let fed (s : State) (code : BitVec 4) : State := { s with sup := { s.sup with arb := [⟨rq, code⟩] } }
    let off := { on with safe := { on.safe with held := [], a := { on.safe.a with started := true, lockout := false }, b := { on.safe.b with started := true, lockout := false } } }
    let ok := off.fset F.SUP_MODE_MEM 0
    (fed ran 3).sup.arb = [⟨rq, 3⟩] ∧ ran.running = true ∧ on.safetyBars = true ∧ on.pwr = pwrStopped ∧ on.running = false ∧
    off.safetyBars = false ∧ (off.fset F.SUP_MODE_PWR pwrSafeStop).pwr = pwrSafeStop ∧
    (off.fset F.SUP_MODE_PWR pwrPrecharge).domainBars = false ∧ ran.pwr = pwrRun ∧ (ran.fset F.SUP_MODE_PWR pwrRide).pwr = pwrRide ∧
    ok.fget F.SUP_MODE_THERM ≠ 2 ∧ ok.flag F.SUP_MODE_UPD = false ∧ ok.byteMode = false ∧ ok.ringBars = false ∧ ok.domainBars = false := by
  decide

/-- CoreControl and PeriodTick: a halted core with SEL 0 and 1 up to the last word, a running one. -/
theorem test_core_hyps :
    let sel := on.fset (F.CORE_LADDR_SEL 0) 1
    let last := on.fset (F.CORE_LADDR_WORD 0) 16383
    freeB on A.CORE_ENABLE 0xFFF = true ∧ freeB on A.CORE_PERIOD 3125 = true ∧ freeB on (A.CORE_LDATA 0) 1 = true ∧
    on.coreState 0 = coreHalted ∧ sel.flag (F.CORE_LADDR_SEL 0) = true ∧ eccAt (sel.cores[(0 : CoreId)]).dmemErr 0 = none ∧
    last.flag (F.CORE_LADDR_SEL 0) = false ∧ last.fget (F.CORE_LADDR_WORD 0) ≤ 16383 ∧ run.coreState 0 ≠ coreHalted ∧
    on.powered domPlan = true ∧ on.sup.islandStop = false ∧ on.powered domCore = true ∧
    (on.setCoreState 0 coreWait).coreState 0 = coreWait ∧ run.coreState 0 = coreRunning ∧ (run.cores[(0 : CoreId)]).ckpt = none ∧
    (run.cores[(0 : CoreId)]).atWaitp = false := by decide

theorem test_stall_hyps :
    let m : EmitMsg := ⟨0, 0, 0, 1, 0, Vector.replicate 48 0, Vector.replicate 48 0, 0⟩
    let st (x : Stall) : State := run.modCore 0 fun c => { c with stall := some x }
    (st (.load .word 1 0x1000)).coreAlive 0 = true ∧ inRegSpace 0x1000 = false ∧
    (st (.load .word 1 0x1000)).memReadable 0x1000 4 = true ∧ run.memWritable 0x1000 4 = true ∧
    (∀ w ∈ run.checkWords 0x1000 4, eccAt run.ecc w = none) ∧ (run.cores[(0 : CoreId)]).held = [] ∧
    ((st (.input 1 1 0)).cores[(0 : CoreId)]).stall = some (.input 1 1 0) ∧
    ((st (.emit m)).cores[(0 : CoreId)]).fifo.length < 8 := by decide

theorem test_spec_hyps :
    let c1 := spec.modCore 0 fun c => { c with ckpt := some Regs.reset }
    let bad := spec.modCore 0 fun c => { c with ckpt := some Regs.reset, specBad := true }
    let dr (a : Nat) := run.modCore 0 fun c => { c with drain := [.store a 4 1] }
    (c1.cores[(0 : CoreId)]).ckpt = some Regs.reset ∧
    (BitVec.ofNat 32 c1.tickCount - BitVec.ofNat 32 (c1.cores[(0 : CoreId)]).period).toInt ≥ 0 ∧ c1.inputsPresent 0 = true ∧
    c1.inputsHold 0 = true ∧ (c1.cores[(0 : CoreId)]).cmpPwr = (c1.cores[(0 : CoreId)]).specPwr ∧
    (c1.cores[(0 : CoreId)]).specBad = false ∧ (c1.cores[(0 : CoreId)]).atWaitp = false ∧ (c1.cores[(0 : CoreId)]).emits = [] ∧
    (bad.cores[(0 : CoreId)]).specBad = true ∧ ((dr 0x1000).cores[(0 : CoreId)]).drain = [.store 0x1000 4 1] ∧
    inDmem 0x1000 4 = false ∧ (dr 0x1000).memWritable 0x1000 4 = true ∧ (dr 0x10000000).memWritable 0x10000000 4 = false ∧
    (dr 0x10000000).coreState 0 = coreRunning ∧ (dr 0x10000000).flag (F.CORE_CTRL_TRAPHALT 0) = false := by decide

set_option maxRecDepth 20000 in
/-- TakeCommands: a ready host, its own take and another's, targets in and out of reach, and both ends of the boundary codes. -/
theorem test_host_ready : hostReady hosted q0 ∧ hostReady service q2 := by unfold hostReady; decide

set_option maxRecDepth 20000 in
theorem test_takecmd_hyps :
    let mine := (hosted.fset (F.TAKE_STAT_OWNER 0) (takeOwner q0)).fset (F.TAKE_STAT_STATE 0) takeOpen
    let s := { mine with ticks := 100000 }
    hosted.powered domCore = true ∧ hosted.takeActive 0 = false ∧ mine.fget (F.TAKE_STAT_OWNER 0) = takeOwner q0 ∧ mine.takeState 0 = takeOpen ∧
    mine.takeTarget 0x1000 = true ∧ (takeable 0x1000 && staticBad 0x1000 1) = false ∧ mine.takeTarget 0x10000000 = false ∧
    (512 ≤ ((mine.modTake 0 fun t => { t with writes := List.replicate 512 (0, 0) }).takes[(0 : HandleId)]).writes.length) ∧
    ((s.ticks : Int) + stagingTicks 0 ≤ s.instantOf 200000 ∧ s.instantOf 200000 ≤ (s.ticks : Int) + tenSeconds) ∧
    s.instantOf 7 < (s.ticks : Int) + stagingTicks 0 ∧ hosted.fget (F.TAKE_STAT_OWNER 0) ≠ takeOwner q0 := by decide

theorem test_boundary_hyps :
    let pend := ((takeOf takePending).modTake 0 fun t => { t with writes := [(0x1000, 1)], instant := some 5000 })
    pend.powered domCore = true ∧ pend.takeState 0 = takePending ∧ pend.takeDue 0 = some 5000 ∧ pend.takeBefore 0 5000 = false ∧
    pend.takeOverdue 0 = false ∧ ((pend.fset (F.TAKE_STAT_BND 0) 1).takeOverdue 0) = true ∧
    ((pend.fset (F.TAKE_STAT_BND 0) 1).takeDue 0).isSome = true ∧ ran.takeLocked [(A.CORE_PERIOD, 5000)] = true ∧
    ran.takeDomainBad [(A.CORE_PERIOD, 5000)] = false ∧
    ({ on with vers := [(A.TIME_ASYM, 1)] }).takeConflict [(A.TIME_ASYM, 1)] 0 = true ∧
    on.takeComboBad [(A.PLAN_PAR, 4)] = true ∧ on.takeConflict [(A.PLAN_PAR, 4)] 0 = false ∧
    pend.takeDomainBad [(0x1000, 1)] = false ∧ pend.takeLocked [(0x1000, 1)] = false ∧
    pend.takeConflict [(0x1000, 1)] 0 = false ∧ pend.takeComboBad [(0x1000, 1)] = false ∧ findReg 0x1000 = none ∧
    (pend.setPower domAnlg false).takeDomainBad [(A.BRG_PER, 12500)] = true ∧ (takeOf takeOpen).takeState 0 = takeOpen ∧
    (∀ b ∈ [1, 2, 4], (((takeOf takePending).fset (F.TAKE_STAT_BND 0) b).takeDue 0).all (fun t => decide (0 < t)) = true) := by decide

/-! Witnesses: planner, lanes, clocks, rings, cells. -/

/-- PlannerIntake: a reference that a used destination expects, a late one, a quantity that is not listed. -/
theorem test_intake_hyps :
    let m : EmitMsg := ⟨0, 1, 0, 1, 0, Vector.replicate 48 0, Vector.replicate 48 0, 0⟩
    let s := { (run.modCore 0 fun c => { c with fifo := [m] }) with ticks := 7 }
    s.powered domPlan = true ∧ (s.cores[(0 : CoreId)]).fifo = [m] ∧ qtyListed 0 1 = true ∧ qtyListed 3 15 = false ∧
    s.emitLate { m with period := 100 } = false ∧ { s with ticks := 10 ^ 9 }.emitLate m = true ∧ (s.planQty 0).contains 0 = true ∧
    (s.planQty 3).contains 4 = false := by decide

set_option maxRecDepth 20000 in
theorem test_schedule_hyps :
    let v : CutView := ⟨5, 0, [], [], false, [], [], [], none⟩
    let c : Schedule := ⟨5, false, [packRecord 5 0 0 1 0 0 1], [], [], [], (false, false, false), 0⟩
    let s := ran.modDest 0 fun d => { d with cut := some v, sched := some c }
    s.powered domPlan = true ∧ s.powered domRing = true ∧ (s.plan[(0 : DestId)]).cut = some v ∧ s.running = true ∧ on.running = false ∧
    (s.plan[(0 : DestId)]).sched = some c ∧ (s.atCut v).planQty 0 ≠ [] ∧ recordOk (packRecord 5 0 0 1 0 0 1) = true := by decide

/-- PlannerSchedules: positions 1 and 40, none, and both halves. -/
theorem test_fail_hyps :
    (40 : Word).toNat % 64 = (39 : CellId).val + 1 ∧ (1 : Word).toNat % 64 = (0 : CellId).val + 1 ∧ freeB on (A.PLAN_BYP 0) 40 = true ∧
    (0 : Word).toNat % 64 = 0 ∧ 40 < (41 : Word).toNat % 64 ∧ 40 < (63 : Word).toNat % 64 ∧
    on.powered (regDomain (A.PLAN_BYP 2)) = true ∧ on.powered domSafa = true ∧ freeB on (A.PLAN_FAILL 2) 0xFFFFFFFF = true ∧ freeB on (A.PLAN_FAILH 2) 0xFF = true := by decide

/-- PortTraining: a port in each state of training. -/
def portAt (p : LaneId) (st : Nat) : State := (on.fset (F.RING_LCTRL_EN p) 1).setPortState p st

theorem test_training_hyps :
    (portAt 0 portOff).portActive 0 = true ∧ (portAt 0 portOff).portState 0 = portOff ∧ (portAt 0 portModule).portState 0 = portModule ∧
    (portAt 0 portModule).inAttempt 0 = true ∧ (portAt 0 portAlign).inAttempt 0 = true ∧ (portAt 0 portFailed).portState 0 = portFailed ∧
    (portAt 0 portRxwait).portState 0 = portRxwait ∧ (portAt 7 portTrained).portState 7 = portTrained ∧
    (((portAt 0 portScan).modPort 0 fun p => { p with rxClock := true }).ports[(0 : LaneId)]).rxClock = true ∧
    (((portAt 7 portAlign).modPort 7 fun p => { p with lock0 := true }).ports[(7 : LaneId)]).lock .l0 = true ∧
    usesLane 7 .l0 = true ∧ usesLane 7 .l1 = false ∧ usesLane 6 .l3 = true ∧ usesLane 0 .l3 = false ∧
    ((portAt 0 portAlign).modPort 0 fun p => { p with lock0 := true, lock1 := true }).ports[(0 : LaneId)].allLocked 0 = true ∧
    (portAt 6 portTrained).portActive 6 = true ∧ ((portAt 0 portTrained).ports[(0 : LaneId)]).rxClock = false ∧
    (((portAt 0 portTrained).modPort 0 fun p => { p with clkLostAt := some 3 }).ports[(0 : LaneId)]).clkLostAt = some 3 ∧
    (((portAt 0 portTrained).modPort 0 fun p => { p with rxClock := true, lockLostAt := p.lockLostAt.set 0 (some 3) }).ports[(0 : LaneId)]).lock .l0 = false ∧
    (portAt 0 portTrained).flag (F.RING_LCTRL_EN 0) = true ∧ (portAt 0 portTrained).pwr = pwrStopped ∧
    (portAt 0 portTrained).nextWord (A.RING_LCTRL 0) = (portAt 0 portTrained).word (A.RING_LCTRL 0) ∧
    freeB (portAt 0 portTrained) (A.RING_LCTRL 0) ((portAt 0 portTrained).bitWord (A.RING_LCTRL 0) 0x100) = true := by decide

theorem test_module_hyps :
    (portAt 0 portModule).moduleFault 0 0x11 3 true = 0 ∧ (portAt 0 portModule).moduleFault 0 0x11 4 true ≠ 0 ∧
    (portAt 0 portModule).moduleFault 0 0x18 0 true ≠ 0 := by decide

theorem test_clock_hyps :
    let g := on.modPort 0 fun p => { p with dllGated := true, dllWait := 0 }
    let h := on.modPort 0 fun p => { p with dllGated := true, dllWait := 1 }
    let u := on.modPort 0 fun p => { p with dllGated := false }
    on.powered domAon = true ∧ (g.ports[(0 : LaneId)]).dllGated = true ∧ (g.ports[(0 : LaneId)]).dllWait = 0 ∧
    2 ≤ (portAt 0 portTxup).portState 0 ∧ (h.ports[(0 : LaneId)]).dllWait = 1 ∧ (u.ports[(0 : LaneId)]).dllGated = false ∧
    on.mainUp = true ∧ on.fget F.CLK_STAT_ACTIVE = 0 ∧ (on.fset F.CLK_CTRL_AUTOSW 1).flag F.CLK_CTRL_AUTOSW = true ∧
    (on.fset F.CLK_CTRL_AUTOSW 0).flag F.CLK_CTRL_AUTOSW = false ∧ on.spareUp = true ∧
    ({ on with clk := { on.clk with extOk := true } }).clk.extOk = true ∧ -10000 ≤ (10000 : Int) - on.clk.steer ∧
    (10000 : Int) - on.clk.steer ≤ 10000 ∧ (portAt 7 portTrained).portActive 7 = true := by decide

theorem test_portreg_hyps :
    let busy := (portAt 0 portTrained).fset (F.RING_MGMT_BUSY 0) 1
    freeB on A.CLK_DLLCMD 0xFF = true ∧ freeB on A.CLK_CTRL ((on.word A.CLK_CTRL) ^^^ 1) = true ∧
    ((on.word A.CLK_CTRL) ^^^ 1).getLsbD 0 ≠ (on.word A.CLK_CTRL).getLsbD 0 ∧
    freeB (portAt 0 portTrained) (A.RING_MGMT 0) (0x0 ||| 0x80000000) = true ∧ (portAt 0 portTrained).flag (F.RING_MGMT_BUSY 0) = false ∧
    busy.flag (F.RING_MGMT_BUSY 0) = true ∧ freeB (portAt 0 portTrained) (A.RING_TAPS 0) 0x30000 = true := by decide

/-- SummariesAndClappers, RingAdmission, RingTraffic: ring 0 unbroken with all cells found, its last cell at a stage. -/
def ringAt (stage : Nat) : State :=
  (((((on.fset (F.RING_LCTRL_EN 0) 1).setPortState 0 portTrained).fset (F.RING_LCTRL_EN 1) 1).setPortState 1 portTrained).modRing 0 fun r =>
    { r with found := 40, link := false }).modView 0 39 fun v => { v with stage := stage, misses := 4 }

theorem test_ring_hyps :
    let in0 := (ringAt 1).fset (F.RING_ADMH_MASK 0) 0xFF
    (39 : CellId).val < (ringAt 0).found 0 ∧ slotOk 0x80 = true ∧ slotOk 0x81 = false ∧ 4 ≤ ((ringAt 0).view 0 39).misses ∧
    (in0.admitted 0).getLsbD 39 = true ∧ ((ringAt 0).admitted 0).getLsbD 39 = false ∧ ((ringAt 0).view 0 39).lastNum = none ∧
    (ringAt 0).ringBroken 0 = false ∧ ((ringAt 0).rings[(0 : RingId)]).enumerating = false ∧
    (((ringAt 0).modRing 0 fun r => { r with enumerating := true }).rings[(0 : RingId)]).enumerating = true ∧
    ((ringAt 4).view 0 39).stage = 4 ∧ (ringAt 4).fget (F.RING_LTOT_L 0) ≤ 320000 ∧
    320000 < ((ringAt 4).fset (F.RING_LTOT_L 0) 320001).fget (F.RING_LTOT_L 0) ∧ ((ringAt 3).view 0 39).stage ≤ 3 := by decide

/-- A port's received clock is present and its data lanes are in block lock. -/
def linkUp (p : LaneId) (s : State) : State := s.modPort p fun q => { q with rxClock := true, lock0 := true, lock1 := true }

set_option maxRecDepth 20000 in
/-- Frames of the last cell of ring 0 as port 0 hears them, and one that a wrong bit spoils. -/
theorem test_heard :
    let s := linkUp 0 (ringAt 1)
    ∀ m ∈ ([.clapr 0 10000 9800, .evt 0xC1 3 77 9, .tlm 1 [1, 2, 3, 4, 5, 6, 7, 8] 9, .regrsp 7 1 9,
      .capd 3 100 5 [1, 2, 3]] : List CellMsg), heard s 0 0 (wholeLine (m.frame 0 39)) (m.frame 0 39) ∧ m.frame 0 39 ≠ [] := by
  unfold heard; decide +kernel

set_option maxRecDepth 20000 in
theorem test_unheard :
    ((linkUp 0 (ringAt 1)).laneIn 0 .l1 ((wholeLine (CellMsg.frame 0 39 (.regrsp 7 1 9))).map fun b => { b with body := b.body ^^^ 1 })).2 = [] := by
  decide +kernel

/-- RingAdmission: the positions that ENUM gave, the reports that are outstanding. -/
theorem test_admission_hyps :
    let e := ((ringAt 0).fset (F.RING_ADMH_MASK 0) 0xFF).modCell 0 39 fun c => { c with posNew := 40, clock := some .cw }
    let w := (ringAt 1).modRing 0 fun r => { r with awaited := BitVec.twoPow 40 39 }
    (e.cell 0 39).posNew = 40 ∧ ((ringAt 0).cell 0 39).posNew ≠ 40 ∧ (w.rings[(0 : RingId)]).awaited.getLsbD 39 = true ∧
    (e.cell 0 39).clock.isSome = true ∧ (w.view 0 39).stage = 1 := by decide

set_option maxRecDepth 20000 in
theorem test_admission_moves :
    let e := ((ringAt 0).fset (F.RING_ADMH_MASK 0) 0xFF).modRing 0 id
    ∀ j : CellId, (e.admitted 0).getLsbD j.val = true → j.val < 40 ∧
      (((List.range 40).foldl (fun s i => s.modCell 0 (Fin.ofNat 40 i) fun c => { c with posNew := i + 1 }) e).cell 0 j).posNew = j.val + 1 := by
  decide +kernel

set_option maxRecDepth 20000 in
theorem test_ring_before : ∀ j : CellId, j < 39 → ((ringAt 4).view 0 j).stage ≠ 4 := by decide

set_option maxRecDepth 20000 in
theorem test_ring_none : ∀ j : CellId, ((ringAt 0).admitted 0).getLsbD j.val ≠ true := by decide

/-- A descriptor that RING takes, of words 0 but for the version and the check field. -/
def desc : List Word :=
  let w : List Word := [0, 0, 0x01000000] ++ List.replicate 12 0
  w ++ [(crc16 (w.flatMap fun v => bytesBE 4 v.toNat)).setWidth 32]

set_option maxRecDepth 20000 in
theorem test_descriptor : descOk desc = true := by decide

theorem test_traffic_hyps :
    let in0 := (ringAt 0).fset (F.RING_ADMH_MASK 0) 0xFF
    let u : Tlm := ⟨0, 256, 0, false⟩
    let s := { in0.modRing 0 (fun r => { r with tlm := [u] }) with access := some ⟨5, 0, 39, 7, true⟩ }
    (s.rings[(0 : RingId)]).tlm = [u] ∧ (s.rtimeAt u.tick).toNat / 256 = (1 : BitVec 40).toNat ∧ u.mask.getLsbD 39 = false ∧
    s.admitted 0 &&& ~~~(u.mask ||| BitVec.twoPow 40 39) ≠ 0 ∧ s.access = some ⟨5, 0, 39, 7, true⟩ ∧ (in0.admitted 0).getLsbD 39 = true ∧ (s.view 0 39).lastSeq = none ∧
    freeB on A.RING_CACMD (0x40280010 ||| 0x80000000) = true ∧ on.flag F.RING_CASTAT_BUSY = false ∧
    (0x40280010 : Word).toNat / 2 ^ 28 % 4 = (0 : RingId).val ∧ (0x40280010 : Word).toNat / 2 ^ 16 % 64 = (39 : CellId).val + 1 ∧ on.evq.length < 1024 ∧ on.evtMin 0 ≤ (0xFF : BitVec 8).toNat / 64 := by decide

/-- CellClockAndCount, CellOrdersAndCauses, CellRecords, CellMessages: the last cell of ring 2 in a mode, counting. -/
def cellOf (m : CellMode) (f : Cell → Cell) : State :=
  on.modCell 2 39 fun c => f { c with mode := m, admitted := true, clock := some .cw, counting := true }

theorem test_cell_hyps :
    let h : HeldRec := ⟨9, 5, 0, 1, false⟩
    let c := fun (s : State) => s.cell 2 39
    (c on).clock = none ∧ (c on).counting = false ∧ (c on).mode = .notAdm ∧ (c (cellOf .run id)).clock = some .cw ∧
    (c (cellOf .run id)).counting = true ∧ (c (cellOf .run id)).stopAt = none ∧ (c (cellOf .run id)).tset = none ∧
    (c (cellOf .run id)).slewHeld = 0 ∧ (c (cellOf .blocked fun c => { c with tset := some 5 })).tset = some 5 ∧
    0 < (c (cellOf .run fun c => { c with slewHeld := 128 })).slewHeld ∧
    (c (cellOf .run fun c => { c with clock := none })).clock = none ∧ (c (cellOf .run fun c => { c with clock := some .ccw })).clock ≠ some .cw ∧
    (c (cellOf .run fun c => { c with clapCw := some (3, 4) })).clapCw = some (3, 4) ∧
    (c (cellOf .run fun c => { c with lastPstart := some 7, held := [h] })).lastPstart = some 7 ∧
    0 ≤ (h.time - (cellOf .run fun c => { c with held := [h] }).cellCount 2 39).toInt ∧
    (c (cellOf .blocked fun c => { c with held := [{ h with flags := 0x00 }] })).mode = .blocked ∧
    (c (cellOf .run id)).tags = [] ∧ (c (cellOf .run id)).capBuf = [] ∧
    (c (cellOf .run fun c => { c with evUnsent := [4] })).evUnsent = [4] ∧
    (c (cellOf .run fun c => { c with regs := [(0x200, 0x80000001)] })).regs = [(0x200, 0x80000001)] := by decide

set_option maxRecDepth 20000 in
/-- A record that the cell takes, and one whose check field fails. -/
theorem test_record_hyps :
    let r := packRecord 9 5 0 1 0 2 40
    recordOk r = true ∧ (recRing r).toNat = (2 : RingId).val ∧ (recPos r).toNat = (39 : CellId).val + 1 ∧ recKind r = 0 ∧
    0 ≤ (recTime r - (cellOf .run id).cellCount 2 39).toInt ∧ recordOk (r ^^^ 1) = false := by decide

/-- CellClockAndCount, CellOrdersAndCauses: epochs that have started since, clocks lost and back, a clapper, a loop. -/
theorem test_cell_epochs :
    let c := fun (s : State) => s.cell 2 39
    let two (f : Cell → Cell) : State := { cellOf .run f with ticks := 2 * 8192 + 5 }
    (two id).cellEpochIx 2 39 = (c (two id)).epochIx + 2 ∧ (c (two id)).stopAt = none ∧ (c (two id)).tset = none ∧
    (c (two fun c => { c with mode := .run, tset := some (-5) })).tset = some (-5) ∧
    (c (two fun c => { c with slew := -2 })).slew.natAbs + (c (two fun c => { c with slew := -2 })).slewHeld ≤ 2 ∧
    (c (cellOf .run id)).tsetSeen = false ∧ (c (cellOf .run fun c => { c with tsetSeen := true })).tsetSeen = true ∧
    (c (cellOf .run id)).clapCcw = none ∧ (c (cellOf .run fun c => { c with clapCcw := some (3, 4) })).clapCcw = some (3, 4) ∧
    (c (cellOf .run fun c => { c with linkCw := true, goodCw := 1024 })).lost .cw = true ∧
    1024 ≤ (c (cellOf .run fun c => { c with linkCw := true, goodCw := 1024 })).good .cw ∧
    (c (cellOf .run fun c => { c with linkCw := true, goodCw := 1023 })).good .cw < 1024 ∧ (c (cellOf .run id)).lost .cw = false := by decide

/-- CellRecords, CellMessages: records held as the cell's own epochs leave them, register requests, telemetry, captures. -/
theorem test_cell_held :
    let h : HeldRec := ⟨9, 5, 0x40, 1, false⟩
    let w (m : CellMode) (f : Cell → Cell) : Cell := ((cellOf m f).cellWake 2 39).cell 2 39
    (w .run fun c => { c with held := [h] }).held = [h] ∧ (w .run fun c => { c with held := [h] }).stopAt = none ∧
    (w .run fun c => { c with held := [h] }).mode = .run ∧ (w .blocked fun c => { c with held := [h], arm := some 9, hbSilent := false, framingLost := false }).mayRun h = true ∧
    (w .blocked fun c => { c with held := [h] }).mayRun h = false ∧ (w .run id).admitted = true ∧
    (w .run id).recent.contains (false, 1) = false ∧ (w .run fun c => { c with recent := [(false, 1)] }).recent.contains (false, 1) = true ∧
    (w .run id).beforeArm 9 = false ∧ (w .run id).held.length < 64 := by decide

set_option maxRecDepth 20000 in
theorem test_cell_messages :
    let f := L0Msg.frame 2 .cw (.regrq 40 7 true 0x12 5)
    ctlOk blockData 0 = false ∧ frameOk [f.at_ 0, f.at_ 1 ^^^ 1] = false ∧ f = [f.at_ 0, f.at_ 1] ∧ 0x11 ≤ (0x12 : BitVec 16).toNat ∧
    ((cellOf .run fun c => { c with regs := [(0x11, 3125)] }).cell 2 39).perTicks ≠ 0 ∧ (0x80000001 : Word).getLsbD 31 = true ∧
    (0x80000001 : Word).toNat % 256 ≠ 0 := by decide +kernel

/-! Witnesses: time bases, bridge, measurement, metrology. -/

theorem test_time_hyps :
    let lk := (on.fset F.HOST_STAT_LINK 3).fset F.TIME_PTPCFG_ROLE 2
    let full := { lk with tim := { lk.tim with txq := Vector.replicate 2 (List.replicate 16 ⟨1, 2, 3, 4⟩) } }
    let stp := { on with tim := { on.tim with stepDue := some (5000, 90000), newK := some (4, 5) } }
    on.powered domPlan = true ∧ on.powered domHost = true ∧ lk.ptpOn 1 true 0 = true ∧ lk.ptpOn 1 false 1 = true ∧ lk.oneStep 0 = false ∧ lk.oneStep 1 = false ∧
    (lk.fset F.TIME_PTPCFG_TWOSTEP 0).oneStep 0 = true ∧ (lk.fset F.TIME_PTPCFG_TWOSTEP 0).ptpOn 1 true 0 = true ∧
    (lk.tim.txq[(1 : EthId)]).length < 16 ∧ (full.tim.txq[(1 : EthId)]).length = 16 ∧ on.tim.stepDue = none ∧
    stp.tim.stepDue = some (5000, 90000) ∧ stp.tim.newK = some (4, 5) ∧ on.tim.newK = none ∧
    (on.fset F.SUP_MODE_TSRC tsrcLocked).tsrc = tsrcLocked ∧ (on.fset F.SUP_MODE_TSRC tsrcHoldover).tsrc = tsrcHoldover := by decide

theorem test_peer_hyps :
    let up (r : Nat) := { ((on.fset F.TIME_PEER_ROLE r).setPortState 7 portTrained) with tim := { on.tim with peerAt := some (2, 9) } }
    let o (tL : BitVec 48) : Int := ((9 : BitVec 48) - tL).toInt
    (up 1).peerUp = true ∧ (up 1).peerRole = roleLeader ∧ (up 2).peerRole = roleFollower ∧ (up 2).tim.peerAt = some (2, 9) ∧
    (o 1).natAbs ≤ 8 ∧ 8 < (o 100).natAbs ∧ on.pwr = pwrStopped ∧ ran.pwr ≠ pwrStopped ∧ (up 2).fget F.TIME_PEER_STATE ≠ peerLost ∧
    ((up 2).fset F.TIME_PEER_STATE peerLost).fget F.TIME_PEER_STATE = peerLost ∧
    (on.fset (F.TIME_CMPCTL_ARMED 7) 1).flag (F.TIME_CMPCTL_ARMED 7) = true ∧ on.fget (F.TIME_CMPCTL_PER 7) = 0 ∧
    (on.fset (F.TIME_CMPCTL_PER 7) 40).fget (F.TIME_CMPCTL_PER 7) ≠ 0 ∧
    freeB on (A.TIME_CMPCTL 7) (on.bitWord (A.TIME_CMPCTL 7) 0x80000000) = true := by decide

set_option maxRecDepth 20000 in
/-- ComparesAndPeers: a peer clapper and PTIME as P7 hears them. -/
theorem test_peer_heard :
    let up := linkUp 7 ((on.fset F.TIME_PEER_ROLE 2).setPortState 7 portTrained)
    (up.laneIn 7 .l0 (wholeLine [pclapBlock 2 3 700])).2 = [[pclapBlock 2 3 700]] ∧
    (up.laneIn 7 .l0 (wholeLine (ptimeFrame 1 5 2 9))).2 = [ptimeFrame 1 5 2 9] ∧ up.peerUp = true ∧ up.peerRole = roleFollower := by
  decide +kernel

/-- BridgeAndGates: RUN with every supply good and a duty, every leg enabled. -/
def driven : State :=
  { (((((ran.fset F.BRG_REFCTL_REFEN 0).fset F.BRG_CTRL_LEGEN 0xF).fset F.GATE_MON_POSOK 0xFF).fset F.GATE_MON_NEGOK 0xFF).fset (F.BRG_DUTY_DUTY 3) 40000) with
    brg := { ran.brg with running := true } }

theorem test_bridge_hyps :
    driven.powered domAnlg = true ∧ driven.powered domGate = true ∧ driven.brg.running = true ∧ driven.live = [] ∧
    driven.flag F.BRG_CTRL_SRC = false ∧ driven.running = true ∧ (driven.fget F.BRG_CTRL_LEGEN).testBit 3 = true ∧
    driven.flag (F.GATE_STAT_FAULT 3) = false ∧ driven.legLatchedBit 3 = false ∧ driven.fget F.BRG_TSTAT_ACTIVE = 0 ∧
    (driven.brg.legs[(3 : LegId)]).charge = 0 ∧ (driven.brg.legs[(3 : LegId)]).restart = false ∧ driven.forceMode 3 = 0 ∧
    driven.flag F.BRG_REFCTL_REFEN = false ∧ (∀ high, driven.posOk 3 high = true ∧ driven.negOk 3 high = true) ∧
    driven.fget (F.BRG_DEAD_DEAD 3) * 32 < driven.fget (F.BRG_DUTY_DUTY 3) ∧
    driven.fget (F.BRG_DUTY_DUTY 3) + driven.fget (F.BRG_DEAD_DEAD 3) * 32 < driven.fget F.BRG_PER_PER * 32 := by decide

set_option maxRecDepth 20000 in
theorem test_trip_hyps :
    let s := (driven.setLegState 0 legRun).fset F.BRG_TRIPMASK_MASK 1
    let on0 := (driven.modLeg 3 fun l => { l with edges := [(0, true, true)] }).modLeg 0 fun l => { l with softWait := true }
    let lat := driven.fset F.BRG_TSTAT_LATCHED 1
    s.tripActive 0 = false ∧ s.tripActs 0 0 = true ∧ s.tripActs 3 0 = false ∧ s.legState 0 = legRun ∧ lat.legLatchedBit 0 = true ∧
    freeB lat A.BRG_TSTAT ((1 : BitVec 4).setWidth 32 <<< 4) = true ∧ (on0.brg.legs[(3 : LegId)]).isOn true on0.ticks = true ∧
    driven.shortHeld 3 = false ∧ (on0.brg.legs[(0 : LegId)]).softWait = true ∧ on0.softFirst 0 = true ∧
    ((driven.modLeg 2 fun l => { l with softOff := true }).brg.legs[(2 : LegId)]).softOff = true ∧
    lat.tripHolds 0 true = false ∧
    ((lat.fset F.BRG_TRIPMASK_MASK 1).fset F.BRG_TSTAT_ACTIVE 1).tripHolds 0 (((lat.fset F.BRG_TRIPMASK_MASK 1).fset F.BRG_TSTAT_ACTIVE 1).tripLatch 0) = true ∧
    driven.posOk 3 false = true ∧ recordOk (packEntry 0 [0, 0, 0, 0]) = true ∧ recordOk 0 = false ∧
    freeB (driven.fset (F.GATE_STAT_FAULT 3) 1) (A.GATE_STAT 3) 0x80 = true ∧
    (driven.fset (F.GATE_STAT_FAULT 3) 1).flag (F.GATE_STAT_FAULT 3) = true := by decide

theorem test_measure_hyps :
    let s := { on with adc := { on.adc with due := [(7, 5, 4000)], settle := on.adc.settle.set 7 (some 900), halted := 0x80 } }
    on.adc.slot < on.slotCount ∧ on.oscStopped = false ∧ on.adc.slot = 0 ∧ on.fget F.PLAN_DAB_VBUS < 32 ∧ on.converterOk 0 = false ∧
    (on.fset F.ADC_REF_SETTLED 0xFF).converterOk 7 = true ∧ (on.fset (F.ADC_GMASK_MASK 7) 1).memReadable (on.frameBase 7 5 + 0x3FC) 4 = true ∧ on.powered domAnlg = true ∧ (∀ u : CaptId, on.captBusy u = false) ∧
    (s.adc.due.find? fun e => e.1 == (7 : UnitId)) = some (7, 5, 4000) ∧ freeB s (A.ADC_GBUF 7) 0x00000004 = true ∧
    s.adc.halted.getLsbD (7 : UnitId).val = true ∧ s.adc.settle[(7 : UnitId)] = some 900 ∧
    ((on.fset F.ADC_REF_CALBUSY 0xFF).fget F.ADC_REF_CALBUSY).testBit 7 = true ∧ freeB on A.ADC_CALCMD ((0x80 : BitVec 8).setWidth 32) = true ∧
    (on.fset F.ADC_REF_SEL 1).refSel 0 = refCode .external ∧ (on.fset F.ADC_REF_SEL 2).refSel 0 = refCode .supply ∧
    ({ on with adc := { on.adc with extOk := false } }).refOk 1 = false ∧ (∀ g : UnitId, on.groupOn g = false) := by decide

theorem test_capture_hyps :
    let c := ((on.fset (F.CAPT_MASK_MASK 3) 3).fset (F.CAPT_WIN_SIZE 3) 1).fset (F.CAPT_POST_COUNT 3) 10
    let armed := (((c.fset (F.CAPT_STAT_STATE 3) captArmed).fset (F.CAPT_CTRL_KIND 3) 1).fset (F.CAPT_CTRL_RING 3) 2).fset (F.CAPT_CTRL_POS 3) 40
    freeB c (A.CAPT_CMD 3) 1 = true ∧ freeB armed (A.CAPT_CMD 3) 2 = true ∧ freeB armed (A.CAPT_CMD 3) 3 = true ∧ c.captBusy 3 = false ∧
    c.fget (F.CAPT_MASK_MASK 3) ≠ 0 ∧ ¬ c.captSize 3 < c.fget (F.CAPT_POST_COUNT 3) ∧ c.fget F.SUP_MODE_THERM ≠ 2 ∧
    (c.fset F.SUP_MODE_THERM 2).fget F.SUP_MODE_THERM = 2 ∧ on.fget (F.CAPT_MASK_MASK 3) = 0 ∧ armed.captState 3 = captArmed ∧
    armed.captBusy 3 = true ∧ armed.flag (F.CAPT_CTRL_KIND 3) = true ∧ armed.fget (F.CAPT_CTRL_RING 3) = (2 : RingId).val ∧
    armed.fget (F.CAPT_CTRL_POS 3) = (39 : CellId).val + 1 ∧ armed.fget (F.CAPT_MASK_MASK 3) = (3 : BitVec 8).toNat ∧
    (armed.capt[(3 : CaptId)]).fseq = none := by decide

set_option maxRecDepth 20000 in
/-- CaptureUnits: a frame of the cell that the unit captures, as port 4 hears it. -/
theorem test_capture_heard :
    let f := CellMsg.frame 2 39 (.capd 3 100 5 [1, 2, 3])
    heard (linkUp 4 (((on.fset (F.RING_LCTRL_EN 4) 1).setPortState 4 portTrained).fset (F.CAPT_STAT_STATE 3) captArmed)) 2 4 (wholeLine f) f := by
  unfold heard; decide +kernel

/-- EnergyAndClock, IslandRecordsAndSupply, MailboxAndBilling: the island measures, in a state of MTR.STAT. -/
def metering (st : Nat) (f : Mtr → Mtr) : State := (on.fset F.MTR_STAT_STATE st).modMtr fun m => f { m with measuring := true }

theorem test_metrology_hyps :
    let s := metering mtrRun id
    let init (f : Mtr → Mtr) := (on.fset F.MTR_STAT_STATE mtrInit).modMtr f
    s.mtrOn = true ∧ s.mtr.queue = [] ∧ s.flag F.MTR_STAT_FLOG = false ∧ s.mtr.log.length + 9 ≤ 65536 ∧ s.mtr.slewLeft = 0 ∧
    0 < (metering mtrRun fun m => { m with slewLeft := 5 }).mtr.slewLeft ∧ s.mtr.dayUsed < dayBudget ∧
    s.mtr.mtime % (60 * s.mtr.par parInterval) = 0 ∧ s.mtr.lastSnap ≠ some s.mtr.mtime ∧ s.mtr.mtime % 86400 = 0 ∧ s.mtr.seals < 4000 ∧
    s.mtr.dayUsed = 0 ∧ (metering mtrRun fun m => { m with dayUsed := 5 }).mtr.dayUsed ≠ 0 ∧ s.mtr.coverOpen = false ∧ s.mtr.log.length < 65535 ∧
    ((on.setPower domMtr false).modMtr fun m => { m with backupOut := true }).mtr.backupOut = true ∧
    (init id).mtrState = mtrInit ∧ (init fun m => { m with invalid := true }).mtr.invalid = true ∧ (init id).mtr.invalid = false ∧
    (on.setPower domMtr false).powered domMtr = false ∧ (on.setPower domMtr false).mtr.backupOut = false := by decide

set_option maxRecDepth 20000 in
theorem test_mailbox_hyps :
    let r : MtrRec := ⟨2, 0, 7, 3, 1, 1, 5, 6, 7, 8, 9, 1, false, true⟩
    let s := metering mtrRun fun m => { m with sessOpen := 0x80, coverOpen := true, log := [r], queue := [⟨.host 0, 3, some r⟩] }
    let p := metering mtrParam fun m => { m with coverOpen := true, lastPair := some (5000, 7) }
    s.powered domMtr = true ∧ s.mtr.invalid = false ∧ s.mtr.measuring = true ∧ s.mtr.queue.length < 16 ∧
    ¬ (metering mtrRun fun m => { m with queue := List.replicate 16 ⟨.host 0, 3, some r⟩ }).mtr.queue.length < 16 ∧
    s.mtr.sessOpen.getLsbD (7 : Fin 8).val = true ∧ s.mtr.sessOpen.getLsbD (0 : Fin 8).val = false ∧ s.mtrState = mtrRun ∧ p.mtrState = mtrParam ∧
    p.mtr.pendingP = p.mtr.params ∧ (metering mtrParam fun m => { m with pendingP := m.params.set 0 700 }).mtr.pendingP ≠ p.mtr.params ∧
    p.mtr.lastPair = some (5000, 7) ∧ p.mtr.count < p.mtr.pairAt + 120 * 160000000 ∧ (metering mtrParam id).mtr.lastPair = none ∧
    p.fget F.MTR_PADDR_ADDR = (0 : Fin 16).val ∧ paramOk 0 100 = true ∧ paramOk 0 99 = false ∧ s.mtr.queue = [⟨.host 0, 3, some r⟩] ∧
    s.mtr.log.find? (fun r => r.rseq == (7 : Word).toNat && !r.corrupt) = some r ∧
    s.mtr.log.find? (fun r => r.rseq == (8 : Word).toNat) = none ∧ s.mtr.coverOpen = true ∧ p.mtr.queue = [] := by decide

/-! Witnesses: safety, faults, host, update, streaming. -/

/-- Both channels run, with a set or none, in lockout or not. -/
def guarded (lock : Bool) (set : Option (List Byte)) : State :=
  ran.modSafe fun c =>
    { c with a := { c.a with started := true, lockout := lock, set := set }, b := { c.b with started := true, lockout := lock, hold := 0, set := set }, held := [] }

set_option maxRecDepth 20000 in
theorem test_safe_hyps :
    let s := guarded false none
    s.aOn = true ∧ s.bOn = true ∧ s.hbOn = true ∧ (s.modSafe fun c => { c with disagree := 6 }).chanBad .a = true ∧ causeChan ∉ s.safe.held ∧
    (s.aOn && decide (500000 ≤ 500000 ∧ 500000 ≤ 5000000)) = true ∧ (s.aOn && decide (500000 ≤ 499999 ∧ 499999 ≤ 5000000)) = false ∧
    (s.safe.a.demand ||| s.safe.b.demand = 0) ∧ s.safe.held.all s.causeCleared = true ∧ s.safe.testing = none ∧
    (s.modSafe fun c => { c with testing := some 7 }).safe.testing = some 7 ∧ (on.modSafe fun c => { c with b := { c.b with started := true } }).bOn = true ∧
    (on.modSafe fun c => { c with b := { c.b with started := true } }).hbOn = false ∧ on.safe.a.started = false ∧ on.powered domSafb = true ∧
    setPeerHb s.safe.b.rules ≠ 1 ∧ (s.modSafe fun c => { c with missB := 3 }).chanBad .a = true ∧
    (s.modSafe fun c => { c with missA := 3 }).chanBad .b = true ∧ (s.modSafe fun c => { c with missA := 3 }).safe.disagree < 6 ∧
    s.setBad s.safe.a = true := by decide

/-- A safety parameter set: function 0 watches its pair of inputs, function 3 an output; the peer heartbeat counts. -/
def paramSet : List Byte :=
  let l : List Byte := [1, 0, 5, 0, 0, 0, 0, 0, 1, 3, 0, 0, 0, 0, 0, 0] ++ [1, 10, 1, 0, 0, 0, 0, 0] ++
    (List.replicate 2 [0, 10, 0, 0, 0, 0, 0, 0]).flatten ++ [3, 10, 0, 2, 0, 0, 0, 0] ++ (List.replicate 4 [0, 10, 0, 0, 0, 0, 0, 0]).flatten ++
    List.replicate 428 0
  l ++ bytesLE 4 (crc32 l).toNat

set_option maxRecDepth 20000 in
theorem test_set : paramSet.length = 512 ∧ setValid paramSet = true := by decide +kernel

set_option maxRecDepth 20000 in
theorem test_set_hyps :
    demandOf paramSet 0 0 = true ∧ demandOf paramSet 3 0 = false ∧ discrepantOf paramSet 1 0 = true ∧ discrepantOf paramSet 0 3 = true ∧
    setPeerHb paramSet = 1 ∧ setMode paramSet 3 = 3 := by decide

set_option maxRecDepth 20000 in
/-- SafeDisconnect: a pair of inputs whose discrepancy has begun. -/
theorem test_discrepancy :
    let s := (guarded false (some paramSet)).modSafe fun c => { c with si := 1, discAt := c.discAt.set 0 (some 5), sealed := true }
    s.safe.discAt[(0 : FuncId)] = some 5 ∧ discrepantOf s.anyRules s.safe.si 0 = true ∧ s.aOn = true ∧ s.bOn = true ∧
    (s.modSafe fun c => { c with testVoid := true }).safe.testVoid = true := by decide +kernel

set_option maxRecDepth 20000 in
theorem test_load_hyps :
    let s := service.modSafe fun c => { c with a := { c.a with set := some [] } }
    let k := (service.setWord A.SAFE_CRCA 5).setWord A.SAFE_CRCB 5
    q2.port = 2 ∧ (List.replicate 512 (0 : Byte)).length = 512 ∧ service.pwr = pwrStopped ∧ service.flag F.SUP_MODE_UPD = false ∧
    service.powered domSafa = true ∧ service.powered domSafb = true ∧ (service.fset F.SUP_MODE_PWR pwrRun).pwr ≠ pwrStopped ∧
    s.safe.a.set = some [] ∧ k.word A.SAFE_CRCA = 5 ∧ k.word A.SAFE_CRCB = 5 ∧ service.word A.SAFE_CRCB ≠ 5 := by decide

set_option maxRecDepth 20000 in
theorem test_fault_hyps :
    let e : LogEntry := ⟨5, 1, true, 0, 1, 2, 3, 4, 5⟩
    let s := { on with memory := { on.memory with wb := [0x1000], buf := [e], initTo := some true }, ecc := [(0x1000, .ce)] }
    on.powered domSafa = true ∧ connected 383 = true ∧ on.sticky 383 = false ∧ (on.setSticky 383).sticky 383 = true ∧
    on.flag F.FLT_FIRST_VALID = false ∧ ((on.setWord (A.FLT_REACT 0) 3).reaction 0).getLsbD 1 = true ∧
    (on.fset F.FLT_PIN_PULSE 1).flag F.FLT_PIN_PULSE = true ∧ freeB on A.FLT_PIN 1 = true ∧ freeB on A.FLT_SWSET 0xFF = true ∧
    freeB on A.FLT_SELF 0x80000000 = true ∧ freeB on A.MEM_CTRL 0 = true ∧ on.flag F.MEM_STAT_INIT = false ∧
    (on.fset F.MEM_STAT_INIT 1).flag F.MEM_STAT_INIT = true ∧ on.fget F.MEM_CTRL_MODE ≠ (0 : Word).toNat % 2 ∧
    freeB on A.THERM_LIMIT (on.word A.THERM_LIMIT) = true ∧ limitBad (on.word A.THERM_LIMIT) 0xFFFFFF = true ∧ selfItem 0x4F = true ∧
    0x1000 ∈ s.memory.wb ∧ eccAt s.ecc 0x1000 = some .ce ∧ on.memAlive .sram = true ∧ memOf 0x1000 = some .sram ∧ 0x1000 < on.sramSize ∧
    s.memory.initTo = some true ∧ s.memory.buf = [e] ∧ s.sup.shutdown = false ∧ s.memory.pos < 65536 ∧ on.logWritten = [] ∧ on.live = [] := by decide

set_option maxRecDepth 20000 in
/-- FaultsMemoryThermal: one valid record in the log. -/
theorem test_log_scan :
    let s := on.poke 0x11000080 (logBytes ⟨5, 1, true, 0, 1, 2, 3, 4, 5⟩ 7)
    s.logWritten = [2] ∧ s.logValid 2 = some 7 := by decide +kernel

theorem test_thermal_hyps :
    usable none = none ∧ usable (some 400) = some 400 ∧ 16 * (on.fget F.THERM_LIMIT_SHUT : Int) ≤ 16 * 200 ∧ on.memAlive .dram = true := by decide

set_option maxRecDepth 20000 in
theorem test_log_full : (List.replicate 1024 (⟨5, 1, true, 0, 1, 2, 3, 4, 5⟩ : LogEntry)).length = 1024 := by decide

set_option maxRecDepth 20000 in
theorem test_host_hyps :
    let open_ := hosted.modHost 0 fun p => { p with session := none }
    let old := hosted.modHost 0 fun p => { p with ctr := 1, reply := some ⟨0x10, false, 0, 1, [5]⟩ }
    let key := { service.modSafe (fun c => { c with resetSince := some 0 }) with ticks := 6000 * ms }
    hosted.portUp 0 = true ∧ (hosted.host[(0 : HostPort)]).key.isSome = true ∧ q0.ctr ≤ (old.host[(0 : HostPort)]).ctr ∧
    (old.host[(0 : HostPort)]).reply = some ⟨0x10, false, 0, 1, [5]⟩ ∧ (hosted.host[(0 : HostPort)]).ctr < q0.ctr ∧ hosted.inLoader = false ∧
    (hosted.host[(0 : HostPort)]).session = some (1, 2) ∧ (open_.host[(0 : HostPort)]).session = none ∧ findReg 0 = none ∧ (257 : Nat) > 256 ∧
    (findReg A.TIME_ASYM).isSome = true ∧ (accepted hosted q0).readEffect A.TIME_ASYM = none ∧
    (accepted hosted q0).computed (.host 0) A.TIME_ASYM = none ∧
    (accepted hosted q0).writeEffect (.host 0) false A.TIME_ASYM ⟨"", 0, 0, 1, []⟩ 5 = none ∧ freeB (accepted hosted q0) A.TIME_ASYM 5 = true ∧ hosted.memReadable 0x1000 4 = true ∧
    memOf 0x20000000 = none ∧ hosted.memWritable 0x1000 4 = true ∧ inScriptStore 0x1000 4 = false ∧ hosted.coreState 0 = coreHalted ∧
    (hosted.setCoreState 0 coreRunning).coreState 0 ≠ coreHalted ∧ (hosted.fget F.HOST_STAT_LINK).testBit 2 = true ∧
    key.portUp 2 = true ∧ key.pwr = pwrStopped ∧ key.safe.resetSince = some 0 ∧ 0 + 6000 * ms ≤ key.ticks := by decide

set_option maxRecDepth 20000 in
theorem test_update_hyps :
    let slate : List Byte := List.replicate 17 0 ++ [4] ++ List.replicate 110 0
    let lk := hosted.modUpd fun c => { c with lock := some 0, slate := slate, wrote := true }
    let ld := on.fset F.HOST_STAT_LOADER 1
    slate.length = 128 ∧ hosted.upd.lock = none ∧ lk.upd.lock = some 0 ∧ (0 : HostPort) ≠ q2.port ∧ hosted.holdsLock q0 = false ∧
    lk.holdsLock q0 = true ∧ 0 + (List.replicate 8 (0 : Byte)).length ≤ slateLength lk.upd.slate ∧ lk.memReadable (bodyAddr + 0) 8 = true ∧
    (lk.fset F.UPD_STAT_VERIFIED 1).flag F.UPD_STAT_VERIFIED = true ∧ lk.flag F.UPD_STAT_VERIFIED = false ∧
    (hosted.modUpd fun c => { c with validAt := some 0 }).upd.validAt = some 0 ∧ hosted.upd.validAt = none ∧
    (hosted.modUpd fun c => { c with restart := true }).upd.restart = true ∧ ld.inLoader = true ∧ ld.sup.loaderHold = false ∧
    (ld.fresh.slState).1.1 ≠ slValid ∧ hosted.sup.configDone = false ∧ (∀ n : CoreId, hosted.coreState n = coreHalted) ∧
    hosted.memReadable storeAddr 16 = true ∧ hosted.peek storeAddr 4 ≠ 0x54534E5A := by decide

set_option maxRecDepth 20000 in
theorem test_stream_hyps :
    let s := (((on.setWord A.HOST_SCTRL 0x8007FF00).fset (F.RING_LCTRL_EN 6) 1).setPortState 6 portTrained).modStrm fun c =>
      { c with buf := [⟨1, 4, 3⟩], cum := 10 }
    let done := on.fset (F.CAPT_STAT_STATE 3) captDone
    s.isTrained 6 = true ∧ s.liveOn (.ring 2) = true ∧ s.strmUsed + 1024 ≤ 0x8000000 ∧ s.strm.buf = [⟨1, 4, 3⟩] ∧ s.mayStream 4 = true ∧
    (s.modStrm fun c => { c with cum := 2 }).mayStream 4 = false ∧ ((0x100000 : Word) - BitVec.ofNat 32 s.strm.sent).toInt ≤ 2 ^ 20 ∧
    2 ^ 20 < ((0x100001 : Word) - BitVec.ofNat 32 s.strm.sent).toInt ∧ done.captState 3 = captDone ∧ on.captState 3 ≠ captDone ∧
    done.fget F.HOST_SSTAT_RDSTATE ≠ rdRun ∧ (on.fset F.HOST_SSTAT_RDSTATE rdRun).fget F.HOST_SSTAT_RDSTATE = rdRun ∧ on.strm.left = 0 := by decide

set_option maxRecDepth 20000 in
/-- UpdateAndStreaming: CREDIT as P6 hears it. -/
theorem test_credit_heard :
    let f : Frame := [ctlBlock typCredit (fieldsOf [(8, 0x100000)])]
    ((linkUp 6 (((on.fset (F.RING_LCTRL_EN 6) 1).setPortState 6 portTrained))).laneIn 6 .l0 (wholeLine f)).2 = [f] := by decide +kernel

/-! Witnesses: clauses with a line, a filter, a service or a boundary of their own. -/

/-- PlannerSchedules, BridgeAndGates, PortTraining, ClocksAndTracking: PLAN with its oscillator and without, a reset not yet released, a
lane out of lock, thresholds and filters. -/
theorem test_edge_hyps :
    let live := (driven.modLeg 3 fun l => { l with edges := [(0, true, true)] })
    let u := driven.fresh.takesUpTo driven.nextPwm
    on.planRuns = true ∧ (on.setPower domPlan false).planRuns = false ∧ ((portAt 0 portOff).ports[(0 : LaneId)]).resetReleased = false ∧
    -100000 ≤ (-100000 : Int) - on.clk.steer ∧ (100000 : Int) - on.clk.steer ≤ 100000 ∧
    (((portAt 0 portTrained).modPort 0 fun p => { p with lockLostAt := p.lockLostAt.set 1 (some 7) }).ports[(0 : LaneId)]).lockOut = some 7 ∧
    { live with ticks := live.fget (F.GATE_PROT_BLANK 3) * 800 }.unblanked 3 true = true ∧ live.unblanked 3 false = false ∧ 5000 ≤ live.desatMv 3 ∧
    driven.lockoutMv 3 false ≤ driven.lockoutMv 3 false ∧ us - 1 < us ∧ driven.inSoft 3 = false ∧
    (driven.modLeg 3 fun l => { l with softOff := true }).inSoft 3 = true ∧ (true : Bool) ≠ driven.tripHigh 0 ∧ 0 < (driven.setWord A.BRG_TRIPCFG 1).tripFilter 0 ∧
    u.live = [] ∧ u.flag F.BRG_CTRL_SRC = false ∧ u.running = true ∧ u.stopReached = false ∧ (u.fget F.BRG_CTRL_LEGEN).testBit 3 = true ∧
    u.fget F.BRG_TSTAT_ACTIVE = 0 ∧ (∀ high, u.gateUsable 3 high = true) ∧ (on.fresh.takesUpTo on.nextPwm).running = false := by decide

set_option maxRecDepth 20000 in
/-- RingAdmission: a block of ENUM that comes back with a wrong CRC-8. -/
theorem test_return_hyps :
    ((linkUp 0 (ringAt 1)).fresh.l0Return 0 (.enum 40) (.enum 40) ((wholeLine (L0Msg.frame 0 .cw (.enum 41))), [])).2 ≠ (true, true) ∧
    ((linkUp 0 (ringAt 1)).fresh.l0Return 0 (.enum 40) (.enum 40) ([], [])).2 = (true, true) := by decide +kernel

set_option maxRecDepth 20000 in
/-- EnergyAndClock, IslandRecordsAndSupply, MailboxAndBilling: the island as its service leaves it, a snapshot, PDATA, LSEL. -/
theorem test_service_hyps :
    let r : MtrRec := ⟨2, 0, 7, 3, 1, 1, 5, 6, 7, 8, 9, 1, false, true⟩
    let s := metering mtrRun fun m => { m with sessOpen := 0x80, coverOpen := true, log := [r], queue := [⟨.host 0, 3, some r⟩] }
    let p := metering mtrParam fun m => { m with coverOpen := true, lastPair := some (5000, 7), pdata := some (.host 2, 700) }
    let u := s.fresh.mtrService
    let v := p.fresh.mtrService
    u.powered domMtr = true ∧ u.mtr.invalid = false ∧ u.mtr.measuring = true ∧ u.mtr.queue = [⟨.host 0, 3, some r⟩] ∧ u.mtr.snap = [] ∧
    u.mtr.signBad = false ∧ u.mtr.fkey = false ∧ u.mtrState = mtrRun ∧ v.mtrState = mtrParam ∧ u.mtr.sessOpen.getLsbD 7 = true ∧
    u.mtr.log.find? (fun r => r.rseq == 7) = some r ∧ u.mtr.log.find? (fun r => r.rseq == 8) = none ∧ u.ecc = [] ∧ u.flag F.MTR_STAT_FLOG = false ∧
    v.mtr.pendingP ≠ v.mtr.nextP.getD v.mtr.params ∧ v.mtr.lastPair = some (5000, 7) ∧ v.mtr.count < v.mtr.pairAt + 120 * 160000000 ∧
    p.mtr.pdata = some (.host 2, 700) ∧ (p.live.all fun e => e.1 != A.MTR_LSEL) = true ∧
    (metering mtrRun fun m => { m with pairAt := 0, count := 120 * 160000000 }).mtr.pairAt + 120 * 160000000 ≤
      (metering mtrRun fun m => { m with count := 120 * 160000000 }).mtr.count ∧
    (metering mtrRun fun m => { m with mtime := 86400 }).mtr.mtime / 86400 ≠ s.mtr.dayNo ∧
    (metering mtrRun fun m => { m with snap := [r], lastSnap := some 0 }).snapDue = false ∧ billIn 1 [1] = none := by decide +kernel

/-- FaultsMemoryThermal, HostAccess: a self-test that finds nothing wrong and one that does; a block that no boundary waits for. -/
theorem test_pair_hyps :
    on.mismatch = false ∧ 10000 < 10001 ∧ upToDate (accepted hosted q0) A.TIME_ASYM :=
  ⟨by decide, by decide, rfl⟩

set_option maxRecDepth 20000 in
/-- A reference cell's descriptor is one that RING takes. -/
theorem test_reference_cell : descOk ((List.range 16).map fun i => ((Cell.reset.regs.find? fun e => e.1 == i).map (·.2)).getD 0) = true := by decide

/-! Steps. -/

theorem test_reset_form : Memory.wf State.reset.mem = true ∧ regsWf State.reset.regs = true := by decide

theorem test_step_runs : ∃ t, step { State.reset with pending := [.malformedDatagram 0] } = .next t ∧ t.pending = [] := ⟨_, rfl, rfl⟩

theorem test_sealed_hyps : ∃ t, exec .coverOpen on = .next t := ⟨_, rfl⟩

theorem test_frame_hyps : ownBlocks (.trip 3) = some [7, 8, 11, 12, 13] ∧ ∃ t, exec (.trip 3) driven = .next t := ⟨rfl, _, rfl⟩

/-! Worked examples of the manual. -/

set_option maxRecDepth 20000 in
/-- The check of R180 and the CRC-32 of R419 on "123456789". -/
theorem test_crc :
    crc16 ((List.range 9).map fun i => BitVec.ofNat 8 (0x31 + i)) = 0x29B1 ∧ crc32 ((List.range 9).map fun i => BitVec.ofNat 8 (0x31 + i)) = 0xCBF43926 := by
  decide

end Sys2Proof.Tests
end

section
/-!
O18: a direct read brings the block's boundary about before it answers (R8).
-/

namespace Sys2Proof.Machine

/-- Every domain is powered and a write of RING.CADATA with 7 waits (R8); since it was made a ring cycle has begun, whose
boundary no access has brought about yet. -/
def cadataDue : State := { State.reset.fset F.SUP_DOM_PWR 0xFFF with ticks := 8192, live := [(A.RING_CADATA, 7)] }

/-- The read meets RING after its boundary: it answers the 7 that waited, where the register showed 0 before it. -/
theorem cadataDue_read :
    cadataDue.word A.RING_CADATA = 0 ∧ (cadataDue.fresh.busRead (.host 0) A.RING_CADATA).out = [.value (.host 0) (some 7)] := by decide

/-- Refutes O18: the statement says that a read answers the register's value as it stood before the access, but an access of RING
first takes up what waits for a ring cycle begun since (R8). In `cadataDue` the read answers 7 where the register held 0. -/
theorem not_registerAccess : ¬ Obligations.RegisterAccess := by
  unfold Obligations.RegisterAccess
  intro h
  obtain ⟨hold, hout⟩ := cadataDue_read
  obtain ⟨r, i, hr⟩ : ∃ r i, findReg A.RING_CADATA = some (r, i) := ⟨_, _, rfl⟩
  obtain ⟨-, -, hread⟩ := h cadataDue (.host 0) A.RING_CADATA 0 r i hr (by decide)
  obtain ⟨t, ht, hval, -⟩ := hread (by decide) (by decide)
  cases ht
  rw [hold, hout] at hval
  simp at hval

end Sys2Proof.Machine
end

section
/-!
O50: the service of the mailbox where two writes of one register wait (R8).
-/

namespace Sys2Proof.Machine

/-- The island is in PARAM, its mailbox holds 700 written to MTR.PDATA, and two writes of MTR.PADDR wait: 0 and after it 1. (A write
replaces the one that waits, so no run leads here; the statement is about every state.) -/
def paddrTwice : State :=
  { (State.reset.fset F.SUP_DOM_PWR 0xFFF).fset F.MTR_STAT_STATE mtrParam with
    live := [(A.MTR_PADDR, 0), (A.MTR_PADDR, 1)], mtr := { Mtr.reset with measuring := true, pdata := some (.host 2, 700) } }

/-- The first of the two is the value that `fnext` shows; the service applies both, so the second is the address it uses. -/
theorem paddrTwice_service :
    paddrTwice.fnext F.MTR_PADDR_ADDR = 0 ∧ paddrTwice.mtrService.mtr.pendingP = Mtr.params0.set 1 700 := by decide

/-- Refutes O50: of parameter data the statement says that the service sets the parameter whose number `fnext` shows for MTR.PADDR,
but where two writes of it wait, the service uses the last of them. In `paddrTwice` it sets parameter 1, not 0. -/
theorem not_mailboxAndBilling : ¬ Obligations.MailboxAndBilling := by
  unfold Obligations.MailboxAndBilling
  intro h
  obtain ⟨-, -, hdata, -⟩ := h
  obtain ⟨haddr, hset⟩ := paddrTwice_service
  obtain ⟨-, -, -, hparam⟩ := hdata paddrTwice (.host 2) 700 (by decide) rfl rfl (by decide)
  obtain ⟨-, hserve⟩ := hparam (by decide)
  obtain ⟨hok, -⟩ := hserve 0 haddr rfl
  have hbad := hok (by decide)
  rw [hset] at hbad
  exact absurd hbad (by decide)

end Sys2Proof.Machine
end

section
/-!
SUPPORT. The frame of a state: what an event leaves of the registers outside named blocks, of memory, the cores and the takes, and
a rule for each shared operation. Where an operation's blocks are among those named, the frame after it is the frame before it, so a
meaning's frame is found by rewriting its operations away from the outside in.
-/

namespace Sys2Proof.Machine

/-- What a frame statement says of a state: its registers outside the blocks `bs`, memory, the script cores, and of each take what
`g` shows. -/
def State.frame (s : State) (bs : List Nat) (g : Take → Take) : (Nat → Word) × List Host.Cell × Vector Core 12 × Vector Take 8 :=
  (fun a => if blockOf a ∈ bs then 0 else s.word a, s.mem, s.cores, s.takes.map g)

/-- The frame of the state that a meaning answers. -/
def resFrame (bs : List Nat) (g : Take → Take) : Res → Option ((Nat → Word) × List Host.Cell × Vector Core 12 × Vector Take 8)
  | .next t => some (t.frame bs g)
  | _ => none

variable {s t : State} {bs bs' : List Nat} {g : Take → Take}

theorem frame_of (hw : ∀ a, blockOf a ∉ bs → t.word a = s.word a) (hm : t.mem = s.mem) (hc : t.cores = s.cores) (ht : t.takes = s.takes) :
    t.frame bs g = s.frame bs g := by
  unfold State.frame
  rw [hm, hc, ht]
  congr 1
  funext a
  split
  · rfl
  · exact hw a ‹_›

/-- A change of other parts of the state. (A rule proved through this lemma stays a rewriting step; one proved by `rfl` alone `simp`
would use by definitional unfolding, of the whole state.) -/
theorem frame_same (h : (t.regs, t.mem, t.cores, t.takes) = (s.regs, s.mem, s.cores, s.takes)) : t.frame bs g = s.frame bs g := by
  obtain ⟨hr, hm, hc, ht⟩ := Prod.mk.inj h |>.imp id fun h => Prod.mk.inj h |>.imp id Prod.mk.inj
  exact frame_of (fun a _ => by simp only [State.word, hr]) hm hc ht

theorem frame_word (h : t.frame bs g = s.frame bs g) (a : Nat) (ha : blockOf a ∉ bs) : t.word a = s.word a := by
  have := congrFun (congrArg Prod.fst h) a
  simpa only [State.frame, if_neg ha] using this

theorem frame_mem (h : t.frame bs g = s.frame bs g) : t.mem = s.mem := congrArg (·.2.1) h
theorem frame_cores (h : t.frame bs g = s.frame bs g) : t.cores = s.cores := congrArg (·.2.2.1) h
theorem frame_takes (h : t.frame bs g = s.frame bs g) : t.takes.map g = s.takes.map g := congrArg (·.2.2.2) h

theorem frame_mono (hb : bs ⊆ bs') (h : t.frame bs g = s.frame bs g) : t.frame bs' g = s.frame bs' g := by
  unfold State.frame
  rw [frame_mem h, frame_cores h, frame_takes h]
  congr 1
  funext a
  split
  · rfl
  · exact frame_word h a (fun e => ‹blockOf a ∉ bs'› (hb e))

theorem frame_setWord (a : Nat) (v : Word) (h : blockOf a ∈ bs) : (s.setWord a v).frame bs g = s.frame bs g :=
  frame_of (fun b hb => s.word_setWord_ne a b v (fun e => hb (e ▸ h))) rfl rfl rfl

theorem frame_fset (f : Fld) (v : Nat) (h : blockOf f.addr ∈ bs) : (s.fset f v).frame bs g = s.frame bs g := frame_setWord _ _ h

theorem frame_fclrBit (f : Fld) (i : Nat) (h : blockOf f.addr ∈ bs) : (s.fclrBit f i).frame bs g = s.frame bs g := by
  unfold State.fclrBit
  split
  · exact frame_fset _ _ h
  · rfl

/-- Reports of events stay within FLT, MEM and HOST. -/
theorem frame_reports (h : Reports s t) (hb : [11, 12, 13] ⊆ bs) : t.frame bs g = s.frame bs g := by
  refine frame_of (fun a ha => h.word a ?_) h.mem h.cores h.takes
  have h11 : blockOf a ≠ 11 := fun e => ha (hb (by simp [e]))
  have h12 : blockOf a ≠ 12 := fun e => ha (hb (by simp [e]))
  have h13 : blockOf a ≠ 13 := fun e => ha (hb (by simp [e]))
  unfold blockOf at h11 h12 h13
  omega

/-- A block's boundary stays within its block. -/
theorem frame_applyLiveBlock (n : Nat) (hn : n < 0x4000) (h : n ∈ bs) : (s.applyLiveBlock n).frame bs g = s.frame bs g := by
  have hr := s.applyLive_rest (0x40000000 + n * 0x10000) (0x40000000 + (n + 1) * 0x10000)
  refine frame_of (fun a ha => s.word_applyLive _ _ a ?_) (congrArg State.mem hr :) (congrArg State.cores hr :)
    (congrArg State.takes hr :)
  have hne : blockOf a ≠ n := fun e => ha (e ▸ h)
  unfold blockOf at hne
  omega

theorem frame_foldlFst {α β : Type} (l : List α) (f : State × β → α → State × β) (p : State × β)
    (h : ∀ x ∈ l, ∀ q : State × β, (f q x).1.frame bs g = q.1.frame bs g) : (l.foldl f p).1.frame bs g = p.1.frame bs g := by
  induction l generalizing p with
  | nil => rfl
  | cons x l ih =>
    exact (ih (f p x) fun y hy => h y (List.mem_cons_of_mem _ hy)).trans (h x List.mem_cons_self p)

theorem frame_foldl {α : Type} (l : List α) (f : State → α → State) (h : ∀ x t, (f t x).frame bs g = t.frame bs g) :
    (l.foldl f s).frame bs g = s.frame bs g := by
  induction l generalizing s with
  | nil => rfl
  | cons x l ih => exact ih.trans (h x s)

theorem frame_eachMem {α : Type} (l : List α) (f : α → State → State) (h : ∀ x ∈ l, ∀ t, (f x t).frame bs g = t.frame bs g) :
    (s.each l f).frame bs g = s.frame bs g := by
  unfold State.each
  induction l generalizing s with
  | nil => rfl
  | cons x l ih => exact (ih fun y hy => h y (List.mem_cons_of_mem _ hy)).trans (h x List.mem_cons_self s)

theorem frame_each {α : Type} (l : List α) (f : α → State → State) (h : ∀ x t, (f x t).frame bs g = t.frame bs g) :
    (s.each l f).frame bs g = s.frame bs g := frame_eachMem l f fun x _ t => h x t

/-- A change of the parts of the state that no frame statement looks at. -/
theorem frame_rest
    {x_pending : List Instr} {x_free x_ticks x_rtAdj x_ringAt x_lineAt x_ltBase : Nat} {x_tx : Vector TxQueue 8}
    {x_live : List (Nat × Word)} {x_vers : List (Nat × Nat)} {x_ecc : List (Nat × Ecc)} {x_timer : Timer} {x_sup : Sup} {x_clk : Clk}
    {x_tim : Tim} {x_plan : Vector Dest 4} {x_rings : Vector Ring 3} {x_ports : Vector Port 8} {x_evq : List EvtRec}
    {x_access : Option CellAccess} {x_caTag : BitVec 8} {x_cells : Vector (Vector Cell 40) 3} {x_brg : Brg} {x_adc : Adc}
    {x_capt : Vector Capt 4} {x_mtr : Mtr} {x_safe : Safe} {x_flt : Flt} {x_memory : Mem} {x_host : Vector HPort 3} {x_upd : Upd}
    {x_strm : Strm} {x_out : List Out} :
    ({ pending := x_pending, free := x_free, ticks := x_ticks, rtAdj := x_rtAdj, ringAt := x_ringAt, lineAt := x_lineAt, tx := x_tx,
       ltBase := x_ltBase, regs := s.regs, live := x_live, vers := x_vers, mem := s.mem, ecc := x_ecc, timer := x_timer, sup := x_sup,
       clk := x_clk, tim := x_tim, cores := s.cores, takes := s.takes, plan := x_plan, rings := x_rings, ports := x_ports, evq := x_evq,
       access := x_access, caTag := x_caTag, cells := x_cells, brg := x_brg, adc := x_adc, capt := x_capt, mtr := x_mtr, safe := x_safe,
       flt := x_flt, memory := x_memory, host := x_host, upd := x_upd, strm := x_strm, out := x_out } : State).frame bs g =
      s.frame bs g := frame_same rfl

/-- The shared operations leave the frame: one rule each. -/
theorem frame_ops :
    (∀ (s : State) (a : Nat) (v : Word), blockOf a ∈ bs → (s.setWord a v).frame bs g = s.frame bs g) ∧
    (∀ (s : State) (f : Fld) (v : Nat), blockOf f.addr ∈ bs → (s.fset f v).frame bs g = s.frame bs g) ∧
    (∀ (s : State) (f : Fld) (v : Int), blockOf f.addr ∈ bs → (s.fsetI f v).frame bs g = s.frame bs g) ∧
    (∀ (s : State) (f : Fld), blockOf f.addr ∈ bs → (s.finc f).frame bs g = s.frame bs g) ∧
    (∀ (s : State) (f : Fld) (i : Nat), blockOf f.addr ∈ bs → (s.fsetBit f i).frame bs g = s.frame bs g) ∧
    (∀ (s : State) (f : Fld) (i : Nat), blockOf f.addr ∈ bs → (s.fclrBit f i).frame bs g = s.frame bs g) ∧
    (∀ (s : State) (l h : Fld) (v : BitVec 48), blockOf l.addr ∈ bs → blockOf h.addr ∈ bs → (s.setTime48 l h v).frame bs g = s.frame bs g) ∧
    (∀ (s : State) (o : Out), (s.emit o).frame bs g = s.frame bs g) ∧
    (∀ (s : State), s.fresh.frame bs g = s.frame bs g) ∧
    (∀ (s : State) (n : Nat), (s.advanceTo n).frame bs g = s.frame bs g) ∧
    (∀ (s : State) (x : LegId) (f : Leg → Leg), (s.modLeg x f).frame bs g = s.frame bs g) ∧
    (∀ (s : State) (u : CaptId) (f : Capt → Capt), (s.modCapt u f).frame bs g = s.frame bs g) ∧
    (∀ (s : State) (x : RingId) (f : Ring → Ring), (s.modRing x f).frame bs g = s.frame bs g) ∧
    (∀ (s : State) (p : LaneId) (f : Port → Port), (s.modPort p f).frame bs g = s.frame bs g) ∧
    (∀ (s : State) (x : RingId) (k : CellId) (f : Cell → Cell), (s.modCell x k f).frame bs g = s.frame bs g) ∧
    (∀ (s : State) (f : Mtr → Mtr), (s.modMtr f).frame bs g = s.frame bs g) ∧
    (∀ (s : State) (f : Safe → Safe), (s.modSafe f).frame bs g = s.frame bs g) ∧
    (∀ (c : Prop) [Decidable c] (x y : State), (if c then x else y).frame bs g = if c then x.frame bs g else y.frame bs g) :=
  ⟨fun _ => frame_setWord, fun _ => frame_fset, fun _ _ _ => frame_setWord _ _, fun _ _ => frame_setWord _ _, fun _ _ _ => frame_setWord _ _,
    fun _ => frame_fclrBit, fun _ _ _ _ hl hh => (frame_fset _ _ hh).trans (frame_fset _ _ hl), fun _ _ => rfl, fun _ => rfl, fun _ _ => rfl,
    fun _ _ _ => rfl, fun _ _ _ => rfl, fun _ _ _ => rfl, fun _ _ _ => rfl, fun _ _ _ _ => rfl, fun _ _ => rfl, fun _ _ => rfl,
    fun c _ x y => apply_ite (fun s => State.frame s bs g) c x y⟩

/-- The operations that report leave the frame, where the reports' blocks are among those named. -/
theorem frame_reporting (hb : [11, 12, 13] ⊆ bs) :
    (∀ (s : State) (n : Nat), (s.raise n).frame bs g = s.frame bs g) ∧
    (∀ (s : State) (n : Nat) (on : Bool), (s.setCond n on).frame bs g = s.frame bs g) ∧
    (∀ (s : State) (safe : Bool), (s.beginStop safe).frame bs g = s.frame bs g) ∧
    (∀ (s : State) (e : LogEntry), (s.log e).frame bs g = s.frame bs g) ∧
    (∀ (s : State) (k : BitVec 8) (a b : Nat), (s.logHigh k a b).frame bs g = s.frame bs g) ∧
    (∀ (s : State) (f : Frame), (s.sendPeer f).frame bs g = s.frame bs g) :=
  ⟨fun s n => frame_reports (s.raise_reports n) hb, fun s n on => frame_reports (State.setCond_reports (Reports.refl s) n on) hb,
    fun s b => frame_reports (State.beginStop_reports (Reports.refl s) b) hb, fun s e => frame_reports (State.log_reports (Reports.refl s) e) hb,
    fun s k a b => frame_reports (State.logHigh_reports (Reports.refl s) k a b) hb,
    fun s f => frame_reports (State.sendPeer_reports (Reports.refl s) f) hb⟩

theorem resFrame_next : resFrame bs g (.next t) = some (t.frame bs g) := rfl

theorem resFrame_ite (c : Prop) [Decidable c] (x y : Res) :
    resFrame bs g (if c then x else y) = if c then resFrame bs g x else resFrame bs g y := apply_ite (resFrame bs g) c x y

end Sys2Proof.Machine
end

section
/-!
SUPPORT. The frame of the bridge: its operations, its events and the legs at the start of a PWM period.
-/

namespace Sys2Proof.Machine

variable {s : State} {g : Take → Take}

/-- The blocks of the bridge and of the gate drivers, and those of reports. -/
def bridgeBlocks : List Nat := [7, 8, 11, 12, 13]

theorem reports_bridge : [11, 12, 13] ⊆ bridgeBlocks := by decide

theorem legField_block (x : LegId) : blockOf (legField x).addr ∈ bridgeBlocks := by
  simp [blockOf, legField, A.BRG_LEGSTAT, bridgeBlocks]

/-- The causes of a leg's fault stand in GATE.STATx. -/
theorem gateStat_block (x : LegId) :
    blockOf (F.GATE_STAT_FAULT x).addr ∈ bridgeBlocks ∧ blockOf (F.GATE_STAT_UVLO_NEG x).addr ∈ bridgeBlocks ∧
    blockOf (F.GATE_STAT_UVLO_HS x).addr ∈ bridgeBlocks ∧ blockOf (F.GATE_STAT_UVLO_LS x).addr ∈ bridgeBlocks ∧
    blockOf (F.GATE_STAT_DESAT_H x).addr ∈ bridgeBlocks ∧ blockOf (F.GATE_STAT_DESAT_L x).addr ∈ bridgeBlocks ∧
    blockOf (F.GATE_STAT_OC x).addr ∈ bridgeBlocks := by
  revert x
  decide

theorem setLegState_frame (s : State) (x : LegId) (v : Nat) : (s.setLegState x v).frame bridgeBlocks g = s.frame bridgeBlocks g :=
  frame_fset _ _ (legField_block x)

theorem dropEdges_frame {bs : List Nat} (s : State) (x : LegId) : (s.dropEdges x).frame bs g = s.frame bs g := frame_same rfl

theorem cutLeg_frame {bs : List Nat} (s : State) (x : LegId) : (s.cutLeg x).frame bs g = s.frame bs g := by
  simp only [State.cutLeg, ↓frame_each, ↓frame_ops, ↓dropEdges_frame, implies_true]

theorem gateFault_frame (s : State) (x : LegId) (cause count : Fld) (src : Nat) (hc : blockOf cause.addr ∈ bridgeBlocks)
    (hn : blockOf count.addr ∈ bridgeBlocks) : (s.gateFault x cause count src).frame bridgeBlocks g = s.frame bridgeBlocks g := by
  simp only [State.gateFault, ↓frame_reporting reports_bridge, ↓frame_ops, ↓setLegState_frame, gateStat_block, hc, hn, ite_self]

theorem lockoutFault_frame (s : State) (x : LegId) (high negative : Bool) :
    (s.lockoutFault x high negative).frame bridgeBlocks g = s.frame bridgeBlocks g := by
  obtain ⟨-, hneg, hhs, hls, -⟩ := gateStat_block x
  refine (gateFault_frame _ _ _ _ _ ?_ (by decide)).trans ?_
  · cases negative <;> cases high <;> assumption
  · simp only [↓frame_ops, ↓cutLeg_frame, ite_self]

theorem chargeEnd_frame (s : State) (x : LegId) : (s.chargeEnd x).frame bridgeBlocks g = s.frame bridgeBlocks g := by
  simp only [State.chargeEnd, ↓frame_each, ↓frame_ops, ↓lockoutFault_frame, implies_true, ite_self]

theorem placeEdges_frame {bs : List Nat} (s : State) (x : LegId) (s0 : Nat) (hi lo : Option (Nat × Nat)) :
    (s.placeEdges x s0 hi lo).frame bs g = s.frame bs g := by
  simp only [State.placeEdges, ↓frame_each, ↓frame_ops, implies_true]

theorem legPattern_frame (s : State) (x : LegId) (s0 t : Nat) : (s.legPattern x s0 t).frame bridgeBlocks g = s.frame bridgeBlocks g := by
  simp +decide only [State.legPattern, ↓frame_ops, ↓placeEdges_frame, ↓setLegState_frame, ite_self]

theorem countLow_frame {bs : List Nat} (s : State) (x : LegId) : (s.countLow x).frame bs g = s.frame bs g := frame_same rfl

theorem legBefore_frame (s : State) (x : LegId) : (s.legBefore x).frame bridgeBlocks g = s.frame bridgeBlocks g := by
  simp +decide only [State.legBefore, ↓frame_ops, ↓chargeEnd_frame, ↓countLow_frame, ite_self]

theorem legStop_frame (s : State) (x : LegId) (st : Nat) : (s.legStop x st).frame bridgeBlocks g = s.frame bridgeBlocks g := by
  simp +decide only [State.legStop, ↓frame_ops, ↓cutLeg_frame, ↓setLegState_frame, ite_self]

theorem legPeriod_frame (s : State) (s0 t : Nat) (x : LegId) : (s.legPeriod s0 t x).frame bridgeBlocks g = s.frame bridgeBlocks g := by
  unfold State.legPeriod State.legStart
  split
  · exact (legStop_frame _ _ _).trans (legBefore_frame s x)
  · exact (legPattern_frame _ _ _ _).trans (legBefore_frame s x)

theorem takeEntry_frame (s : State) (s0 : Nat) : (s.takeEntry s0).frame bridgeBlocks g = s.frame bridgeBlocks g := by
  unfold State.takeEntry
  dsimp only
  split
  · rfl
  · split <;> simp +decide only [↓frame_each, ↓frame_ops, ↓frame_rest, implies_true, ite_self]

theorem tripLeg_frame (s : State) (t : Nat) (x : LegId) : (s.tripLeg t x).frame bridgeBlocks g = s.frame bridgeBlocks g := by
  simp +decide only [State.tripLeg, ↓frame_ops, ↓cutLeg_frame, ↓setLegState_frame, ite_self]

theorem shortFault_frame (s : State) (x : LegId) (cause count : Fld) (src : Nat) (hc : blockOf cause.addr ∈ bridgeBlocks)
    (hn : blockOf count.addr ∈ bridgeBlocks) : (s.shortFault x cause count src).frame bridgeBlocks g = s.frame bridgeBlocks g := by
  simp only [State.shortFault, ↓frame_ops, ↓dropEdges_frame, ↓gateFault_frame, hc, hn, ite_self]

theorem channelOff_frame {bs : List Nat} (s : State) (x : LegId) (high : Bool) : (s.channelOff x high).frame bs g = s.frame bs g := by
  simp only [State.channelOff, ↓frame_ops, ite_self]

/-! The bridge's events. -/

theorem execBrgEntryReceived_frame (e : BitVec 128) :
    resFrame bridgeBlocks g (execBrgEntryReceived e s) = some (s.frame bridgeBlocks g) := by
  simp only [execBrgEntryReceived, resFrame_ite, resFrame_next, ↓frame_reporting reports_bridge, ↓frame_ops, ↓frame_rest, ite_self]

theorem execTrip_frame (t : TripId) (i : Option (Bool × Nat)) :
    resFrame bridgeBlocks g (execTrip t s i) = some (s.frame bridgeBlocks g) := by
  simp +decide only [execTrip, resFrame_ite, resFrame_next, ↓frame_each, ↓frame_reporting reports_bridge, ↓frame_ops, ↓tripLeg_frame,
    implies_true, ite_self]

theorem execTripInactive_frame (t : TripId) (i : Option Bool) :
    resFrame bridgeBlocks g (execTripInactive t s i) = some (s.frame bridgeBlocks g) := by
  simp +decide only [execTripInactive, resFrame_next, ↓frame_ops, ite_self]

theorem execGateSupplyLockout_frame (x : LegId) (high negative : Bool) (seen : Option (Nat × Nat)) :
    resFrame bridgeBlocks g (execGateSupplyLockout x high negative s seen) = some (s.frame bridgeBlocks g) := by
  cases negative <;>
    simp +decide only [execGateSupplyLockout, resFrame_ite, resFrame_next, ↓frame_ops, ↓lockoutFault_frame, ite_self]

theorem execGateSupplyRelease_frame (x : LegId) (high negative : Bool) (seen : Option (Nat × Nat)) :
    resFrame bridgeBlocks g (execGateSupplyRelease x high negative s seen) = some (s.frame bridgeBlocks g) := by
  cases negative <;> simp +decide only [execGateSupplyRelease, resFrame_next, ↓frame_ops, ite_self]

theorem execDesaturationFault_frame (x : LegId) (high : Bool) (mv : Option Nat) :
    resFrame bridgeBlocks g (execDesaturationFault x high s mv) = some (s.frame bridgeBlocks g) := by
  cases high <;>
    simp +decide only [execDesaturationFault, resFrame_ite, resFrame_next, ↓frame_ops, ↓shortFault_frame, gateStat_block, reduceIte, ite_self]

theorem execOvercurrentFault_frame (x : LegId) (seen : Option (Nat × Nat)) :
    resFrame bridgeBlocks g (execOvercurrentFault x s seen) = some (s.frame bridgeBlocks g) := by
  simp +decide only [execOvercurrentFault, resFrame_ite, resFrame_next, ↓frame_ops, ↓shortFault_frame, gateStat_block, ite_self]

theorem execOvercurrentEnd_frame (x : LegId) (mv : Option Nat) :
    resFrame bridgeBlocks g (execOvercurrentEnd x s mv) = some (s.frame bridgeBlocks g) := by
  simp +decide only [execOvercurrentEnd, resFrame_next, ↓frame_ops, ite_self]

theorem execSoftTurnoffStart_frame (x : LegId) : resFrame bridgeBlocks g (execSoftTurnoffStart x s) = some (s.frame bridgeBlocks g) := by
  simp only [execSoftTurnoffStart, State.softStart, resFrame_ite, resFrame_next, ↓frame_ops, ↓frame_rest, ↓cutLeg_frame, ite_self]

theorem execSoftTurnoffEnd_frame (x : LegId) : resFrame bridgeBlocks g (execSoftTurnoffEnd x s) = some (s.frame bridgeBlocks g) := by
  simp only [execSoftTurnoffEnd, resFrame_ite, resFrame_next, ↓frame_ops, ite_self]

theorem execGateCommandLoss_frame (x : LegId) (high : Bool) (primary : Option Bool) :
    resFrame bridgeBlocks g (execGateCommandLoss x high s primary) = some (s.frame bridgeBlocks g) := by
  unfold execGateCommandLoss
  split <;> simp only [resFrame_next, ↓channelOff_frame, ↓frame_rest, ↓frame_ops]

end Sys2Proof.Machine
end

section
/-!
SUPPORT. The frame of the time bases: GTIME, the compare units and the peer on P7.
-/

namespace Sys2Proof.Machine

variable {s : State} {g : Take → Take}

/-- The block of the time bases, SUP, where the time source stands, and those of reports. -/
def timeBlocks : List Nat := [0, 2, 11, 12, 13]

theorem reports_time : [11, 12, 13] ⊆ timeBlocks := by decide

/-- The registers of a compare unit, and of a port's queue of stamps, are TIME's. -/
theorem cmp_block (u : UnitId) :
    blockOf (F.TIME_CMPCTL_ARMED u).addr ∈ timeBlocks ∧ blockOf (F.TIME_CMPL_TIME u).addr ∈ timeBlocks ∧
    blockOf (F.TIME_CMPH_TIME u).addr ∈ timeBlocks := by
  revert u
  decide

theorem txts_block (p : EthId) : blockOf (txLevel p).addr ∈ timeBlocks ∧ blockOf (txDropped p).addr ∈ timeBlocks := by
  revert p
  decide

theorem setAnchor_frame (s : State) (t : BitVec 48) (a : Nat) : (s.setAnchor t a).frame timeBlocks g = s.frame timeBlocks g := by
  simp +decide only [State.setAnchor, ↓frame_ops, ↓frame_rest]

theorem showK_frame (s : State) : s.showK.frame timeBlocks g = s.frame timeBlocks g := frame_setWord _ _ (by decide)

theorem takeRate_frame (s : State) : s.takeRate.frame timeBlocks g = s.frame timeBlocks g := by
  unfold State.takeRate
  split
  · exact (showK_frame _).trans rfl
  · rfl

theorem toHoldover_frame (s : State) : s.toHoldover.frame timeBlocks g = s.frame timeBlocks g := by
  simp +decide only [State.toHoldover, ↓frame_ops, ↓frame_rest, ite_self]

theorem countMeasurement_frame (s : State) (theta : Int) : (s.countMeasurement theta).frame timeBlocks g = s.frame timeBlocks g := by
  simp +decide only [State.countMeasurement, ↓frame_ops, ↓frame_rest, ↓toHoldover_frame, ite_self]

theorem oneStepOut_frame {bs : List Nat} (s : State) (p : EthId) (k : BitVec 4) (q : BitVec 16) :
    (s.oneStepOut p k q).frame bs g = s.frame bs g := by
  unfold State.oneStepOut
  dsimp only
  split
  · rfl
  · split <;> rfl

theorem armCompare_frame (s : State) (u : UnitId) : (s.armCompare u).frame timeBlocks g = s.frame timeBlocks g := by
  simp +decide only [State.armCompare, ↓frame_ops, cmp_block, ite_self]

theorem fireCompare_frame (s : State) (u : UnitId) : (s.fireCompare u).frame timeBlocks g = s.frame timeBlocks g := by
  simp +decide only [State.fireCompare, State.disarmCompare, ↓frame_ops, ↓armCompare_frame, cmp_block, ite_self]

theorem showLoop_frame (s : State) (n : Nat) : (s.showLoop n).frame timeBlocks g = s.frame timeBlocks g := frame_fset _ _ (by decide)

theorem roleWritten_frame (s : State) : s.roleWritten.frame timeBlocks g = s.frame timeBlocks g := by
  simp +decide only [State.roleWritten, ↓frame_ops, ite_self]

theorem losePeer_frame (s : State) : s.losePeer.frame timeBlocks g = s.frame timeBlocks g := by
  simp +decide only [State.losePeer, ↓frame_reporting reports_time, ↓frame_ops, ↓frame_rest, ite_self]

/-- The receiver of P7 counts its invalid headers in HOST, where the lane registers of P7 stand. -/
theorem laneIn_peer_frame (s : State) (bs : List LineBlock) : (s.laneIn 7 .l0 bs).1.frame timeBlocks g = s.frame timeBlocks g := by
  unfold State.laneIn
  split
  · simp +decide only [State.countHeaders, ↓frame_reporting reports_time, ↓frame_ops, ite_self]
  · rfl

theorem peerFrames_frame (s : State) (typ : Nat) (bs : List LineBlock) (take : Frame → State → State)
    (h : ∀ f t, (take f t).frame timeBlocks g = t.frame timeBlocks g) :
    (s.peerFrames typ bs take).frame timeBlocks g = s.frame timeBlocks g := by
  unfold State.peerFrames
  split
  · refine (frame_foldl _ _ fun f t => ?_).trans (laneIn_peer_frame s bs)
    simp only [↓frame_reporting reports_time, ↓frame_ops, h, ite_self]
  · rfl

theorem pclapIn_frame (s : State) (fwd : Nat) (f : Frame) : (s.pclapIn fwd f).frame timeBlocks g = s.frame timeBlocks g := by
  simp +decide only [State.pclapIn, ↓frame_reporting reports_time, ↓frame_ops, ↓frame_rest]

/-- A take without the instant of its boundary. -/
def Take.undated (k : Take) : Take := { k with instant := none }

/-- RTIME moves under the takes: the instants of their boundaries move with it, and nothing else of them. -/
theorem shiftRtime_frame {bs : List Nat} (s : State) (d : Int) : (s.shiftRtime d).frame bs Take.undated = s.frame bs Take.undated := by
  have h : (s.shiftRtime d).takes.map Take.undated = s.takes.map Take.undated := by
    simp only [State.shiftRtime, Vector.map_map]
    rfl
  unfold State.frame
  rw [h]
  rfl

theorem correctRtime_frame (s : State) (o : Int) :
    (s.correctRtime o).frame timeBlocks Take.undated = s.frame timeBlocks Take.undated := by
  simp +decide only [State.correctRtime, State.reclapper, ↓frame_each, ↓frame_reporting reports_time, ↓frame_ops, ↓frame_rest,
    ↓shiftRtime_frame, implies_true, ite_self]

theorem ptimeIn_frame (s : State) (f : Frame) : (s.ptimeIn f).frame timeBlocks Take.undated = s.frame timeBlocks Take.undated := by
  unfold State.ptimeIn
  dsimp only
  split <;> simp +decide only [↓frame_reporting reports_time, ↓frame_ops, ↓frame_rest, ↓showLoop_frame, ↓correctRtime_frame, ite_self]

/-! The events of the time bases. -/

theorem execGtimeReanchor_frame : resFrame timeBlocks g (execGtimeReanchor s) = some (s.frame timeBlocks g) := by
  simp only [execGtimeReanchor, resFrame_ite, resFrame_next, ↓frame_ops, ↓frame_rest, ↓takeRate_frame, ↓showK_frame, ↓setAnchor_frame,
    ite_self]

theorem execPtpEventMessage_frame (p : EthId) (tx : Bool) (k : BitVec 4) (q : BitVec 16) :
    resFrame timeBlocks g (execPtpEventMessage p tx k q s) = some (s.frame timeBlocks g) := by
  simp +decide only [execPtpEventMessage, resFrame_ite, resFrame_next, ↓frame_ops, ↓frame_rest, ↓oneStepOut_frame, txts_block, ite_self]

theorem execSyncMeasurement_frame (theta k utc : Int) :
    resFrame timeBlocks g (execSyncMeasurement theta k utc s) = some (s.frame timeBlocks g) := by
  unfold execSyncMeasurement
  dsimp only
  split
  · split <;> simp +decide only [resFrame_ite, resFrame_next, ↓frame_ops, ↓frame_rest, ↓countMeasurement_frame, ↓frame_applyLiveBlock, ite_self]
  · rfl

theorem execGtimeStep_frame : resFrame timeBlocks g (execGtimeStep s) = some (s.frame timeBlocks g) := by
  unfold execGtimeStep
  dsimp only
  split
  · rfl
  · simp +decide only [resFrame_ite, resFrame_next, ↓frame_reporting reports_time, ↓frame_ops, ↓frame_rest, ↓showK_frame, ↓setAnchor_frame, ite_self]

theorem execHoldmaxExpiry_frame : resFrame timeBlocks g (execHoldmaxExpiry s) = some (s.frame timeBlocks g) := by
  simp +decide only [execHoldmaxExpiry, resFrame_ite, resFrame_next, ↓frame_ops, ite_self]

theorem execTimePairSend_frame {bs : List Nat} : resFrame bs g (execTimePairSend s) = some (s.frame bs g) := by
  simp only [execTimePairSend, resFrame_ite, resFrame_next, ↓frame_ops, ↓frame_rest, ite_self]

theorem execCompareFire_frame (u : UnitId) : resFrame timeBlocks g (execCompareFire u s) = some (s.frame timeBlocks g) := by
  simp only [execCompareFire, resFrame_ite, resFrame_next, ↓frame_ops, ↓fireCompare_frame, ite_self]

theorem execPeerClapperLaunch_frame (loopTime fwdSum followers : Nat) :
    resFrame timeBlocks g (execPeerClapperLaunch loopTime fwdSum followers s) = some (s.frame timeBlocks g) := by
  simp only [execPeerClapperLaunch, resFrame_ite, resFrame_next, ↓frame_reporting reports_time, ↓frame_ops, ↓frame_rest, ↓roleWritten_frame,
    ↓showLoop_frame, ite_self]

theorem execPeerReturn_frame : resFrame timeBlocks g (execPeerReturn s) = some (s.frame timeBlocks g) := by
  simp +decide only [execPeerReturn, resFrame_next, ↓frame_ops, ite_self]

theorem execPclapHeard_frame (bs : List LineBlock) (fwd : Nat) :
    resFrame timeBlocks g (execPclapHeard bs fwd s) = some (s.frame timeBlocks g) :=
  congrArg some (peerFrames_frame s.fresh _ _ _ fun f t => pclapIn_frame t fwd f)

theorem execPtimeHeard_frame (bs : List LineBlock) :
    resFrame timeBlocks Take.undated (execPtimeHeard bs s) = some (s.frame timeBlocks Take.undated) :=
  congrArg some (peerFrames_frame s.fresh _ _ _ fun f t => ptimeIn_frame t f)

end Sys2Proof.Machine
end

section
/-!
SUPPORT. The frame of the fault collector and of the safety function.
-/

namespace Sys2Proof.Machine

variable {s : State} {g : Take → Take}

/-- The blocks of reports: the collector's, that of memory upkeep and that of the host ports. -/
def reportBlocks : List Nat := [11, 12, 13]

theorem reports_self : [11, 12, 13] ⊆ reportBlocks := by decide

/-- The block of the safety function, SUP, where the lockout stands, and those of reports. -/
def safeBlocks : List Nat := [0, 11, 12, 13, 15]

theorem reports_safe : [11, 12, 13] ⊆ safeBlocks := by decide

/-- The words that FLT.SELF.WORD codes are the collector's. -/
theorem selfAddr_block (item : Nat) (h : selfItem item = true) (hl : item ≠ 0xFF) : blockOf (selfAddr item) ∈ reportBlocks := by
  have hi : item ≤ 0x0B ∨ 0x10 ≤ item ∧ item ≤ 0x4F := by simpa [selfItem, hl] using h
  have hb : blockOf (selfAddr item) = 11 := by
    unfold blockOf selfAddr A.FLT_STICKY A.FLT_REACT A.FLT_PSEL
    split
    · omega
    · split <;> omega
  rw [hb]
  decide

theorem pinLevel_frame (s : State) : s.pinLevel.frame reportBlocks g = s.frame reportBlocks g := by
  simp +decide only [State.pinLevel, ↓frame_ops, ite_self]

theorem raiseSelf_reports (s : State) : Reports s s.raiseSelf := by
  have h0 : Reports s (s.pushHist srcFltSelf) := State.pushHist_reports (Reports.refl s) _
  refine State.log_reports ?_ _
  dsimp only
  split
  · exact h0
  · have h1 := State.reactWith_reports h0 srcFltSelf ((s.pushHist srcFltSelf).reaction srcFltSelf &&& 0x7) (by decide)
    exact List.foldlRecOn _ _ h1 fun t ht n _ => State.raise_reports_of ht n

theorem rewriteFailed_frame (s : State) (item : Nat) (lasts : Bool) (h : selfItem item = true) :
    (s.rewriteFailed item lasts).frame reportBlocks g = s.frame reportBlocks g := by
  by_cases hl : item = 0xFF
  · simp only [State.rewriteFailed, hl, ↓frame_ops, ↓frame_rest, ite_self, reduceIte]
  · simp only [State.rewriteFailed, if_neg hl, ↓frame_ops, ↓frame_rest, selfAddr_block item h hl, ite_self]

/-! The collector's events. -/

theorem execFaultEvent_frame (src : SourceId) : resFrame reportBlocks g (execFaultEvent src s) = some (s.frame reportBlocks g) := by
  simp only [execFaultEvent, resFrame_next, ↓frame_reporting reports_self, ↓frame_ops]

theorem execPinPulseEnd_frame : resFrame reportBlocks g (execPinPulseEnd s) = some (s.frame reportBlocks g) := by
  simp +decide only [execPinPulseEnd, resFrame_ite, resFrame_next, ↓pinLevel_frame, ↓frame_ops, ite_self]

theorem execCollectorSelfFault_frame (item : BitVec 8) (bits : Word) (lasts : Bool) :
    resFrame reportBlocks g (execCollectorSelfFault item s bits lasts) = some (s.frame reportBlocks g) := by
  unfold execCollectorSelfFault
  dsimp only
  split
  · rename_i h
    simp only [Bool.and_eq_true] at h
    simp +decide only [resFrame_next, ↓frame_reporting reports_self, ↓rewriteFailed_frame _ _ _ h.1.2,
      ↓frame_reports (raiseSelf_reports _) reports_self, ↓frame_ops, ↓frame_rest]
  · rfl

/-! The safety function. -/

theorem safeShow_frame (s : State) : s.safeShow.frame safeBlocks g = s.frame safeBlocks g := by
  simp +decide only [State.safeShow, ↓frame_ops, ite_self]

theorem safeChange_frame (s : State) (f : Safe → Safe) : (s.safeChange f).frame safeBlocks g = s.frame safeBlocks g :=
  (safeShow_frame _).trans rfl

theorem safeCause_frame (s : State) (code : BitVec 8) : (s.safeCause code).frame safeBlocks g = s.frame safeBlocks g := by
  simp only [State.safeCause, ↓frame_reporting reports_safe, ↓safeChange_frame]

theorem safeFault_frame (s : State) (code : BitVec 8) : (s.safeFault code).frame safeBlocks g = s.frame safeBlocks g := by
  simp only [State.safeFault, ↓frame_reporting reports_safe, ↓safeCause_frame, ↓safeChange_frame]

theorem safeDemand_frame (s : State) (ch : Channel) (f act : Nat) : (s.safeDemand ch f act).frame safeBlocks g = s.frame safeBlocks g := by
  simp +decide only [State.safeDemand, ↓frame_reporting reports_safe, ↓frame_ops, ↓safeCause_frame, ↓safeChange_frame, ite_self]

theorem bEvaluate_frame (s : State) : s.bEvaluate.frame safeBlocks g = s.frame safeBlocks g := by
  unfold State.bEvaluate
  split
  · exact frame_foldl _ _ fun f t => by simp only [↓frame_ops, ↓safeDemand_frame, ↓safeChange_frame, ite_self]
  · rfl

theorem aEvaluate_frame (s : State) (before : BitVec 16) : (s.aEvaluate before).frame safeBlocks g = s.frame safeBlocks g :=
  frame_foldl _ _ fun f t => by simp only [↓frame_ops, ↓safeDemand_frame, ↓safeChange_frame, ite_self]

theorem aCommand_frame (s : State) : s.aCommand.frame safeBlocks g = s.frame safeBlocks g := by
  simp only [State.aCommand, ↓frame_ops, ↓safeFault_frame, ↓safeChange_frame, ite_self]

theorem discSince_frame {bs : List Nat} (s : State) : s.discSince.frame bs g = s.frame bs g := frame_same rfl

theorem chanFault_frame (s : State) (ch : Channel) : (s.chanFault ch).frame safeBlocks g = s.frame safeBlocks g := by
  simp only [State.chanFault, ↓frame_reporting reports_safe, ↓frame_ops, ↓safeCause_frame, ↓safeChange_frame, ite_self]

theorem heartbeatBack_frame {bs : List Nat} (s : State) (x : RingId) (k : CellId) : (s.heartbeatBack x k).frame bs g = s.frame bs g := frame_same rfl

theorem safeReset_frame (s : State) : s.safeReset.frame safeBlocks g = s.frame safeBlocks g := by
  refine (frame_each _ _ fun x t => frame_each _ _ fun k u => heartbeatBack_frame u x k).trans ?_
  simp +decide only [↓frame_ops, ↓safeChange_frame]

theorem peerHbLost_frame (s : State) : s.peerHbLost.frame safeBlocks g = s.frame safeBlocks g := by
  simp +decide only [State.peerHbLost, ↓frame_ops, ↓safeDemand_frame, ite_self]

theorem showSet_frame (s : State) : s.showSet.frame safeBlocks g = s.frame safeBlocks g := by
  unfold State.showSet
  dsimp only
  split <;> simp +decide only [↓frame_ops]

/-! The safety function's events. -/

theorem execSafetyInputChange_frame (si : SafetyInputId) (level : Bool) :
    resFrame safeBlocks g (execSafetyInputChange si level s) = some (s.frame safeBlocks g) := by
  simp only [execSafetyInputChange, resFrame_next, ↓frame_ops, ↓bEvaluate_frame, ↓safeShow_frame, ↓discSince_frame]

theorem execDiscrepancyTimeout_frame (f : FuncId) : resFrame safeBlocks g (execDiscrepancyTimeout f s) = some (s.frame safeBlocks g) := by
  unfold execDiscrepancyTimeout
  dsimp only
  split
  · simp only [resFrame_next, ↓frame_ops, ↓safeFault_frame, ite_self]
  · rfl

theorem execChannelACycle_frame : resFrame safeBlocks g (execChannelACycle s) = some (s.frame safeBlocks g) := by
  simp only [execChannelACycle, resFrame_ite, resFrame_next, ↓frame_ops, ↓aCommand_frame, ↓aEvaluate_frame, ↓safeChange_frame, ite_self]

theorem execChannelExchange_frame (a b : Bool) : resFrame safeBlocks g (execChannelExchange a b s) = some (s.frame safeBlocks g) := by
  simp only [execChannelExchange, resFrame_ite, resFrame_next, ↓frame_ops, ↓safeDemand_frame, ↓safeChange_frame, ite_self]

theorem execChannelFault_frame (ch : Channel) : resFrame safeBlocks g (execChannelFault ch s) = some (s.frame safeBlocks g) := by
  simp only [execChannelFault, resFrame_next, ↓frame_ops, ↓chanFault_frame, ite_self]

theorem execSafeResetEdge_frame (a b gap : Nat) : resFrame safeBlocks g (execSafeResetEdge a b s gap) = some (s.frame safeBlocks g) := by
  simp +decide only [execSafeResetEdge, resFrame_ite, resFrame_next, ↓frame_ops, ↓safeReset_frame, ite_self]

theorem execOutputTestSlot_frame : resFrame safeBlocks g (execOutputTestSlot s) = some (s.frame safeBlocks g) := by
  simp only [execOutputTestSlot, resFrame_ite, resFrame_next, ↓frame_ops, ↓safeChange_frame, ite_self]

theorem execOutputTestCheck_frame (o : Bool) : resFrame safeBlocks g (execOutputTestCheck o s) = some (s.frame safeBlocks g) := by
  unfold execOutputTestCheck
  dsimp only
  split
  · rfl
  · simp +decide only [resFrame_ite, resFrame_next, ↓frame_ops, ↓safeFault_frame, ↓safeChange_frame, ite_self]

theorem execPeerHeartbeatLost_frame : resFrame safeBlocks g (execPeerHeartbeatLost s) = some (s.frame safeBlocks g) := by
  simp only [execPeerHeartbeatLost, resFrame_next, ↓peerHbLost_frame, ↓frame_ops]

theorem execReturnedHbLost_frame (p : LaneId) : resFrame safeBlocks g (execReturnedHbLost p s) = some (s.frame safeBlocks g) := by
  simp +decide only [execReturnedHbLost, resFrame_ite, resFrame_next, ↓frame_reporting reports_safe, ↓frame_ops, ↓peerHbLost_frame, ite_self]

theorem execReturnedHeartbeat_frame (p : LaneId) : resFrame safeBlocks g (execReturnedHeartbeat p s) = some (s.frame safeBlocks g) := by
  unfold execReturnedHeartbeat
  dsimp only
  split
  · simp +decide only [resFrame_next, ↓frame_ops, ↓safeChange_frame]
  · split
    · simp +decide only [resFrame_ite, resFrame_next, ↓frame_ops, ↓frame_rest, ite_self]
    · rfl

theorem execLaneLive_frame (p : LaneId) : resFrame safeBlocks g (execLaneLive p s) = some (s.frame safeBlocks g) := by
  simp +decide only [execLaneLive, resFrame_ite, resFrame_next, ↓frame_ops, ↓safeFault_frame, ite_self]

theorem execSafeStartupDone_frame (ch : Channel) (passed : Bool) :
    resFrame safeBlocks g (execSafeStartupDone ch passed s) = some (s.frame safeBlocks g) := by
  cases ch <;>
    simp only [execSafeStartupDone, resFrame_ite, resFrame_next, ↓frame_ops, ↓bEvaluate_frame, ↓safeFault_frame, ↓safeCause_frame,
      ↓showSet_frame, ↓safeChange_frame, ite_self]

end Sys2Proof.Machine
end

section
/-!
SUPPORT. The frame of the metrology island: its log, samples and seconds, the mailbox, its supply and the billing port.
-/

namespace Sys2Proof.Machine

variable {s : State} {g : Take → Take}

/-- The block of the metrology island, and those of reports. -/
def mtrBlocks : List Nat := [11, 12, 13, 16]

theorem reports_mtr : [11, 12, 13] ⊆ mtrBlocks := by decide

/-- The arrays of MTR that the island writes: energies, powers, sessions and the record read. -/
theorem mtrEl_block (j : EnergyId) : blockOf (F.MTR_EL_E j).addr ∈ mtrBlocks := by revert j; decide
theorem mtrPower_block {k : Nat} (h : k ∈ List.range 9) : blockOf (F.MTR_P_POWER k).addr ∈ mtrBlocks := by revert k; decide
theorem mtrLrec_block {w : Nat} (h : w ∈ List.range 32) : blockOf (A.MTR_LREC w) ∈ mtrBlocks := by revert w; decide
theorem mtrSess_block (n : Fin 8) : blockOf (F.MTR_SESS_OPEN n).addr ∈ mtrBlocks ∧ blockOf (F.MTR_SESS_NUM n).addr ∈ mtrBlocks := by
  revert n
  decide

/-! Records and the legal log. -/

theorem flagsTaken_frame {bs : List Nat} (s : State) (ch : Nat) : (s.flagsTaken ch).frame bs g = s.frame bs g := frame_same rfl
theorem mtrNote_frame {bs : List Nat} (s : State) : s.mtrNote.frame bs g = s.frame bs g := frame_same rfl
theorem mtrMark_frame {bs : List Nat} (s : State) (c f : Nat) : (s.mtrMark c f).frame bs g = s.frame bs g := frame_same rfl

theorem pushRec_frame (s : State) (r : MtrRec) : (s.pushRec r).frame mtrBlocks g = s.frame mtrBlocks g := by
  simp +decide only [State.pushRec, ↓frame_ops, ↓frame_rest]

theorem enterInvalid_frame (s : State) : s.enterInvalid.frame mtrBlocks g = s.frame mtrBlocks g := by
  simp +decide only [State.enterInvalid, ↓frame_ops]

theorem keyFault_frame (s : State) : s.keyFault.frame mtrBlocks g = s.frame mtrBlocks g := by
  simp +decide only [State.keyFault, ↓frame_reporting reports_mtr, ↓frame_ops, ↓enterInvalid_frame]

theorem writeRec_frame (s : State) (r : MtrRec) : (s.writeRec r).frame mtrBlocks g = s.frame mtrBlocks g := by
  simp +decide only [State.writeRec, ↓frame_ops, ↓keyFault_frame, ↓pushRec_frame, ↓enterInvalid_frame, ↓flagsTaken_frame, ite_self]

theorem loadLrec_frame (s : State) (r : MtrRec) : (s.loadLrec r).frame mtrBlocks g = s.frame mtrBlocks g := by
  simp +decide only [State.loadLrec, ↓frame_ops]
  exact frame_foldlFst _ _ _ fun w hw q => frame_setWord _ _ (mtrLrec_block hw)

theorem cmdResult_frame (s : State) (req code res : Nat) : (s.cmdResult req code res).frame mtrBlocks g = s.frame mtrBlocks g := by
  simp +decide only [State.cmdResult, ↓frame_ops]

theorem mtrRefuse_frame (s : State) (req : Requester) (code res : Nat) :
    (s.mtrRefuse req code res).frame mtrBlocks g = s.frame mtrBlocks g := cmdResult_frame s _ code res

theorem mtrComplete_frame (s : State) (c : MtrCmd) : (s.mtrComplete c).frame mtrBlocks g = s.frame mtrBlocks g := by
  unfold State.mtrComplete
  dsimp only
  split
  · exact cmdResult_frame _ _ _ _
  · split <;> simp only [↓cmdResult_frame, ↓frame_ops, ↓keyFault_frame, ↓loadLrec_frame, ↓writeRec_frame, ite_self]

theorem mtrFlush_frame (s : State) : s.mtrFlush.frame mtrBlocks g = s.frame mtrBlocks g :=
  (frame_foldl _ _ fun r t => writeRec_frame t r).trans rfl

theorem mtrDrain_frame (s : State) (p : MtrCmd → Bool) : (s.mtrDrain p).frame mtrBlocks g = s.frame mtrBlocks g :=
  (frame_foldl _ _ fun c t => mtrComplete_frame t c).trans (mtrFlush_frame s)

theorem mtrWrite_frame (s : State) (kind ch : Nat) (e1 e2 e3 e4 : Int) :
    (s.mtrWrite kind ch e1 e2 e3 e4).frame mtrBlocks g = s.frame mtrBlocks g := writeRec_frame _ _

theorem mtrLog_frame (s : State) (kind ch : Nat) (e1 e2 e3 e4 : Int) :
    (s.mtrLog kind ch e1 e2 e3 e4).frame mtrBlocks g = s.frame mtrBlocks g := (mtrWrite_frame _ _ _ _ _ _ _).trans (mtrDrain_frame s _)

/-! Samples, seconds and snapshots. -/

theorem dayOver_frame (s : State) : s.dayOver.frame mtrBlocks g = s.frame mtrBlocks g := by
  simp +decide only [State.dayOver, ↓frame_ops, ↓mtrLog_frame, ite_self]

theorem mtrClock_frame (s : State) : s.mtrClock.frame mtrBlocks g = s.frame mtrBlocks g := by
  simp +decide only [State.mtrClock, ↓frame_ops, ↓dayOver_frame, ite_self]

theorem showEnergies_frame (s : State) : s.showEnergies.frame mtrBlocks g = s.frame mtrBlocks g :=
  frame_each _ _ fun j _ => frame_setWord _ _ (mtrEl_block j)

theorem mtrSecond_frame (s : State) : s.mtrSecond.frame mtrBlocks g = s.frame mtrBlocks g := by
  simp +decide only [State.mtrSecond, ↓showEnergies_frame, ↓frame_ops, ↓mtrMark_frame, ite_self]

theorem takeSet_frame {bs : List Nat} (s : State) : s.takeSet.frame bs g = s.frame bs g := frame_same rfl
theorem snapRec_frame {bs : List Nat} (s : State) (c : Nat) : (s.snapRec c).frame bs g = s.frame bs g := frame_same rfl

theorem takeSnap_frame (s : State) : s.takeSnap.frame mtrBlocks g = s.frame mtrBlocks g := by
  unfold State.takeSnap
  split
  · simp only [↓frame_ops]
    exact (frame_each _ _ fun c t => snapRec_frame t c).trans (mtrDrain_frame s _)
  · rfl

theorem setTunsync_frame (s : State) (on : Bool) : (s.setTunsync on).frame mtrBlocks g = s.frame mtrBlocks g := by
  simp +decide only [State.setTunsync, ↓frame_ops, ↓mtrNote_frame, ite_self]

/-! The mailbox and its service. -/

theorem pdataServe_frame (s : State) (req : Requester) (v : Nat) : (s.pdataServe req v).frame mtrBlocks g = s.frame mtrBlocks g := by
  simp only [State.pdataServe, ↓frame_reporting reports_mtr, ↓frame_ops, ↓mtrRefuse_frame, ite_self]

theorem markCorrupt_frame (s : State) (q : Nat) : (s.markCorrupt q).frame mtrBlocks g = s.frame mtrBlocks g := by
  simp +decide only [State.markCorrupt, ↓frame_reporting reports_mtr, ↓frame_ops, ↓mtrLog_frame, ↓mtrNote_frame, ite_self]

/-- A read of check words of the legal log's memory reports in MEM. -/
theorem checkRead_mram_frame (s : State) (who w : Nat) : (s.checkRead .mram who w).1.frame mtrBlocks g = s.frame mtrBlocks g := by
  unfold State.checkRead
  split
  · rfl
  · simp +decide only [State.recordCe, ↓frame_reporting reports_mtr, ↓frame_ops, ↓frame_rest]
  · simp +decide only [State.recordUe, ↓frame_reporting reports_mtr, ↓frame_ops]

theorem checkReads_mram_frame (s : State) (who : Nat) (ws : List Nat) :
    (s.checkReads .mram who ws).1.frame mtrBlocks g = s.frame mtrBlocks g :=
  frame_foldlFst _ _ _ fun w _ q => checkRead_mram_frame q.1 who w

theorem readStored_frame (s : State) (q : Nat) : (s.readStored q).2.frame mtrBlocks g = s.frame mtrBlocks g := by
  unfold State.readStored
  split
  · rfl
  · have h : (if s.powered domSafa then s.checkReads .mram 0x28 (recWords q)
        else (s, (recWords q).all fun w => eccAt s.ecc w != some .ue)).1.frame mtrBlocks g = s.frame mtrBlocks g := by
      split
      · exact checkReads_mram_frame s _ _
      · rfl
    dsimp only
    generalize (if s.powered domSafa then s.checkReads .mram 0x28 (recWords q)
      else (s, (recWords q).all fun w => eccAt s.ecc w != some .ue)) = p at h
    split
    · exact h
    · exact (markCorrupt_frame _ _).trans h

theorem lselServe_frame (s : State) : s.lselServe.frame mtrBlocks g = s.frame mtrBlocks g := by
  have h := @readStored_frame g s (s.fget F.MTR_LSEL_SEQ)
  unfold State.lselServe
  split <;> rename_i e <;> rw [e] at h <;> simp +decide only [↓frame_ops, ↓loadLrec_frame, h, ite_self]

theorem mtrService_frame (s : State) : s.mtrService.frame mtrBlocks g = s.frame mtrBlocks g := by
  unfold State.mtrService
  dsimp only
  split
  · split <;> simp +decide only [↓pdataServe_frame, ↓frame_ops, ↓lselServe_frame, ↓frame_applyLiveBlock, ite_self]
  · rfl

theorem mtrDue_frame (s : State) : s.mtrDue.frame mtrBlocks g = s.frame mtrBlocks g := by
  simp only [State.mtrDue, ↓frame_ops, ↓mtrService_frame, ite_self]

/-- A mailbox command leaves the frame, where what it does on the island's side does. -/
theorem mtrCommand_frame (s : State) (req : Requester) (code : Nat) (k : State → State)
    (h : ∀ t, (k t).frame mtrBlocks g = t.frame mtrBlocks g) : (s.mtrCommand req code k).frame mtrBlocks g = s.frame mtrBlocks g := by
  simp only [State.mtrCommand, ↓frame_ops, ↓mtrRefuse_frame, h, mtrService_frame, ite_self]

theorem mtrAccept_frame (s : State) (req : Requester) (code : Nat) (f : State → Option MtrRec × State)
    (h : ∀ t, (f t).2.frame mtrBlocks g = t.frame mtrBlocks g) : (s.mtrAccept req code f).frame mtrBlocks g = s.frame mtrBlocks g := by
  simp only [State.mtrAccept, ↓frame_ops, ↓mtrRefuse_frame, h, ite_self]

theorem showSession_frame (s : State) (n : Fin 8) : (s.showSession n).frame mtrBlocks g = s.frame mtrBlocks g := by
  simp only [State.showSession, ↓frame_ops, mtrSess_block]

theorem closeSession_frame (s : State) (n : Fin 8) : (s.closeSession n).2.frame mtrBlocks g = s.frame mtrBlocks g := by
  unfold State.closeSession
  split
  exact (flagsTaken_frame _ _).trans ((showSession_frame _ n).trans rfl)

theorem endParam_frame (s : State) : s.endParam.2.frame mtrBlocks g = s.frame mtrBlocks g := by
  unfold State.endParam
  dsimp only
  split <;> simp +decide only [↓flagsTaken_frame, ↓frame_ops, ↓mtrNote_frame]

theorem setMtime_frame (s : State) (target : Int) (ns : Nat) : (s.setMtime target ns).frame mtrBlocks g = s.frame mtrBlocks g := by
  simp +decide only [State.setMtime, ↓frame_ops, ↓mtrNote_frame]

theorem sessStart_frame (s : State) (req : Requester) (arg : Nat) : (s.sessStart req arg).frame mtrBlocks g = s.frame mtrBlocks g := by
  refine mtrCommand_frame s req _ _ fun t => ?_
  split
  · exact mtrRefuse_frame _ _ _ _
  · split
    · exact mtrRefuse_frame _ _ _ _
    · exact mtrAccept_frame _ _ _ _ fun u => (flagsTaken_frame _ _).trans ((showSession_frame _ _).trans rfl)

theorem sessEnd_frame (s : State) (req : Requester) (arg : Nat) : (s.sessEnd req arg).frame mtrBlocks g = s.frame mtrBlocks g := by
  refine mtrCommand_frame s req _ _ fun t => ?_
  split
  · exact mtrRefuse_frame _ _ _ _
  · split
    · exact mtrAccept_frame _ _ _ _ fun u => closeSession_frame u _
    · exact mtrRefuse_frame _ _ _ _

theorem mtrReadout_frame (s : State) (req : Requester) (arg : Nat) : (s.mtrReadout req arg).frame mtrBlocks g = s.frame mtrBlocks g := by
  refine mtrCommand_frame s req _ _ fun t => ?_
  split
  · exact mtrRefuse_frame _ _ _ _
  · exact mtrAccept_frame _ _ _ _ fun u => rfl

theorem paramEnter_frame (s : State) (req : Requester) : (s.paramEnter req).frame mtrBlocks g = s.frame mtrBlocks g := by
  refine mtrCommand_frame s req _ _ fun t => ?_
  split
  · exact mtrRefuse_frame _ _ _ _
  · split
    · exact mtrRefuse_frame _ _ _ _
    · split
      · exact mtrRefuse_frame _ _ _ _
      · exact mtrAccept_frame _ _ _ _ fun u => (mtrNote_frame _).trans (frame_fset _ _ (by decide))

theorem paramExit_frame (s : State) (req : Requester) : (s.paramExit req).frame mtrBlocks g = s.frame mtrBlocks g := by
  refine mtrCommand_frame s req _ _ fun t => ?_
  split
  · exact mtrRefuse_frame _ _ _ _
  · exact mtrAccept_frame _ _ _ _ endParam_frame

theorem timeSet_frame (s : State) (req : Requester) : (s.timeSet req).frame mtrBlocks g = s.frame mtrBlocks g := by
  refine mtrCommand_frame s req _ _ fun t => ?_
  split
  · exact mtrRefuse_frame _ _ _ _
  · split
    · exact mtrRefuse_frame _ _ _ _
    · split
      · exact mtrAccept_frame _ _ _ _ fun u => setMtime_frame u _ _
      · exact mtrRefuse_frame _ _ _ _

theorem mtrCmd_frame (s : State) (req : Requester) (code arg : Nat) : (s.mtrCmd req code arg).frame mtrBlocks g = s.frame mtrBlocks g := by
  unfold State.mtrCmd
  split
  · exact sessStart_frame s req arg
  · exact sessEnd_frame s req arg
  · exact mtrReadout_frame s req arg
  · exact paramEnter_frame s req
  · exact paramExit_frame s req
  · exact timeSet_frame s req
  · exact mtrCommand_frame s req _ _ fun t => mtrRefuse_frame t _ _ _

theorem pdataWrite_frame (s : State) (req : Requester) (v : Nat) : (s.pdataWrite req v).frame mtrBlocks g = s.frame mtrBlocks g := by
  simp only [State.pdataWrite, ↓frame_ops, ↓mtrDue_frame, ite_self]

theorem lselWrite_frame (s : State) (req : Requester) (v : Nat) : (s.lselWrite req v).frame mtrBlocks g = s.frame mtrBlocks g := by
  simp only [State.lselWrite, State.pendLive, ↓frame_ops, ↓frame_rest, ↓mtrDue_frame, ite_self]

/-! Faults and the supply of the island. -/

theorem mtrFaultOn_frame (s : State) (f : Fld) (ch : Nat) (hf : blockOf f.addr ∈ mtrBlocks) :
    (s.mtrFaultOn f ch).frame mtrBlocks g = s.frame mtrBlocks g := by
  simp only [State.mtrFaultOn, ↓frame_reporting reports_mtr, ↓frame_ops, ↓mtrLog_frame, ↓mtrNote_frame, hf, ite_self]

theorem mtrFaultOff_frame (s : State) (f : Fld) (ch : Nat) (cause : Int) (hf : blockOf f.addr ∈ mtrBlocks) :
    (s.mtrFaultOff f ch cause).frame mtrBlocks g = s.frame mtrBlocks g := by
  simp only [State.mtrFaultOff, ↓frame_ops, ↓mtrLog_frame, ↓mtrNote_frame, hf, ite_self]

theorem mtrClose_frame (s : State) : s.mtrClose.frame mtrBlocks g = s.frame mtrBlocks g := by
  unfold State.mtrClose
  dsimp only
  split
  · split <;> simp only [↓frame_ops, ↓mtrWrite_frame, ↓writeRec_frame, ↓mtrComplete_frame]
  · rfl

theorem showMtr_frame (s : State) : s.showMtr.frame mtrBlocks g = s.frame mtrBlocks g := by
  simp +decide only [State.showMtr, ↓frame_each, ↓frame_ops, ↓showSession_frame, implies_true]

/-! The billing port. -/

theorem billing_frame {bs : List Nat} (s : State) (fn : BitVec 8) (k : State → State) (h : ∀ t, (k t).frame bs g = t.frame bs g) :
    resFrame bs g (s.billing fn k) = some (s.frame bs g) := by
  simp only [State.billing, State.billError, State.billOut, resFrame_ite, resFrame_next, ↓frame_ops, h, ite_self]

theorem billFn_frame {bs : List Nat} (s : State) (fn : BitVec 8) (p : List Byte) (f : Option (List Byte)) (k : List Byte → State → State)
    (h : ∀ p t, (k p t).frame bs g = t.frame bs g) : resFrame bs g (s.billFn fn p f k) = some (s.frame bs g) := by
  unfold State.billFn
  split
  · exact billing_frame s fn _ (h p)
  · split
    · split
      · refine billing_frame s fn _ fun t => ?_
        split
        · exact h _ t
        · rfl
      · rfl
    · rfl

/-! The island's events and commands. -/

theorem execMtrSample_frame (codes : List Int) : resFrame mtrBlocks g (execMtrSample codes s) = some (s.frame mtrBlocks g) := by
  unfold execMtrSample
  dsimp only
  split
  · refine congrArg some ((frame_eachMem _ _ fun k hk t => frame_setWord _ _ (mtrPower_block hk)).trans ?_)
    simp only [↓frame_ops, ↓mtrMark_frame, ↓mtrClock_frame, ite_self]
  · rfl

theorem execEnergySecond_frame : resFrame mtrBlocks g (execEnergySecond s) = some (s.frame mtrBlocks g) := by
  simp +decide only [execEnergySecond, resFrame_ite, resFrame_next, ↓frame_ops, ↓takeSnap_frame, ↓takeSet_frame, ↓mtrSecond_frame, ite_self]

theorem execIntervalSnapshot_frame (bad : Bool) : resFrame mtrBlocks g (execIntervalSnapshot s bad) = some (s.frame mtrBlocks g) := by
  simp only [execIntervalSnapshot, resFrame_ite, resFrame_next, ↓mtrFlush_frame, ↓frame_ops, ↓takeSnap_frame, ite_self]

theorem execTimePairReceived_frame (n : Nat) (target : Int) :
    resFrame mtrBlocks g (execTimePairReceived n target s) = some (s.frame mtrBlocks g) := by
  simp +decide only [execTimePairReceived, resFrame_ite, resFrame_next, ↓setTunsync_frame, ↓frame_ops, ite_self]

theorem execStepSeen_frame (theta : Int) (n : Nat) : resFrame mtrBlocks g (execStepSeen theta n s) = some (s.frame mtrBlocks g) := by
  simp only [execStepSeen, resFrame_next, ↓frame_ops, ↓mtrLog_frame, ite_self]

theorem execMtimeDayEnd_frame : resFrame mtrBlocks g (execMtimeDayEnd s) = some (s.frame mtrBlocks g) := by
  simp only [execMtimeDayEnd, resFrame_next, ↓frame_ops, ↓dayOver_frame, ite_self]

theorem execMtrCommandExecute_frame (bad : Bool) : resFrame mtrBlocks g (execMtrCommandExecute s bad) = some (s.frame mtrBlocks g) := by
  unfold execMtrCommandExecute
  dsimp only
  split
  · split <;> simp only [resFrame_next, ↓mtrComplete_frame, ↓mtrFlush_frame, ↓frame_ops, ↓mtrService_frame]
  · rfl

theorem execCoverOpen_frame : resFrame mtrBlocks g (execCoverOpen s) = some (s.frame mtrBlocks g) := by
  simp +decide only [execCoverOpen, resFrame_ite, resFrame_next, ↓frame_ops, ↓mtrLog_frame, ↓mtrNote_frame, ite_self]

theorem execCoverClose_frame : resFrame mtrBlocks g (execCoverClose s) = some (s.frame mtrBlocks g) := by
  unfold execCoverClose
  extract_lets s₀
  split
  · rfl
  · rename_i s₁ s₂ s₃ _
    have h₂ : s₂.frame mtrBlocks g = s.frame mtrBlocks g := by
      simp +decide only [s₂, s₁, s₀, ↓frame_ops, ↓mtrNote_frame, ite_self]
    have h₃ : s₃.frame mtrBlocks g = s.frame mtrBlocks g := (mtrLog_frame s₂ _ _ _ _ _ _).trans h₂
    split
    · split
      · have hend := (endParam_frame s₃).trans h₃
        split <;> rename_i e <;> rw [e] at hend
        · exact congrArg some ((writeRec_frame _ _).trans hend)
        · exact congrArg some hend
      · exact congrArg some h₃
    · exact congrArg some h₂

theorem execMtrSelfTest_frame (failing : BitVec 16) : resFrame mtrBlocks g (execMtrSelfTest failing s) = some (s.frame mtrBlocks g) := by
  simp +decide only [execMtrSelfTest, resFrame_ite, resFrame_next, ↓frame_ops, ↓mtrFaultOn_frame, ↓mtrFaultOff_frame, ↓mtrNote_frame, ite_self]

theorem execCrystalCheck_frame (ppm : Nat) : resFrame mtrBlocks g (execCrystalCheck ppm s) = some (s.frame mtrBlocks g) := by
  simp +decide only [execCrystalCheck, resFrame_ite, resFrame_next, ↓frame_ops, ↓mtrFaultOn_frame, ↓mtrFaultOff_frame, ite_self]

theorem execMtrPowerUp_frame : resFrame mtrBlocks g (execMtrPowerUp s) = some (s.frame mtrBlocks g) := by
  unfold execMtrPowerUp
  simp +decide only [resFrame_ite, resFrame_next, ↓frame_each, ↓frame_ops, ↓showMtr_frame, ↓dayOver_frame, ↓mtrMark_frame, ↓mtrDrain_frame,
    ↓writeRec_frame, ↓closeSession_frame, ↓mtrWrite_frame, ↓mtrNote_frame, ↓showEnergies_frame, implies_true, ite_self]

theorem execBackupExhausted_frame {bs : List Nat} : resFrame bs g (execBackupExhausted s) = some (s.frame bs g) := by
  simp only [execBackupExhausted, resFrame_next, ↓frame_ops, ite_self]

theorem execStatus_frame {bs : List Nat} (f : Option (List Byte)) : resFrame bs g (execStatus s f) = some (s.frame bs g) :=
  billFn_frame s _ _ f _ fun _ _ => rfl

theorem execReadRec_frame (v : Word) (f : Option (List Byte)) : resFrame mtrBlocks g (execReadRec v s f) = some (s.frame mtrBlocks g) := by
  refine billFn_frame s _ _ f _ fun p t => ?_
  have h := @readStored_frame g t (ofBytesBE p)
  split <;> rename_i e <;> rw [e] at h <;> simp only [State.billError, State.billOut, ↓frame_ops, h, ite_self]

theorem execBillingReadout_frame {bs : List Nat} (arg : BitVec 8) (f : Option (List Byte)) :
    resFrame bs g (execBillingReadout arg s f) = some (s.frame bs g) :=
  billFn_frame s _ _ f _ fun p t => by simp only [State.billError, State.billOut, ↓frame_ops, ite_self]

theorem execReadCert_frame {bs : List Nat} (arg : BitVec 8) (f : Option (List Byte)) :
    resFrame bs g (execReadCert arg s f) = some (s.frame bs g) :=
  billFn_frame s _ _ f _ fun p t => by simp only [State.billError, State.billOut, ↓frame_ops, ite_self]

theorem execBillingUnknownFn_frame {bs : List Nat} (fn : BitVec 8) (f : Option (List Byte)) :
    resFrame bs g (execBillingUnknownFn fn s f) = some (s.frame bs g) := by
  unfold execBillingUnknownFn
  split
  · exact billing_frame s fn _ fun _ => rfl
  · split
    · split
      · rfl
      · exact billing_frame s _ _ fun _ => rfl
    · rfl

end Sys2Proof.Machine
end

section
/-!
O59: the frame of the units' own events and commands, one rule for each, and of the start of a PWM period.
-/

namespace Sys2Proof.Machine

section

variable {s t : State} {g : Take → Take}

theorem resFrame_mono {bs bs' : List Nat} {r : Res} (hb : bs ⊆ bs') (h : resFrame bs g r = some (s.frame bs g)) :
    resFrame bs' g r = some (s.frame bs' g) := by
  cases r with
  | next t => exact congrArg some (frame_mono hb (Option.some.inj h))
  | _ => cases h

/-- Each of the units' own events and commands leaves the frame of its blocks, up to the instants of the takes' boundaries. -/
theorem ownBlocks_frame {bs : List Nat} (c : Instr) (s : State) (h : ownBlocks c = some bs) :
    resFrame bs Take.undated (exec c s) = some (s.frame bs Take.undated) := by
  cases c with
  -- the bridge
  | brgEntryReceived e => cases h; exact execBrgEntryReceived_frame e
  | trip t input => cases input <;> cases h; exact execTrip_frame t none
  | tripInactive t input => cases input <;> cases h; exact execTripInactive_frame t none
  | gateSupplyLockout x high negative seen => cases seen <;> cases h; exact execGateSupplyLockout_frame x high negative none
  | gateSupplyRelease x high negative seen => cases seen <;> cases h; exact execGateSupplyRelease_frame x high negative none
  | desaturationFault x high mv => cases mv <;> cases h; exact execDesaturationFault_frame x high none
  | overcurrentFault x seen => cases seen <;> cases h; exact execOvercurrentFault_frame x none
  | overcurrentEnd x mv => cases mv <;> cases h; exact execOvercurrentEnd_frame x none
  | softTurnoffStart x => cases h; exact execSoftTurnoffStart_frame x
  | softTurnoffEnd x => cases h; exact execSoftTurnoffEnd_frame x
  | gateCommandLoss x high primary => cases primary <;> cases h; exact execGateCommandLoss_frame x high none
  -- the time bases
  | gtimeReanchor => cases h; exact execGtimeReanchor_frame
  | ptpEventMessage p tx k q => cases h; exact execPtpEventMessage_frame p tx k q
  | syncMeasurement theta k utc => cases h; exact execSyncMeasurement_frame theta k utc
  | gtimeStep => cases h; exact execGtimeStep_frame
  | holdover => cases h; exact congrArg some (toHoldover_frame s.fresh)
  | holdmaxExpiry => cases h; exact execHoldmaxExpiry_frame
  | timePairSend => cases h; exact execTimePairSend_frame
  | compareFire u => cases h; exact execCompareFire_frame u
  | peerClapperLaunch loopTime fwdSum followers => cases h; exact execPeerClapperLaunch_frame loopTime fwdSum followers
  | peerLost => cases h; exact congrArg some (losePeer_frame s.fresh)
  | peerReturn => cases h; exact execPeerReturn_frame
  | pclapHeard blocks fwd => cases h; exact resFrame_mono (by decide) (execPclapHeard_frame blocks fwd)
  | ptimeHeard blocks => cases h; exact resFrame_mono (by decide) (execPtimeHeard_frame blocks)
  -- the metrology island
  | mtrSample codes => cases h; exact execMtrSample_frame codes
  | energySecond => cases h; exact execEnergySecond_frame
  | intervalSnapshot bad => cases bad <;> cases h; exact execIntervalSnapshot_frame false
  | timePairReceived n target => cases h; exact execTimePairReceived_frame n target
  | stepSeen theta n => cases h; exact execStepSeen_frame theta n
  | mtimeDayEnd => cases h; exact execMtimeDayEnd_frame
  | unsyncTimeout => cases h; exact congrArg some (setTunsync_frame s.fresh true)
  | sessStart req arg => cases h; exact congrArg some (sessStart_frame s.fresh req _)
  | sessEnd req arg => cases h; exact congrArg some (sessEnd_frame s.fresh req _)
  | mtrReadout req arg => cases h; exact congrArg some (mtrReadout_frame s.fresh req _)
  | paramEnter req => cases h; exact congrArg some (paramEnter_frame s.fresh req)
  | paramExit req => cases h; exact congrArg some (paramExit_frame s.fresh req)
  | timeSet req => cases h; exact congrArg some (timeSet_frame s.fresh req)
  | mtrCmdUndefined req code => cases h; exact congrArg some (mtrCmd_frame s.fresh req _ 0)
  | mtrCommandExecute bad => cases bad <;> cases h; exact execMtrCommandExecute_frame false
  | pdataWrite req v => cases h; exact congrArg some (pdataWrite_frame s.fresh req _)
  | lselWrite req v => cases h; exact congrArg some (lselWrite_frame s.fresh req _)
  | coverOpen => cases h; exact execCoverOpen_frame
  | coverClose => cases h; exact execCoverClose_frame
  | mtrSelfTest failing => cases h; exact execMtrSelfTest_frame failing
  | crystalCheck ppm => cases h; exact execCrystalCheck_frame ppm
  | mtrSupplyLoss => cases h; exact congrArg some (mtrClose_frame s.fresh)
  | mtrPowerUp => cases h; exact execMtrPowerUp_frame
  | backupExhausted => cases h; exact execBackupExhausted_frame
  | status f => cases f <;> cases h; exact execStatus_frame none
  | readRec v f => cases f <;> cases h; exact execReadRec_frame v none
  | billingReadout arg f => cases f <;> cases h; exact execBillingReadout_frame arg none
  | readCert arg f => cases f <;> cases h; exact execReadCert_frame arg none
  | billingUnknownFn fn f => cases f <;> cases h; exact execBillingUnknownFn_frame fn none
  -- the safety function
  | safetyInputChange si level => cases h; exact execSafetyInputChange_frame si level
  | discrepancyTimeout f => cases h; exact execDiscrepancyTimeout_frame f
  | channelACycle => cases h; exact execChannelACycle_frame
  | channelExchange a b => cases h; exact execChannelExchange_frame a b
  | channelFault ch => cases h; exact execChannelFault_frame ch
  | safeResetEdge a b gap => cases gap <;> cases h; exact execSafeResetEdge_frame a b 0
  | outputTestSlot => cases h; exact execOutputTestSlot_frame
  | outputTestCheck o => cases h; exact execOutputTestCheck_frame o
  | returnedHbLost p => cases h; exact execReturnedHbLost_frame p
  | returnedHeartbeat p => cases h; exact execReturnedHeartbeat_frame p
  | laneLive p => cases h; exact execLaneLive_frame p
  | peerHeartbeatLost => cases h; exact execPeerHeartbeatLost_frame
  | safeStartupDone ch passed => cases h; exact execSafeStartupDone_frame ch passed
  -- the fault collector
  | faultEvent src => cases h; exact execFaultEvent_frame src
  | pinPulseEnd => cases h; exact execPinPulseEnd_frame
  | collectorSelfFault item bits lasts =>
    obtain ⟨_ | _ | n, hn⟩ := bits <;> cases lasts <;> cases h
    exact execCollectorSelfFault_frame item 1 false
  | _ => cases h

/-- Takes that agree undated differ in the instants of their boundaries only. -/
theorem takes_of_undated (h : t.takes.map Take.undated = s.takes.map Take.undated) (i : HandleId) :
    { t.takes[i] with instant := (s.takes[i]).instant } = s.takes[i] := by
  have hi : (t.takes[i]).undated = (s.takes[i]).undated := by
    simpa only [Fin.getElem_fin, Vector.getElem_map] using congrArg (fun v : Vector Take 8 => v[i]) h
  exact congrArg (fun k : Take => { k with instant := (s.takes[i]).instant }) hi

/-- The start of a PWM period (R312) leaves the frame of what the takes due by it have made. -/
theorem execPwmPeriodStart_frame (hrun : (s.powered domAnlg && s.brg.running && !s.oscStopped) = true) :
    resFrame bridgeBlocks g (execPwmPeriodStart s) = some ((s.fresh.takesUpTo s.nextPwm).frame bridgeBlocks g) := by
  have hrun' : (s.fresh.powered domAnlg && s.fresh.brg.running && !s.fresh.oscStopped) = true := hrun
  unfold execPwmPeriodStart
  dsimp only
  rw [if_pos hrun', resFrame_next]
  refine congrArg some ((frame_each _ _ fun x t => legPeriod_frame t _ _ x).trans ?_)
  simp +decide only [↓frame_rest, ↓frame_ops, ↓takeEntry_frame, ↓frame_applyLiveBlock]
  rfl

/-- A state that a meaning answers has the frame of that answer. -/
theorem frame_of_resFrame {bs : List Nat} {r : Res} {p} (h : resFrame bs g r = some p) (hr : r = .next t) : t.frame bs g = p := by
  subst hr
  exact Option.some.inj h

end

/-- Settles O59, from the frame rule of each event and command, and of the period start. -/
theorem unitFrame : Obligations.UnitFrame := by
  unfold Obligations.UnitFrame
  constructor
  · intro c bs s t hown hexec
    have h := frame_of_resFrame (ownBlocks_frame c s hown) hexec
    exact ⟨frame_word h, fun a => congrArg (sparseGet memDefault · a) (frame_mem h), frame_cores h, takes_of_undated (frame_takes h)⟩
  · intro s t hrun hexec
    have h := frame_of_resFrame (@execPwmPeriodStart_frame s id hrun) hexec
    refine ⟨frame_word h, fun a => congrArg (sparseGet memDefault · a) (frame_mem h), frame_cores h, ?_⟩
    simpa only [Vector.map_id] using frame_takes h

end Sys2Proof.Machine
end

section
/-!
SUPPORT. What a fold over the parts of the state leaves, and what each of its steps brings about for its own part.
-/

namespace Sys2Proof.Machine

variable {α : Type}

/-- What every step of a fold over parts keeps, the fold keeps. -/
theorem State.each_keep {P : State → Prop} {s : State} (l : List α) (f : α → State → State) (hkeep : ∀ b t, P t → P (f b t)) (hs : P s) :
    P (s.each l f) := List.foldlRecOn l _ hs fun t ht b _ => hkeep b t ht

/-- What the step of one part brings about and every other step keeps holds at the end of the fold. -/
theorem State.each_of_mem {P : State → Prop} (s : State) {l : List α} {a : α} (ha : a ∈ l) (f : α → State → State) (hset : ∀ t, P (f a t))
    (hkeep : ∀ b t, P t → P (f b t)) : P (s.each l f) := by
  unfold State.each
  induction l generalizing s with
  | nil => cases ha
  | cons b l ih =>
    rcases List.mem_cons.mp ha with rfl | hl
    · exact State.each_keep l f hkeep (hset s)
    · exact ih (f b s) hl

end Sys2Proof.Machine
end

section
/-!
SUPPORT. Domains that lose their power: which stay powered, and that SUP.DOM.LOST and the state of the power stage stay.
-/

namespace Sys2Proof.Machine

/-- From `s` to `t` the domains `ds` have lost their power, and no other; SUP.DOM.LOST and the power-stage state stay. -/
structure PowerCut (ds : List Nat) (s t : State) : Prop where
  powered : ∀ k, t.powered k = (s.powered k && !ds.contains k)
  lost    : t.fget F.SUP_DOM_LOST = s.fget F.SUP_DOM_LOST
  pwr     : t.pwr = s.pwr

variable {u s t : State} {ds es : List Nat}

theorem PowerKept.fget_dom (h : PowerKept s t) (f : Fld) (hf : f.addr = A.SUP_DOM) : t.fget f = s.fget f := by
  unfold State.fget
  rw [hf, h.word _ (.inl rfl)]

/-- Power is one word of SUP, so that what keeps that word keeps every domain's power. -/
theorem PowerKept.powered (h : PowerKept s t) (k : Nat) : t.powered k = s.powered k :=
  congrArg (Nat.testBit · k) (h.fget_dom F.SUP_DOM_PWR rfl)

theorem PowerCut.keep (h : PowerCut ds u s) (k : PowerKept s t) : PowerCut ds u t :=
  ⟨fun d => (k.powered d).trans (h.powered d), (k.fget_dom _ rfl).trans h.lost, k.pwr.trans h.pwr⟩

theorem PowerCut.refl (s : State) : PowerCut [] s s := ⟨fun _ => (Bool.and_true _).symm, rfl, rfl⟩

theorem PowerCut.trans (h : PowerCut ds u s) (k : PowerCut es s t) : PowerCut (ds ++ es) u t where
  powered d := by rw [k.powered, h.powered, List.contains_append, Bool.not_or, Bool.and_assoc]
  lost := k.lost.trans h.lost
  pwr := k.pwr.trans h.pwr

theorem State.setPower_cut (s : State) (d : Nat) : PowerCut [d] s (s.setPower d false) where
  powered k := (s.testBit_fclrBit F.SUP_DOM_PWR d k (by decide) (by decide)).trans
    (congrArg (s.powered k && ·) (by simp [bne, Bool.beq_eq_decide_eq]))
  lost := by
    show (s.fclrBit F.SUP_DOM_PWR d).fget _ = _
    unfold State.fclrBit
    split
    · exact s.fget_fset_disjoint _ _ _ (by decide) (by decide) (by decide) (by decide)
    · rfl
  pwr := by
    show (s.fclrBit F.SUP_DOM_PWR d).fget _ = _
    unfold State.fclrBit
    split
    · exact s.fget_fset_ne _ _ _ (by decide)
    · rfl

/-- What follows a loss of power leaves the other domains' power. -/
theorem State.powerOff_cut (s : State) (d : Nat) : PowerCut [d] s (s.powerOff d) := by
  unfold State.powerOff
  split
  · exact (s.setPower_cut d).keep (State.safeShow_power (State.afterOff_power (PowerKept.refl _) d))
  · next hoff =>
    refine ⟨fun k => ?_, rfl, rfl⟩
    by_cases hk : k = d
    · simp [hk, hoff]
    · simp [hk]

theorem State.powerOffAll_cut (s : State) (ds : List Nat) : PowerCut ds s (s.powerOffAll ds) := by
  have hds : PowerCut ds s (s.each ds fun d s => s.powerOff d) := by
    unfold State.each
    induction ds generalizing s with
    | nil => exact PowerCut.refl s
    | cons d ds ih => exact (s.powerOff_cut d).trans (ih (s.powerOff d))
  exact hds.keep (PowerKept.upd (PowerKept.refl _))

/-- With every domain but AON cut, AON is the only one that can be powered. -/
theorem State.powered_allButAon (s : State) {k : Nat} (hk : k < 12) :
    (s.powerOffAll allButAon).powered k = (s.powered domAon && decide (k = 0)) := by
  have hin : ∀ j < 12, allButAon.contains j = !decide (j = 0) := by decide
  rw [(s.powerOffAll_cut _).powered k, hin k hk, Bool.not_not]
  by_cases h0 : k = 0
  · rw [h0, domAon]
  · simp [h0]

end Sys2Proof.Machine
end

section
/-!
SUPPORT. The stop that begins where the power stage runs: what reports leave of it.
-/

namespace Sys2Proof.Machine

variable {s t : State}

theorem Reports.sup (h : Reports s t) : t.sup = { s.sup with stop := t.sup.stop } := congrArg State.sup h.rest

/-- A stop that ends in SAFE_STOP stays as it is (R530). -/
theorem Reports.stop_safe (h : Reports s t) {i : Option Nat} {r : Bool} (hs : s.sup.stop = some ⟨i, true, r⟩) :
    t.sup.stop = some ⟨i, true, r⟩ := by
  obtain ⟨b, hb⟩ := h.stop _ hs
  exact hb

/-- Where the power stage runs and no stop is in progress, a controlled stop begins with an instant named (R259, R530). -/
theorem State.beginStop_begins (hrun : s.running = true) (hstop : s.sup.stop = none) :
    ∃ i, (s.beginStop true).sup.stop = some ⟨some i, true, false⟩ := by
  unfold State.beginStop
  rw [hstop]
  dsimp only
  rw [if_pos hrun]
  exact ⟨_, (State.sendStop_reports (Reports.refl _) _ _).stop_safe rfl⟩

end Sys2Proof.Machine
end

section
/-!
O21: the measurements of SUP, the loss of the supply and the end of the hold-up store.
-/

namespace Sys2Proof.Machine

variable {s : State}

/-- A measurement of SUP.VIN: its field holds the value, a sticky bit of SUP.STAT is set on a condition, and no other register
changes. -/
theorem State.measured (s : State) (f g : Fld) (v : Nat) (c : Prop) [Decidable c] (hf : f.addr = A.SUP_VIN) (hg : g.addr = A.SUP_STAT)
    (hfb : f.lo ≤ f.hi ∧ f.hi < 32) (hgb : g.lo ≤ g.hi ∧ g.hi < 32) (hv : v < 2 ^ f.width) :
    let t := if c then (s.fset f v).fset g 1 else s.fset f v
    t.fget f = v ∧ t.fget g = (if c then 1 else s.fget g) ∧ ∀ a, a ≠ A.SUP_VIN → a ≠ A.SUP_STAT → t.word a = s.word a := by
  have hne : g.addr ≠ f.addr := by rw [hf, hg]; decide
  have hval : (s.fset f v).fget f = v := by rw [s.fget_fset_same f v hfb.2 hfb.1, Nat.mod_eq_of_lt hv]
  have hfix : ∀ a, a ≠ A.SUP_VIN → (s.fset f v).word a = s.word a := fun a ha => s.word_fset_ne f v a (hf ▸ ha)
  dsimp only
  split
  · refine ⟨?_, ?_, fun a hvin hstat => ?_⟩
    · rw [State.fget_fset_ne _ g f 1 hne.symm, hval]
    · rw [State.fget_fset_same _ g 1 hgb.2 hgb.1, Nat.mod_eq_of_lt (Nat.one_lt_two_pow (n := g.width) (Nat.succ_ne_zero _))]
    · rw [State.word_fset_ne _ g 1 a (hg ▸ hstat), hfix a hvin]
  · exact ⟨hval, s.fget_fset_ne f g v hne, fun a hvin _ => hfix a hvin⟩

/-- BROWN_OUT shows the peak voltage, at most 1,023 V, and BROWN from 75 V to 110 V (R511). -/
theorem brownOut_shows (volts : Nat) (hon : s.powered domAon = true) :
    ∃ t, exec (.brownOut volts) s = .next t ∧ t.fget F.SUP_VIN_VPK = min volts 1023 ∧
      t.fget F.SUP_STAT_BROWN = (if 75 ≤ volts ∧ volts ≤ 110 then 1 else s.fget F.SUP_STAT_BROWN) ∧
      ∀ a, a ≠ A.SUP_VIN → a ≠ A.SUP_STAT → t.word a = s.word a :=
  have hv : min volts 1023 < 2 ^ F.SUP_VIN_VPK.width := by simp only [F.SUP_VIN_VPK, Fld.width]; omega
  ⟨_, if_pos hon, s.fresh.measured F.SUP_VIN_VPK F.SUP_STAT_BROWN _ (75 ≤ volts ∧ volts ≤ 110) rfl rfl (by decide) (by decide) hv⟩

/-- STORE_MEASURE shows the energy of the store, at most 65,535 mJ, and STORELOW below 2,200 mJ (R510). -/
theorem storeMeasure_shows (mj : Nat) (hon : s.powered domAon = true) :
    ∃ t, exec (.storeMeasure mj) s = .next t ∧ t.fget F.SUP_VIN_STORE = min mj 65535 ∧
      t.fget F.SUP_STAT_STORELOW = (if mj < 2200 then 1 else s.fget F.SUP_STAT_STORELOW) ∧
      ∀ a, a ≠ A.SUP_VIN → a ≠ A.SUP_STAT → t.word a = s.word a :=
  have hv : min mj 65535 < 2 ^ F.SUP_VIN_STORE.width := by simp only [F.SUP_VIN_STORE, Fld.width]; omega
  ⟨_, if_pos hon, s.fresh.measured F.SUP_VIN_STORE F.SUP_STAT_STORELOW _ (mj < 2200) rfl rfl (by decide) (by decide) hv⟩

/-- SAFE24_CHANGE: SAFE24 follows the level, and a fall below 19.2 V sets SAFE24LOW (R524). -/
theorem safe24Change_shows (mv : Nat) (hon : s.powered domAon = true) :
    ∃ t, exec (.safe24Change mv) s = .next t ∧ t.safe = { s.safe with safe24 := mv } ∧
      t.fget F.SUP_STAT_SAFE24 = (if 19200 ≤ mv then 1 else 0) ∧
      t.fget F.SUP_STAT_SAFE24LOW = (if 19200 ≤ mv then s.fget F.SUP_STAT_SAFE24LOW else 1) ∧
      ∀ a, a ≠ A.SUP_STAT → t.word a = s.word a := by
  refine ⟨_, if_pos hon, ?_⟩
  have hfix : ∀ (u : State) (f : Fld) (v a : Nat), f.addr = A.SUP_STAT → a ≠ A.SUP_STAT → (u.fset f v).word a = u.word a :=
    fun u f v a hf ha => u.word_fset_ne f v a (hf ▸ ha)
  split
  · refine ⟨rfl, State.fget_fset_same _ _ _ (by decide) (by decide), ?_, fun a ha => hfix _ _ _ a rfl ha⟩
    exact State.fget_fset_disjoint _ _ _ _ (by decide) (by decide) (by decide) (by decide)
  · refine ⟨rfl, ?_, State.fget_fset_same _ _ _ (by decide) (by decide), fun a ha => ?_⟩
    · exact (State.fget_fset_disjoint _ _ _ _ (by decide) (by decide) (by decide) (by decide)).trans
        (State.fget_fset_same _ _ _ (by decide) (by decide))
    · exact (hfix _ _ _ a rfl ha).trans (hfix _ _ _ a rfl ha)

/-- SUP notes the loss of its supply, and INOK falls. -/
def State.supplyLost (s : State) : State :=
  { s with sup := { s.sup with auxLost := true, lostAt := s.ticks } }.fset F.SUP_STAT_INOK 0

theorem State.supplyLost_inok (s : State) : s.supplyLost.fget F.SUP_STAT_INOK = 0 := State.fget_fset_same _ _ _ (by decide) (by decide)

theorem State.supplyLost_running (s : State) : s.supplyLost.running = s.running := by
  have hpwr : s.supplyLost.pwr = s.pwr := State.fget_fset_ne _ _ _ _ (by decide)
  unfold State.running
  rw [hpwr]

theorem execAuxSupplyLoss_next (hon : s.powered domAon = true) (hin : s.sup.inputOn = true) (hlost : s.sup.auxLost = false) :
    execAuxSupplyLoss s = .next ((s.fresh.supplyLost.beginStop true).logHigh 0x05 s.fresh.supplyLost.rtime.toNat 0) := by
  have hgo : (s.fresh.powered domAon && s.fresh.sup.inputOn && !s.fresh.sup.auxLost) = true := by
    rw [State.fresh_sup, hin, hlost, Bool.and_true, Bool.not_false, Bool.and_true]
    exact hon
  exact if_pos hgo

/-- AUX_SUPPLY_LOSS clears INOK, notes the instant and begins a controlled stop where the power stage runs (R28, R33, R509). -/
theorem auxSupplyLoss_stops (hon : s.powered domAon = true) (hin : s.sup.inputOn = true) (hlost : s.sup.auxLost = false) :
    ∃ t, exec .auxSupplyLoss s = .next t ∧ t.sup.auxLost = true ∧ t.sup.lostAt = s.ticks ∧ t.fget F.SUP_STAT_INOK = 0 ∧
      t.ticks = s.ticks ∧ (s.running = true → s.sup.stop = none → ∃ i, t.sup.stop = some ⟨some i, true, false⟩) := by
  have hlog := State.logHigh_reports (Reports.refl (s.fresh.supplyLost.beginStop true)) 0x05 s.fresh.supplyLost.rtime.toNat 0
  have hall := (State.beginStop_reports (Reports.refl s.fresh.supplyLost) true).trans hlog
  refine ⟨_, execAuxSupplyLoss_next hon hin hlost, congrArg Sup.auxLost hall.sup, congrArg Sup.lostAt hall.sup,
    (hall.fget _ (by decide)).trans (State.supplyLost_inok _), hall.ticks, fun hrun hnone => ?_⟩
  obtain ⟨i, hi⟩ := State.beginStop_begins (s := s.fresh.supplyLost) ((State.supplyLost_running _).trans hrun) hnone
  exact ⟨i, hlog.stop_safe hi⟩

/-- HOLDUP_END switches every domain off, AON last (R28). -/
theorem holdupEnd_off (hlost : s.sup.auxLost = true) :
    ∃ t, exec .holdupEnd s = .next t ∧ t.sup = { Sup.reset with inputOn := false } ∧ ∀ d < 12, t.powered d = false := by
  have hgo : (s.fresh.sup.auxLost || !s.fresh.powered domAon) = true := Bool.or_eq_true_iff.mpr (.inl hlost)
  refine ⟨_, if_pos hgo, rfl, fun d hd => ?_⟩
  refine ((State.powerOff_cut _ domAon).powered d).trans ?_
  rw [State.powered_allButAon _ hd]
  by_cases h0 : d = 0 <;> simp [h0, domAon]

/-- Settles O21: the measurements and the supply loss by one rule each, the end of the hold-up store by the rule of the domains that
lose their power. -/
theorem supplyLevels : Obligations.SupplyLevels := by
  unfold Obligations.SupplyLevels
  intro s volts mj mv hon
  exact ⟨brownOut_shows volts hon, storeMeasure_shows mj hon, safe24Change_shows mv hon, auxSupplyLoss_stops hon, holdupEnd_off⟩

end Sys2Proof.Machine
end


section
/-!
SUPPORT. What the stop of a cell and the end of the bridge's periods change: the mode of that cell alone, and the legs.
-/

namespace Sys2Proof.Machine

variable {s : State}

theorem State.cell_modCell_same (s : State) (x : RingId) (k : CellId) (f : Cell → Cell) : (s.modCell x k f).cell x k = f (s.cell x k) := by
  simp [State.cell, State.modCell]

theorem State.cell_modCell_ne (s : State) (x y : RingId) (k j : CellId) (f : Cell → Cell) (h : y ≠ x ∨ j ≠ k) :
    (s.modCell x k f).cell y j = s.cell y j := by
  unfold State.cell State.modCell
  by_cases hx : y = x
  · subst hx
    have hk : ¬ k.val = j.val := fun e => (h.resolve_left fun h => h rfl) (Fin.ext e.symm)
    simp [Vector.getElem_set_ne, hk]
  · have hx' : ¬ x.val = y.val := fun e => hx (Fin.ext e.symm)
    simp [Vector.getElem_set_ne, hx']

/-- A change of a cell that leaves its mode. -/
theorem State.mode_modCell (s : State) (x y : RingId) (k j : CellId) (f : Cell → Cell) (hf : ∀ c, (f c).mode = c.mode) :
    ((s.modCell x k f).cell y j).mode = (s.cell y j).mode := by
  by_cases h : y = x ∧ j = k
  · rw [h.1, h.2, State.cell_modCell_same, hf]
  · rw [State.cell_modCell_ne s x y k j f (Classical.not_and_iff_not_or_not.mp h)]

theorem State.mode_setCellReg (s : State) (x y : RingId) (k j : CellId) (a : Nat) (v : Word) :
    ((s.setCellReg x k a v).cell y j).mode = (s.cell y j).mode := s.mode_modCell x y k j _ fun _ => rfl

theorem State.mode_cellStatus (s : State) (x y : RingId) (k j : CellId) (code : BitVec 8) :
    ((s.cellStatus x k code).cell y j).mode = (s.cell y j).mode := s.mode_setCellReg x y k j _ _

theorem State.mode_cellEvent (s : State) (x y : RingId) (k j : CellId) (code : BitVec 8) :
    ((s.cellEvent x k code).cell y j).mode = (s.cell y j).mode := by
  unfold State.cellEvent
  dsimp only [State.freshValue]
  rw [State.mode_modCell]
  · simp only [State.mode_setCellReg]
    rfl
  · exact fun _ => rfl

/-- A cell that the stop instant blocks does not run (R256). -/
theorem State.cellBlock_stopped (s : State) (x : RingId) (k : CellId) :
    ((s.cellBlock x k evStopped .blocked).cell x k).mode ≠ .run := by
  unfold State.cellBlock
  dsimp only
  split
  · rw [State.mode_cellEvent, State.mode_cellStatus, State.cell_modCell_same]
    exact CellMode.noConfusion
  · next hm =>
    rw [if_pos (.inl rfl)]
    exact fun hrun => hm (.inl hrun)

theorem State.cellBlock_mode_ne (s : State) (x y : RingId) (k j : CellId) (h : y ≠ x ∨ j ≠ k) :
    ((s.cellBlock x k evStopped .blocked).cell y j).mode = (s.cell y j).mode := by
  unfold State.cellBlock
  dsimp only
  split
  · rw [State.mode_cellEvent, State.mode_cellStatus, State.cell_modCell_ne _ _ _ _ _ _ h]
  · rw [if_pos (.inl rfl)]

/-- A cell that reaches the stop instant does not run behind it (R256, R260). -/
theorem State.cellStop_stopped (s : State) (t : BitVec 48) (x : RingId) (k : CellId) : ((s.cellStop t x k).cell x k).mode ≠ .run := by
  unfold State.cellStop
  split
  · exact State.cellBlock_stopped _ x k
  · next hno =>
    intro hrun
    exact hno (by rw [hrun]; exact Bool.or_true _)

theorem State.cellStop_mode_ne (s : State) (t : BitVec 48) (x y : RingId) (k j : CellId) (h : y ≠ x ∨ j ≠ k) :
    ((s.cellStop t x k).cell y j).mode = (s.cell y j).mode := by
  unfold State.cellStop
  split
  · rw [State.cellBlock_mode_ne _ _ _ _ _ h, State.cell_modCell_ne _ _ _ _ _ _ h]
  · rfl

/-- A cell that does not run does not run behind the stop of any cell. -/
theorem State.cellStop_keeps_stopped (s : State) (t : BitVec 48) (x y : RingId) (k j : CellId) (h : (s.cell y j).mode ≠ .run) :
    ((s.cellStop t x k).cell y j).mode ≠ .run := by
  by_cases hsame : y = x ∧ j = k
  · rw [hsame.1, hsame.2]
    exact s.cellStop_stopped t x k
  · rw [s.cellStop_mode_ne t x y k j (Classical.not_and_iff_not_or_not.mp hsame)]
    exact h

/-- The stop instant comes, and every cell of every ring reaches it. -/
def State.cellsStop (s : State) (i : Nat) : State :=
  (s.advanceTo i).each (List.finRange 3) fun x s => s.each (List.finRange 40) fun k s => s.cellStop (s.rtimeAt i) x k

theorem State.cellsStop_stopped (s : State) (i : Nat) (x : RingId) (k : CellId) : ((s.cellsStop i).cell x k).mode ≠ .run :=
  State.each_of_mem (P := fun t => (t.cell x k).mode ≠ .run) _ (List.mem_finRange x) _
    (fun t => State.each_of_mem t (List.mem_finRange k) _ (fun u => u.cellStop_stopped _ x k)
      fun j u hu => u.cellStop_keeps_stopped _ x x j k hu)
    fun _ _ ht => State.each_keep _ _ (fun j u hu => u.cellStop_keeps_stopped _ _ x j k hu) ht

theorem State.cellsStop_power (s : State) (i : Nat) : PowerKept s (s.cellsStop i) :=
  have hnow : PowerKept s (s.advanceTo i) := (PowerKept.refl s).regs rfl
  PowerKept.each _ _ (fun x _ ht => PowerKept.each _ _ (fun k _ hu => State.cellStop_power hu _ x k) ht) hnow

/-- Time has come to the stop instant, and has not gone back. -/
theorem State.cellsStop_time (s : State) (i : Nat) : max s.ticks i ≤ (s.cellsStop i).ticks :=
  have hkeeps : Keeps false false (s.advanceTo i) (s.cellsStop i) :=
    State.each_keeps _ _ (fun x _ ht => State.each_keeps _ _ (fun k _ hu => State.cellStop_keeps hu _ x k) ht) (Keeps.refl _ _ _)
  hkeeps.time

/-! The bridge. -/

theorem State.cells_cutLeg (s : State) (x : LegId) : (s.cutLeg x).cells = s.cells :=
  State.each_keep (P := fun t => t.cells = s.cells) _ _ (fun _ _ ht => ht) rfl

theorem State.running_cutLeg (s : State) (x : LegId) : (s.cutLeg x).brg.running = s.brg.running :=
  State.each_keep (P := fun t => t.brg.running = s.brg.running) _ _ (fun _ _ ht => ht) rfl

theorem State.legState_cutLeg (s : State) (x y : LegId) : (s.cutLeg x).legState y = s.legState y := by
  have hword := frame_word (bs := []) (g := id) (cutLeg_frame s x) A.BRG_LEGSTAT (by simp)
  exact congrArg (legField y).get hword

theorem legField_bounds (x : LegId) : (legField x).lo ≤ (legField x).hi ∧ (legField x).hi < 32 ∧ (legField x).width = 3 := by
  revert x
  decide

theorem State.legState_setLegState_same (s : State) (x : LegId) : (s.setLegState x legOff).legState x = legOff := by
  obtain ⟨hlo, hhi, -⟩ := legField_bounds x
  exact (s.fget_fset_same _ _ hhi hlo).trans (Nat.zero_mod _)

theorem State.legState_setLegState_ne (s : State) (x y : LegId) (v : Nat) (h : y ≠ x) : (s.setLegState x v).legState y = s.legState y := by
  have hne : y.val ≠ x.val := fun e => h (Fin.ext e)
  obtain ⟨hlo, -, -⟩ := legField_bounds x
  obtain ⟨hlo', hhi', -⟩ := legField_bounds y
  refine s.fget_fset_disjoint _ _ _ hhi' hlo' hlo ?_
  simp only [legField]
  omega

/-- What BRIDGE_OFF does with one leg (R314 row 1). -/
def State.legOut (s : State) (x : LegId) : State :=
  ((s.cutLeg x).modLeg x fun l => { l with tripCut := false, charge := 0, restart := false, noLow := 0 }).setLegState x legOff

theorem State.bridgeOff_eq (s : State) :
    s.bridgeOff =
      if s.powered domAnlg then
        { s with brg := { s.brg with running := false, entries := [] } }.each (List.finRange 4) fun x t => t.legOut x
      else { s with brg := { s.brg with running := false, entries := [] } } := rfl

theorem State.legOut_off (s : State) (x : LegId) : (s.legOut x).legState x = legOff := State.legState_setLegState_same _ x

theorem State.legOut_keeps_off (s : State) (x y : LegId) (h : s.legState y = legOff) : (s.legOut x).legState y = legOff := by
  by_cases hy : y = x
  · rw [hy]
    exact s.legOut_off x
  · exact (State.legState_setLegState_ne _ x y _ hy).trans ((s.legState_cutLeg x y).trans h)

theorem State.bridgeOff_legs (h : s.powered domAnlg = true) (x : LegId) : s.bridgeOff.legState x = legOff := by
  rw [State.bridgeOff_eq, if_pos h]
  exact State.each_of_mem (P := fun t => t.legState x = legOff) _ (List.mem_finRange x) _ (fun t => t.legOut_off x)
    fun y t ht => t.legOut_keeps_off y x ht

theorem State.bridgeOff_running (s : State) : s.bridgeOff.brg.running = false := by
  rw [State.bridgeOff_eq]
  split
  · exact State.each_keep (P := fun t => t.brg.running = false) _ _ (fun x t ht => (t.running_cutLeg x).trans ht) rfl
  · rfl

theorem State.bridgeOff_cells (s : State) : s.bridgeOff.cells = s.cells := by
  rw [State.bridgeOff_eq]
  split
  · exact State.each_keep (P := fun t => t.cells = s.cells) _ _ (fun x t ht => (t.cells_cutLeg x).trans ht) rfl
  · rfl

end Sys2Proof.Machine
end

section
/-!
O22: the loss of a domain or of I_RTIME, the stop instant and the state of the power stage behind it, and thermal shutdown.
-/

namespace Sys2Proof.Machine

variable {s : State}

theorem execStopInstant_next {i : Nat} {safe : Bool} (h : s.sup.stop = some ⟨some i, safe, false⟩) :
    execStopInstant s =
      .next { (s.fresh.cellsStop i).bridgeOff with sup := { (s.fresh.cellsStop i).sup with stop := some ⟨some i, safe, true⟩ } } := by
  unfold execStopInstant State.cellsStop
  dsimp only
  rw [show s.fresh.sup.stop = _ from h]

/-- At the stop instant the legs of the local bridge are OFF and no cell runs; the power-stage state waits (R24, R256, R259). -/
theorem stopInstant_stops {i : Nat} {safe : Bool} (h : s.sup.stop = some ⟨some i, safe, false⟩) :
    ∃ t, exec .stopInstant s = .next t ∧ t.sup.stop = some ⟨some i, safe, true⟩ ∧ i ≤ t.ticks ∧ s.ticks ≤ t.ticks ∧
      t.brg.running = false ∧ (s.powered domAnlg = true → ∀ x, t.legState x = legOff) ∧ (∀ x k, (t.cell x k).mode ≠ .run) ∧
      t.pwr = s.pwr := by
  have hkept := s.fresh.cellsStop_power i
  have hcells := s.fresh.cellsStop_stopped i
  have htime := s.fresh.cellsStop_time i
  refine ⟨_, execStopInstant_next h, rfl, ?_⟩
  generalize s.fresh.cellsStop i = v at hkept hcells htime
  have hoff : max s.ticks i ≤ v.bridgeOff.ticks := Nat.le_trans htime (State.bridgeOff_keeps (Keeps.refl false false v)).time
  refine ⟨Nat.le_trans (Nat.le_max_right _ _) hoff, Nat.le_trans (Nat.le_max_left _ _) hoff, v.bridgeOff_running, fun hanlg x => ?_, fun x k => ?_,
    (State.bridgeOff_power hkept).pwr⟩
  · exact State.bridgeOff_legs ((hkept.powered _).trans hanlg) x
  · have hcell : v.bridgeOff.cell x k = v.cell x k := by
      unfold State.cell
      rw [State.bridgeOff_cells]
    exact fun hrun => hcells x k (hcell ▸ hrun)

/-- Behind the stop instant SUP.MODE.PWR takes STOPPED or SAFE_STOP (R531). -/
theorem powerStateUpdate_takes {j : Option Nat} {safe : Bool} (h : s.sup.stop = some ⟨j, safe, true⟩) :
    ∃ t, exec .powerStateUpdate s = .next t ∧ t.sup = { s.sup with stop := none } ∧
      t.pwr = (if safe then pwrSafeStop else pwrStopped) ∧ ∀ a, a ≠ A.SUP_MODE → t.word a = s.word a := by
  have hexec : exec .powerStateUpdate s = execPowerStateUpdate s := rfl
  unfold execPowerStateUpdate at hexec
  dsimp only at hexec
  rw [show s.fresh.sup.stop = _ from h] at hexec
  refine ⟨_, hexec, ?_⟩
  cases safe with
  | true => exact ⟨rfl, State.fget_fset_same _ _ _ (by decide) (by decide), fun a ha => State.word_fset_ne _ _ _ a ha⟩
  | false => exact ⟨rfl, State.fget_fset_same _ _ _ (by decide) (by decide), fun a ha => State.word_fset_ne _ _ _ a ha⟩

/-- The state in which SUP has seen I_RTIME stop. -/
def State.rtimeStopped (s : State) : State :=
  { s.fresh with sup := { s.sup with islandStop := true, islandAt := s.ticks } }

/-- I_RTIME has stopped: a controlled stop begins where the power stage runs (R23, R33). -/
theorem rtimeIslandStop_stops (hplan : s.powered domPlan = true) (hgoes : s.sup.islandStop = false) :
    ∃ t, exec .rtimeIslandStop s = .next t ∧ t.sup.islandStop = true ∧
      (s.running = true → s.sup.stop = none → ∃ i, t.sup.stop = some ⟨some i, true, false⟩) := by
  have hgo : (s.fresh.powered domPlan && !s.fresh.sup.islandStop) = true := by
    rw [State.fresh_sup, hgoes, Bool.not_false, Bool.and_true]
    exact hplan
  have hcond := State.setCond_reports (Reports.refl (s.rtimeStopped.beginStop true)) 12 true
  have hall := (State.beginStop_reports (Reports.refl s.rtimeStopped) true).trans hcond
  refine ⟨_, if_pos hgo, congrArg Sup.islandStop hall.sup, fun hrun hnone => ?_⟩
  obtain ⟨i, hi⟩ := State.beginStop_begins (s := s.rtimeStopped) hrun hnone
  exact ⟨i, hcond.stop_safe hi⟩

/-! A domain is lost. -/

theorem State.noteLoss_lost (s : State) (d : DomainId) : ((s.fsetBit F.SUP_DOM_LOST d.val).fget F.SUP_DOM_LOST).testBit d.val = true := by
  rw [s.testBit_fsetBit _ _ _ (by decide) (by decide) (by exact d.isLt), beq_self_eq_true, Bool.or_true]

/-- A bit of SUP.DOM.LOST leaves the power of every domain and the power-stage state. -/
theorem State.noteLoss_power (s : State) (d : DomainId) :
    (∀ k, (s.fsetBit F.SUP_DOM_LOST d.val).powered k = s.powered k) ∧ (s.fsetBit F.SUP_DOM_LOST d.val).pwr = s.pwr :=
  ⟨fun k => congrArg (Nat.testBit · k) (s.fget_fset_disjoint _ F.SUP_DOM_PWR _ (by decide) (by decide) (by decide) (by decide)),
    s.fget_fset_ne _ _ _ (by decide)⟩

/-- The loss of a domain but AON: its bit of SUP.DOM.LOST is set, and no other domain loses its power (R23, R32 to R35). -/
theorem domainLoss_other (d : DomainId) (hon : s.powered d = true) (hd : d ≠ 0) :
    ∃ t, exec (.domainLoss d) s = .next t ∧ (t.fget F.SUP_DOM_LOST).testBit d.val = true ∧
      (∀ k, t.powered k = (s.powered k && !decide (k = d.val))) ∧ t.pwr = s.pwr := by
  have hexec : exec (.domainLoss d) s = .next (((s.fresh.fsetBit F.SUP_DOM_LOST d.val).powerOff d.val).setCond d.val true) := by
    show execDomainLoss d s = _
    unfold execDomainLoss
    dsimp only
    rw [if_pos (show s.fresh.powered d = true from hon), if_neg hd, if_neg hd]
  obtain ⟨hpow, hpwr⟩ := s.fresh.noteLoss_power d
  have hcut : PowerCut [d.val] (s.fresh.fsetBit F.SUP_DOM_LOST d.val) _ :=
    (State.powerOff_cut _ d.val).keep (State.setCond_reports (Reports.refl _) d.val true).powerKept
  refine ⟨_, hexec, ?_, fun k => ?_, hcut.pwr.trans hpwr⟩
  · rw [hcut.lost]
    exact s.fresh.noteLoss_lost d
  · rw [hcut.powered, hpow]
    simp only [List.contains_cons, List.contains_nil, Bool.or_false, Bool.beq_eq_decide_eq]
    rfl

/-- The domains that the loss of AON takes with it. -/
def aonDependents : List Nat := allButAon.filter fun k => k != domSafa && k != domSafb

/-- The loss of AON takes every domain with it but SAFA and SAFB, which have supplies of their own (R32). -/
theorem domainLoss_aon (hon : s.powered domAon = true) :
    ∃ t, exec (.domainLoss 0) s = .next t ∧ (∀ k < 12, t.powered k = (s.powered k && (k == domSafa || k == domSafb))) ∧ t.pwr = s.pwr := by
  have hin : ∀ k < 12, (!([domAon] ++ aonDependents).contains k) = (k == domSafa || k == domSafb) := by decide
  have haon : PowerCut [domAon] s.fresh ((s.fresh.powerOff domAon).setCond domAon true) :=
    (s.fresh.powerOff_cut domAon).keep (State.setCond_reports (Reports.refl _) domAon true).powerKept
  have hall := haon.trans (State.powerOffAll_cut _ aonDependents)
  have hcut := hall.keep (State.safeShow_power (PowerKept.ite
    (c := (((s.fresh.powerOff domAon).setCond domAon true).powerOffAll aonDependents).bOn = true)
    (fun _ => State.chanFault_power (PowerKept.refl _) .b) (fun _ => PowerKept.refl _)))
  refine ⟨_, if_pos hon, fun k hk => ?_, hcut.pwr⟩
  exact (hcut.powered k).trans (congrArg (s.powered k && ·) (hin k hk))

/-! A thermal shutdown. -/

/-- Two milliseconds into a shutdown AON alone is powered, and every cage supply is off (R459). -/
theorem shutdownPowerOff_off (hon : s.powered domAon = true) (hsd : s.sup.shutdown = true) :
    ∃ t, exec .shutdownPowerOff s = .next t ∧ (∀ k < 12, t.powered k = decide (k = 0)) ∧ t.fget F.SUP_CAGE_ON = 0 ∧
      s.sup.shutAt + 2 * ms ≤ t.ticks := by
  have hgo : (s.fresh.powered domAon && s.fresh.sup.shutdown) = true := Bool.and_eq_true_iff.mpr ⟨hon, hsd⟩
  refine ⟨_, if_pos hgo, fun k hk => ?_, State.fget_fset_same _ _ _ (by decide) (by decide), ?_⟩
  · have hcage : ∀ u : State, (u.fset F.SUP_CAGE_ON 0).powered k = u.powered k := fun u =>
      congrArg (Nat.testBit · k) (u.fget_fset_ne _ F.SUP_DOM_PWR _ (by decide))
    rw [hcage, State.powered_allButAon _ hk]
    exact (congrArg (· && decide (k = 0)) hon).trans (Bool.true_and _)
  · exact Nat.le_trans (Nat.le_max_right _ _) (State.powerOffAll_keeps (Keeps.refl false false (s.fresh.advanceTo (s.sup.shutAt + 2 * ms))) _).time

/-- What the end of a shutdown does where AON was not lost (R460), in its order: the mode axes and SUP.START as after reset, with the
cause of the restart; the supervisor as after reset; INOK, LASTSD and a thermal axis at NORMAL. -/
def State.modesReset (s : State) : State :=
  ((s.setWord A.SUP_MODE (resetValue A.SUP_MODE)).fset F.SUP_START_RDYMS 0xFFFF).fset F.SUP_STAT_LASTRST 3

def State.latchEnd (s : State) : State :=
  let s := { s with sup := { Sup.reset with inputOn := true } }
  { s with flt := { s.flt with cond := s.flt.cond &&& ~~~(0xFFF : BitVec 384) } }

def State.releaseShow (s : State) : State := ((s.fset F.SUP_STAT_INOK 1).fset F.THERM_STAT_LASTSD 1).setTherm 0

theorem execShutdownRelease_kept (hon : s.powered domAon = true) (hsd : s.sup.shutdown = true) :
    execShutdownRelease false s = .next (s.fresh.powerOffAll allButAon).modesReset.latchEnd.releaseShow :=
  if_pos (show (s.fresh.powered domAon && s.fresh.sup.shutdown) = true from Bool.and_eq_true_iff.mpr ⟨hon, hsd⟩)

theorem State.modesReset_shows (s : State) :
    s.modesReset.fget F.SUP_STAT_LASTRST = 3 ∧ s.modesReset.pwr = pwrStopped ∧ s.modesReset.fget F.SUP_DOM_PWR = s.fget F.SUP_DOM_PWR := by
  have hmode : (s.setWord A.SUP_MODE (resetValue A.SUP_MODE)).fget F.SUP_MODE_PWR = pwrStopped :=
    (congrArg F.SUP_MODE_PWR.get (s.word_setWord_same _ _)).trans (by decide)
  unfold State.modesReset State.pwr
  refine ⟨State.fget_fset_same _ _ _ (by decide) (by decide), ?_, ?_⟩
  · rw [State.fget_fset_ne, State.fget_fset_ne, hmode] <;> decide
  · rw [State.fget_fset_ne, State.fget_fset_ne, State.fget_setWord_ne] <;> decide

/-- The thermal axis at NORMAL is its two fields: the sources end, and nothing is reported. -/
theorem State.setTherm_zero (s : State) :
    (s.setTherm 0).sup = s.sup ∧
      ∀ f, (s.setTherm 0).fget f = ((s.fset F.THERM_STAT_STATE 0).fset F.SUP_MODE_THERM 0).fget f := by
  have hends : ∀ (t : State) (n : Nat), t.setCond n false =
      { t with flt := { t.flt with cond := t.flt.cond &&& ~~~((1 : BitVec 384) <<< n) } } := fun _ _ => rfl
  rw [State.setTherm, show ((0 : Nat) != 0) = false from rfl, show ((0 : Nat) == 2) = false from rfl, hends, hends]
  exact ⟨rfl, fun _ => rfl⟩

theorem State.releaseShow_shows (s : State) :
    s.releaseShow.sup = s.sup ∧ s.releaseShow.fget F.SUP_STAT_LASTRST = s.fget F.SUP_STAT_LASTRST ∧
      s.releaseShow.fget F.THERM_STAT_LASTSD = 1 ∧ s.releaseShow.pwr = s.pwr ∧
      s.releaseShow.fget F.SUP_DOM_PWR = s.fget F.SUP_DOM_PWR := by
  obtain ⟨hsup, htherm⟩ := ((s.fset F.SUP_STAT_INOK 1).fset F.THERM_STAT_LASTSD 1).setTherm_zero
  unfold State.releaseShow State.pwr
  refine ⟨hsup, ?_, ?_, ?_, ?_⟩
  · rw [htherm, State.fget_fset_ne, State.fget_fset_ne, State.fget_fset_ne, State.fget_fset_disjoint] <;> decide
  · rw [htherm, State.fget_fset_ne, State.fget_fset_disjoint, State.fget_fset_same] <;> decide
  · rw [htherm, State.fget_fset_disjoint, State.fget_fset_ne, State.fget_fset_ne, State.fget_fset_ne] <;> decide
  · rw [htherm, State.fget_fset_ne, State.fget_fset_ne, State.fget_fset_ne, State.fget_fset_ne] <;> decide

/-- The end of a shutdown with AON powered throughout (R460). -/
theorem shutdownRelease_kept (hon : s.powered domAon = true) (hsd : s.sup.shutdown = true) :
    ∃ t, exec (.shutdownRelease false) s = .next t ∧ t.sup = { Sup.reset with inputOn := true } ∧ t.fget F.SUP_STAT_LASTRST = 3 ∧
      t.fget F.THERM_STAT_LASTSD = 1 ∧ t.pwr = pwrStopped ∧ ∀ k < 12, t.powered k = decide (k = 0) := by
  have hpow : ∀ k < 12, (s.fresh.powerOffAll allButAon).powered k = decide (k = 0) := fun k hk =>
    (State.powered_allButAon s.fresh hk).trans ((congrArg (· && decide (k = 0)) hon).trans (Bool.true_and _))
  refine ⟨_, execShutdownRelease_kept hon hsd, ?_⟩
  generalize s.fresh.powerOffAll allButAon = u at hpow
  obtain ⟨hrst, hpwr, hdom⟩ := u.modesReset_shows
  obtain ⟨hsup, hrst', hlast, hpwr', hdom'⟩ := u.modesReset.latchEnd.releaseShow_shows
  have hparts : ∀ f, u.modesReset.latchEnd.fget f = u.modesReset.fget f := fun _ => rfl
  exact ⟨hsup, hrst'.trans ((hparts _).trans hrst), hlast, hpwr'.trans ((hparts _).trans hpwr),
    fun k hk => (congrArg (Nat.testBit · k) (hdom'.trans ((hparts _).trans hdom))).trans (hpow k hk)⟩

/-- AON's power-on reset (R513) in its two parts: SUP, CLK and THERM at their reset values, with the supervisor; and what it then
shows in SUP.STAT and CLK.STAT. -/
def State.aonClear (s : State) : State := (((s.resetBlock 0).resetBlock 1).resetBlock 17).latchEnd

def State.aonShow (s : State) (cause : Nat) : State :=
  let s := ((s.fset F.SUP_STAT_LASTRST cause).fset F.SUP_STAT_INOK 1).fset F.SUP_STAT_SAFE24 (if 19200 ≤ s.safe.safe24 then 1 else 0)
  ({ s with clk := { s.clk with steer := 0 } }.showSpare).fset F.CLK_STAT_EXTPRES s.clk.extOk.toNat

theorem State.aonReset_eq (s : State) (cause : Nat) : s.aonReset cause = s.aonClear.aonShow cause := rfl

/-- The registers of SUP read their reset values, also where the map of registers is in no order. -/
theorem State.word_aonClear (s : State) (a : Nat) (ha : 0x40000000 ≤ a ∧ a < 0x40010000) : s.aonClear.word a = resetValue a := by
  refine sparseGet_not_mem _ _ a fun e he hea => ?_
  obtain ⟨he, -⟩ := List.mem_filter.mp he
  obtain ⟨he, -⟩ := List.mem_filter.mp he
  obtain ⟨-, hout⟩ := List.mem_filter.mp he
  rw [decide_eq_true_iff] at hout
  omega

theorem State.fget_showSpare (s : State) (f : Fld) (hf : f.addr ≠ A.CLK_STAT) : s.showSpare.fget f = s.fget f :=
  s.fget_fset_ne _ f _ hf

theorem State.aonShow_shows (s : State) (cause : Nat) (hc : cause < 16) :
    (s.aonShow cause).fget F.SUP_STAT_LASTRST = cause ∧ ∀ f, f.addr ≠ A.CLK_STAT → f.addr ≠ A.SUP_STAT → (s.aonShow cause).fget f = s.fget f := by
  have hfit : cause % 2 ^ F.SUP_STAT_LASTRST.width = cause := Nat.mod_eq_of_lt hc
  have hclk : ∀ (t : State) (x : Clk) (f : Fld), ({ t with clk := x } : State).fget f = t.fget f := fun _ _ _ => rfl
  unfold State.aonShow
  dsimp only
  refine ⟨?_, fun f hf hs => ?_⟩
  · rw [State.fget_fset_ne, State.fget_showSpare, hclk, State.fget_fset_disjoint, State.fget_fset_disjoint, State.fget_fset_same, hfit]
      <;> decide
  · rw [State.fget_fset_ne _ _ _ _ hf, State.fget_showSpare _ _ hf, hclk, State.fget_fset_ne _ _ _ _ hs, State.fget_fset_ne _ _ _ _ hs,
      State.fget_fset_ne _ _ _ _ hs]

/-- AON's power-on reset shows its cause, the power stage STOPPED and AON alone powered (R513). -/
theorem State.aonReset_shows (s : State) (cause : Nat) (hc : cause < 16) :
    (s.aonReset cause).fget F.SUP_STAT_LASTRST = cause ∧ (s.aonReset cause).pwr = pwrStopped ∧
      ∀ k < 12, (s.aonReset cause).powered k = decide (k = 0) := by
  rw [State.aonReset_eq]
  obtain ⟨hrst, hrest⟩ := s.aonClear.aonShow_shows cause hc
  have hmode : s.aonClear.fget F.SUP_MODE_PWR = pwrStopped := (congrArg F.SUP_MODE_PWR.get (s.word_aonClear _ (by decide))).trans (by decide)
  have hdom : s.aonClear.fget F.SUP_DOM_PWR = 1 := (congrArg F.SUP_DOM_PWR.get (s.word_aonClear _ (by decide))).trans (by decide)
  have hbit : ∀ k < 12, Nat.testBit 1 k = decide (k = 0) := by decide
  exact ⟨hrst, (hrest _ (by decide) (by decide)).trans hmode,
    fun k hk => (congrArg (Nat.testBit · k) ((hrest _ (by decide) (by decide)).trans hdom)).trans (hbit k hk)⟩

/-- The end of a shutdown in which AON was lost: the module starts from power-on (R460, R513). -/
theorem shutdownRelease_lost (hon : s.powered domAon = true) (hsd : s.sup.shutdown = true) :
    ∃ t, exec (.shutdownRelease true) s = .next t ∧ t.sup = { Sup.reset with inputOn := true } ∧ t.fget F.SUP_STAT_LASTRST = 0 ∧
      t.pwr = pwrStopped ∧ ∀ k < 12, t.powered k = decide (k = 0) := by
  have hgo : (s.fresh.powered domAon && s.fresh.sup.shutdown) = true := Bool.and_eq_true_iff.mpr ⟨hon, hsd⟩
  exact ⟨_, if_pos hgo, rfl, State.aonReset_shows _ 0 (by decide)⟩

/-- Settles O22: losses by the rule of the domains that lose their power, the stop instant by that of its cells and legs, and the
ends of a shutdown by what each sets. -/
theorem domainLoss : Obligations.DomainLoss := by
  unfold Obligations.DomainLoss
  refine ⟨fun s d => ⟨fun hon => ?_, rtimeIslandStop_stops, fun hon hsd =>
    ⟨shutdownPowerOff_off hon hsd, shutdownRelease_kept hon hsd, shutdownRelease_lost hon hsd⟩⟩,
    fun s i safe => ⟨stopInstant_stops, fun j => powerStateUpdate_takes⟩⟩
  by_cases hd : d = 0
  · subst hd
    obtain ⟨t, hexec, hpow, hpwr⟩ := domainLoss_aon hon
    exact ⟨t, hexec, (hpow 0 (by decide)).trans (Bool.and_false _), fun h => absurd rfl h, fun h => absurd rfl h, fun _ => hpow, hpwr⟩
  · obtain ⟨t, hexec, hlost, hpow, hpwr⟩ := domainLoss_other d hon hd
    refine ⟨t, hexec, ?_, fun _ => hlost, fun _ k hk => ?_, fun h => absurd h hd, hpwr⟩
    · simp [hpow]
    · simp [hpow, hk]

end Sys2Proof.Machine
end

section
/-!
O57: what `Keeps` says of each meaning, said once of `exec` and then of `step`.
-/

namespace Sys2Proof.Machine

/-- Does a command leave the safety parameter set? Only SAFE_LOAD and SAFE_CONFIRM do not (R423). -/
def leavesSet : Instr → Bool
  | .safeLoad .. | .safeConfirm .. => false
  | _ => true

/-- Does a command leave the energy registers? Only the end of a second of measurement does not (R372). -/
def leavesEnergy : Instr → Bool
  | .energySecond => false
  | _ => true

/-- Whatever `exec` answers to a command keeps the queue, the order of time and the canonical forms; the safety parameter set and
the energies too, but for the commands that set them. One law for each meaning, in the order of `exec`. -/
theorem exec_keeps : ∀ (c : Instr) (s : State), ResKeeps (leavesSet c) (leavesEnergy c) s (exec c s)
  | .registerWrite req addr value, s => execRegisterWrite_keeps req addr value s
  | .rcRead req addr, s => execRcRead_keeps req addr s
  | .powerOn, s => execPowerOn_keeps s
  | .domainPowerUp, s => execDomainPowerUp_keeps s
  | .ringReady ms, s => execRingReady_keeps ms s
  | .auxSupplyLoss, s => execAuxSupplyLoss_keeps s
  | .holdupEnd, s => execHoldupEnd_keeps s
  | .auxSupplyReturn, s => execAuxSupplyReturn_keeps s
  | .brownOut volts, s => execBrownOut_keeps volts s
  | .storeMeasure milliJoule, s => execStoreMeasure_keeps milliJoule s
  | .domainLoss d, s => execDomainLoss_keeps d s
  | .rtimeIslandStop, s => execRtimeIslandStop_keeps s
  | .stopInstant, s => execStopInstant_keeps s
  | .powerStateUpdate, s => execPowerStateUpdate_keeps s
  | .reqPrecharge req, s => execReqPrecharge_keeps req s
  | .reqRun req, s => execReqRun_keeps req s
  | .reqStop req, s => execReqStop_keeps req s
  | .reqSafeStop req, s => execReqSafeStop_keeps req s
  | .reqClear req, s => execReqClear_keeps req s
  | .reqRide req, s => execReqRide_keeps req s
  | .reqResume req, s => execReqResume_keeps req s
  | .reqUndefined req low, s => execReqUndefined_keeps req low s
  | .arbiterDecision, s => execArbiterDecision_keeps s
  | .periodTick, s => execPeriodTick_keeps s
  | .coreEnableWrite req value, s => execCoreEnableWrite_keeps req value s
  | .corePeriodWrite req value, s => execCorePeriodWrite_keeps req value s
  | .loadWindowRead req n, s => execLoadWindowRead_keeps req n s
  | .loadWindowWrite req n value, s => execLoadWindowWrite_keeps req n value s
  | .dataAccessComplete n cycles, s => execDataAccessComplete_keeps n cycles s
  | .ldInResume n, s => execLdInResume_keeps n s
  | .emitFifoRoom n, s => execEmitFifoRoom_keeps n s
  | .comparePoint n, s => execComparePoint_keeps n s
  | .storeDrainEnd n, s => execStoreDrainEnd_keeps n s
  | .drainTrap n, s => execDrainTrap_keeps n s
  | .illegalInstruction n word, s => execIllegalInstruction_keeps n word s
  | .add n rd ra rb, s => execAdd_keeps n rd ra rb s
  | .sub n rd ra rb, s => execSub_keeps n rd ra rb s
  | .and n rd ra rb, s => execAnd_keeps n rd ra rb s
  | .or n rd ra rb, s => execOr_keeps n rd ra rb s
  | .xor n rd ra rb, s => execXor_keeps n rd ra rb s
  | .sll n rd ra rb, s => execSll_keeps n rd ra rb s
  | .srl n rd ra rb, s => execSrl_keeps n rd ra rb s
  | .sra n rd ra rb, s => execSra_keeps n rd ra rb s
  | .slt n rd ra rb, s => execSlt_keeps n rd ra rb s
  | .sltu n rd ra rb, s => execSltu_keeps n rd ra rb s
  | .mul n rd ra rb, s => execMul_keeps n rd ra rb s
  | .mulh n rd ra rb, s => execMulh_keeps n rd ra rb s
  | .div n rd ra rb, s => execDiv_keeps n rd ra rb s
  | .divu n rd ra rb, s => execDivu_keeps n rd ra rb s
  | .rem n rd ra rb, s => execRem_keeps n rd ra rb s
  | .adds n rd ra rb, s => execAdds_keeps n rd ra rb s
  | .subs n rd ra rb, s => execSubs_keeps n rd ra rb s
  | .addi n rd ra imm, s => execAddi_keeps n rd ra imm s
  | .andi n rd ra imm, s => execAndi_keeps n rd ra imm s
  | .ori n rd ra imm, s => execOri_keeps n rd ra imm s
  | .slti n rd ra imm, s => execSlti_keeps n rd ra imm s
  | .slli n rd ra imm, s => execSlli_keeps n rd ra imm s
  | .srli n rd ra imm, s => execSrli_keeps n rd ra imm s
  | .srai n rd ra imm, s => execSrai_keeps n rd ra imm s
  | .lui n rd imm, s => execLui_keeps n rd imm s
  | .li n rd, s => execLi_keeps n rd s
  | .beq n ra rd imm, s => execBeq_keeps n ra rd imm s
  | .bne n ra rd imm, s => execBne_keeps n ra rd imm s
  | .blt n ra rd imm, s => execBlt_keeps n ra rd imm s
  | .bge n ra rd imm, s => execBge_keeps n ra rd imm s
  | .bltu n ra rd imm, s => execBltu_keeps n ra rd imm s
  | .bgeu n ra rd imm, s => execBgeu_keeps n ra rd imm s
  | .j n imm, s => execJ_keeps n imm s
  | .call n imm, s => execCall_keeps n imm s
  | .jr n ra, s => execJr_keeps n ra s
  | .lw n rt ra off, s => execLw_keeps n rt ra off s
  | .lh n rt ra off, s => execLh_keeps n rt ra off s
  | .lhu n rt ra off, s => execLhu_keeps n rt ra off s
  | .lb n rt ra off, s => execLb_keeps n rt ra off s
  | .lbu n rt ra off, s => execLbu_keeps n rt ra off s
  | .sw n rt ra off, s => execSw_keeps n rt ra off s
  | .sh n rt ra off, s => execSh_keeps n rt ra off s
  | .sb n rt ra off, s => execSb_keeps n rt ra off s
  | .ldSmp n rt ra off, s => execLdSmp_keeps n rt ra off s
  | .vld n vd ra off, s => execVld_keeps n vd ra off s
  | .vst n vd ra off, s => execVst_keeps n vd ra off s
  | .ldIn n reg pv slot, s => execLdIn_keeps n reg pv slot s
  | .predSet n slot reg, s => execPredSet_keeps n slot reg s
  | .sfAdd n rd ra rb, s => execSfAdd_keeps n rd ra rb s
  | .sfSub n rd ra rb, s => execSfSub_keeps n rd ra rb s
  | .sfMul n rd ra rb, s => execSfMul_keeps n rd ra rb s
  | .sfAbs n rd ra, s => execSfAbs_keeps n rd ra s
  | .sfSlt n rd ra rb, s => execSfSlt_keeps n rd ra rb s
  | .sfSle n rd ra rb, s => execSfSle_keeps n rd ra rb s
  | .sfFromi n rd ra, s => execSfFromi_keeps n rd ra s
  | .sfToi n rd ra, s => execSfToi_keeps n rd ra s
  | .sfScale n rd ra rb, s => execSfScale_keeps n rd ra rb s
  | .vadd n vd va vb pg, s => execVadd_keeps n vd va vb pg s
  | .vsub n vd va vb pg, s => execVsub_keeps n vd va vb pg s
  | .vmul n vd va vb pg, s => execVmul_keeps n vd va vb pg s
  | .vmac n vd va vb pg, s => execVmac_keeps n vd va vb pg s
  | .vneg n vd va pg, s => execVneg_keeps n vd va pg s
  | .vabs n vd va pg, s => execVabs_keeps n vd va pg s
  | .vmin n vd va vb pg, s => execVmin_keeps n vd va vb pg s
  | .vmax n vd va vb pg, s => execVmax_keeps n vd va vb pg s
  | .vclamp n vd va vb vc pg, s => execVclamp_keeps n vd va vb vc pg s
  | .vscale n vd va rs pg, s => execVscale_keeps n vd va rs pg s
  | .vmov n vd va pg, s => execVmov_keeps n vd va pg s
  | .vbcast n vd rs pg, s => execVbcast_keeps n vd rs pg s
  | .vsel n vd va vb pg, s => execVsel_keeps n vd va vb pg s
  | .vget n rs va idx, s => execVget_keeps n rs va idx s
  | .vset n vd rs idx, s => execVset_keeps n vd rs idx s
  | .vsum n rs va pg, s => execVsum_keeps n rs va pg s
  | .vdot n rs va vb pg, s => execVdot_keeps n rs va vb pg s
  | .vmaxr n rs va pg, s => execVmaxr_keeps n rs va pg s
  | .vminr n rs va pg, s => execVminr_keeps n rs va pg s
  | .vcmplt n pd va vb pg, s => execVcmplt_keeps n pd va vb pg s
  | .vcmple n pd va vb pg, s => execVcmple_keeps n pd va vb pg s
  | .pand n pd pa pb, s => execPand_keeps n pd pa pb s
  | .por n pd pa pb, s => execPor_keeps n pd pa pb s
  | .pnot n pd pa, s => execPnot_keeps n pd pa s
  | .psetl n pd rs, s => execPsetl_keeps n pd rs s
  | .pseth n pd rs, s => execPseth_keeps n pd rs s
  | .pget n rs pa h, s => execPget_keeps n rs pa h s
  | .pcnt n rs pa pg, s => execPcnt_keeps n rs pa pg s
  | .piStep n vd va vb pg rp, s => execPiStep_keeps n vd va vb pg rp s
  | .hyst n pd va pg rp, s => execHyst_keeps n pd va pg rp s
  | .minsel n vd va cnt pg pw, s => execMinsel_keeps n vd va cnt pg pw s
  | .setp n vd va pg rp, s => execSetp_keeps n vd va pg rp s
  | .emit n va pg dest qty, s => execEmit_keeps n va pg dest qty s
  | .nop n, s => execNop_keeps n s
  | .waitp n, s => execWaitp_keeps n s
  | .rett n, s => execRett_keeps n s
  | .brk n, s => execBrk_keeps n s
  | .rdsys n rd sel, s => execRdsys_keeps n rd sel s
  | .tkOpen n rd, s => execTkOpen_keeps n rd s
  | .tkWr n rd ra rb, s => execTkWr_keeps n rd ra rb s
  | .tkPrint n ra rb bnd, s => execTkPrint_keeps n ra rb bnd s
  | .tkCut n ra, s => execTkCut_keeps n ra s
  | .tkStat n rd ra, s => execTkStat_keeps n rd ra s
  | .takeApply h, s => execTakeApply_keeps h s
  | .takeOpenTimeout h, s => execTakeOpenTimeout_keeps h s
  | .takeWaitTimeout h, s => execTakeWaitTimeout_keeps h s
  | .emitReceived n, s => execEmitReceived_keeps n s
  | .buildCut d, s => execBuildCut_keeps d s
  | .commit d, s => execCommit_keeps d s
  | .dispatch d, s => execDispatch_keeps d s
  | .planBypWrite req x value, s => execPlanBypWrite_keeps req x value s
  | .failClear req x high value, s => execFailClear_keeps req x high value s
  | .trainingAttempt p, s => execTrainingAttempt_keeps p s
  | .moduleReady p identifier powerClass cdrControl, s => execModuleReady_keeps p identifier powerClass cdrControl s
  | .trainingTimeout p present eyes, s => execTrainingTimeout_keeps p s present eyes
  | .trainingRetry p, s => execTrainingRetry_keeps p s
  | .retrain req p, s => execRetrain_keeps req p s
  | .portTrained p skew, s => execPortTrained_keeps p skew s
  | .rxClockPresent p ppb, s => execRxClockPresent_keeps p s ppb
  | .rxclkLost p, s => execRxclkLost_keeps p s
  | .blockLockGained p lane phase eye, s => execBlockLockGained_keeps p lane phase eye s
  | .blklockLost p lane, s => execBlklockLost_keeps p lane s
  | .portFailed p cause, s => execPortFailed_keeps p cause s
  | .dllLock p delayPs, s => execDllLock_keeps p delayPs s
  | .dllGateOpen p errorPs, s => execDllGateOpen_keeps p errorPs s
  | .dllLossOfLock p errorPs, s => execDllLossOfLock_keeps p errorPs s
  | .dllRelock req value, s => execDllRelock_keeps req value s
  | .refselWrite req value, s => execRefselWrite_keeps req value s
  | .mainOscillatorFail lasts, s => execMainOscillatorFail_keeps s lasts
  | .spareOscillatorFail lasts, s => execSpareOscillatorFail_keeps s lasts
  | .extReferenceLost, s => execExtReferenceLost_keeps s
  | .extReferenceReturn ppb, s => execExtReferenceReturn_keeps s ppb
  | .trkFreeze p lane windows, s => execTrkFreeze_keeps p lane s windows
  | .trackerResume p lane centre, s => execTrackerResume_keeps p lane s centre
  | .mgmtTransfer req p value, s => execMgmtTransfer_keeps req p value s
  | .mgmtTransferDone p data, s => execMgmtTransferDone_keeps p data s
  | .tapsWrite req p value, s => execTapsWrite_keeps req p value s
  | .summaryReturn x cw ccw lines, s => execSummaryReturn_keeps x cw ccw s lines
  | .summarySlotTimeout x k, s => execSummarySlotTimeout_keeps x k s
  | .clapperLaunch x, s => execClapperLaunch_keeps x s
  | .claprHeard p blocks loopCw loopCcw, s => execClaprHeard_keeps p blocks loopCw loopCcw s
  | .enumStart x, s => execEnumStart_keeps x s
  | .enumReturn x countCw countCcw lines, s => execEnumReturn_keeps x countCw countCcw s lines
  | .admission x k, s => execAdmission_keeps x k s
  | .admissionClaprTimeout x k, s => execAdmissionClaprTimeout_keeps x k s
  | .evtHeard p blocks full, s => execEvtHeard_keeps p blocks full s
  | .evtqRead req, s => execEvtqRead_keeps req s
  | .tlmHeard p blocks full, s => execTlmHeard_keeps p blocks full s
  | .tlmWaitExpiry x, s => execTlmWaitExpiry_keeps x s
  | .cellAccessGo req value, s => execCellAccessGo_keeps req value s
  | .regrspHeard p blocks, s => execRegrspHeard_keeps p blocks s
  | .cellAccessTimeout, s => execCellAccessTimeout_keeps s
  | .cellFirstClock x k dir desc, s => execCellFirstClock_keeps x k dir s desc
  | .cellEpoch x k dir epoch heard, s => execCellEpoch_keeps x k dir epoch s heard
  | .cellClockChangeover x k otherPresent, s => execCellClockChangeover_keeps x k s otherPresent
  | .clkJump x k diffPs dir, s => execClkJump_keeps x k diffPs s dir
  | .cellClap x k dir num heard, s => execCellClap_keeps x k dir num s heard
  | .cellTset x k step corr dir heard, s => execCellTset_keeps x k step corr s dir heard
  | .cellEnum x k dir count heard, s => execCellEnum_keeps x k dir count s heard
  | .cellAdmit x k dir heard, s => execCellAdmit_keeps x k s dir heard
  | .cellUnadmit x k dir heard, s => execCellUnadmit_keeps x k s dir heard
  | .cellArm x k epoch dir heard pos, s => execCellArm_keeps x k epoch s dir heard pos
  | .cellStop x k reason epoch dir heard, s => execCellStop_keeps x k reason epoch s dir heard
  | .hbLost x k, s => execHbLost_keeps x k s
  | .framingLost x k, s => execFramingLost_keeps x k s
  | .noPstart x k, s => execNoPstart_keeps x k s
  | .cellInternalFault x k low, s => execCellInternalFault_keeps x k low s
  | .cellRecordAccept x k record dir heard, s => execCellRecordAccept_keeps x k record s dir heard
  | .cellRecordExecute x k, s => execCellRecordExecute_keeps x k s
  | .cellRegrqHeard x k dir ctl data, s => execCellRegrqHeard_keeps x k dir ctl data s
  | .linkLost x k dir l3, s => execLinkLost_keeps x k dir s l3
  | .cellLoopRemove x k dir, s => execCellLoopRemove_keeps x k dir s
  | .cellTelemetrySend x k quant, s => execCellTelemetrySend_keeps x k s quant
  | .cellCaptureSample x k quant, s => execCellCaptureSample_keeps x k s quant
  | .rtimelRead req, s => execRtimelRead_keeps req s
  | .ltimelRead req, s => execLtimelRead_keeps req s
  | .gtimeReanchor, s => execGtimeReanchor_keeps s
  | .ptpEventMessage port transmit messageType sequenceId, s => execPtpEventMessage_keeps port transmit messageType sequenceId s
  | .syncMeasurement theta kFreq utcOffset, s => execSyncMeasurement_keeps theta kFreq utcOffset s
  | .gtimeStep, s => execGtimeStep_keeps s
  | .holdover, s => execHoldover_keeps s
  | .holdmaxExpiry, s => execHoldmaxExpiry_keeps s
  | .timePairSend, s => execTimePairSend_keeps s
  | .compareFire u, s => execCompareFire_keeps u s
  | .cmpDisarm req u, s => execCmpDisarm_keeps req u s
  | .peerClapperLaunch loopTime fwdSum followers, s => execPeerClapperLaunch_keeps loopTime fwdSum followers s
  | .pclapHeard blocks fwd, s => execPclapHeard_keeps blocks fwd s
  | .ptimeHeard blocks, s => execPtimeHeard_keeps blocks s
  | .peerLost, s => execPeerLost_keeps s
  | .peerReturn, s => execPeerReturn_keeps s
  | .pwmPeriodStart, s => execPwmPeriodStart_keeps s
  | .brgEntryReceived entry, s => execBrgEntryReceived_keeps entry s
  | .trip t input, s => execTrip_keeps t s input
  | .latchedClear req legs, s => execLatchedClear_keeps req legs s
  | .gateSupplyLockout x high negative seen, s => execGateSupplyLockout_keeps x high negative s seen
  | .desaturationFault x high mv, s => execDesaturationFault_keeps x high s mv
  | .overcurrentFault x seen, s => execOvercurrentFault_keeps x s seen
  | .softTurnoffStart x, s => execSoftTurnoffStart_keeps x s
  | .softTurnoffEnd x, s => execSoftTurnoffEnd_keeps x s
  | .gateFaultClear req x, s => execGateFaultClear_keeps req x s
  | .gateCommandLoss x high primary, s => execGateCommandLoss_keeps x high s primary
  | .pstartlRead req, s => execPstartlRead_keeps req s
  | .conversionSlot codes full nv bad strmFull, s => execConversionSlot_keeps codes s full nv bad strmFull
  | .groupStampWrite g, s => execGroupStampWrite_keeps g s
  | .gbufWrite req g value, s => execGbufWrite_keeps req g value s
  | .referenceSettled k, s => execReferenceSettled_keeps k s
  | .referenceLost ref, s => execReferenceLost_keeps ref s
  | .referenceReturn ref nv, s => execReferenceReturn_keeps ref s nv
  | .calibrate req converters, s => execCalibrate_keeps req converters s
  | .calibrationDone k gain offs, s => execCalibrationDone_keeps k gain offs s
  | .zxtlRead req, s => execZxtlRead_keeps req s
  | .arm req u, s => execArm_keeps req u s
  | .force req u, s => execForce_keeps req u s
  | .abort req u, s => execAbort_keeps req u s
  | .capdHeard p blocks full, s => execCapdHeard_keeps p blocks s full
  | .mtrSample codes, s => execMtrSample_keeps codes s
  | .energySecond, s => execEnergySecond_keeps s
  | .intervalSnapshot bad, s => execIntervalSnapshot_keeps s bad
  | .timePairReceived gtimeNs target, s => execTimePairReceived_keeps gtimeNs target s
  | .stepSeen theta gtimeSec, s => execStepSeen_keeps theta gtimeSec s
  | .mtimeDayEnd, s => execMtimeDayEnd_keeps s
  | .unsyncTimeout, s => execUnsyncTimeout_keeps s
  | .sessStart req arg, s => execSessStart_keeps req arg s
  | .sessEnd req arg, s => execSessEnd_keeps req arg s
  | .mtrReadout req arg, s => execMtrReadout_keeps req arg s
  | .paramEnter req, s => execParamEnter_keeps req s
  | .paramExit req, s => execParamExit_keeps req s
  | .timeSet req, s => execTimeSet_keeps req s
  | .mtrCmdUndefined req code, s => execMtrCmdUndefined_keeps req code s
  | .mtrCommandExecute bad, s => execMtrCommandExecute_keeps s bad
  | .pdataWrite req value, s => execPdataWrite_keeps req value s
  | .lselWrite req value, s => execLselWrite_keeps req value s
  | .mtrElRead req j, s => execMtrElRead_keeps req j s
  | .coverOpen, s => execCoverOpen_keeps s
  | .coverClose, s => execCoverClose_keeps s
  | .mtrSelfTest failing, s => execMtrSelfTest_keeps failing s
  | .crystalCheck ppm, s => execCrystalCheck_keeps ppm s
  | .mtrSupplyLoss, s => execMtrSupplyLoss_keeps s
  | .mtrPowerUp, s => execMtrPowerUp_keeps s
  | .backupExhausted, s => execBackupExhausted_keeps s
  | .status frame, s => execStatus_keeps s frame
  | .readRec rseq frame, s => execReadRec_keeps rseq s frame
  | .billingReadout arg frame, s => execBillingReadout_keeps arg s frame
  | .readCert arg frame, s => execReadCert_keeps arg s frame
  | .billingUnknownFn fn frame, s => execBillingUnknownFn_keeps fn s frame
  | .safetyInputChange si level, s => execSafetyInputChange_keeps si level s
  | .discrepancyTimeout f, s => execDiscrepancyTimeout_keeps f s
  | .channelACycle, s => execChannelACycle_keeps s
  | .channelExchange liveA liveB, s => execChannelExchange_keeps liveA liveB s
  | .channelFault survivor, s => execChannelFault_keeps survivor s
  | .safeResetEdge heldUsA heldUsB gapUs, s => execSafeResetEdge_keeps heldUsA heldUsB s gapUs
  | .outputTestSlot, s => execOutputTestSlot_keeps s
  | .outputTestCheck nodeOpen, s => execOutputTestCheck_keeps nodeOpen s
  | .returnedHbLost p, s => execReturnedHbLost_keeps p s
  | .laneLive p, s => execLaneLive_keeps p s
  | .peerHeartbeatLost, s => execPeerHeartbeatLost_keeps s
  | .safeStartupDone c selfTestPassed, s => execSafeStartupDone_keeps c selfTestPassed s
  | .faultEvent src, s => execFaultEvent_keeps src s
  | .pinPulseEnd, s => execPinPulseEnd_keeps s
  | .pinHoldWrite req value, s => execPinHoldWrite_keeps req value s
  | .histlRead req k, s => execHistlRead_keeps req k s
  | .swset req value, s => execSwset_keeps req value s
  | .collectorSelfFault item bits lasts, s => execCollectorSelfFault_keeps item s bits lasts
  | .selfFaultClear req, s => execSelfFaultClear_keeps req s
  | .ceWriteback addr, s => execCeWriteback_keeps addr s
  | .scrubRead mem addr, s => execScrubRead_keeps mem addr s
  | .scrubSlow mem, s => execScrubSlow_keeps mem s
  | .memModeWrite req value, s => execMemModeWrite_keeps req value s
  | .memInitDone, s => execMemInitDone_keeps s
  | .logEnqueue entry, s => execLogEnqueue_keeps entry s
  | .logRecordWrite, s => execLogRecordWrite_keeps s
  | .logScan, s => execLogScan_keeps s
  | .thermalSample sensor reading, s => execThermalSample_keeps sensor reading s
  | .shutdownPowerOff, s => execShutdownPowerOff_keeps s
  | .shutdownRelease aonLost, s => execShutdownRelease_keeps aonLost s
  | .thermLimitWrite req value, s => execThermLimitWrite_keeps req value s
  | .authFailure h, s => execAuthFailure_keeps h s
  | .replayReject q sameMac, s => execReplayReject_keeps q sameMac s
  | .malformedDatagram h, s => execMalformedDatagram_keeps h s
  | .hello q, s => execHello_keeps q s
  | .bye q, s => execBye_keeps q s
  | .regRead q addr count, s => execRegRead_keeps q addr count s
  | .regWrite q pairs, s => execRegWrite_keeps q pairs s
  | .memRead q addr nbytes, s => execMemRead_keeps q addr nbytes s
  | .memWrite q addr data, s => execMemWrite_keeps q addr data s
  | .coreLoad q core sel word words, s => execCoreLoad_keeps q core sel word words s
  | .tkOpenCommand q, s => execTkOpenCommand_keeps q s
  | .tkWrCommand q handle pairs, s => execTkWrCommand_keeps q handle pairs s
  | .tkPrintCommand q handle bnd instant, s => execTkPrintCommand_keeps q handle bnd instant s
  | .tkCutCommand q handle, s => execTkCutCommand_keeps q handle s
  | .tkStatCommand q handle, s => execTkStatCommand_keeps q handle s
  | .updOpen q slate, s => execUpdOpen_keeps q slate s
  | .updBlock q offset data, s => execUpdBlock_keeps q offset data s
  | .updVerify q, s => execUpdVerify_keeps q s
  | .updActivate q, s => execUpdActivate_keeps q s
  | .activationRestart, s => execActivationRestart_keeps s
  | .updConfirm q, s => execUpdConfirm_keeps q s
  | .updClose q, s => execUpdClose_keeps q s
  | .updLapse, s => execUpdLapse_keeps s
  | .updUnconf, s => execUpdUnconf_keeps s
  | .loaderStart, s => execLoaderStart_keeps s
  | .safeLoad q set, s => execSafeLoad_keeps q set s
  | .safeConfirm q check, s => execSafeConfirm_keeps q check s
  | .keyInit q key, s => execKeyInit_keeps q key s
  | .keySet q target key, s => execKeySet_keeps q target key s
  | .unknownCommand q cmd, s => execUnknownCommand_keeps q cmd s
  | .sessionTimeout h, s => execSessionTimeout_keeps h s
  | .hostLinkDown h, s => execHostLinkDown_keeps h s
  | .residentConfigApply, s => execResidentConfigApply_keeps s
  | .streamLivePacket src, s => execStreamLivePacket_keeps src s
  | .streamPacketSend, s => execStreamPacketSend_keeps s
  | .credit blocks others, s => execCredit_keeps blocks s others
  | .rushesReadoutGo req unit, s => execRushesReadoutGo_keeps req unit s
  | .rushesReadoutAbort req, s => execRushesReadoutAbort_keeps req s
  | .readoutDone, s => execReadoutDone_keeps s
  | .tripInactive t input, s => execTripInactive_keeps t s input
  | .gateSupplyRelease x high negative seen, s => execGateSupplyRelease_keeps x high negative s seen
  | .overcurrentEnd x mv, s => execOvercurrentEnd_keeps x s mv
  | .safe24Change milliVolt, s => execSafe24Change_keeps milliVolt s
  | .hostLinkUp h, s => execHostLinkUp_keeps h s
  | .cellSummSlot x k dir slots heard, s => execCellSummSlot_keeps x k dir s slots heard
  | .cellEventSend x k, s => execCellEventSend_keeps x k s
  | .returnedHeartbeat p, s => execReturnedHeartbeat_keeps p s
/-- Time does not go back in a step, the canonical forms stay, and the front of the queue is what the step takes from it. -/
theorem step_keeps {s t : State} (h : step s = .next t) : Keeps false false { s with pending := s.pending.tail } t := by
  unfold step at h
  split at h
  · next hnone =>
    cases h
    have hidle := State.idle_keeps (kb := false) (ke := false) s
    exact ⟨by rw [hnone]; exact hidle.queue.trans hnone, hidle.time, hidle.mem, hidle.regs, nofun, nofun⟩
  · next c rest hfront =>
    have hexec := exec_keeps c _ t h
    exact ⟨by rw [hfront]; exact hexec.queue, hexec.time, hexec.mem, hexec.regs, nofun, nofun⟩

/-- Settles O57, from the one law of `exec` and the law of the idle cycle. -/
theorem stepKeepsForm : Obligations.StepKeepsForm := by
  unfold Obligations.StepKeepsForm
  intro s t hstep hmem hregs
  have hkeeps := step_keeps hstep
  exact ⟨hkeeps.mem hmem, hkeeps.regs hregs, hkeeps.time, hkeeps.queue⟩

end Sys2Proof.Machine
end

section
/-!
O23: the commands that request a mode.
-/

namespace Sys2Proof.Machine

/-- The commands that write SUP.MODE_REQ, each with the code that it writes (R42, R48). -/
def modeCommands (req : Requester) (low : BitVec 3) : List (Instr × BitVec 4) :=
  [(.reqPrecharge req, 1), (.reqRun req, 2), (.reqStop req, 3), (.reqSafeStop req, 4), (.reqClear req, 5), (.reqRide req, 6),
    (.reqResume req, 7), (.reqUndefined req low, 8 + low.setWidth 4)]

variable {s : State} {req : Requester} {low : BitVec 3}

/-- Each of them is a write of its code, which is not 0. -/
theorem exec_modeCommands : ∀ c ∈ modeCommands req low, exec c.1 s = .next (s.fresh.modeReq req c.2) ∧ c.2 ≠ 0 := by
  have hundefined : ∀ low : BitVec 3, (8 + low.setWidth 4 : BitVec 4) ≠ 0 := by decide
  simp only [modeCommands, List.forall_mem_cons]
  exact ⟨⟨rfl, by decide⟩, ⟨rfl, by decide⟩, ⟨rfl, by decide⟩, ⟨rfl, by decide⟩, ⟨rfl, by decide⟩, ⟨rfl, by decide⟩,
    ⟨rfl, by decide⟩, ⟨rfl, hundefined low⟩, nofun⟩

/-- With AON powered the request of a code joins the arbiter, else its write is a bus error; no register changes (R42, R49). -/
theorem State.modeReq_joins (s : State) (req : Requester) {code : BitVec 4} (hcode : code ≠ 0) :
    let t := s.modeReq req code
    t.regs = s.regs ∧ t.mem = s.mem ∧
      t.sup = (if s.powered domAon = true then { s.sup with arbNext := s.sup.arbNext ++ [(s.ticks, ⟨req, code⟩)] } else s.sup) ∧
      t.out = (if s.powered domAon = true then s.out else s.out ++ [.busError req A.SUP_MODE_REQ]) := by
  dsimp only
  unfold State.modeReq State.joinArb
  rw [if_neg hcode]
  split <;> exact ⟨rfl, rfl, rfl, rfl⟩

/-- Settles O23: each command is a write of its code, and a code but 0 joins the arbiter. -/
theorem modeRequests : Obligations.ModeRequests := by
  unfold Obligations.ModeRequests
  intro s req low c hc
  obtain ⟨hexec, hcode⟩ := exec_modeCommands (s := s) c hc
  exact ⟨_, hexec, s.fresh.modeReq_joins req hcode⟩

end Sys2Proof.Machine
end

section
/-!
O24: a decision of the mode arbiter.
-/

namespace Sys2Proof.Machine

variable {s : State} {req : Requester} {code : BitVec 4} {rest : List ArbReq}

/-! The refusal code of a request (R42, R43, R48). -/

theorem State.refusalCode_precharge (hpwr : s.pwr = pwrStopped) (hsafe : s.safetyBars = false) (htherm : s.fget F.SUP_MODE_THERM ≠ 2)
    (hupd : s.flag F.SUP_MODE_UPD = false) (hmem : s.byteMode = false) (hring : s.ringBars = false) (hdom : s.domainBars = false) :
    s.refusalCode 1 = none := by
  simp [State.refusalCode, firstCode, hpwr, hsafe, htherm, hupd, hmem, hring, hdom]

theorem State.refusalCode_run (hpwr : s.pwr = pwrPrecharge) (hsafe : s.safetyBars = false) (hdom : s.domainBars = false) :
    s.refusalCode 2 = none := by
  simp [State.refusalCode, firstCode, hpwr, hsafe, hdom]

theorem State.refusalCode_stop (hcode : code = 3 ∨ code = 4) (hrun : s.running = true) : s.refusalCode code.toNat = none := by
  rcases hcode with rfl | rfl <;> simp [State.refusalCode, hrun]

theorem State.refusalCode_clear (hpwr : s.pwr = pwrSafeStop) (hsafe : s.safetyBars = false) : s.refusalCode 5 = none := by
  simp [State.refusalCode, firstCode, hpwr, hsafe]

theorem State.refusalCode_ride (hpwr : s.pwr = pwrRun) : s.refusalCode 6 = none := by simp [State.refusalCode, hpwr]

theorem State.refusalCode_resume (hpwr : s.pwr = pwrRide) : s.refusalCode 7 = none := by simp [State.refusalCode, hpwr]

/-- SAFETY has the lowest code, so that it is the one shown where the safety function bars a listed request. -/
theorem State.refusalCode_safety (hsafe : s.safetyBars = true)
    (hlisted : code = 1 ∧ s.pwr = pwrStopped ∨ code = 2 ∧ s.pwr = pwrPrecharge ∨ code = 5 ∧ s.pwr = pwrSafeStop) :
    s.refusalCode code.toNat = some refSafety := by
  rcases hlisted with ⟨rfl, hpwr⟩ | ⟨rfl, hpwr⟩ | ⟨rfl, hpwr⟩ <;> simp [State.refusalCode, firstCode, hsafe, hpwr]

/-- Codes 0x8 to 0xF name no request (R48). -/
theorem State.refusalCode_undefined (hundefined : 8 ≤ code.toNat) : s.refusalCode code.toNat = some refOrder := by
  unfold State.refusalCode
  rw [if_neg (by omega), if_neg (by omega), if_neg (by omega), if_neg (by omega)]

/-- A request that R42 does not list for the power-stage state. -/
theorem State.refusalCode_order
    (hunlisted : code = 1 ∧ s.pwr ≠ pwrStopped ∨ code = 2 ∧ s.pwr ≠ pwrPrecharge ∨ code = 5 ∧ s.pwr ≠ pwrSafeStop ∨
      code = 6 ∧ s.pwr ≠ pwrRun ∨ code = 7 ∧ s.pwr ≠ pwrRide ∨ (code = 3 ∨ code = 4) ∧ s.running = false ∨ 8 ≤ code.toNat) :
    s.refusalCode code.toNat = some refOrder := by
  rcases hunlisted with ⟨rfl, hpwr⟩ | ⟨rfl, hpwr⟩ | ⟨rfl, hpwr⟩ | ⟨rfl, hpwr⟩ | ⟨rfl, hpwr⟩ | ⟨rfl | rfl, hrun⟩ | hundefined
  · simp [State.refusalCode, hpwr]
  · simp [State.refusalCode, hpwr]
  · simp [State.refusalCode, hpwr]
  · simp [State.refusalCode, hpwr]
  · simp [State.refusalCode, hpwr]
  · simp [State.refusalCode, hrun]
  · simp [State.refusalCode, hrun]
  · exact State.refusalCode_undefined hundefined

/-! What an accepted request does to the axis, and to the arbiter's queue. -/

theorem State.setPwr_pwr {v : Nat} (hstop : s.sup.stop = none) (hv : v < 8) : (s.setPwr v).pwr = v := by
  have hfset : s.setPwr v = s.fset F.SUP_MODE_PWR v := if_neg (by simp [hstop])
  rw [hfset]
  exact (s.fget_fset_same _ v (by decide) (by decide)).trans (Nat.mod_eq_of_lt hv)

@[simp] theorem State.setPwr_sup (s : State) (v : Nat) : (s.setPwr v).sup = s.sup := by
  unfold State.setPwr
  split <;> rfl

@[simp] theorem State.modTx_sup (s : State) (p : LaneId) (f : TxQueue → TxQueue) : (s.modTx p f).sup = s.sup := by
  unfold State.modTx
  split <;> rfl

@[simp] theorem State.sendArm_sup (s : State) (x : RingId) (pos : Nat) : (s.sendArm x pos).sup = s.sup := by
  simp [State.sendArm, State.sendL0]

@[simp] theorem State.armRings_sup (s : State) : s.armRings.sup = s.sup := by
  unfold State.armRings
  split
  · exact State.each_keep (P := fun t => t.sup = s.sup) _ _ (fun x t ht => (State.sendArm_sup _ _ _).trans ht) rfl
  · rfl

@[simp] theorem State.bridgeStart_sup (s : State) : s.bridgeStart.sup = s.sup :=
  State.each_keep (P := fun t => t.sup = s.sup) _ _ (fun _ _ ht => ht) rfl

@[simp] theorem State.sendStop_sup (s : State) (reason : BitVec 8) (i : Nat) : (s.sendStop reason i).sup = s.sup := by
  unfold State.sendStop
  split
  · exact State.each_keep (P := fun t => t.sup = s.sup) _ _ (fun x t ht => by simp [State.stopL0, ht]) rfl
  · rfl

/-- Where the power stage runs and no stop is in progress, a stop of either kind begins with an instant named (R259, R530). -/
theorem State.beginStop_names (safe : Bool) (hrun : s.running = true) (hstop : s.sup.stop = none) :
    (s.beginStop safe).sup.stop = some ⟨some s.stopInstantAt, safe, false⟩ := by
  unfold State.beginStop
  rw [hstop]
  dsimp only
  rw [if_pos hrun, State.sendStop_sup]

theorem State.moveAxis_precharge (hstop : s.sup.stop = none) : (s.moveAxis 1).pwr = pwrPrecharge :=
  (State.bridgeStart_power (State.armRings_power (PowerKept.refl _))).pwr.trans (State.setPwr_pwr hstop (by decide))

theorem Reports.arb {t : State} (h : Reports s t) : t.sup.arb = s.sup.arb := by rw [h.sup]

/-- No request that is carried out takes another from the arbiter. -/
theorem State.moveAxis_arb (s : State) (code : Nat) : (s.moveAxis code).sup.arb = s.sup.arb := by
  unfold State.moveAxis
  split
  · simp
  · simp
  · exact (State.beginStop_reports (Reports.refl s) false).arb
  · exact (State.beginStop_reports (Reports.refl s) true).arb
  · simp [State.planStopped]
  · simp
  · simp
  · rfl

/-! A request that is refused: the record in SUP.REFUSE (R47). -/

/-- The record of a refusal, before the requester and the collector are told. -/
def State.refusalRecord (s : State) (who axis value c : Nat) : State :=
  ((((s.finc F.SUP_REFUSE_COUNT).fset F.SUP_REFUSE_REQUESTER who).fset F.SUP_REFUSE_AXIS axis).fset F.SUP_REFUSE_REQ value).fset
    F.SUP_REFUSE_CODE c

theorem State.refuse_eq (s : State) (req : Requester) (who axis value c : Nat) :
    s.refuse req who axis value c = ((s.refusalRecord who axis value c).emit (.refusal req (BitVec.ofNat 8 c))).raise srcModeRefused := rfl

theorem State.refuse_reports (s : State) (req : Requester) (who axis value c : Nat) :
    Reports (s.refusalRecord who axis value c) (s.refuse req who axis value c) :=
  State.raise_reports_of (State.emit_reports (Reports.refl _) _) _

theorem State.refusalRecord_pwr (s : State) (who axis value c : Nat) : (s.refusalRecord who axis value c).pwr = s.pwr := by
  simp (disch := decide) only [State.pwr, State.refusalRecord, State.finc, State.fget_fset_ne]

/-- The record shows the requester, the axis, the request and the code, each within its field. -/
theorem State.refusalRecord_shows (s : State) {who axis value c : Nat} (hwho : who < 2 ^ F.SUP_REFUSE_REQUESTER.width)
    (haxis : axis < 2 ^ F.SUP_REFUSE_AXIS.width) (hvalue : value < 2 ^ F.SUP_REFUSE_REQ.width) (hc : c < 2 ^ F.SUP_REFUSE_CODE.width) :
    let t := s.refusalRecord who axis value c
    t.fget F.SUP_REFUSE_CODE = c ∧ t.fget F.SUP_REFUSE_REQ = value ∧ t.fget F.SUP_REFUSE_REQUESTER = who ∧ t.fget F.SUP_REFUSE_AXIS = axis := by
  simp (disch := decide) only [State.refusalRecord, State.fget_fset_same, State.fget_fset_disjoint]
  exact ⟨Nat.mod_eq_of_lt hc, Nat.mod_eq_of_lt hvalue, Nat.mod_eq_of_lt hwho, Nat.mod_eq_of_lt haxis⟩

theorem reqCode_lt (req : Requester) : reqCode req < 2 ^ F.SUP_REFUSE_REQUESTER.width := by
  cases req <;> simp only [reqCode, F.SUP_REFUSE_REQUESTER, Fld.width] <;> omega

/-! The decision. -/

theorem State.arbDecide_accepted (h : s.refusalCode code.toNat = none) :
    (s.arbDecide ⟨req, code⟩).1 = (s.moveAxis code.toNat).emit (.accepted req) := by
  simp [State.arbDecide, h]

theorem State.arbDecide_refused {c : Nat} (h : s.refusalCode code.toNat = some c) :
    (s.arbDecide ⟨req, code⟩).1 = s.refuse req (reqCode req) 0 code.toNat c := by
  simp [State.arbDecide, h]

theorem State.arbDecide_arb (s : State) (req : Requester) (code : BitVec 4) : (s.arbDecide ⟨req, code⟩).1.sup.arb = s.sup.arb := by
  cases h : s.refusalCode code.toNat with
  | none =>
    rw [State.arbDecide_accepted h]
    exact s.moveAxis_arb _
  | some c =>
    rw [State.arbDecide_refused h]
    exact (s.refuse_reports ..).arb

/-- A request that nothing bars: the axis takes the state that it names, and its requester is told (R42). -/
theorem State.arbDecide_moves {v : Nat} (hok : s.refusalCode code.toNat = none) (hmove : (s.moveAxis code.toNat).pwr = v) :
    (s.arbDecide ⟨req, code⟩).1.pwr = v ∧ Out.accepted req ∈ (s.arbDecide ⟨req, code⟩).1.out := by
  rw [State.arbDecide_accepted hok]
  exact ⟨hmove, List.mem_append_right _ List.mem_cons_self⟩

/-- A request of a stop while the power stage runs: the stop begins, and the axis waits for its instant (R42, R531). -/
theorem State.arbDecide_stop (hcode : code = 3 ∨ code = 4) (hrun : s.running = true) (hstop : s.sup.stop = none) :
    let t := (s.arbDecide ⟨req, code⟩).1
    (∃ i, t.sup.stop = some ⟨some i, code == 4, false⟩) ∧ t.pwr = s.pwr ∧ Out.accepted req ∈ t.out := by
  have hmove : s.moveAxis code.toNat = s.beginStop (code == 4) := by rcases hcode with rfl | rfl <;> rfl
  have hpwr : (s.moveAxis code.toNat).pwr = s.pwr := hmove ▸ ((PowerKept.refl s).beginStop _).pwr
  have hok := State.refusalCode_stop hcode hrun
  refine ⟨⟨s.stopInstantAt, ?_⟩, State.arbDecide_moves hok hpwr⟩
  rw [State.arbDecide_accepted hok, State.emit_sup, hmove]
  exact State.beginStop_names _ hrun hstop

/-- A refused request leaves the axis, and SUP.REFUSE names it with its requester (R47). -/
theorem State.arbDecide_refuses {c : Nat} (h : s.refusalCode code.toNat = some c) (hc : c < 2 ^ F.SUP_REFUSE_CODE.width) :
    let t := (s.arbDecide ⟨req, code⟩).1
    t.pwr = s.pwr ∧ t.fget F.SUP_REFUSE_CODE = c ∧ t.fget F.SUP_REFUSE_REQ = code.toNat ∧ t.fget F.SUP_REFUSE_REQUESTER = reqCode req ∧
      t.fget F.SUP_REFUSE_AXIS = 0 := by
  have htold := s.refuse_reports req (reqCode req) 0 code.toNat c
  obtain ⟨hcode, hreq, hwho, haxis⟩ := s.refusalRecord_shows (reqCode_lt req) (axis := 0) (by decide) code.isLt hc
  rw [State.arbDecide_refused h]
  exact ⟨htold.powerKept.pwr.trans (s.refusalRecord_pwr ..), (htold.fget _ (by decide)).trans hcode, (htold.fget _ (by decide)).trans hreq,
    (htold.fget _ (by decide)).trans hwho, (htold.fget _ (by decide)).trans haxis⟩

/-! ARBITER_DECISION. -/

/-- The request at the front is taken from its group, to be decided. -/
def State.served (s : State) (rest : List ArbReq) : State := { s.fresh with sup := { s.sup with arb := rest } }

theorem State.arbStep_front {r : ArbReq} (h : s.sup.arb = r :: rest) :
    s.arbStep.1 = ({ s with sup := { s.sup with arb := rest } }.arbDecide r).1 := by
  unfold State.arbStep
  rw [if_neg (by simp [h])]
  dsimp only
  rw [h]

theorem execArbiterDecision_decides (hon : s.powered domAon = true) (harb : s.sup.arb = ⟨req, code⟩ :: rest) :
    execArbiterDecision s = .next ((s.served rest).arbDecide ⟨req, code⟩).1 := by
  have hgo : execArbiterDecision s = .next s.fresh.arbStep.1 := congrArg _ (if_pos hon)
  rw [hgo, State.arbStep_front (s := s.fresh) harb]
  rfl

/-- What bars a request is not in the queue that it is taken from. -/
theorem State.served_refusalCode (s : State) (rest : List ArbReq) (c : Nat) : (s.served rest).refusalCode c = s.refusalCode c := rfl

/-- Settles O24: the front request is decided in the state without it, where the same bars it as before. -/
theorem arbiterDecisions : Obligations.ArbiterDecisions := by
  unfold Obligations.ArbiterDecisions
  intro s req code rest hon harb hstop
  have hcode := s.served_refusalCode rest
  have hpwr : ∀ v < 8, ((s.served rest).setPwr v).pwr = v := fun v => State.setPwr_pwr hstop
  refine ⟨_, execArbiterDecision_decides hon harb, State.arbDecide_arb .., ?_, ?_, ?_, ?_, ?_, ?_, ?_, ?_⟩
  · rintro rfl hpre hsafe hdom
    exact State.arbDecide_moves ((hcode 2).trans (State.refusalCode_run hpre hsafe hdom)) (hpwr pwrRun (by decide))
  · rintro rfl hstopped hsafe
    exact State.arbDecide_moves ((hcode 5).trans (State.refusalCode_clear hstopped hsafe)) (hpwr pwrStopped (by decide))
  · rintro rfl hrun
    exact State.arbDecide_moves ((hcode 6).trans (State.refusalCode_ride hrun)) (hpwr pwrRide (by decide))
  · rintro rfl hride
    exact State.arbDecide_moves ((hcode 7).trans (State.refusalCode_resume hride)) (hpwr pwrRun (by decide))
  · exact fun hreq hrun => State.arbDecide_stop hreq hrun hstop
  · rintro rfl hstopped hsafe htherm hupd hmem hring hdom
    exact State.arbDecide_moves ((hcode 1).trans (State.refusalCode_precharge hstopped hsafe htherm hupd hmem hring hdom))
      (State.moveAxis_precharge hstop)
  · exact fun hsafe hlisted => State.arbDecide_refuses ((hcode _).trans (State.refusalCode_safety hsafe hlisted)) (by decide)
  · exact fun hunlisted => State.arbDecide_refuses ((hcode _).trans (State.refusalCode_order hunlisted)) (by decide)

end Sys2Proof.Machine
end

section
/-!
O1, O2, O3: the integer operations, divisions and immediate operations of a sound core.
-/

namespace Sys2Proof.Machine

variable {s : State} {n : CoreId}

theorem boolWord_eq {b : Bool} {p : Prop} [Decidable p] (h : b = true ↔ p) : boolWord b = if p then 1 else 0 :=
  ite_congr (propext h) (fun _ => rfl) (fun _ => rfl)

theorem boolWord_slt (a b : Word) : boolWord (a.slt b) = if a.toInt < b.toInt then 1 else 0 := boolWord_eq BitVec.slt_iff_toInt_lt

theorem boolWord_ult (a b : Word) : boolWord (a.ult b) = if a.toNat < b.toNat then 1 else 0 := boolWord_eq (by simp [BitVec.ult])

/-! The shapes of integer instructions: a result of class D, which two copies compute, and one of class A, whose residue is predicted
(R100); of two registers, or of one and an immediate. -/

theorem CoreSound.coreRun_intD (h : CoreSound s n) (rd ra rb : Sreg) (cyc : Nat) (f : Word → Word → Word) {v : Word}
    (hv : f (s.sVal n ra) (s.sVal n rb) = v) :
    s.coreRun n 4 cyc (fun s => s.withSS n ra rb fun a _ b _ => s.intD n rd cyc (f a b)) = .next (scalarOut s n rd cyc v) :=
  h.run 4 cyc _ (hv ▸ (h.fresh.withSS ra rb _).trans (h.fresh.intD rd cyc _))

theorem CoreSound.coreRun_intD_imm (h : CoreSound s n) (rd ra : Sreg) (cyc : Nat) (f : Word → Word) {v : Word} (hv : f (s.sVal n ra) = v) :
    s.coreRun n 4 cyc (fun s => s.withS n ra fun a _ => s.intD n rd cyc (f a)) = .next (scalarOut s n rd cyc v) :=
  h.run 4 cyc _ (hv ▸ (h.fresh.withS ra _).trans (h.fresh.intD rd cyc _))

theorem CoreSound.coreRun_intA (h : CoreSound s n) (rd ra rb : Sreg) (cyc : Nat) (x : Int → Int → Int) (p : Nat → Nat → Nat)
    (f : Word → Word → Word) (hp : ∀ a b, residue (x a b) = p (residue a) (residue b) % 7) {v : Word}
    (hv : f (s.sVal n ra) (s.sVal n rb) = v) :
    s.coreRun n 4 cyc (fun s => s.withSS n ra rb fun a ar b br => s.intA n rd cyc (x a.toInt b.toInt) (p ar br) (f a b)) =
      .next (scalarOut s n rd cyc v) :=
  h.run 4 cyc _ (hv ▸ (h.fresh.withSS ra rb _).trans (h.fresh.intA rd cyc _ _ _ (hp _ _)))

theorem ofInt_mul_toInt (a b : Word) : a * b = BitVec.ofInt 32 (a.toInt * b.toInt) := by
  rw [BitVec.ofInt_mul, BitVec.ofInt_toInt, BitVec.ofInt_toInt]

/-- Settles O1: each operation has its class's shape. -/
theorem integerRegisterResults : Obligations.IntegerRegisterResults := by
  unfold Obligations.IntegerRegisterResults
  intro s n rd ra rb h
  refine ⟨?_, ?_, ?_, ?_, ?_, ?_, ?_, ?_, ?_, ?_, ?_, ?_, ?_, ?_⟩
  · exact h.coreRun_intA rd ra rb 1 (· + ·) (· + ·) (· + ·) residue_add rfl
  · exact h.coreRun_intA rd ra rb 1 (· - ·) (fun a b => a + (7 - b % 7)) (· - ·) residue_sub rfl
  · exact h.coreRun_intD rd ra rb 1 (· &&& ·) rfl
  · exact h.coreRun_intD rd ra rb 1 (· ||| ·) rfl
  · exact h.coreRun_intD rd ra rb 1 (· ^^^ ·) rfl
  · exact h.coreRun_intD rd ra rb 1 (fun a b => a <<< (b.toNat % 32)) rfl
  · exact h.coreRun_intD rd ra rb 1 (fun a b => a >>> (b.toNat % 32)) rfl
  · exact h.coreRun_intD rd ra rb 1 (fun a b => a.sshiftRight (b.toNat % 32)) rfl
  · exact h.coreRun_intD rd ra rb 1 (fun a b => boolWord (a.slt b)) (boolWord_slt _ _)
  · exact h.coreRun_intD rd ra rb 1 (fun a b => boolWord (a.ult b)) (boolWord_ult _ _)
  · exact h.coreRun_intA rd ra rb 3 (· * ·) (· * ·) (· * ·) residue_mul (ofInt_mul_toInt _ _)
  · exact h.coreRun_intA rd ra rb 3 (· * ·) (· * ·) (fun a b => BitVec.ofInt 32 (a.toInt * b.toInt / 4294967296)) residue_mul rfl
  · exact h.coreRun_intA rd ra rb 1 (· + ·) (· + ·) (fun a b => satWord (a.toInt + b.toInt)) residue_add (satWord_eq _)
  · exact h.coreRun_intA rd ra rb 1 (· - ·) (fun a b => a + (7 - b % 7)) (fun a b => satWord (a.toInt - b.toInt)) residue_sub
      (satWord_eq _)

/-! Divisions (R102). -/

/-- The predicted residue of a division is right where its residues are those of the dividend and the divisor (R102). -/
theorem CoreSound.divide (h : CoreSound s n) (rd : Sreg) {zero : Bool} {a b q r : Int} {bRes aRes : Nat} (v : Word) (hz : zero = false)
    (hq : b * q + r = a) (ha : residue a = aRes % 7) (hb : residue b = bRes % 7) :
    s.divide n rd zero q r bRes aRes v = .ok ((s.writeS n rd v).retire n 4 34) := by
  have hres : (residue q * bRes + residue r) % 7 = aRes % 7 := by
    rw [← ha, ← hq, residue_add, residue_mul, hb]
    simp [Nat.add_mod, Nat.mul_mod, Nat.mul_comm]
  subst hz
  unfold State.divide
  rw [if_neg (by decide), h.checked _ _ _ (by simp [hres])]

theorem State.divide_zero (s : State) (n : CoreId) (rd : Sreg) (q r : Int) (bRes aRes : Nat) (v : Word) :
    s.divide n rd true q r bRes aRes v = .error (s, .trap causeDivzero none) := rfl

/-- The residue of a register read as an unsigned number: it is 2^32 more where its top bit is set. -/
theorem residue_toNat (a : Word) : residue a.toNat = unsignedRes a (residue a.toInt) % 7 := by
  have hs := residue_cast a.toInt
  have hu := residue_cast (a.toNat : Int)
  have hi := BitVec.toInt_eq_msb_cond a
  unfold unsignedRes
  split at hi <;> rename_i hm
  · simp only [hm, if_true]
    omega
  · simp only [hm]
    have := residue_lt (a.toNat : Int)
    simp
    omega

variable (rd ra rb : Sreg)

/-- A signed division by another divisor than 0. -/
theorem CoreSound.coreRun_divide (h : CoreSound s n) (f : Word → Word → Word) (hb : s.sVal n rb ≠ 0) :
    s.coreRun n 4 34 (fun s => s.withSS n ra rb fun a ar b br =>
      s.divide n rd (b == 0) (a.toInt.tdiv b.toInt) (a.toInt.tmod b.toInt) br ar (f a b)) =
      .next (scalarOut s n rd 34 (f (s.sVal n ra) (s.sVal n rb))) :=
  h.run 4 34 _ ((h.fresh.withSS ra rb _).trans
    (h.fresh.divide rd _ (beq_false_of_ne hb) (Int.mul_tdiv_add_tmod _ _) (residue_mod _).symm (residue_mod _).symm))

theorem CoreSound.exec_divu (h : CoreSound s n) (hb : s.sVal n rb ≠ 0) :
    exec (.divu n rd ra rb) s = .next (scalarOut s n rd 34 (BitVec.ofNat 32 ((s.sVal n ra).toNat / (s.sVal n rb).toNat))) :=
  BitVec.udiv_def ▸ h.run 4 34 _ ((h.fresh.withSS ra rb _).trans
    (h.fresh.divide rd _ (beq_false_of_ne hb) (by exact_mod_cast Nat.div_add_mod _ _) (residue_toNat _) (residue_toNat _)))

/-- Every division by 0 outside a speculative run traps. -/
theorem CoreSound.coreRun_divzero (h : CoreSound s n) (hs : s.inSpec n = false) (hb : s.sVal n rb = 0) (q r : Word → Word → Int)
    (bRes aRes : Word → Nat → Nat) (f : Word → Word → Word) :
    s.coreRun n 4 34 (fun s => s.withSS n ra rb fun a ar b br =>
      s.divide n rd (b == 0) (q a b) (r a b) (bRes b br) (aRes a ar) (f a b)) = .next (trapOut s n 34 causeDivzero none) :=
  h.coreRun_trap hs 4 34 _ _ _ (by decide) ((h.fresh.withSS ra rb _).trans (by
    rw [show s.fresh.sVal n rb = 0 from hb]
    exact State.divide_zero ..))

/-- Settles O2: q × b + r = a gives the residue check; the corner is one case of the first clause. -/
theorem divisionResults : Obligations.DivisionResults := by
  unfold Obligations.DivisionResults
  intro s n rd ra rb h
  have hdiv := h.coreRun_divide rd ra rb (fun a b => BitVec.ofInt 32 (a.toInt.tdiv b.toInt))
  have hrem := h.coreRun_divide rd ra rb (fun a b => BitVec.ofInt 32 (a.toInt.tmod b.toInt))
  refine ⟨fun hb => ⟨hdiv hb, h.exec_divu rd ra rb hb, hrem hb⟩, fun ha hb => ?_, fun hb hs => ⟨?_, ?_, ?_⟩⟩
  · have hne : s.sVal n rb ≠ 0 := by rw [hb]; decide
    refine ⟨(hdiv hne).trans ?_, (hrem hne).trans ?_⟩ <;> rw [ha, hb] <;> rfl
  · exact h.coreRun_divzero rd ra rb hs hb _ _ (fun _ r => r) (fun _ r => r) _
  · exact h.coreRun_divzero rd ra rb hs hb _ _ unsignedRes unsignedRes _
  · exact h.coreRun_divzero rd ra rb hs hb _ _ (fun _ r => r) (fun _ r => r) _

/-! Immediate operations. -/

theorem signExtend_toInt (imm : BitVec 16) : (imm.signExtend 32).toInt = imm.toInt := BitVec.toInt_signExtend_of_le (by decide)

theorem CoreSound.exec_addi (h : CoreSound s n) (imm : BitVec 16) :
    exec (.addi n rd ra imm) s = .next (scalarOut s n rd 1 (s.sVal n ra + imm.signExtend 32)) :=
  h.run 4 1 _ ((h.fresh.withS ra _).trans (h.fresh.intA rd 1 _ _ _ (residue_add _ _)))

theorem CoreSound.exec_lui (h : CoreSound s n) (imm : BitVec 16) :
    exec (.lui n rd imm) s = .next (scalarOut s n rd 1 (imm.setWidth 32 <<< 16)) := h.run 4 1 _ (h.fresh.intD rd 1 _)

/-- An immediate shift by less than 32, where its word is defined (R97). -/
theorem CoreSound.coreRun_shift (h : CoreSound s n) (f : Word → Word) {p : Prop} [Decidable p] (hp : p) :
    s.coreRun n 4 1 (fun s => if p then s.withS n ra fun a _ => s.intD n rd 1 (f a) else s.trapWith causeIllegal none) =
      .next (scalarOut s n rd 1 (f (s.sVal n ra))) :=
  h.run 4 1 _ ((if_pos hp).trans ((h.fresh.withS ra _).trans (h.fresh.intD rd 1 _)))

/-- LI reads the extension word where it passes its check (R98). -/
theorem CoreSound.exec_li (h : CoreSound s n) (hext : eccAt (s.cores[n]).imemErr ((s.cores[n]).pc + 4).toNat = none) :
    exec (.li n rd) s = .next ((s.fresh.writeS n rd ((s.cores[n]).iword ((s.cores[n]).pc + 4).toNat)).retire n 8 2) := by
  have hfetch : s.fresh.fetchCheck n ((s.fresh.cores[n]).pc + 4).toNat = .ok s.fresh := by
    unfold State.fetchCheck
    rw [show s.fresh.cores[n] = s.cores[n] from rfl, hext]
  refine h.run 8 2 _ ?_
  dsimp only
  rw [hfetch]
  rfl

/-- Settles O3: those of class D have one shape, ADDI predicts its residue, and the shifts and LI pass their own checks. -/
theorem immediateResults : Obligations.ImmediateResults := by
  unfold Obligations.ImmediateResults
  intro s n rd ra imm h
  refine ⟨h.exec_addi rd ra imm, ?_, ?_, ?_, h.exec_lui rd imm, fun hlt => ⟨?_, ?_, ?_⟩, h.exec_li rd⟩
  · exact h.coreRun_intD_imm rd ra 1 (· &&& imm.setWidth 32) rfl
  · exact h.coreRun_intD_imm rd ra 1 (· ||| imm.setWidth 32) rfl
  · refine h.coreRun_intD_imm rd ra 1 (fun a => boolWord (a.slt (imm.signExtend 32))) ?_
    rw [boolWord_slt, signExtend_toInt]
  · exact h.coreRun_shift rd ra (· <<< imm.toNat) hlt
  · exact h.coreRun_shift rd ra (· >>> imm.toNat) hlt
  · exact h.coreRun_shift rd ra (·.sshiftRight imm.toNat) hlt

end Sys2Proof.Machine
end

section
/-!
O4: branches and jumps.
-/

namespace Sys2Proof.Machine

variable {s : State} {n : CoreId}

/-- A jump to a target outside IMEM traps ALIGN (R51, R103). -/
theorem State.jumpTo_align (s : State) (n : CoreId) {target : Int} (cyc : Nat) (before : State → State) (ht : ¬ imemAddr target) :
    s.jumpTo n target cyc before = .error (s, .trap causeAlign (some (unsignedOf 32 target))) := if_neg ht

/-- The state after a branch: at its target where it is taken, else a word on. -/
def branchOut (s : State) (n : CoreId) (target : Int) (taken : Prop) [Decidable taken] : State :=
  if taken then jumpOut s n (BitVec.ofInt 16 target) 2 else s.fresh.retire n 4 1

/-- A branch whose target is a word of IMEM. -/
theorem CoreSound.coreRun_branch (h : CoreSound s n) (ra rd : Sreg) (imm : BitVec 16) (cond : Word → Word → Bool)
    (ht : imemAddr (s.relative n imm)) {taken : Prop} [Decidable taken] (hc : cond (s.sVal n ra) (s.sVal n rd) = true ↔ taken) :
    s.coreRun n 4 1 (fun s => s.branch n ra rd imm cond) = .next (branchOut s n (s.relative n imm) taken) := by
  refine h.run 4 1 _ ((h.fresh.withSS ra rd _).trans ?_)
  unfold branchOut
  by_cases hgo : taken
  · rw [if_pos hgo]
    exact (if_pos (hc.mpr hgo)).trans (s.fresh.jumpTo_ok n _ 2 id ht)
  · rw [if_neg hgo]
    exact if_neg (mt hc.mp hgo)

theorem CoreSound.exec_j (h : CoreSound s n) (imm : BitVec 16) (ht : imemAddr (s.relative n imm)) :
    exec (.j n imm) s = .next (jumpOut s n (BitVec.ofInt 16 (s.relative n imm)) 2) := h.run 4 2 _ (s.fresh.jumpTo_ok n _ 2 id ht)

/-- CALL leaves the address of the next instruction in s31 (R56). -/
theorem CoreSound.exec_call (h : CoreSound s n) (imm : BitVec 16) (ht : imemAddr (s.relative n imm)) :
    exec (.call n imm) s =
      .next ((s.fresh.writeS n 31 (BitVec.ofNat 32 ((s.cores[n]).pc.toNat + 4))).modCore n fun c =>
        { c with pc := BitVec.ofInt 16 (s.relative n imm), cycles := c.cycles + s.coreCycles n 2 }) :=
  h.run 4 2 _ ((h.fresh.checked _ _ _ rfl).trans (s.fresh.jumpTo_ok n _ 2 _ ht))

theorem CoreSound.exec_jr (h : CoreSound s n) (ra : Sreg) (ht : imemAddr (s.sVal n ra).toNat) :
    exec (.jr n ra) s = .next (jumpOut s n ((s.sVal n ra).setWidth 16) 2) := by
  have hpc : BitVec.ofInt 16 ((s.sVal n ra).toNat : Int) = (s.sVal n ra).setWidth 16 := by
    rw [BitVec.ofInt_natCast, BitVec.ofNat_toNat]
  rw [← hpc]
  exact h.run 4 2 _ ((h.fresh.withS ra _).trans (s.fresh.jumpTo_ok n _ 2 id ht))

/-- Settles O4: a branch or jump either reaches its word of IMEM or traps. -/
theorem branchesAndJumps : Obligations.BranchesAndJumps := by
  unfold Obligations.BranchesAndJumps
  intro s n ra rd imm h
  refine ⟨fun ht => ⟨?_, ?_, ?_, ?_, ?_, ?_, h.exec_j imm ht, h.exec_call imm ht⟩, h.exec_jr ra, fun ht hs => ⟨?_, ?_⟩⟩
  · exact h.coreRun_branch ra rd imm _ ht beq_iff_eq
  · exact h.coreRun_branch ra rd imm _ ht bne_iff_ne
  · exact h.coreRun_branch ra rd imm _ ht BitVec.slt_iff_toInt_lt
  · exact h.coreRun_branch ra rd imm _ ht (by simp [BitVec.slt])
  · exact h.coreRun_branch ra rd imm _ ht (by simp [BitVec.ult])
  · exact h.coreRun_branch ra rd imm _ ht (by simp [BitVec.ult])
  · exact h.coreRun_trap hs 4 2 _ _ _ (by decide) (s.fresh.jumpTo_align n 2 id ht)
  · exact h.coreRun_trap hs 4 2 _ _ _ (by decide) ((h.fresh.checked _ _ _ rfl).trans (s.fresh.jumpTo_align n 2 _ ht))

end Sys2Proof.Machine
end

section
/-!
O5: loads from the core's own DMEM.
-/

namespace Sys2Proof.Machine

variable {s : State} {n : CoreId}

/-- The one word of a narrow access is clean. -/
theorem State.dmemCheck_clean (s : State) (n : CoreId) (a : Nat) (hclean : dmemClean s n a 1) : s.dmemCheck n a = .ok s :=
  s.dmemCheck_ok n a (hclean 0 Nat.one_pos)

/-- A load of one word or less: aligned, within DMEM, its word clean, and for a sample with a good tag (R104, R106). -/
theorem CoreSound.loadOp (h : CoreSound s n) (k : LoadKind) (rt ra : Sreg) (off : BitVec 16) {ea raw : Nat}
    (hea : effAddr (s.sVal n ra) off = ea) (hraw : (s.cores[n]).dpeek ea k.size = raw) (hclean : dmemClean s n ea 1)
    (hin : inDmem ea k.size = true) (hal : ea % k.size = 0) (htag : k = .sample → (sampleTag raw).toNat = raw % 256) :
    s.loadOp n k rt ra off = .ok ((s.writeS n rt (k.extend raw)).retire n 4 2) := by
  have hgood : ¬ (k = .sample ∧ (sampleTag raw).toNat ≠ raw % 256) := fun ⟨hk, hne⟩ => hne (htag hk)
  unfold State.loadOp
  rw [h.withS]
  dsimp only
  rw [hea, if_neg (not_not_intro hal), if_pos hin, s.dmemCheck_clean n ea hclean]
  dsimp only
  rw [hraw, State.loadDone, if_neg hgood]
  rfl

/-- A vector image in DMEM, its 49 words clean, is read in one burst (R105). -/
theorem State.withDmem_image (s : State) (n : CoreId) (vd : Vreg) (ea : Nat) (hclean : dmemClean s n ea 49) :
    (s.withDmem n ea imageWords fun ws s => .ok ((s.writeV n vd (vregOfImage ws)).retire n 4 14)) =
      .ok ((s.writeV n vd (vregOfImage ((List.range 49).map fun i => (s.cores[n]).dpeek (ea + 4 * i) 4))).retire n 4 14) :=
  s.withDmem_ok n ea imageWords _ hclean

theorem CoreSound.exec_vld (h : CoreSound s n) (vd : Vreg) (ra : Sreg) (off : BitVec 16) {ea : Nat}
    (hea : effAddr (s.sVal n ra) off = ea) (hclean : dmemClean s n ea 49) (hin : inDmem ea 196 = true) (hal : ea % 4 = 0) :
    exec (.vld n vd ra off) s = .next ((s.fresh.writeV n vd
      (vregOfImage ((List.range 49).map fun i => (s.cores[n]).dpeek (ea + 4 * i) 4))).retire n 4 14) := by
  have hea' : effAddr (s.fresh.sVal n ra) off = ea := hea
  have hin' : inDmem ea (4 * imageWords) = true := hin
  refine h.run 4 13 _ ((h.fresh.withS ra _).trans ?_)
  dsimp only
  rw [hea', if_neg (not_not_intro hal), if_pos hin', s.fresh.withDmem_image n vd ea hclean]
  rfl

/-- The image's first word is the exponent, and the mantissas follow it (R105). -/
theorem vregOfImage_range (f : Nat → Nat) :
    vregOfImage ((List.range 49).map f) = VReg.ofMants (signedOf 8 (f 0)) ((List.range 48).map fun i => signedOf 24 (f (i + 1))) := by
  have hws : (List.range 49).map f = f 0 :: (List.range 48).map fun i => f (i + 1) := by
    rw [List.range_succ_eq_map, List.map_cons, List.map_map]
    rfl
  unfold vregOfImage
  rw [hws, List.headD_cons, List.drop_one, List.tail_cons, List.map_map]
  rfl

/-- Settles O5: one law for the loads of a word or less, and the image of VLD word by word. -/
theorem dmemLoads : Obligations.DmemLoads := by
  unfold Obligations.DmemLoads
  intro s n rt ra vd off h
  have hload := fun k hc hi ha htag => h.run 4 1 (fun s => s.loadOp n k rt ra off) (h.fresh.loadOp k rt ra off rfl rfl hc hi ha htag)
  refine ⟨fun hc hi ha => ⟨?_, fun htag => ?_⟩, fun hc hi ha => ⟨?_, ?_⟩, fun hc hi => ⟨?_, ?_⟩, fun hc hi ha => ?_⟩
  · exact hload .word hc hi ha nofun
  · exact hload .sample hc hi ha fun _ => htag
  · exact hload .half hc hi ha nofun
  · exact hload .halfU hc hi ha nofun
  · exact hload .byte hc hi (Nat.mod_one _) nofun
  · exact hload .byteU hc hi (Nat.mod_one _) nofun
  · rw [h.exec_vld vd ra off rfl hc hi ha, vregOfImage_range]
    rfl

end Sys2Proof.Machine
end

section
/-!
O6: a store while the stores of a committed run still drain.
-/

namespace Sys2Proof.Machine

/-- Core 0 is RUNNING with a base address in s5, and a store of the speculative part of its run still drains. -/
def stillDraining : State :=
  (((State.reset.fset F.SUP_DOM_PWR 0xFFF).setCoreState 0 coreRunning).writeS 0 5 0xF0000000).modCore 0 fun c =>
    { c with drain := [.store 0xF0000010 4 1] }

theorem stillDraining_sound : CoreSound stillDraining 0 where
  ready := by decide
  upset := rfl
  fetch := rfl
  scal := by decide
  vec := by decide
  pred := by decide

/-- SW waits behind the store that drains (R53; log entry 41): both are performed, and nothing drains any more. -/
theorem stillDraining_sw : ∃ t, exec (.sw 0 0 5 0) stillDraining = .next t ∧ (t.cores[(0 : CoreId)]).drain = [] := ⟨_, rfl, by decide⟩

/-- The store alone would leave what drains as it is. -/
theorem stillDraining_dmemOut (a : Nat) (bytes : List Byte) (cyc : Nat) :
    ((dmemOut stillDraining 0 a bytes cyc).cores[(0 : CoreId)]).drain = [.store 0xF0000010 4 1] := rfl

/-- Refutes O6: the statement says that a store changes exactly the bytes it stores, but one behind stores that still drain performs
those first (R53). In `stillDraining` SW also stores the word that waited, and the core's drain is empty behind it. -/
theorem not_dmemStores : ¬ Obligations.DmemStores := by
  unfold Obligations.DmemStores
  intro h
  obtain ⟨hsw, -⟩ := h stillDraining 0 0 5 0 0 stillDraining_sound (by decide)
  obtain ⟨t, ht, hdrain⟩ := stillDraining_sw
  cases ht.symm.trans (hsw (by decide) (by decide))
  rw [stillDraining_dmemOut] at hdrain
  cases hdrain

end Sys2Proof.Machine
end

section
/-!
SUPPORT. Exact values in order: two compare alike at every exponent that neither exceeds, so that the comparison is a total order.
-/

namespace Sys2Proof.Machine

/-- Alignment in two steps. -/
theorem Ev.alignTo_m_trans (x : Ev) {d e : Int} (hd : d ≤ e) (he : e ≤ x.e) :
    (x.alignTo d).m = (x.alignTo e).m * (2 ^ (e - d).toNat : Nat) := by
  have hsum : (x.e - d).toNat = (x.e - e).toNat + (e - d).toNat := by omega
  simp only [Ev.alignTo, hsum, Nat.pow_add, Int.natCast_mul, Int.mul_assoc]

theorem Ev.lt_iff {x y : Ev} {d : Int} (hx : d ≤ x.e) (hy : d ≤ y.e) : x.lt y = true ↔ (x.alignTo d).m < (y.alignTo d).m := by
  have hd : d ≤ Min.min x.e y.e := Int.le_min.mpr ⟨hx, hy⟩
  have hpos : (0 : Int) < (2 ^ (Min.min x.e y.e - d).toNat : Nat) := Int.natCast_pos.mpr (Nat.two_pow_pos _)
  rw [x.alignTo_m_trans hd (Int.min_le_left ..), y.alignTo_m_trans hd (Int.min_le_right ..)]
  exact decide_eq_true_iff.trans ⟨fun h => Int.mul_lt_mul_of_pos_right h hpos, fun h => Int.lt_of_mul_lt_mul_right h (Int.le_of_lt hpos)⟩

theorem Ev.not_lt_iff {x y : Ev} {d : Int} (hx : d ≤ x.e) (hy : d ≤ y.e) : x.lt y = false ↔ (y.alignTo d).m ≤ (x.alignTo d).m := by
  rw [← Bool.not_eq_true, Ev.lt_iff hx hy, Int.not_lt]

theorem Ev.lt_self (x : Ev) : x.lt x = false := (Ev.not_lt_iff (Int.le_refl _) (Int.le_refl _)).mpr (Int.le_refl _)

theorem Ev.not_lt_of_lt {x y : Ev} (h : x.lt y = true) : y.lt x = false := by
  have hx : Min.min x.e y.e ≤ x.e := Int.min_le_left ..
  have hy : Min.min x.e y.e ≤ y.e := Int.min_le_right ..
  exact (Ev.not_lt_iff hy hx).mpr (Int.le_of_lt ((Ev.lt_iff hx hy).mp h))

/-- A value below another is below every value that is not below that other. -/
theorem Ev.lt_of_lt_of_not_lt {x y z : Ev} (h : x.lt y = true) (hz : z.lt y = false) : x.lt z = true := by
  obtain ⟨d, hx, hy, hz'⟩ : ∃ d, d ≤ x.e ∧ d ≤ y.e ∧ d ≤ z.e := ⟨Min.min x.e (Min.min y.e z.e), by omega, by omega, by omega⟩
  exact (Ev.lt_iff hx hz').mpr (Int.lt_of_lt_of_le ((Ev.lt_iff hx hy).mp h) ((Ev.not_lt_iff hz' hy).mp hz))

theorem Ev.le_of_not_lt {x y : Ev} (h : y.lt x = false) : x.le y = true := by rw [Ev.le, h]; rfl

theorem Ev.not_le_of_lt {x y : Ev} (h : y.lt x = true) : ¬ x.le y = true := by rw [Ev.le, h]; decide

end Sys2Proof.Machine
end

section
/-!
O12: the control laws.
-/

namespace Sys2Proof.Machine

variable {s : State} {n : CoreId}

/-! Parameter blocks (R114). -/

/-- The parameters of the block at `a`. -/
def paramWord (s : State) (n : CoreId) (a i : Nat) : Ev := sfOfWord (BitVec.ofNat 32 ((s.cores[n]).dpeek (a + 4 * i) 4))

theorem paramWord_ok (s : State) (n : CoreId) (a i : Nat) : (paramWord s n a i).ok = true := sfOfWord_ok _

/-! PI.STEP (R115, R116). -/

/-- The integrator's stage, and the output's. -/
def piAcc (ps : Nat → Ev) (x b : Fin 48 → Ev) (i : Fin 48) : Ev := ((b i).add ((ps 1).mul (x i))).clamp (ps 2) (ps 3)
def piOut (ps : Nat → Ev) (x acc : Fin 48 → Ev) (i : Fin 48) : Ev := (((ps 0).mul (x i)).add (acc i)).clamp (ps 4) (ps 5)

theorem piAcc_ok {ps : Nat → Ev} {x b : Fin 48 → Ev} (hps : ∀ i, (ps i).ok = true) (hx : ∀ i, (x i).ok = true)
    (hb : ∀ i, (b i).ok = true) (i : Fin 48) : (piAcc ps x b i).ok = true :=
  Ev.clamp_ok _ _ _ (Ev.add_ok _ _ (hb i) (Ev.mul_ok _ _ (hps 1) (hx i))) (hps 2) (hps 3)

theorem piOut_ok {ps : Nat → Ev} {x acc : Fin 48 → Ev} (hps : ∀ i, (ps i).ok = true) (hx : ∀ i, (x i).ok = true)
    (hacc : ∀ i, (acc i).ok = true) (i : Fin 48) : (piOut ps x acc i).ok = true :=
  Ev.clamp_ok _ _ _ (Ev.add_ok _ _ (Ev.mul_ok _ _ (hps 0) (hx i)) (hacc i)) (hps 4) (hps 5)

theorem CoreSound.exec_piStep (h : CoreSound s n) {vd va vb : Vreg} (pg : Preg) (rp : Sreg) {ps : Nat → Ev}
    (hps : paramWord s n (s.sVal n rp).toNat = ps)
    (hin : inDmem (s.sVal n rp).toNat 24 = true) (hal : (s.sVal n rp).toNat % 4 = 0) (hclean : dmemClean s n (s.sVal n rp).toNat 6)
    (hi : (ps 3).lt (ps 2) = false) (hu : (ps 5).lt (ps 4) = false) (hne : vd ≠ vb) :
    let acc := stageLanes (s.vVal n vb) (s.pVal n pg) (piAcc ps (s.vVal n va).lane (s.vVal n vb).lane)
    let out := stageLanes (s.vVal n vd) (s.pVal n pg) (piOut ps (s.vVal n va).lane (VReg.ofStage acc).1.lane)
    exec (.piStep n vd va vb pg rp) s =
      .next (((((s.fresh.writeV n vb (VReg.ofStage acc).1).writeV n vd (VReg.ofStage out).1).setSat n (VReg.ofStage acc).2).setSat n
        (VReg.ofStage out).2).retire n 4 14) := by
  intro acc out
  have hok : ∀ i, (ps i).ok = true := fun i => hps ▸ paramWord_ok s n _ i
  have hacc : acc.all Ev.ok = true :=
    List.all_eq_true.mpr (stageLanes_ok _ _ _ (h.vVal_ok vb) (piAcc_ok hok (h.vVal_ok va) (h.vVal_ok vb)))
  have hout : out.all Ev.ok = true :=
    List.all_eq_true.mpr (stageLanes_ok _ _ _ (h.vVal_ok vd) (piOut_ok hok (h.vVal_ok va) (VReg.ofStage_ok acc)))
  refine h.run 4 14 _ ((if_neg hne).trans ((h.fresh.withVVP ..).trans ((h.fresh.withParams rp 6 _ hin hal hclean).trans ?_)))
  simp (disch := decide) only [paramAt_range]
  subst hps
  exact (if_pos (by rw [Bool.and_eq_true]; exact ⟨Ev.le_of_not_lt hi, Ev.le_of_not_lt hu⟩)).trans
    (h.fresh.checked _ _ _ (by rw [Bool.and_eq_true]; exact ⟨hacc, hout⟩))

/-! SETP (R117). -/

theorem CoreSound.exec_setp (h : CoreSound s n) (vd va : Vreg) (pg : Preg) (rp : Sreg) {ps : Nat → Ev}
    (hps : paramWord s n (s.sVal n rp).toNat = ps)
    (hin : inDmem (s.sVal n rp).toNat 8 = true) (hal : (s.sVal n rp).toNat % 4 = 0) (hclean : dmemClean s n (s.sVal n rp).toNat 2) :
    ((ps 1).lt (ps 0) = false → exec (.setp n vd va pg rp) s =
      .next (vecOut s n vd 6 (stageLanes (s.vVal n vd) (s.pVal n pg) fun i => ((s.vVal n va).lane i).clamp (ps 0) (ps 1)))) ∧
    ((ps 1).lt (ps 0) = true → s.inSpec n = false →
      exec (.setp n vd va pg rp) s = .next (trapOut s n 6 causeParam (some (s.sVal n rp).toNat))) := by
  have hok : ∀ i, (ps i).ok = true := fun i => hps ▸ paramWord_ok s n _ i
  subst hps
  refine ⟨fun hord => h.run 4 6 _ ?_, fun hbad hs => h.coreRun_trap hs 4 6 _ _ _ (by decide) ?_⟩ <;>
    refine (h.fresh.withVP ..).trans ((h.fresh.withParams rp 2 _ hin hal hclean).trans ?_) <;>
    simp (disch := decide) only [paramAt_range]
  · exact (if_pos (Ev.le_of_not_lt hord)).trans (h.fresh.vecDone vd 6 _
      (stageLanes_ok _ _ _ (h.vVal_ok vd) fun i => Ev.clamp_ok _ _ _ (h.vVal_ok va i) (hok 0) (hok 1)))
  · exact if_neg (Ev.not_le_of_lt hbad)

/-! MINSEL (R119). -/

/-- The vector operands in sequence from a base. -/
theorem CoreSound.withVs (h : CoreSound s n) (va : Vreg) (m : Nat) (k : List VReg → Run) (hm : va.val + m ≤ 8) :
    s.withVs n va m k = k ((List.range m).map fun j => s.vVal n ⟨(va.val + j) % 8, Nat.mod_lt _ (by decide)⟩) := by
  induction m generalizing k with
  | zero => rfl
  | succ m ih =>
    have hlt : va.val + m < 8 := by omega
    have hfin : (⟨va.val + m, hlt⟩ : Vreg) = ⟨(va.val + m) % 8, Nat.mod_lt _ (by decide)⟩ := Fin.ext (Nat.mod_eq_of_lt hlt).symm
    have hlast := congrArg (s.vVal n) hfin
    rw [State.withVs, ih _ (by omega), dif_pos hlt, h.withV, List.range_succ, List.map_append, List.map_singleton, ← hlast]
    rfl

/-- A further candidate wins where it is below the winner before it. -/
theorem minSel_concat (vs : List VReg) (v : VReg) (i : Fin 48) (hvs : vs ≠ []) :
    minSel (vs ++ [v]) i = if (v.lane i).lt (minSel vs i).2 then (vs.length, v.lane i) else minSel vs i := by
  obtain ⟨w, ws, rfl⟩ := List.exists_cons_of_ne_nil hvs
  simp [minSel, List.zipIdx_append, List.foldl_append, Nat.add_comm]

/-- The candidate `j` of `f` is the smallest of the first `m + 1`, and the first of the smallest. -/
structure FirstMin (f : Nat → Ev) (m j : Nat) : Prop where
  le : j ≤ m
  least : ∀ k ≤ m, (f k).lt (f j) = false
  first : ∀ k < j, (f j).lt (f k) = true

theorem FirstMin.zero (f : Nat → Ev) : FirstMin f 0 0 where
  le := Nat.le_refl 0
  least k hk := by rw [Nat.le_zero.mp hk, Ev.lt_self]
  first k hk := absurd hk (Nat.not_lt_zero k)

theorem FirstMin.keep {f : Nat → Ev} {m j : Nat} (h : FirstMin f m j) (hnew : (f (m + 1)).lt (f j) = false) : FirstMin f (m + 1) j where
  le := Nat.le_succ_of_le h.le
  least k hk := by
    rcases Nat.le_succ_iff.mp hk with hk | rfl
    · exact h.least k hk
    · exact hnew
  first := h.first

theorem FirstMin.replace {f : Nat → Ev} {m j : Nat} (h : FirstMin f m j) (hnew : (f (m + 1)).lt (f j) = true) :
    FirstMin f (m + 1) (m + 1) := by
  have hbelow : ∀ k ≤ m, (f (m + 1)).lt (f k) = true := fun k hk => Ev.lt_of_lt_of_not_lt hnew (h.least k hk)
  refine ⟨Nat.le_refl _, fun k hk => ?_, fun k hk => hbelow k (Nat.le_of_lt_succ hk)⟩
  rcases Nat.le_succ_iff.mp hk with hk | rfl
  · exact Ev.not_lt_of_lt (hbelow k hk)
  · exact Ev.lt_self _

/-- The winner of a lane is its first smallest candidate (R119). -/
theorem minSel_firstMin (v : Nat → VReg) (m : Nat) (i : Fin 48) :
    (minSel ((List.range (m + 1)).map v) i).2 = (v (minSel ((List.range (m + 1)).map v) i).1).lane i ∧
      FirstMin (fun j => (v j).lane i) m (minSel ((List.range (m + 1)).map v) i).1 := by
  induction m with
  | zero => exact ⟨rfl, FirstMin.zero _⟩
  | succ m ih =>
    obtain ⟨hval, hmin⟩ := ih
    rw [List.range_succ, List.map_append, List.map_singleton, minSel_concat _ _ _ (by simp), hval]
    split
    · rename_i hnew
      rw [List.length_map, List.length_range]
      exact ⟨rfl, hmin.replace hnew⟩
    · rename_i hnew
      exact ⟨hval, hmin.keep (Bool.eq_false_iff.mpr hnew)⟩

/-- MINSEL over defined operands: the winners of the selected lanes as one stage, their indices in the predicate pair. -/
theorem CoreSound.exec_minsel (h : CoreSound s n) (vd base : Vreg) (cnt : BitVec 2) (pg pw : Preg) (hcnt : cnt ≠ 3)
    (hpw : pw = 2 ∨ pw = 4 ∨ pw = 6) (hbase : base.val + cnt.toNat ≤ 7) (hpair : pw.val + 1 < 8) {vs : List VReg}
    (hvs : (List.range (cnt.toNat + 1)).map (fun j => s.vVal n ⟨(base.val + j) % 8, Nat.mod_lt _ (by decide)⟩) = vs)
    (hok : ∀ i, (minSel vs i).2.ok = true) :
    let xs := stageLanes (s.vVal n vd) (s.pVal n pg) fun i => (minSel vs i).2
    let pw1 : Preg := ⟨pw.val + 1, hpair⟩
    let bits (q : Preg) (k : Nat) : BitVec 48 := predOf fun i =>
      if (s.pVal n pg).getLsbD i.val then (minSel vs i).1.testBit k else (s.pVal n q).getLsbD i.val
    exec (.minsel n vd base cnt pg pw) s =
      .next (((((s.fresh.writeV n vd (VReg.ofStage xs).1).setSat n (VReg.ofStage xs).2).writeP n pw (bits pw 0)).writeP n pw1
        (bits pw1 1)).retire n 4 8) := by
  intro xs pw1 bits
  have hall : xs.all Ev.ok = true := List.all_eq_true.mpr (stageLanes_ok _ _ _ (h.vVal_ok vd) hok)
  subst hvs
  exact h.run 4 8 _ ((dif_pos ⟨hcnt, hpw, hbase⟩).trans ((h.fresh.withV vd _).trans ((h.fresh.withVs base _ _ (by omega)).trans
    ((h.fresh.withP pg _).trans ((h.fresh.withP pw _).trans ((h.fresh.withP _ _).trans (h.fresh.checked _ _ _ hall)))))))

/-- Settles O12: each law's stages over checked operands; the winner of MINSEL by induction over the candidates. -/
theorem controlLaws : Obligations.ControlLaws := by
  unfold Obligations.ControlLaws
  constructor
  · intro s n vd va vb pg pw rp cnt h p x d rb ps lanes
    refine ⟨fun hin hal hclean hi hu hne => ?_, fun hin hal hclean hord => ?_, fun hin hal hclean hbad hs => ?_⟩
    · exact h.exec_piStep pg rp (ps := ps) rfl hin hal hclean hi hu hne
    · exact (h.exec_setp vd va pg rp (ps := ps) rfl hin hal hclean).1 hord
    · exact (h.exec_setp vd va pg rp (ps := ps) rfl hin hal hclean).2 hbad hs
  · intro s n vd base cnt pg k h hcnt hbase pw pw1 p cand
    have hwin := minSel_firstMin (fun j => s.vVal n ⟨(base.val + j) % 8, by omega⟩) cnt.toNat
    have hpw : pw = 2 ∨ pw = 4 ∨ pw = 6 := by revert k; decide
    have hne : cnt ≠ 3 := by rintro rfl; exact absurd hcnt (by decide)
    refine ⟨_, _, _, fun i => ⟨(hwin i).2.le, (hwin i).2.least, (hwin i).2.first⟩, getLsbD_predOf _, getLsbD_predOf _, ?_⟩
    rw [h.exec_minsel vd base cnt pg pw hne hpw hbase pw1.isLt rfl fun i => by rw [(hwin i).1]; exact h.vVal_ok _ i]
    simp only [fun i => (hwin i).1, stageLanes]
    rfl

end Sys2Proof.Machine
end

section
/-!
SUPPORT. The operations on takes: what opening, writing, printing and cutting show of the take that they name (R128 to R146).
-/

namespace Sys2Proof.Machine

variable {s : State} {h : HandleId}

/-- The first element of a range that a test finds. -/
theorem find?_finRange_eq_some {m : Nat} {p : Fin m → Bool} {i : Fin m} (hi : p i = true) (hlt : ∀ j < i, p j = false) :
    (List.finRange m).find? p = some i := by
  rw [List.find?_eq_some_iff_getElem]
  refine ⟨hi, i.val, by simp, by simp, fun j hj => ?_⟩
  rw [List.getElem_finRange, Bool.not_eq_true']
  exact hlt _ hj

/-- What the registers of a take's instants hold is no part of TAKE.STATh. -/
theorem State.fget_setWord_bnd (s : State) (h : HandleId) (v w : Word) {f : Fld} (hf : f.addr = A.TAKE_STAT h) :
    ((s.setWord (A.TAKE_BNDL h) v).setWord (A.TAKE_BNDH h) w).fget f = s.fget f := by
  rw [State.fget_setWord_ne, State.fget_setWord_ne] <;> simp only [hf, A.TAKE_STAT, A.TAKE_BNDL, A.TAKE_BNDH] <;> omega

theorem State.takeState_congr {s t : State} (hregs : t.regs = s.regs) (h : HandleId) : t.takeState h = s.takeState h :=
  State.fget_congr hregs _

theorem State.takeActive_of_open (ho : s.takeState h = takeOpen) : s.takeActive h = true := by simp [State.takeActive, ho]

/-! Opening (R128). -/

theorem State.wseq_applyLive_ctrl (s : State) : (s.applyLive A.TAKE_CTRL (A.TAKE_CTRL + 4)).wseq = s.wseq := by
  unfold State.wseq
  rw [s.fget_applyLive _ _ _ (by decide), s.fget_applyLive _ _ _ (by decide)]

/-- The lowest handle that is neither OPEN nor PENDING is opened for its owner, empty and stamped with the present. -/
theorem State.openTake_lowest {owner : Nat} (howner : owner < 256) (hfree : s.takeActive h = false)
    (hbelow : ∀ k < h, s.takeActive k = true) :
    ∃ t, s.openTake owner = (some h, t) ∧ t.takeState h = takeOpen ∧ t.fget (F.TAKE_STAT_OWNER h) = owner ∧
      (t.takes[h]).writes = [] ∧ (t.takes[h]).stamp = s.wseq ∧ (t.takes[h]).openedAt = s.ticks := by
  have hfind : (List.finRange 8).find? (fun k => !s.takeActive k) = some h :=
    find?_finRange_eq_some (by rw [hfree]; rfl) fun k hk => by rw [hbelow k hk]; rfl
  have hticks : (s.applyLive A.TAKE_CTRL (A.TAKE_CTRL + 4)).ticks = s.ticks := by rw [State.applyLive_rest]
  unfold State.openTake
  rw [hfind]
  refine ⟨_, rfl, ?_, ?_, ?_, ?_, ?_⟩
  · rw [State.takeState, State.fget_setWord_bnd _ _ _ _ rfl, State.fget_fset_same]
    · rfl
    all_goals simp [F.TAKE_STAT_STATE]
  · rw [State.fget_setWord_bnd _ _ _ _ rfl, State.fget_fset_disjoint, State.fget_fset_same]
    · exact Nat.mod_eq_of_lt howner
    all_goals simp [F.TAKE_STAT_OWNER, F.TAKE_STAT_STATE]
  · simp [Take.reset]
  · simp [State.wseq_applyLive_ctrl]
  · simp [hticks]

theorem State.openTake_none (owner : Nat) (hall : ∀ k, s.takeActive k = true) : s.openTake owner = (none, s) := by
  have hfind : (List.finRange 8).find? (fun k => !s.takeActive k) = none := by simp [hall]
  unfold State.openTake
  rw [hfind]

/-! Cutting (R131, R146). -/

/-- The report of a cut leaves what the cut shows. -/
theorem cutAs_reports {t u : State} {reason : Nat} (hc : cutAs s t h reason) (hr : Reports t u) : cutAs s u h reason := by
  obtain ⟨hstate, hreason, hwrites, hcount⟩ := hc
  have hlow : ∀ f : Fld, f.addr < 0x400B0000 → u.fget f = t.fget f := fun f hf => hr.fget f (.inl hf)
  have hstat : A.TAKE_STAT h < 0x400B0000 := by have := h.isLt; simp only [A.TAKE_STAT]; omega
  have hcut : (cutField reason).addr < 0x400B0000 := by unfold cutField; split <;> decide
  exact ⟨(hlow _ hstat).trans hstate, (hlow _ hstat).trans hreason, by rw [hr.takes]; exact hwrites, (hlow _ hcut).trans hcount⟩

/-- The counts of cut reasons lie in one register, six bits each. -/
theorem cutField_layout (reason : Nat) :
    (cutField reason).addr = A.TAKE_CUTCNT ∧ (cutField reason).hi < 32 ∧ (cutField reason).lo ≤ (cutField reason).hi ∧
      (cutField reason).width = 6 := by
  unfold cutField
  split <;> decide

/-- A take that is OPEN or PENDING is cut for the reason given. -/
theorem State.cutTake_cuts {reason : Nat} (hactive : s.takeActive h = true) (hreason : reason < 8) :
    cutAs s (s.cutTake h reason) h reason := by
  obtain ⟨haddr, hhi, hlo, hwidth⟩ := cutField_layout reason
  have hstat : ∀ i : Nat, A.TAKE_STAT i ≠ A.TAKE_CUTCNT := fun i => by simp only [A.TAKE_STAT, A.TAKE_CUTCNT]; omega
  have hbndl : A.TAKE_CUTCNT ≠ A.TAKE_BNDL h := by simp only [A.TAKE_BNDL, A.TAKE_CUTCNT]; omega
  have hbndh : A.TAKE_CUTCNT ≠ A.TAKE_BNDH h := by simp only [A.TAKE_BNDH, A.TAKE_CUTCNT]; omega
  have key : ∀ t : State, t.regs = s.regs → (t.takes[h]).writes = [] →
      cutAs s (((((t.fset (F.TAKE_STAT_STATE h) takeCut).fset (F.TAKE_STAT_REASON h) reason).finc (cutField reason)).setWord
        (A.TAKE_BNDL h) 0).setWord (A.TAKE_BNDH h) 0) h reason := by
    intro t hregs hwrites
    refine ⟨?_, ?_, by simp only [State.setWord_takes, State.finc_takes, State.fset_takes, hwrites], ?_⟩
    · rw [State.takeState, State.fget_setWord_bnd _ _ _ _ rfl, State.finc, State.fget_fset_ne _ _ _ _ (haddr ▸ hstat h),
        State.fget_fset_disjoint, State.fget_fset_same]
      · rfl
      all_goals simp [F.TAKE_STAT_STATE, F.TAKE_STAT_REASON]
    · rw [State.fget_setWord_bnd _ _ _ _ rfl, State.finc, State.fget_fset_ne _ _ _ _ (haddr ▸ hstat h), State.fget_fset_same]
      · exact Nat.mod_eq_of_lt hreason
      all_goals simp [F.TAKE_STAT_REASON]
    · rw [State.fget_setWord_ne _ _ _ _ (haddr ▸ hbndh), State.fget_setWord_ne _ _ _ _ (haddr ▸ hbndl), State.finc,
        State.fget_fset_same _ _ _ hhi hlo, hwidth, State.fget_fset_ne _ _ _ _ (haddr ▸ (hstat h).symm),
        State.fget_fset_ne _ _ _ _ (haddr ▸ (hstat h).symm), State.fget_congr hregs]
      exact Nat.mod_eq_of_lt (by omega)
  have hcut := key (s.modTake h fun t => { t with writes := [], instant := none }) rfl (by simp)
  unfold State.cutTake
  rw [if_pos hactive]
  dsimp only
  split
  · exact hcut
  · exact cutAs_reports hcut (State.raise_reports _ _)

/-! Writing (R130 to R135). -/

/-- No register of TAKE is takeable (R149). -/
theorem ne_takeStat_of_takeable {a : Nat} (ha : takeable a = true) (h : HandleId) : a ≠ A.TAKE_STAT h := by
  rintro rfl
  have hblock : blockOf (A.TAKE_STAT h) = 3 := by have := h.isLt; simp only [blockOf, A.TAKE_STAT]; omega
  simp [takeable, hblock, takeableBlock] at ha

/-- A write of a takeable register that it can hold, into a take with room. -/
theorem State.writeTake_appends {a : Nat} {v : Word} (hal : a % 4 = 0) (ha : takeable a = true) (hv : staticBad a v = false)
    (hroom : (s.takes[h]).writes.length < 512) (hbuf : s.takeEntries < 2048) :
    let t := (s.writeTake h a v).1
    (t.takes[h]).writes = (s.takes[h]).writes ++ [(a, v)] ∧ t.takeState h = s.takeState h ∧
      t.fget (F.TAKE_STAT_WRITES h) = (s.takes[h]).writes.length + 1 ∧ t.word a = s.word a := by
  have htarget : s.takeTarget a = true := by simp [State.takeTarget, hal, ha]
  have hfits : ¬ (512 ≤ (s.takes[h]).writes.length ∨ 2048 ≤ s.takeEntries) := by omega
  have hwrite : s.writeTake h a v = ((s.modTake h fun t => { t with writes := t.writes ++ [(a, v)] }).fset (F.TAKE_STAT_WRITES h)
      ((s.takes[h]).writes.length + 1), true) := by
    unfold State.writeTake
    rw [if_neg (by simp [htarget]), if_neg (by simp [hv]), if_neg hfits]
  rw [hwrite]
  refine ⟨by simp, ?_, ?_, State.word_fset_ne _ _ _ _ (ne_takeStat_of_takeable ha h)⟩
  · rw [State.takeState, State.fget_fset_disjoint]
    · rfl
    all_goals simp [F.TAKE_STAT_STATE, F.TAKE_STAT_WRITES]
  · rw [State.fget_fset_same]
    · exact Nat.mod_eq_of_lt (by simp only [Fld.width, F.TAKE_STAT_WRITES]; omega)
    all_goals simp [F.TAKE_STAT_WRITES]

/-- A write to an address that no take may name cuts it (R134). -/
theorem State.writeTake_refused {a : Nat} (v : Word) (hal : a % 4 ≠ 0) : (s.writeTake h a v).1 = s.cutTake h cutRefused := by
  have htarget : s.takeTarget a = false := by simp [State.takeTarget, hal]
  simp [State.writeTake, htarget]

/-! Printing (R138). -/

/-- A take that is printed for a boundary other than a given instant waits for it. -/
theorem State.printTake_pending {bnd : Nat} (instant : BitVec 48) (hb : bnd ≤ 4) (hn : bnd ≠ 3) :
    let t := s.printTake h bnd instant
    t.takeState h = takePending ∧ t.fget (F.TAKE_STAT_BND h) = bnd ∧ (t.takes[h]).printedAt = s.ticks ∧
      (t.takes[h]).writes = (s.takes[h]).writes := by
  unfold State.printTake
  dsimp only
  rw [if_neg fun hc => hn hc.1]
  refine ⟨?_, ?_, by simp, by simp⟩
  · rw [State.takeState, State.fget_fset_same]
    · rfl
    all_goals simp [F.TAKE_STAT_STATE]
  · rw [State.fget_fset_disjoint, State.fget_congr (State.modTake_regs _ _ _), State.fget_fset_same]
    · exact Nat.mod_eq_of_lt (by simp only [Fld.width, F.TAKE_STAT_BND]; omega)
    all_goals simp [F.TAKE_STAT_BND, F.TAKE_STAT_STATE]

end Sys2Proof.Machine
end

section
/-!
O16: the take instructions of a core.
-/

namespace Sys2Proof.Machine

variable {s : State} {n : CoreId} {h : HandleId}

theorem State.takeOp_run (hs : s.inSpec n = false) (k : Unit → Run) : s.takeOp n k = k () := by
  unfold State.takeOp
  rw [hs]
  rfl

/-- The handle that a register names, of a take in an allowed state that the core owns (R123). -/
theorem State.withTake_own {v : Word} {ok : Nat → Bool} (k : HandleId → Run) (hv : v = BitVec.ofNat 32 h.val)
    (howner : s.fget (F.TAKE_STAT_OWNER h) = 0x10 + n.val) (hok : ok (s.takeState h) = true) : s.withTake n v ok k = k h := by
  have hval : v.toNat = h.val := by rw [hv, BitVec.toNat_ofNat]; omega
  have hlt : v.toNat < 8 := hval ▸ h.isLt
  obtain rfl : (⟨v.toNat, hlt⟩ : HandleId) = h := Fin.ext hval
  unfold State.withTake
  rw [dif_pos hlt]
  exact if_pos ⟨howner, hok⟩

theorem CoreSound.exec_tkOpen (hsound : CoreSound s n) (hs : s.inSpec n = false) (rd : Sreg) {o : Option HandleId} {t : State}
    (ho : s.fresh.openTake (0x10 + n.val) = (o, t)) :
    exec (.tkOpen n rd) s = .next ((t.writeS n rd (o.elim 0xFFFFFFFF fun h => BitVec.ofNat 32 h.val)).retire n 4 4) := by
  refine hsound.run 4 4 _ ((State.takeOp_run (s := s.fresh) hs _).trans ((hsound.fresh.checked _ _ _ rfl).trans ?_))
  rw [ho]
  cases o <;> rfl

theorem CoreSound.exec_tkWr (hsound : CoreSound s n) (hs : s.inSpec n = false) (rd ra rb : Sreg) (hv : s.sVal n ra = BitVec.ofNat 32 h.val)
    (howner : s.fget (F.TAKE_STAT_OWNER h) = 0x10 + n.val) (ho : s.takeState h = takeOpen) :
    exec (.tkWr n rd ra rb) s = .next ((s.fresh.writeTake h (s.sVal n rb).toNat (s.sVal n rd)).1.retire n 4 2) :=
  hsound.run 4 2 _ ((State.takeOp_run (s := s.fresh) hs _).trans ((hsound.fresh.withS rd _).trans ((hsound.fresh.withSS ra rb _).trans
    (State.withTake_own (s := s.fresh) _ hv howner (beq_iff_eq.mpr ho)))))

theorem CoreSound.exec_tkPrint (hsound : CoreSound s n) (hs : s.inSpec n = false) (ra rb : Sreg) {bnd : BitVec 5} (hb : bnd.toNat ≤ 4)
    (hv : s.sVal n ra = BitVec.ofNat 32 h.val) (howner : s.fget (F.TAKE_STAT_OWNER h) = 0x10 + n.val) (ho : s.takeState h = takeOpen) :
    exec (.tkPrint n ra rb bnd) s =
      .next ((s.fresh.printTake h bnd.toNat (s.fresh.nearInstant (s.sVal n rb))).retire n 4 4) :=
  hsound.run 4 4 _ ((if_pos hb).trans ((State.takeOp_run (s := s.fresh) hs _).trans ((hsound.fresh.withSS ra rb _).trans
    (State.withTake_own (s := s.fresh) _ hv howner (beq_iff_eq.mpr ho)))))

theorem CoreSound.exec_tkCut (hsound : CoreSound s n) (hs : s.inSpec n = false) (ra : Sreg) (hv : s.sVal n ra = BitVec.ofNat 32 h.val)
    (howner : s.fget (F.TAKE_STAT_OWNER h) = 0x10 + n.val) (hactive : s.takeActive h = true) :
    exec (.tkCut n ra) s = .next ((s.fresh.cutTake h cutAbandoned).retire n 4 4) :=
  hsound.run 4 4 _ ((State.takeOp_run (s := s.fresh) hs _).trans ((hsound.fresh.withS ra _).trans
    (State.withTake_own (s := s.fresh) _ hv howner hactive)))

theorem CoreSound.exec_tkStat (hsound : CoreSound s n) (hs : s.inSpec n = false) (rd ra : Sreg) (hv : s.sVal n ra = BitVec.ofNat 32 h.val) :
    exec (.tkStat n rd ra) s = .next (scalarOut s n rd 4 (s.word (A.TAKE_STAT h))) := by
  have hval : (s.sVal n ra).toNat = h.val := by rw [hv, BitVec.toNat_ofNat]; omega
  have hlt : (s.sVal n ra).toNat < 8 := hval ▸ h.isLt
  rw [← hval]
  exact hsound.run 4 4 _ ((State.takeOp_run (s := s.fresh) hs _).trans ((hsound.fresh.withS ra _).trans
    ((dif_pos hlt).trans (hsound.fresh.intD rd 4 _))))

/-- Settles O16: each instruction is one operation on the take that it names, and then retires. -/
theorem takeInstructions : Obligations.TakeInstructions := by
  unfold Obligations.TakeInstructions
  intro s n rd ra rb h bnd hsound hs mine a v
  refine ⟨fun hfree hbelow => ?_, fun hall => ?_, ?_, ?_, ?_, ?_, hsound.exec_tkStat hs rd ra⟩
  · obtain ⟨t, ht, hstate, howner, hwrites, hstamp, hopened⟩ :=
      State.openTake_lowest (s := s.fresh) (owner := 0x10 + n.val) (by omega) hfree hbelow
    have hregs : ((t.writeS n rd (BitVec.ofNat 32 h.val)).retire n 4 4).regs = t.regs := by simp
    have htakes : ((t.writeS n rd (BitVec.ofNat 32 h.val)).retire n 4 4).takes = t.takes := by simp
    refine ⟨_, hsound.exec_tkOpen hs rd ht, (State.takeState_congr hregs h).trans hstate, (State.fget_congr hregs _).trans howner, ?_⟩
    rw [Option.elim_some, htakes]
    refine ⟨hwrites, hstamp, hopened, fun hrd => ?_⟩
    rw [State.sVal_retire, State.sVal_writeS, if_pos ⟨hrd, rfl⟩]
  · refine ⟨_, hsound.exec_tkOpen hs rd (State.openTake_none (s := s.fresh) _ hall), fun hrd => ?_, by simp⟩
    rw [State.sVal_retire, State.sVal_writeS, if_pos ⟨hrd, rfl⟩]
    rfl
  · intro ⟨hv, howner⟩ ho hal ha hbad hroom hbuf
    obtain ⟨hwrites, hstate, hcount, hword⟩ := State.writeTake_appends (s := s.fresh) (h := h) hal ha hbad hroom hbuf
    exact ⟨_, hsound.exec_tkWr hs rd ra rb hv howner ho, hwrites, hstate.trans ho, hcount, hword⟩
  · intro ⟨hv, howner⟩ ho hal
    obtain ⟨hstate, hreason, hwrites, -⟩ :=
      State.cutTake_cuts (s := s.fresh) (reason := cutRefused) (State.takeActive_of_open ho) (by decide)
    refine ⟨_, hsound.exec_tkWr hs rd ra rb hv howner ho, ?_⟩
    rw [State.writeTake_refused _ hal]
    exact ⟨hstate, hreason, hwrites⟩
  · intro ⟨hv, howner⟩ ho hb hn
    obtain ⟨hstate, hbnd, hprinted, hwrites⟩ :=
      State.printTake_pending (s := s.fresh) (h := h) (s.fresh.nearInstant (s.sVal n rb)) hb fun hc => hn (BitVec.eq_of_toNat_eq hc)
    exact ⟨_, hsound.exec_tkPrint hs ra rb hb hv howner ho, hstate, hbnd, hprinted, hwrites⟩
  · intro ⟨hv, howner⟩ hactive
    obtain ⟨hstate, hreason, hwrites, hcount⟩ := State.cutTake_cuts (s := s.fresh) (reason := cutAbandoned) hactive (by decide)
    exact ⟨_, hsound.exec_tkCut hs ra hv howner hactive, hstate, hreason, hwrites, hcount⟩

end Sys2Proof.Machine
end

section
/-!
O31: an EMIT while the main oscillator has stopped.
-/

namespace Sys2Proof.Machine

/-- An EMIT of quantity 0 to ring A, of period 1 with no lane. -/
def emitZero : EmitMsg := ⟨0, 1, 0, 0, 0, Vector.replicate 48 0, Vector.replicate 48 0, 0⟩

/-- PLAN is powered and core 0 has an EMIT in its FIFO, but the main oscillator, from which both derive, has stopped (R214). -/
def emitStopped : State :=
  { (State.reset.fset F.SUP_DOM_PWR 0xFFF).modCore 0 fun c => { c with fifo := [emitZero] } with
    clk := { State.reset.clk with mainBack := 1 } }

/-- The EMIT is on time, of a quantity listed and used. -/
theorem emitStopped_used :
    emitStopped.emitLate emitZero = false ∧ qtyListed emitZero.dest emitZero.qty.toNat = true ∧
      (emitStopped.planQty emitZero.dest).contains emitZero.qty.toNat = true := by decide

/-- It stays in the FIFO while the oscillator does not run. -/
theorem emitStopped_waits : ∃ t, exec (.emitReceived 0) emitStopped = .next t ∧ (t.cores[(0 : CoreId)]).fifo = [emitZero] :=
  ⟨_, rfl, rfl⟩

/-- Refutes O31: the statement asks only that PLAN is powered, but with the main oscillator stopped no EMIT leaves its core's FIFO
(R214). In `emitStopped` an EMIT on time, of a quantity in use, is still in the FIFO behind the event. -/
theorem not_plannerIntake : ¬ Obligations.PlannerIntake := by
  unfold Obligations.PlannerIntake
  intro h
  obtain ⟨htaken, -⟩ := h emitStopped 0 emitZero [] (by decide) rfl
  obtain ⟨hontime, hlisted, hused⟩ := emitStopped_used
  obtain ⟨t, ht, hgone, -⟩ := htaken hontime hlisted hused
  obtain ⟨u, hu, hwaits⟩ := emitStopped_waits
  cases ht.symm.trans hu
  rw [hwaits] at hgone
  cases hgone

end Sys2Proof.Machine
end
